-- ==== Sys2Proof/Word.lean ====
section
/-! DEFINITION. The word types of the part: bytes, 16-bit port words and the 32-bit line clock. -/

namespace Sys2Proof

/-- A byte of Exchange Memory or of a stand link frame. -/
abbrev Byte := BitVec 8

/-- A 16-bit word of the processor port (R158). -/
abbrev Word := BitVec 16

/-- A reading of the line clock, in microseconds, wrapping (R1). -/
abbrev Clock := BitVec 32

end Sys2Proof
end

