-- ==== Sys2Proof/Syntax.lean ====
section
/-! DEFINITION. The commands the part takes: one constructor for each row of spec/opcode_table.json, and the
small types their operands need. -/

namespace Sys2Proof

/-- The level of the external trip input (R125). -/
inductive EtripLevel
  | healthy
  | trip
  deriving DecidableEq, Repr, Inhabited

/-- An entry of the poll list: a stand by its number, or the exit gauge (R146). -/
inductive PollEntry
  | stand (k : Nat)
  | gauge
  deriving DecidableEq, Repr, Inhabited

/-- The pieces of work one delivered stand reply gives, whose order the manual leaves open in part (R75, R90,
R124, R148, R153): the Tracker's, the Gap Unit's, the taking of the causes the Tracker raised, the Trip Unit's
reply check, and the next exchange's preparation. -/
inductive Work
  | tracker
  | gap
  | causes
  | check
  | nextPoll
  deriving DecidableEq, Repr, Inhabited

/-- The flags of a STAND_REPLY (R144). -/
structure ReplyFlags where
  hydFault : Bool := false
  overtravel : Bool := false
  localMode : Bool := false
  deriving DecidableEq, Repr, Inhabited

/-- The contents of a valid reply (R144). -/
inductive Reply
  | stand (p f v : Nat) (flags : ReplyFlags)
  | gauge (valid : Bool) (hx : Nat)
  deriving DecidableEq, Repr, Inhabited

/-- How a received frame stood when its exchange ended (R148, step 4): the line had been idle for so many microseconds
since the frame's last bit, or the frame was still arriving. -/
inductive FrameEnd
  | idle (us : Nat)
  | arriving
  deriving DecidableEq, Repr, Inhabited

/-- The commands. `dt` is the time in microseconds since the command before it (log 1); `k` is a stand number. -/
inductive Instr
  /-- POWER_ON (R159): RESET_N rises, with the external trip input at the level given. -/
  | powerOn (etrip : EtripLevel)
  /-- RUN_LEVEL_HALT (R164). -/
  | runLevelHalt (dt : Clock)
  /-- RUN_LEVEL_CONFIGURE (R162, R165). -/
  | runLevelConfigure (dt : Clock)
  /-- RUN_LEVEL_LOOPBACK (R162, R165). -/
  | runLevelLoopback (dt : Clock)
  /-- RUN_LEVEL_RUN (R163). -/
  | runLevelRun (dt : Clock)
  /-- ATTENTION_WRITE (R161). -/
  | attentionWrite (dt : Clock) (value : Word)
  /-- ATTENTION_MASK_WRITE (R161). -/
  | attentionMaskWrite (dt : Clock) (value : Word)
  /-- REGISTER_WRITE_IGNORED (R160, R186). -/
  | registerWriteIgnored (dt : Clock) (offset value : Word)
  /-- EXM_WRITE (R158). -/
  | exmWrite (dt : Clock) (addr value : Word)
  /-- WATCHED_WORD_ARRIVAL (R166). -/
  | watchedWordArrival (dt : Clock) (value : Word)
  /-- ANNOUNCE_HEAD (R31): its owner's work on the order that stands taken. -/
  | announceHead (dt : Clock)
  /-- SET_MODULUS (R55). -/
  | setModulus (dt : Clock)
  /-- SET_TRIM (R89). -/
  | setTrim (dt : Clock)
  /-- LOAD_SCHEDULE (R98). -/
  | loadSchedule (dt : Clock)
  /-- UNLOAD_SCHEDULE (R104). -/
  | unloadSchedule (dt : Clock)
  /-- PRESET_GAP (R111). -/
  | presetGap (dt : Clock)
  /-- CALIBRATE_ZERO (R114). -/
  | calibrateZero (dt : Clock)
  /-- ABORT_MOVE (R118). -/
  | abortMove (dt : Clock)
  /-- TRIP_STANDS (R137). -/
  | tripStands (dt : Clock)
  /-- RESET_TRIP (R138). -/
  | resetTrip (dt : Clock)
  /-- ETRIP_CHANGE (R125): the new level has held for 1 ms. -/
  | etripChange (dt : Clock) (new : EtripLevel)
  /-- POLL_TIMER_EXPIRY (R147, R149). -/
  | pollTimerExpiry (dt : Clock)
  /-- POLL_SENT (R148). -/
  | pollSent (dt : Clock)
  /-- REPLY_WINDOW_CLOSE (R148): `prepFirst` says that the next preparation is taken before the work on the miss. -/
  | replyWindowClose (dt : Clock) (prepFirst : Bool)
  /-- REPLY_RECEIVED (R148, R150): the end of an exchange whose reply has been received: the bytes received, how the
  frame stood then, and the order of the work. -/
  | replyReceived (dt : Clock) (frame : List Byte) (fin : FrameEnd) (plan : List Work)
  /-- BODY_CUT (R12): the generator's countdown by a strip length of `dL` micrometres. -/
  | bodyCut (dt : Clock) (dL : Nat)
  /-- LOAD_ON (R28): the threading work of a reply of force `f` at stand `k` that confirms a load-on. -/
  | loadOn (dt : Clock) (k f : Nat)
  /-- LOAD_OFF (R28): the threading work of a reply of force `f` at stand `k` that confirms a load-off. -/
  | loadOff (dt : Clock) (k f : Nat)
  /-- LOCK_ON (R36): the threading work of a reply of force `f` at stand `k` that makes the lock-on. -/
  | lockOn (dt : Clock) (k f : Nat)
  /-- PRESET_COMPLETE (R112): the move test of a reply of gap `g` that completes the preset at stand `k`. -/
  | presetComplete (dt : Clock) (k : Nat) (g : Int)
  /-- ZERO_FOUND (R115): the move test of a reply of position `p` and force `f` that finds the zero at stand `k`. -/
  | zeroFound (dt : Clock) (k p f : Nat)
  /-- CALIBRATION_RETIRE (R116): the move test of a reply of gap `g` that retires the calibration at stand `k`. -/
  | calibrationRetire (dt : Clock) (k : Nat) (g : Int)
  /-- MOVE_TIMEOUT (R117): the time test of a preparation that ends the move at stand `k`. -/
  | moveTimeout (dt : Clock) (k : Nat)
  /-- STATION_SILENT (R152): the miss that makes the station silent. -/
  | stationSilent (dt : Clock) (entry : PollEntry)
  /-- STATION_REJOINED (R152): the valid reply that makes the silent station present, and its delivery. -/
  | stationRejoined (dt : Clock) (entry : PollEntry) (reply : Reply) (plan : List Work)
  /-- SAMPLE_EXPIRY (R63). -/
  | sampleExpiry (dt : Clock)
  /-- ELAPSED_SATURATED (R154). -/
  | elapsedSaturated (dt : Clock) (entry : PollEntry)
  /-- STRAY_FRAME_DISCARD (R143). -/
  | strayFrameDiscard (dt : Clock) (bytes : List Byte)
  /-- JOURNAL_READ_WRITE (R175). -/
  | journalReadWrite (dt : Clock) (value : Word)
  /-- REPLY_START (R148). -/
  | replyStart (dt : Clock)
  /-- RESET_ASSERTED (R159). -/
  | resetAsserted (dt : Clock)
  deriving DecidableEq, Repr

end Sys2Proof
end

