-- ==== Sys2Proof/Decode.lean ====
section
/-! DEFINITION. Commands spelled by words. spec/opcode_table.json gives bits to none of its rows, so no word
spells a command (log 40). -/

namespace Sys2Proof

/-- The command a table word spells: none, since the table gives no row any bits. -/
def decodeTableWord (_nbits _w : Nat) : Option Instr := none

end Sys2Proof
end

