-- ==== Sys2Proof/Config.lean ====
section
/-! DEFINITION. The free values: what the manual leaves without a value, so that no proof can rest on one. -/

namespace Sys2Proof

/-- A word the manual gives no value to. The first number names the occasion (the free index of State when the
word was written), the second the place within it. Log 9 and log 10. -/
opaque Config.freeWord : Nat → Nat → Word

/-- What a byte field reads for a count past 255, which the manual does not say. Log 49. -/
opaque Config.freeByte : Nat → Byte

end Sys2Proof
end

