-- ==== Sys2Proof/Machine/PerStand.lean ====
section
/-! DEFINITION. One value for each of the stands 1 to 8 (00_scope, *Stands and zones*), addressed by stand
number. A number outside 1 to 8 names no stand: reading it gives the default and writing it changes nothing. -/

namespace Sys2Proof.Machine

/-- A value for each stand 1 to 8, and in the same way for each zone 1 to 8. -/
structure PerStand (α : Type) where
  s1 : α
  s2 : α
  s3 : α
  s4 : α
  s5 : α
  s6 : α
  s7 : α
  s8 : α
  deriving DecidableEq, Repr, Inhabited

/-- The same value at every stand. -/
def PerStand.all {α : Type} (a : α) : PerStand α := ⟨a, a, a, a, a, a, a, a⟩

/-- The value at stand `k`. -/
def PerStand.get {α : Type} [Inhabited α] (p : PerStand α) (k : Nat) : α :=
  match k with
  | 1 => p.s1
  | 2 => p.s2
  | 3 => p.s3
  | 4 => p.s4
  | 5 => p.s5
  | 6 => p.s6
  | 7 => p.s7
  | 8 => p.s8
  | _ => default

/-- The value at stand `k` replaced. -/
def PerStand.set {α : Type} (p : PerStand α) (k : Nat) (a : α) : PerStand α :=
  match k with
  | 1 => { p with s1 := a }
  | 2 => { p with s2 := a }
  | 3 => { p with s3 := a }
  | 4 => { p with s4 := a }
  | 5 => { p with s5 := a }
  | 6 => { p with s6 := a }
  | 7 => { p with s7 := a }
  | 8 => { p with s8 := a }
  | _ => p

/-- Every value passed through `f`. -/
def PerStand.map {α β : Type} (p : PerStand α) (f : α → β) : PerStand β :=
  ⟨f p.s1, f p.s2, f p.s3, f p.s4, f p.s5, f p.s6, f p.s7, f p.s8⟩

/-- The value at stand `k` is `f k`. -/
def PerStand.ofStand {α : Type} (f : Nat → α) : PerStand α :=
  ⟨f 1, f 2, f 3, f 4, f 5, f 6, f 7, f 8⟩

/-- The values in stand order. -/
def PerStand.toList {α : Type} (p : PerStand α) : List α :=
  [p.s1, p.s2, p.s3, p.s4, p.s5, p.s6, p.s7, p.s8]

/-- The stand numbers of the part, in order. -/
def standNumbers : List Nat := [1, 2, 3, 4, 5, 6, 7, 8]

/-- The stands 1 to `n`, in order. -/
def standsTo (n : Nat) : List Nat := standNumbers.take n

end Sys2Proof.Machine
end

