-- ==== Sys2Proof/Machine/State.lean ====
section
/-! DEFINITION. The state of the part: every block's registers, records and queues, the pins, Exchange Memory,
and the queue of waiting commands; and the state after reset. -/

namespace Sys2Proof.Machine

/-- The part reports no machine fault: what goes wrong is state (PROTECT, CONFIG_RESULT, records, results, trip
causes). Raised by no command; safe. -/
inductive Fault
  /-- Raised by no command. -/
  | notRaised
  deriving DecidableEq, Repr

/-- Why a command has no meaning. -/
inductive Refusal
  /-- A command that is not modelled yet, by its mnemonic. Answered only by an arm of `exec`; safe. -/
  | notModelled (mnemonic : String)
  deriving DecidableEq, Repr

/-- The run levels (R162). -/
inductive RunLevel
  | halt
  | configure
  | loopback
  | run
  deriving DecidableEq, Repr, Inhabited

/-- The schedule slots (R96). -/
inductive Slot
  | a
  | b
  deriving DecidableEq, Repr, Inhabited

/-- Threading states (R26). -/
inductive ThreadState
  | vacant
  | expecting
  | biting
  | rolling
  | tailing
  deriving DecidableEq, Repr, Inhabited

/-- Kinds of mark (R3). -/
inductive MarkKind
  | head
  | body
  | tail
  deriving DecidableEq, Repr, Inhabited

/-- How the band is chosen (R48). -/
inductive BandMode
  | lookup
  | held
  deriving DecidableEq, Repr, Inhabited

/-- Station states (R151). -/
inductive StationState
  | unknown
  | present
  | silent
  deriving DecidableEq, Repr, Inhabited

/-- Slot states (R96). -/
inductive SlotState
  | free
  | waiting
  | inForce
  | draining
  deriving DecidableEq, Repr, Inhabited

/-- Trip causes, in the order of their codes (08, *Causes*). -/
inductive Cause
  | external
  | ordered
  | missedBite
  | loadLoss
  | coilOverlap
  | unexpectedLoad
  | stationSilent
  | gapOvertravel
  | forceOverload
  | terminalFault
  | levelDrop
  deriving DecidableEq, Repr, Inhabited

/-- How far a cause spreads (R127). -/
inductive Cascade
  | none
  | upstream
  | all
  deriving DecidableEq, Repr, Inhabited

/-- Details of an ABORTED result (R170). -/
inductive AbortDetail
  | trip
  | order
  | timeout
  | equipment
  | level
  | station
  deriving DecidableEq, Repr, Inhabited

/-- Details of a REFUSED result (R170). -/
inductive RefuseDetail
  | busy
  | state
  | level
  | localMode
  | station
  | move
  | activeCause
  deriving DecidableEq, Repr, Inhabited

/-- Details of an INVALID result (R170). -/
inductive InvalidDetail
  | kind
  | field
  | pointer
  | state
  deriving DecidableEq, Repr, Inhabited

/-- The class and detail of a result (R170). -/
inductive ResultClass
  | completed
  | completedClamped
  | aborted (d : AbortDetail)
  | refused (d : RefuseDetail)
  | invalid (d : InvalidDetail)
  deriving DecidableEq, Repr, Inhabited

/-- A result: class, detail and value (R170). -/
structure Result where
  cls : ResultClass
  value : Word
  deriving DecidableEq, Repr, Inhabited

/-- Journal record kinds, in the order of their codes (R176). -/
inductive RecordKind
  | bite
  | release
  | unannouncedBite
  | coilMismatch
  | trackCorrected
  | tailLate
  | poolEmpty
  | scheduleSwitch
  | slotFreed
  | coilGauged
  | markGauged
  | gaugeOut
  | gaugeBack
  | stationSilent
  | stationRejoined
  | tripFirst
  | tripAdded
  | tripReset
  | chainFault
  | modulusApplied
  | lost
  deriving DecidableEq, Repr, Inhabited

/-- A journal record (R176, R192). -/
structure JournalRecord where
  kind : RecordKind
  stand : Nat
  time : Clock
  coil : Word
  v1 : Word
  v2 : Word
  v3 : Word
  deriving DecidableEq, Repr, Inhabited

/-- The Journal Writer and the journal area (R172). -/
structure Journal where
  w : BitVec 8 := 0
  r : BitVec 8 := 0
  lost : Nat := 0
  slots : List (Option JournalRecord) := List.replicate 128 none
  deriving DecidableEq, Repr, Inhabited

/-- The bytes of Exchange Memory that the processor writes and of the order area, in canonical form: addresses
rising, no byte equal to 0, which is what an unlisted address reads as (R159). -/
abbrev Memory := List Host.Cell

/-- A modulus table: TH, B1 to B7 and M0 to M7 (R45). -/
structure ModulusTable where
  th : Nat := 0
  b : List Nat := []
  m : List Nat := []
  deriving DecidableEq, Repr, Inhabited

/-- What the line description says of one stand: its address, the distance to the next stand, and the initial
zero offset, calibration stretch and table (R180). -/
structure StandLine where
  addr : Nat := 0
  d : Nat := 0
  z : Nat := 0
  zst : Nat := 0
  table : ModulusTable := {}
  deriving DecidableEq, Repr, Inhabited

/-- A trip matrix entry as the line description holds it (R189). -/
structure MatrixBytes where
  actions : Nat := 0
  cascade : Nat := 0
  entryStop : Nat := 0
  deriving DecidableEq, Repr, Inhabited

/-- The line description, field by field (R180). -/
structure LineDesc where
  n : Nat
  gaugeAddr : Nat
  stands : PerStand StandLine
  dG : Nat
  segLen : Nat
  period : Nat
  timeoutCode : Nat
  silentCount : Nat
  rejoinCount : Nat
  nDb : Nat
  wEarly : Nat
  wLate : Nat
  pLo : Nat
  pHi : Nat
  fMax : Nat
  trimLim : Nat
  fCal : Nat
  rCal : Nat
  cMax : Nat
  rPreset : Nat
  sOpen : Nat
  tMove : Nat
  options : Nat
  matrix : List MatrixBytes
  deriving DecidableEq, Repr, Inhabited

/-- The stand block of a pass schedule (R93). -/
structure StandSchedule where
  sSch : Int := 0
  sMin : Int := 0
  sMax : Int := 0
  r : Nat := 0
  hTarget : Nat := 0
  agcMode : Nat := 0
  kg : Nat := 0
  agcLim : Nat := 0
  db : Nat := 0
  kff : Int := 0
  ffLim : Nat := 0
  slip : Nat := 0
  fOn : Nat := 0
  fOff : Nat := 0
  nLock : Nat := 0
  deriving DecidableEq, Repr, Inhabited

/-- A pass schedule (R93). -/
structure Schedule where
  coil : Word := 0
  count : Nat := 0
  km : Nat := 0
  monLim : Nat := 0
  dbMon : Nat := 0
  tol : Nat := 0
  stands : PerStand StandSchedule := PerStand.all {}
  deriving DecidableEq, Repr, Inhabited

/-- What the take of a LOAD_SCHEDULE found: a failed check of R94 with its result, or the record copied. -/
inductive ScheduleTake
  | failed (r : Result)
  | copied (rec : Schedule)
  deriving DecidableEq, Repr, Inhabited

/-- An order by its kind, with its parameters (R187). -/
inductive Order
  | announceHead (coil : Word) (h0 : Nat)
  | setModulus (stand : Nat) (table : ModulusTable)
  | setTrim (stand : Nat) (trim : Int)
  | loadSchedule (take : ScheduleTake)
  | unloadSchedule (slot : Nat)
  | presetGap (stand : Nat) (target : Int) (tolerance : Nat)
  | calibrateZero (stand : Nat)
  | abortMove (stand : Nat)
  | tripStands (mill set : Nat)
  | resetTrip
  deriving DecidableEq, Repr, Inhabited

/-- The copy of the order being taken: its block, its contents and the time of the take (R167). -/
structure OrderCopy where
  ptr : Nat
  order : Order
  time : Clock
  deriving DecidableEq, Repr, Inhabited

/-- The Order Unit: the watched word, the order copy and the table of long orders in flight (R166, R169). -/
structure OrderUnit where
  watched : Option Nat := none
  copy : Option OrderCopy := none
  inFlight : PerStand (Option Nat) := PerStand.all none
  deriving DecidableEq, Repr, Inhabited

/-- A station record (R151). The last reply contents of a stand are `p f v flags`, of the gauge `valid hx`.
`vDelivered` is the speed as last delivered (R177); `lastLocal` is LOCAL of the latest valid reply, internal
answers included (R111, R155, log 18). -/
structure Station where
  addr : Nat := 0
  state : StationState := .unknown
  missRun : Nat := 0
  goodRun : Nat := 0
  prevTime : Option Clock := none
  saturated : Bool := false
  silentSince : Clock := 0
  p : Nat := 0
  f : Nat := 0
  v : Nat := 0
  flags : ReplyFlags := {}
  valid : Bool := false
  hx : Nat := 0
  vDelivered : Nat := 0
  lastLocal : Bool := false
  deriving DecidableEq, Repr, Inhabited

/-- How far the exchange in flight has come (R148): the poll is being sent; the reply window opened at the time given;
a reply began at the time given. -/
inductive Phase
  | sending
  | window (opened : Clock)
  | receiving (began : Clock)
  deriving DecidableEq, Repr, Inhabited

/-- The position in the poll cycle: the entry being served, its phase, whether the cycle is late (R146, R149). -/
structure Cycle where
  index : Nat
  phase : Phase
  late : Bool
  deriving DecidableEq, Repr, Inhabited

/-- The Stand Link Controller. `cycle` is none between cycles; `nextExpiry` is none while the timer is stopped. -/
structure Link where
  pollList : List PollEntry := []
  cycle : Option Cycle := none
  expiryWaiting : Bool := false
  nextExpiry : Option Clock := none
  stations : PerStand Station := PerStand.all {}
  gauge : Station := {}
  txFrame : List Byte := []
  deriving DecidableEq, Repr, Inhabited

/-- A mark (R3). The slot tag is none only if no slot was in force at stand 1 at the cut, which no run reaches
(log 17). -/
structure Mark where
  id : Word
  coil : Word
  tag : Option Slot
  kind : MarkKind
  pos : Nat
  thick : List Nat
  hold : Option Nat := none
  lateReported : Bool := false
  deriving DecidableEq, Repr, Inhabited

/-- The mark generator (R9). -/
structure Generator where
  running : Bool := false
  base : Nat := 0
  count : Int := 0
  deriving DecidableEq, Repr, Inhabited

/-- The threading record of a stand (R26). H0 is used at stand 1 only, the notices at stands 2 to N only. -/
structure Threading where
  state : ThreadState := .vacant
  coil : Word := 0
  h0 : Nat := 0
  onRun : Nat := 0
  offRun : Nat := 0
  lockCount : Nat := 0
  lockMade : Bool := false
  releaseNotice : Bool := false
  headNotice : Option Word := none
  deriving DecidableEq, Repr, Inhabited

/-- The Strip Tracker (R3 to R44). Zone queues run from front to back. `raised` holds the causes raised by the
work in progress and not yet handed to the Trip Unit: the model's own field, empty between commands (log 28). -/
structure Tracker where
  zones : PerStand (List Mark) := PerStand.all []
  carry : PerStand Nat := PerStand.all 0
  gen : Generator := {}
  nextId : Word := 0
  emptySpell : Bool := false
  lastPassed : PerStand (Option Word) := PerStand.all none
  threading : PerStand Threading := PerStand.all {}
  raised : List (Cause × Nat) := []
  deriving DecidableEq, Repr, Inhabited

/-- The estimation record of a stand (R45). -/
structure Estimate where
  loaded : Bool := false
  table : Option ModulusTable := none
  pendingTable : Option ModulusTable := none
  mode : BandMode := .lookup
  band : Nat := 0
  z : Nat := 0
  zst : Nat := 0
  p : Nat := 0
  f : Nat := 0
  gapAct : Int := 0
  stretch : Nat := 0
  hEst : Nat := 0
  clamped : Bool := false
  deriving DecidableEq, Repr, Inhabited

/-- The gauge record (R61). `out` is the tolerance state OUT. -/
structure GaugeRecord where
  held : Bool := false
  hx : Nat := 0
  time : Clock := 0
  silent : Bool := false
  out : Bool := false
  paired : Nat := 0
  unpaired : Nat := 0
  outCount : Nat := 0
  deriving DecidableEq, Repr, Inhabited

/-- The pending outcome of a calibration (R110). -/
inductive Pending
  | none
  | completed
  | aborted (d : AbortDetail)
  deriving DecidableEq, Repr, Inhabited

/-- The move state with its move record (R110). `z0` is Z at acceptance, which the result value needs (R116). -/
inductive Move
  | none
  | preset (target : Int) (tolerance : Nat) (start : Clock) (run : Nat)
  | hold (target : Int)
  | calClose (start : Clock) (startBase : Int) (run : Nat) (z0 : Nat)
  | calOpen (start : Clock) (startBase : Int) (pending : Pending) (z0 : Nat)
  deriving DecidableEq, Repr, Inhabited

/-- The reference record of a stand (R73). -/
structure Reference where
  ff : Int := 0
  agc : Int := 0
  mon : Int := 0
  trim : Int := 0
  hLock : Nat := 0
  baseKnown : Bool := false
  base : Int := 0
  pRef : Nat := 0
  tripFlag : Bool := false
  holdFlag : Bool := false
  calFlag : Bool := false
  limit : Bool := false
  rate : Bool := false
  pClamp : Bool := false
  move : Move := .none
  deriving DecidableEq, Repr, Inhabited

/-- A slot record (R96). The tag count is computed from the zones. -/
structure SlotRecord where
  state : SlotState := .free
  coil : Word := 0
  schedule : Option Schedule := none
  deriving DecidableEq, Repr, Inhabited

/-- The Schedule Store (R96). -/
structure Store where
  slotA : SlotRecord := {}
  slotB : SlotRecord := {}
  inForce : PerStand (Option Slot) := PerStand.all none
  lastLoaded : Option Slot := none
  deriving DecidableEq, Repr, Inhabited

/-- A subset of the actions DRIVE_STOP and GAP_OPEN (R123). -/
structure ActionSet where
  driveStop : Bool := false
  gapOpen : Bool := false
  deriving DecidableEq, Repr, Inhabited

/-- A trip matrix entry (R127). -/
structure MatrixEntry where
  actions : ActionSet := {}
  cascade : Cascade := .none
  entryStop : Bool := false
  deriving DecidableEq, Repr, Inhabited

/-- A cause list entry (R123). -/
structure CauseEntry where
  cause : Cause
  stand : Nat
  time : Clock
  coil : Word
  lastMark : Option Word
  deriving DecidableEq, Repr, Inhabited

/-- The Trip Unit (R123). The first-out entry is the head of `causes`. -/
structure TripUnit where
  latch : Bool := false
  actions : PerStand ActionSet := PerStand.all {}
  entryStop : Bool := false
  matrix : Option (List MatrixEntry) := none
  causes : List CauseEntry := []
  overflow : Bool := false
  ready : PerStand Bool := PerStand.all false
  etrip : EtripLevel := .healthy
  deriving DecidableEq, Repr, Inhabited

/-- The contents of a stand image as last written (R177, R190). `free` names the free word its last-mark field holds when no
mark is named. -/
structure Image where
  time : Clock
  late : Bool
  station : StationState
  missRun : Nat
  goodRun : Nat
  flags : ReplyFlags
  p : Nat
  f : Nat
  v : Nat
  thread : ThreadState
  coil : Word
  lastMark : Option Word
  gapAct : Int
  stretch : Nat
  hEst : Nat
  band : Nat
  clamped : Bool
  slot : Option Slot
  ff : Int
  agc : Int
  mon : Int
  trim : Int
  base : Int
  pRef : Nat
  limit : Bool
  rate : Bool
  pClamp : Bool
  hold : Bool
  move : Move
  actions : ActionSet
  free : Nat
  deriving DecidableEq, Repr, Inhabited

/-- The area of a stand image: its update count, which is kept where RUN entry sets the area to 0 (R177, R178, log 14), and
the image it shows; with none shown every byte reads 0. -/
structure ImageArea where
  count : Word := 0
  shown : Option Image := none
  deriving DecidableEq, Repr, Inhabited

/-- The trip record area as last written (R141, R191). -/
structure TripArea where
  count : Word
  latch : Bool
  entryStop : Bool
  etrip : EtripLevel
  overflow : Bool
  actions : PerStand ActionSet
  ready : PerStand Bool
  causes : List CauseEntry
  free : Nat
  deriving DecidableEq, Repr, Inhabited

/-- One zone's entry of the tracking summary (R25, R191). -/
structure ZoneSummary where
  count : Nat := 0
  frontId : Word := 0
  frontKind : Option MarkKind := none
  frontPos : Nat := 0
  frontHold : Nat := 0
  coils : List Word := []
  coilCount : Nat := 0
  deriving DecidableEq, Repr, Inhabited

/-- The tracking summary as last written (R25). -/
structure Summary where
  count : Word
  freeRecords : Nat
  emptySpell : Bool
  genRunning : Bool
  genCount : Int
  zones : PerStand ZoneSummary
  deriving DecidableEq, Repr, Inhabited

/-- The output pins (13, *Signals*): true is active, high or energized. -/
structure Pins where
  attn : Bool := false
  linkDe : Bool := false
  dstop : PerStand Bool := PerStand.all false
  gopen : PerStand Bool := PerStand.all false
  mstop : Bool := false
  deriving DecidableEq, Repr, Inhabited

/-- The state of the part. The default of every field is its value after power-on. -/
structure State where
  clock : Clock := 0
  resetLow : Bool := false
  etripPin : EtripLevel := .healthy
  level : RunLevel := .halt
  attention : BitVec 5 := 0
  mask : BitVec 5 := 0
  exm : Memory := []
  configResult : Word := 0
  cycleClock : Clock := 0
  images : PerStand ImageArea := PerStand.all {}
  tripArea : Option TripArea := none
  summary : Option Summary := none
  journal : Journal := {}
  line : Option LineDesc := none
  orders : OrderUnit := {}
  link : Link := {}
  tracker : Tracker := {}
  est : PerStand Estimate := PerStand.all {}
  gauge : GaugeRecord := {}
  gap : PerStand Reference := PerStand.all {}
  store : Store := {}
  trip : TripUnit := {}
  pins : Pins := {}
  freeIndex : Nat := 0
  pending : List Instr := []
  deriving DecidableEq, Repr, Inhabited

/-- The part right after power-on (R24, R44, R60, R72, R92, R109, R121, R142, R156, R159, R172), with nothing
waiting. -/
def State.reset : State := {}

end Sys2Proof.Machine
end

