-- ==== Sys2Proof/Machine/Flags.lean ====
section
/-! DEFINITION. Bits and pins: the ATTENTION bits, the output pins as conditions of the state, and the codes of
the enumerated values. -/

namespace Sys2Proof.Machine

/-- ATTENTION.ORDER (R161, R186). -/
def attnOrder : BitVec 5 := 1
/-- ATTENTION.JOURNAL. -/
def attnJournal : BitVec 5 := 2
/-- ATTENTION.TRIP. -/
def attnTrip : BitVec 5 := 4
/-- ATTENTION.CONFIG. -/
def attnConfig : BitVec 5 := 8
/-- ATTENTION.PROTECT. -/
def attnProtect : BitVec 5 := 16

/-- A bit of ATTENTION is set by its event (R161). -/
def setAttention (b : BitVec 5) (s : State) : State := { s with attention := s.attention ||| b }

/-- ATTN_N is active while any bit is set in both registers (R161). -/
def attnActive (s : State) : Bool := s.attention &&& s.mask != 0

/-- LINK_DE is high while a poll is being sent, at RUN alone (R143, R155). -/
def linkDriven (s : State) : Bool :=
  match s.link.cycle with
  | some c => c.phase == .sending && s.level == .run
  | none => false

/-- DSTOP_k is energized at RUN, at a ready stand without DRIVE_STOP (R134), and never while RESET_N is low (R159,
13 *Power-on*). -/
def dstopOn (s : State) (k : Nat) : Bool :=
  !s.resetLow && s.level == .run && s.trip.ready.get k && !(s.trip.actions.get k).driveStop

/-- GOPEN_k is energized at RUN, at a ready stand without GAP_OPEN (R134), and never while RESET_N is low. -/
def gopenOn (s : State) (k : Nat) : Bool :=
  !s.resetLow && s.level == .run && s.trip.ready.get k && !(s.trip.actions.get k).gapOpen

/-- MSTOP is energized at RUN with the entry stop clear (R135), and never while RESET_N is low. -/
def mstopOn (s : State) : Bool := !s.resetLow && s.level == .run && !s.trip.entryStop

/-- The pins as their conditions have them. -/
def pinsOf (s : State) : Pins :=
  { attn := attnActive s, linkDe := linkDriven s, dstop := PerStand.ofStand (dstopOn s),
    gopen := PerStand.ofStand (gopenOn s), mstop := mstopOn s }

/-- The end of every command: the pins follow their conditions (R134, R135, R161). -/
def finish (s : State) : Host.Outcome State Fault Refusal := .next { s with pins := pinsOf s }

/-- A bit as 0 or 1. -/
def bit (b : Bool) : Nat := if b then 1 else 0

/-- RUN_LEVEL codes (R160). -/
def RunLevel.code : RunLevel → Nat
  | .halt => 0
  | .configure => 1
  | .loopback => 2
  | .run => 3

/-- Slot codes: 1 A, 2 B (R107). -/
def Slot.code : Slot → Nat
  | .a => 1
  | .b => 2

/-- Slot codes with 0 for none (R107, R190). -/
def slotCode : Option Slot → Nat
  | none => 0
  | some x => x.code

/-- Threading state codes (R190). -/
def ThreadState.code : ThreadState → Nat
  | .vacant => 0
  | .expecting => 1
  | .biting => 2
  | .rolling => 3
  | .tailing => 4

/-- A loaded stand is BITING, ROLLING or TAILING (02, first table). -/
def ThreadState.loaded : ThreadState → Bool
  | .vacant => false
  | .expecting => false
  | .biting => true
  | .rolling => true
  | .tailing => true

/-- Mark kind codes (R176, R191). -/
def MarkKind.code : MarkKind → Nat
  | .head => 1
  | .body => 2
  | .tail => 3

/-- Station state codes (R190). -/
def StationState.code : StationState → Nat
  | .unknown => 0
  | .present => 1
  | .silent => 2

/-- Trip cause codes (08, *Causes*). -/
def Cause.code : Cause → Nat
  | .external => 1
  | .ordered => 2
  | .missedBite => 3
  | .loadLoss => 4
  | .coilOverlap => 5
  | .unexpectedLoad => 6
  | .stationSilent => 7
  | .gapOvertravel => 8
  | .forceOverload => 9
  | .terminalFault => 10
  | .levelDrop => 11

/-- Journal record kind codes (R176). -/
def RecordKind.code : RecordKind → Nat
  | .bite => 1
  | .release => 2
  | .unannouncedBite => 3
  | .coilMismatch => 4
  | .trackCorrected => 5
  | .tailLate => 6
  | .poolEmpty => 7
  | .scheduleSwitch => 8
  | .slotFreed => 9
  | .coilGauged => 10
  | .markGauged => 11
  | .gaugeOut => 12
  | .gaugeBack => 13
  | .stationSilent => 14
  | .stationRejoined => 15
  | .tripFirst => 16
  | .tripAdded => 17
  | .tripReset => 18
  | .chainFault => 19
  | .modulusApplied => 20
  | .lost => 21

/-- Result class codes (R187). -/
def ResultClass.code : ResultClass → Nat
  | .completed => 1
  | .completedClamped => 1
  | .aborted _ => 2
  | .refused _ => 3
  | .invalid _ => 4

/-- Codes of the ABORTED details (R187). -/
def AbortDetail.code : AbortDetail → Nat
  | .trip => 1
  | .order => 2
  | .timeout => 3
  | .equipment => 4
  | .level => 5
  | .station => 6

/-- Codes of the REFUSED details (R187). -/
def RefuseDetail.code : RefuseDetail → Nat
  | .busy => 1
  | .state => 2
  | .level => 3
  | .localMode => 4
  | .station => 5
  | .move => 6
  | .activeCause => 7

/-- Codes of the INVALID details (R187). -/
def InvalidDetail.code : InvalidDetail → Nat
  | .kind => 1
  | .field => 2
  | .pointer => 3
  | .state => 4

/-- Detail codes, counted within the class; 0 is NONE (R187). -/
def ResultClass.detail : ResultClass → Nat
  | .completed => 0
  | .completedClamped => 1
  | .aborted d => d.code
  | .refused d => d.code
  | .invalid d => d.code

/-- Move state codes (R190). -/
def Move.code : Move → Nat
  | .none => 0
  | .preset .. => 1
  | .hold _ => 2
  | .calClose .. => 3
  | .calOpen .. => 4

/-- A move is in flight in PRESET, CAL_CLOSE and CAL_OPEN (R110). -/
def Move.inFlight : Move → Bool
  | .none => false
  | .preset .. => true
  | .hold _ => false
  | .calClose .. => true
  | .calOpen .. => true

/-- A zero calibration is in flight in CAL_CLOSE and CAL_OPEN (R110). -/
def Move.calibrating : Move → Bool
  | .none => false
  | .preset .. => false
  | .hold _ => false
  | .calClose .. => true
  | .calOpen .. => true

/-- A preset is in flight in PRESET (R110). -/
def Move.presetting : Move → Bool
  | .none => false
  | .preset .. => true
  | .hold _ => false
  | .calClose .. => false
  | .calOpen .. => false

/-- An action set holds no action. -/
def ActionSet.isEmpty (a : ActionSet) : Bool := !a.driveStop && !a.gapOpen

/-- An action set as a byte: bit 0 DRIVE_STOP, bit 1 GAP_OPEN (R190). -/
def ActionSet.byte (a : ActionSet) : Nat := bit a.driveStop + 2 * bit a.gapOpen

/-- The union of two action sets (R129). -/
def ActionSet.union (a b : ActionSet) : ActionSet :=
  { driveStop := a.driveStop || b.driveStop, gapOpen := a.gapOpen || b.gapOpen }

end Sys2Proof.Machine
end

