-- ==== Sys2Proof/Machine/Ops.lean ====
section
/-! DEFINITION. The shared operations: arithmetic of 00_scope, Exchange Memory's bytes and words, the records of
one stand, the journal, and the retirement of orders. -/

namespace Sys2Proof.Machine

/-! ### Arithmetic (00_scope, *Arithmetic*) -/

/-- round256: the quotient by 256, half away from zero (R2). -/
def round256 (x : Int) : Int := x.sign * (((x.natAbs + 128) / 256 : Nat) : Int)

/-- `x` clamped to the range `lo` to `hi`. -/
def clampInt (x lo hi : Int) : Int := if x < lo then lo else if hi < x then hi else x

/-- limit(x, L): `x` clamped to −L to +L. -/
def limit (x : Int) (l : Nat) : Int := clampInt x (-(l : Int)) l

/-- A quantity as a 16-bit value, saturating (R176). -/
def sat16 (n : Nat) : Word := BitVec.ofNat 16 (min n 65535)

/-- A signed quantity as a signed 16-bit value, saturating. -/
def satSigned16 (x : Int) : Word := BitVec.ofInt 16 (clampInt x (-32768) 32767)

/-- A change of Z as a signed 16-bit value saturating at ±32,767 (R116). -/
def satChange16 (x : Int) : Word := BitVec.ofInt 16 (clampInt x (-32767) 32767)

/-- The largest hold excess (R3). -/
def holdMax : Nat := 4294967295

/-! ### Exchange Memory: the bytes the processor writes (R157, R159) -/

/-- The byte at an address; an unlisted byte is 0 (R159). -/
def Memory.read : Memory → Nat → Byte
  | [], _ => 0
  | (x, y) :: m, a => if a = x then y else Memory.read m a

/-- A byte written, keeping addresses rising and no byte 0. -/
def Memory.write : Memory → Nat → Byte → Memory
  | [], a, b => if b = 0 then [] else [(a, b)]
  | (x, y) :: m, a, b =>
    if a < x then (if b = 0 then (x, y) :: m else (a, b) :: (x, y) :: m)
    else if a = x then (if b = 0 then m else (a, b) :: m)
    else (x, y) :: Memory.write m a b

/-- Every address listed is above `lo`, they rise, and no byte is 0. -/
def Memory.wfFrom : Nat → Memory → Bool
  | _, [] => true
  | lo, (x, y) :: m => decide (lo ≤ x) && decide (y ≠ 0) && Memory.wfFrom (x + 1) m

/-- The canonical form: addresses strictly rising, no byte equal to what an unlisted address reads as. -/
def Memory.wf (m : Memory) : Bool := Memory.wfFrom 0 m

/-- A 16-bit word, least significant byte first (R185). -/
def Memory.readWord (m : Memory) (a : Nat) : Word := m.read (a + 1) ++ m.read a

/-- A 16-bit word written, least significant byte first (R185). -/
def Memory.writeWord (m : Memory) (a : Nat) (w : Word) : Memory :=
  (m.write a (w.setWidth 8)).write (a + 1) ((w >>> 8).setWidth 8)

/-! ### One stand's records -/

/-- The estimation record of stand `k` replaced. -/
def State.withEst (s : State) (k : Nat) (e : Estimate) : State := { s with est := s.est.set k e }

/-- The reference record of stand `k` replaced. -/
def State.withRef (s : State) (k : Nat) (r : Reference) : State := { s with gap := s.gap.set k r }

/-- The move state of stand `k` replaced. -/
def State.withMove (s : State) (k : Nat) (m : Move) : State :=
  s.withRef k { s.gap.get k with move := m }

/-- The Tracker's record replaced. -/
def State.withTracker (s : State) (t : Tracker) : State := { s with tracker := t }

/-- The threading record of stand `k`. -/
def State.thread (s : State) (k : Nat) : Threading := s.tracker.threading.get k

/-- The threading record of stand `k` replaced. -/
def State.withThread (s : State) (k : Nat) (t : Threading) : State :=
  s.withTracker { s.tracker with threading := s.tracker.threading.set k t }

/-- The queue of zone `k`, front first. -/
def State.zone (s : State) (k : Nat) : List Mark := s.tracker.zones.get k

/-- The queue of zone `k` replaced. -/
def State.withZone (s : State) (k : Nat) (q : List Mark) : State :=
  s.withTracker { s.tracker with zones := s.tracker.zones.set k q }

/-- The station record a poll list entry names. -/
def State.station (s : State) : PollEntry → Station
  | .stand k => s.link.stations.get k
  | .gauge => s.link.gauge

/-- The station record a poll list entry names replaced. -/
def State.withStation (s : State) (e : PollEntry) (st : Station) : State :=
  match e with
  | .stand k => { s with link := { s.link with stations := s.link.stations.set k st } }
  | .gauge => { s with link := { s.link with gauge := st } }

/-- A cause raised by the Tracker's work, waiting for the Trip Unit (R42). -/
def raiseCause (c : Cause) (k : Nat) (s : State) : State :=
  s.withTracker { s.tracker with raised := s.tracker.raised ++ [(c, k)] }

/-! ### The line description copy -/

/-- The line description copy, for the rules that are taken only with one. -/
def State.lineCopy (s : State) : LineDesc := s.line.getD default

/-- N of the line description copy. -/
def State.n (s : State) : Nat := s.lineCopy.n

/-- Stand numbers that an order may name: 1 to N of the copy, or 1 to 8 without one (R55, R89, R184). -/
def State.namesStand (s : State) (k : Nat) : Bool :=
  match s.line with
  | some l => decide (1 ≤ k ∧ k ≤ l.n)
  | none => decide (1 ≤ k ∧ k ≤ 8)

/-- E_k, the length of zone `k` in micrometres (R5). -/
def State.zoneLen (s : State) (k : Nat) : Nat :=
  if k < s.n then (s.lineCopy.stands.get k).d * 1000 else s.lineCopy.dG * 1000

/-! ### Slots -/

/-- The record of a slot. -/
def Store.slot (st : Store) : Slot → SlotRecord
  | .a => st.slotA
  | .b => st.slotB

/-- The record of a slot replaced. -/
def Store.withSlot (st : Store) (x : Slot) (r : SlotRecord) : Store :=
  match x with
  | .a => { st with slotA := r }
  | .b => { st with slotB := r }

/-- The other slot. -/
def Slot.other : Slot → Slot
  | .a => .b
  | .b => .a

/-- The schedule a slot holds; of no slot, one of zeros (log 17). -/
def State.scheduleOf (s : State) : Option Slot → Schedule
  | some x => (s.store.slot x).schedule.getD {}
  | none => {}

/-- The slot in force at stand `k` (R96). -/
def State.slotAt (s : State) (k : Nat) : Option Slot := s.store.inForce.get k

/-- The schedule values of stand `k` in the slot in force there. -/
def State.sched (s : State) (k : Nat) : StandSchedule := (s.scheduleOf (s.slotAt k)).stands.get k

/-- The tag count of a slot: the marks in the zones whose slot tag names it (R96, R103). -/
def State.tagCount (s : State) (x : Slot) : Nat :=
  (s.tracker.zones.toList.map fun q => q.countP fun m => m.tag == some x).sum

/-- The free records of the pool: 256 less those in the zone queues (R4). -/
def Tracker.freeRecords (t : Tracker) : Nat := 256 - (t.zones.toList.map List.length).sum

/-! ### The journal (R172 to R174) -/

/-- The unread count (R172). -/
def Journal.unread (j : Journal) : Nat := (j.w - j.r).toNat

/-- A record appended: slot W mod 128 takes it and W grows by 1 (R173). -/
def Journal.append (j : Journal) (r : JournalRecord) : Journal :=
  { j with slots := j.slots.set (j.w.toNat % 128) (some r), w := j.w + 1 }

/-- A record falls due: appended while there is room and no loss is unreported, else dropped and counted
(R173, R174). -/
def journal (r : JournalRecord) (s : State) : State :=
  if s.journal.lost = 0 ∧ s.journal.unread < 128 then
    setAttention attnJournal { s with journal := s.journal.append r }
  else { s with journal := { s.journal with lost := min (s.journal.lost + 1) 65535 } }

/-- A record falls due, given field by field (R176). -/
def note (kind : RecordKind) (stand : Nat) (time : Clock) (coil v1 v2 v3 : Word) (s : State) : State :=
  journal { kind := kind, stand := stand, time := time, coil := coil, v1 := v1, v2 := v2, v3 := v3 } s

/-! ### Orders -/

/-- The blocks taken and not retired: the one being taken and those in flight (R167, R169). -/
def State.takenBlocks (s : State) : List Nat :=
  (s.orders.copy.map OrderCopy.ptr).toList ++ s.orders.inFlight.toList.filterMap id

/-- The RESULT words and STATE of a block written (R171, steps 1 and 2). -/
def writeResult (m : Memory) (ptr : Nat) (r : Result) : Memory :=
  (((m.writeWord (ptr + 6) (BitVec.ofNat 16 r.cls.code)).writeWord (ptr + 8) (BitVec.ofNat 16 r.cls.detail)).writeWord
    (ptr + 10) r.value).writeWord (ptr + 2) 3

/-- A block retired: RESULT, STATE RETIRED, its words back to the processor, ATTENTION.ORDER (R171). -/
def retire (ptr : Nat) (r : Result) (s : State) : State :=
  setAttention attnOrder { s with exm := writeResult s.exm ptr r }

/-- The long order in flight at stand `k` retired and its entry removed (R169). -/
def retireLong (k : Nat) (r : Result) (s : State) : State :=
  match s.orders.inFlight.get k with
  | some ptr => retire ptr r { s with orders := { s.orders with inFlight := s.orders.inFlight.set k none } }
  | none => s

/-- The order being taken retired: its copy is dropped (R169, R171). -/
def retireTaken (r : Result) (s : State) : State :=
  match s.orders.copy with
  | some c => retire c.ptr r { s with orders := { s.orders with copy := none } }
  | none => s

/-- A result with the class and detail given and value 0. -/
def Result.plain (c : ResultClass) : Result := { cls := c, value := 0 }

/-- INVALID FIELD with the byte offset of the failing field (R170). -/
def Result.invalidField (off : Nat) : Result := { cls := .invalid .field, value := BitVec.ofNat 16 off }

/-- A fresh free word and the index it uses up (log 9). -/
def freshWord (s : State) : Word := Config.freeWord s.freeIndex 0

/-- The free index used up. -/
def useFree (s : State) : State := { s with freeIndex := s.freeIndex + 1 }

/-- The levels at which the stations are polled: RUN on the line, LOOPBACK inside the part (R155, R156). -/
def State.polls (s : State) : Bool := s.level == .run || s.level == .loopback

/-- A reply of stand `k` reaches the blocks: its station is polled and PRESENT (R153). So a stand whose station is SILENT keeps
its record (R43), and one whose station is UNKNOWN confirms no load-on (R152). -/
def State.deliversAt (s : State) (k : Nat) : Bool := s.polls && (s.link.stations.get k).state == .present

/-- Time passes before a command (R1, log 1). -/
def State.tick (s : State) (dt : Clock) : State := { s with clock := s.clock + dt }

/-- The state with the line clock at the time `t` of an event that is worked on later (R150). -/
def State.atTime (s : State) (t : Clock) : State := { s with clock := t }

end Sys2Proof.Machine
end

