-- ==== Sys2Proof/Machine/Operands.lean ====
section
/-! DEFINITION. The records the processor writes, read from Exchange Memory by their layouts: order blocks (R187),
schedule records (R188) and the line description (R189). -/

namespace Sys2Proof.Machine

/-- A byte field. -/
def Memory.byteAt (m : Memory) (a : Nat) : Nat := (m.read a).toNat

/-- A word field. -/
def Memory.wordAt (m : Memory) (a : Nat) : Nat := (m.readWord a).toNat

/-- A long field: its low word, then its high word (R185). -/
def Memory.longAt (m : Memory) (a : Nat) : Nat := m.wordAt a + 65536 * m.wordAt (a + 2)

/-- A signed word field. -/
def Memory.signedWordAt (m : Memory) (a : Nat) : Int := (m.readWord a).toInt

/-- A signed long field. -/
def Memory.signedLongAt (m : Memory) (a : Nat) : Int := (m.readWord (a + 2) ++ m.readWord a).toInt

/-- Consecutive word fields. -/
def Memory.wordsAt (m : Memory) (a n : Nat) : List Nat := (List.range n).map fun i => m.wordAt (a + 2 * i)

/-- A modulus table whose TH stands at `a`, with B1 to B7 and M0 to M7 after it (R187, R189). -/
def Memory.tableAt (m : Memory) (a : Nat) : ModulusTable :=
  { th := m.wordAt a, b := m.wordsAt (a + 2) 7, m := m.wordsAt (a + 16) 8 }

/-! ### Checks in order -/

/-- The first check of a list that fails, by what it reports. -/
def firstFailure {α : Type} : List (Bool × α) → Option α
  | [] => none
  | (ok, x) :: rest => if ok then firstFailure rest else some x

/-- `x` lies in `lo` to `hi`. -/
def inRange (x lo hi : Nat) : Bool := decide (lo ≤ x ∧ x ≤ hi)

/-- `x` lies in `lo` to `hi`. -/
def inRangeInt (x lo hi : Int) : Bool := decide (lo ≤ x ∧ x ≤ hi)

/-! ### Modulus tables (R46) -/

/-- B_j of a table, with B0 taken as 0 (R45). -/
def ModulusTable.boundary (t : ModulusTable) (j : Nat) : Nat := if j = 0 then 0 else t.b.getD (j - 1) 0

/-- M_j of a table. -/
def ModulusTable.modulus (t : ModulusTable) (j : Nat) : Nat := t.m.getD j 0

/-- The checks of R46 in order, each with its field index. -/
def ModulusTable.checks (t : ModulusTable) : List (Bool × Nat) :=
  [(inRange t.th 0 2000, 0)]
    ++ [1, 2, 3, 4, 5, 6, 7].map (fun j =>
      (inRange (t.boundary j) 1 50000 && decide (t.boundary (j - 1) + t.th < t.boundary j), j))
    ++ [0, 1, 2, 3, 4, 5, 6, 7].map (fun j => (inRange (t.modulus j) 500 20000, 8 + j))

/-- The index of the first field of a table that fails R46. -/
def ModulusTable.failure (t : ModulusTable) : Option Nat := firstFailure t.checks

/-! ### Schedule records (R93 to R95, R188) -/

/-- The stand block that begins at `a`. -/
def Memory.standScheduleAt (m : Memory) (a : Nat) : StandSchedule :=
  { sSch := m.signedLongAt a, sMin := m.signedLongAt (a + 4), sMax := m.signedLongAt (a + 8),
    r := m.wordAt (a + 12), hTarget := m.wordAt (a + 14), agcMode := m.byteAt (a + 16), kg := m.byteAt (a + 17),
    agcLim := m.wordAt (a + 18), db := m.byteAt (a + 20), kff := m.signedWordAt (a + 21), ffLim := m.wordAt (a + 23),
    slip := m.byteAt (a + 25), fOn := m.wordAt (a + 26), fOff := m.wordAt (a + 28), nLock := m.byteAt (a + 30) }

/-- The schedule record that begins at `p`. Stand blocks past its stand count are not part of it. -/
def Memory.scheduleAt (m : Memory) (p : Nat) : Schedule :=
  let count := m.wordAt (p + 2)
  { coil := m.readWord p, count := count, km := m.wordAt (p + 4), monLim := m.wordAt (p + 6), dbMon := m.wordAt (p + 8),
    tol := m.wordAt (p + 10),
    stands := PerStand.ofStand fun j => if j ≤ count then m.standScheduleAt (p + 16 + 32 * (j - 1)) else {} }

/-- The checks of a stand block in the order of R95, check 4, each with its offset in the block. -/
def StandSchedule.checks (b : StandSchedule) : List (Bool × Nat) :=
  [(inRangeInt b.sMin (-5000) 69999, 4), (decide (b.sMin < b.sMax ∧ b.sMax ≤ 70000), 8),
   (inRangeInt b.sSch b.sMin b.sMax, 0), (inRange b.r 1 2000, 12), (inRange b.agcMode 0 1, 16),
   (inRange b.kg 0 255, 17), (inRange b.agcLim 0 5000, 18), (inRange b.db 0 255, 20), (inRangeInt b.kff (-256) 256, 21),
   (inRange b.ffLim 0 5000, 23), (inRange b.slip 0 150, 25), (decide (b.fOn ≤ 50000), 26),
   (decide (b.fOff < b.fOn), 28), (inRange b.nLock 1 16, 30)]

/-- The checks of R95 in order, each with its offset in the record; `countOk` is check 2. -/
def Schedule.checks (r : Schedule) (countOk : Bool) : List (Bool × Nat) :=
  [(decide (r.coil ≠ 0), 0), (countOk, 2), (inRange r.km 0 255, 4), (inRange r.monLim 0 5000, 6),
   (inRange r.dbMon 0 255, 8), (inRange r.tol 0 10000, 10)]
    ++ (standsTo r.count).flatMap fun j => (r.stands.get j).checks.map fun c => (c.1, 16 + 32 * (j - 1) + c.2)

/-- A slot is live when it is not FREE (R96). -/
def SlotRecord.live (r : SlotRecord) : Bool := r.state != .free

/-- Check 2 of R95: the stand count is N of the copy, or without a copy 2 to 8 and that of every live slot. -/
def countAgrees (s : State) (count : Nat) : Bool :=
  match s.line with
  | some l => count == l.n
  | none => inRange count 2 8 && [s.store.slotA, s.store.slotB].all fun r => !r.live || (r.schedule.getD {}).count == count

/-- The take of a schedule record: the checks of R94 and the copy. -/
def takeSchedule (s : State) (p : Nat) : ScheduleTake :=
  if p = 0 ∨ p % 2 = 1 ∨ p < 4096 ∨ 65536 < p + 16 then .failed (.plain (.invalid .pointer))
  else if !countAgrees s (s.exm.wordAt (p + 2)) then .failed (.invalidField 2)
  else if 65536 < p + 16 + 32 * s.exm.wordAt (p + 2) then .failed (.plain (.invalid .pointer))
  else .copied (s.exm.scheduleAt p)

/-! ### Order blocks (R187) -/

/-- The size of the block of a kind, or none for a code that names no kind. -/
def blockSize : Nat → Option Nat
  | 1 => some 16
  | 2 => some 46
  | 3 => some 16
  | 4 => some 14
  | 5 => some 14
  | 6 => some 20
  | 7 => some 14
  | 8 => some 14
  | 9 => some 16
  | 10 => some 12
  | _ => none

/-- The run levels that accept a kind (R168). -/
def acceptingLevels : Nat → List RunLevel
  | 1 => [.run]
  | 2 => [.run, .configure]
  | 3 => [.run, .configure]
  | 4 => [.run, .configure]
  | 5 => [.run, .configure]
  | 6 => [.run, .loopback]
  | 7 => [.run]
  | 8 => [.run, .loopback]
  | 9 => [.configure, .loopback, .run]
  | 10 => [.run]
  | _ => []

/-- A run level accepts a kind (R168). -/
def levelAccepts (kind : Nat) (l : RunLevel) : Bool := (acceptingLevels kind).contains l

/-- The order a block holds, its parameters copied (R167, step 4); none for a code that names no kind. -/
def orderAt (s : State) (p : Nat) : Option Order :=
  let m := s.exm
  match m.wordAt (p + 4) with
  | 1 => some (.announceHead (m.readWord (p + 12)) (m.wordAt (p + 14)))
  | 2 => some (.setModulus (m.wordAt (p + 12)) (m.tableAt (p + 14)))
  | 3 => some (.setTrim (m.wordAt (p + 12)) (m.signedWordAt (p + 14)))
  | 4 => some (.loadSchedule (takeSchedule s (m.wordAt (p + 12))))
  | 5 => some (.unloadSchedule (m.wordAt (p + 12)))
  | 6 => some (.presetGap (m.wordAt (p + 12)) (m.signedLongAt (p + 14)) (m.wordAt (p + 18)))
  | 7 => some (.calibrateZero (m.wordAt (p + 12)))
  | 8 => some (.abortMove (m.wordAt (p + 12)))
  | 9 => some (.tripStands (m.wordAt (p + 12)) (m.wordAt (p + 14)))
  | 10 => some .resetTrip
  | _ => none

/-! ### The line description (R180, R181, R189) -/

/-- The start of the line description area (R157). -/
def lineBase : Nat := 64

/-- The holding copy read from the area (R181). -/
def lineAt (m : Memory) : LineDesc :=
  let w := fun off => m.wordAt (lineBase + off)
  let l := fun off => m.longAt (lineBase + off)
  { n := w 0, gaugeAddr := w 2,
    stands := PerStand.ofStand fun k =>
      { addr := w (4 + 2 * (k - 1)), d := if k < 8 then w (20 + 2 * (k - 1)) else 0, z := l (128 + 40 * (k - 1)),
        zst := w (128 + 40 * (k - 1) + 4), table := m.tableAt (lineBase + 128 + 40 * (k - 1) + 6) },
    dG := w 34, segLen := w 36, period := w 38, timeoutCode := w 40, silentCount := w 42, rejoinCount := w 44,
    nDb := w 46, wEarly := w 48, wLate := w 50, pLo := l 52, pHi := l 56, fMax := w 60, trimLim := w 62, fCal := w 64,
    rCal := w 66, cMax := w 68, rPreset := w 70, sOpen := l 72, tMove := l 76, options := w 80,
    matrix := (List.range 11).map fun i =>
      { actions := m.byteAt (lineBase + 84 + 4 * i), cascade := m.byteAt (lineBase + 84 + 4 * i + 1),
        entryStop := m.byteAt (lineBase + 84 + 4 * i + 2) } }

/-- The failure codes of R182. -/
inductive ConfigCode
  | range
  | order
  | duplicate
  | bound
  | timing
  | table
  deriving DecidableEq, Repr, Inhabited

/-- The number of a failure code (R182). -/
def ConfigCode.code : ConfigCode → Nat
  | .range => 1
  | .order => 2
  | .duplicate => 3
  | .bound => 4
  | .timing => 5
  | .table => 6

/-- A check of the line description: whether it holds, and the code and offset it reports when it does not. -/
abbrev LineCheck := Bool × ConfigCode × Nat

/-- The reply timeout in microseconds (R148). -/
def LineDesc.timeout (l : LineDesc) : Nat := 30 * (l.timeoutCode + 1)

/-- The addresses in the order they are checked, each with its offset: stands 1 to N, then the gauge. -/
def LineDesc.addresses (l : LineDesc) : List (Nat × Nat) :=
  (standsTo l.n).map (fun k => ((l.stands.get k).addr, 4 + 2 * (k - 1))) ++ [(l.gaugeAddr, 2)]

/-- No address equals one before it; each check carries the offset of the later (R181, check 3). -/
def distinctChecks : List Nat → List (Nat × Nat) → List LineCheck
  | _, [] => []
  | seen, (a, off) :: rest => (!seen.contains a, .duplicate, off) :: distinctChecks (a :: seen) rest

/-- The distances D_1 to D_{N−1} and D_G in order, each with its offset. -/
def LineDesc.distances (l : LineDesc) : List (Nat × Nat) :=
  (standsTo (l.n - 1)).map (fun k => ((l.stands.get k).d, 20 + 2 * (k - 1))) ++ [(l.dG, 34)]

/-- The checks of one stand's block: Z, ZST, then the table (R181, check 17). -/
def LineDesc.standChecks (l : LineDesc) (k : Nat) : List LineCheck :=
  let b := l.stands.get k
  let off := 128 + 40 * (k - 1)
  [(inRange b.z 0 250000, .range, off), (inRange b.zst 0 20000, .range, off + 4)]
    ++ b.table.checks.map fun c => (c.1, .table, off + 6 + 2 * c.2)

/-- The checks of one trip matrix entry (R181, check 18). -/
def matrixChecks (i : Nat) (e : MatrixBytes) : List LineCheck :=
  [(inRange e.actions 0 3, .range, 84 + 4 * i), (inRange e.cascade 0 2, .range, 84 + 4 * i + 1),
   (inRange e.entryStop 0 1, .range, 84 + 4 * i + 2)]

/-- Checks 5 to 10: segment length, the line's length, the poll period and its bound, the counts (R181). -/
def LineDesc.linkChecks (l : LineDesc) : List LineCheck :=
  [(inRange l.segLen 100 20000, .range, 36),
   (decide ((l.distances.map Prod.fst).sum ≤ 200 * l.segLen), .bound, 36),
   (inRange l.period 500 10000 && l.period % 100 == 0, .range, 38), (inRange l.timeoutCode 0 3, .range, 40),
   (decide ((l.n + 1) * (24 + l.timeout) ≤ l.period), .timing, 38), (inRange l.silentCount 1 7, .range, 42),
   (inRange l.rejoinCount 1 7, .range, 44), (inRange l.nDb 1 4, .range, 46)]

/-- Checks 11 to 15: windows, the hard range, force and trim limits, calibration force (R181). -/
def LineDesc.limitChecks (l : LineDesc) : List LineCheck :=
  [(inRange l.wLate 1 20000, .range, 50), (decide (l.wEarly < l.wLate), .order, 48), (inRange l.pLo 0 249999, .range, 52),
   (decide (l.pLo < l.pHi ∧ l.pHi ≤ 250000), .order, 56), (inRange l.fMax 1 50000, .range, 60),
   (inRange l.trimLim 0 2000, .range, 62), (decide (100 ≤ l.fCal), .range, 64), (decide (l.fCal ≤ l.fMax), .order, 64)]

/-- Check 16: the ramps, travel, open gap and time limit of the moves (R181). -/
def LineDesc.moveChecks (l : LineDesc) : List LineCheck :=
  [(inRange l.rCal 1 2000, .range, 66), (inRange l.cMax 1 20000, .range, 68), (inRange l.rPreset 1 2000, .range, 70),
   (inRange l.sOpen 0 70000, .range, 72), (inRange l.tMove 100000 600000000, .range, 76)]

/-- Checks 1 to 4: N, the addresses, their distinctness, the distances (R181). -/
def LineDesc.stationChecks (l : LineDesc) : List LineCheck :=
  (inRange l.n 2 8, .range, 0) :: l.addresses.map (fun a => (inRange a.1 1 30, .range, a.2))
    ++ distinctChecks [] l.addresses
    ++ l.distances.map (fun d => (inRange d.1 0 30000, .range, d.2))

/-- The 19 checks of R181 in order. -/
def LineDesc.checks (l : LineDesc) : List LineCheck :=
  l.stationChecks ++ l.linkChecks ++ l.limitChecks ++ l.moveChecks ++ (standsTo l.n).flatMap l.standChecks
    ++ (l.matrix.zipIdx.flatMap fun e => matrixChecks e.2 e.1) ++ [(inRange l.options 0 1, .range, 80)]

/-- The first failing check of the line description, as the word CONFIG_RESULT takes (R182); none when valid. -/
def LineDesc.failure (l : LineDesc) : Option Word :=
  (firstFailure l.checks).map fun f => BitVec.ofNat 16 (4096 * f.1.code + f.2)

/-- A trip matrix entry decoded (R127, R189). -/
def MatrixBytes.decode (e : MatrixBytes) : MatrixEntry :=
  { actions := { driveStop := e.actions % 2 == 1, gapOpen := e.actions / 2 % 2 == 1 },
    cascade := if e.cascade = 0 then .none else if e.cascade = 1 then .upstream else .all,
    entryStop := e.entryStop == 1 }

end Sys2Proof.Machine
end

