-- ==== Sys2Proof/Machine/Intake.lean ====
section
/-! DEFINITION. The Order Unit's intake: reading the watched word, chain faults, takes and the common checks
(R166 to R168). The owner's work on an order that stands taken is a command of its own (log 5). -/

namespace Sys2Proof.Machine

/-- The reason a pointer fails the check of R167, step 1: 1 for alignment or range, 2 for a header past 0xFFFF. -/
def pointerFault (v : Nat) : Option Nat :=
  if v % 8 ≠ 0 ∨ v < 4096 ∨ 65528 < v then some 1 else if 65536 < v + 12 then some 2 else none

/-- A CHAIN_FAULT record (R167): the watched offset, the value read, the reason. -/
def chainFault (w v reason : Nat) (s : State) : State :=
  note .chainFault 0 s.clock 0 (BitVec.ofNat 16 w) (BitVec.ofNat 16 v) (BitVec.ofNat 16 reason) s

/-- The block is in the table of long orders in flight (R169). -/
def State.blockInFlight (s : State) (v : Nat) : Bool := s.orders.inFlight.toList.contains (some v)

/-- The result with which the first failing common check retires a block, or none (R168). -/
def commonCheck (s : State) (v : Nat) : Option Result :=
  let kind := s.exm.wordAt (v + 4)
  match blockSize kind with
  | none => some (.plain (.invalid .kind))
  | some size =>
    if 65536 < v + size then some (.plain (.invalid .pointer))
    else if !levelAccepts kind s.level then some (.plain (.refused .level))
    else none

/-- STATE becomes TAKEN and the watched word the block's LINK (R167, step 4). -/
def markTaken (v : Nat) (s : State) : State :=
  { s with exm := s.exm.writeWord (v + 2) 2, orders := { s.orders with watched := some v } }

/-- The order copy of a block that passed the common checks (R167, step 4). -/
def copyOrder (v : Nat) (s : State) : State :=
  { s with orders := { s.orders with copy := (orderAt s v).map fun o => { ptr := v, order := o, time := s.clock } } }

/-- The watched word read, and what its value leads to (R166, R167). A take that a common check ends is followed
by the next read; `fuel` bounds such takes. -/
def intake : Nat → State → State
  | 0, s => s
  | fuel + 1, s =>
    match s.orders.watched with
    | none => s
    | some w =>
      let v := s.exm.wordAt w
      if v = 0 then s
      else
        match pointerFault v with
        | some reason => chainFault w v reason s
        | none =>
          if s.exm.wordAt (v + 2) = 2 ∧ s.blockInFlight v = true then chainFault w v 3 s
          else if s.exm.wordAt (v + 2) ≠ 1 then retire v (.plain (.invalid .state)) s
          else
            match commonCheck (markTaken v s) v with
            | some r => intake fuel (retire v r (markTaken v s))
            | none => copyOrder v (markTaken v s)

/-- More takes than the order area has places for a block; each take ended by a common check turns one POSTED
block RETIRED, so the intake never uses them up. -/
def intakeFuel : Nat := 8192

/-- The intake is free to take: the watched word is read (R166). -/
def freeToTake (s : State) : State := intake intakeFuel s

/-- The intake starts at ORDER_ANCHOR (R162, R166). -/
def startIntake (s : State) : State := freeToTake { s with orders := { s.orders with watched := some 0 } }

end Sys2Proof.Machine
end

