-- ==== Sys2Proof/Machine/Thickness.lean ====
section
/-! DEFINITION. The Thickness Unit: bands, stretch and the estimate at a reply (R47 to R52), the zero (R54),
modulus tables and SET_MODULUS (R55 to R58). -/

namespace Sys2Proof.Machine

/-- The largest band from `j` down to 0 whose boundary the force reaches. -/
def lookupFrom (t : ModulusTable) (f : Nat) : Nat → Nat
  | 0 => 0
  | j + 1 => if t.boundary (j + 1) ≤ f then j + 1 else lookupFrom t f j

/-- Plain lookup (R49). -/
def plainLookup (t : ModulusTable) (f : Nat) : Nat := lookupFrom t f 7

/-- Step 1 of R50: the band rises while the force is at or above the next boundary plus TH. -/
def bandUp (t : ModulusTable) (f : Nat) : Nat → Nat → Nat
  | 0, b => b
  | steps + 1, b => if b < 7 ∧ t.boundary (b + 1) + t.th ≤ f then bandUp t f steps (b + 1) else b

/-- Step 2 of R50: the band falls while the force is below its boundary. -/
def bandDown (t : ModulusTable) (f : Nat) : Nat → Nat
  | 0 => 0
  | b + 1 => if f < t.boundary (b + 1) then bandDown t f b else b + 1

/-- The band of a stand in HELD (R50). -/
def heldBand (t : ModulusTable) (f b : Nat) : Nat := bandDown t f (bandUp t f 7 b)

/-- The stretch at force `f` in band `b`, to the nearest micrometre, ties up (R51). -/
def stretchOf (t : ModulusTable) (b f : Nat) : Nat := (f * 1000 + t.modulus b / 2) / t.modulus b

/-- A stand's table, of zeros while it has none. -/
def Estimate.inUse (e : Estimate) : ModulusTable := e.table.getD {}

/-- The band chosen at a reply of force `f` (R48). -/
def Estimate.chooseBand (e : Estimate) (f : Nat) : Nat :=
  match e.mode with
  | .lookup => plainLookup e.inUse f
  | .held => heldBand e.inUse f e.band

/-- Step 1 of R47, which is all a reply does at LOOPBACK (R59). P is recorded as it was reported, over the whole range that
R144 gives it, also above the 65,535 × 65,536 − 1 that R45 gives latest P (DESIGN CHOICE, log 48). -/
def Estimate.record (e : Estimate) (p f : Nat) : Estimate :=
  { e with p := p, f := f, gapAct := (p : Int) - e.z }

/-- The unclamped estimate of R52. -/
def hRaw (gapAct : Int) (stretch zst : Nat) : Int := gapAct + stretch - zst

/-- The estimate at a reply of position `p` and force `f` (R47, R52). -/
def Estimate.atReply (e : Estimate) (p f : Nat) : Estimate :=
  let e1 := e.record p f
  let band := e.chooseBand f
  let stretch := stretchOf e.inUse band f
  let raw := hRaw e1.gapAct stretch e.zst
  { e1 with band := band, stretch := stretch, hEst := (clampInt raw 0 65535).toNat,
            clamped := decide (raw < 0 ∨ 65535 < raw) }

/-- The estimate of stand `k` formed from its reply (R47). -/
def estimateReply (k p f : Nat) (s : State) : State := s.withEst k ((s.est.get k).atReply p f)

/-- The contents of an internal answer recorded (R59, LOOPBACK). -/
def recordReply (k p f : Nat) (s : State) : State := s.withEst k ((s.est.get k).record p f)

/-- h_est of stand `k` as it stands. -/
def State.hEst (s : State) (k : Nat) : Nat := (s.est.get k).hEst

/-- The band mode of stand `k` set (R48). -/
def setMode (k : Nat) (m : BandMode) (s : State) : State := s.withEst k { s.est.get k with mode := m }

/-- A new zero recorded at position `p` (R54). Z becomes P as it was reported, above 250,000 too, although R45 gives Z 0 to
250,000 (DESIGN CHOICE, log 46). -/
def recordZero (k p : Nat) (s : State) : State :=
  let e := s.est.get k
  let band := plainLookup e.inUse s.lineCopy.fCal
  s.withEst k { e with z := p, zst := min (stretchOf e.inUse band s.lineCopy.fCal) 20000 }

/-- A table applied at stand `k`: it replaces the stand's, the mode becomes LOOKUP, and MODULUS_APPLIED gives the
reason with the band and stretch of the latest force in the new table (R56 to R58). -/
def applyTable (k : Nat) (t : ModulusTable) (reason : Nat) (time : Clock) (s : State) : State :=
  let e := s.est.get k
  let band := plainLookup t e.f
  note .modulusApplied k time (s.thread k).coil (BitVec.ofNat 16 reason) (BitVec.ofNat 16 band)
    (sat16 (stretchOf t band e.f)) (s.withEst k { e with table := some t, mode := .lookup })

/-- The pending table of stand `k`, if any, applied (R57). -/
def applyPending (k reason : Nat) (time : Clock) (s : State) : State :=
  match (s.est.get k).pendingTable with
  | some t => applyTable k t reason time (s.withEst k { s.est.get k with pendingTable := none })
  | none => s

/-- The Thickness Unit's part of a release: LOOKUP, and a pending table applied (R48; R40, step 3; reason 2). -/
def thicknessRelease (k : Nat) (s : State) : State := applyPending k 2 s.clock (setMode k .lookup s)

/-- The Thickness Unit's part of a trip reset: every mode LOOKUP, pending tables of stands 1 to N applied (R48,
R57; reason 3), in ascending stand order (DESIGN CHOICE, log 41). -/
def thicknessTripReset (time : Clock) (s : State) : State :=
  (standsTo s.n).foldl (fun s k => applyPending k 3 time s)
    { s with est := s.est.map fun e => { e with mode := .lookup } }

/-- Stand `k` loaded from the line description where its table is not loaded (R60). -/
def loadInitial (k : Nat) (s : State) : State :=
  let e := s.est.get k
  let l := s.lineCopy.stands.get k
  if e.loaded then s else s.withEst k { e with loaded := true, table := some l.table, z := l.z, zst := l.zst }

/-- The Thickness Unit's part of RUN entry: LOOKUP, tables loaded where due, pending tables applied for stands 1
to N (reason 4), in ascending stand order (DESIGN CHOICE, log 41), and discarded above N (R48, R57, R60). -/
def thicknessRunEntry (s : State) : State :=
  let s1 := { s with est := s.est.map fun e => { e with mode := .lookup } }
  let s2 := (standsTo s.n).foldl (fun s k => loadInitial k s) s1
  let s3 := (standsTo s.n).foldl (fun s k => applyPending k 4 s.clock s) s2
  { s3 with est := PerStand.ofStand fun k =>
      if k ≤ s.n then s3.est.get k else { s3.est.get k with pendingTable := none } }

/-- SET_MODULUS: its checks and its effect (R55, R56). `time` is that of the take. -/
def setModulusWork (k : Nat) (t : ModulusTable) (time : Clock) (s : State) : State :=
  if !s.namesStand k then retireTaken (.invalidField 12) s
  else
    match t.failure with
    | some i => retireTaken (.invalidField (14 + 2 * i)) s
    | none =>
      let e := s.est.get k
      if (s.gap.get k).move.calibrating then retireTaken (.plain (.refused .move)) s
      else if e.loaded = true ∧ (s.thread k).state = .vacant then
        retireTaken { cls := .completed, value := 1 } (applyTable k t 1 time s)
      else
        retireTaken { cls := .completed, value := if e.pendingTable.isNone then 2 else 3 }
          (s.withEst k { e with pendingTable := some t })

/-- SET_MODULUS (R55): the Thickness Unit's work on the order that stands taken, then the next read. -/
def execSetModulus (dt : Clock) (s : State) : Host.Outcome State Fault Refusal :=
  let s := s.tick dt
  match s.orders.copy with
  | some { ptr := _, order := .setModulus k t, time := time } => finish (freeToTake (setModulusWork k t time s))
  | _ => finish s

end Sys2Proof.Machine
end

