-- ==== Sys2Proof/Machine/Gap.lean ====
section
/-! DEFINITION. The Gap Unit's terms (R74 to R79, R89), the ends of moves (R117 to R121), and poll preparation
(R81 to R86, R112, R113, R115, R116). -/

namespace Sys2Proof.Machine

/-! ### Terms -/

/-- FF at a HEAD or BODY passing stand `k` (R74). -/
def ffUpdate (k : Nat) (m : Mark) (s : State) : State :=
  let d : Int := (((s.scheduleOf m.tag).stands.get (k - 1)).hTarget : Int) - (m.thick.getD (k - 2) 0 : Nat)
  s.withRef k { s.gap.get k with ff := limit (round256 (d * (s.sched k).kff)) (s.sched k).ffLim }

/-- MON at a paired HEAD or BODY (R66). -/
def monUpdate (m : Mark) (s : State) : State :=
  let sc := s.scheduleOf m.tag
  let e : Int := ((sc.stands.get s.n).hTarget : Int) - s.gauge.hx
  if e.natAbs ≤ sc.dbMon then s
  else
    s.withRef s.n { s.gap.get s.n with
      mon := limit ((s.gap.get s.n).mon + round256 (e * sc.km)) (s.scheduleOf (s.slotAt s.n)).monLim }

/-- The error of an AGC update: against h_target in ABSOLUTE mode, h_lock in LOCKED (R76). -/
def agcError (s : State) (k : Nat) : Int :=
  (if (s.sched k).agcMode = 0 then ((s.sched k).hTarget : Int) else (s.gap.get k).hLock) - s.hEst k

/-- An AGC update (R76). -/
def agcUpdate (k : Nat) (s : State) : State :=
  let err := agcError s k
  if err.natAbs ≤ (s.sched k).db then s
  else
    s.withRef k { s.gap.get k with
      agc := limit ((s.gap.get k).agc + round256 (err * (s.sched k).kg)) (s.sched k).agcLim }

/-- The conditions of an AGC update at a reply (R75); `lockBefore` is lock made before the reply's threading
work. -/
def agcDue (s : State) (k : Nat) (lockBefore : Bool) : Bool :=
  !s.trip.latch && lockBefore && ((s.thread k).state == .rolling || (s.thread k).state == .tailing)
    && decide (0 < (s.sched k).kg)

/-- h_lock captured at lock-on (R77; R36, step 2). -/
def captureLock (k : Nat) (s : State) : State := s.withRef k { s.gap.get k with hLock := s.hEst k }

/-- The Gap Unit's part of a release: FF, AGC and h_lock cleared (R40, step 2). -/
def clearTerms (k : Nat) (s : State) : State := s.withRef k { s.gap.get k with ff := 0, agc := 0, hLock := 0 }

/-- The terms of stand `k` brought within the limits of the slot now in force there (R79). -/
def switchTerms (k : Nat) (s : State) : State :=
  let r := s.gap.get k
  s.withRef k { r with ff := limit r.ff (s.sched k).ffLim, agc := limit r.agc (s.sched k).agcLim,
                       mon := if k = s.n then limit r.mon (s.scheduleOf (s.slotAt k)).monLim else r.mon }

/-- FF, AGC, MON and h_lock of every stand 0 (R88). -/
def gapTripReset (s : State) : State :=
  { s with gap := s.gap.map fun r => { r with ff := 0, agc := 0, mon := 0, hLock := 0 } }

/-! ### Moves -/

/-- Stand `k` is VACANT. -/
def State.vacant (s : State) (k : Nat) : Bool := (s.thread k).state == .vacant

/-- The move state a preset that ended leaves: HOLD at the base as it stands, or NONE once the stand has left
VACANT (R117). -/
def holdAtBase (s : State) (k : Nat) : Move := if s.vacant k then .hold (s.gap.get k).base else .none

/-- The detail a calibration retires with: the pending ABORTED detail, or the one given (R117, R119). -/
def Pending.detail (p : Pending) (d : AbortDetail) : AbortDetail :=
  match p with
  | .none => d
  | .completed => d
  | .aborted d' => d'

/-- The result of a preset ended before completion: ABORTED with gap_act (R117). -/
def presetAborted (s : State) (k : Nat) (d : AbortDetail) : Result :=
  { cls := .aborted d, value := satSigned16 (s.est.get k).gapAct }

/-- The value of a calibration: the change of Z since acceptance (R116). -/
def zChange (s : State) (k z0 : Nat) : Word := satChange16 (((s.est.get k).z : Int) - z0)

/-- A move ended with an ABORTED detail. `stays` keeps a preset's stand in HOLD, and HOLD itself, as a timeout, an
abort or a lost station does (R117 to R119); otherwise the move state becomes NONE and HOLD ends, as at a trip or a
level change (R119, R121). -/
def endMove (k : Nat) (d : AbortDetail) (stays : Bool) (s : State) : State :=
  match (s.gap.get k).move with
  | .none => s
  | .preset .. => (retireLong k (presetAborted s k d) s).withMove k (if stays then holdAtBase s k else .none)
  | .hold _ => if stays then s else s.withMove k .none
  | .calClose _ _ _ z0 => (retireLong k { cls := .aborted d, value := zChange s k z0 } s).withMove k .none
  | .calOpen _ _ p z0 => (retireLong k { cls := .aborted (p.detail d), value := zChange s k z0 } s).withMove k .none

/-- Every move and HOLD ended at a level change (R121). -/
def endMovesLevel (s : State) : State := standNumbers.foldl (fun s k => endMove k .level false s) s

/-- HOLD at stand `k` ends without record (R113). -/
def endHold (k : Nat) (s : State) : State :=
  match (s.gap.get k).move with
  | .hold _ => s.withMove k .none
  | _ => s

/-- A calibration in CAL_CLOSE turned to CAL_OPEN with an ABORTED detail pending (R115, R118, R120). -/
def Move.abandonClose (m : Move) (d : AbortDetail) : Move :=
  match m with
  | .calClose st sb _ z0 => .calOpen st sb (.aborted d) z0
  | m => m

/-- The Gap Unit is told that stand `k` left VACANT: HOLD there ends (R113), and at stand 1 every calibration in
CAL_CLOSE turns to opening (R120). -/
def leaveVacant (k : Nat) (s : State) : State :=
  let s1 := endHold k s
  if k = 1 then { s1 with gap := s1.gap.map fun r => { r with move := r.move.abandonClose .equipment } } else s1

/-- The base set at the first valid reply while it is not known (R80). -/
def firstBase (k : Nat) (s : State) : State :=
  let r := s.gap.get k
  if r.baseKnown then s else s.withRef k { r with base := (s.est.get k).gapAct, baseKnown := true }

/-- A valid reply of position `p`, force `f` and gap `g` judged for the move's progress (R112, R115, R116). -/
def moveTest (k p f : Nat) (g : Int) (s : State) : State :=
  match (s.gap.get k).move with
  | .none => s
  | .hold _ => s
  | .preset target tol start run =>
    let run' := if (g - target).natAbs ≤ tol then run + 1 else 0
    if 3 ≤ run' then
      (retireLong k { cls := .completed, value := satSigned16 g } s).withMove k
        (if s.vacant k then .hold target else .none)
    else s.withMove k (.preset target tol start run')
  | .calClose start sb run z0 =>
    let run' := if s.lineCopy.fCal ≤ f then run + 1 else 0
    if 2 ≤ run' then
      let s1 := recordZero k p s
      s1.withRef k { s1.gap.get k with base := 0, move := .calOpen start sb .completed z0 }
    else s.withMove k (.calClose start sb run' z0)
  | .calOpen _ _ pending z0 =>
    if (s.lineCopy.sOpen : Int) - 200 ≤ g then
      let cls := match pending with
        | .aborted d => ResultClass.aborted d
        | .completed => .completed
        | .none => .completed
      (retireLong k { cls := cls, value := zChange s k z0 } s).withMove k .none
    else s

/-- The Gap Unit's work on a delivered reply at RUN: the base (R80), a LOCAL reply's end of the move (R119), the AGC
update (R75), the move's progress (log 8). -/
def gapReply (k p f : Nat) (localMode lockBefore : Bool) (s : State) : State :=
  let s1 := firstBase k s
  let s2 := if localMode then endMove k .station true s1 else s1
  let s3 := if agcDue s2 k lockBefore then agcUpdate k s2 else s2
  moveTest k p f (s3.est.get k).gapAct s3

/-! ### Poll preparation -/

/-- A cylinder position clamped to 0 to 250,000. -/
def clampPos (x : Int) : Nat := (clampInt x 0 250000).toNat

/-- `b` moved toward `t` by at most `step` (R112, R116). -/
def toward (b t : Int) (step : Nat) : Int :=
  if (t - b).natAbs ≤ step then t else if b < t then b + step else b - step

/-- base + Z as a position, and whether the clamp changed it (R82, step 6). -/
def Reference.sendBase (r : Reference) (b z : Int) (tripFlag calFlag : Bool) : Reference :=
  { r with base := b, pRef := clampPos (b + z), tripFlag := tripFlag, holdFlag := false, calFlag := calFlag,
           limit := false, rate := false, pClamp := decide (b + z < 0 ∨ 250000 < b + z) }

/-- The hold position (R81). While the base is unknown it is latest P as it was reported, above 250,000 too, although R73
and R144 give P_ref 0 to 250,000 (DESIGN CHOICE, log 42). -/
def holdPosition (s : State) (k : Nat) : Nat :=
  if (s.gap.get k).baseKnown then clampPos ((s.gap.get k).base + (s.est.get k).z) else (s.est.get k).p

/-- A poll that sends base `b` with the flags given. -/
def sendBase (k : Nat) (b : Int) (tripFlag calFlag : Bool) (s : State) : State :=
  s.withRef k ((s.gap.get k).sendBase b (s.est.get k).z tripFlag calFlag)

/-- A HOLD frame (R83). -/
def holdFrame (k : Nat) (tripFlag : Bool) (s : State) : State :=
  s.withRef k { s.gap.get k with pRef := holdPosition s k, tripFlag := tripFlag, holdFlag := true, calFlag := false,
                                 limit := false, rate := false, pClamp := false }

/-- The sum of R82, step 1. -/
def rawReference (s : State) (k : Nat) : Int :=
  let r := s.gap.get k
  (s.sched k).sSch + r.ff + r.agc + (if k = s.n then r.mon else 0) + r.trim

/-- Assembly (R82). -/
def assemble (k : Nat) (s : State) : State :=
  let raw := rawReference s k
  let target := clampInt raw (s.sched k).sMin (s.sched k).sMax
  let sent := toward (s.gap.get k).base target (s.sched k).r
  let r := (s.gap.get k).sendBase sent (s.est.get k).z false false
  s.withRef k { r with limit := decide (target ≠ raw),
                       rate := decide ((s.sched k).r < (target - (s.gap.get k).base).natAbs) }

/-- The time test of a move in flight holds (R117). -/
def timeoutDue (s : State) (k : Nat) : Bool :=
  match (s.gap.get k).move with
  | .none => false
  | .hold _ => false
  | .preset _ _ start _ => decide (s.lineCopy.tMove ≤ (s.clock - start).toNat)
  | .calClose start _ _ _ => decide (s.lineCopy.tMove ≤ (s.clock - start).toNat)
  | .calOpen start _ _ _ => decide (s.lineCopy.tMove ≤ (s.clock - start).toNat)

/-- The time test at a preparation: a move that has reached T_move ends (R117). -/
def timeoutTest (k : Nat) (s : State) : State := if timeoutDue s k then endMove k .timeout true s else s

/-- A preparation that brings the base toward `target` by R_preset at most (R112, steps 2 and 3; R113). -/
def rampStep (k : Nat) (target : Int) (s : State) : State :=
  sendBase k (toward (s.gap.get k).base target s.lineCopy.rPreset) false false s

/-- A preparation in CAL_OPEN (R116). -/
def calOpenStep (k : Nat) (s : State) : State :=
  let b := (s.gap.get k).base
  let b' := if (s.lineCopy.sOpen : Int) - b ≤ s.lineCopy.rCal then (s.lineCopy.sOpen : Int) else b + s.lineCopy.rCal
  sendBase k b' false true s

/-- A preparation of a stand with an empty action set, by its move state (R81). -/
def prepareByMove (k : Nat) (s : State) : State :=
  let b := (s.gap.get k).base
  match (s.gap.get k).move with
  | .none => if !(s.gap.get k).baseKnown || (s.slotAt k).isNone then holdFrame k false s else assemble k s
  | .preset target _ _ _ => rampStep k target s
  | .hold target => rampStep k target s
  | .calClose start sb _ z0 =>
    if sb - (b - s.lineCopy.rCal) ≤ s.lineCopy.cMax then sendBase k (b - s.lineCopy.rCal) false true s
    else calOpenStep k (s.withMove k (.calOpen start sb (.aborted .equipment) z0))
  | .calOpen .. => calOpenStep k s

/-- A preparation with an empty action set: the time test, and then the move state left (R115, R116, step 1 of each). A
preset that the test ends is prepared for as HOLD (R112, step 1), also where the stand is no longer VACANT and the move state
is NONE from then on (R117); the held target is the base as it stands (DEDUCED, log 44). -/
def prepareMove (k : Nat) (s : State) : State :=
  let s1 := timeoutTest k s
  if (s.gap.get k).move.presetting && timeoutDue s k then rampStep k (s1.gap.get k).base s1 else prepareByMove k s1

/-- A poll preparation for stand `k` (R81): GAP_OPEN, DRIVE_STOP, then the move, a HOLD frame or assembly. -/
def prepare (k : Nat) (s : State) : State :=
  if (s.trip.actions.get k).gapOpen then
    let s1 := sendBase k s.lineCopy.sOpen true false s
    s1.withRef k { s1.gap.get k with baseKnown := true }
  else if (s.trip.actions.get k).driveStop then
    if (s.gap.get k).baseKnown then sendBase k (s.gap.get k).base true false s else holdFrame k true s
  else prepareMove k s

end Sys2Proof.Machine
end

