-- ==== Sys2Proof/Machine/Moves.lean ====
section
/-! DEFINITION. The Gap Unit's orders: SET_TRIM (R89), PRESET_GAP (R111), CALIBRATE_ZERO (R114), ABORT_MOVE (R118);
and the events of a move in flight as commands: PRESET_COMPLETE, ZERO_FOUND, CALIBRATION_RETIRE, MOVE_TIMEOUT. -/

namespace Sys2Proof.Machine

/-- SET_TRIM: its check and its effect (R89). -/
def setTrimWork (k : Nat) (trim : Int) (s : State) : State :=
  if !s.namesStand k then retireTaken (.invalidField 12) s
  else
    let t := limit trim s.lineCopy.trimLim
    retireTaken { cls := if t = trim then .completed else .completedClamped, value := BitVec.ofInt 16 t }
      (s.withRef k { s.gap.get k with trim := t })

/-- SET_TRIM (R89): the Gap Unit's work on the order that stands taken, then the next read. -/
def execSetTrim (dt : Clock) (s : State) : Host.Outcome State Fault Refusal :=
  let s := s.tick dt
  match s.orders.copy with
  | some { ptr := _, order := .setTrim k trim, time := _ } => finish (freeToTake (setTrimWork k trim s))
  | _ => finish s

/-- An accepted long order: it is entered in the table of long orders in flight and stays TAKEN (R169), and its
move begins. -/
def acceptLong (k : Nat) (ptr : Nat) (m : Move) (s : State) : State :=
  ({ s with orders := { s.orders with copy := none, inFlight := s.orders.inFlight.set k (some ptr) } }).withMove k m

/-- PRESET_GAP: its checks in order and its effect (R111). -/
def presetGapWork (ptr k : Nat) (target : Int) (tol : Nat) (time : Clock) (s : State) : State :=
  let z : Int := (s.est.get k).z
  if s.line.isNone then retireTaken (.plain (.refused .state)) s
  else if !s.namesStand k then retireTaken (.invalidField 12) s
  else if 5000 < tol then retireTaken (.invalidField 18) s
  else if (s.gap.get k).move.inFlight then retireTaken (.plain (.refused .busy)) s
  else if !s.vacant k || !(s.trip.actions.get k).isEmpty then retireTaken (.plain (.refused .state)) s
  else if (s.station (.stand k)).state != .present || !(s.gap.get k).baseKnown then
    retireTaken (.plain (.refused .station)) s
  else if (s.station (.stand k)).lastLocal then retireTaken (.plain (.refused .localMode)) s
  else if !inRangeInt target (s.lineCopy.pLo - z) (s.lineCopy.pHi - z) then retireTaken (.invalidField 14) s
  else acceptLong k ptr (.preset target tol time 0) s

/-- PRESET_GAP (R111): the Gap Unit's work on the order that stands taken, then the next read. -/
def execPresetGap (dt : Clock) (s : State) : Host.Outcome State Fault Refusal :=
  let s := s.tick dt
  match s.orders.copy with
  | some { ptr := p, order := .presetGap k target tol, time := time } =>
    finish (freeToTake (presetGapWork p k target tol time s))
  | _ => finish s

/-- A stand is VACANT and holds no pending head notice. -/
def State.clearOfStrip (s : State) (k : Nat) : Bool := s.vacant k && (s.thread k).headNotice.isNone

/-- CALIBRATE_ZERO: its checks in order and its effect (R114). The start time is that of the order's take (R110); the start
base is the base when the checks pass (R114), also where a preparation has moved it since the take, whose base R110 names
(DESIGN CHOICE, log 47). -/
def calibrateZeroWork (ptr k : Nat) (time : Clock) (s : State) : State :=
  if !(s.line.isSome && s.namesStand k) then retireTaken (.invalidField 12) s
  else if (s.gap.get k).move.inFlight then retireTaken (.plain (.refused .busy)) s
  else if !(standsTo k).all s.clearOfStrip || !(s.trip.actions.get k).isEmpty then
    retireTaken (.plain (.refused .state)) s
  else if (s.station (.stand k)).state != .present || !(s.gap.get k).baseKnown then
    retireTaken (.plain (.refused .station)) s
  else if (s.station (.stand k)).lastLocal then retireTaken (.plain (.refused .localMode)) s
  else acceptLong k ptr (.calClose time (s.gap.get k).base 0 (s.est.get k).z) s

/-- CALIBRATE_ZERO (R114): the Gap Unit's work on the order that stands taken, then the next read. -/
def execCalibrateZero (dt : Clock) (s : State) : Host.Outcome State Fault Refusal :=
  let s := s.tick dt
  match s.orders.copy with
  | some { ptr := p, order := .calibrateZero k, time := time } =>
    finish (freeToTake (calibrateZeroWork p k time s))
  | _ => finish s

/-- COMPLETED with a value the manual does not state: a free word (log 9). -/
def retireFree (s : State) : State := retireTaken { cls := .completed, value := freshWord s } (useFree s)

/-- What ABORT_MOVE does to the move at stand `k`, by the table of R118. -/
def abortMove (k : Nat) (s : State) : State :=
  match (s.gap.get k).move with
  | .none => s
  | .hold _ => s
  | .preset .. => endMove k .order true s
  | .calClose start sb _ z0 => s.withMove k (.calOpen start sb (.aborted .order) z0)
  | .calOpen start sb pending z0 => s.withMove k (.calOpen start sb (.aborted (pending.detail .order)) z0)

/-- ABORT_MOVE: its checks and its effect (R118). -/
def abortMoveWork (k : Nat) (s : State) : State :=
  if s.line.isNone then retireTaken (.plain (.refused .state)) s
  else if !s.namesStand k then retireTaken (.invalidField 12) s
  else if !(s.gap.get k).move.inFlight then retireTaken (.plain (.refused .state)) s
  else retireFree (abortMove k s)

/-- ABORT_MOVE (R118): the Gap Unit's work on the order that stands taken, then the next read. -/
def execAbortMove (dt : Clock) (s : State) : Host.Outcome State Fault Refusal :=
  let s := s.tick dt
  match s.orders.copy with
  | some { ptr := _, order := .abortMove k, time := _ } => finish (freeToTake (abortMoveWork k s))
  | _ => finish s

/-- A reply of gap `g` completes the preset at stand `k` (R112). -/
def presetCompletes (s : State) (k : Nat) (g : Int) : Bool :=
  match (s.gap.get k).move with
  | .preset target tol _ run => decide ((g - target).natAbs ≤ tol ∧ 3 ≤ run + 1)
  | _ => false

/-- PRESET_COMPLETE (R112): the move test of a reply of gap `g`, where it completes the preset (log 4). -/
def execPresetComplete (dt : Clock) (k : Nat) (g : Int) (s : State) : Host.Outcome State Fault Refusal :=
  let s := s.tick dt
  if s.deliversAt k = true ∧ presetCompletes s k g = true then finish (moveTest k 0 0 g s) else finish s

/-- A reply of force `f` finds the zero at stand `k` (R115). -/
def findsZero (s : State) (k f : Nat) : Bool :=
  match (s.gap.get k).move with
  | .calClose _ _ run _ => decide (s.lineCopy.fCal ≤ f ∧ 2 ≤ run + 1)
  | _ => false

/-- ZERO_FOUND (R115): the move test of a reply of position `p` and force `f`, where it finds the zero (log 4). -/
def execZeroFound (dt : Clock) (k p f : Nat) (s : State) : Host.Outcome State Fault Refusal :=
  let s := s.tick dt
  if s.deliversAt k = true ∧ findsZero s k f = true then finish (moveTest k p f 0 s) else finish s

/-- A reply of gap `g` finds the calibrated stand `k` open (R116). -/
def findsOpen (s : State) (k : Nat) (g : Int) : Bool :=
  match (s.gap.get k).move with
  | .calOpen .. => decide ((s.lineCopy.sOpen : Int) - 200 ≤ g)
  | _ => false

/-- CALIBRATION_RETIRE (R116): the move test of a reply of gap `g`, where it finds the stand open (log 4). -/
def execCalibrationRetire (dt : Clock) (k : Nat) (g : Int) (s : State) : Host.Outcome State Fault Refusal :=
  let s := s.tick dt
  if s.deliversAt k = true ∧ findsOpen s k g = true then finish (moveTest k 0 0 g s) else finish s

/-- MOVE_TIMEOUT (R117): the time test of a preparation, where the stand is polled and T_move is reached (log 4). -/
def execMoveTimeout (dt : Clock) (k : Nat) (s : State) : Host.Outcome State Fault Refusal :=
  let s := s.tick dt
  if s.polls then finish (timeoutTest k s) else finish s

end Sys2Proof.Machine
end

