-- ==== Sys2Proof/Machine/Schedules.lean ====
section
/-! DEFINITION. The Schedule Store: switches and the freeing of slots (R100 to R103), LOAD_SCHEDULE and
UNLOAD_SCHEDULE (R98, R99, R104), the collapses (R105, R106). -/

namespace Sys2Proof.Machine

/-- Causes of a SCHEDULE_SWITCH record (R107). -/
inductive SwitchCause
  | load
  | release
  | tripReset
  | runEntry
  deriving DecidableEq, Repr, Inhabited

/-- Codes of the causes of a switch (R107). -/
def SwitchCause.code : SwitchCause → Word
  | .load => 1
  | .release => 2
  | .tripReset => 3
  | .runEntry => 4

/-- Causes of a SLOT_FREED record (R107). -/
inductive FreeCause
  | lastStand
  | lastMark
  | flush
  | unload
  | collapse
  | mismatch
  deriving DecidableEq, Repr, Inhabited

/-- Codes of the causes of a freeing (R107). -/
def FreeCause.code : FreeCause → Word
  | .lastStand => 1
  | .lastMark => 2
  | .flush => 3
  | .unload => 4
  | .collapse => 5
  | .mismatch => 6

/-- A slot's record replaced. -/
def State.withSlot (s : State) (x : Slot) (r : SlotRecord) : State := { s with store := s.store.withSlot x r }

/-- The coil id a slot holds. -/
def State.slotCoil (s : State) (x : Slot) : Word := (s.store.slot x).coil

/-- A slot becomes FREE, its coil id 0, and SLOT_FREED is journalled with the coil id it had (R102 to R107). -/
def freeSlot (x : Slot) (cause : FreeCause) (time : Clock) (s : State) : State :=
  (note .slotFreed 0 time (s.slotCoil x) (BitVec.ofNat 16 x.code) cause.code 0 s).withSlot x {}

/-- A slot is in force at no stand. -/
def Store.inForceNowhere (st : Store) (x : Slot) : Bool := st.inForce.toList.all fun y => y != some x

/-- A slot that a stand left and that is in force nowhere: DRAINING while marks carry its tag, else FREE (R102). -/
def settleLeft (x : Slot) (cause : FreeCause) (time : Clock) (s : State) : State :=
  if s.store.inForceNowhere x then
    if 0 < s.tagCount x then s.withSlot x { s.store.slot x with state := .draining } else freeSlot x cause time s
  else s

/-- A WAITING slot becomes IN_FORCE (R100, step 4). -/
def takeInForce (x : Slot) (s : State) : State :=
  if (s.store.slot x).state = .waiting then s.withSlot x { s.store.slot x with state := .inForce } else s

/-- Stand `k` switches to slot `x` (R100). -/
def switchStand (k : Nat) (x : Slot) (cause : SwitchCause) (free : FreeCause) (time : Clock) (s : State) : State :=
  let old := s.slotAt k
  let s1 := { s with store := { s.store with inForce := s.store.inForce.set k (some x) } }
  let s2 := endHold k (switchTerms k s1)
  let s3 := note .scheduleSwitch k time (s2.slotCoil x) (BitVec.ofNat 16 x.code) (BitVec.ofNat 16 (slotCode old))
    cause.code s2
  let s4 := match old with
    | some y => settleLeft y free time s3
    | none => s3
  takeInForce x s4

/-- Several stands switch, in the order given. -/
def switchStands (ks : List Nat) (x : Slot) (cause : SwitchCause) (free : FreeCause) (time : Clock) (s : State) : State :=
  ks.foldl (fun s k => switchStand k x cause free time s) s

/-- Both slots are live (R96). -/
def Store.bothLive (st : Store) : Bool := st.slotA.live && st.slotB.live

/-- The Schedule Store's part of a release of stand `k` (R101). -/
def releaseSwitch (k : Nat) (s : State) : State :=
  match s.store.lastLoaded with
  | none => s
  | some x =>
    if s.store.bothLive = true ∧ s.slotAt k = some x.other ∧ (k = 1 ∨ s.slotAt (k - 1) = some x) then
      switchStand k x .release .lastStand s.clock s
    else s

/-- The Schedule Store is told the tag of a mark that left the gauge zone (R103; R20, step 3). -/
def markDeparted (tag : Option Slot) (s : State) : State :=
  match tag with
  | none => s
  | some x =>
    if (s.store.slot x).state = .draining ∧ s.tagCount x = 0 then freeSlot x .lastMark s.clock s else s

/-- The Schedule Store is told of a flush: a DRAINING slot becomes FREE (R23, R103). -/
def slotsFlushed (time : Clock) (s : State) : State :=
  [Slot.a, Slot.b].foldl
    (fun s x => if (s.store.slot x).state = .draining then freeSlot x .flush time s else s) s

/-- The stands a load may reach: 1 to N of the copy, or to the schedule's stand count without one (R98, R99). -/
def loadReach (s : State) (r : Schedule) : List Nat := standsTo (match s.line with
  | some l => l.n
  | none => r.count)

/-- The leading vacant run (R99). -/
def leadingVacantRun (s : State) (r : Schedule) : List Nat := (loadReach s r).takeWhile s.clearOfStrip

/-- An accepted load into slot `x`: its copy, WAITING, last loaded, then the switches of the stands given (R98, R99). -/
def loadInto (x : Slot) (r : Schedule) (ks : List Nat) (time : Clock) (s : State) : State :=
  let s1 := s.withSlot x { state := .waiting, coil := r.coil, schedule := some r }
  let s2 := { s1 with store := { s1.store with lastLoaded := some x } }
  retireTaken { cls := .completed, value := BitVec.ofNat 16 x.code } (switchStands ks x .load .lastStand time s2)

/-- LOAD_SCHEDULE: the validation and the decision (R94, R95, R98). -/
def loadScheduleWork (take : ScheduleTake) (time : Clock) (s : State) : State :=
  match take with
  | .failed r => retireTaken r s
  | .copied rec =>
    match firstFailure (rec.checks (countAgrees s rec.count)) with
    | some off => retireTaken (.invalidField off) s
    | none =>
      match s.store.slotA.live, s.store.slotB.live with
      | false, false =>
        let x := match s.store.lastLoaded with
          | none => Slot.a
          | some y => y.other
        loadInto x rec (loadReach s rec) time s
      | true, false => loadInto .b rec (leadingVacantRun s rec) time s
      | false, true => loadInto .a rec (leadingVacantRun s rec) time s
      | true, true => retireTaken (.plain (.refused .busy)) s

/-- LOAD_SCHEDULE (R98): the Schedule Store's work on the order that stands taken, then the next read. -/
def execLoadSchedule (dt : Clock) (s : State) : Host.Outcome State Fault Refusal :=
  let s := s.tick dt
  match s.orders.copy with
  | some { ptr := _, order := .loadSchedule take, time := time } => finish (freeToTake (loadScheduleWork take time s))
  | _ => finish s

/-- The slot a slot field names (R104). -/
def slotOfField : Nat → Option Slot
  | 1 => some .a
  | 2 => some .b
  | _ => none

/-- UNLOAD_SCHEDULE: its check and its effect (R104). -/
def unloadScheduleWork (field : Nat) (time : Clock) (s : State) : State :=
  match slotOfField field with
  | none => retireTaken (.invalidField 12) s
  | some x =>
    if (s.store.slot x).state = .waiting then retireFree (freeSlot x .unload time s)
    else retireTaken (.plain (.refused .state)) s

/-- UNLOAD_SCHEDULE (R104): the Schedule Store's work on the order that stands taken, then the next read. -/
def execUnloadSchedule (dt : Clock) (s : State) : Host.Outcome State Fault Refusal :=
  let s := s.tick dt
  match s.orders.copy with
  | some { ptr := _, order := .unloadSchedule field, time := time } =>
    finish (freeToTake (unloadScheduleWork field time s))
  | _ => finish s

/-- With two live slots, the stands 1 to N on the older switch to the newer and the older becomes FREE with cause
COLLAPSE (R105, step 2). -/
def collapseSlots (cause : SwitchCause) (time : Clock) (s : State) : State :=
  match s.store.lastLoaded with
  | none => s
  | some x =>
    if s.store.bothLive then
      let s1 := switchStands ((standsTo s.n).filter fun k => s.slotAt k == some x.other) x cause .collapse time s
      if (s1.store.slot x.other).live then freeSlot x.other .collapse time s1 else s1
    else s

/-- A live slot whose stand count differs from N becomes FREE with cause MISMATCH, and its stands get none (R106,
step 1). -/
def dropMismatch (x : Slot) (s : State) : State :=
  if (s.store.slot x).live = true ∧ ((s.store.slot x).schedule.getD {}).count ≠ s.n then
    let s1 := freeSlot x .mismatch s.clock s
    { s1 with store := { s1.store with inForce := s1.store.inForce.map fun y => if y = some x then none else y } }
  else s

/-- The one live slot, if one alone is. -/
def Store.oneLive (st : Store) : Option Slot :=
  match st.slotA.live, st.slotB.live with
  | true, false => some .a
  | false, true => some .b
  | _, _ => none

/-- The Schedule Store's part of a successful RUN entry (R106). Where both live slots mismatch N, A is freed and
journalled before B (DESIGN CHOICE, log 43). -/
def slotsRunEntry (s : State) : State :=
  let s1 := dropMismatch .b (dropMismatch .a s)
  let s2 := collapseSlots .runEntry s1.clock s1
  let s3 := match s2.store.oneLive with
    | some x => switchStands ((standsTo s2.n).filter fun k => (s2.slotAt k).isNone) x .runEntry .lastStand s2.clock s2
    | none => s2
  let kept := PerStand.ofStand fun k => if k ≤ s3.n then s3.slotAt k else none
  { s3 with store := { s3.store with inForce := kept } }

end Sys2Proof.Machine
end

