-- ==== Sys2Proof/Machine/Trip.lean ====
section
/-! DEFINITION. The Trip Unit: the stand set (R128), the taking of a cause (R129 to R132, R136), the reply check
(R124), readiness (R133), the trip record area (R141, R179), ETRIP_CHANGE (R125) and TRIP_STANDS (R137). -/

namespace Sys2Proof.Machine

/-- The trip record area that shows the Trip Unit's items, with the update count and the free words given (R141). -/
def tripAreaOf (t : TripUnit) (count : Word) (free : Nat) : TripArea :=
  { count := count, latch := t.latch, entryStop := t.entryStop, etrip := t.etrip, overflow := t.overflow,
    actions := t.actions, ready := t.ready, causes := t.causes, free := free }

/-- The free words of a rewritten area: those it has where its items are unchanged, so that its contents are (R179), and
new ones where an item changes (log 10). -/
def tripAreaFree (s : State) : Nat :=
  match s.tripArea with
  | some a => if tripAreaOf s.trip a.count a.free = a then a.free else s.freeIndex
  | none => s.freeIndex

/-- The trip record area rewritten: its update count grows and it shows the Trip Unit's items (R141, R178, R179). -/
def rewriteTripArea (s : State) : State :=
  { s with tripArea := some (tripAreaOf s.trip ((s.tripArea.map TripArea.count).getD 0 + 1) (tripAreaFree s)),
           freeIndex := s.freeIndex + 1 }

/-- The stand set of a cause naming stand `k` (R128). -/
def standSet (c : Cascade) (k n : Nat) : List Nat :=
  match c with
  | .none => if k = 0 then [] else [k]
  | .upstream => if k = 0 then standsTo n else standsTo k
  | .all => standsTo n

/-- The matrix entry of a cause (R127). -/
def matrixEntry (m : List MatrixEntry) (c : Cause) : MatrixEntry := m.getD (c.code - 1) {}

/-- The matrix entry that applies to a cause: none where causes are only recorded (R136). -/
def applyingEntry (s : State) (c : Cause) : Option MatrixEntry :=
  if s.level = .run then s.trip.matrix.map fun m => matrixEntry m c else none

/-- The stands a cause is applied to. -/
def appliedSet (s : State) (c : Cause) (k : Nat) : List Nat :=
  match applyingEntry s c with
  | some e => standSet e.cascade k s.n
  | none => []

/-- How many stands' action sets a cause enlarges (R132). -/
def standsGrown (s : State) (c : Cause) (k : Nat) : Nat :=
  match applyingEntry s c with
  | some e => (standSet e.cascade k s.n).countP fun j =>
      (s.trip.actions.get j).union e.actions != s.trip.actions.get j
  | none => 0

/-- The cause list entry of a cause, as the Tracker's records stand (R130, step 2). -/
def causeEntry (s : State) (c : Cause) (k : Nat) (time : Clock) : CauseEntry :=
  { cause := c, stand := k, time := time, coil := if k = 0 then 0 else (s.thread k).coil,
    lastMark := if k = 0 then none else s.tracker.lastPassed.get k }

/-- An entry with the same cause and the same stand is present (R131). -/
def isDuplicate (s : State) (c : Cause) (k : Nat) : Bool :=
  s.trip.causes.any fun e => e.cause == c && e.stand == k

/-- A cause is recorded as a new entry, first-out included (R130, R131). -/
def isRecorded (s : State) (c : Cause) (k : Nat) : Bool :=
  !s.trip.latch || (!isDuplicate s c k && decide (s.trip.causes.length < 16))

/-- Step 2 of R129: the cause recorded by R130 or R131. -/
def recordCause (c : Cause) (k : Nat) (time : Clock) (s : State) : State :=
  let e := causeEntry s c k time
  let grown := BitVec.ofNat 16 (standsGrown s c k)
  if s.trip.latch = false then
    setAttention attnTrip (note .tripFirst k time e.coil (BitVec.ofNat 16 c.code) 1 grown
      { s with trip := { s.trip with causes := [e], overflow := false, latch := true } })
  else if isDuplicate s c k then s
  else if s.trip.causes.length < 16 then
    note .tripAdded k time e.coil (BitVec.ofNat 16 c.code) (BitVec.ofNat 16 (s.trip.causes.length + 1)) grown
      { s with trip := { s.trip with causes := s.trip.causes ++ [e] } }
  else { s with trip := { s.trip with overflow := true } }

/-- Actions added to every stand of a stand set (R129, step 3). -/
def addActions (ks : List Nat) (a : ActionSet) (p : PerStand ActionSet) : PerStand ActionSet :=
  ks.foldl (fun p k => p.set k ((p.get k).union a)) p

/-- Steps 3 to 5 of R129: actions, entry stop, the ends of the moves of the stand set. -/
def applyEntry (e : MatrixEntry) (ks : List Nat) (s : State) : State :=
  let s1 := { s with trip := { s.trip with actions := addActions ks e.actions s.trip.actions,
                                           entryStop := s.trip.entryStop || e.entryStop } }
  ks.foldl (fun s k => endMove k .trip false s) s1

/-- A cause taken: recorded, applied where it applies, and the trip record area rewritten (R129 to R131, R136). -/
def takeCause (c : Cause) (k : Nat) (time : Clock) (s : State) : State :=
  let s1 := recordCause c k time s
  rewriteTripArea (match applyingEntry s c with
    | some e => applyEntry e (standSet e.cascade k s.n) s1
    | none => s1)

/-- Causes taken one after the other (R140). -/
def takeCauses (cs : List (Cause × Nat)) (time : Clock) (s : State) : State :=
  cs.foldl (fun s c => takeCause c.1 c.2 time s) s

/-- The causes the Tracker raised are taken, in the order raised (R42, R130). -/
def takeRaised (s : State) : State :=
  takeCauses s.tracker.raised s.clock (s.withTracker { s.tracker with raised := [] })

/-- The causes the reply check raises, in order (R124). -/
def replyCauses (s : State) (k p f : Nat) (flags : ReplyFlags) : List (Cause × Nat) :=
  (if p < s.lineCopy.pLo ∨ s.lineCopy.pHi < p ∨ flags.overtravel = true then [(Cause.gapOvertravel, k)] else [])
    ++ (if s.lineCopy.fMax < f then [(Cause.forceOverload, k)] else [])
    ++ (if flags.hydFault = true ∨ (flags.localMode = true ∧ s.vacant k = false) then [(Cause.terminalFault, k)] else [])

/-- The Trip Unit's check of a delivered reply at RUN (R124). -/
def replyCheck (k p f : Nat) (flags : ReplyFlags) (s : State) : State :=
  takeCauses (replyCauses s k p f flags) s.clock s

/-- Stand `k` becomes ready; the area is rewritten if it was not (R133, R141). -/
def becomeReady (k : Nat) (s : State) : State :=
  if s.trip.ready.get k then s
  else rewriteTripArea { s with trip := { s.trip with ready := s.trip.ready.set k true } }

/-- The input's level taken: at RUN a change to TRIP raises EXTERNAL (R125). As the last step of the event the trip record
area, of which the level is an item, is rewritten (R141, R179, log 13). -/
def etripTaken (lvl : EtripLevel) (s : State) : State :=
  let s1 := { s with etripPin := lvl, trip := { s.trip with etrip := lvl } }
  if s.trip.etrip = lvl then s1
  else if lvl = .trip ∧ s.level = .run then takeCause .external 0 s.clock s1
  else rewriteTripArea s1

/-- ETRIP_CHANGE (R125). -/
def execEtripChange (dt : Clock) (lvl : EtripLevel) (s : State) : Host.Outcome State Fault Refusal :=
  finish (etripTaken lvl (s.tick dt))

/-- The stands a stand set word names: bit j − 1 for stand j (R187). -/
def namedStands (set : Nat) : List Nat :=
  ((List.range 16).filter fun i => set.testBit i).map (· + 1)

/-- Check 1 of R137: exactly one of the mill indication and a stand set is given. -/
def tripTargetOk (mill set : Nat) : Bool := (mill == 1 && set == 0) || (mill == 0 && set != 0)

/-- ORDERED raised once for each of the stands, counting the new entries (R137). -/
def raiseOrdered (ks : List Nat) (time : Clock) (s : State) : State × Nat :=
  ks.foldl (fun a k => (takeCause .ordered k time a.1, a.2 + bit (isRecorded a.1 .ordered k))) (s, 0)

/-- TRIP_STANDS: its checks and its effect (R137). -/
def tripStandsWork (mill set : Nat) (time : Clock) (s : State) : State :=
  if !tripTargetOk mill set then retireTaken (.invalidField 12) s
  else if !(namedStands set).all s.namesStand then retireTaken (.invalidField 14) s
  else
    let r := raiseOrdered (if mill = 1 then [0] else namedStands set) time s
    retireTaken { cls := .completed, value := BitVec.ofNat 16 r.2 } r.1

/-- TRIP_STANDS (R137): the Trip Unit's work on the order that stands taken, then the next read. -/
def execTripStands (dt : Clock) (s : State) : Host.Outcome State Fault Refusal :=
  let s := s.tick dt
  match s.orders.copy with
  | some { ptr := _, order := .tripStands mill set, time := time } =>
    finish (freeToTake (tripStandsWork mill set time s))
  | _ => finish s

end Sys2Proof.Machine
end

