-- ==== Sys2Proof/Machine/Gauge.lean ====
section
/-! DEFINITION. The exit gauge: samples and their expiry (R62, R63) and the pairing of departing marks (R64 to
R69). -/

namespace Sys2Proof.Machine

/-- The age of the sample (04, after R61). -/
def sampleAge (s : State) : Nat := (s.clock - s.gauge.time).toNat

/-- The age limit: twice the poll period (04, after R61). -/
def ageLimit (s : State) : Nat := 2 * s.lineCopy.period

/-- The expiry test of a gauge reply or a gauge miss (R63). -/
def expireSample (s : State) : State :=
  if s.gauge.held = true ∧ ageLimit s ≤ sampleAge s then { s with gauge := { s.gauge with held := false } } else s

/-- A delivered gauge reply (R62, R63). -/
def gaugeReply (valid : Bool) (hx : Nat) (s : State) : State :=
  if valid = true ∧ s.gauge.silent = false then
    { s with gauge := { s.gauge with hx := hx, time := s.clock, held := true } }
  else expireSample s

/-- The gauge station became SILENT (R63). -/
def gaugeSilent (s : State) : State := { s with gauge := { s.gauge with silent := true, held := false } }

/-- The gauge station became PRESENT (R63). -/
def gaugePresent (s : State) : State := { s with gauge := { s.gauge with silent := false } }

/-- A departing mark is paired (R64). -/
def isPaired (s : State) : Bool :=
  !s.gauge.silent && s.gauge.held && decide (sampleAge s < ageLimit s)

/-- h_target of stand N in the slot a mark carries (R65). -/
def gaugeTarget (s : State) (m : Mark) : Nat := ((s.scheduleOf m.tag).stands.get s.n).hTarget

/-- A paired mark is out of tolerance (R67). -/
def isOut (s : State) (m : Mark) : Bool :=
  decide ((s.scheduleOf m.tag).tol < ((s.gauge.hx : Int) - gaugeTarget s m).natAbs)

/-- The tolerance verdict of a paired mark (R67). -/
def toleranceVerdict (m : Mark) (s : State) : State :=
  let out := isOut s m
  if out = s.gauge.out then s
  else
    note (if out then .gaugeOut else .gaugeBack) s.n s.clock m.coil m.id (sat16 s.gauge.hx)
      (BitVec.ofNat 16 (gaugeTarget s m)) { s with gauge := { s.gauge with out := out } }

/-- A count of the tally grown by one where `b` holds, stopping at 65,535 (R69). -/
def tallyUp (n : Nat) (b : Bool) : Nat := min (n + bit b) 65535

/-- The pairing of a departing mark (R65). -/
def pairMark (m : Mark) (s : State) : State :=
  let paired := isPaired s
  let s1 := if m.kind = .head then { s with gauge := { s.gauge with paired := 0, unpaired := 0, outCount := 0 } } else s
  let s2 := if paired = true ∧ m.kind ≠ .tail then monUpdate m s1 else s1
  let s3 := if paired then toleranceVerdict m s2 else s2
  let s4 := if paired = true ∧ s.lineCopy.options % 2 = 1 then
      note .markGauged s3.n s3.clock m.coil m.id (sat16 s3.gauge.hx) (sat16 (m.thick.getD (s3.n - 1) 0)) s3
    else s3
  let g := s4.gauge
  let s5 := { s4 with gauge := { g with paired := tallyUp g.paired paired, unpaired := tallyUp g.unpaired (!paired),
                                        outCount := tallyUp g.outCount (paired && isOut s m) } }
  if m.kind = .tail then
    let s6 := note .coilGauged s5.n s5.clock m.coil (sat16 s5.gauge.paired) (sat16 s5.gauge.unpaired)
      (sat16 s5.gauge.outCount) s5
    { s6 with gauge := { s6.gauge with paired := 0, unpaired := 0, outCount := 0 } }
  else s5

/-- The gauge record's part of a trip reset: tolerance IN and the tally cleared (R72). -/
def gaugeTripReset (s : State) : State :=
  { s with gauge := { s.gauge with out := false, paired := 0, unpaired := 0, outCount := 0 } }

/-- The gauge record's part of a RUN entry (R72). -/
def gaugeRunEntry (s : State) : State :=
  { s with gauge := { s.gauge with held := false, silent := false, out := false, paired := 0, unpaired := 0,
                                   outCount := 0 } }

/-- The levels at which the sample is tested for expiry: RUN and LOOPBACK, where the gauge is polled (R63, R71). -/
def sampleTested (s : State) : Bool := s.polls

/-- SAMPLE_EXPIRY (R63): the expiry test, where the sample's age has reached the limit (log 4). -/
def execSampleExpiry (dt : Clock) (s : State) : Host.Outcome State Fault Refusal :=
  let s := s.tick dt
  if sampleTested s then finish (expireSample s) else finish s

end Sys2Proof.Machine
end

