-- ==== Sys2Proof/Machine/Tracker.lean ====
section
/-! DEFINITION. The Strip Tracker's marks: transport (R6 to R8), cuts (R9 to R14), the stand entries (R15 to R17),
the gauge's departures (R20), the flush (R23), the tracking summary (R25); and BODY_CUT. -/

namespace Sys2Proof.Machine

/-! ### The tracking summary (R25) -/

/-- The distinct coil ids of a queue, in the order in which they first appear. -/
def distinctCoils (q : List Mark) : List Word :=
  q.foldl (fun acc m => if acc.contains m.coil then acc else acc ++ [m.coil]) []

/-- The summary entry of a zone with the queue given. -/
def zoneSummary (q : List Mark) : ZoneSummary :=
  let coils := distinctCoils q
  match q with
  | [] => {}
  | m :: _ =>
    { count := q.length, frontId := m.id, frontKind := some m.kind, frontPos := m.pos, frontHold := m.hold.getD 0,
      coils := coils.take 3, coilCount := coils.length }

/-- The tracking summary rewritten (R25). -/
def rewriteSummary (s : State) : State :=
  let t := s.tracker
  let zones := PerStand.ofStand fun k => if k ≤ s.n then zoneSummary (t.zones.get k) else {}
  let next : Summary :=
    { count := (s.summary.map Summary.count).getD 0 + 1, freeRecords := t.freeRecords, emptySpell := t.emptySpell,
      genRunning := t.gen.running, genCount := t.gen.count, zones := zones }
  { s with summary := some next }

/-- Step 4 of R21: the summary is rewritten if the work from `before` to `s` changed a queue or the generator. -/
def summaryAfter (before s : State) : State :=
  if s.tracker.zones = before.tracker.zones ∧ s.tracker.gen = before.tracker.gen then s else rewriteSummary s

/-! ### At a stand entry (R15 to R17) and at the gauge (R20) -/

/-- Stand `k` is loaded. -/
def State.loadedAt (s : State) (k : Nat) : Bool := (s.thread k).state.loaded

/-- The late window in micrometres (R17). -/
def lateWindow (s : State) : Nat := s.lineCopy.wLate * 1000

/-- A mark as it stands after passing a stand of estimate `h`: one more thickness entry, position 0, no hold
(R15, steps 1 to 3). -/
def Mark.passed (m : Mark) (h : Nat) : Mark := { m with thick := m.thick ++ [h], pos := 0, hold := none }

/-- The front mark `m` of zone `k`, with `rest` behind it, passes stand k + 1 (R15). -/
def passMark (k : Nat) (m : Mark) (rest : List Mark) (s : State) : State :=
  let m' := m.passed (s.hEst (k + 1))
  let t := s.tracker
  let s1 := s.withTracker { t with zones := (t.zones.set k rest).set (k + 1) (t.zones.get (k + 1) ++ [m']),
                                   lastPassed := t.lastPassed.set (k + 1) (some m.id) }
  if m.kind = .tail then s1 else ffUpdate (k + 1) m' s1

/-- The hold excess of a held mark that arrives with overrun `extra` (R16). -/
def Mark.grownHold (m : Mark) (extra : Nat) : Nat := min (m.hold.getD 0 + extra) holdMax

/-- The excess of a mark grows past the late window (R17, log 15). -/
def growsLate (s : State) (m : Mark) (extra : Nat) : Bool :=
  decide (m.hold.getD 0 < m.grownHold extra ∧ lateWindow s < m.grownHold extra)

/-- A TAIL held at a loaded stand is reported late: its excess is past the window and its flag is clear (R17). -/
def tailIsLate (s : State) (k : Nat) (m : Mark) (extra : Nat) : Bool :=
  m.kind == .tail && s.loadedAt (k + 1) && growsLate s m extra && !m.lateReported

/-- A HEAD held at an empty stand is late: its excess first exceeds the window (R17). -/
def headIsLate (s : State) (k : Nat) (m : Mark) (extra : Nat) : Bool :=
  m.kind == .head && !s.loadedAt (k + 1) && growsLate s m extra && decide (m.hold.getD 0 ≤ lateWindow s)

/-- A HEAD becomes held at a loaded stand (R16). -/
def headOverlaps (s : State) (k : Nat) (m : Mark) : Bool :=
  m.kind == .head && s.loadedAt (k + 1) && m.hold.isNone

/-- The front mark `m` of zone `k`, with `rest` behind it, is held at the entry of stand k + 1 (R16, R17). -/
def holdMark (k : Nat) (m : Mark) (rest : List Mark) (extra : Nat) (s : State) : State :=
  let late := tailIsLate s k m extra
  let m' := { m with pos := s.zoneLen k, hold := some (m.grownHold extra), lateReported := m.lateReported || late }
  let s1 := s.withZone k (m' :: rest)
  let s2 := if headOverlaps s k m then raiseCause .coilOverlap (k + 1) s1 else s1
  let s3 := if headIsLate s k m extra then raiseCause .missedBite (k + 1) s2 else s2
  if late then note .tailLate (k + 1) s.clock m.coil m.id (sat16 (m.grownHold extra / 1000)) 0 s3 else s3

/-- The front mark `m` of the gauge zone `k`, with `rest` behind it, leaves it (R20). -/
def departMark (k : Nat) (m : Mark) (rest : List Mark) (s : State) : State :=
  let s1 := pairMark m s
  let t := s1.tracker
  markDeparted m.tag (s1.withTracker { t with zones := t.zones.set k rest, emptySpell := false })

/-- The entry rule lets a mark of this kind through at stand `k` (R16). -/
def entryPasses (s : State) (k : Nat) (kind : MarkKind) : Bool := kind == .body && s.loadedAt k

/-- A mark has just entered zone `k` behind others. Should the zone have no length, the mark has arrived with overrun 0 and
the entry rule applies to it at once (R11, R15): where the rule holds it, its hold excess is 0, and a HEAD at a loaded stand
raises COIL_OVERLAP (R16). One that the rule lets pass, or that would leave at the gauge, waits for the marks ahead, since a
mark leaves a queue at its front (R5; R15, step 1; R20, step 2): DESIGN CHOICE, log 16. -/
def arriveBehind (k : Nat) (s : State) : State :=
  match (s.zone k).getLast? with
  | none => s
  | some m =>
    if 0 < s.zoneLen k ∨ s.n ≤ k ∨ entryPasses s (k + 1) m.kind = true then s
    else
      let s1 := s.withZone k ((s.zone k).dropLast ++ [{ m with hold := some 0 }])
      if headOverlaps s k m then raiseCause .coilOverlap (k + 1) s1 else s1

/-- The front mark of zone `k` has arrived at its end with overrun `extra`: it leaves the gauge zone, or the entry
rule passes or holds it (R8, R16, R20). A mark that passes into a zone of length 0 arrives there at once, as its front mark
or behind others (R15); `fuel` bounds the zones it goes through. Answers whether it left zone `k`. -/
def arrive : Nat → Nat → Nat → State → State × Bool
  | 0, _, _, s => (s, false)
  | fuel + 1, k, extra, s =>
    match s.zone k with
    | [] => (s, false)
    | m :: rest =>
      if s.n ≤ k then (departMark k m rest s, true)
      else if entryPasses s (k + 1) m.kind then
        let s1 := passMark k m rest s
        if s.zoneLen (k + 1) = 0 ∧ s.zone (k + 1) = [] then ((arrive fuel (k + 1) 0 s1).1, true)
        else (arriveBehind (k + 1) s1, true)
      else (holdMark k m rest extra s, false)

/-- As many zones as a mark can go through. -/
def zoneFuel : Nat := 9

/-- The front mark of zone `k` passes stand k + 1 at its bite or its release (R18, R19), and arrives at once in a
zone of length 0 (R15). -/
def passFront (k : Nat) (s : State) : State :=
  match s.zone k with
  | [] => s
  | m :: rest =>
    let s1 := passMark k m rest s
    if s.zoneLen (k + 1) = 0 ∧ s.zone (k + 1) = [] then (arrive zoneFuel (k + 1) 0 s1).1 else arriveBehind (k + 1) s1

/-- The marks at the front of zone `k` that stand at its end are given the entry rule one after another with
overrun 0 (R18, R19); `fuel` is the number of marks there may be. -/
def entryLoop : Nat → Nat → State → State
  | 0, _, s => s
  | fuel + 1, k, s =>
    match s.zone k with
    | [] => s
    | m :: _ =>
      if m.pos = s.zoneLen k then
        let r := arrive zoneFuel k 0 s
        if r.2 then entryLoop fuel k r.1 else r.1
      else s

/-! ### Transport (R6 to R8) -/

/-- The marks behind one at position `ahead`, advanced by `dL` and limited by the mark ahead (R8). -/
def advanceBehind (dL : Nat) : Nat → List Mark → List Mark
  | _, [] => []
  | ahead, m :: ms => { m with pos := min (m.pos + dL) ahead } :: advanceBehind dL (min (m.pos + dL) ahead) ms

/-- The walk of R8 over zone `k`; `fuel` is more than the marks in it. -/
def advanceWalk : Nat → Nat → Nat → State → State
  | 0, _, _, s => s
  | fuel + 1, k, dL, s =>
    match s.zone k with
    | [] => s
    | m :: rest =>
      if m.pos + dL < s.zoneLen k then
        s.withZone k ({ m with pos := m.pos + dL } :: advanceBehind dL (m.pos + dL) rest)
      else
        let r := arrive zoneFuel k (m.pos + dL - s.zoneLen k) s
        if r.2 then advanceWalk fuel k dL r.1
        else
          match r.1.zone k with
          | [] => r.1
          | held :: behind => r.1.withZone k (held :: advanceBehind dL held.pos behind)

/-- The forward slip that a zone is moved with: 0 when no slot is in force at the stand (R7). -/
def slipAt (s : State) (k : Nat) : Nat := if (s.slotAt k).isSome then (s.sched k).slip else 0

/-- Q plus the carry, in picometres (R7, steps 1 and 2), with Δt clamped to 100,000 (R6). -/
def travel (s : State) (k v dt : Nat) : Nat :=
  v * (1000 + slipAt s k) * min dt 100000 + s.tracker.carry.get k

/-- Zone `k` advanced by the reply of stand `k` (R7, R8); a first reply gives no advance (R6). Answers ΔL. -/
def advanceZone (k v : Nat) (dt : Option Nat) (s : State) : State × Nat :=
  match dt with
  | none => (s, 0)
  | some dt =>
    let q := travel s k v dt
    let s1 := s.withTracker { s.tracker with carry := s.tracker.carry.set k (q % 1000000) }
    (advanceWalk ((s.zone k).length + 1) k (q / 1000000) s1, q / 1000000)

/-! ### Cuts (R9 to R14) -/

/-- A cut finds a free record (R14). -/
def State.hasRoom (s : State) : Bool := decide (0 < s.tracker.freeRecords)

/-- The mark a cut at stand 1 makes (R10). -/
def newMark (s : State) (kind : MarkKind) (pos : Nat) : Mark :=
  { id := s.tracker.nextId, coil := (s.thread 1).coil, tag := s.slotAt 1, kind := kind, pos := pos, thick := [s.hEst 1] }

/-- A mark cut into the back of zone 1 (R10). -/
def cutMark (kind : MarkKind) (pos : Nat) (s : State) : State :=
  let t := s.tracker
  s.withTracker { t with zones := t.zones.set 1 (t.zones.get 1 ++ [newMark s kind pos]), nextId := t.nextId + 1,
                         lastPassed := t.lastPassed.set 1 (some t.nextId) }

/-- A cut skipped for want of a free record (R14). -/
def skipCut (kind : MarkKind) (s : State) : State :=
  if s.tracker.emptySpell then s
  else
    note .poolEmpty 1 s.clock (s.thread 1).coil (BitVec.ofNat 16 kind.code) 0 0
      (s.withTracker { s.tracker with emptySpell := true })

/-- The generator replaced. -/
def withGen (g : Generator) (s : State) : State := s.withTracker { s.tracker with gen := g }

/-- The generator loaded (R11). -/
def loadGenerator (s : State) : State :=
  withGen { running := true, base := s.lineCopy.segLen * 1000, count := (s.lineCopy.segLen * 1000 : Nat) } s

/-- The generator stopped (R13). -/
def stopGenerator (s : State) : State := withGen { s.tracker.gen with running := false } s

/-- The HEAD cut of a bite at stand 1, and the generator's load (R11). A HEAD cut into a zone of length 0 has
arrived with overrun 0, as its front mark or behind others. -/
def cutHead (s : State) : State :=
  if s.hasRoom then
    let s1 := cutMark .head 0 s
    loadGenerator (if s.zoneLen 1 = 0 ∧ s.zone 1 = [] then (arrive zoneFuel 1 0 s1).1 else arriveBehind 1 s1)
  else loadGenerator (skipCut .head s)

/-- A BODY cut that has overshot stand 1 by `extra` (R12, step 1). -/
def cutBody (extra : Nat) (s : State) : State :=
  if s.hasRoom then
    match (s.zone 1).getLast? with
    | some back => cutMark .body (min extra back.pos) s
    | none =>
      if s.zoneLen 1 ≤ extra then (arrive zoneFuel 1 (extra - s.zoneLen 1) (cutMark .body (s.zoneLen 1) s)).1
      else cutMark .body extra s
  else skipCut .body s

/-- The cuts of one countdown (R12); `fuel` is at least the segments passed. -/
def cutLoop : Nat → State → State
  | 0, s => s
  | fuel + 1, s =>
    let g := s.tracker.gen
    if g.count ≤ 0 then
      let s1 := cutBody (-g.count).toNat s
      cutLoop fuel (withGen { s1.tracker.gen with count := g.base + g.count } s1)
    else s

/-- The generator's countdown by the strip length `dL` (R12). -/
def countDown (dL : Nat) (s : State) : State :=
  let g := s.tracker.gen
  if g.running then
    let left := g.count - dL
    cutLoop ((-left).toNat / g.base + 1) (withGen { g with count := left } s)
  else s

/-- The TAIL cut of a release at stand 1, and the generator's stop (R13). -/
def cutTail (s : State) : State :=
  stopGenerator (if s.hasRoom then cutMark .tail 0 s else skipCut .tail s)

/-! ### Flush (R23) -/

/-- The Tracker's picture emptied: every mark to the pool, the generator stopped, carries 0, the flag clear (R23). -/
def clearPicture (s : State) : State :=
  s.withTracker { s.tracker with zones := PerStand.all [], carry := PerStand.all 0, emptySpell := false,
                                 gen := { s.tracker.gen with running := false } }

/-- The tally cleared by a flush (R72). -/
def clearTally (s : State) : State :=
  { s with gauge := { s.gauge with paired := 0, unpaired := 0, outCount := 0 } }

/-- A flush other than HALT's (R23, R72); `time` is the event's, for the records of slots freed. -/
def flush (time : Clock) (s : State) : State := rewriteSummary (slotsFlushed time (clearTally (clearPicture s)))

/-- The Tracker handles replies: at RUN with the trip latch clear (R21, R22). -/
def trackerActive (s : State) : Bool := s.level == .run && !s.trip.latch

/-- BODY_CUT (R12): the generator's countdown at a stand-1 reply of strip length `dL`, where it brings the count to
0 or less (log 4). -/
def execBodyCut (dt : Clock) (dL : Nat) (s : State) : Host.Outcome State Fault Refusal :=
  let s := s.tick dt
  if trackerActive s = true ∧ s.deliversAt 1 = true ∧ s.tracker.gen.running = true ∧ s.tracker.gen.count - dL ≤ 0 then
    finish (takeRaised (summaryAfter s (countDown dL s)))
  else finish s

end Sys2Proof.Machine
end

