-- ==== Sys2Proof/Machine/Threading.lean ====
section
/-! DEFINITION. Stand threading: notices, load debounce, bites, lock-on, releases (R26 to R41), ANNOUNCE_HEAD (R31),
the Tracker's whole work on a reply (R21); and LOAD_ON, LOAD_OFF, LOCK_ON. -/

namespace Sys2Proof.Machine

/-! ### Notices and runs (R27 to R30) -/

/-- The release notice of stand `k` taken (R30). -/
def takeReleaseNotice (k : Nat) (s : State) : State :=
  let t := s.thread k
  if t.releaseNotice then
    s.withThread k { t with releaseNotice := false,
                            state := if t.state = .biting ∨ t.state = .rolling then .tailing else t.state }
  else s

/-- The head notice of stand `k` taken (R30). -/
def takeHeadNotice (k : Nat) (s : State) : State :=
  let t := s.thread k
  match t.headNotice with
  | none => s
  | some c =>
    if t.state = .vacant then
      leaveVacant k (s.withThread k { t with headNotice := none, state := .expecting, coil := c })
    else s.withThread k { t with headNotice := none }

/-- Step 1 of R29: the notices of stand `k`. -/
def takeNotices (k : Nat) (s : State) : State := takeHeadNotice k (takeReleaseNotice k s)

/-- Step 2 of R29: the runs of stand `k` at a reply of force `f` (R27). -/
def updateRuns (k f : Nat) (s : State) : State :=
  let t := s.thread k
  let armed := (s.slotAt k).isSome
  s.withThread k { t with onRun := if armed = true ∧ (s.sched k).fOn ≤ f then min (t.onRun + 1) 4 else 0,
                          offRun := if armed = true ∧ f < (s.sched k).fOff then min (t.offRun + 1) 4 else 0 }

/-- A load-on is confirmed at stand `k` (R28). -/
def loadOnDue (s : State) (k : Nat) : Bool := !s.loadedAt k && decide (s.lineCopy.nDb ≤ (s.thread k).onRun)

/-- A load-off is confirmed at stand `k` (R28). -/
def loadOffDue (s : State) (k : Nat) : Bool := s.loadedAt k && decide (s.lineCopy.nDb ≤ (s.thread k).offRun)

/-- Both runs set to 0 at a confirmation (R28). -/
def clearRuns (k : Nat) (s : State) : State := s.withThread k { s.thread k with onRun := 0, offRun := 0 }

/-! ### Bite (R33 to R35) -/

/-- The threading record of stand `k` at a bite: BITING, lock count 0, lock made no. -/
def startBiting (k : Nat) (s : State) : State :=
  s.withThread k { s.thread k with state := .biting, lockCount := 0, lockMade := false }

/-- The head notice of stand `k` set, unless it holds a coil (R30). -/
def setHeadNotice (coil : Word) (s : State) (k : Nat) : State :=
  let t := s.thread k
  s.withThread k { t with headNotice := some (t.headNotice.getD coil) }

/-- The head notices of stands 2 to N set (R30). -/
def setHeadNotices (coil : Word) (s : State) : State := ((standsTo s.n).drop 1).foldl (setHeadNotice coil) s

/-- Step 1 of R33: a VACANT stand 1 bites unannounced. -/
def forgetAnnouncement (s : State) : State :=
  if s.vacant 1 then s.withThread 1 { s.thread 1 with coil := 0, h0 := 0 } else s

/-- Step 5 of R33: BITE, and UNANNOUNCED_BITE for an unannounced bite. -/
def noteBite1 (unannounced : Bool) (headId : Word) (s : State) : State :=
  let h := sat16 (s.hEst 1)
  let s1 := note .bite 1 s.clock (s.thread 1).coil h headId (sat16 (s.thread 1).h0) s
  if unannounced then note .unannouncedBite 1 s.clock 0 h headId 0 s1 else s1

/-- Stand 1 bites (R33). -/
def bite1 (s : State) : State :=
  let unannounced := s.vacant 1
  let room := s.hasRoom
  let id := s.tracker.nextId
  let s1 := cutHead (startBiting 1 (forgetAnnouncement s))
  let s2 := if room then setHeadNotices (s1.thread 1).coil s1 else s1
  let s3 := setMode 1 .held (noteBite1 unannounced (if room then id else 0) s2)
  if unannounced then leaveVacant 1 s3 else s3

/-- The shortfall of a mark to the end of zone `k` (R18). -/
def shortfall (s : State) (k : Nat) (m : Mark) : Nat := s.zoneLen k - m.pos

/-- The front mark of zone `k`, if it is of the kind given and is held or within W_early of the end (R18, R19). -/
def frontWithin (s : State) (k : Nat) (kind : MarkKind) : Option Mark :=
  match s.zone k with
  | [] => none
  | m :: _ =>
    if m.kind = kind ∧ (m.hold.isSome = true ∨ shortfall s k m ≤ s.lineCopy.wEarly * 1000) then some m else none

/-- TRACK_CORRECTED for a mark that was not held (R18, R19, log 24). -/
def noteCorrected (k : Nat) (m : Mark) (s : State) : State :=
  if m.hold.isSome then s
  else note .trackCorrected (k + 1) s.clock m.coil m.id (BitVec.ofNat 16 m.kind.code) (sat16 (shortfall s k m)) s

/-- A queue holds a mark of the kind given. -/
def holdsKind (q : List Mark) (kind : MarkKind) : Bool := q.any fun m => m.kind == kind

/-- The head `m` at the front of zone k − 1 is taken by stand `k` (R34). -/
def biteHead (k : Nat) (m : Mark) (s : State) : State :=
  let s1 := startBiting k (noteCorrected (k - 1) m s)
  let s2 := passFront (k - 1) (s1.withThread k { s1.thread k with coil := m.coil })
  let s3 := entryLoop (s2.zone (k - 1)).length (k - 1) s2
  let s4 := if holdsKind (s3.zone (k - 1)) .tail then s3.withThread k { s3.thread k with state := .tailing } else s3
  setMode k .held
    (note .bite k s4.clock m.coil (sat16 (s4.hEst k)) m.id (sat16 (m.hold.getD 0 / 1000)) s4)

/-- A load-on confirmed at stand `k` (R33 to R35). -/
def loadOnAt (k : Nat) (s : State) : State :=
  if k = 1 then bite1 s
  else if s.vacant k then raiseCause .unexpectedLoad k s
  else
    match frontWithin s (k - 1) .head with
    | some m => biteHead k m s
    | none => raiseCause .unexpectedLoad k s

/-! ### Lock-on (R36) -/

/-- The lock count of stand `k` advances at this reply. -/
def lockAdvances (t : Threading) : Bool := t.state == .biting || (t.state == .tailing && !t.lockMade)

/-- The lock count's next value reaches N_lock. -/
def lockReached (s : State) (k : Nat) : Bool :=
  lockAdvances (s.thread k) && decide ((s.sched k).nLock ≤ (s.thread k).lockCount + 1)

/-- Step 4 of R29: the lock count, and lock-on (R36). -/
def advanceLock (k : Nat) (s : State) : State :=
  let t := s.thread k
  if lockReached s k then
    captureLock k (s.withThread k { t with lockCount := t.lockCount + 1, lockMade := true,
                                           state := if t.state = .biting then .rolling else t.state })
  else if lockAdvances t then s.withThread k { t with lockCount := t.lockCount + 1 }
  else s

/-! ### Release (R37 to R41) -/

/-- The coil of the HEAD nearest to stand `k`: in the highest-numbered zone below `k` that holds one, the one
nearest the front (R39). -/
def nearestHead (s : State) (k : Nat) : Option Word :=
  ((standsTo (k - 1)).reverse.flatMap fun j => s.zone j).find? (fun m => m.kind == .head) |>.map Mark.coil

/-- Stand 1 is EXPECTING, BITING or ROLLING (R39). -/
def stand1Busy (s : State) : Bool :=
  let x := (s.thread 1).state
  x == .expecting || x == .biting || x == .rolling

/-- The state after release of stand `k` taken (R39). -/
def stateAfterRelease (k : Nat) (s : State) : State :=
  let t := s.thread k
  if k = 1 then s.withThread 1 { t with state := .vacant, coil := 0, h0 := 0 }
  else
    match nearestHead s k with
    | some c => s.withThread k { t with state := .expecting, coil := c }
    | none =>
      if stand1Busy s then s.withThread k { t with state := .expecting, coil := (s.thread 1).coil }
      else s.withThread k { t with state := .vacant, coil := 0 }

/-- The state after as RELEASE gives it: 1 VACANT, 2 EXPECTING (R176). -/
def stateAfterCode (t : ThreadState) : Word := if t = .vacant then 1 else 2

/-- The release notice of the stand after `k` set, where there is one (R40, step 5). -/
def notifyRelease (k : Nat) (s : State) : State :=
  if k < s.n then s.withThread (k + 1) { s.thread (k + 1) with releaseNotice := true } else s

/-- The release work of stand `k`, whose coil was `coil` and whose tail `tailId` was cut or passed (R40). -/
def releaseWork (k : Nat) (coil tailId : Word) (s : State) : State :=
  let s1 := s.withThread k { s.thread k with lockCount := 0, lockMade := false }
  let s2 := notifyRelease k (releaseSwitch k (thicknessRelease k (clearTerms k s1)))
  note .release k s2.clock coil (sat16 (s2.hEst k)) tailId (stateAfterCode (s2.thread k).state) s2

/-- Stand 1 releases (R37). -/
def release1 (s : State) : State :=
  releaseWork 1 (s.thread 1).coil (if s.hasRoom then s.tracker.nextId else 0) (stateAfterRelease 1 (cutTail s))

/-- The tail `m` at the front of zone k − 1 is released by stand `k` (R38). -/
def releaseTail (k : Nat) (m : Mark) (s : State) : State :=
  let s1 := stateAfterRelease k (passFront (k - 1) (noteCorrected (k - 1) m s))
  releaseWork k (s.thread k).coil m.id (entryLoop (s1.zone (k - 1)).length (k - 1) s1)

/-- A load-off confirmed at stand `k` (R37, R38, R41). -/
def loadOffAt (k : Nat) (s : State) : State :=
  if k = 1 then release1 s
  else if (s.thread k).state ≠ .tailing then raiseCause .loadLoss k s
  else
    match frontWithin s (k - 1) .tail with
    | some m => releaseTail k m s
    | none => raiseCause .loadLoss k s

/-! ### The Tracker's work on a reply (R21, R29) -/

/-- The notices and runs of stand `k` at a reply of force `f` (R29, steps 1 and 2). -/
def noticesAndRuns (k f : Nat) (s : State) : State := updateRuns k f (takeNotices k s)

/-- Steps 3 and 4 of R29. -/
def confirmOrLock (k : Nat) (s : State) : State :=
  if loadOnDue s k then loadOnAt k (clearRuns k s)
  else if loadOffDue s k then loadOffAt k (clearRuns k s)
  else advanceLock k s

/-- The threading work of stand `k` at a reply of force `f` (R29). -/
def threadingWork (k f : Nat) (s : State) : State := confirmOrLock k (noticesAndRuns k f s)

/-- A reply of force `f` from stand 1 confirms a bite there (R28). -/
def confirmsBite1 (f : Nat) (s : State) : Bool := loadOnDue (noticesAndRuns 1 f s) 1

/-- Step 2 of R21: the generator's countdown by `dL` at a reply of force `f` from stand 1, but at one that confirms a bite,
which does not count a generator down that is already running (R11). -/
def generatorWork (f dL : Nat) (s : State) : State := if confirmsBite1 f s then s else countDown dL s

/-- The Tracker's work on a reply of stand `k` (R21); frozen while the latch is set (R22). -/
def trackerWork (k f v : Nat) (dt : Option Nat) (s : State) : State :=
  if trackerActive s then
    let r := advanceZone k v dt s
    let s1 := if k = 1 then generatorWork f r.2 r.1 else r.1
    summaryAfter s (threadingWork k f s1)
  else s

/-- Every threading record reset (R44). -/
def resetThreading (s : State) : State := s.withTracker { s.tracker with threading := PerStand.all {} }

/-! ### ANNOUNCE_HEAD (R31, R32) -/

/-- The coil id of the schedule in the slot in force at stand 1, or 0 (R31). -/
def slotCoilAt1 (s : State) : Word := (s.slotAt 1).elim 0 s.slotCoil

/-- The coil id check of R32. -/
def checkCoil (coil : Word) (h0 : Nat) (time : Clock) (s : State) : State :=
  if (s.slotAt 1).isSome = true ∧ slotCoilAt1 s = coil then s
  else note .coilMismatch 1 time coil (slotCoilAt1 s) (BitVec.ofNat 16 (slotCode (s.slotAt 1))) (sat16 h0) s

/-- ANNOUNCE_HEAD: its checks in order and its effect (R31, R32). -/
def announceHeadWork (coil : Word) (h0 : Nat) (time : Clock) (s : State) : State :=
  if coil = 0 then retireTaken (.invalidField 12) s
  else if s.trip.latch then retireTaken (.plain (.refused .state)) s
  else if !s.vacant 1 then retireTaken (.plain (.refused .busy)) s
  else if s.gap.toList.any (fun r => r.move.calibrating) then retireTaken (.plain (.refused .move)) s
  else
    let s1 := leaveVacant 1 (s.withThread 1 { s.thread 1 with state := .expecting, coil := coil, h0 := h0 })
    retireTaken { cls := .completed, value := slotCoilAt1 s } (checkCoil coil h0 time s1)

/-- ANNOUNCE_HEAD (R31): the Tracker's work on the order that stands taken, then the next read. -/
def execAnnounceHead (dt : Clock) (s : State) : Host.Outcome State Fault Refusal :=
  let s := s.tick dt
  match s.orders.copy with
  | some { ptr := _, order := .announceHead coil h0, time := time } =>
    finish (freeToTake (announceHeadWork coil h0 time s))
  | _ => finish s

/-! ### Parts of a reply's threading work as commands (log 4) -/

/-- The Tracker works on a reply of stand `k`: a stand of the line, at RUN with the latch clear (R22), whose replies are
delivered (R43, R152, R153). -/
def threadingActive (s : State) (k : Nat) : Bool :=
  trackerActive s && (decide (1 ≤ k ∧ k ≤ s.n) && s.deliversAt k)

/-- LOAD_ON (R28): the threading work of a reply of force `f` at stand `k`, where it confirms a load-on. -/
def execLoadOn (dt : Clock) (k f : Nat) (s : State) : Host.Outcome State Fault Refusal :=
  let s := s.tick dt
  if threadingActive s k = true ∧ loadOnDue (noticesAndRuns k f s) k = true then
    finish (takeRaised (summaryAfter s (threadingWork k f s)))
  else finish s

/-- LOAD_OFF (R28): the threading work of a reply of force `f` at stand `k`, where it confirms a load-off. -/
def execLoadOff (dt : Clock) (k f : Nat) (s : State) : Host.Outcome State Fault Refusal :=
  let s := s.tick dt
  if threadingActive s k = true ∧ loadOffDue (noticesAndRuns k f s) k = true then
    finish (takeRaised (summaryAfter s (threadingWork k f s)))
  else finish s

/-- The threading work of a reply of force `f` makes lock-on at stand `k` (R36). -/
def lockOnDue (s : State) (k f : Nat) : Bool :=
  let t := noticesAndRuns k f s
  !loadOnDue t k && !loadOffDue t k && lockReached t k

/-- LOCK_ON (R36): the threading work of a reply of force `f` at stand `k`, where it makes lock-on. -/
def execLockOn (dt : Clock) (k f : Nat) (s : State) : Host.Outcome State Fault Refusal :=
  let s := s.tick dt
  if threadingActive s k = true ∧ lockOnDue s k f = true then
    finish (takeRaised (summaryAfter s (threadingWork k f s)))
  else finish s

end Sys2Proof.Machine
end

