-- ==== Sys2Proof/Machine/Views.lean ====
section
/-! DEFINITION. What the processor reads: every byte of Exchange Memory by the layouts of chapter 13, and the
registers. Part-written areas are held as records and laid out here (log 20). -/

namespace Sys2Proof.Machine

/-- A byte field. -/
def byteField (n : Nat) : List Byte := [BitVec.ofNat 8 n]

/-- A word as its two bytes, least significant first (R185). -/
def wordBytes (w : Word) : List Byte := [w.setWidth 8, (w >>> 8).setWidth 8]

/-- A word field. -/
def wordField (n : Nat) : List Byte := wordBytes (BitVec.ofNat 16 n)

/-- A signed word field, at its stated width. -/
def signedWordField (x : Int) : List Byte := wordBytes (BitVec.ofInt 16 x)

/-- A long as its four bytes. -/
def longBytes (v : BitVec 32) : List Byte := wordBytes (v.setWidth 16) ++ wordBytes ((v >>> 16).setWidth 16)

/-- A long field. -/
def longField (n : Nat) : List Byte := longBytes (BitVec.ofNat 32 n)

/-- A signed long field, at its stated width (log 21). -/
def signedLongField (x : Int) : List Byte := longBytes (BitVec.ofInt 32 x)

/-- The flags word of a stand image (R190). -/
def Image.flagsWord (i : Image) : Nat :=
  bit i.late + 2 * bit i.limit + 4 * bit i.rate + 8 * bit i.pClamp + 16 * bit i.hold + 32 * bit i.clamped
    + 64 * bit i.flags.hydFault + 128 * bit i.flags.overtravel + 256 * bit i.flags.localMode
    + 512 * bit i.lastMark.isSome

/-- The last-mark word of an image: a free word when no mark is named (R190, log 10). -/
def Image.lastMarkWord (i : Image) : Word := i.lastMark.getD (Config.freeWord i.free 0)

/-- A stand image as its 64 bytes, between the two words of its update count (R178, R190). -/
def Image.bytes (count : Word) (i : Image) : List Byte :=
  wordBytes count ++ wordField i.flagsWord ++ longBytes i.time ++ byteField i.station.code ++ byteField i.missRun
    ++ byteField i.goodRun ++ byteField i.thread.code ++ longField i.p ++ wordField i.f ++ wordField i.v
    ++ signedLongField i.gapAct ++ wordField i.hEst ++ byteField i.band ++ byteField (slotCode i.slot) ++ wordBytes i.coil
    ++ wordBytes i.lastMarkWord ++ signedWordField i.ff ++ signedWordField i.agc ++ signedWordField i.mon
    ++ signedWordField i.trim ++ signedLongField i.base ++ longField i.pRef ++ byteField i.move.code
    ++ byteField i.actions.byte ++ wordField 0 ++ longField i.stretch ++ List.replicate 6 0 ++ wordBytes count

/-- The bytes of a stand image's area; none where it is set to 0. -/
def ImageArea.bytes (a : ImageArea) : Option (List Byte) := a.shown.map (Image.bytes a.count)

/-- A cause list entry as its 12 bytes (R191); `free` and `i` name the free word of an entry without a mark. -/
def CauseEntry.bytes (free i : Nat) (e : CauseEntry) : List Byte :=
  byteField e.cause.code ++ byteField e.stand ++ longBytes e.time ++ wordBytes e.coil
    ++ wordBytes (e.lastMark.getD (Config.freeWord free (i + 1))) ++ byteField (bit e.lastMark.isSome) ++ byteField 0

/-- The trip record area as its 256 bytes (R191). -/
def TripArea.bytes (t : TripArea) : List Byte :=
  let entries := t.causes.zipIdx.flatMap fun e => CauseEntry.bytes t.free e.2 e.1
  let body := wordBytes t.count
    ++ wordField (bit t.latch + 2 * bit t.entryStop + 4 * bit (t.etrip == .trip) + 8 * bit t.overflow)
    ++ t.actions.toList.flatMap (fun a => byteField a.byte)
    ++ byteField ((t.ready.toList.zipIdx.map fun r => bit r.1 * 2 ^ r.2).sum) ++ byteField t.causes.length
    ++ wordField 0 ++ entries
  body ++ List.replicate (254 - body.length) 0 ++ wordBytes t.count

/-- The distinct coil count of a zone entry as its byte (R25, R191). A zone can hold 256 marks of as many coils, and the
manual does not say what the byte reads for a count that it cannot hold: a free value (DESIGN CHOICE, log 49). -/
def coilCountField (n : Nat) : List Byte := if n < 256 then byteField n else [Config.freeByte n]

/-- A zone entry of the tracking summary as its 20 bytes (R191). -/
def ZoneSummary.bytes (z : ZoneSummary) : List Byte :=
  wordField z.count ++ wordBytes z.frontId ++ byteField ((z.frontKind.map MarkKind.code).getD 0) ++ coilCountField z.coilCount
    ++ longField z.frontPos ++ longField z.frontHold
    ++ [0, 1, 2].flatMap fun i => wordBytes (z.coils.getD i 0)

/-- The tracking summary as its 256 bytes (R191). -/
def Summary.bytes (t : Summary) : List Byte :=
  let body := wordBytes t.count ++ wordField t.freeRecords ++ wordField (bit t.emptySpell + 2 * bit t.genRunning)
    ++ signedLongField t.genCount ++ wordField 0 ++ t.zones.toList.flatMap ZoneSummary.bytes
  body ++ List.replicate (254 - body.length) 0 ++ wordBytes t.count

/-- A journal record as its 16 bytes (R192). -/
def JournalRecord.bytes (r : JournalRecord) : List Byte :=
  byteField r.kind.code ++ byteField r.stand ++ longBytes r.time ++ wordBytes r.coil ++ wordBytes r.v1 ++ wordBytes r.v2
    ++ wordBytes r.v3 ++ wordField 0

/-- The bytes of a record that may not have been written since the area was zeroed. -/
def areaByte (bytes : Option (List Byte)) (i : Nat) : Byte := (bytes.getD []).getD i 0

/-- The part-written header bytes 0x0004 to 0x003F (R186). -/
def headerBytes (s : State) : List Byte :=
  wordField s.journal.w.toNat ++ wordBytes s.configResult ++ longBytes s.cycleClock

/-- The byte the processor reads at an offset of Exchange Memory (R157). -/
def exmByte (s : State) (a : Nat) : Byte :=
  if a < 4 then s.exm.read a
  else if a < 64 then (headerBytes s).getD (a - 4) 0
  else if a < 1024 then s.exm.read a
  else if a < 1536 then areaByte (s.images.get ((a - 1024) / 64 + 1)).bytes ((a - 1024) % 64)
  else if a < 1792 then areaByte (s.tripArea.map TripArea.bytes) (a - 1536)
  else if a < 2048 then areaByte (s.summary.map Summary.bytes) (a - 1792)
  else if a < 4096 then
    areaByte (((s.journal.slots.getD ((a - 2048) / 16) none)).map JournalRecord.bytes) ((a - 2048) % 16)
  else s.exm.read a

/-- The word the processor reads at an even offset (R158). -/
def exmWord (s : State) (a : Nat) : Word := exmByte s (a + 1) ++ exmByte s a

/-- The word the processor reads with the register select asserted (R160, R161, R186). -/
def registerRead (s : State) (offset : Nat) : Word :=
  if offset = 0 then 0x2370
  else if offset = 2 then 1
  else if offset = 4 then BitVec.ofNat 16 s.level.code
  else if offset = 6 then s.attention.setWidth 16
  else if offset = 8 then s.mask.setWidth 16
  else 0

/-- A byte is part-written: in a part-written area of the map, or STATE or RESULT of a block taken and not
retired (R157). -/
def partOwned (s : State) (a : Nat) : Bool :=
  decide (4 ≤ a ∧ a < 64) || decide (1024 ≤ a ∧ a < 4096)
    || s.takenBlocks.any fun p => a == p + 2 || a == p + 3 || decide (p + 6 ≤ a ∧ a < p + 12)

end Sys2Proof.Machine
end

