-- ==== Sys2Proof/WellFormed.lean ====
section
/-! DEFINITION. Which commands are well formed: what a sender can send at all. -/

namespace Sys2Proof

/-- A stand number of the part: 1 to 8 (00_scope, *Stands and zones*). -/
def standOk (k : Nat) : Bool := 1 ≤ k && k ≤ 8

/-- A poll list entry names a stand 1 to 8 or the gauge. -/
def PollEntry.ok : PollEntry → Bool
  | .stand k => standOk k
  | .gauge => true

/-- An order of the work on a reply that the manual allows: every piece once, the Tracker's before the Gap
Unit's (R75) and before the taking of the causes the Tracker raised (R42). -/
def planOk (p : List Work) : Bool :=
  p.length == 5 && p.contains .tracker && p.contains .gap && p.contains .causes && p.contains .check
    && p.contains .nextPoll && p.idxOf .tracker < p.idxOf .gap && p.idxOf .tracker < p.idxOf .causes

/-- A frame's exchange ends once the line has been idle for 2 µs (R148): it is never idle for longer. -/
def FrameEnd.ok : FrameEnd → Bool
  | .idle n => n ≤ 2
  | .arriving => true

/-- The reported quantities of a reply fit their fields (R144). -/
def Reply.ok : Reply → Bool
  | .stand p f v _ => p < 4294967296 && f < 65536 && v < 65536
  | .gauge _ hx => hx < 65536

/-- A register write that the part ignores: PART_ID, an unassigned offset, or a RUN_LEVEL value above 3 (R160,
R186). -/
def registerWriteIsIgnored (offset value : Word) : Bool :=
  !(offset == 4 && value.toNat ≤ 3) && offset != 6 && offset != 8

/-- The station an entry names and the kind of the reply agree. -/
def replyFits : PollEntry → Reply → Bool
  | .stand _, .stand .. => true
  | .gauge, .gauge .. => true
  | _, _ => false

/-- What a sender can send: stand numbers 1 to 8, even word addresses, allowed work orders, fields that fit. -/
def Instr.wellFormed : Instr → Bool
  | .powerOn _ => true
  | .runLevelHalt _ => true
  | .runLevelConfigure _ => true
  | .runLevelLoopback _ => true
  | .runLevelRun _ => true
  | .attentionWrite _ _ => true
  | .attentionMaskWrite _ _ => true
  | .registerWriteIgnored _ o v => registerWriteIsIgnored o v
  | .exmWrite _ a _ => a.toNat % 2 == 0
  | .watchedWordArrival _ _ => true
  | .announceHead _ => true
  | .setModulus _ => true
  | .setTrim _ => true
  | .loadSchedule _ => true
  | .unloadSchedule _ => true
  | .presetGap _ => true
  | .calibrateZero _ => true
  | .abortMove _ => true
  | .tripStands _ => true
  | .resetTrip _ => true
  | .etripChange _ _ => true
  | .pollTimerExpiry _ => true
  | .pollSent _ => true
  | .replyWindowClose _ _ => true
  | .replyReceived _ _ fin p => fin.ok && planOk p
  | .bodyCut _ _ => true
  | .loadOn _ k f => standOk k && f < 65536
  | .loadOff _ k f => standOk k && f < 65536
  | .lockOn _ k f => standOk k && f < 65536
  | .presetComplete _ k _ => standOk k
  | .zeroFound _ k p f => standOk k && p < 4294967296 && f < 65536
  | .calibrationRetire _ k _ => standOk k
  | .moveTimeout _ k => standOk k
  | .stationSilent _ e => e.ok
  | .stationRejoined _ e r p => e.ok && r.ok && replyFits e r && planOk p
  | .sampleExpiry _ => true
  | .elapsedSaturated _ e => e.ok
  | .strayFrameDiscard _ _ => true
  | .journalReadWrite _ _ => true
  | .replyStart _ => true
  | .resetAsserted _ => true

end Sys2Proof
end

