-- ==== Sys2Proof/Machine/Link.lean ====
section
/-! DEFINITION. The Stand Link Controller: frames and their CRC (R143 to R145, R193), the poll cycle (R146 to R149),
the judging of replies (R150), station records (R151, R152, R154), the handing on of replies (R153), internal answers
(R155), the stand images (R177); and the link's commands. -/

namespace Sys2Proof.Machine

/-! ### Frames (R144, R145, R193) -/

/-- One bit entered into the CRC register (R145). -/
def crcShift (r : Word) : Word := if r.msb then (r <<< 1) ^^^ 0x1021 else r <<< 1

/-- One byte entered, most significant bit first (R145). -/
def crcByte (r : Word) (b : Byte) : Word := Nat.repeat crcShift 8 (r ^^^ (b.setWidth 16 <<< 8))

/-- The CRC of the bytes before the CRC field (R145). -/
def crc (bs : List Byte) : Word := bs.foldl crcByte 0xFFFF

/-- Bytes followed by their CRC, most significant byte first (R193). -/
def sealFrame (bs : List Byte) : List Byte := bs ++ [((crc bs) >>> 8).setWidth 8, (crc bs).setWidth 8]

/-- A POLL_STAND to the address given, with the P_ref and flags of the preparation (R144). -/
def pollStand (addr : Nat) (r : Reference) : List Byte :=
  sealFrame (byteField addr ++ byteField 1 ++ byteField (bit r.tripFlag + 2 * bit r.holdFlag + 4 * bit r.calFlag)
    ++ longField r.pRef)

/-- A POLL_GAUGE to the address given (R144). -/
def pollGauge (addr : Nat) : List Byte := sealFrame (byteField addr ++ byteField 2)

/-- Byte `i` of a frame as a number. -/
def frameByte (fr : List Byte) (i : Nat) : Nat := (fr.getD i 0).toNat

/-- A word of a frame, least significant byte first (R193). -/
def frameWord (fr : List Byte) (i : Nat) : Nat := frameByte fr i + 256 * frameByte fr (i + 1)

/-- The flags of a STAND_REPLY (R193). -/
def frameFlags (b : Nat) : ReplyFlags :=
  { hydFault := b.testBit 0, overtravel := b.testBit 1, localMode := b.testBit 2 }

/-- Checks 2 to 4 of R150: length, address, kind and CRC. -/
def frameOk (addr len kind : Nat) (fr : List Byte) : Bool :=
  fr.length == len && frameByte fr 0 == addr && frameByte fr 1 == kind && fr == sealFrame (fr.take (len - 2))

/-- A received frame judged against the entry just polled (R150): the reply, or none for a miss. -/
def judge (e : PollEntry) (addr : Nat) (fr : List Byte) (still : Bool) : Option Reply :=
  match e with
  | .stand _ =>
    if !still && frameOk addr 13 3 fr then
      some (.stand (frameWord fr 3 + 65536 * frameWord fr 5) (frameWord fr 7) (frameWord fr 9) (frameFlags (frameByte fr 2)))
    else none
  | .gauge =>
    if !still && frameOk addr 7 4 fr then some (.gauge ((frameByte fr 2).testBit 0) (frameWord fr 3)) else none

/-! ### Station records (R151, R152, R154) -/

/-- The runs at a valid reply (R151). -/
def Station.answered (st : Station) : Station := { st with missRun := 0, goodRun := min (st.goodRun + 1) 7 }

/-- The runs at a miss (R151). -/
def Station.missed (st : Station) : Station := { st with goodRun := 0, missRun := min (st.missRun + 1) 7 }

/-- The contents of a valid reply received from the line (R151). -/
def Station.withReply (st : Station) (r : Reply) : Station :=
  match r with
  | .stand p f v flags => { st with p := p, f := f, v := v, flags := flags, lastLocal := flags.localMode }
  | .gauge valid hx => { st with valid := valid, hx := hx }

/-- At least 100,000 µs have passed since the previous time (R154). -/
def Station.longSince (st : Station) (now : Clock) : Bool :=
  match st.prevTime with
  | none => false
  | some t => decide (100000 ≤ (now - t).toNat)

/-- An exchange that delivers nothing, for the elapsed time (R154). -/
def Station.undelivered (st : Station) (now : Clock) : Station :=
  { st with saturated := st.saturated || st.longSince now }

/-- Δt of a delivered reply (R154). -/
def Station.elapsed (st : Station) (now : Clock) : Option Nat :=
  match st.prevTime with
  | none => none
  | some t => some (if st.saturated then 100000 else (now - t).toNat)

/-- The record after a delivered reply (R154). -/
def Station.delivered (st : Station) (now : Clock) : Station := { st with prevTime := some now, saturated := false }

/-- The state after a valid reply, the runs counted (R152). -/
def stateAnswered (rejoin : Nat) (st : Station) : StationState :=
  match st.state with
  | .unknown => .present
  | .present => .present
  | .silent => if rejoin ≤ st.goodRun then .present else .silent

/-- The state after a miss, the runs counted (R152). -/
def stateMissed (silent : Nat) (st : Station) : StationState :=
  match st.state with
  | .unknown => .unknown
  | .present => if silent ≤ st.missRun then .silent else .present
  | .silent => .silent

/-- The stand a journal record names for a station: N + 1 for the gauge (R152). -/
def entryStand (s : State) : PollEntry → Nat
  | .stand k => k
  | .gauge => s.n + 1

/-- The coil id at an entry's stand; 0 for the gauge, as R152 gives for its STATION_SILENT, and in its STATION_REJOINED
too, which R152 does not say (DESIGN CHOICE, log 45). -/
def entryCoil (s : State) : PollEntry → Word
  | .stand k => (s.thread k).coil
  | .gauge => 0

/-- Whole milliseconds from `t` to now, saturating (R152, log 22). -/
def msSince (s : State) (t : Clock) : Word := sat16 ((s.clock - t).toNat / 1000)

/-- The steps when a station becomes SILENT (R152). -/
def becomeSilent (e : PollEntry) (s : State) : State :=
  let st := s.station e
  let s1 := s.withStation e { st with state := .silent, silentSince := s.clock }
  let s2 := note .stationSilent (entryStand s e) s.clock (entryCoil s e) (BitVec.ofNat 16 st.addr)
    (BitVec.ofNat 16 st.missRun) (st.prevTime.elim 65535 (msSince s)) s1
  match e with
  | .stand k =>
    endMove k .station true
      (if s.level = .run ∧ s.vacant k = false then takeCause .stationSilent k s.clock s2 else s2)
  | .gauge => gaugeSilent s2

/-- The steps when a station becomes PRESENT, but for the delivery (R152). -/
def becomePresent (e : PollEntry) (s : State) : State :=
  let st := s.station e
  let s1 := s.withStation e { st with state := .present }
  let s2 := if st.state = .silent then
      note .stationRejoined (entryStand s e) s.clock (entryCoil s e) (BitVec.ofNat 16 st.addr)
        (BitVec.ofNat 16 st.goodRun) (msSince s st.silentSince) s1
    else s1
  match e with
  | .stand k => if s.level = .run then becomeReady k s2 else s2
  | .gauge => gaugePresent s2

/-! ### Stand images (R177, R178) -/

/-- The image of stand `k` written at an outcome of its station's exchange (R177, R178). Its base is the base as the Gap Unit
holds it then (R177), and so, at a reply whose work sets the base (the first reply, R80; a zero found, R115), the base after
that work, where R73 says that the image shows the base of the poll that prompted the reply. DESIGN CHOICE, unsafe
(log 50). -/
def writeImage (k : Nat) (late : Bool) (s : State) : State :=
  let st := s.link.stations.get k
  let e := s.est.get k
  let r := s.gap.get k
  let t := s.thread k
  let image : Image :=
    { time := s.clock, late := late, station := st.state,
      missRun := st.missRun, goodRun := st.goodRun, flags := st.flags, p := e.p, f := e.f, v := st.vDelivered,
      thread := t.state, coil := t.coil, lastMark := s.tracker.lastPassed.get k, gapAct := e.gapAct,
      stretch := e.stretch, hEst := e.hEst, band := e.band, clamped := e.clamped, slot := s.slotAt k, ff := r.ff,
      agc := r.agc, mon := r.mon, trim := r.trim, base := r.base, pRef := r.pRef, limit := r.limit, rate := r.rate,
      pClamp := r.pClamp, hold := r.holdFlag, move := r.move, actions := s.trip.actions.get k, free := s.freeIndex }
  { s with images := s.images.set k { count := (s.images.get k).count + 1, shown := some image },
           freeIndex := s.freeIndex + 1 }

/-! ### The cycle (R147 to R149) -/

/-- The controller's exchange position replaced. -/
def withCycle (c : Option Cycle) (s : State) : State := { s with link := { s.link with cycle := c } }

/-- The poll frame of an entry after its preparation. -/
def pollFrame (s : State) (e : PollEntry) : List Byte :=
  match e with
  | .stand k => pollStand (s.station (.stand k)).addr (s.gap.get k)
  | .gauge => pollGauge (s.station .gauge).addr

/-- Preparation: the Gap Unit's for a stand, nothing for the gauge (R148, step 1). -/
def prepareEntry (e : PollEntry) (s : State) : State :=
  match e with
  | .stand k => prepare k s
  | .gauge => s

/-- The exchange of entry `i` begins: preparation and poll; past the last entry the controller is idle (R147, R148). -/
def beginExchange (i : Nat) (late : Bool) (s : State) : State :=
  match s.link.pollList[i]? with
  | none => withCycle none s
  | some e =>
    let s1 := prepareEntry e s
    withCycle (some { index := i, phase := .sending, late := late })
      { s1 with link := { s1.link with txFrame := pollFrame s1 e } }

/-- A cycle starts (R147). -/
def startCycle (late : Bool) (s : State) : State := beginExchange 0 late { s with cycleClock := s.clock }

/-- The exchange in flight has ended: the next entry's begins, or after the last the controller is idle, or a late
cycle starts (R148, R149). -/
def nextExchange (s : State) : State :=
  match s.link.cycle with
  | none => s
  | some c =>
    if c.index + 1 < s.link.pollList.length then beginExchange (c.index + 1) c.late s
    else if s.link.expiryWaiting then startCycle true { s with link := { s.link with expiryWaiting := false } }
    else withCycle none s

/-- The next exchange begins at `now`, when the one in flight has ended, within work that is timed otherwise: by the
frame's end, up to 2 µs before (R148, R150). -/
def nextExchangeAt (now : Clock) (s : State) : State := (nextExchange (s.atTime now)).atTime s.clock

/-- The exchange open at RUN: its cycle and its entry. -/
def openExchange (s : State) : Option (Cycle × PollEntry) :=
  if s.level = .run then
    match s.link.cycle with
    | none => none
    | some c => (s.link.pollList[c.index]?).map fun e => (c, e)
  else none

/-! ### Handing on (R153) -/

/-- One piece of the work on a delivered stand reply, whose exchange ended at `now` (R153). -/
def doWork (k p f v : Nat) (flags : ReplyFlags) (lockBefore : Bool) (dt : Option Nat) (now : Clock) (w : Work)
    (s : State) : State :=
  match w with
  | .tracker => trackerWork k f v dt s
  | .gap => gapReply k p f flags.localMode lockBefore s
  | .causes => takeRaised s
  | .check => replyCheck k p f flags s
  | .nextPoll => nextExchangeAt now s

/-- A stand reply delivered at RUN: the estimate, then the blocks' work in the order of `plan`, then the image
(R153). -/
def deliverStand (k p f v : Nat) (flags : ReplyFlags) (plan : List Work) (late : Bool) (now : Clock) (s : State) :
    State :=
  let st := s.link.stations.get k
  let v' := min v 30000
  let s1 := s.withStation (.stand k) { st.delivered s.clock with vDelivered := v' }
  let lockBefore := (s.thread k).lockMade
  let s2 := plan.foldl (fun s w => doWork k p f v' flags lockBefore (st.elapsed s1.clock) now w s)
    (estimateReply k p f s1)
  writeImage k late s2

/-- The order of work given, or the order of R153 where what is given is none that the manual allows. -/
def workOrder (plan : List Work) : List Work :=
  if planOk plan then plan else [.tracker, .gap, .causes, .check, .nextPoll]

/-- The pieces of work of an outcome that hands no stand reply on: the next preparation alone, if it is among them. -/
def onlyNextPoll (plan : List Work) (now : Clock) (s : State) : State :=
  if plan.contains .nextPoll then nextExchangeAt now s else s

/-- A valid reply from the line at RUN (R151 to R154). The state's clock is the reply's time, and its exchange ended at
`now` (R148, R150). -/
def validReply (e : PollEntry) (r : Reply) (plan : List Work) (late : Bool) (now : Clock) (s : State) : State :=
  let st := (s.station e).answered.withReply r
  let next := stateAnswered s.lineCopy.rejoinCount st
  let s1 := s.withStation e st
  if next = .present then
    let s2 := if st.state = .present then s1 else becomePresent e s1
    match e, r with
    | .stand k, .stand p f v flags => deliverStand k p f v flags plan late now s2
    | .gauge, .gauge valid hx =>
      onlyNextPoll plan now
        (gaugeReply valid hx (s2.withStation .gauge ((s2.station .gauge).delivered s.clock)))
    | .stand _, .gauge .. => s2
    | .gauge, .stand .. => s2
  else
    let s2 := s1.withStation e (st.undelivered s.clock)
    match e with
    | .stand k => onlyNextPoll plan now (writeImage k late s2)
    | .gauge => onlyNextPoll plan now s2

/-- A miss at RUN, but for the next exchange (R151 to R154). -/
def missReply (e : PollEntry) (late : Bool) (s : State) : State :=
  let st := ((s.station e).missed).undelivered s.clock
  let s1 := s.withStation e st
  let s2 := if st.state = .present ∧ stateMissed s.lineCopy.silentCount st = .silent then becomeSilent e s1 else s1
  match e with
  | .stand k => writeImage k late s2
  | .gauge => expireSample s2

/-- The end at `now` of an exchange with a miss, and the next exchange before or after the work on it (R148). The state's
clock is the time of the miss (R150). -/
def endWithMiss (e : PollEntry) (late prepFirst : Bool) (now : Clock) (s : State) : State :=
  if prepFirst then missReply e late (nextExchangeAt now s) else nextExchangeAt now (missReply e late s)

/-! ### Internal answers (R155) -/

/-- One exchange at LOOPBACK, answered at its preparation (R155, log 33). -/
def loopbackExchange (s : State) (e : PollEntry) : State :=
  let s1 := prepareEntry e s
  let st := { (s1.station e).answered with lastLocal := false }
  let s2 := s1.withStation e st
  let s3 := if st.state = .present then s2 else becomePresent e s2
  let s4 := s3.withStation e { (s3.station e).delivered s.clock with vDelivered := 0 }
  match e with
  | .stand k =>
    let p := (s4.gap.get k).pRef
    let s5 := firstBase k (recordReply k p 0 s4)
    writeImage k false (moveTest k p 0 (s5.est.get k).gapAct s5)
  | .gauge => gaugeReply false 0 s4

/-- A whole cycle at LOOPBACK (R155). -/
def loopbackCycle (s : State) : State := s.link.pollList.foldl loopbackExchange { s with cycleClock := s.clock }

/-- A cycle starts on an expiry, at RUN on the line, at LOOPBACK inside the part. -/
def cycleOnExpiry (s : State) : State :=
  match s.level with
  | .run => startCycle false s
  | .loopback => if s.link.pollList = [] then s else loopbackCycle s
  | .configure => s
  | .halt => s

/-! ### The poll period timer (R147, R149) -/

/-- The timer's next expiry has come (log 25). -/
def expiryDue (s : State) : Bool :=
  match s.link.nextExpiry with
  | none => false
  | some t => decide ((s.clock - t).toNat < 2147483648)

/-- The first point of the grid of `period` from `t` that lies after now (R147). -/
def gridAfter (now t : Clock) (period : Nat) : Clock := t + BitVec.ofNat 32 (((now - t).toNat / period + 1) * period)

/-- The timer set to its next expiry on the grid. -/
def rearm (s : State) : State :=
  { s with link := { s.link with nextExpiry := s.link.nextExpiry.map fun t => gridAfter s.clock t s.lineCopy.period } }

/-- An expiry of the timer: a cycle starts, or with one in flight the expiry waits for its end (R147, R149). -/
def timerExpiry (s : State) : State :=
  let s1 := rearm s
  if s1.link.cycle.isSome then { s1 with link := { s1.link with expiryWaiting := true } } else cycleOnExpiry s1

/-- POLL_TIMER_EXPIRY (R147, R149). -/
def execPollTimerExpiry (dt : Clock) (s : State) : Host.Outcome State Fault Refusal :=
  let s := s.tick dt
  if expiryDue s then finish (timerExpiry s) else finish s

/-! ### The exchange's events -/

/-- POLL_SENT (R148): the last byte of the poll has left, and the reply window opens. -/
def execPollSent (dt : Clock) (s : State) : Host.Outcome State Fault Refusal :=
  let s := s.tick dt
  match openExchange s with
  | some (c, _) =>
    if c.phase = .sending then finish (withCycle (some { c with phase := .window s.clock }) s) else finish s
  | none => finish s

/-- The reply window that is open, by the time since it opened. -/
def windowAge (s : State) : Option (Cycle × PollEntry × Nat) :=
  match openExchange s with
  | some (c, e) =>
    match c.phase with
    | .sending => none
    | .window t => some (c, e, (s.clock - t).toNat)
    | .receiving _ => none
  | none => none

/-- REPLY_START (R148): a reply begins at or before the close of the window. -/
def execReplyStart (dt : Clock) (s : State) : Host.Outcome State Fault Refusal :=
  let s := s.tick dt
  match windowAge s with
  | some (c, _, age) =>
    if age ≤ s.lineCopy.timeout then finish (withCycle (some { c with phase := .receiving s.clock }) s) else finish s
  | none => finish s

/-- REPLY_WINDOW_CLOSE (R148): the window closes with no reply begun. -/
def execReplyWindowClose (dt : Clock) (prepFirst : Bool) (s : State) : Host.Outcome State Fault Refusal :=
  let s := s.tick dt
  match windowAge s with
  | some (c, e, age) =>
    if s.lineCopy.timeout ≤ age then finish (endWithMiss e c.late prepFirst s.clock s) else finish s
  | none => finish s

/-- The work on a received frame whose exchange ended at `now`: a valid reply or a miss (R150). The state's clock is the
time the frame ended. -/
def frameEnded (c : Cycle) (e : PollEntry) (fr : List Byte) (still : Bool) (plan : List Work) (now : Clock) (s : State) :
    State :=
  match judge e (s.station e).addr fr still with
  | some r => validReply e r (workOrder plan) c.late now s
  | none => endWithMiss e c.late ((workOrder plan).head? == some .nextPoll) now s

/-- The time in microseconds that a reply is received for at most (R148, step 4). -/
def replyLimit : Nat := 16

/-- The time in microseconds that the line is idle for after a frame, before its exchange ends (R148, step 4). -/
def idleLimit : Nat := 2

/-- How long the line has been idle since the frame's last bit. -/
def idleFor : FrameEnd → Nat
  | .idle n => n
  | .arriving => 0

/-- The exchange of a frame that began `age` microseconds ago ends: the line has been idle for 2 µs, or 16 µs have passed
(R148, step 4). -/
def exchangeEnds (age : Nat) (fin : FrameEnd) : Bool :=
  decide (idleFor fin ≤ age) && (decide (idleLimit ≤ idleFor fin) || decide (replyLimit ≤ age))

/-- The frame was still arriving when 16 µs had passed since it began, `age` microseconds ago (R148, step 4). -/
def tooLong (age : Nat) (fin : FrameEnd) : Bool := fin == .arriving || decide (replyLimit + idleFor fin < age)

/-- The line clock reading when the frame ended (R150). -/
def frameTime (now : Clock) (fin : FrameEnd) : Clock := now - BitVec.ofNat 32 (idleFor fin)

/-- The exchange whose reply is being received, by the time since the reply began. -/
def receivingAge (s : State) : Option (Cycle × PollEntry × Nat) :=
  match openExchange s with
  | some (c, e) =>
    match c.phase with
    | .sending => none
    | .window _ => none
    | .receiving t => some (c, e, (s.clock - t).toNat)
  | none => none

/-- REPLY_RECEIVED (R148, R150): the exchange ends, when the line has been idle for 2 µs or 16 µs have passed, and the
frame is judged. The reply, or the miss, has the time at which the frame ended (R150); the next exchange begins now (R148,
log 38). -/
def execReplyReceived (dt : Clock) (fr : List Byte) (fin : FrameEnd) (plan : List Work) (s : State) :
    Host.Outcome State Fault Refusal :=
  let s := s.tick dt
  match receivingAge s with
  | some (c, e, age) =>
    if exchangeEnds age fin then
      finish ((frameEnded c e fr (tooLong age fin) plan s.clock (s.atTime (frameTime s.clock fin))).atTime s.clock)
    else finish s
  | none => finish s

/-- LATE of the cycle in flight. -/
def lateNow (s : State) : Bool := (s.link.cycle.map Cycle.late).getD false

/-- A poll list entry is served at RUN. -/
def servedAtRun (s : State) (e : PollEntry) : Bool := s.level == .run && s.link.pollList.contains e

/-- A miss of this station completes its silence (R152). -/
def silenceDue (s : State) (e : PollEntry) : Bool :=
  servedAtRun s e && (s.station e).state == .present
    && stateMissed s.lineCopy.silentCount (s.station e).missed == .silent

/-- STATION_SILENT (R152): the miss that makes the station silent (log 4). -/
def execStationSilent (dt : Clock) (e : PollEntry) (s : State) : Host.Outcome State Fault Refusal :=
  let s := s.tick dt
  if silenceDue s e then finish (missReply e (lateNow s) s) else finish s

/-- A valid reply of this silent station makes it present (R152). -/
def rejoinDue (s : State) (e : PollEntry) : Bool :=
  servedAtRun s e && (s.station e).state == .silent
    && stateAnswered s.lineCopy.rejoinCount (s.station e).answered == .present

/-- STATION_REJOINED (R152): the valid reply that makes the silent station present, and its delivery (log 4). -/
def execStationRejoined (dt : Clock) (e : PollEntry) (r : Reply) (plan : List Work) (s : State) :
    Host.Outcome State Fault Refusal :=
  let s := s.tick dt
  if rejoinDue s e = true ∧ replyFits e r = true then
    finish (validReply e r ((workOrder plan).filter (· != .nextPoll)) (lateNow s) s.clock s)
  else finish s

/-- ELAPSED_SATURATED (R154): an exchange of the station that delivers nothing, for the elapsed time (log 4). -/
def execElapsedSaturated (dt : Clock) (e : PollEntry) (s : State) : Host.Outcome State Fault Refusal :=
  let s := s.tick dt
  if servedAtRun s e then finish (s.withStation e ((s.station e).undelivered s.clock)) else finish s

/-- STRAY_FRAME_DISCARD (R143): bytes received while no exchange is open have no effect. -/
def execStrayFrameDiscard (dt : Clock) (_bytes : List Byte) (s : State) : Host.Outcome State Fault Refusal :=
  finish (s.tick dt)

end Sys2Proof.Machine
end

