-- ==== Sys2Proof/Machine/Reset.lean ====
section
/-! DEFINITION. RESET_TRIP: the checks of R138 and the steps of R139; and the work of every order by its owner. -/

namespace Sys2Proof.Machine

/-- A value of REFUSED ACTIVE_CAUSE: the cause code in the upper byte, the stand in the lower (R138). -/
def activeCause (c : Cause) (k : Nat) : Nat := 256 * c.code + k

/-- Condition 4 of R138 at stand `k`: with a slot in force, the latest F lies below F_off. -/
def unloadedAt (s : State) (k : Nat) : Bool :=
  (s.slotAt k).isNone || decide ((s.link.stations.get k).f < (s.sched k).fOff)

/-- Condition 5 of R138 at stand `k`. -/
def travelOk (s : State) (k : Nat) : Bool :=
  let st := s.link.stations.get k
  !st.flags.overtravel && decide (s.lineCopy.pLo ≤ st.p ∧ st.p ≤ s.lineCopy.pHi)

/-- The six conditions of R138 in order, each with the value its failure reports. -/
def resetChecks (s : State) : List (Bool × Nat) :=
  [(s.trip.etrip == .healthy, activeCause .external 0)]
    ++ (standsTo s.n).map (fun k => ((s.link.stations.get k).state != .silent, activeCause .stationSilent k))
    ++ [(s.link.gauge.state != .silent, activeCause .stationSilent (s.n + 1))]
    ++ (standsTo s.n).map (fun k => (unloadedAt s k, activeCause .unexpectedLoad k))
    ++ (standsTo s.n).map (fun k => (travelOk s k, activeCause .gapOvertravel k))
    ++ (standsTo s.n).map (fun k => (!(s.link.stations.get k).flags.hydFault, activeCause .terminalFault k))

/-- Step 1 of R139: latch, action sets and entry stop cleared; the cause list and overflow kept. -/
def clearTrip (s : State) : State :=
  { s with trip := { s.trip with latch := false, actions := PerStand.all {}, entryStop := false } }

/-- Step 6 of R139: TRIP_RESET. -/
def noteReset (time : Clock) (s : State) : State :=
  note .tripReset 0 time 0 (BitVec.ofNat 16 s.trip.causes.length) (BitVec.ofNat 16 (bit s.trip.overflow))
    (BitVec.ofNat 16 ((s.trip.causes.head?.map fun e => e.cause.code).getD 0)) s

/-- Steps 1 to 7 of R139. The records of the flush, the pending tables and the collapse carry the moment of the reset
(R107, R176, log 26); TRIP_RESET carries `time`, that of the order's take (R139). -/
def acceptReset (time : Clock) (s : State) : State :=
  let s1 := resetThreading (flush s.clock (clearTrip s))
  let s2 := gapTripReset (gaugeTripReset (thicknessTripReset s.clock s1))
  rewriteTripArea (noteReset time (collapseSlots .tripReset s.clock s2))

/-- RESET_TRIP: its checks and its effect (R138, R139). -/
def resetTripWork (time : Clock) (s : State) : State :=
  if !s.trip.latch then retireTaken (.plain .completed) s
  else
    match firstFailure (resetChecks s) with
    | some v => retireTaken { cls := .refused .activeCause, value := BitVec.ofNat 16 v } s
    | none => retireTaken { cls := .completed, value := BitVec.ofNat 16 s.trip.causes.length } (acceptReset time s)

/-- RESET_TRIP (R138): the Trip Unit's work on the order that stands taken, then the next read. -/
def execResetTrip (dt : Clock) (s : State) : Host.Outcome State Fault Refusal :=
  let s := s.tick dt
  match s.orders.copy with
  | some { ptr := _, order := .resetTrip, time := time } => finish (freeToTake (resetTripWork time s))
  | _ => finish s

/-- The owner's work on a taken order, whatever its kind (R168). -/
def ownerWork (c : OrderCopy) (s : State) : State :=
  match c.order with
  | .announceHead coil h0 => announceHeadWork coil h0 c.time s
  | .setModulus k t => setModulusWork k t c.time s
  | .setTrim k trim => setTrimWork k trim s
  | .loadSchedule take => loadScheduleWork take c.time s
  | .unloadSchedule field => unloadScheduleWork field c.time s
  | .presetGap k target tol => presetGapWork c.ptr k target tol c.time s
  | .calibrateZero k => calibrateZeroWork c.ptr k c.time s
  | .abortMove k => abortMoveWork k s
  | .tripStands mill set => tripStandsWork mill set c.time s
  | .resetTrip => resetTripWork c.time s

/-- The order that stands taken, if any, carried out: an order taken before a level change is handled at the old
level (R162, log 5). -/
def finishTaken (s : State) : State :=
  match s.orders.copy with
  | some c => ownerWork c s
  | none => s

end Sys2Proof.Machine
end

