-- ==== Sys2Proof/Machine/Levels.lean ====
section
/-! DEFINITION. Power-on and the run levels: POWER_ON and RESET_ASSERTED (R159), HALT (R164), leaving RUN (R165),
CONFIGURE and LOOPBACK (R162), RUN entry (R163). -/

namespace Sys2Proof.Machine

/-! ### Power-on and HALT -/

/-- POWER_ON (R159): every block in its power-on state, with the ETRIP input at the level given (R142). -/
def execPowerOn (e : EtripLevel) (s : State) : Host.Outcome State Fault Refusal :=
  finish { State.reset with etripPin := e, trip := { etrip := e }, freeIndex := s.freeIndex, pending := s.pending }

/-- RESET_ASSERTED (R159): RESET_N is low, and the trip outputs are de-energized. -/
def execResetAsserted (dt : Clock) (s : State) : Host.Outcome State Fault Refusal :=
  finish { s.tick dt with resetLow := true }

/-- STATE and RESULT of a block set to 0 (R159). -/
def zeroBlock (m : Memory) (p : Nat) : Memory :=
  (((m.writeWord (p + 2) 0).writeWord (p + 6) 0).writeWord (p + 8) 0).writeWord (p + 10) 0

/-- The processor-written bytes after HALT: the blocks taken and not retired read 0 in STATE and RESULT, and
JOURNAL_READ is 0 (R159). -/
def haltMemory (s : State) : Memory := (s.takenBlocks.foldl zeroBlock s.exm).writeWord 2 0

/-- The soft reset (R164): every block in its HALT state, which is its power-on state, and the part-written areas 0;
the line clock, ATTENTION_MASK, the pins' inputs and the processor's words are kept. -/
def haltState (s : State) : State :=
  { State.reset with clock := s.clock, resetLow := s.resetLow, etripPin := s.etripPin, mask := s.mask,
                     exm := haltMemory s, trip := { etrip := s.etripPin }, freeIndex := s.freeIndex,
                     pending := s.pending }

/-- RUN_LEVEL_HALT (R164). -/
def execRunLevelHalt (dt : Clock) (s : State) : Host.Outcome State Fault Refusal := finish (haltState (s.tick dt))

/-! ### Leaving a level -/

/-- The link stopped: idle, the timer stopped (R156). -/
def stopLink (s : State) : State :=
  { s with link := { s.link with cycle := none, expiryWaiting := false, nextExpiry := none } }

/-- A stand 1 to N is not VACANT. -/
def occupied (s : State) : Bool := (standsTo s.n).any fun k => !s.vacant k

/-- Step 2 of R165: LEVEL_DROP if a stand is not VACANT (R136). -/
def levelDrop (s : State) : State := if occupied s then takeCause .levelDrop 0 s.clock s else s

/-- Steps 1 to 4 of R165: leaving RUN for `l`. -/
def leaveRun (l : RunLevel) (s : State) : State :=
  flush s.clock (stopLink { levelDrop (endMovesLevel s) with level := l })

/-! ### The link's start at RUN and LOOPBACK -/

/-- The poll list of the copy: stands 1 to N, then the gauge (R146). -/
def pollListOf (l : LineDesc) : List PollEntry := (standsTo l.n).map PollEntry.stand ++ [.gauge]

/-- A station record at entry to RUN or LOOPBACK, with its address of the copy (R156). -/
def Station.entered (st : Station) (addr : Nat) : Station :=
  { st with addr := addr, state := .unknown, missRun := 0, goodRun := 0, prevTime := none, saturated := false }

/-- Stations UNKNOWN, the poll list rebuilt, the timer started (R146, R147, R156). -/
def startLink (s : State) (l : LineDesc) : State :=
  let stations := PerStand.ofStand fun k => (s.link.stations.get k).entered (l.stands.get k).addr
  { s with link := { s.link with pollList := pollListOf l, cycle := none, expiryWaiting := false,
                                 nextExpiry := some (s.clock + BitVec.ofNat 32 l.period), stations := stations,
                                 gauge := s.link.gauge.entered l.gaugeAddr } }

/-- Base known becomes no at every stand (R80). -/
def forgetBases (s : State) : State := { s with gap := s.gap.map fun r => { r with baseKnown := false } }

/-- Without a line description copy LOOPBACK has an empty list and makes no polls (R146); the stations become UNKNOWN
all the same (R156). -/
def startNoLink (s : State) : State :=
  let stations := s.link.stations.map fun st => st.entered st.addr
  { s with link := { s.link with pollList := [], cycle := none, expiryWaiting := false, nextExpiry := none,
                                 stations := stations, gauge := s.link.gauge.entered s.link.gauge.addr } }

/-- Entry to LOOPBACK: list, bases, timer, and a cycle at once (R146, R147, R162, log 36). -/
def enterLoopback (s : State) : State :=
  let s1 := forgetBases { s with level := .loopback }
  match s1.line with
  | some l => loopbackCycle (startLink s1 l)
  | none => startNoLink s1

/-! ### CONFIGURE and LOOPBACK (R162, R165) -/

/-- The intake goes on with its next read if an order was carried out for the level change (log 5). -/
def resumeIntake (before s : State) : State := if before.orders.copy.isSome then freeToTake s else s

/-- A request for CONFIGURE (R162). -/
def requestConfigure (s : State) : State :=
  match s.level with
  | .halt => startIntake { s with level := .configure }
  | .configure => s
  | .loopback =>
    resumeIntake s (stopLink { endMovesLevel (finishTaken s) with level := .configure })
  | .run => resumeIntake s (leaveRun .configure (finishTaken s))

/-- RUN_LEVEL_CONFIGURE (R162, R165). -/
def execRunLevelConfigure (dt : Clock) (s : State) : Host.Outcome State Fault Refusal :=
  finish (requestConfigure (s.tick dt))

/-- A request for LOOPBACK (R162). -/
def requestLoopback (s : State) : State :=
  match s.level with
  | .halt => startIntake (enterLoopback s)
  | .configure => resumeIntake s (enterLoopback (finishTaken s))
  | .loopback => s
  | .run => resumeIntake s (enterLoopback (leaveRun .loopback (finishTaken s)))

/-- RUN_LEVEL_LOOPBACK (R162, R165). -/
def execRunLevelLoopback (dt : Clock) (s : State) : Host.Outcome State Fault Refusal :=
  finish (requestLoopback (s.tick dt))

/-! ### RUN entry (R163) -/

/-- Step 8 of R163: the Gap Unit at RUN entry; `nBefore` is N of the copy before (R78, R92). -/
def gapRunEntry (nBefore : Option Nat) (s : State) : State :=
  let lim := s.lineCopy.trimLim
  let changed := nBefore ≠ some s.n
  { s with gap := s.gap.map fun r =>
      { r with ff := 0, agc := 0, hLock := 0, baseKnown := false, mon := if changed then 0 else r.mon,
               trim := limit r.trim lim } }

/-- Step 9 of R163: the matrix copied, readiness cleared and published, the ETRIP level read and EXTERNAL raised if
it is TRIP (R125, R126, R133, R179). -/
def tripRunEntry (s : State) : State :=
  let matrix := s.lineCopy.matrix.map MatrixBytes.decode
  let s1 := rewriteTripArea
    { s with trip := { s.trip with matrix := some matrix, ready := PerStand.all false, etrip := s.etripPin } }
  if s1.trip.etrip = .trip then takeCause .external 0 s1.clock s1 else s1

/-- The images of stands above N set to 0 (R177); their update counts are kept for their next writes (R178, log 14). -/
def dropImages (s : State) : State :=
  { s with images := PerStand.ofStand fun k => if k ≤ s.n then s.images.get k else { s.images.get k with shown := none } }

/-- Step 10 of R163: the link started, with a cycle at once. -/
def linkRunEntry (s : State) : State := startCycle false (startLink s s.lineCopy)

/-- Step 2 of R163: moves end and the cycle ends when LOOPBACK is left. -/
def leaveLoopback (s : State) : State := if s.level = .loopback then stopLink (endMovesLevel s) else s

/-- Steps 3 and 4 of R163: the copy, CONFIG_RESULT, the level, and the intake's start from HALT. -/
def takeLine (l : LineDesc) (s : State) : State :=
  let s1 := { s with line := some l, configResult := 0, level := .run }
  if s.level = .halt then startIntake s1 else s1

/-- Steps 2 to 10 of R163 with the valid description `l`. -/
def enterRun (l : LineDesc) (s : State) : State :=
  let nBefore := s.line.map LineDesc.n
  let s1 := slotsRunEntry (gaugeRunEntry (thicknessRunEntry (takeLine l (leaveLoopback s))))
  let s2 := gapRunEntry nBefore (rewriteSummary (resetThreading s1))
  dropImages (linkRunEntry (tripRunEntry s2))

/-- A request for RUN that fails validation (R163, step 1; R182). -/
def rejectRun (code : Word) (s : State) : State := setAttention attnConfig { s with configResult := code }

/-- Validation, and the entry if it succeeds (R163). -/
def validateAndEnter (s : State) : State :=
  match (lineAt s.exm).failure with
  | some code => rejectRun code s
  | none => resumeIntake s (enterRun (lineAt s.exm) (finishTaken s))

/-- A request for RUN (R162, R163). -/
def requestRun (s : State) : State :=
  match s.level with
  | .run => s
  | .halt => validateAndEnter s
  | .configure => validateAndEnter s
  | .loopback => validateAndEnter s

/-- RUN_LEVEL_RUN (R163). -/
def execRunLevelRun (dt : Clock) (s : State) : Host.Outcome State Fault Refusal := finish (requestRun (s.tick dt))

end Sys2Proof.Machine
end

