-- ==== Sys2Proof/Machine/Port.lean ====
section
/-! DEFINITION. The processor port: Exchange Memory writes (R157, R158), arrivals (R166), JOURNAL_READ (R175), and the
registers (R160, R161). -/

namespace Sys2Proof.Machine

/-- Offset of JOURNAL_READ (R186). -/
def journalReadAt : Nat := 2

/-- The LOST record, which carries the lost count (R175, R176). -/
def lostRecord (s : State) : JournalRecord :=
  { kind := .lost, stand := 0, time := s.clock, coil := 0, v1 := sat16 s.journal.lost, v2 := 0, v3 := 0 }

/-- The pending LOST record appended where there is room (R175). -/
def reportLoss (s : State) : State :=
  if 0 < s.journal.lost ∧ s.journal.unread < 128 then
    setAttention attnJournal { s with journal := { s.journal.append (lostRecord s) with lost := 0 } }
  else s

/-- A value written to JOURNAL_READ is good (R175). -/
def journalValueGood (s : State) (v : Word) : Bool :=
  decide (v.toNat < 256 ∧ (s.journal.w - v.setWidth 8).toNat ≤ 128)

/-- The event of a write to JOURNAL_READ at the Journal Writer (R175). -/
def journalReadEvent (v : Word) (s : State) : State :=
  if journalValueGood s v then reportLoss { s with journal := { s.journal with r := v.setWidth 8 } } else s

/-- The event of a write to the word at `a` at the Order Unit: an arrival, where it is the watched word and no take is
in progress (R166, log 6). -/
def arrivalEvent (a : Nat) (s : State) : State :=
  if s.orders.watched = some a ∧ s.orders.copy = none then freeToTake s else s

/-- A processor write of the word at the even offset `a` (R158). -/
def portWrite (a : Nat) (v : Word) (s : State) : State :=
  if partOwned s a then setAttention attnProtect s
  else
    let s1 := { s with exm := s.exm.writeWord a v }
    arrivalEvent a (if a = journalReadAt then journalReadEvent v s1 else s1)

/-- The even offset a port address selects: it has no bit 0 (R158, 13 *Signals*). -/
def wordOffset (a : Word) : Nat := 2 * (a.toNat / 2)

/-- EXM_WRITE (R158). -/
def execExmWrite (dt : Clock) (a v : Word) (s : State) : Host.Outcome State Fault Refusal :=
  finish (portWrite (wordOffset a) v (s.tick dt))

/-- WATCHED_WORD_ARRIVAL (R166): a processor write to the watched word; with none, there is no such word. -/
def execWatchedWordArrival (dt : Clock) (v : Word) (s : State) : Host.Outcome State Fault Refusal :=
  let s := s.tick dt
  match s.orders.watched with
  | some w => finish (portWrite w v s)
  | none => finish s

/-- JOURNAL_READ_WRITE (R175): a processor write to JOURNAL_READ. -/
def execJournalReadWrite (dt : Clock) (v : Word) (s : State) : Host.Outcome State Fault Refusal :=
  finish (portWrite journalReadAt v (s.tick dt))

/-- ATTENTION_WRITE (R161): each bit written as 1 is cleared. -/
def execAttentionWrite (dt : Clock) (v : Word) (s : State) : Host.Outcome State Fault Refusal :=
  let s := s.tick dt
  finish { s with attention := s.attention &&& ~~~(v.setWidth 5) }

/-- ATTENTION_MASK_WRITE (R161): the enables are set. -/
def execAttentionMaskWrite (dt : Clock) (v : Word) (s : State) : Host.Outcome State Fault Refusal :=
  finish { s.tick dt with mask := v.setWidth 5 }

/-- REGISTER_WRITE_IGNORED (R160, R186): nothing is changed, and PROTECT is not set. -/
def execRegisterWriteIgnored (dt : Clock) (_offset _value : Word) (s : State) : Host.Outcome State Fault Refusal :=
  finish (s.tick dt)

end Sys2Proof.Machine
end

