-- ==== Sys2Proof/Machine/Dispatch.lean ====
section
/-! DEFINITION. The meaning of each command: one arm for each constructor of Instr, one call of its meaning. -/

namespace Sys2Proof.Machine

def exec (i : Instr) (s : State) : Host.Outcome State Fault Refusal :=
  match i with
  | .powerOn etrip => Sys2Proof.Machine.execPowerOn etrip s
  | .runLevelHalt dt => Sys2Proof.Machine.execRunLevelHalt dt s
  | .runLevelConfigure dt => Sys2Proof.Machine.execRunLevelConfigure dt s
  | .runLevelLoopback dt => Sys2Proof.Machine.execRunLevelLoopback dt s
  | .runLevelRun dt => Sys2Proof.Machine.execRunLevelRun dt s
  | .attentionWrite dt value => Sys2Proof.Machine.execAttentionWrite dt value s
  | .attentionMaskWrite dt value => Sys2Proof.Machine.execAttentionMaskWrite dt value s
  | .registerWriteIgnored dt offset value => Sys2Proof.Machine.execRegisterWriteIgnored dt offset value s
  | .exmWrite dt addr value => Sys2Proof.Machine.execExmWrite dt addr value s
  | .watchedWordArrival dt value => Sys2Proof.Machine.execWatchedWordArrival dt value s
  | .announceHead dt => Sys2Proof.Machine.execAnnounceHead dt s
  | .setModulus dt => Sys2Proof.Machine.execSetModulus dt s
  | .setTrim dt => Sys2Proof.Machine.execSetTrim dt s
  | .loadSchedule dt => Sys2Proof.Machine.execLoadSchedule dt s
  | .unloadSchedule dt => Sys2Proof.Machine.execUnloadSchedule dt s
  | .presetGap dt => Sys2Proof.Machine.execPresetGap dt s
  | .calibrateZero dt => Sys2Proof.Machine.execCalibrateZero dt s
  | .abortMove dt => Sys2Proof.Machine.execAbortMove dt s
  | .tripStands dt => Sys2Proof.Machine.execTripStands dt s
  | .resetTrip dt => Sys2Proof.Machine.execResetTrip dt s
  | .etripChange dt lvl => Sys2Proof.Machine.execEtripChange dt lvl s
  | .pollTimerExpiry dt => Sys2Proof.Machine.execPollTimerExpiry dt s
  | .pollSent dt => Sys2Proof.Machine.execPollSent dt s
  | .replyWindowClose dt prepFirst => Sys2Proof.Machine.execReplyWindowClose dt prepFirst s
  | .replyReceived dt fr fin plan => Sys2Proof.Machine.execReplyReceived dt fr fin plan s
  | .bodyCut dt dL => Sys2Proof.Machine.execBodyCut dt dL s
  | .loadOn dt k f => Sys2Proof.Machine.execLoadOn dt k f s
  | .loadOff dt k f => Sys2Proof.Machine.execLoadOff dt k f s
  | .lockOn dt k f => Sys2Proof.Machine.execLockOn dt k f s
  | .presetComplete dt k g => Sys2Proof.Machine.execPresetComplete dt k g s
  | .zeroFound dt k p f => Sys2Proof.Machine.execZeroFound dt k p f s
  | .calibrationRetire dt k g => Sys2Proof.Machine.execCalibrationRetire dt k g s
  | .moveTimeout dt k => Sys2Proof.Machine.execMoveTimeout dt k s
  | .stationSilent dt entry => Sys2Proof.Machine.execStationSilent dt entry s
  | .stationRejoined dt entry reply plan => Sys2Proof.Machine.execStationRejoined dt entry reply plan s
  | .sampleExpiry dt => Sys2Proof.Machine.execSampleExpiry dt s
  | .elapsedSaturated dt entry => Sys2Proof.Machine.execElapsedSaturated dt entry s
  | .strayFrameDiscard dt bytes => Sys2Proof.Machine.execStrayFrameDiscard dt bytes s
  | .journalReadWrite dt value => Sys2Proof.Machine.execJournalReadWrite dt value s
  | .replyStart dt => Sys2Proof.Machine.execReplyStart dt s
  | .resetAsserted dt => Sys2Proof.Machine.execResetAsserted dt s

end Sys2Proof.Machine
end

