-- ==== Sys2Proof/Safety.lean ====
section
/-! DEFINITION. What holds of the part at every moment, in the terms the statements use: the memory's canonical form,
the journal's bounds (R172), the trip record (R130, R131), the pins (R134, R135, R161), the mark pool and the zone
queues (R4, R5), the Schedule Store (R97), the long orders (R110, R169); what an end of an order, a reply or an image leaves;
and the time a command brings. -/

namespace Sys2Proof.Machine

/-- Exchange Memory's bytes are in canonical form. -/
def memoryOk (s : State) : Prop := s.exm.wf = true

/-- The unread count is 0 to 128, the journal has 128 slots, and the lost count stops at 65,535 (R172, R174). -/
def journalOk (s : State) : Prop :=
  s.journal.unread ≤ 128 ∧ s.journal.slots.length = 128 ∧ s.journal.lost ≤ 65535

/-- The first-out entry is there whenever the latch is set; the cause list holds at most 16 entries and no two with the
same cause and stand (R130, R131). -/
def tripOk (s : State) : Prop :=
  (s.trip.latch = true → s.trip.causes ≠ []) ∧ s.trip.causes.length ≤ 16 ∧
    (s.trip.causes.map fun e => (e.cause, e.stand)).Nodup

/-- The pins are as their conditions have them: DSTOP_k and GOPEN_k at RUN, at a ready stand, with the action absent
(R134); MSTOP at RUN with the entry stop clear (R135); ATTN_N while a bit is set in ATTENTION and ATTENTION_MASK (R161);
LINK_DE while a poll is sent (R143); and no trip line energized while RESET_N is low (13, *Signals*). -/
def pinsOk (s : State) : Prop :=
  (∀ k ∈ standNumbers,
    (s.pins.dstop.get k = true ↔
      s.resetLow = false ∧ s.level = .run ∧ s.trip.ready.get k = true ∧ (s.trip.actions.get k).driveStop = false) ∧
    (s.pins.gopen.get k = true ↔
      s.resetLow = false ∧ s.level = .run ∧ s.trip.ready.get k = true ∧ (s.trip.actions.get k).gapOpen = false)) ∧
  (s.pins.mstop = true ↔ s.resetLow = false ∧ s.level = .run ∧ s.trip.entryStop = false) ∧
  (s.pins.attn = true ↔ ∃ b, s.attention.getLsbD b = true ∧ s.mask.getLsbD b = true) ∧
  (s.pins.linkDe = true ↔ s.level = .run ∧ ∃ c, s.link.cycle = some c ∧ c.phase = .sending)

/-- A zone queue of zone `k`, of length `len`: positions do not increase from front to back and lie in 0 to `len`, and
every mark holds `k` thickness entries (R5). -/
def queueOk (len k : Nat) (q : List Mark) : Prop :=
  (∀ m ∈ q, m.pos ≤ len ∧ m.thick.length = k) ∧ q.Pairwise fun a b => b.pos ≤ a.pos

/-- The marks queued in all zones. -/
def State.marksQueued (s : State) : Nat := (s.tracker.zones.toList.map List.length).sum

/-- The zone queues are as R5 has them, the pool's 256 records are not exceeded (R4), and the queues are empty at every
level but RUN (R24). -/
def zonesOk (s : State) : Prop :=
  (∀ k ∈ standNumbers, queueOk (s.zoneLen k) k (s.zone k)) ∧ s.marksQueued ≤ 256 ∧
    (s.level ≠ .run → s.tracker.zones = PerStand.all [])

/-- At RUN there is a line description copy, and the copy passed its validation (R163, R183). -/
def copyOk (s : State) : Prop :=
  (s.level = .run → s.line.isSome = true) ∧ ∀ l, s.line = some l → l.failure = none

/-- Slot `x` is in force at a stand. -/
def inForceSomewhere (s : State) (x : Slot) : Prop := ∃ k ∈ standNumbers, s.slotAt k = some x

/-- A mark in a zone carries the tag of slot `x`. -/
def tagsAMark (s : State) (x : Slot) : Prop := ∃ k ∈ standNumbers, ∃ m ∈ s.zone k, m.tag = some x

/-- What the state of a slot says (R96, R97, R102): a FREE slot holds nothing, is in force nowhere and tags no mark; a WAITING
one is in force nowhere and tags no mark; one IN_FORCE is in force somewhere; a DRAINING one is in force nowhere and tags a
mark. So a slot is FREE exactly when it is not WAITING, is in force at no stand, and tags no mark. -/
def slotOk (s : State) (x : Slot) : Prop :=
  match (s.store.slot x).state with
  | .free => s.store.slot x = {} ∧ ¬inForceSomewhere s x ∧ ¬tagsAMark s x
  | .waiting => ¬inForceSomewhere s x ∧ ¬tagsAMark s x
  | .inForce => inForceSomewhere s x
  | .draining => ¬inForceSomewhere s x ∧ tagsAMark s x

/-- The laws of the Schedule Store (R97), with what they rest on: the slots' states; the stands with a slot are 1 to some m,
and those on the newer slot, which is last loaded, are 1 to some m (so with two in force all others are on the older);
a slot drains only from stands that went to the slot last loaded; nothing is live before a load; a stand above N of the copy
has no slot (R106); no mark is tracked outside RUN (R24); a RESET_TRIP, which alone frees a slot in force (R139, R106), is
being taken at RUN alone (R168). -/
def storeOk (s : State) : Prop :=
  (∀ x, slotOk s x) ∧
  (∀ j k, 1 ≤ j → j ≤ k → k ≤ 8 → (s.slotAt k).isSome = true → (s.slotAt j).isSome = true) ∧
  (∀ x, s.store.lastLoaded = some x → ∀ j k, 1 ≤ j → j ≤ k → k ≤ 8 → s.slotAt k = some x → s.slotAt j = some x) ∧
  (∀ x : Slot, (s.store.slot x).state = .draining → s.store.lastLoaded = some x.other) ∧
  (s.store.lastLoaded = none → ∀ x, (s.store.slot x).state = .free) ∧
  (∀ l, s.line = some l → ∀ k, l.n < k → k ≤ 8 → s.slotAt k = none) ∧
  (s.level ≠ .run → s.tracker.zones = PerStand.all []) ∧
  (∀ c, s.orders.copy = some c → c.order = .resetTrip → s.level = .run)

/-- The places the processor may give to order blocks, as R187's layout has them: 8-byte aligned in the order area, none
overlapping the header of another. -/
def blocksApart (blocks : Nat → Prop) : Prop :=
  (∀ p, blocks p → p % 8 = 0 ∧ 4096 ≤ p ∧ p < 65528) ∧ ∀ p q, blocks p → blocks q → p < q → p + 16 ≤ q

/-- ORDER_ANCHOR and the LINK of every such place hold 0, such a place, or a value that is no pointer (R166, R167). -/
def linksAmong (blocks : Nat → Prop) (m : Memory) : Prop :=
  ∀ a, a = 0 ∨ blocks a → (m.readWord a).toNat = 0 ∨ blocks (m.readWord a).toNat ∨
    (pointerFault (m.readWord a).toNat).isSome = true

/-- The table of long orders in flight (R110, R169): an entry is occupied exactly while the stand's move is in flight, its
block's STATE reads TAKEN, and no two entries, and no entry and the order being taken, have the same block; the blocks taken
and the watched word are among the processor's places, and so is what the anchor and the links hold (R187); nothing is
being taken at HALT (R164). -/
def longOrdersOk (blocks : Nat → Prop) (s : State) : Prop :=
  (∀ k ∈ standNumbers, (s.orders.inFlight.get k).isSome = (s.gap.get k).move.inFlight) ∧
  (∀ k ∈ standNumbers, ∀ q, s.orders.inFlight.get k = some q → blocks q ∧ s.exm.readWord (q + 2) = 2 ∧
    ∀ j ∈ standNumbers, j ≠ k → s.orders.inFlight.get j ≠ some q) ∧
  (∀ c, s.orders.copy = some c → blocks c.ptr ∧ s.exm.readWord (c.ptr + 2) = 2 ∧
    ∀ k ∈ standNumbers, s.orders.inFlight.get k ≠ some c.ptr) ∧
  (∀ w, s.orders.watched = some w → w = 0 ∨ blocks w) ∧ linksAmong blocks s.exm ∧
  (s.level = .halt → s.orders.copy = none) ∧ memoryOk s

/-- What the processor's write of a command makes of Exchange Memory, before the part does anything with it (R158, R166). -/
def processorMemory (i : Instr) (s : State) : Memory :=
  match i with
  | .exmWrite _ a v => s.exm.writeWord (wordOffset a) v
  | .watchedWordArrival _ v => s.orders.watched.elim s.exm fun w => s.exm.writeWord w v
  | .journalReadWrite _ v => s.exm.writeWord journalReadAt v
  | _ => s.exm

/-- The state with its pins as their conditions have them: what every command ends with. -/
def State.settled (s : State) : State := { s with pins := pinsOf s }

/-- Every stand's trip lines and MSTOP are de-energized. -/
def State.linesDown (s : State) : Prop :=
  s.pins.dstop = PerStand.all false ∧ s.pins.gopen = PerStand.all false ∧ s.pins.mstop = false

/-- From `s` to `t` the block at `p` was retired: STATE RETIRED, the class, detail and value in RESULT, and every other
byte of the processor's words as it was (R171). -/
structure Retired (p : Nat) (cls detail : Nat) (value : Word) (s t : State) : Prop where
  state : t.exm.readWord (p + 2) = 3
  cls : t.exm.readWord (p + 6) = BitVec.ofNat 16 cls
  detail : t.exm.readWord (p + 8) = BitVec.ofNat 16 detail
  value : t.exm.readWord (p + 10) = value
  others : ∀ a, ¬(p + 2 ≤ a ∧ a < p + 4) → ¬(p + 6 ≤ a ∧ a < p + 12) → t.exm.read a = s.exm.read a

/-- `k` is a stand number that an order may name: 1 to N of the line description copy, 1 to 8 without one (R184). -/
abbrev standNamed (s : State) (k : Nat) : Prop := 1 ≤ k ∧ k ≤ s.line.elim 8 LineDesc.n

/-- `t` is what a quick order's end, or a long order's refusal, leaves of `s`, in which the order's effect has happened
and its copy still stands: the block at `p` retired with the class, detail and value given, the copy dropped,
ATTENTION.ORDER set, and then the intake's next read (R166, R169, R171). -/
def OrderEnds (p cls detail : Nat) (value : Word) (s t : State) : Prop :=
  ∃ m, Retired p cls detail value s { s with exm := m } ∧
    t = (freeToTake { s with
      exm := m, attention := s.attention ||| 1, orders := { s.orders with copy := none } }).settled

/-- The detail and the value with which the order of the move in flight at stand `k` is retired ABORTED, where `d` is the
detail of what ends it: a preset reports its gap; a calibration the change of Z, with the ABORTED detail it holds pending
before `d` (R116, R117, R119, R121). -/
def abortedAs (d k : Nat) (s : State) : Option (Nat × Word) :=
  let change := fun z0 : Nat => BitVec.ofInt 16 (max (-32767) (min 32767 (((s.est.get k).z : Int) - z0)))
  match (s.gap.get k).move with
  | .none => none
  | .hold _ => none
  | .preset .. => some (d, BitVec.ofInt 16 (max (-32768) (min 32767 (s.est.get k).gapAct)))
  | .calClose _ _ _ z0 => some (d, change z0)
  | .calOpen _ _ (.aborted e) z0 => some (e.code, change z0)
  | .calOpen _ _ _ z0 => some (d, change z0)

/-- Byte `a` is one of STATE and RESULT of the block at `q` (R187). -/
def resultByte (q a : Nat) : Prop := (q + 2 ≤ a ∧ a < q + 4) ∨ (q + 6 ≤ a ∧ a < q + 12)

/-- From `s` to `t` every move and every HOLD at the stands `ks` has ended (R119, R121): no move state is left there, and the
entries of the moves in flight are gone; the order of each of them, whose block overlaps none of the others', is retired
ABORTED as `abortedAs` gives; and no other byte of the processor's words has changed. -/
def MovesEnded (ks : List Nat) (d : Nat) (s t : State) : Prop :=
  (∀ k ∈ ks, (t.gap.get k).move = .none ∧
    t.orders.inFlight.get k = if (s.gap.get k).move.inFlight then none else s.orders.inFlight.get k) ∧
  ((∀ k ∈ ks, (s.gap.get k).move.inFlight = false) → t.exm = s.exm) ∧
  (∀ a, (∀ k ∈ ks, ∀ q, (s.gap.get k).move.inFlight = true → s.orders.inFlight.get k = some q → ¬resultByte q a) →
    t.exm.read a = s.exm.read a) ∧
  ∀ k ∈ ks, ∀ q detail value, abortedAs d k s = some (detail, value) → s.orders.inFlight.get k = some q →
    (∀ j ∈ ks, j ≠ k → ∀ r, (s.gap.get j).move.inFlight = true → s.orders.inFlight.get j = some r →
      q + 12 ≤ r ∨ r + 12 ≤ q) →
    t.exm.readWord (q + 2) = 3 ∧ t.exm.readWord (q + 6) = 2 ∧ t.exm.readWord (q + 8) = BitVec.ofNat 16 detail ∧
      t.exm.readWord (q + 10) = value

/-- The journal after the records `rs` have fallen due, one after the other (R173, R174). -/
def journalled (rs : List JournalRecord) (s : State) : Journal := (rs.foldl (fun s r => journal r s) s).journal

/-- The frame with which a station of address `addr` gives a reply: its address, its kind, its fields and the CRC (R144,
R145, R193); `spare` fills the flag bits that have no meaning. -/
def replyFrame (addr spare : Nat) : Reply → List Byte
  | .stand p f v flags =>
    sealFrame ([BitVec.ofNat 8 addr, 3, BitVec.ofNat 8
      (bit flags.hydFault + 2 * bit flags.overtravel + 4 * bit flags.localMode + 8 * spare)]
        ++ longField p ++ wordField f ++ wordField v)
  | .gauge valid hx => sealFrame ([BitVec.ofNat 8 addr, 4, BitVec.ofNat 8 (bit valid + 2 * spare)] ++ wordField hx)

/-- The exchange of entry `e` is open at RUN, at the position `c` of the cycle (R146, R148). -/
def ExchangeOpen (s : State) (c : Cycle) (e : PollEntry) : Prop :=
  s.level = .run ∧ s.link.cycle = some c ∧ s.link.pollList[c.index]? = some e

/-- What the end of the exchange at position `c` leaves of the cycle: the next entry's exchange begun; or after the last
entry a late cycle begun, where an expiry waits; or the controller idle (R148, R149). -/
def NextPosition (c : Cycle) (s t : State) : Prop :=
  t.link.pollList = s.link.pollList ∧
  (c.index + 1 < s.link.pollList.length →
    t.link.cycle = some { index := c.index + 1, phase := .sending, late := c.late } ∧
      t.link.expiryWaiting = s.link.expiryWaiting ∧ t.cycleClock = s.cycleClock) ∧
  (s.link.pollList.length ≤ c.index + 1 → s.link.expiryWaiting = true →
    t.link.cycle = some { index := 0, phase := .sending, late := true } ∧ t.link.expiryWaiting = false ∧
      t.cycleClock = t.clock) ∧
  (s.link.pollList.length ≤ c.index + 1 → s.link.expiryWaiting = false →
    t.link.cycle = none ∧ t.link.expiryWaiting = false ∧ t.cycleClock = s.cycleClock)

/-- A stand image has been written at the time that stands, its update count grown by 1 (R177, R178). -/
def ImageWritten (k : Nat) (late : Bool) (s t : State) : Prop :=
  ∃ i, t.images.get k = { count := (s.images.get k).count + 1, shown := some i } ∧ i.time = t.clock ∧
    i.late = late ∧ i.station = (t.link.stations.get k).state ∧ i.missRun = (t.link.stations.get k).missRun ∧
    i.goodRun = (t.link.stations.get k).goodRun ∧ i.flags = (t.link.stations.get k).flags ∧
    i.v = (t.link.stations.get k).vDelivered

/-- From `s` to `t` the estimate of stand `k` has been formed from a reply of position `p` and force `f` (R47 to R52): its
position, force, gap, band, stretch and clamped estimate are those of `estimateReply`; the band mode, the tables and the zero
are what the rest of the work on the reply made of them. -/
def EstimateFormed (k p f : Nat) (s t : State) : Prop :=
  t.est.get k = { (estimateReply k p f s).est.get k with
    loaded := (t.est.get k).loaded, table := (t.est.get k).table, pendingTable := (t.est.get k).pendingTable,
    mode := (t.est.get k).mode, z := (t.est.get k).z, zst := (t.est.get k).zst }

/-- The cause `c` with stand `k` has been taken: the latch is set, and the cause list holds the cause with the stand, or was
full (R130, R131). -/
def CauseTaken (c : Cause) (k : Nat) (t : State) : Prop :=
  t.trip.latch = true ∧ (t.trip.overflow = true ∨ ∃ x ∈ t.trip.causes, x.cause = c ∧ x.stand = k)

/-- The tracking summary has been rewritten: its update count has grown by 1, and it shows the pool, the empty-spell flag
and the generator as they stand (R25). -/
def SummaryWritten (s t : State) : Prop :=
  ∃ m, t.summary = some m ∧ m.count = (s.summary.map Summary.count).getD 0 + 1 ∧ m.freeRecords = 256 - t.marksQueued ∧
    m.emptySpell = t.tracker.emptySpell ∧ m.genRunning = t.tracker.gen.running ∧ m.genCount = t.tracker.gen.count

end Sys2Proof.Machine

namespace Sys2Proof

/-- The time a command brings: the microseconds since the command before it (log 1). POWER_ON brings none. -/
def Instr.elapsed : Instr → Clock
  | .powerOn _ => 0
  | .runLevelHalt dt => dt
  | .runLevelConfigure dt => dt
  | .runLevelLoopback dt => dt
  | .runLevelRun dt => dt
  | .attentionWrite dt _ => dt
  | .attentionMaskWrite dt _ => dt
  | .registerWriteIgnored dt _ _ => dt
  | .exmWrite dt _ _ => dt
  | .watchedWordArrival dt _ => dt
  | .announceHead dt => dt
  | .setModulus dt => dt
  | .setTrim dt => dt
  | .loadSchedule dt => dt
  | .unloadSchedule dt => dt
  | .presetGap dt => dt
  | .calibrateZero dt => dt
  | .abortMove dt => dt
  | .tripStands dt => dt
  | .resetTrip dt => dt
  | .etripChange dt _ => dt
  | .pollTimerExpiry dt => dt
  | .pollSent dt => dt
  | .replyWindowClose dt _ => dt
  | .replyReceived dt _ _ _ => dt
  | .bodyCut dt _ => dt
  | .loadOn dt _ _ => dt
  | .loadOff dt _ _ => dt
  | .lockOn dt _ _ => dt
  | .presetComplete dt _ _ => dt
  | .zeroFound dt _ _ _ => dt
  | .calibrationRetire dt _ _ => dt
  | .moveTimeout dt _ => dt
  | .stationSilent dt _ => dt
  | .stationRejoined dt _ _ _ => dt
  | .sampleExpiry dt => dt
  | .elapsedSaturated dt _ => dt
  | .strayFrameDiscard dt _ => dt
  | .journalReadWrite dt _ => dt
  | .replyStart dt => dt
  | .resetAsserted dt => dt

/-- POWER_ON and HALT: the commands that put the part in its reset state. -/
def Instr.resets : Instr → Bool
  | .powerOn _ => true
  | .runLevelHalt _ => true
  | _ => false

/-- The commands that request a level. -/
def Instr.requestsLevel : Instr → Bool
  | .powerOn _ => true
  | .runLevelHalt _ => true
  | .runLevelConfigure _ => true
  | .runLevelLoopback _ => true
  | .runLevelRun _ => true
  | _ => false

/-- The command that requests RUN. -/
def Instr.requestsRun : Instr → Bool
  | .runLevelRun _ => true
  | _ => false

/-- The commands that, in state `s`, write JOURNAL_READ. -/
def Instr.writesJournalRead (i : Instr) (s : Machine.State) : Bool :=
  match i with
  | .journalReadWrite .. => true
  | .exmWrite _ a _ => Machine.wordOffset a == Machine.journalReadAt
  | .watchedWordArrival .. => s.orders.watched == some Machine.journalReadAt
  | _ => false

end Sys2Proof
end

