-- ==== Sys2Proof/Certificates/Slice0/Obligations.lean ====
section
/-! DEFINITION. The statements for the provers. -/

section
open Sys2Proof Sys2Proof.Machine

/-! ### The machine -/

/-- A step carries out the command at the front of the queue, on the state whose queue is the rest. -/
def Obligations.StepRunsTheFrontCommand : Prop :=
  ∀ (c : Instr) (rest : List Instr) (s : State),
    step { s with pending := c :: rest } = exec c { s with pending := rest }

/-- No command stops the machine: every command, from every state, answers a next state. -/
def Obligations.EveryCommandAnswers : Prop := ∀ (i : Instr) (s : State), ∃ t, exec i s = .next t

/-- The state after reset meets every invariant of the model. -/
def Obligations.ResetMeetsTheInvariants : Prop :=
  memoryOk State.reset ∧ journalOk State.reset ∧ tripOk State.reset ∧ pinsOk State.reset ∧ zonesOk State.reset ∧
    copyOk State.reset ∧ storeOk State.reset ∧ ∀ blocks, longOrdersOk blocks State.reset

/-- Every step keeps Exchange Memory's bytes in canonical form. -/
def Obligations.StepKeepsMemoryForm : Prop := ∀ s t : State, memoryOk s → step s = .next t → memoryOk t

/-- Every step keeps the journal's unread count at 0 to 128, its 128 slots, and the lost count at 65,535 or below
(R172, R174). -/
def Obligations.StepKeepsJournalBounds : Prop := ∀ s t : State, journalOk s → step s = .next t → journalOk t

/-- Every step keeps the trip record: the first-out entry is there whenever the latch is set (R130), and the cause list
never holds two entries with the same cause and stand, and never more than 16 (R131). -/
def Obligations.StepKeepsTripRecord : Prop := ∀ s t : State, tripOk s → step s = .next t → tripOk t

/-- After every step the pins are as their conditions have them: each line energized exactly when R134 and R135 say,
ATTN_N active exactly while an enabled bit is set (R161), LINK_DE high exactly while a poll is sent (R143). -/
def Obligations.StepKeepsPinsOnConditions : Prop := ∀ s t : State, pinsOk s → step s = .next t → pinsOk t

/-- Every step keeps the zone queues: positions do not increase from front to back and lie within the zone, a mark in
zone k holds k thickness entries (R5), no more than the pool's 256 records are queued (R4), and at every level but RUN
the queues are empty (R24). -/
def Obligations.StepKeepsZoneQueues : Prop := ∀ s t : State, zonesOk s → step s = .next t → zonesOk t

/-- Every step keeps a validated line description copy, and at RUN there is one (R163, R183, R184). -/
def Obligations.StepKeepsValidCopy : Prop := ∀ s t : State, copyOk s → step s = .next t → copyOk t

/-- Every step keeps the laws of the Schedule Store (R96, R97): at most two slots are live, every slot in force is live, a
slot is FREE exactly when it is not WAITING, is in force nowhere and tags no mark, and the stands on the newer slot are
stands 1 to m. What frees a slot in force, a trip reset, is being taken at RUN alone (R168). -/
def Obligations.StepKeepsScheduleStore : Prop :=
  ∀ s t : State, copyOk s → storeOk s → step s = .next t → storeOk t

/-- Every step keeps the table of long orders in flight (R110, R169): an entry is occupied exactly while its stand's move is
in flight, and its block's STATE reads TAKEN. The processor's part in it is a premise: its blocks do not overlap, and what
it writes into the anchor or a link is 0, such a block, or no pointer. -/
def Obligations.StepKeepsLongOrders : Prop :=
  ∀ (blocks : Nat → Prop) (s t : State), blocksApart blocks → longOrdersOk blocks s →
    (∀ c ∈ s.pending.head?, linksAmong blocks (processorMemory c s)) → step s = .next t → longOrdersOk blocks t

/-- What no command but its own touches: the waiting queue, the line clock but for the time the command brings, the
enables (R161), the external trip input and RESET_N. -/
def Obligations.CommandsKeepQueueClockAndInputs : Prop :=
  ∀ (i : Instr) (s t : State), exec i s = .next t →
    t.pending = s.pending ∧
    ((∀ e, i ≠ .powerOn e) → t.clock = s.clock + i.elapsed ∧
      ((∀ dt, i ≠ .resetAsserted dt) → t.resetLow = s.resetLow) ∧
      ((∀ dt v, i ≠ .attentionMaskWrite dt v) → t.mask = s.mask) ∧
      ((∀ dt l, i ≠ .etripChange dt l) → t.etripPin = s.etripPin))

/-- What changes at its own commands alone. A set bit of ATTENTION stays set until a processor write, HALT or power-on
clears it (R161). The run level changes at requests for a level (R162), and the line description copy and CONFIG_RESULT at
requests for RUN, HALT and power-on (R182, R183, R184). -/
def Obligations.BitsLevelAndCopyChangeAtTheirCommandsAlone : Prop :=
  ∀ (i : Instr) (s t : State), exec i s = .next t →
    (∀ b : Nat, i.resets = false → (∀ dt v, i ≠ .attentionWrite dt v) → s.attention.getLsbD b = true →
      t.attention.getLsbD b = true) ∧
    (i.requestsLevel = false → t.level = s.level) ∧
    (i.resets = false → (∀ dt, i ≠ .runLevelRun dt) → t.line = s.line ∧ t.configResult = s.configResult)

/-- No command but HALT and power-on loses an unread journal record: where the read index is not written, the index
stands, the unread count does not fall, and every slot that holds an unread record keeps it (R173, R174). -/
def Obligations.UnreadRecordsAreNeverOverwritten : Prop :=
  ∀ (i : Instr) (s t : State), journalOk s → i.resets = false → i.writesJournalRead s = false → exec i s = .next t →
    t.journal.r = s.journal.r ∧ s.journal.unread ≤ t.journal.unread ∧
      ∀ n < s.journal.unread,
        t.journal.slots[(s.journal.r.toNat + n) % 128]? = s.journal.slots[(s.journal.r.toNat + n) % 128]?

/-- Between resets a trip only grows: no command but RESET_TRIP, HALT, power-on, and a change of level that completes a
RESET_TRIP standing taken, clears the latch, the entry stop or an action of a stand (R129, R130, R135, R142). -/
def Obligations.TripGrowsUntilReset : Prop :=
  ∀ (i : Instr) (s t : State), i.resets = false → (∀ dt, i ≠ .resetTrip dt) →
    (i.requestsLevel = true → ∀ c, s.orders.copy = some c → c.order ≠ .resetTrip) → exec i s = .next t →
    (s.trip.latch = true → t.trip.latch = true) ∧ (s.trip.entryStop = true → t.trip.entryStop = true) ∧
      ∀ k, ((s.trip.actions.get k).driveStop = true → (t.trip.actions.get k).driveStop = true) ∧
        ((s.trip.actions.get k).gapOpen = true → (t.trip.actions.get k).gapOpen = true)

/-! ### Power-on and the run levels -/

/-- POWER_ON: every byte of Exchange Memory reads 0, no order is taken, the level is HALT, every register and block is at
its power-on value, and every line is de-energized (R159, R160, R161, R142, and each chapter's own table of levels and
resets). The manual gives no power-on value to silent since, a station's address, the speed last delivered, the generator's
base and count, and the latest poll's bytes: theirs here are the model's choice (log 19). The level at the external trip
input and the queue are the model's (log 11), and so is the index of the free values, which is kept (log 9). RESET_ASSERTED:
while RESET_N is low every trip line is de-energized (R159; 13, *Port, line and electrical notes*); nothing else changes,
which is the model's choice (log 12). -/
def Obligations.PowerOnClearsThePartAndResetDropsItsLines : Prop :=
  (∀ (e : EtripLevel) (s : State), ∃ t, exec (.powerOn e) s = .next t ∧
    t = State.settled { State.reset with
      etripPin := e, trip := { etrip := e }, freeIndex := s.freeIndex, pending := s.pending } ∧ t.pins = {} ∧
    (∀ a, exmByte t a = 0) ∧ t.takenBlocks = [] ∧ registerRead t 4 = 0 ∧ registerRead t 6 = 0 ∧ registerRead t 8 = 0) ∧
  ∀ (dt : Clock) (s : State), ∃ t, exec (.resetAsserted dt) s = .next t ∧ t.linesDown ∧
    t = State.settled { s with clock := s.clock + dt, resetLow := true }

/-- HALT (R164, R159, and each chapter's own table of levels and resets): every block in its HALT state; part-written words,
JOURNAL_READ, and STATE and RESULT of every block taken and not retired are 0; every other processor-written byte is kept;
ATTENTION is 0 and ATTENTION_MASK kept. The manual gives no value at HALT to silent since, a station's address, the speed
last delivered, the generator's base and count, and the latest poll's bytes: theirs here are the model's choice (log 19).
That the recorded level of the external trip input is the input's own is read from R142 (log 37, DEDUCED); the index of the
free values, which is kept, is the model's (log 9). -/
def Obligations.HaltIsTheSoftReset : Prop :=
  ∀ (dt : Clock) (s : State), memoryOk s → ∃ t, exec (.runLevelHalt dt) s = .next t ∧
    t = State.settled { State.reset with
      clock := s.clock + dt, resetLow := s.resetLow, etripPin := s.etripPin, mask := s.mask, exm := t.exm,
      trip := { etrip := s.etripPin }, freeIndex := s.freeIndex, pending := s.pending } ∧
    t.pins = {} ∧ t.takenBlocks = [] ∧
    (∀ a, (2 ≤ a ∧ a < 64) ∨ (1024 ≤ a ∧ a < 4096) → exmByte t a = 0) ∧
    (∀ p ∈ s.takenBlocks, ∀ a, (p + 2 ≤ a ∧ a < p + 4) ∨ (p + 6 ≤ a ∧ a < p + 12) → t.exm.read a = 0) ∧
    (∀ a, ¬(2 ≤ a ∧ a < 4) →
      (∀ p ∈ s.takenBlocks, ¬((p + 2 ≤ a ∧ a < p + 4) ∨ (p + 6 ≤ a ∧ a < p + 12))) → t.exm.read a = s.exm.read a)

/-- Requests that leave the level as it is. One for the level that stands, other than HALT, is ignored: time passes and
nothing else happens (R162). One for RUN whose line description fails a check is refused: CONFIG_RESULT takes the failing
field and its code, ATTENTION.CONFIG is set, and the level, every block and every copy stay as they were (R163, step 1;
R182). -/
def Obligations.RequestsThatLeaveTheLevelAsItIs : Prop :=
  ∀ (dt : Clock) (s : State),
    (s.level = .configure → exec (.runLevelConfigure dt) s = .next (s.tick dt).settled) ∧
    (s.level = .loopback → exec (.runLevelLoopback dt) s = .next (s.tick dt).settled) ∧
    (s.level = .run → exec (.runLevelRun dt) s = .next (s.tick dt).settled) ∧
    ∀ code : Word, s.level ≠ .run → (lineAt s.exm).failure = some code →
      exec (.runLevelRun dt) s = .next (State.settled { s with
        clock := s.clock + dt, configResult := code, attention := s.attention ||| 8 })

/-- CONFIGURE entered from each other level (R162, R165, R121, R166, R23). From HALT: the watched word becomes ORDER_ANCHOR,
and the intake reads it; with ORDER_ANCHOR at 0 nothing else happens. From LOOPBACK: moves and HOLDs end, the cycle ends and
the timer stops, and everything else is kept. From RUN also: the lines are de-energized, every mark returns to the pool, a
DRAINING slot is freed; the threading records, the terms, the other slots, the estimates and the line description copy are
kept; with every stand 1 to N VACANT the Trip Unit keeps all it holds; else LEVEL_DROP is raised with stand 0. With an order
standing taken, a change of level completes it first, which is the model's choice (log 5) and is not stated here. -/
def Obligations.ConfigureIsEnteredFromEachLevel : Prop :=
  ∀ (dt : Clock) (s : State),
    (∀ u, s.level = .halt →
      u = { s with clock := s.clock + dt, level := .configure, orders := { s.orders with watched := some 0 } } →
      exec (.runLevelConfigure dt) s = .next (freeToTake u).settled ∧
      (s.exm.readWord 0 = 0 → exec (.runLevelConfigure dt) s = .next u.settled)) ∧
    (memoryOk s → s.level = .loopback → s.orders.copy = none → ∃ t, exec (.runLevelConfigure dt) s = .next t ∧
      MovesEnded standNumbers 5 s t ∧ t = State.settled { s with
        clock := s.clock + dt, level := .configure, exm := t.exm, attention := t.attention, gap := t.gap,
        orders := { s.orders with inFlight := t.orders.inFlight },
        link := { s.link with cycle := none, expiryWaiting := false, nextExpiry := none } } ∧
      (∀ k ∈ standNumbers, t.gap.get k = { s.gap.get k with move := .none })) ∧
    (memoryOk s → s.level = .run → s.orders.copy = none → ∃ t, exec (.runLevelConfigure dt) s = .next t ∧
      t.level = .configure ∧ t.clock = s.clock + dt ∧ t.linesDown ∧ MovesEnded standNumbers 5 s t ∧
      t.link = { s.link with cycle := none, expiryWaiting := false, nextExpiry := none } ∧
      t.tracker = { s.tracker with
        zones := PerStand.all [], carry := PerStand.all 0, emptySpell := false,
        gen := { s.tracker.gen with running := false } } ∧
      t.gauge = { s.gauge with paired := 0, unpaired := 0, outCount := 0 } ∧
      (∀ k ∈ standNumbers, t.gap.get k = { s.gap.get k with move := .none }) ∧
      (∀ x, t.store.slot x = if (s.store.slot x).state = .draining then {} else s.store.slot x) ∧
      t.store.inForce = s.store.inForce ∧ t.store.lastLoaded = s.store.lastLoaded ∧
      t.est = s.est ∧ t.line = s.line ∧ t.configResult = s.configResult ∧ t.images = s.images ∧
      (∀ n, t.summary.map Summary.count = some n ↔ n = (s.summary.map Summary.count).getD 0 + 1) ∧
      ((∀ k ∈ standsTo s.n, (s.thread k).state = .vacant) → t.trip = s.trip ∧ t.tripArea = s.tripArea) ∧
      ((∃ k ∈ standsTo s.n, (s.thread k).state ≠ .vacant) →
        t.trip.latch = true ∧ (t.trip.overflow = true ∨ ∃ e ∈ t.trip.causes, e.cause = .levelDrop ∧ e.stand = 0)))

/-- LOOPBACK entered from each other level (R146, R147, R155, R156, R162, R165, R166). Without a line description copy, from
HALT or CONFIGURE: the list is empty and the timer does not run, every station is UNKNOWN with its runs at 0 and no previous
time, base known is no at every stand, and from HALT the intake starts. With a copy, from CONFIGURE or RUN: the list is
stands 1 to N and then the gauge; the timer has its next expiry one period on; the cycle at once answers every poll inside
the part, so every listed station is PRESENT with one good run and no misses at this moment, its last reply contents kept,
and every listed stand's base is known and its image written at this time with LATE clear. No line is energized and the copy
stays. From CONFIGURE the trip record, the slots and the Tracker stay; leaving RUN ends the moves, flushes the Tracker with
its threading records kept, frees a DRAINING slot, and raises LEVEL_DROP where a stand is not VACANT. The model's choices:
an internal answer counts as a valid reply with LOCAL clear (`lastLocal`, log 18); the cycle's answers are all of this
moment (log 33); the first cycle is part of the request (log 36). -/
def Obligations.LoopbackEntryBuildsTheListAndAnswersInside : Prop :=
  ∀ (dt : Clock) (s u : State),
    (s.line = none → u = { s with
        clock := s.clock + dt, level := .loopback,
        gap := s.gap.map fun r => { r with baseKnown := false },
        link := { s.link with
          pollList := [], cycle := none, expiryWaiting := false, nextExpiry := none,
          stations := s.link.stations.map fun st =>
            { st with state := .unknown, missRun := 0, goodRun := 0, prevTime := none, saturated := false },
          gauge := { s.link.gauge with
            state := .unknown, missRun := 0, goodRun := 0, prevTime := none, saturated := false } } } →
      (s.level = .halt → exec (.runLevelLoopback dt) s =
        .next (freeToTake { u with orders := { s.orders with watched := some 0 } }).settled) ∧
      (s.level = .configure → s.orders.copy = none → exec (.runLevelLoopback dt) s = .next u.settled)) ∧
    ∀ (l : LineDesc), memoryOk s → s.level = .configure ∨ s.level = .run → s.orders.copy = none → s.line = some l →
      ∃ t, exec (.runLevelLoopback dt) s = .next t ∧ t.level = .loopback ∧ t.linesDown ∧ t.line = s.line ∧
        t.configResult = s.configResult ∧ t.clock = s.clock + dt ∧ t.cycleClock = s.clock + dt ∧
        t.link.pollList = (standsTo l.n).map .stand ++ [.gauge] ∧ t.link.cycle = none ∧ t.link.expiryWaiting = false ∧
        t.link.nextExpiry = some (s.clock + dt + BitVec.ofNat 32 l.period) ∧
        (∀ e ∈ t.link.pollList, t.station e = { s.station e with
          addr := (match e with | .stand k => (l.stands.get k).addr | .gauge => l.gaugeAddr),
          state := .present, missRun := 0, goodRun := 1, prevTime := some (s.clock + dt), saturated := false,
          vDelivered := 0, lastLocal := false }) ∧
        (∀ k ∈ standsTo l.n, (t.gap.get k).baseKnown = true ∧
          ∃ i, t.images.get k = { count := (s.images.get k).count + 1, shown := some i } ∧ i.time = s.clock + dt ∧
            i.late = false ∧ i.v = 0 ∧ i.station = .present) ∧
        (s.level = .configure → t.tracker = s.tracker ∧ t.trip = s.trip ∧ t.store = s.store) ∧
        (s.level = .run → MovesEnded standNumbers 5 s t ∧
          t.tracker = { s.tracker with
            zones := PerStand.all [], carry := PerStand.all 0, emptySpell := false,
            gen := { s.tracker.gen with running := false } } ∧
          (∀ x, t.store.slot x = if (s.store.slot x).state = .draining then {} else s.store.slot x) ∧
          t.store.inForce = s.store.inForce ∧ t.store.lastLoaded = s.store.lastLoaded ∧
          ((∀ k ∈ standsTo s.n, (s.thread k).state = .vacant) → t.trip = s.trip ∧ t.tripArea = s.tripArea) ∧
          ((∃ k ∈ standsTo s.n, (s.thread k).state ≠ .vacant) → t.trip.latch = true ∧
            (t.trip.overflow = true ∨ ∃ e ∈ t.trip.causes, e.cause = .levelDrop ∧ e.stand = 0)))

/-- RUN entry from HALT, CONFIGURE or LOOPBACK, with a valid line description and no order standing taken (R163): the copy,
CONFIG_RESULT 0, every threading record reset, the gauge record and the terms at their entry values, the tables loaded where
due and no table left pending, the matrix copied and readiness cleared, images above N set to 0 with their update counts
kept (R177, R178), the poll list rebuilt and the first cycle started at once, with every trip line of the stands
de-energized. MON is kept where N is unchanged, but that a switch of stand N brings it within the new limit (R79, R92). A
live slot of another stand count is freed; of two that remain the newer stays, and every stand 1 to N is on the one that
stays (R106). Leaving LOOPBACK ends every move with LEVEL (R121). Two readings of the manual in it are the model's: that the
update counts of the images set to 0 are kept (log 14, DEDUCED), and that the first cycle starts within the request's own
command (log 36, DEDUCED). -/
def Obligations.RunEntryBringsEveryBlockToItsEntryState : Prop :=
  ∀ (dt : Clock) (s : State) (l : LineDesc), s.level ≠ .run → lineAt s.exm = l → l.failure = none →
    s.orders.copy = none → ∃ t, exec (.runLevelRun dt) s = .next t ∧
      t.level = .run ∧ t.line = some l ∧ t.configResult = 0 ∧
      t.tracker = { s.tracker with threading := PerStand.all {} } ∧
      t.gauge = { s.gauge with held := false, silent := false, out := false, paired := 0, unpaired := 0, outCount := 0 } ∧
      (∀ k ∈ standNumbers, (t.gap.get k).ff = 0 ∧ (t.gap.get k).agc = 0 ∧ (t.gap.get k).hLock = 0 ∧
        (t.gap.get k).trim = limit (s.gap.get k).trim l.trimLim ∧ (k ≠ 1 → (t.gap.get k).baseKnown = false) ∧
        (s.line.map LineDesc.n ≠ some l.n → (t.gap.get k).mon = 0) ∧
        (s.line.map LineDesc.n = some l.n → k ≠ l.n ∨ t.slotAt k = s.slotAt k →
          (t.gap.get k).mon = (s.gap.get k).mon)) ∧
      (∀ k ∈ standNumbers, (t.est.get k).pendingTable = none ∧ (t.est.get k).mode = .lookup ∧
        (k ≤ l.n → (t.est.get k).loaded = true ∧
          ((s.est.get k).loaded = false → (t.est.get k).z = (l.stands.get k).z ∧ (t.est.get k).zst = (l.stands.get k).zst ∧
            (t.est.get k).table = some ((s.est.get k).pendingTable.getD (l.stands.get k).table)) ∧
          ((s.est.get k).loaded = true → (t.est.get k).z = (s.est.get k).z ∧ (t.est.get k).zst = (s.est.get k).zst))) ∧
      t.trip.matrix = some (l.matrix.map MatrixBytes.decode) ∧ t.trip.ready = PerStand.all false ∧
      t.trip.etrip = s.etripPin ∧
      (s.etripPin = .healthy → t.trip.latch = s.trip.latch ∧ t.trip.actions = s.trip.actions ∧
        t.trip.entryStop = s.trip.entryStop ∧ t.trip.causes = s.trip.causes ∧ t.trip.overflow = s.trip.overflow) ∧
      (s.etripPin = .trip → t.trip.latch = true) ∧
      t.link.pollList = (standsTo l.n).map .stand ++ [.gauge] ∧
      t.link.cycle = some { index := 0, phase := .sending, late := false } ∧ t.link.expiryWaiting = false ∧
      t.link.nextExpiry = some (s.clock + dt + BitVec.ofNat 32 l.period) ∧ t.cycleClock = s.clock + dt ∧
      (∀ e ∈ t.link.pollList, t.station e = { s.station e with
        addr := (match e with | .stand k => (l.stands.get k).addr | .gauge => l.gaugeAddr),
        state := .unknown, missRun := 0, goodRun := 0, prevTime := none, saturated := false }) ∧
      (∀ k ∈ standNumbers, t.images.get k = if l.n < k then { s.images.get k with shown := none } else s.images.get k) ∧
      t.pins.dstop = PerStand.all false ∧ t.pins.gopen = PerStand.all false ∧
      (s.level = .loopback → memoryOk s → MovesEnded standNumbers 5 s t) ∧
      (storeOk s → ∀ (fits : Slot → Bool) (c : Option Slot),
        (∀ x, fits x = decide ((s.store.slot x).state ≠ .free ∧ ((s.store.slot x).schedule.getD {}).count = l.n)) →
        c = (match fits .a, fits .b with
          | true, true => s.store.lastLoaded
          | true, false => some .a
          | false, true => some .b
          | false, false => none) →
        (∀ x, t.store.slot x = if c = some x then { s.store.slot x with state := .inForce } else {}) ∧
          ∀ k ∈ standNumbers, t.slotAt k = if k ≤ l.n then c else none)

/-! ### The processor port and the journal -/

/-- ATTENTION_WRITE clears each bit written as 1 and leaves the others; ATTENTION_MASK_WRITE sets the enables, and bits
beyond the five are ignored (R161). Nothing else changes, but that the pins follow. A write to PART_ID, to an unassigned
offset, or of a value above 3 to RUN_LEVEL, and bytes that arrive while no exchange is open, change nothing but that time
passes (R160, R186, R143). -/
def Obligations.RegisterWritesAndStrayFrames : Prop :=
  ∀ (dt : Clock) (s : State),
    (∀ v : Word, ∃ t, exec (.attentionWrite dt v) s = .next t ∧
      t = State.settled { s with clock := s.clock + dt, attention := t.attention } ∧
      ∀ b, t.attention.getLsbD b = (s.attention.getLsbD b && !v.getLsbD b)) ∧
    (∀ v : Word, ∃ t, exec (.attentionMaskWrite dt v) s = .next t ∧
      t = State.settled { s with clock := s.clock + dt, mask := t.mask } ∧ registerRead t 8 = v &&& 31) ∧
    (∀ offset value, registerWriteIsIgnored offset value = true →
      exec (.registerWriteIgnored dt offset value) s = .next (s.tick dt).settled) ∧
    (∀ bytes, openExchange s = none → exec (.strayFrameDiscard dt bytes) s = .next (s.tick dt).settled)

/-- EXM_WRITE (R158). A write to a part-written word is discarded: every byte of Exchange Memory reads as before and
ATTENTION.PROTECT is set. A write to any other word lands: the word reads back, and, where it is neither JOURNAL_READ nor
the watched word, nothing else changes. A port address has no bit 0. -/
def Obligations.PortWritesFollowTheWordsOwner : Prop :=
  ∀ (dt : Clock) (a v : Word) (s : State) (w : Nat), memoryOk s → w = 2 * (a.toNat / 2) →
    ∃ t, exec (.exmWrite dt a v) s = .next t ∧
      (partOwned s w = true →
        t = State.settled { s with clock := s.clock + dt, attention := s.attention ||| 16 } ∧
          ∀ b, exmByte t b = exmByte s b) ∧
      (partOwned s w = false → w ≠ 2 → s.orders.watched ≠ some w →
        t = State.settled { s with clock := s.clock + dt, exm := t.exm } ∧ exmWord t w = v ∧
          ∀ b, b ≠ w → b ≠ w + 1 → exmByte t b = exmByte s b)

/-- A write to the watched word that takes no block (R166, R167): a 0 waits; a value that is no pointer to a header is a
CHAIN_FAULT of reason 1 or 2, and one that points to a block in flight a CHAIN_FAULT of reason 3, with the offset of the
word and the value read; a block whose STATE is neither POSTED nor that of one in flight is retired with INVALID STATE.
The watched word stays. EXM_WRITE to that word is the same event. -/
def Obligations.ArrivalsThatTakeNothing : Prop :=
  ∀ (dt : Clock) (v : Word) (s u : State) (w : Nat), memoryOk s → s.orders.watched = some w → s.orders.copy = none →
    w % 8 = 0 → w < 65536 → partOwned s w = false →
    u = { s with clock := s.clock + dt, exm := s.exm.writeWord w v } →
    (∀ a : Word, 2 * (a.toNat / 2) = w → exec (.exmWrite dt a v) s = exec (.watchedWordArrival dt v) s) ∧
    u.exm.readWord w = v ∧ (∀ a, a ≠ w → a ≠ w + 1 → u.exm.read a = s.exm.read a) ∧
    (v = 0 → exec (.watchedWordArrival dt v) s = .next u.settled) ∧
    (v ≠ 0 → v.toNat % 8 ≠ 0 ∨ v.toNat < 4096 →
      exec (.watchedWordArrival dt v) s =
        .next (note .chainFault 0 u.clock 0 (BitVec.ofNat 16 w) v 1 u).settled) ∧
    (v = 0xFFF8 →
      exec (.watchedWordArrival dt v) s =
        .next (note .chainFault 0 u.clock 0 (BitVec.ofNat 16 w) v 2 u).settled) ∧
    (v.toNat % 8 = 0 → 4096 ≤ v.toNat → v.toNat < 65528 → u.exm.readWord (v.toNat + 2) = 2 →
      (∃ k ∈ standNumbers, s.orders.inFlight.get k = some v.toNat) →
      exec (.watchedWordArrival dt v) s =
        .next (note .chainFault 0 u.clock 0 (BitVec.ofNat 16 w) v 3 u).settled) ∧
    (v.toNat % 8 = 0 → 4096 ≤ v.toNat → v.toNat < 65528 → u.exm.readWord (v.toNat + 2) ≠ 1 →
      (u.exm.readWord (v.toNat + 2) = 2 → ∀ k ∈ standNumbers, s.orders.inFlight.get k ≠ some v.toNat) →
      ∃ m, Retired v.toNat 4 4 0 u { u with exm := m } ∧
        exec (.watchedWordArrival dt v) s =
          .next (State.settled { u with exm := m, attention := s.attention ||| 1 }))

/-- A POSTED block at the watched word is taken (R167, R168): STATE reads TAKEN, the watched word becomes the block's
LINK, and the order's kind and parameters are copied; a kind that is none, a block that ends past 0xFFFF, or a level that
does not accept the kind retires it instead, with the first of INVALID KIND, INVALID POINTER and REFUSED LEVEL that
applies, and the next read follows. -/
def Obligations.PostedBlocksAreTaken : Prop :=
  ∀ (dt : Clock) (v : Word) (s u : State) (w p kind : Nat), memoryOk s → s.orders.watched = some w →
    s.orders.copy = none → w % 8 = 0 → w < 65536 → partOwned s w = false → p = v.toNat → p % 8 = 0 → 4096 ≤ p →
    p < 65528 → u = { s with clock := s.clock + dt, exm := s.exm.writeWord w v } → u.exm.readWord (p + 2) = 1 →
    kind = (u.exm.readWord (p + 4)).toNat →
    (∀ size, blockSize kind = some size → p + size ≤ 65536 → levelAccepts kind s.level = true →
      ∃ m o, exec (.watchedWordArrival dt v) s = .next (State.settled { u with
          exm := m,
          orders := { s.orders with watched := some p, copy := some { ptr := p, order := o, time := u.clock } } }) ∧
        m.readWord (p + 2) = 2 ∧ (∀ a, a ≠ p + 2 → a ≠ p + 3 → m.read a = u.exm.read a) ∧
        orderAt { u with exm := m } p = some o) ∧
    (∀ cls detail, (kind = 0 ∨ 10 < kind) ∧ cls = 4 ∧ detail = 1 ∨
        (∃ size, blockSize kind = some size ∧
          (65536 < p + size ∧ cls = 4 ∧ detail = 3 ∨
            p + size ≤ 65536 ∧ levelAccepts kind s.level = false ∧ cls = 3 ∧ detail = 3)) →
      ∃ m, Retired p cls detail 0 u { u with exm := m } ∧
        exec (.watchedWordArrival dt v) s = .next (freeToTake { u with
          exm := m, attention := s.attention ||| 1, orders := { s.orders with watched := some p } }).settled)

/-- A write to JOURNAL_READ (R175): a good value becomes the read index, and where records were lost and there is room
again a LOST record with their number is appended and the count cleared; any other value leaves the index. The word
reads back in every case. EXM_WRITE to that word is the same event. -/
def Obligations.JournalReadWriteMovesTheIndex : Prop :=
  ∀ (dt : Clock) (v : Word) (s u : State) (room : Nat), memoryOk s → partOwned s 2 = false →
    s.orders.watched ≠ some 2 → room = (s.journal.w - v.setWidth 8).toNat →
    u = { s with clock := s.clock + dt, exm := s.exm.writeWord 2 v } →
    u.exm.readWord 2 = v ∧
    (∀ a : Word, 2 * (a.toNat / 2) = 2 → exec (.exmWrite dt a v) s = exec (.journalReadWrite dt v) s) ∧
    (255 < v.toNat ∨ 128 < room → exec (.journalReadWrite dt v) s = .next u.settled) ∧
    (v.toNat ≤ 255 → room ≤ 128 → s.journal.lost = 0 ∨ room = 128 →
      exec (.journalReadWrite dt v) s =
        .next (State.settled { u with journal := { s.journal with r := v.setWidth 8 } })) ∧
    (v.toNat ≤ 255 → room < 128 → 0 < s.journal.lost →
      exec (.journalReadWrite dt v) s = .next (State.settled { u with
        attention := s.attention ||| 2,
        journal := {
          r := v.setWidth 8, w := s.journal.w + 1, lost := 0,
          slots := s.journal.slots.set (s.journal.w.toNat % 128)
            (some { kind := .lost, stand := 0, time := u.clock, coil := 0,
                    v1 := BitVec.ofNat 16 (min s.journal.lost 65535), v2 := 0, v3 := 0 }) } }))

/-- A record that falls due (R173, R174): with no loss unreported and fewer than 128 unread, slot W mod 128 takes it, the
write index grows by 1 modulo 256 and ATTENTION.JOURNAL is set; else it is dropped and counted, up to 65,535, and the
unread records stay. The processor reads an appended record at its slot. -/
def Obligations.RecordsAreAppendedOrCounted : Prop :=
  ∀ (r : JournalRecord) (s : State),
    (s.journal.lost = 0 → s.journal.unread < 128 →
      journal r s = { s with
        attention := s.attention ||| 2,
        journal := { s.journal with
          w := s.journal.w + 1, slots := s.journal.slots.set (s.journal.w.toNat % 128) (some r) } } ∧
      (journalOk s → ∀ i < 16,
        exmByte (journal r s) (2048 + 16 * (s.journal.w.toNat % 128) + i) = r.bytes.getD i 0)) ∧
    (0 < s.journal.lost ∨ s.journal.unread = 128 →
      journal r s = { s with journal := { s.journal with lost := min (s.journal.lost + 1) 65535 } })

/-! ### The ten orders: the owner's work on the order that stands taken -/

/-- ANNOUNCE_HEAD (R31, R32): the first check that fails ends the order; else stand 1 is EXPECTING with the order's coil and
H0, HOLD there ends, a coil that is not that of the slot in force at stand 1 is journalled, and the order retires COMPLETED
with the coil id of that slot's schedule. That the COIL_MISMATCH record carries the time of the order's take is the model's
reading, which R32 does not state (log 26). -/
def Obligations.AnnounceHeadMakesStandOneExpecting : Prop :=
  ∀ (dt τ : Clock) (p h0 : Nat) (coil slotCoil : Word) (s u : State), memoryOk s →
    s.orders.copy = some { ptr := p, order := .announceHead coil h0, time := τ } →
    slotCoil = (s.slotAt 1).elim 0 (fun x => (s.store.slot x).coil) →
    u = { s with
      clock := s.clock + dt,
      tracker := { s.tracker with
        threading := s.tracker.threading.set 1 { s.thread 1 with state := .expecting, coil := coil, h0 := h0 } },
      gap := s.gap.set 1 { s.gap.get 1 with
        move := (match (s.gap.get 1).move with | .hold _ => Move.none | m => m) } } →
    ∃ t, exec (.announceHead dt) s = .next t ∧
      (∀ cls detail value,
        firstFailure [(decide (coil ≠ 0), 4, 2, (12 : Word)), (!s.trip.latch, 3, 2, 0),
          (decide ((s.thread 1).state = .vacant), 3, 1, 0),
          (standNumbers.all fun k => !(s.gap.get k).move.calibrating, 3, 6, 0)] = some (cls, detail, value) →
        OrderEnds p cls detail value (s.tick dt) t) ∧
      (coil ≠ 0 → s.trip.latch = false → (s.thread 1).state = .vacant →
        (∀ k ∈ standNumbers, (s.gap.get k).move.calibrating = false) →
        ((s.slotAt 1).isSome = true ∧ slotCoil = coil → OrderEnds p 1 0 slotCoil u t) ∧
        (¬((s.slotAt 1).isSome = true ∧ slotCoil = coil) →
          OrderEnds p 1 0 slotCoil
            (note .coilMismatch 1 τ coil slotCoil (BitVec.ofNat 16 (slotCode (s.slotAt 1))) (sat16 h0) u) t))

/-- SET_MODULUS (R55, R56): the first check that fails ends the order; an accepted table replaces the stand's at once,
with LOOKUP and a MODULUS_APPLIED record, where the stand's table is loaded and the stand VACANT, with value 1; else it is
the pending table, with value 2, or 3 where it replaces one. That the MODULUS_APPLIED record carries the time of the order's
take is the model's reading, which R55 to R58 do not state (log 26). -/
def Obligations.SetModulusAppliesOrHoldsTheTable : Prop :=
  ∀ (dt τ : Clock) (p k : Nat) (tab : ModulusTable) (s u v : State), memoryOk s →
    s.orders.copy = some { ptr := p, order := .setModulus k tab, time := τ } →
    u = { s with clock := s.clock + dt, est := s.est.set k { s.est.get k with table := some tab, mode := .lookup } } →
    v = { s with clock := s.clock + dt, est := s.est.set k { s.est.get k with pendingTable := some tab } } →
    ∃ t, exec (.setModulus dt) s = .next t ∧
      (¬standNamed s k → OrderEnds p 4 2 12 (s.tick dt) t) ∧
      (standNamed s k →
        (∀ i, tab.failure = some i → OrderEnds p 4 2 (BitVec.ofNat 16 (14 + 2 * i)) (s.tick dt) t) ∧
        (tab.failure = none → (s.gap.get k).move.calibrating = true → OrderEnds p 3 6 0 (s.tick dt) t) ∧
        (tab.failure = none → (s.gap.get k).move.calibrating = false →
          ((s.est.get k).loaded = true ∧ (s.thread k).state = .vacant →
            OrderEnds p 1 0 1
              (note .modulusApplied k τ (s.thread k).coil 1 (BitVec.ofNat 16 (plainLookup tab (s.est.get k).f))
                (sat16 (stretchOf tab (plainLookup tab (s.est.get k).f) (s.est.get k).f)) u) t) ∧
          (¬((s.est.get k).loaded = true ∧ (s.thread k).state = .vacant) → (s.est.get k).pendingTable = none →
            OrderEnds p 1 0 2 v t) ∧
          (¬((s.est.get k).loaded = true ∧ (s.thread k).state = .vacant) → (s.est.get k).pendingTable ≠ none →
            OrderEnds p 1 0 3 v t)))

/-- SET_TRIM (R89): a stand it may not name is INVALID FIELD; else TRIM becomes the value limited to TRIM_LIM (0 without
a line description copy), and the order retires COMPLETED with it, CLAMPED where the limit changed the value. -/
def Obligations.SetTrimLimitsTheTrim : Prop :=
  ∀ (dt τ : Clock) (p k : Nat) (x y : Int) (s : State), memoryOk s →
    s.orders.copy = some { ptr := p, order := .setTrim k x, time := τ } →
    y = max (-((s.line.elim 0 LineDesc.trimLim : Nat) : Int)) (min (s.line.elim 0 LineDesc.trimLim : Nat) x) →
    ∃ t, exec (.setTrim dt) s = .next t ∧
      (¬standNamed s k → OrderEnds p 4 2 12 (s.tick dt) t) ∧
      (standNamed s k →
        OrderEnds p 1 (if y = x then 0 else 1) (BitVec.ofInt 16 y)
          { s with clock := s.clock + dt, gap := s.gap.set k { s.gap.get k with trim := y } } t)

/-- LOAD_SCHEDULE (R94, R95, R98, R99): a take that failed, a record that fails a check, and two live slots end the order
with their results. Else the copy goes into the slot the table of R98 gives, and every stand it may reach (with no live
slot) or the leading vacant run (with one) switches to it; no other stand's slot or terms change. -/
def Obligations.LoadScheduleFillsASlotAndSwitches : Prop :=
  ∀ (dt τ : Clock) (p : Nat) (take : ScheduleTake) (s : State), memoryOk s →
    s.orders.copy = some { ptr := p, order := .loadSchedule take, time := τ } →
    ∃ t, exec (.loadSchedule dt) s = .next t ∧
      (∀ r, take = .failed r → OrderEnds p r.cls.code r.cls.detail r.value (s.tick dt) t) ∧
      (∀ rec, take = .copied rec →
        (∀ off, firstFailure (rec.checks (countAgrees s rec.count)) = some off →
          OrderEnds p 4 2 (BitVec.ofNat 16 off) (s.tick dt) t) ∧
        (firstFailure (rec.checks (countAgrees s rec.count)) = none →
          (s.store.slotA.state ≠ .free → s.store.slotB.state ≠ .free → OrderEnds p 3 1 0 (s.tick dt) t) ∧
          (∀ (x : Slot) (reach ks : List Nat), (s.store.slot x).state = .free →
            reach = standsTo (s.line.elim rec.count LineDesc.n) →
            ((s.store.slot x.other).state = .free ∧ x = s.store.lastLoaded.elim .a Slot.other ∧ ks = reach ∨
              (s.store.slot x.other).state ≠ .free ∧ ks = reach.takeWhile (fun k =>
                (s.thread k).state == .vacant && (s.thread k).headNotice.isNone)) →
            ∃ w, OrderEnds p 1 0 (BitVec.ofNat 16 x.code) w t ∧
              w = { s with
                clock := s.clock + dt, store := w.store, gap := w.gap, journal := w.journal, attention := w.attention } ∧
              w.store.lastLoaded = some x ∧ (w.store.slot x).coil = rec.coil ∧ (w.store.slot x).schedule = some rec ∧
              (w.store.slot x).state = (if ks = [] then .waiting else .inForce) ∧
              (∀ k ∈ standNumbers, w.slotAt k = if k ∈ ks then some x else s.slotAt k) ∧
              (∀ k ∈ standNumbers, k ∉ ks → w.gap.get k = s.gap.get k) ∧
              (∀ k ∈ ks, (w.gap.get k).ff = limit (s.gap.get k).ff (rec.stands.get k).ffLim ∧
                (w.gap.get k).agc = limit (s.gap.get k).agc (rec.stands.get k).agcLim ∧
                (w.gap.get k).base = (s.gap.get k).base ∧ (w.gap.get k).trim = (s.gap.get k).trim))))

/-- UNLOAD_SCHEDULE (R104): a field that names no slot is INVALID FIELD; a slot that is not WAITING is REFUSED STATE; a
WAITING slot becomes FREE with coil id 0, SLOT_FREED is journalled with cause UNLOAD, and the order retires COMPLETED with
a value the manual does not state (log 9). Last loaded stays. -/
def Obligations.UnloadScheduleFreesAWaitingSlot : Prop :=
  ∀ (dt τ : Clock) (p field : Nat) (s : State), memoryOk s →
    s.orders.copy = some { ptr := p, order := .unloadSchedule field, time := τ } →
    ∃ t, exec (.unloadSchedule dt) s = .next t ∧
      (field = 0 ∨ 2 < field → OrderEnds p 4 2 12 (s.tick dt) t) ∧
      (∀ x : Slot, field = x.code →
        ((s.store.slot x).state ≠ .waiting → OrderEnds p 3 2 0 (s.tick dt) t) ∧
        ((s.store.slot x).state = .waiting →
          ∃ value n, n = note .slotFreed 0 τ (s.store.slot x).coil (BitVec.ofNat 16 x.code) 4 0 s ∧
            OrderEnds p 1 0 value { n with
              clock := s.clock + dt, store := s.store.withSlot x {}, freeIndex := s.freeIndex + 1 } t))

/-- PRESET_GAP (R111): the first check that fails ends the order. Else the order is entered in the table of long orders at
its stand and stays TAKEN (R169), and the stand's move state becomes PRESET with the target, the tolerance, the time of the
take as its start time and a run of 0. That the start time is the take's, as the table of R110 has it, and not that of the
passing checks (R111), which are a command of their own here, is the model's choice (log 47). -/
def Obligations.PresetGapStartsAPreset : Prop :=
  ∀ (dt τ : Clock) (p k tol : Nat) (target : Int) (s : State) (checks : List (Bool × Nat × Nat × Word)), memoryOk s →
    s.orders.copy = some { ptr := p, order := .presetGap k target tol, time := τ } →
    checks = [(s.line.isSome, 3, 2, 0), (decide (standNamed s k), 4, 2, 12), (decide (tol ≤ 5000), 4, 2, 18),
      (!(s.gap.get k).move.inFlight, 3, 1, 0),
      (decide ((s.thread k).state = .vacant ∧ s.trip.actions.get k = {}), 3, 2, 0),
      (decide ((s.link.stations.get k).state = .present ∧ (s.gap.get k).baseKnown = true), 3, 5, 0),
      (!(s.link.stations.get k).lastLocal, 3, 4, 0),
      (decide ((s.lineCopy.pLo : Int) - (s.est.get k).z ≤ target ∧ target ≤ (s.lineCopy.pHi : Int) - (s.est.get k).z),
        4, 2, 14)] →
    ∃ t, exec (.presetGap dt) s = .next t ∧
      (∀ cls detail value, firstFailure checks = some (cls, detail, value) →
        OrderEnds p cls detail value (s.tick dt) t) ∧
      (firstFailure checks = none →
        t = (freeToTake { s with
          clock := s.clock + dt,
          orders := { s.orders with copy := none, inFlight := s.orders.inFlight.set k (some p) },
          gap := s.gap.set k { s.gap.get k with move := .preset target tol τ 0 } }).settled)

/-- CALIBRATE_ZERO (R114): the first check that fails ends the order. Else the order is entered in the table of long orders
at its stand and stays TAKEN (R169), and the stand's move state becomes CAL_CLOSE with the time of the take, the base as
start base, and a run of 0. That the start base is the base at this command, where the order's take was an earlier one (log
5), is the model's choice (log 47). -/
def Obligations.CalibrateZeroStartsClosing : Prop :=
  ∀ (dt τ : Clock) (p k : Nat) (s : State) (checks : List (Bool × Nat × Nat × Word)), memoryOk s → s.line.isSome →
    s.orders.copy = some { ptr := p, order := .calibrateZero k, time := τ } →
    checks = [(decide (standNamed s k), 4, 2, 12), (!(s.gap.get k).move.inFlight, 3, 1, 0),
      (decide ((∀ j ∈ standNumbers, j ≤ k → (s.thread j).state = .vacant ∧ (s.thread j).headNotice = none) ∧
        s.trip.actions.get k = {}), 3, 2, 0),
      (decide ((s.link.stations.get k).state = .present ∧ (s.gap.get k).baseKnown = true), 3, 5, 0),
      (!(s.link.stations.get k).lastLocal, 3, 4, 0)] →
    ∃ t, exec (.calibrateZero dt) s = .next t ∧
      (∀ cls detail value, firstFailure checks = some (cls, detail, value) →
        OrderEnds p cls detail value (s.tick dt) t) ∧
      (firstFailure checks = none →
        t = (freeToTake { s with
          clock := s.clock + dt,
          orders := { s.orders with copy := none, inFlight := s.orders.inFlight.set k (some p) },
          gap := s.gap.set k { s.gap.get k with
            move := .calClose τ (s.gap.get k).base 0 (s.est.get k).z } }).settled)

/-- ABORT_MOVE (R118): without a copy, at a stand it may not name, and with no move in flight, the order is ended. Else it
retires COMPLETED with a value the manual does not state (log 9), and the move ends or turns as the table of R118 has it:
a preset's order retires ABORTED ORDER with gap_act and leaves HOLD at the base, or NONE once the stand has left VACANT;
a calibration opens with ABORTED ORDER pending, unless an ABORTED detail is pending already. -/
def Obligations.AbortMoveEndsOrOpensTheMove : Prop :=
  ∀ (dt τ : Clock) (p k : Nat) (s : State), memoryOk s →
    s.orders.copy = some { ptr := p, order := .abortMove k, time := τ } →
    ∃ t, exec (.abortMove dt) s = .next t ∧
      (∀ cls detail value,
        firstFailure [(s.line.isSome, 3, 2, (0 : Word)), (decide (standNamed s k), 4, 2, 12),
          ((s.gap.get k).move.inFlight, 3, 2, 0)] = some (cls, detail, value) →
        OrderEnds p cls detail value (s.tick dt) t) ∧
      (s.line.isSome → standNamed s k →
        (∀ target tol st run q, (s.gap.get k).move = .preset target tol st run → s.orders.inFlight.get k = some q →
          ∃ m value, Retired q 2 2 (satSigned16 (s.est.get k).gapAct) s { s with exm := m } ∧
            OrderEnds p 1 0 value { s with
              clock := s.clock + dt, exm := m, attention := s.attention ||| 1, freeIndex := s.freeIndex + 1,
              orders := { s.orders with inFlight := s.orders.inFlight.set k none },
              gap := s.gap.set k { s.gap.get k with
                move := if (s.thread k).state = .vacant then .hold (s.gap.get k).base else .none } } t) ∧
        (∀ st sb run z0, (s.gap.get k).move = .calClose st sb run z0 →
          ∃ value, OrderEnds p 1 0 value { s with
            clock := s.clock + dt, freeIndex := s.freeIndex + 1,
            gap := s.gap.set k { s.gap.get k with move := .calOpen st sb (.aborted .order) z0 } } t) ∧
        (∀ st sb z0 pending, (s.gap.get k).move = .calOpen st sb pending z0 →
          ∃ value, OrderEnds p 1 0 value { s with
            clock := s.clock + dt, freeIndex := s.freeIndex + 1,
            gap := s.gap.set k { s.gap.get k with
              move := .calOpen st sb (match pending with | .aborted d => .aborted d | _ => .aborted .order) z0 } } t))

/-- TRIP_STANDS (R137): neither or both of the mill indication and a stand set, and a stand that it may not name, end the
order. Else ORDERED is taken once for each stand of the set in ascending order, or once for stand 0, with the time of the
take; the order retires COMPLETED with the number of new entries in the cause list. -/
def Obligations.TripStandsRaisesOrdered : Prop :=
  ∀ (dt τ : Clock) (p mill set : Nat) (s u : State) (ks : List Nat), memoryOk s → set < 65536 →
    s.orders.copy = some { ptr := p, order := .tripStands mill set, time := τ } →
    ks = (if mill = 1 then [0] else ((List.range 16).filter fun i => set.testBit i).map (· + 1)) →
    u = ks.foldl (fun s k => takeCause .ordered k τ s) (s.tick dt) →
    ∃ t, exec (.tripStands dt) s = .next t ∧
      (¬(mill = 1 ∧ set = 0 ∨ mill = 0 ∧ set ≠ 0) → OrderEnds p 4 2 12 (s.tick dt) t) ∧
      (mill = 0 → set ≠ 0 → (∃ k ∈ ks, ¬standNamed s k) → OrderEnds p 4 2 14 (s.tick dt) t) ∧
      ((mill = 1 ∧ set = 0 ∨ mill = 0 ∧ set ≠ 0 ∧ ∀ k ∈ ks, standNamed s k) →
        OrderEnds p 1 0
          (BitVec.ofNat 16 (u.trip.causes.length - if s.trip.latch then s.trip.causes.length else 0)) u t)

/-- RESET_TRIP (R138, R139): with the latch clear it retires COMPLETED with 0. With the latch set, the first condition of
R138 that fails refuses it with the cause and stand it names. Else the latch, the action sets and the entry stop are cleared
and the record kept, every mark and every threading record goes, every band mode is LOOKUP and no table of a stand 1 to N is
pending, the tolerance state is IN with the tally 0, FF, AGC, MON and h_lock are 0 at every stand with the base and TRIM
kept, a DRAINING slot is FREE, and the order retires COMPLETED with the number of causes in the list. Of two slots still
live, every stand 1 to N on the older goes to the newer, which is IN_FORCE once one has, and the older becomes FREE; else
the slots in force stay (R105). The journal takes, in this order, SLOT_FREED of the flush, MODULUS_APPLIED of each pending
table, SCHEDULE_SWITCH of each stand that switched, SLOT_FREED of the collapse, and TRIP_RESET with stand 0, the time of the
order's take, coil id 0, the number of causes, the overflow and the code of the first-out cause (R139). That several
MODULUS_APPLIED records come in ascending stand order is the model's choice, which R57 and R139 do not give (log 41, DESIGN
CHOICE, unsafe). That the records but TRIP_RESET carry the moment of the reset, and not the take, is the model's reading
(log 26, DEDUCED). -/
def Obligations.ResetTripClearsTheTrip : Prop :=
  ∀ (dt τ now : Clock) (p : Nat) (s : State) (checks : List (Bool × Nat)), memoryOk s → s.n ≤ 8 → now = s.clock + dt →
    s.orders.copy = some { ptr := p, order := .resetTrip, time := τ } →
    checks = [(decide (s.trip.etrip = .healthy), 256)]
      ++ (standsTo s.n).map (fun k => (decide ((s.link.stations.get k).state ≠ .silent), 7 * 256 + k))
      ++ [(decide (s.link.gauge.state ≠ .silent), 7 * 256 + (s.n + 1))]
      ++ (standsTo s.n).map (fun k =>
        (decide (∀ x, s.slotAt k = some x → (s.link.stations.get k).f < (s.sched k).fOff), 6 * 256 + k))
      ++ (standsTo s.n).map (fun k => (decide ((s.link.stations.get k).flags.overtravel = false ∧
        s.lineCopy.pLo ≤ (s.link.stations.get k).p ∧ (s.link.stations.get k).p ≤ s.lineCopy.pHi), 8 * 256 + k))
      ++ (standsTo s.n).map (fun k => (!(s.link.stations.get k).flags.hydFault, 10 * 256 + k)) →
    ∃ t, exec (.resetTrip dt) s = .next t ∧
      (s.trip.latch = false → OrderEnds p 1 0 0 (s.tick dt) t) ∧
      (s.trip.latch = true →
        (∀ v, firstFailure checks = some v → OrderEnds p 3 7 (BitVec.ofNat 16 v) (s.tick dt) t) ∧
        (firstFailure checks = none →
          ∃ w, OrderEnds p 1 0 (BitVec.ofNat 16 s.trip.causes.length) w t ∧
            w.exm = s.exm ∧ w.clock = now ∧ w.level = s.level ∧ w.link = s.link ∧ w.line = s.line ∧
            w.trip = { s.trip with latch := false, actions := PerStand.all {}, entryStop := false } ∧
            w.tracker = { s.tracker with
              zones := PerStand.all [], carry := PerStand.all 0, emptySpell := false, threading := PerStand.all {},
              gen := { s.tracker.gen with running := false } } ∧
            w.gauge = { s.gauge with out := false, paired := 0, unpaired := 0, outCount := 0 } ∧
            (∀ k ∈ standNumbers, (w.est.get k).mode = .lookup ∧
              (w.est.get k).z = (s.est.get k).z ∧ (w.est.get k).zst = (s.est.get k).zst ∧
              (k ≤ s.n → (w.est.get k).pendingTable = none ∧ (w.est.get k).table =
                ((s.est.get k).pendingTable <|> (s.est.get k).table))) ∧
            (∀ k ∈ standNumbers, (w.gap.get k).ff = 0 ∧ (w.gap.get k).agc = 0 ∧ (w.gap.get k).mon = 0 ∧
              (w.gap.get k).hLock = 0 ∧ (w.gap.get k).base = (s.gap.get k).base ∧
              (w.gap.get k).baseKnown = (s.gap.get k).baseKnown ∧ (w.gap.get k).trim = (s.gap.get k).trim) ∧
            w.store.lastLoaded = s.store.lastLoaded ∧
            ∀ (kept : Slot → SlotRecord) (moved : Option Slot) (onOlder : List Nat),
              (∀ x, kept x = if (s.store.slot x).state = .draining then {} else s.store.slot x) →
              moved = (if (kept .a).state ≠ .free ∧ (kept .b).state ≠ .free then s.store.lastLoaded else none) →
              onOlder = (standsTo s.n).filter (fun k => ∃ x, moved = some x ∧ s.slotAt k = some x.other) →
              (∀ k ∈ standNumbers, w.slotAt k = if k ∈ onOlder then moved else s.slotAt k) ∧
              (∀ x, w.store.slot x = if moved = some x.other then {}
                else { kept x with state := if moved = some x ∧ onOlder ≠ [] then .inForce else (kept x).state }) ∧
              w.journal = journalled
                (([Slot.a, .b].filter (fun x => (s.store.slot x).state = .draining)).map (fun x =>
                    { kind := .slotFreed, stand := 0, time := now, coil := (s.store.slot x).coil,
                      v1 := BitVec.ofNat 16 x.code, v2 := 3, v3 := 0 }) ++
                  (standsTo s.n).filterMap (fun k => (s.est.get k).pendingTable.map fun table =>
                    { kind := .modulusApplied, stand := k, time := now, coil := 0, v1 := 3,
                      v2 := BitVec.ofNat 16 (plainLookup table (s.est.get k).f),
                      v3 := sat16 (stretchOf table (plainLookup table (s.est.get k).f) (s.est.get k).f) }) ++
                  onOlder.map (fun k =>
                    { kind := .scheduleSwitch, stand := k, time := now,
                      coil := moved.elim 0 fun x => (s.store.slot x).coil, v1 := moved.elim 0 fun x => BitVec.ofNat 16 x.code,
                      v2 := moved.elim 0 fun x => BitVec.ofNat 16 x.other.code, v3 := 3 }) ++
                  (moved.map fun x =>
                    { kind := .slotFreed, stand := 0, time := now, coil := (s.store.slot x.other).coil,
                      v1 := BitVec.ofNat 16 x.other.code, v2 := 5, v3 := 0 }).toList ++
                  [{ kind := .tripReset, stand := 0, time := τ, coil := 0, v1 := BitVec.ofNat 16 s.trip.causes.length,
                     v2 := if s.trip.overflow then 1 else 0,
                     v3 := BitVec.ofNat 16 ((s.trip.causes.head?.map fun e => e.cause.code).getD 0) }]) s))

/-- The model's choices. With nothing waiting, a step is one microsecond of the line clock (R1) and nothing else (log 2). An
order's command with no order standing taken, and a command of the line with no exchange open, change nothing but that time
passes (log 3). -/
def Obligations.IdleStepsAndCommandsOutOfTurnOnlyPassTime : Prop :=
  (∀ s : State, s.pending = [] → step s = .next { s with clock := s.clock + 1 }) ∧
  ∀ (dt : Clock) (s : State),
    (s.orders.copy = none → ∀ i ∈ [Instr.announceHead dt, .setModulus dt, .setTrim dt, .loadSchedule dt,
      .unloadSchedule dt, .presetGap dt, .calibrateZero dt, .abortMove dt, .tripStands dt, .resetTrip dt],
      exec i s = .next (s.tick dt).settled) ∧
    (s.link.cycle = none → (∀ b, exec (.replyWindowClose dt b) s = .next (s.tick dt).settled) ∧
      (∀ fr fin plan, exec (.replyReceived dt fr fin plan) s = .next (s.tick dt).settled) ∧
      exec (.pollSent dt) s = .next (s.tick dt).settled ∧ exec (.replyStart dt) s = .next (s.tick dt).settled)

/-! ### Trip causes -/

/-- A cause taken at RUN (R128 to R131): the stand set by the table of R128; the entry with the cause, the stand, the time
of the event, and the coil and last mark of the stand, which becomes the whole list while the latch is clear, is appended
while there is room and no entry has its cause and stand, and sets overflow when the list is full; TRIP_FIRST or TRIP_ADDED,
with the stand, the time and the coil of the entry, the cause code, the index of the entry, and the number of stands of the
set whose actions grow, is the one record that falls due, and only where an entry is written (R132); the latch; the actions
added at the stands of the set and no other; the entry stop; every move at the stands of the set ended, the order of a move
in flight ABORTED with TRIP or the ABORTED detail pending, a preset's value its gap and a calibration's its change of Z
(R116, R117, R119), and nothing else of the Gap Unit's records. At the other levels, and before any matrix copy, it is
recorded alone (R136). The trip record area is rewritten (R141), also by a cause that the list already holds: R179 gives its
sentence on duplicates for RUN, and that they do so at CONFIGURE and LOOPBACK too, where R141's list leaves out an event
that changes nothing, is the model's reading (log 23). -/
def Obligations.CausesAreRecordedAndApplied : Prop :=
  ∀ (c : Cause) (k : Nat) (time : Clock) (s t : State) (en : CauseEntry), tripOk s → s.n ≤ 8 → t = takeCause c k time s →
    en = { cause := c, stand := k, time := time, coil := if k = 0 then 0 else (s.thread k).coil,
           lastMark := if k = 0 then none else s.tracker.lastPassed.get k } →
    let journals := fun grown : Nat => t.journal = journalled
      (if s.trip.latch = false then
        [{ kind := .tripFirst, stand := k, time := time, coil := en.coil, v1 := BitVec.ofNat 16 c.code, v2 := 1,
           v3 := BitVec.ofNat 16 grown }]
      else if (∃ x ∈ s.trip.causes, x.cause = c ∧ x.stand = k) ∨ s.trip.causes.length = 16 then []
      else
        [{ kind := .tripAdded, stand := k, time := time, coil := en.coil, v1 := BitVec.ofNat 16 c.code,
           v2 := BitVec.ofNat 16 (s.trip.causes.length + 1), v3 := BitVec.ofNat 16 grown }]) s
    t.trip.latch = true ∧ tripOk t ∧
    (s.trip.latch = false → t.trip.causes = [en] ∧ t.trip.overflow = false ∧ t.attention.getLsbD 2 = true) ∧
    (s.trip.latch = true →
      ((∃ x ∈ s.trip.causes, x.cause = c ∧ x.stand = k) →
        t.trip.causes = s.trip.causes ∧ t.trip.overflow = s.trip.overflow) ∧
      ((∀ x ∈ s.trip.causes, ¬(x.cause = c ∧ x.stand = k)) →
        (s.trip.causes.length < 16 → t.trip.causes = s.trip.causes ++ [en] ∧ t.trip.overflow = s.trip.overflow) ∧
        (s.trip.causes.length = 16 → t.trip.causes = s.trip.causes ∧ t.trip.overflow = true))) ∧
    (∀ (m : List MatrixEntry) (e : MatrixEntry) (ks : List Nat), s.level = .run → s.trip.matrix = some m →
      e = m.getD (c.code - 1) {} →
      ks = (match e.cascade, k with
        | .none, 0 => []
        | .none, k => [k]
        | .upstream, 0 => standsTo s.n
        | .upstream, k => standsTo k
        | .all, _ => standsTo s.n) →
      t.trip.entryStop = (s.trip.entryStop || e.entryStop) ∧
      journals (ks.countP fun j => (e.actions.driveStop && !(s.trip.actions.get j).driveStop) ||
        (e.actions.gapOpen && !(s.trip.actions.get j).gapOpen)) ∧
      (memoryOk s → k ≤ 8 → MovesEnded ks 1 s t) ∧
      ∀ j ∈ standNumbers,
        t.trip.actions.get j = (if j ∈ ks then
          { driveStop := (s.trip.actions.get j).driveStop || e.actions.driveStop,
            gapOpen := (s.trip.actions.get j).gapOpen || e.actions.gapOpen }
          else s.trip.actions.get j) ∧
        t.gap.get j = { s.gap.get j with move := if j ∈ ks then .none else (s.gap.get j).move }) ∧
    (s.level ≠ .run ∨ s.trip.matrix = none →
      t.trip.actions = s.trip.actions ∧ t.trip.entryStop = s.trip.entryStop ∧ t.gap = s.gap ∧ t.exm = s.exm ∧
        journals 0) ∧
    (∃ a, t.tripArea = some a ∧ a.count = (s.tripArea.map TripArea.count).getD 0 + 1 ∧ a.latch = true ∧
      a.causes = t.trip.causes ∧ a.actions = t.trip.actions ∧ a.overflow = t.trip.overflow) ∧
    t.tracker = s.tracker ∧ t.est = s.est ∧ t.store = s.store ∧ t.link = s.link ∧ t.line = s.line ∧ t.level = s.level

/-- What raises a cause at the input and in the reply check. ETRIP_CHANGE (R125): the level is recorded; a change to TRIP at
run level RUN raises EXTERNAL with stand 0, and nothing else raises anything. A change of level rewrites the trip record
area, of which the level is an item (R179, R141; R141's own list of events leaves the level out: log 13, DEDUCED), and
the level that stands already changes nothing. The check of a delivered reply (R124) takes, with the stand and the time of
the reply and in this order: GAP_OVERTRAVEL where P lies outside P_lo to P_hi or OVERTRAVEL is set, FORCE_OVERLOAD where F
is above F_max, TERMINAL_FAULT where HYD_FAULT is set, or LOCAL at a stand that is not VACANT; whether or not the latch is
set. -/
def Obligations.TheInputAndTheReplyCheckRaiseTheirCauses : Prop :=
  (∀ (dt : Clock) (lvl : EtripLevel) (s u : State),
    u = { s with clock := s.clock + dt, etripPin := lvl, trip := { s.trip with etrip := lvl } } →
    (s.trip.etrip = lvl → exec (.etripChange dt lvl) s = .next u.settled) ∧
    (s.trip.etrip ≠ lvl → lvl = .healthy ∨ s.level ≠ .run →
      ∃ t a, exec (.etripChange dt lvl) s = .next t ∧
        t = State.settled { u with tripArea := some a, freeIndex := t.freeIndex } ∧
        a.count = (s.tripArea.map TripArea.count).getD 0 + 1 ∧ a.etrip = lvl ∧ a.latch = s.trip.latch ∧
        a.causes = s.trip.causes ∧ a.actions = s.trip.actions ∧ a.ready = s.trip.ready ∧
        a.entryStop = s.trip.entryStop ∧ a.overflow = s.trip.overflow) ∧
    (s.trip.etrip ≠ lvl → lvl = .trip → s.level = .run →
      exec (.etripChange dt lvl) s = .next (takeCause .external 0 u.clock u).settled)) ∧
  ∀ (k p f : Nat) (flags : ReplyFlags) (s s1 s2 s3 : State),
    s1 = (if p < s.lineCopy.pLo ∨ s.lineCopy.pHi < p ∨ flags.overtravel = true then
      takeCause .gapOvertravel k s.clock s else s) →
    s2 = (if s.lineCopy.fMax < f then takeCause .forceOverload k s.clock s1 else s1) →
    s3 = (if flags.hydFault = true ∨ flags.localMode = true ∧ (s.thread k).state ≠ .vacant then
      takeCause .terminalFault k s.clock s2 else s2) →
    replyCheck k p f flags s = s3

/-! ### The stand link -/

/-- POLL_TIMER_EXPIRY (R147, R149): at or after the expiry, the next one is the first point of the grid of whole periods
that lies ahead. That it has come is read as less than 2^31 µs since it, and the grid points passed over count as one
expiry: the model's choices (log 25). With a cycle in flight the expiry waits and nothing else happens. With the controller
idle at RUN, the cycle starts: the line clock is written to LINE_CLOCK_AT_CYCLE, and the first entry's exchange begins with
its preparation and poll. At LOOPBACK the whole cycle is answered inside the part, entry by entry (R155; in one event: log
33). Before the expiry nothing happens. POLL_SENT opens the reply window; REPLY_START at or before its close makes the
controller receive, and after it does nothing (R148). -/
def Obligations.TheCycleFollowsTheTimerAndTheLine : Prop :=
  (∀ (dt d next : Clock) (s u : State), s.link.nextExpiry = some next → d = s.clock + dt - next →
    u = { s with
      clock := s.clock + dt,
      link := { s.link with
        nextExpiry := some (next + BitVec.ofNat 32 ((d.toNat / s.lineCopy.period + 1) * s.lineCopy.period)) } } →
    (2147483648 ≤ d.toNat → exec (.pollTimerExpiry dt) s = .next (s.tick dt).settled) ∧
    (d.toNat < 2147483648 → s.link.cycle ≠ none →
      exec (.pollTimerExpiry dt) s = .next (State.settled { u with link := { u.link with expiryWaiting := true } })) ∧
    (d.toNat < 2147483648 → s.link.cycle = none → s.level = .run →
      ∀ e rest, s.link.pollList = e :: rest →
        ∃ t, exec (.pollTimerExpiry dt) s = .next t ∧ t.cycleClock = s.clock + dt ∧
          t.link = { u.link with
            cycle := some { index := 0, phase := .sending, late := false }, txFrame := t.link.txFrame } ∧
          exmWord t 8 = (s.clock + dt).setWidth 16 ∧ exmWord t 10 = ((s.clock + dt) >>> 16).setWidth 16 ∧
          t.pins.linkDe = true ∧
          (e = .gauge → t.link.txFrame = pollGauge s.link.gauge.addr ∧ t.gap = s.gap) ∧
          (∀ k, e = .stand k →
            t.gap = (prepare k { u with cycleClock := s.clock + dt }).gap ∧
              t.link.txFrame = pollStand (s.link.stations.get k).addr (t.gap.get k))) ∧
    (d.toNat < 2147483648 → s.link.cycle = none → s.level = .loopback → s.link.pollList ≠ [] →
      exec (.pollTimerExpiry dt) s =
        .next (s.link.pollList.foldl loopbackExchange { u with cycleClock := s.clock + dt }).settled)) ∧
  ∀ (dt : Clock) (s : State) (c : Cycle) (e : PollEntry), ExchangeOpen s c e →
    (c.phase = .sending →
      exec (.pollSent dt) s = .next (State.settled { s with
        clock := s.clock + dt, link := { s.link with cycle := some { c with phase := .window (s.clock + dt) } } })) ∧
    (∀ opened, c.phase = .window opened →
      ((s.clock + dt - opened).toNat ≤ 30 * (s.lineCopy.timeoutCode + 1) →
        exec (.replyStart dt) s = .next (State.settled { s with
          clock := s.clock + dt, link := { s.link with cycle := some { c with phase := .receiving (s.clock + dt) } } })) ∧
      (30 * (s.lineCopy.timeoutCode + 1) < (s.clock + dt - opened).toNat →
        exec (.replyStart dt) s = .next (s.tick dt).settled))

/-- REPLY_WINDOW_CLOSE (R148, R151, R152, R154, R177): at the close, and not before it, the exchange ends with a miss: the
good run is 0 and the miss run one longer, up to 7; a PRESENT station whose miss run reaches the silent count is SILENT from
then on; the last reply contents, the estimates, the marks and the threading are as they were; a stand's image is written;
at a miss of the gauge a sample that has reached the age limit, twice the poll period, is held no more, and none is once the
gauge falls SILENT (R63); the next exchange begins. -/
def Obligations.WindowCloseIsAMiss : Prop :=
  ∀ (dt opened : Clock) (prepFirst falls : Bool) (s : State) (c : Cycle) (e : PollEntry), ExchangeOpen s c e →
    falls = decide ((s.station e).state = .present ∧ s.lineCopy.silentCount ≤ min ((s.station e).missRun + 1) 7) →
    (∀ k, e = .stand k → 1 ≤ k ∧ k ≤ 8) → c.phase = .window opened →
    ((s.clock + dt - opened).toNat < 30 * (s.lineCopy.timeoutCode + 1) →
      exec (.replyWindowClose dt prepFirst) s = .next (s.tick dt).settled) ∧
    (30 * (s.lineCopy.timeoutCode + 1) ≤ (s.clock + dt - opened).toNat →
      ∃ t, exec (.replyWindowClose dt prepFirst) s = .next t ∧ t.clock = s.clock + dt ∧ t.level = .run ∧
        t.est = s.est ∧ t.tracker = s.tracker ∧ t.store = s.store ∧ t.line = s.line ∧ NextPosition c s t ∧
        (t.station e).goodRun = 0 ∧ (t.station e).missRun = min ((s.station e).missRun + 1) 7 ∧
        (t.station e).state = (if falls then .silent else (s.station e).state) ∧
        (t.station e).silentSince = (if falls then s.clock + dt else (s.station e).silentSince) ∧
        t.gauge = (if e = .gauge then { s.gauge with
          silent := s.gauge.silent || falls,
          held := s.gauge.held && !falls && decide ((s.clock + dt - s.gauge.time).toNat < 2 * s.lineCopy.period) }
          else s.gauge) ∧
        (t.station e).prevTime = (s.station e).prevTime ∧ (t.station e).p = (s.station e).p ∧
        (t.station e).f = (s.station e).f ∧ (t.station e).flags = (s.station e).flags ∧
        (∀ e', e' ≠ e → t.station e' = s.station e') ∧
        (∀ k, e = .stand k → ImageWritten k c.late s t) ∧ (∀ k, e ≠ .stand k → t.images.get k = s.images.get k))

/-- REPLY_RECEIVED ends the exchange once the line has been idle for 2 µs, or 16 µs have passed since the reply began, and
before that does nothing but let time pass (R148; the latter: log 3). The next exchange, or a late cycle, begins then; the
reply has the time its frame ended (R150). A frame that is no valid reply, or was still arriving at 16 µs, is a miss. A
valid reply is recorded: the good run is one longer, up to 7, the miss run 0 and the contents replaced; a reply delivered,
from a station that is PRESENT after it, moves the previous time to this reply's; a stand's delivered reply forms its
estimate from P and F, writes its image and makes its stand ready; the gauge's VALID reply becomes the sample, and at one
with VALID clear, as at a miss of the gauge, a sample that has reached the age limit is held no more (R47, R62, R63, R133,
R150 to R154). That the command says how long the line has been idle, and may come later than 16 µs, is the model's choice
(log 38). -/
def Obligations.RepliesAreJudgedRecordedAndDelivered : Prop :=
  ∀ (dt began now ended : Clock) (age idle : Nat) (fr : List Byte) (fin : FrameEnd) (cut : Bool) (plan : List Work)
    (s : State) (c : Cycle) (e : PollEntry), ExchangeOpen s c e → (∀ k, e = .stand k → 1 ≤ k ∧ k ≤ 8) →
    c.phase = .receiving began → planOk plan = true → fin.ok = true →
    now = s.clock + dt → age = (now - began).toNat → idle = (match fin with | .idle n => n | .arriving => 0) →
    ended = now - BitVec.ofNat 32 idle → cut = decide (fin = .arriving ∨ 16 < age - idle) →
    (¬(fin = .idle 2 ∧ 2 ≤ age ∨ 16 ≤ age) → exec (.replyReceived dt fr fin plan) s = .next (s.tick dt).settled) ∧
    ((fin = .idle 2 ∧ 2 ≤ age ∨ 16 ≤ age) →
      let sampleKept := s.gauge.held && decide ((ended - s.gauge.time).toNat < 2 * s.lineCopy.period)
      ∃ t, exec (.replyReceived dt fr fin plan) s = .next t ∧ t.clock = now ∧ t.level = .run ∧
        t.line = s.line ∧ NextPosition c s t ∧ (∀ e', e' ≠ e → t.station e' = s.station e') ∧
        (∀ k, e = .stand k → ImageWritten k c.late s (t.atTime ended)) ∧
        (judge e (s.station e).addr fr cut = none → ∀ falls : Bool,
          falls = decide ((s.station e).state = .present ∧ s.lineCopy.silentCount ≤ min ((s.station e).missRun + 1) 7) →
          (t.station e).goodRun = 0 ∧ (t.station e).missRun = min ((s.station e).missRun + 1) 7 ∧
          (t.station e).state = (if falls then .silent else (s.station e).state) ∧
          (t.station e).silentSince = (if falls then ended else (s.station e).silentSince) ∧
          (t.station e).prevTime = (s.station e).prevTime ∧
          (t.station e).p = (s.station e).p ∧ (t.station e).f = (s.station e).f ∧
          (t.station e).flags = (s.station e).flags ∧ t.est = s.est ∧ t.tracker = s.tracker ∧
          t.gauge = (if e = .gauge then { s.gauge with
            silent := s.gauge.silent || falls, held := sampleKept && !falls } else s.gauge)) ∧
        (∀ k p f v flags, e = .stand k → judge e (s.station e).addr fr cut = some (.stand p f v flags) →
          (t.station e).goodRun = min ((s.station e).goodRun + 1) 7 ∧ (t.station e).missRun = 0 ∧
          (t.station e).p = p ∧ (t.station e).f = f ∧ (t.station e).v = v ∧ (t.station e).flags = flags ∧
          ((s.station e).state = .silent → min ((s.station e).goodRun + 1) 7 < s.lineCopy.rejoinCount →
            (t.station e).state = .silent ∧ (t.station e).prevTime = (s.station e).prevTime ∧ t.est = s.est ∧
              t.tracker = s.tracker) ∧
          ((s.station e).state ≠ .silent ∨ s.lineCopy.rejoinCount ≤ min ((s.station e).goodRun + 1) 7 →
            (t.station e).state = .present ∧ (t.station e).prevTime = some ended ∧
              (t.station e).vDelivered = min v 30000 ∧ EstimateFormed k p f s t ∧
              ((s.station e).state ≠ .present → t.trip.ready.get k = true))) ∧
        (∀ valid hx, e = .gauge → judge e (s.station e).addr fr cut = some (.gauge valid hx) →
          (t.station e).goodRun = min ((s.station e).goodRun + 1) 7 ∧ (t.station e).missRun = 0 ∧
          (t.station e).valid = valid ∧ (t.station e).hx = hx ∧ t.est = s.est ∧ t.tracker = s.tracker ∧
          ((s.station e).state = .silent → min ((s.station e).goodRun + 1) 7 < s.lineCopy.rejoinCount →
            (t.station e).state = .silent ∧ (t.station e).prevTime = (s.station e).prevTime ∧ t.gauge = s.gauge) ∧
          ((s.station e).state ≠ .silent ∨ s.lineCopy.rejoinCount ≤ min ((s.station e).goodRun + 1) 7 →
            (t.station e).state = .present ∧ (t.station e).prevTime = some ended ∧
            ((s.station e).state = .present → s.gauge.silent = false →
              t.gauge = (if valid then { s.gauge with held := true, hx := hx, time := ended }
                else { s.gauge with held := sampleKept })) ∧
            ((s.station e).state ≠ .present →
              t.gauge = (if valid then { s.gauge with silent := false, held := true, hx := hx, time := ended }
                else { s.gauge with silent := false, held := sampleKept })))))

/-- STATION_SILENT (R152): the miss that completes the silent count makes the station SILENT from this time on; the stand's
image is written; the gauge's sample goes. STATION_SILENT is journalled with the stand, or N + 1 and coil id 0 for the
gauge, the address, the miss run and the milliseconds since the previous time, 65,535 where there is none (log 22). A stand
that is not VACANT takes the cause STATION_SILENT with the time of the miss, and with it a matrix ends the moves of the
stand set with TRIP. At a VACANT stand the trip record stays, and a move in flight ends with STATION or the ABORTED detail
pending, a preset into HOLD at the base, a calibration into NONE; HOLD is kept (R119). That the command leaves the exchange
open, whose miss it reports (R148), is the model's choice (log 4). ELAPSED_SATURATED (R154): at an exchange that delivers
nothing, 100,000 µs or more after the previous time, elapsed saturated is set. That the command does that alone, with no
good or miss run, no image and no end of the exchange it belongs to (R151 to R153), is the model's choice too (log 4). -/
def Obligations.StationsFallSilent : Prop :=
  ∀ (dt now : Clock) (e : PollEntry) (s u : State), s.level = .run → e ∈ s.link.pollList →
    (∀ k, e = .stand k → 1 ≤ k ∧ k ≤ 8) → now = s.clock + dt →
    u = { s with journal := journalled [{
      kind := .stationSilent, stand := (match e with | .stand k => k | .gauge => s.n + 1), time := now,
      coil := (match e with | .stand k => (s.thread k).coil | .gauge => 0),
      v1 := BitVec.ofNat 16 (s.station e).addr, v2 := BitVec.ofNat 16 (min ((s.station e).missRun + 1) 7),
      v3 := (s.station e).prevTime.elim 65535 fun t => BitVec.ofNat 16 (min ((now - t).toNat / 1000) 65535) }] s } →
    ((s.station e).state = .present → s.lineCopy.silentCount ≤ min ((s.station e).missRun + 1) 7 →
      ∃ t, exec (.stationSilent dt e) s = .next t ∧ t.clock = now ∧ t.est = s.est ∧ t.tracker = s.tracker ∧
        t.link.cycle = s.link.cycle ∧ t.level = .run ∧ t.store = s.store ∧ t.line = s.line ∧
        t.station e = { s.station e with
          state := .silent, silentSince := now, goodRun := 0, missRun := min ((s.station e).missRun + 1) 7,
          saturated := (t.station e).saturated } ∧
        (∀ e', e' ≠ e → t.station e' = s.station e') ∧
        (e = .gauge → t.gauge = { s.gauge with silent := true, held := false } ∧ t.trip = s.trip ∧ t.gap = s.gap ∧
          t.exm = s.exm ∧ t.orders = s.orders ∧ t.images = s.images ∧ t.journal = u.journal) ∧
        (∀ k, e = .stand k → t.gauge = s.gauge ∧
          ImageWritten k ((s.link.cycle.map Cycle.late).getD false) s t ∧
          ((s.thread k).state ≠ .vacant →
            t.trip = (takeCause .stationSilent k now u).trip ∧ t.journal = (takeCause .stationSilent k now u).journal ∧
            ∀ m ks, s.trip.matrix = some m → k ≤ s.n → memoryOk s →
              ks = (match (m.getD (Cause.stationSilent.code - 1) {}).cascade with
                | .none => [k] | .upstream => standsTo k | .all => standsTo s.n) →
              MovesEnded ks 1 s t ∧ ∀ j, j ∉ ks → t.gap.get j = s.gap.get j) ∧
          ((s.thread k).state = .vacant → t.trip = s.trip ∧ t.journal = u.journal ∧
            ((s.gap.get k).move.inFlight = false → t.gap = s.gap ∧ t.exm = s.exm ∧ t.orders = s.orders) ∧
            ((s.gap.get k).move.inFlight = true →
              t.gap = s.gap.set k { s.gap.get k with
                move := match (s.gap.get k).move with | .preset .. => .hold (s.gap.get k).base | _ => .none } ∧
              ∀ q detail value, memoryOk s → s.orders.inFlight.get k = some q → abortedAs 6 k s = some (detail, value) →
                Retired q 2 detail value s t ∧ t.attention.getLsbD 0 = true ∧
                t.orders = { s.orders with inFlight := s.orders.inFlight.set k none })))) ∧
    exec (.elapsedSaturated dt e) s = .next ((s.tick dt).withStation e { s.station e with
      saturated := (s.station e).saturated ||
        (s.station e).prevTime.elim false fun t => decide (100000 ≤ (now - t).toNat) }).settled

/-- STATION_REJOINED (R152): the valid reply that completes the rejoin count makes the station PRESENT, and is delivered:
STATION_REJOINED is journalled first, with the stand and its coil, the address, the good run and the milliseconds since
silent since; the stand becomes ready and its estimate is formed from the reply; the gauge is no longer silent, a VALID
reply is its first sample, and its record gives N + 1 and coil id 0, which is the model's choice (log 45). That the command
leaves the exchange open, whose reply it reports (R148), is the model's choice (log 4). -/
def Obligations.SilentStationsRejoin : Prop :=
  ∀ (dt now : Clock) (e : PollEntry) (r : Reply) (plan : List Work) (s : State) (rejoined : JournalRecord),
    s.level = .run → e ∈ s.link.pollList →
    (∀ k, e = .stand k → 1 ≤ k ∧ k ≤ 8) → replyFits e r = true → (s.station e).state = .silent →
    s.lineCopy.rejoinCount ≤ min ((s.station e).goodRun + 1) 7 → planOk plan = true → now = s.clock + dt →
    rejoined = {
      kind := .stationRejoined, stand := (match e with | .stand k => k | .gauge => s.n + 1), time := now,
      coil := (match e with | .stand k => (s.thread k).coil | .gauge => 0),
      v1 := BitVec.ofNat 16 (s.station e).addr, v2 := BitVec.ofNat 16 (min ((s.station e).goodRun + 1) 7),
      v3 := BitVec.ofNat 16 (min ((now - (s.station e).silentSince).toNat / 1000) 65535) } →
    ∃ t, exec (.stationRejoined dt e r plan) s = .next t ∧ t.clock = now ∧ t.link.cycle = s.link.cycle ∧
      (t.station e).state = .present ∧ (t.station e).goodRun = min ((s.station e).goodRun + 1) 7 ∧
      (t.station e).missRun = 0 ∧ (t.station e).prevTime = some now ∧ (t.station e).saturated = false ∧
      (∀ e', e' ≠ e → t.station e' = s.station e') ∧
      (∃ rs, t.journal = journalled (rejoined :: rs) s ∧ (e = .gauge → rs = [])) ∧
      (∀ k p f v flags, e = .stand k → r = .stand p f v flags →
        t.trip.ready.get k = true ∧ EstimateFormed k p f s t ∧
          ImageWritten k ((s.link.cycle.map Cycle.late).getD false) s t) ∧
      (∀ valid hx, e = .gauge → r = .gauge valid hx → t.gauge.silent = false ∧ t.est = s.est ∧ t.tracker = s.tracker ∧
        (valid = true → t.gauge = { s.gauge with silent := false, held := true, hx := hx, time := now }))

/-- SAMPLE_EXPIRY (R63, R71): at RUN and at LOOPBACK a held sample whose age has reached the age limit, twice the poll
period, is held no more, and a younger one stays; at CONFIGURE and at HALT the gauge record stands as it is. That the
command makes the test alone, with nothing else of the gauge reply or miss that R63 makes it at, is the model's choice (log
4). -/
def Obligations.SamplesExpireAtTheAgeLimit : Prop :=
  ∀ (dt : Clock) (s : State),
    (s.level = .run ∨ s.level = .loopback → s.gauge.held = true →
      2 * s.lineCopy.period ≤ (s.clock + dt - s.gauge.time).toNat →
      exec (.sampleExpiry dt) s = .next (State.settled { s with
        clock := s.clock + dt, gauge := { s.gauge with held := false } })) ∧
    (s.level = .configure ∨ s.level = .halt ∨ s.gauge.held = false ∨
        (s.clock + dt - s.gauge.time).toNat < 2 * s.lineCopy.period →
      exec (.sampleExpiry dt) s = .next (s.tick dt).settled)

/-- The frame of every reply, from the station just polled, is judged to be that reply: every field at every value it can
take, and whatever its meaningless flag bits hold (R144, R145, R150, R193). A frame still arriving at the time limit, one
of another address, and one of another station's kind, are misses. -/
def Obligations.ReplyFramesAreReadAsSent : Prop :=
  ∀ (addr other spare k : Nat) (r : Reply), addr < 256 → other < 256 → r.ok = true →
    (∀ p f v flags, r = .stand p f v flags →
      judge (.stand k) addr (replyFrame addr spare r) false = some r ∧
        judge (.stand k) addr (replyFrame addr spare r) true = none ∧
        judge .gauge addr (replyFrame addr spare r) false = none) ∧
    (∀ valid hx, r = .gauge valid hx →
      judge .gauge addr (replyFrame addr spare r) false = some r ∧
        judge .gauge addr (replyFrame addr spare r) true = none ∧
        judge (.stand k) addr (replyFrame addr spare r) false = none) ∧
    (other ≠ addr → ∀ e, judge e other (replyFrame addr spare r) false = none)

/-! ### The strip -/

/-- Transport (R6, R7, R8) and the entry rule (R15, R16, R17). A first reply does not move the zone. Else its strip length
is the reply's travel in picometres with the carry, integer-divided by 1,000,000, and the remainder is the new carry. A zone
whose front mark stays short of the end moves every mark by that length, limited by the mark ahead of it, in order, and
nothing else changes. A front mark that reaches the end of zone k below N, with the overrun left: a BODY at a loaded stand
passes, with the stand's estimate as one more entry, at position 0, behind the next zone's marks, as the last mark passed,
with the FF of that stand, and the walk goes on with the mark behind it; any other is held, its excess grown by the overrun,
and everything behind it is limited by it. A HEAD that becomes held at a loaded stand raises COIL_OVERLAP; one whose excess
first passes the window at a stand that is not loaded raises MISSED_BITE; a TAIL late for the first time at a loaded stand
is journalled TAIL_LATE (log 15). A BODY that passes into a zone of no length has arrived there with overrun 0, and is held
at once where the stand after it is not loaded; where it could go on, it waits behind other marks, which is the model's
choice (log 16), and its going on from an empty zone is left out. -/
def Obligations.MarksAreCarriedWithTheStrip : Prop :=
  ∀ (k v : Nat) (s : State), 1 ≤ k ∧ k ≤ 8 →
    advanceZone k v none s = (s, 0) ∧
    ∀ (dt q dL carry : Nat),
      q = v * (1000 + (s.slotAt k).elim 0 (fun _ => (s.sched k).slip)) * min dt 100000 + s.tracker.carry.get k →
      dL = q / 1000000 → carry = q % 1000000 →
      (advanceZone k v (some dt) s).2 = dL ∧ (advanceZone k v (some dt) s).1.tracker.carry.get k = carry ∧
      (∀ m rest, s.zone k = m :: rest → m.pos + dL < s.zoneLen k →
        ∃ q', (advanceZone k v (some dt) s).1 = { s with tracker := { s.tracker with
            carry := s.tracker.carry.set k carry, zones := s.tracker.zones.set k q' } } ∧
          q'.length = (s.zone k).length ∧
          ∀ i (a : Mark), (s.zone k)[i]? = some a →
            ∃ b, q'[i]? = some b ∧ b = { a with pos := b.pos } ∧ (i = 0 → b.pos = a.pos + dL) ∧
              ∀ j c, j + 1 = i → q'[j]? = some c → b.pos = min (a.pos + dL) c.pos) ∧
      (∀ m rest u h d, s.zone k = m :: rest → k < s.n → s.zoneLen k ≤ m.pos + dL → m.kind = .body →
        s.loadedAt (k + 1) = true → m.thick.length = k →
        s.zone (k + 1) ≠ [] ∨ 0 < s.zoneLen (k + 1) ∨ k + 1 < s.n ∧ s.loadedAt (k + 2) = false →
        h = (s.est.get (k + 1)).hEst →
        d = (((s.scheduleOf m.tag).stands.get k).hTarget : Int) - m.thick.getLastD 0 →
        u = { s with
          gap := s.gap.set (k + 1) { s.gap.get (k + 1) with
            ff := limit (round256 (d * (s.sched (k + 1)).kff)) (s.sched (k + 1)).ffLim },
          tracker := { s.tracker with
            carry := s.tracker.carry.set k carry, lastPassed := s.tracker.lastPassed.set (k + 1) (some m.id),
            zones := (s.tracker.zones.set k rest).set (k + 1)
              (s.zone (k + 1) ++ [{ m with
                thick := m.thick ++ [h], pos := 0,
                hold := if s.zoneLen (k + 1) = 0 ∧ k + 1 < s.n ∧ s.loadedAt (k + 2) = false then some 0 else none }]) } } →
        (rest = [] → (advanceZone k v (some dt) s).1 = u) ∧
          (advanceZone k v (some dt) s).1 = advanceWalk (rest.length + 1) k dL u) ∧
      (∀ m rest excess grown, s.zone k = m :: rest → k < s.n → s.zoneLen k ≤ m.pos + dL →
        ¬(m.kind = .body ∧ s.loadedAt (k + 1) = true) → excess = m.hold.getD 0 →
        grown = min (excess + (m.pos + dL - s.zoneLen k)) 4294967295 →
        ∀ (late overlaps missed : Bool) (w : State),
          late = decide (m.kind = .tail ∧ s.loadedAt (k + 1) = true ∧ m.lateReported = false ∧ excess < grown ∧
            s.lineCopy.wLate * 1000 < grown) →
          overlaps = decide (m.kind = .head ∧ s.loadedAt (k + 1) = true ∧ m.hold = none) →
          missed = decide (m.kind = .head ∧ s.loadedAt (k + 1) = false ∧ excess ≤ s.lineCopy.wLate * 1000 ∧
            s.lineCopy.wLate * 1000 < grown) →
          w = (if late then note .tailLate (k + 1) s.clock m.coil m.id (sat16 (grown / 1000)) 0 s else s) →
          ∃ b rest', (advanceZone k v (some dt) s).1 = { w with tracker := { s.tracker with
              carry := s.tracker.carry.set k carry, zones := s.tracker.zones.set k (b :: rest'),
              raised := s.tracker.raised ++ (if overlaps then [(.coilOverlap, k + 1)] else []) ++
                (if missed then [(.missedBite, k + 1)] else []) } } ∧
            b = { m with pos := s.zoneLen k, hold := some grown, lateReported := m.lateReported || late } ∧
            rest'.length = rest.length ∧
            ∀ i (a : Mark), rest[i]? = some a →
              ∃ c, rest'[i]? = some c ∧ c = { a with pos := c.pos } ∧
                (i = 0 → c.pos = min (a.pos + dL) (s.zoneLen k)) ∧
                ∀ j d, j + 1 = i → rest'[j]? = some d → c.pos = min (a.pos + dL) d.pos)

/-- A mark that reaches the end of the gauge zone leaves it, and the walk goes on with the mark behind it (R20). It is
paired while the gauge is not silent and a sample younger than the age limit is held (R64); a HEAD restarts the tally (R65);
a paired HEAD or BODY brings its MON update; a paired mark is out where the sample lies more than the tolerance from the
target of its slot, and a change of the tolerance state is journalled GAUGE_OUT or GAUGE_BACK (R67); MARK_GAUGED is
journalled for a paired mark where the journal options ask for it (R68); the mark is counted, each count stopping at 65,535;
a TAIL is journalled COIL_GAUGED with the counts, which it then clears (R69). The mark leaves the queue, the empty-spell
flag is clear, and a DRAINING slot whose last mark it was is freed (R20). -/
def Obligations.DepartingMarksArePairedAndCounted : Prop :=
  (∀ (k v dt q : Nat) (s : State) (m : Mark) (rest : List Mark), 1 ≤ k ∧ k ≤ 8 → k = s.n → s.zone k = m :: rest →
    q = v * (1000 + (s.slotAt k).elim 0 (fun _ => (s.sched k).slip)) * min dt 100000 + s.tracker.carry.get k →
    s.zoneLen k ≤ m.pos + q / 1000000 →
    (advanceZone k v (some dt) s).1 = advanceWalk (rest.length + 1) k (q / 1000000)
      (departMark k m rest { s with tracker := { s.tracker with carry := s.tracker.carry.set k (q % 1000000) } })) ∧
  ∀ (k target p u o : Nat) (paired out tail : Bool) (m : Mark) (rest : List Mark) (s t r1 r2 r3 : State),
    1 ≤ k ∧ k ≤ 8 → k = s.n → s.zone k = m :: rest →
    paired = decide (s.gauge.silent = false ∧ s.gauge.held = true ∧
      (s.clock - s.gauge.time).toNat < 2 * s.lineCopy.period) →
    target = ((s.scheduleOf m.tag).stands.get k).hTarget →
    out = decide ((s.scheduleOf m.tag).tol < ((s.gauge.hx : Int) - target).natAbs) → tail = decide (m.kind = .tail) →
    r1 = (if paired = true ∧ out ≠ s.gauge.out then
      note (if out then .gaugeOut else .gaugeBack) k s.clock m.coil m.id (sat16 s.gauge.hx) (BitVec.ofNat 16 target) s
      else s) →
    r2 = (if paired = true ∧ s.lineCopy.options % 2 = 1 then
      note .markGauged k s.clock m.coil m.id (sat16 s.gauge.hx) (sat16 (m.thick.getD (k - 1) 0)) r1 else r1) →
    p = min ((if m.kind = .head then 0 else s.gauge.paired) + if paired then 1 else 0) 65535 →
    u = min ((if m.kind = .head then 0 else s.gauge.unpaired) + if paired then 0 else 1) 65535 →
    o = min ((if m.kind = .head then 0 else s.gauge.outCount) + if paired = true ∧ out = true then 1 else 0) 65535 →
    r3 = (if tail then note .coilGauged k s.clock m.coil (sat16 p) (sat16 u) (sat16 o) r2 else r2) →
    t = { r3 with
      gap := (if paired = true ∧ tail = false then monUpdate m s else s).gap,
      gauge := { s.gauge with
        out := if paired then out else s.gauge.out, paired := if tail then 0 else p,
        unpaired := if tail then 0 else u, outCount := if tail then 0 else o },
      tracker := { s.tracker with zones := s.tracker.zones.set k rest, emptySpell := false } } →
    (∀ x, m.tag = some x → (s.store.slot x).state = .draining →
      (∀ j ∈ standNumbers, ∀ y ∈ t.zone j, y.tag ≠ some x) →
      departMark k m rest s =
        (note .slotFreed 0 s.clock (s.store.slot x).coil (BitVec.ofNat 16 x.code) 2 0 t).withSlot x {}) ∧
    ((∀ x, m.tag = some x → (s.store.slot x).state = .draining →
        ∃ j ∈ standNumbers, ∃ y ∈ t.zone j, y.tag = some x) →
      departMark k m rest s = t)

/-- BODY_CUT (R9, R12, R14): where a strip length brings the count to 0 or below, as many segments end as bring the count
back to 1 or more: with room in the pool, and room to stand in zone 1, each gives a BODY at its overshoot, limited by the
mark ahead, with the next id, the coil and slot of stand 1 and its estimate; the summary is rewritten. With the pool empty
no mark is cut, POOL_EMPTY is journalled once in a spell, and the generator goes on as if they had been. The command stands
for the cut alone: a strip length that leaves the count above 0 makes no cut, and then the command only passes time and does
not take the length off the count. That is the model's choice (log 3, log 4); R12's decrement at a reply is stated of the
reply's work (`DeliveredRepliesDoTheBlocksWork`). Where the station of stand 1 is SILENT or UNKNOWN no reply is delivered (R153),
and there is no cut. -/
def Obligations.BodyCutsFollowTheGenerator : Prop :=
  (∀ (dt : Clock) (dL : Nat) (s : State), (s.link.stations.get 1).state ≠ .present →
    exec (.bodyCut dt dL) s = .next (s.tick dt).settled) ∧
  ∀ (dt : Clock) (dL n : Nat) (left : Int) (s : State) (g : Generator), s.level = .run → s.trip.latch = false →
    (s.link.stations.get 1).state = .present →
    s.tracker.raised = [] → s.tracker.gen = g → g.running = true → 0 < g.base → left = g.count - dL →
    n = (-left).toNat / g.base + 1 →
    (0 < left → exec (.bodyCut dt dL) s = .next (s.tick dt).settled) ∧
    (left ≤ 0 → 1 ≤ left + n * g.base ∧ left + n * g.base ≤ g.base ∧
      (∀ cap, s.marksQueued + n ≤ 256 →
        ((∃ q b, s.zone 1 = q ++ [b] ∧ cap = b.pos) ∨ s.zone 1 = [] ∧ cap = s.zoneLen 1 ∧ -left < cap) →
        ∃ t, exec (.bodyCut dt dL) s = .next t ∧ SummaryWritten s t ∧ t = State.settled { s with
          clock := s.clock + dt, summary := t.summary,
          tracker := { s.tracker with
            gen := { g with count := left + n * g.base }, nextId := s.tracker.nextId + BitVec.ofNat 16 n,
            lastPassed := s.tracker.lastPassed.set 1 (some (s.tracker.nextId + BitVec.ofNat 16 (n - 1))),
            zones := s.tracker.zones.set 1 (s.zone 1 ++ (List.range n).map fun i =>
              { id := s.tracker.nextId + BitVec.ofNat 16 i, coil := (s.thread 1).coil, tag := s.slotAt 1, kind := .body,
                pos := min ((-left).toNat - i * g.base) cap, thick := [(s.est.get 1).hEst] }) } }) ∧
      (s.marksQueued = 256 →
        ∃ t w, exec (.bodyCut dt dL) s = .next t ∧
          w = (if s.tracker.emptySpell then s
            else note .poolEmpty 1 (s.clock + dt) (s.thread 1).coil 2 0 0 s) ∧
          t = State.settled { w with
            clock := s.clock + dt, summary := t.summary,
            tracker := { s.tracker with gen := { g with count := left + n * g.base }, emptySpell := true } }))

/-- LOAD_ON at stand 1 (R11, R14, R27, R28, R30, R33): the reply whose force completes the on run of a VACANT or EXPECTING
stand 1 makes it BITING, with both runs and the lock count 0; the coil and H0 are those announced, or 0 for a VACANT stand;
with a free record a HEAD is cut into zone 1 at position 0 and stands 2 to N hold its coil as head notice, and without one
POOL_EMPTY is journalled once in a spell; the generator is loaded; BITE is journalled, and UNANNOUNCED_BITE after it at a
VACANT stand; the band is HELD; a VACANT stand's HOLD ends and every closing calibration turns to opening. Nothing else
changes. Should zone 1 have no length, the HEAD has arrived with overrun 0: it is held at stand 2, which takes COIL_OVERLAP
where it is loaded; on a line of one stand it leaves at the gauge where it is the front mark, and waits behind others there,
which is the model's choice (log 16). So is a bite without the rest of the reply (log 4). Where the station
of stand 1 is SILENT the stand keeps its record (R43), and where it is UNKNOWN it confirms no load-on (R152). -/
def Obligations.LoadOnBitesAtStandOne : Prop :=
  (∀ (dt : Clock) (f : Nat) (s : State), (s.link.stations.get 1).state ≠ .present →
    exec (.loadOn dt 1 f) s = .next (s.tick dt).settled) ∧
  ∀ (dt : Clock) (f h0 : Nat) (coil id h : Word) (free room ends : Bool) (s m0 m1 m2 : State), s.level = .run →
    (s.link.stations.get 1).state = .present →
    s.trip.latch = false → s.tracker.raised = [] → 1 ≤ s.n →
    free = decide ((s.thread 1).state = .vacant) → room = decide (s.marksQueued < 256) →
    ends = decide (room = true ∧ s.zoneLen 1 = 0 ∧ (s.zone 1 = [] ∨ 2 ≤ s.n)) →
    (s.thread 1).state = .vacant ∨ (s.thread 1).state = .expecting → (s.thread 1).headNotice = none →
    (s.thread 1).releaseNotice = false → (s.slotAt 1).isSome = true → (s.sched 1).fOn ≤ f →
    s.lineCopy.nDb ≤ min ((s.thread 1).onRun + 1) 4 →
    coil = (if free then 0 else (s.thread 1).coil) → h0 = (if free then 0 else (s.thread 1).h0) →
    h = sat16 (s.est.get 1).hEst → id = (if room then s.tracker.nextId else 0) →
    m0 = (if room = true ∨ s.tracker.emptySpell = true then s
      else note .poolEmpty 1 (s.clock + dt) coil 1 0 0 s) →
    m1 = note .bite 1 (s.clock + dt) coil h id (sat16 h0) m0 →
    m2 = (if free then note .unannouncedBite 1 (s.clock + dt) 0 h id 0 m1 else m1) →
    let th := { s.thread 1 with
      state := .biting, coil := coil, h0 := h0, onRun := 0, offRun := 0, lockCount := 0, lockMade := false }
    let gen : Generator :=
      { running := true, base := s.lineCopy.segLen * 1000, count := (s.lineCopy.segLen * 1000 : Nat) }
    (ends = false ∨ 2 ≤ s.n → ∃ t v,
      exec (.loadOn dt 1 f) s = .next t ∧
      t = State.settled
        (if ends = true ∧ (s.thread 2).state.loaded = true then takeCause .coilOverlap 2 (s.clock + dt) v else v) ∧
      (room = true ∨ s.tracker.gen.running = false → SummaryWritten s v) ∧
      v = { s with
        clock := s.clock + dt, summary := v.summary, journal := m2.journal, attention := m2.attention,
        est := s.est.set 1 { s.est.get 1 with mode := .held }, gap := v.gap,
        tracker := { s.tracker with
          gen := gen,
          emptySpell := s.tracker.emptySpell || !room, nextId := if room then s.tracker.nextId + 1 else s.tracker.nextId,
          lastPassed := if room then s.tracker.lastPassed.set 1 (some id) else s.tracker.lastPassed,
          zones := if room then s.tracker.zones.set 1 (s.zone 1 ++
              [{ id := id, coil := coil, tag := s.slotAt 1, kind := .head, pos := 0, thick := [(s.est.get 1).hEst],
                 hold := if ends then some 0 else none }])
            else s.tracker.zones,
          threading := v.tracker.threading } } ∧
      v.thread 1 = th ∧
      (∀ j ∈ standNumbers, j ≠ 1 → v.thread j = { s.thread j with
        headNotice := if room = true ∧ j ≤ s.n then some ((s.thread j).headNotice.getD coil)
          else (s.thread j).headNotice }) ∧
      ∀ j ∈ standNumbers, v.gap.get j = { s.gap.get j with
        move := if free then (match (s.gap.get j).move with
            | .hold x => if j = 1 then Move.none else .hold x
            | .calClose st sb _ z0 => .calOpen st sb (.aborted .equipment) z0
            | m => m)
          else (s.gap.get j).move }) ∧
    (ends = true → s.n = 1 →
      ∃ t, exec (.loadOn dt 1 f) s = .next t ∧ t.zone 1 = [] ∧ t.tracker.gen = gen ∧ t.thread 1 = th ∧
        t.tracker.nextId = s.tracker.nextId + 1 ∧ t.tracker.lastPassed = s.tracker.lastPassed.set 1 (some id) ∧
        t.gauge.paired + t.gauge.unpaired = 1 ∧ (t.est.get 1).mode = .held)

/-- LOAD_ON at stand k of 2 or more (R18, R30, R34, R35, R74). An EXPECTING stand, also a VACANT one that takes a head
notice at this reply, with a HEAD at the front of the zone before it, held or within W_early of the end, bites: the HEAD
passes with the stand's estimate, and gives the stand its coil; the BODYs piled at the end behind it pass in the same way;
the last that passed leaves its FF; a TAIL or HEAD that then stands at the end is held with overrun 0, and COIL_OVERLAP is
taken for a HEAD that was not held; the stand is BITING, or TAILING where a TAIL is left in that zone; TRACK_CORRECTED for a
HEAD that was not held, and BITE, are journalled; the band is HELD. An EXPECTING stand without such a front mark, and a
VACANT stand with no head notice, keep their state, and UNEXPECTED_LOAD is raised. In a zone k of no length below N each
mark that passes has arrived with overrun 0: it is held, and COIL_OVERLAP is taken for the HEAD where stand k+1 is loaded; a
BODY that could pass there waits behind the HEAD, as any mark behind others in a gauge zone of no length waits, which is the
model's choice (log 16). So is a load-on without the rest of the reply (log 4). Where the stand's station is SILENT the
stand keeps its record (R43), and where it is UNKNOWN it confirms no load-on (R152). -/
def Obligations.LoadOnBitesOrTripsDownstream : Prop :=
  (∀ (dt : Clock) (k f : Nat) (s : State), (s.link.stations.get k).state ≠ .present →
    exec (.loadOn dt k f) s = .next (s.tick dt).settled) ∧
  ∀ (dt : Clock) (k f : Nat) (s u : State) (th : Threading) (notice : Option Word), s.level = .run →
    (s.link.stations.get k).state = .present →
    s.trip.latch = false → s.tracker.raised = [] → s.n ≤ 8 → 2 ≤ k → k ≤ s.n → (s.slotAt k).isSome = true →
    (s.sched k).fOn ≤ f → s.lineCopy.nDb ≤ min ((s.thread k).onRun + 1) 4 →
    notice = (if (s.thread k).state = .vacant then (s.thread k).headNotice else none) →
    th = { s.thread k with
      onRun := 0, offRun := 0, releaseNotice := false, headNotice := none,
      state := if notice.isSome then .expecting else (s.thread k).state, coil := notice.getD (s.thread k).coil } →
    u = { s with
      clock := s.clock + dt, tracker := { s.tracker with threading := s.tracker.threading.set k th },
      gap := s.gap.set k { s.gap.get k with
        move := if notice.isSome then (match (s.gap.get k).move with | .hold _ => .none | x => x)
          else (s.gap.get k).move } } →
    (∀ (m : Mark) (bs rs left : List Mark) (h : Nat) (d : Int) (overlaps ends : Bool), th.state = .expecting →
      s.zone (k - 1) = m :: (bs ++ rs) → m.kind = .head → m.thick.length = k - 1 →
      m.hold.isSome = true ∨ s.zoneLen (k - 1) - m.pos ≤ s.lineCopy.wEarly * 1000 →
      (∀ b ∈ bs, b.kind = .body ∧ b.pos = s.zoneLen (k - 1) ∧ b.thick.length = k - 1) →
      (∀ x r, rs = x :: r → x.pos = s.zoneLen (k - 1) → x.kind ≠ .body) →
      k < s.n ∨ s.zone k ≠ [] ∨ 0 < s.zoneLen k → ends = decide (k < s.n ∧ s.zoneLen k = 0) →
      h = (s.est.get k).hEst →
      d = (((s.scheduleOf (bs.getLastD m).tag).stands.get (k - 1)).hTarget : Int) - (bs.getLastD m).thick.getLastD 0 →
      left = (rs.take 1).map (fun x =>
        if x.pos = s.zoneLen (k - 1) then { x with hold := some (min (x.hold.getD 0) 4294967295) } else x)
        ++ rs.drop 1 →
      overlaps = decide (∃ x ∈ rs.take 1, x.pos = s.zoneLen (k - 1) ∧ x.kind = .head ∧ x.hold = none) →
      ∃ t w v x, exec (.loadOn dt k f) s = .next t ∧
        x = (if ends = true ∧ (s.thread (k + 1)).state.loaded = true then takeCause .coilOverlap (k + 1) u.clock v else v) ∧
        t = State.settled (if overlaps then takeCause .coilOverlap k u.clock x else x) ∧ SummaryWritten s v ∧
        w = note .bite k u.clock m.coil (sat16 h) m.id (sat16 (m.hold.getD 0 / 1000))
          (if m.hold.isSome then u else note .trackCorrected k u.clock m.coil m.id 1
            (sat16 (s.zoneLen (k - 1) - m.pos)) u) ∧
        v = { w with
          summary := v.summary, est := s.est.set k { s.est.get k with mode := .held },
          gap := u.gap.set k { u.gap.get k with ff := limit (round256 (d * (s.sched k).kff)) (s.sched k).ffLim },
          tracker := { s.tracker with
            zones := (s.tracker.zones.set (k - 1) left).set k
              (s.zone k ++ (m :: bs).map fun x => { x with
                thick := x.thick ++ [h], pos := 0,
                hold := if ends = true ∧ (x.kind = .head ∨ (s.thread (k + 1)).state.loaded = false) then some 0 else none }),
            lastPassed := s.tracker.lastPassed.set k (some (bs.getLastD m).id),
            threading := s.tracker.threading.set k
              { th with
                state := if rs.any (·.kind == .tail) then .tailing else .biting, coil := m.coil, lockCount := 0,
                lockMade := false } } }) ∧
    (th.state = .expecting ∧ (∀ m rest, s.zone (k - 1) = m :: rest →
          m.kind ≠ .head ∨ m.hold = none ∧ s.lineCopy.wEarly * 1000 < s.zoneLen (k - 1) - m.pos) ∨
        th.state = .vacant →
      exec (.loadOn dt k f) s = .next (takeCause .unexpectedLoad k u.clock u).settled)

/-- LOAD_OFF (R13, R14, R19, R28, R30, R37 to R41). Stand 1 is VACANT with no coil; with a free record a TAIL is cut into
zone 1 at position 0, and the generator stops. Stand k of 2 or more that is TAILING, also one BITING or ROLLING that takes a
release notice at this reply, with a TAIL at the front of the zone before it, held or within W_early of the end, lets it
pass, and is VACANT, or EXPECTING the coil nearest upstream; a mark behind the TAIL that stands at the end is held with
overrun 0, as the TAIL itself is in a zone k of no length below N. Either has its runs and lock count 0, FF, AGC and h_lock
0, the band LOOKUP, a pending table applied, and the stand after it given a release notice; the last record is RELEASE. A
TAILING stand without such a front mark, and one BITING or ROLLING with no release notice, keep their state, and LOAD_LOSS
is raised. The model's choices in it: a TAIL cut into a zone 1 of no length arrives at the next advance (log 29); one that
passes behind others into a gauge zone of no length waits its turn (log 16); a load-off without the rest of the reply (log
4). Where the stand's station is SILENT the stand keeps its record (R43), and where it is UNKNOWN no reply reaches it
(R153). -/
def Obligations.LoadOffReleasesOrTrips : Prop :=
  (∀ (dt : Clock) (k f : Nat) (s : State), (s.link.stations.get k).state ≠ .present →
    exec (.loadOff dt k f) s = .next (s.tick dt).settled) ∧
  ∀ (dt : Clock) (k f : Nat) (s u : State) (th : Threading) (tail : Mark), s.level = .run → s.trip.latch = false →
    (s.link.stations.get k).state = .present →
    s.tracker.raised = [] → s.n ≤ 8 → 1 ≤ k → k ≤ s.n → (s.slotAt k).isSome = true → f < (s.sched k).fOff →
    s.lineCopy.nDb ≤ min ((s.thread k).offRun + 1) 4 →
    tail = { id := s.tracker.nextId, coil := (s.thread 1).coil, tag := s.slotAt 1, kind := .tail, pos := 0,
             thick := [(s.est.get 1).hEst] } →
    th = { s.thread k with
      onRun := 0, offRun := 0, releaseNotice := false, headNotice := none,
      state := if (s.thread k).releaseNotice = true ∧ ((s.thread k).state = .biting ∨ (s.thread k).state = .rolling)
        then .tailing else (s.thread k).state } →
    u = { s with
      clock := s.clock + dt, tracker := { s.tracker with threading := s.tracker.threading.set k th } } →
    (∀ (zones : PerStand (List Mark)) (after : ThreadState) (coil id : Word) (rest : List Mark),
      (k = 1 ∧ (s.thread 1).state.loaded = true ∧ after = .vacant ∧ coil = 0 ∧
          id = (if s.marksQueued < 256 then s.tracker.nextId else 0) ∧
          zones = (if s.marksQueued < 256 then s.tracker.zones.set 1 (s.zone 1 ++ [tail]) else s.tracker.zones) ∨
        2 ≤ k ∧ th.state = .tailing ∧ (k < s.n ∨ s.zone k ≠ [] ∨ 0 < s.zoneLen k) ∧
          (∃ m, s.zone (k - 1) = m :: rest ∧ m.kind = .tail ∧ id = m.id ∧
            (m.hold.isSome = true ∨ s.zoneLen (k - 1) - m.pos ≤ s.lineCopy.wEarly * 1000) ∧
            zones = (s.tracker.zones.set (k - 1) ((rest.take 1).map (fun x =>
                if x.pos = s.zoneLen (k - 1) then { x with hold := some (min (x.hold.getD 0) 4294967295) } else x)
                ++ rest.drop 1)).set k
              (s.zone k ++ [{ m with
                thick := m.thick ++ [(s.est.get k).hEst], pos := 0,
                hold := if k < s.n ∧ s.zoneLen k = 0 then some 0 else none }])) ∧
          ((∃ j q x r, 1 ≤ j ∧ j < k ∧ (if j = k - 1 then rest else s.zone j) = q ++ x :: r ∧ x.kind = .head ∧
              (∀ y ∈ q, y.kind ≠ .head) ∧
              (∀ i, j < i → i < k → ∀ y ∈ if i = k - 1 then rest else s.zone i, y.kind ≠ .head) ∧
              after = .expecting ∧ coil = x.coil) ∨
            (∀ i, 1 ≤ i → i < k → ∀ y ∈ if i = k - 1 then rest else s.zone i, y.kind ≠ .head) ∧
              ((s.thread 1).state ∈ [ThreadState.expecting, .biting, .rolling] ∧ after = .expecting ∧
                  coil = (s.thread 1).coil ∨
                (s.thread 1).state ∉ [ThreadState.expecting, .biting, .rolling] ∧ after = .vacant ∧ coil = 0))) →
      ∃ t, exec (.loadOff dt k f) s = .next t ∧
        t = State.settled { s with
          clock := s.clock + dt, summary := t.summary, journal := t.journal, attention := t.attention, est := t.est,
          gap := t.gap, store := t.store, tracker := t.tracker } ∧
        (∃ w, t.journal = (note .release k (s.clock + dt) (s.thread k).coil (sat16 (s.est.get k).hEst) id
          (if after = .vacant then 1 else 2) w).journal) ∧
        t.tracker.zones = zones ∧ t.tracker.raised = [] ∧ t.tracker.carry = s.tracker.carry ∧
        t.tracker.lastPassed = (if k = 1 ∧ 256 ≤ s.marksQueued then s.tracker.lastPassed
          else s.tracker.lastPassed.set k (some id)) ∧
        (k = 1 → t.tracker.gen = { s.tracker.gen with running := false }) ∧ (k ≠ 1 → t.tracker.gen = s.tracker.gen) ∧
        t.thread k = { th with
          state := after, coil := coil, h0 := if k = 1 then 0 else th.h0, lockCount := 0, lockMade := false } ∧
        (∀ j ∈ standNumbers, j ≠ k → t.thread j = { s.thread j with
          releaseNotice := (s.thread j).releaseNotice || decide (j = k + 1 ∧ j ≤ s.n) }) ∧
        t.est = s.est.set k { s.est.get k with
          mode := .lookup, pendingTable := none, table := ((s.est.get k).pendingTable <|> (s.est.get k).table) } ∧
        (t.gap.get k).ff = 0 ∧ (t.gap.get k).agc = 0 ∧ (t.gap.get k).hLock = 0 ∧
        (t.gap.get k).base = (s.gap.get k).base ∧ (∀ j ∈ standNumbers, j ≠ k → t.gap.get j = s.gap.get j) ∧
        (∀ j ∈ standNumbers, t.slotAt j = if j = k ∧ s.store.slotA.state ≠ .free ∧ s.store.slotB.state ≠ .free ∧
            s.slotAt k = s.store.lastLoaded.map Slot.other ∧ (k = 1 ∨ s.slotAt (k - 1) = s.store.lastLoaded)
          then s.store.lastLoaded else s.slotAt j)) ∧
    (2 ≤ k → th.state = .tailing ∧ (∀ m rest, s.zone (k - 1) = m :: rest →
          m.kind ≠ .tail ∨ m.hold = none ∧ s.lineCopy.wEarly * 1000 < s.zoneLen (k - 1) - m.pos) ∨
        th.state = .biting ∨ th.state = .rolling →
      exec (.loadOff dt k f) s = .next (takeCause .loadLoss k u.clock u).settled)

/-- LOCK_ON (R29, R36, R77): at a reply that confirms no load-off, the lock count of a BITING stand, or of a TAILING one
whose lock is not made, grows by 1; where it reaches N_lock the lock is made and h_lock captured as the stand's estimate; a
BITING stand is ROLLING, or TAILING where a release notice was pending. That the command does the threading work alone,
captures the estimate as it stands, and leaves the estimate, exchange and AGC of the reply it belongs to, is the model's
choice (log 4). Where the stand's station is SILENT the stand keeps its record (R43), and where it is UNKNOWN no reply reaches
it (R153). -/
def Obligations.LockOnCapturesTheThickness : Prop :=
  (∀ (dt : Clock) (k f : Nat) (s : State), (s.link.stations.get k).state ≠ .present →
    exec (.lockOn dt k f) s = .next (s.tick dt).settled) ∧
  ∀ (dt : Clock) (k f on off : Nat) (s : State), s.level = .run → s.trip.latch = false → s.tracker.raised = [] →
    (s.link.stations.get k).state = .present →
    s.n ≤ 8 → 1 ≤ k → k ≤ s.n → (s.thread k).state = .biting ∨ (s.thread k).state = .tailing →
    (s.thread k).lockMade = false → (s.sched k).nLock ≤ (s.thread k).lockCount + 1 →
    on = (if (s.slotAt k).isSome = true ∧ (s.sched k).fOn ≤ f then min ((s.thread k).onRun + 1) 4 else 0) →
    off = (if (s.slotAt k).isSome = true ∧ f < (s.sched k).fOff then min ((s.thread k).offRun + 1) 4 else 0) →
    off < s.lineCopy.nDb →
    exec (.lockOn dt k f) s = .next (State.settled { s with
      clock := s.clock + dt, gap := s.gap.set k { s.gap.get k with hLock := (s.est.get k).hEst },
      tracker := { s.tracker with threading := s.tracker.threading.set k { s.thread k with
        onRun := on, offRun := off, releaseNotice := false, headNotice := none, lockMade := true,
        lockCount := (s.thread k).lockCount + 1,
        state := if (s.thread k).state = .biting ∧ (s.thread k).releaseNotice = false then .rolling else .tailing } } })

/-! ### Thickness, references and moves -/

/-- The ends of a move. The third reply within the tolerance completes a preset with its gap and leaves HOLD at the target,
or NONE once the stand has left VACANT (R112). The second reply at the calibration force finds the zero: Z is its position,
ZST the stretch of that force, and the base 0 (R54, R115). A calibration retires when the gap has come within 200 µm of
S_open, with its pending outcome and the change of Z (R116). At T_move every move in flight ends, with TIMEOUT or the
ABORTED detail pending (R117). The model's choices in it: each of the four commands ends, or turns, its move alone, with
nothing else of the reply or the preparation that it belongs to, so that MOVE_TIMEOUT makes no preparation (log 4); a
position above 250,000 is recorded as Z unclamped (log 46). Where no reply of the stand's station is delivered, at CONFIGURE and
HALT or with the station SILENT or UNKNOWN (R153, R156), the three ends by a reply do not come, and where no poll is prepared,
at CONFIGURE and HALT, neither does the fourth. -/
def Obligations.MovesEndAsTheirRulesSay : Prop :=
  (∀ (dt : Clock) (k p f : Nat) (g : Int) (s : State),
    (s.level ≠ .run ∧ s.level ≠ .loopback ∨ (s.link.stations.get k).state ≠ .present →
      ∀ i ∈ [Instr.presetComplete dt k g, .zeroFound dt k p f, .calibrationRetire dt k g],
        exec i s = .next (s.tick dt).settled) ∧
    (s.level ≠ .run → s.level ≠ .loopback → exec (.moveTimeout dt k) s = .next (s.tick dt).settled)) ∧
  ∀ (dt : Clock) (k q : Nat) (s : State), memoryOk s → 1 ≤ k ∧ k ≤ 8 → s.orders.inFlight.get k = some q →
    s.level = .run ∨ s.level = .loopback →
    let ends := fun (cls detail : Nat) (value : Word) (m : Move) (t : State) =>
      ∃ x, Retired q cls detail value s { s with exm := x } ∧ t = State.settled { s with
        clock := s.clock + dt, exm := x, attention := s.attention ||| 1,
        orders := { s.orders with inFlight := s.orders.inFlight.set k none },
        gap := s.gap.set k { s.gap.get k with move := m } }
    let change := fun z0 : Nat =>
      BitVec.ofInt 16 (max (-32767) (min 32767 (((s.est.get k).z : Int) - z0)))
    (∀ target tol st run g, (s.link.stations.get k).state = .present →
        (s.gap.get k).move = .preset target tol st run → (g - target).natAbs ≤ tol → 2 ≤ run →
      ∃ t, exec (.presetComplete dt k g) s = .next t ∧
        ends 1 0 (BitVec.ofInt 16 (max (-32768) (min 32767 g)))
          (if (s.thread k).state = .vacant then .hold target else .none) t) ∧
    (∀ st sb run z0 p f, (s.link.stations.get k).state = .present →
        (s.gap.get k).move = .calClose st sb run z0 → s.lineCopy.fCal ≤ f → 1 ≤ run →
      exec (.zeroFound dt k p f) s = .next (State.settled { s with
        clock := s.clock + dt,
        est := s.est.set k { s.est.get k with
          z := p,
          zst := min (stretchOf ((s.est.get k).table.getD {}) (plainLookup ((s.est.get k).table.getD {}) s.lineCopy.fCal)
            s.lineCopy.fCal) 20000 },
        gap := s.gap.set k { s.gap.get k with base := 0, move := .calOpen st sb .completed z0 } })) ∧
    (∀ st sb pending z0 g, (s.link.stations.get k).state = .present →
        (s.gap.get k).move = .calOpen st sb pending z0 → (s.lineCopy.sOpen : Int) - 200 ≤ g →
      ∃ t, exec (.calibrationRetire dt k g) s = .next t ∧
        (pending = .completed → ends 1 0 (change z0) .none t) ∧
        ∀ d, pending = .aborted d → ends 2 d.code (change z0) .none t) ∧
    (∀ target tol st run, (s.gap.get k).move = .preset target tol st run →
      s.lineCopy.tMove ≤ (s.clock + dt - st).toNat →
      ∃ t, exec (.moveTimeout dt k) s = .next t ∧
        ends 2 3 (BitVec.ofInt 16 (max (-32768) (min 32767 (s.est.get k).gapAct)))
          (if (s.thread k).state = .vacant then .hold (s.gap.get k).base else .none) t) ∧
    (∀ st sb run z0, (s.gap.get k).move = .calClose st sb run z0 → s.lineCopy.tMove ≤ (s.clock + dt - st).toNat →
      ∃ t, exec (.moveTimeout dt k) s = .next t ∧ ends 2 3 (change z0) .none t) ∧
    ∀ st sb pending z0, (s.gap.get k).move = .calOpen st sb pending z0 → s.lineCopy.tMove ≤ (s.clock + dt - st).toNat →
      ∃ t, exec (.moveTimeout dt k) s = .next t ∧
        ends 2 (match pending with | .aborted d => d.code | _ => 3) (change z0) .none t

/-- The estimate of a reply (R47, R49 to R52): position, force and gap recorded; in LOOKUP the largest band whose boundary
the force reaches; in HELD, with a valid table, the band moved up to the largest whose boundary plus TH the force reaches,
else down to the largest whose boundary it reaches where the force is below its own, else kept; the stretch to the nearest
micrometre, ties up; and gap plus stretch less ZST, clamped, with the indication set exactly where the clamp acts. Every
other field stays, and so does every other record. The stand image publishes them. -/
def Obligations.EstimatesFollowBandAndStretch : Prop :=
  ∀ (k p f : Nat) (s : State) (tab : ModulusTable) (e r : Estimate), 1 ≤ k ∧ k ≤ 8 → e = s.est.get k →
    e.table = some tab → r = (estimateReply k p f s).est.get k →
    estimateReply k p f s = { s with est := s.est.set k r } ∧
    r = { e with
      p := p, f := f, gapAct := (p : Int) - e.z, band := r.band, stretch := r.stretch, hEst := r.hEst,
      clamped := r.clamped } ∧
    (e.mode = .lookup → r.band ≤ 7 ∧ tab.boundary r.band ≤ f ∧ ∀ j ≤ 7, tab.boundary j ≤ f → j ≤ r.band) ∧
    (e.mode = .held → tab.failure = none → e.band ≤ 7 → r.band ≤ 7 ∧
      ((∃ j, e.band < j ∧ j ≤ 7 ∧ tab.boundary j + tab.th ≤ f) →
        tab.boundary r.band + tab.th ≤ f ∧ ∀ j ≤ 7, tab.boundary j + tab.th ≤ f → j ≤ r.band) ∧
      (f < tab.boundary e.band → tab.boundary r.band ≤ f ∧ ∀ j ≤ 7, tab.boundary j ≤ f → j ≤ r.band) ∧
      ((∀ j, e.band < j → j ≤ 7 → f < tab.boundary j + tab.th) → tab.boundary e.band ≤ f → r.band = e.band)) ∧
    (0 < tab.modulus r.band →
      r.stretch * tab.modulus r.band ≤ f * 1000 + tab.modulus r.band / 2 ∧
        f * 1000 + tab.modulus r.band / 2 < (r.stretch + 1) * tab.modulus r.band) ∧
    (r.hEst : Int) = max 0 (min 65535 (r.gapAct + r.stretch - e.zst)) ∧
    (r.clamped = true ↔ r.gapAct + r.stretch - e.zst < 0 ∨ 65535 < r.gapAct + r.stretch - e.zst) ∧
    ∀ late, ∃ i, ((writeImage k late (estimateReply k p f s)).images.get k).shown = some i ∧ i.band = r.band ∧
      i.stretch = r.stretch ∧ i.hEst = r.hEst ∧ i.clamped = r.clamped ∧ i.gapAct = r.gapAct

/-- A poll preparation (R81 to R86). GAP_OPEN sends S_open in one step, with TRIP, and makes the base known; DRIVE_STOP
alone sends the base, or HOLD while it is unknown, with TRIP; no move in flight, with the base unknown or no slot, sends
HOLD; else, with no move, the sum of the terms (MON at stand N alone), clamped to S_min to S_max and approached at R or
less, is sent; a PRESET before its time limit moves the base toward its target by R_preset or less and sends it, with TRIP,
HOLD and CAL clear (R112). A position sent from a base is clamped to 0 to 250,000, with PCLAMP where the clamp acts in a
case other than HOLD. With the base unknown HOLD sends the latest P as it was reported, also above 250,000: that is the
model's choice (log 42). Nothing but the stand's reference record changes. -/
def Obligations.ReferencesFollowTheFirstCase : Prop :=
  ∀ (k : Nat) (s : State) (r : Reference) (z hold : Int), 1 ≤ k ∧ k ≤ 8 → r = s.gap.get k → z = (s.est.get k).z →
    hold = (if r.baseKnown then max 0 (min 250000 (r.base + z)) else ((s.est.get k).p : Int)) →
    let sends := fun (base p : Int) (known trip hold lim rate pc : Bool) => ∃ n : Nat, (n : Int) = p ∧
      prepare k s = { s with gap := s.gap.set k { r with
        base := base, baseKnown := known, pRef := n, tripFlag := trip, holdFlag := hold, calFlag := false, limit := lim,
        rate := rate, pClamp := pc } }
    let out := fun x : Int => decide (x < 0 ∨ 250000 < x)
    ((s.trip.actions.get k).gapOpen = true →
      sends (s.lineCopy.sOpen : Int) (max 0 (min 250000 (s.lineCopy.sOpen + z))) true true false false false
        (out (s.lineCopy.sOpen + z))) ∧
    ((s.trip.actions.get k).gapOpen = false → (s.trip.actions.get k).driveStop = true →
      (r.baseKnown = true →
        sends r.base (max 0 (min 250000 (r.base + z))) true true false false false (out (r.base + z))) ∧
      (r.baseKnown = false → sends r.base hold false true true false false false)) ∧
    (s.trip.actions.get k = {} → r.move = .none →
      (r.baseKnown = false ∨ s.slotAt k = none → sends r.base hold r.baseKnown false true false false false) ∧
      (r.baseKnown = true → (s.slotAt k).isSome = true → (s.sched k).sMin ≤ (s.sched k).sMax →
        ∀ raw target sent : Int,
          raw = (s.sched k).sSch + r.ff + r.agc + (if k = s.n then r.mon else 0) + r.trim →
          target = max (s.sched k).sMin (min (s.sched k).sMax raw) →
          sent = r.base + max (-((s.sched k).r : Int)) (min ((s.sched k).r : Int) (target - r.base)) →
          sends sent (max 0 (min 250000 (sent + z))) true false false (decide (target ≠ raw))
            (decide ((s.sched k).r < (target - r.base).natAbs)) (out (sent + z)))) ∧
    (∀ target tol st run, s.trip.actions.get k = {} → r.move = .preset target tol st run →
      (s.clock - st).toNat < s.lineCopy.tMove →
      ∀ sent : Int, sent = r.base + max (-(s.lineCopy.rPreset : Int)) (min (s.lineCopy.rPreset : Int) (target - r.base)) →
        sends sent (max 0 (min 250000 (sent + z))) r.baseKnown false false false false (out (sent + z)))

/-- The blocks' work on a delivered stand reply at RUN (R12, R21, R22, R75, R80, R124, R153, R154). While the base is not
known it becomes the reply's gap, and a known base stays (where no move is in flight and the exchange that follows is
another station's). With the latch set the Tracker does nothing, and AGC stays. With it clear, and the Tracker's work first,
at a station that was PRESENT: zone k is advanced with the speed, at most 30,000, and the elapsed time to the frame's end,
at stand 1 the generator counts down by the strip length, but at a reply that confirms a bite there (R11), and the stand's
threading is worked; then AGC is updated where the latch is still clear, lock was made before, the stand is ROLLING or
TAILING and Kg is above 0, and stays otherwise. The reply check takes its causes in any order of the work (R124). The count
of a running generator drops by the strip length, and is loaded again once for each segment ended (R12). -/
def Obligations.DeliveredRepliesDoTheBlocksWork : Prop :=
  (∀ (dt began ended : Clock) (age idle : Nat) (fr : List Byte) (plan : List Work) (s : State) (c : Cycle) (k p f v : Nat)
      (flags : ReplyFlags), ExchangeOpen s c (.stand k) → 1 ≤ k ∧ k ≤ 8 → c.phase = .receiving began →
    planOk plan = true → age = (s.clock + dt - began).toNat →
    idle = 2 ∧ 2 ≤ age ∧ age ≤ 18 ∨ idle < 2 ∧ 16 ≤ age ∧ age ≤ 16 + idle →
    ended = s.clock + dt - BitVec.ofNat 32 idle → s.tracker.raised = [] →
    judge (.stand k) (s.station (.stand k)).addr fr false = some (.stand p f v flags) →
    (s.station (.stand k)).state ≠ .silent ∨
      s.lineCopy.rejoinCount ≤ min ((s.station (.stand k)).goodRun + 1) 7 →
    ∃ t, exec (.replyReceived dt fr (.idle idle) plan) s = .next t ∧
      ((s.gap.get k).move = .none → s.link.pollList.Nodup →
        c.index + 1 < s.link.pollList.length ∨ s.link.expiryWaiting = false →
        (t.gap.get k).baseKnown = true ∧
          (t.gap.get k).base = if (s.gap.get k).baseKnown then (s.gap.get k).base else (p : Int) - (s.est.get k).z) ∧
      (s.trip.latch = true → t.tracker = s.tracker ∧ (t.gap.get k).agc = (s.gap.get k).agc) ∧
      (p < s.lineCopy.pLo ∨ s.lineCopy.pHi < p ∨ flags.overtravel = true → CauseTaken .gapOvertravel k t) ∧
      (s.lineCopy.fMax < f → CauseTaken .forceOverload k t) ∧
      (flags.hydFault = true → CauseTaken .terminalFault k t) ∧
      ∀ (first rest : List Work) (s1 x w : State) (a : State × Nat) (elapsed : Option Nat) (bites : Bool),
        s.trip.latch = false →
        (s.station (.stand k)).state = .present → first ∈ [[.tracker], [.tracker, .causes]] →
        plan = first ++ .gap :: rest →
        elapsed = ((s.station (.stand k)).prevTime.map fun t0 =>
          if (s.station (.stand k)).saturated then 100000 else (ended - t0).toNat) →
        s1 = estimateReply k p f ((s.atTime ended).withStation (.stand k) (t.station (.stand k))) →
        a = advanceZone k (min v 30000) elapsed s1 →
        bites = decide ((a.1.thread 1).state.loaded = false ∧ s.lineCopy.nDb ≤
          if (a.1.slotAt 1).isSome = true ∧ (a.1.sched 1).fOn ≤ f then min ((a.1.thread 1).onRun + 1) 4 else 0) →
        x = threadingWork k f (if k = 1 ∧ bites = false then countDown a.2 a.1 else a.1) →
        w = (if first = [.tracker] then x else takeRaised x) →
        t.tracker = { x.tracker with raised := [] } ∧
          (t.gap.get k).agc =
            if w.trip.latch = false ∧ (s.thread k).lockMade = true ∧
              ((x.thread k).state = .rolling ∨ (x.thread k).state = .tailing) ∧ 0 < (x.sched k).kg
            then ((agcUpdate k w).gap.get k).agc else (x.gap.get k).agc) ∧
  ∀ (dL : Nat) (s : State) (g : Generator) (left : Int), s.tracker.gen = g → 0 < g.base → left = g.count - dL →
    (g.running = false → countDown dL s = s) ∧
    (g.running = true →
      (0 < left → countDown dL s = { s with tracker := { s.tracker with gen := { g with count := left } } }) ∧
      (left ≤ 0 → (countDown dL s).tracker.gen =
        { g with count := left + ((-left).toNat / g.base + 1 : Nat) * g.base }))

/-- The preparations of a move (R112, R113, R115, R116, R117), with the action set empty. HOLD brings the base toward the
held target by R_preset or less. CAL_CLOSE lowers it by R_cal while the travel stays within C_max; past that it turns to
CAL_OPEN with ABORTED EQUIPMENT pending, and the preparation is one of CAL_OPEN, which raises the base to S_open by R_cal or
less. Each sends the base plus Z, clamped to 0 to 250,000, with PCLAMP where the clamp acts, and CAL in the two calibration
states. A move that has reached T_move ends first: its order is retired ABORTED, with TIMEOUT or the detail held pending,
ATTENTION.ORDER is set, a preset at a VACANT stand is HOLD at the base as it stands and any other move is NONE. The
preparation is then that of NONE for a calibration, and that of HOLD for a preset (R112, step 1), so that the base stands
where it is; that it is so also at a stand no longer VACANT, whose move state keeps no target, is the model's reading (log
44). -/
def Obligations.MovePreparationsRampAndTimeOut : Prop :=
  ∀ (k : Nat) (s : State) (r : Reference) (z opened : Int), 1 ≤ k ∧ k ≤ 8 → r = s.gap.get k → z = (s.est.get k).z →
    s.trip.actions.get k = {} →
    opened = (if (s.lineCopy.sOpen : Int) - r.base ≤ s.lineCopy.rCal then (s.lineCopy.sOpen : Int)
      else r.base + s.lineCopy.rCal) →
    let sends := fun (base : Int) (cal : Bool) (m : Move) => ∃ n : Nat, (n : Int) = max 0 (min 250000 (base + z)) ∧
      prepare k s = { s with gap := s.gap.set k { r with
        base := base, pRef := n, tripFlag := false, holdFlag := false, calFlag := cal, limit := false, rate := false,
        pClamp := decide (base + z < 0 ∨ 250000 < base + z), move := m } }
    (∀ target, r.move = .hold target →
      sends (r.base + max (-(s.lineCopy.rPreset : Int)) (min (s.lineCopy.rPreset : Int) (target - r.base))) false r.move) ∧
    (∀ st sb run z0, r.move = .calClose st sb run z0 → (s.clock - st).toNat < s.lineCopy.tMove →
      (sb - (r.base - s.lineCopy.rCal) ≤ s.lineCopy.cMax → sends (r.base - s.lineCopy.rCal) true r.move) ∧
      ((s.lineCopy.cMax : Int) < sb - (r.base - s.lineCopy.rCal) →
        sends opened true (.calOpen st sb (.aborted .equipment) z0))) ∧
    (∀ st sb pending z0, r.move = .calOpen st sb pending z0 → (s.clock - st).toNat < s.lineCopy.tMove →
      sends opened true r.move) ∧
    ∀ st q detail value, ((∃ target tol run, r.move = .preset target tol st run) ∨
        (∃ sb run z0, r.move = .calClose st sb run z0) ∨ ∃ sb pending z0, r.move = .calOpen st sb pending z0) →
      s.lineCopy.tMove ≤ (s.clock - st).toNat → memoryOk s → s.orders.inFlight.get k = some q →
      abortedAs 3 k s = some (detail, value) →
      ∃ u left, Retired q 2 detail value s u ∧ u = { s with
          exm := u.exm, attention := s.attention ||| 1, orders := { s.orders with inFlight := s.orders.inFlight.set k none },
          gap := s.gap.set k { r with move := left } } ∧
        (r.move.calibrating = true → left = .none ∧ prepare k s = prepare k u) ∧
        (r.move.calibrating = false → left = (if (s.thread k).state = .vacant then .hold r.base else .none) ∧
          ∃ n : Nat, (n : Int) = max 0 (min 250000 (r.base + z)) ∧ prepare k s = { u with gap := s.gap.set k { r with
            pRef := n, tripFlag := false, holdFlag := false, calFlag := false, limit := false, rate := false,
            pClamp := decide (r.base + z < 0 ∨ 250000 < r.base + z), move := left } })

/-- The terms (R2, R66, R74, R76). An AGC update whose error is within DB leaves the term; else the term grows by the error
times Kg over 256, half away from zero, limited to AGC_LIM; the error is taken against h_target in ABSOLUTE mode and h_lock
in LOCKED mode. MON follows a paired mark in the same way against h_target of stand N in the mark's slot, with Km and DB_mon
of that slot and MON_LIM of the slot in force at stand N. Each changes its term at its stand and nothing else. -/
def Obligations.CorrectionTermsIntegrateTheirError : Prop :=
  ∀ (k : Nat) (s : State), 1 ≤ k ∧ k ≤ 8 →
    (∀ err : Int, (s.sched k).agcMode ≤ 1 →
      err = (if (s.sched k).agcMode = 0 then ((s.sched k).hTarget : Int) else (s.gap.get k).hLock) - (s.est.get k).hEst →
      (err.natAbs ≤ (s.sched k).db → agcUpdate k s = s) ∧
      (∀ step : Int, (s.sched k).db < err.natAbs →
        (∃ n : Nat, 256 * n ≤ (err * (s.sched k).kg).natAbs + 128 ∧ (err * (s.sched k).kg).natAbs + 128 < 256 * (n + 1) ∧
          step = if err < 0 then -(n : Int) else n) →
        agcUpdate k s = { s with gap := s.gap.set k { s.gap.get k with
          agc := max (-((s.sched k).agcLim : Int)) (min ((s.sched k).agcLim : Int) ((s.gap.get k).agc + step)) } })) ∧
    (∀ (m : Mark) (x : Slot) (sc : Schedule) (err : Int), k = s.n → m.tag = some x →
      (s.store.slot x).schedule = some sc → err = ((sc.stands.get k).hTarget : Int) - s.gauge.hx →
      (err.natAbs ≤ sc.dbMon → monUpdate m s = s) ∧
      (∀ step : Int, sc.dbMon < err.natAbs →
        (∃ n : Nat, 256 * n ≤ (err * sc.km).natAbs + 128 ∧ (err * sc.km).natAbs + 128 < 256 * (n + 1) ∧
          step = if err < 0 then -(n : Int) else n) →
        monUpdate m s = { s with gap := s.gap.set k { s.gap.get k with
          mon := max (-((s.scheduleOf (s.slotAt k)).monLim : Int))
            (min ((s.scheduleOf (s.slotAt k)).monLim : Int) ((s.gap.get k).mon + step)) } }))

end
end

