-- ==== Sys2Proof/Laws/Memory.lean ====
section
/-! SUPPORT. Exchange Memory's bytes: read after write, words, and the canonical form kept by every write. -/

namespace Sys2Proof.Machine

/-- A read below the first address listed gives the value of an unlisted byte. -/
theorem Memory.read_of_wfFrom_lt (m : Memory) (lo a : Nat) (h : Memory.wfFrom lo m = true) (ha : a < lo) :
    Memory.read m a = 0 := by
  induction m generalizing lo with
  | nil => rfl
  | cons c m ih =>
    obtain ⟨x, y⟩ := c
    simp only [Memory.wfFrom, Bool.and_eq_true, decide_eq_true_eq] at h
    unfold Memory.read
    rw [if_neg (by omega)]
    exact ih (x + 1) h.2 (by omega)

/-- A canonical memory is canonical from any lower bound. -/
theorem Memory.wfFrom_mono (m : Memory) (lo lo' : Nat) (hle : lo' ≤ lo) (h : Memory.wfFrom lo m = true) :
    Memory.wfFrom lo' m = true := by
  cases m with
  | nil => rfl
  | cons c m =>
    obtain ⟨x, y⟩ := c
    simp only [Memory.wfFrom, Bool.and_eq_true, decide_eq_true_eq] at h ⊢
    exact ⟨⟨by omega, h.1.2⟩, h.2⟩

theorem Memory.wfFrom_write (m : Memory) (lo a : Nat) (b : Byte) (h : Memory.wfFrom lo m = true) (ha : lo ≤ a) :
    Memory.wfFrom lo (Memory.write m a b) = true := by
  induction m generalizing lo with
  | nil =>
    unfold Memory.write
    split <;> simp_all [Memory.wfFrom]
  | cons c m ih =>
    obtain ⟨x, y⟩ := c
    have h' := h
    simp only [Memory.wfFrom, Bool.and_eq_true, decide_eq_true_eq] at h
    unfold Memory.write
    split
    · split
      · exact h'
      · simp only [Memory.wfFrom, Bool.and_eq_true, decide_eq_true_eq]
        exact ⟨⟨ha, ‹_›⟩, ⟨by omega, h.1.2⟩, h.2⟩
    · split
      · split
        · exact Memory.wfFrom_mono m (x + 1) lo (by omega) h.2
        · simp only [Memory.wfFrom, Bool.and_eq_true, decide_eq_true_eq]
          subst_vars
          exact ⟨⟨ha, ‹_›⟩, h.2⟩
      · simp only [Memory.wfFrom, Bool.and_eq_true, decide_eq_true_eq]
        exact ⟨h.1, ih (x + 1) h.2 (by omega)⟩

/-- A byte write keeps the canonical form. -/
theorem Memory.wf_write (m : Memory) (a : Nat) (b : Byte) (h : m.wf = true) : (m.write a b).wf = true :=
  Memory.wfFrom_write m 0 a b h (Nat.zero_le a)

theorem Memory.read_write_from (m : Memory) (lo a i : Nat) (b : Byte) (h : Memory.wfFrom lo m = true) :
    (Memory.write m a b).read i = if i = a then b else m.read i := by
  induction m generalizing lo with
  | nil =>
    by_cases hb : b = 0
    · subst hb; simp [Memory.write, Memory.read]
    · rw [Memory.write, if_neg hb]; rfl
  | cons c m ih =>
    obtain ⟨x, y⟩ := c
    have hc := h
    simp only [Memory.wfFrom, Bool.and_eq_true, decide_eq_true_eq] at h
    have htail : ∀ j, j ≤ x → Memory.read m j = 0 := fun j hj =>
      Memory.read_of_wfFrom_lt m (x + 1) j h.2 (by omega)
    unfold Memory.write
    split
    · split
      · subst_vars
        by_cases hia : i = a
        · subst hia
          rw [if_pos rfl]
          unfold Memory.read
          rw [if_neg (by omega)]
          exact htail _ (by omega)
        · rw [if_neg hia]
      · rw [Memory.read]
    · split
      · split
        · subst_vars
          by_cases hia : i = x
          · subst hia; rw [if_pos rfl]; exact htail _ (Nat.le_refl _)
          · rw [if_neg hia, Memory.read, if_neg hia]
        · subst_vars
          simp only [Memory.read]
          split <;> rfl
      · simp only [Memory.read]
        split
        · rw [if_neg (by omega)]
        · exact ih (x + 1) h.2

/-- A read after a byte write. -/
theorem Memory.read_write (m : Memory) (a i : Nat) (b : Byte) (h : m.wf = true) :
    (m.write a b).read i = if i = a then b else m.read i := Memory.read_write_from m 0 a i b h

/-- A word write keeps the canonical form. -/
theorem Memory.wf_writeWord (m : Memory) (a : Nat) (w : Word) (h : m.wf = true) : (m.writeWord a w).wf = true :=
  Memory.wf_write _ _ _ (Memory.wf_write _ _ _ h)

/-- A byte read after a word write. -/
theorem Memory.read_writeWord (m : Memory) (a i : Nat) (w : Word) (h : m.wf = true) :
    (m.writeWord a w).read i =
      if i = a + 1 then (w >>> 8).setWidth 8 else if i = a then w.setWidth 8 else m.read i := by
  unfold Memory.writeWord
  rw [Memory.read_write _ _ _ _ (Memory.wf_write _ _ _ h), Memory.read_write _ _ _ _ h]

/-- A word read back after it is written (R185). -/
theorem Memory.readWord_writeWord (m : Memory) (a : Nat) (w : Word) (h : m.wf = true) :
    (m.writeWord a w).readWord a = w := by
  unfold Memory.readWord
  rw [Memory.read_writeWord _ _ _ _ h, Memory.read_writeWord _ _ _ _ h, if_pos rfl, if_neg (by omega), if_pos rfl]
  apply BitVec.eq_of_getLsbD_eq
  intro i hi
  simp only [BitVec.getLsbD_append, BitVec.getLsbD_setWidth, BitVec.getLsbD_ushiftRight]
  by_cases h8 : i < 8
  · simp [h8]
  · simp [h8]
    have : i - 8 < 8 := by omega
    rw [show 8 + (i - 8) = i by omega, decide_eq_true this, Bool.true_and]

/-- A word apart from the one written reads as before. -/
theorem Memory.readWord_writeWord_apart (m : Memory) (a i : Nat) (w : Word) (h : m.wf = true)
    (hi : i + 1 < a ∨ a + 1 < i) : (m.writeWord a w).readWord i = m.readWord i := by
  unfold Memory.readWord
  rw [Memory.read_writeWord _ _ _ _ h, Memory.read_writeWord _ _ _ _ h, if_neg (by omega), if_neg (by omega),
    if_neg (by omega), if_neg (by omega)]

/-- Writing a result keeps the canonical form. -/
theorem wf_writeResult (m : Memory) (p : Nat) (r : Result) (h : m.wf = true) : (writeResult m p r).wf = true := by
  unfold writeResult
  exact Memory.wf_writeWord _ _ _ (Memory.wf_writeWord _ _ _ (Memory.wf_writeWord _ _ _ (Memory.wf_writeWord _ _ _ h)))

/-- Zeroing a block keeps the canonical form. -/
theorem wf_zeroBlock (m : Memory) (p : Nat) (h : m.wf = true) : (zeroBlock m p).wf = true := by
  unfold zeroBlock
  exact Memory.wf_writeWord _ _ _ (Memory.wf_writeWord _ _ _ (Memory.wf_writeWord _ _ _ (Memory.wf_writeWord _ _ _ h)))

theorem wf_zeroBlocks (l : List Nat) (m : Memory) (h : m.wf = true) : (l.foldl zeroBlock m).wf = true := by
  induction l generalizing m with
  | nil => exact h
  | cons p l ih => exact ih _ (wf_zeroBlock m p h)

/-- HALT's memory is canonical. -/
theorem wf_haltMemory (s : State) (h : s.exm.wf = true) : (haltMemory s).wf = true :=
  Memory.wf_writeWord _ _ _ (wf_zeroBlocks _ _ h)

/-- What a retirement leaves in memory: RESULT and STATE of the block, every other byte as before (R171). -/
theorem read_writeResult (m : Memory) (p i : Nat) (r : Result) (h : m.wf = true)
    (hi : ¬(i = p + 2 ∨ i = p + 3 ∨ (p + 6 ≤ i ∧ i < p + 12))) : (writeResult m p r).read i = m.read i := by
  unfold writeResult
  have h1 := Memory.wf_writeWord m (p + 6) (BitVec.ofNat 16 r.cls.code) h
  have h2 := Memory.wf_writeWord _ (p + 8) (BitVec.ofNat 16 r.cls.detail) h1
  have h3 := Memory.wf_writeWord _ (p + 10) r.value h2
  rw [Memory.read_writeWord _ _ _ _ h3, Memory.read_writeWord _ _ _ _ h2, Memory.read_writeWord _ _ _ _ h1,
    Memory.read_writeWord _ _ _ _ h]
  simp only [show ¬i = p + 2 + 1 by omega, show ¬i = p + 2 by omega, show ¬i = p + 10 + 1 by omega,
    show ¬i = p + 10 by omega, show ¬i = p + 8 + 1 by omega, show ¬i = p + 8 by omega, show ¬i = p + 6 + 1 by omega,
    show ¬i = p + 6 by omega, if_false]

/-- The words of a retired block (R171, R187). -/
theorem words_writeResult (m : Memory) (p : Nat) (r : Result) (h : m.wf = true) :
    (writeResult m p r).readWord (p + 2) = 3 ∧
    (writeResult m p r).readWord (p + 6) = BitVec.ofNat 16 r.cls.code ∧
    (writeResult m p r).readWord (p + 8) = BitVec.ofNat 16 r.cls.detail ∧
    (writeResult m p r).readWord (p + 10) = r.value := by
  unfold writeResult
  have h1 := Memory.wf_writeWord m (p + 6) (BitVec.ofNat 16 r.cls.code) h
  have h2 := Memory.wf_writeWord _ (p + 8) (BitVec.ofNat 16 r.cls.detail) h1
  have h3 := Memory.wf_writeWord _ (p + 10) r.value h2
  refine ⟨Memory.readWord_writeWord _ _ _ h3, ?_, ?_, ?_⟩
  · rw [Memory.readWord_writeWord_apart _ _ _ _ h3 (by omega), Memory.readWord_writeWord_apart _ _ _ _ h2 (by omega),
      Memory.readWord_writeWord_apart _ _ _ _ h1 (by omega), Memory.readWord_writeWord _ _ _ h]
  · rw [Memory.readWord_writeWord_apart _ _ _ _ h3 (by omega), Memory.readWord_writeWord_apart _ _ _ _ h2 (by omega),
      Memory.readWord_writeWord _ _ _ h1]
  · rw [Memory.readWord_writeWord_apart _ _ _ _ h3 (by omega), Memory.readWord_writeWord _ _ _ h2]

/-- The memory after reset is canonical. -/
theorem wf_reset : State.reset.exm.wf = true := rfl

end Sys2Proof.Machine
end

