-- ==== Sys2Proof/Laws/Intake.lean ====
section
/-! SUPPORT. The intake's fuel is never used up: each take that a common check ends turns one POSTED block RETIRED, so
every amount of fuel above the number of POSTED blocks gives the same state. -/

namespace Sys2Proof.Machine

/-- The places for a block whose STATE reads POSTED. -/
def postedBlocks (m : Memory) : Nat := (List.range 7680).countP fun i => m.readWord (8 * (i + 512) + 2) == 1

theorem countP_lt_of {α : Type} (l : List α) (p q : α → Bool) (h : ∀ x ∈ l, p x = true → q x = true)
    (hx : ∃ x ∈ l, p x = false ∧ q x = true) : l.countP p < l.countP q := by
  induction l with
  | nil => obtain ⟨x, hx, _⟩ := hx; cases hx
  | cons a l ih =>
    have hle : l.countP p ≤ l.countP q := List.countP_mono_left fun x hx => h x (List.mem_cons_of_mem _ hx)
    rw [List.countP_cons, List.countP_cons]
    obtain ⟨x, hm, hp, hq⟩ := hx
    rcases List.mem_cons.1 hm with rfl | hm
    · simp only [hp, hq]; simp; omega
    · have := ih (fun x hx => h x (List.mem_cons_of_mem _ hx)) ⟨x, hm, hp, hq⟩
      have := h a List.mem_cons_self
      cases hpa : p a <;> cases hqa : q a <;> simp_all

/-- Every common check that ends a take does so with value 0 (R168, R170). -/
theorem commonCheck_value (s : State) (v : Nat) (r : Result) (h : commonCheck s v = some r) : r.value = 0 := by
  unfold commonCheck at h
  simp only [] at h
  split at h
  · cases h; rfl
  · (repeat' split at h) <;> cases h <;> rfl

theorem readWord_writeResult (m : Memory) (p j : Nat) (r : Result) (h : m.wf = true) (hr : r.value = 0) (hp : p % 8 = 0)
    (hj : j % 8 = 2) (hne : j ≠ p + 2) : (writeResult m p r).readWord j = 1 → m.readWord j = 1 := by
  unfold writeResult
  have h1 := Memory.wf_writeWord m (p + 6) (BitVec.ofNat 16 r.cls.code) h
  have h2 := Memory.wf_writeWord _ (p + 8) (BitVec.ofNat 16 r.cls.detail) h1
  have h3 := Memory.wf_writeWord _ (p + 10) r.value h2
  rw [Memory.readWord_writeWord_apart _ _ _ _ h3 (by omega)]
  by_cases h10 : j = p + 10
  · subst h10
    rw [Memory.readWord_writeWord _ _ _ h2, hr]
    intro h0; exact absurd h0 (by decide)
  · rw [Memory.readWord_writeWord_apart _ _ _ _ h2 (by omega), Memory.readWord_writeWord_apart _ _ _ _ h1 (by omega),
      Memory.readWord_writeWord_apart _ _ _ _ h (by omega)]
    exact id

/-- A take that a common check ends leaves one POSTED block fewer (R167, R171). -/
theorem postedBlocks_retire (s : State) (v : Nat) (r : Result) (h : s.exm.wf = true) (hv : pointerFault v = none)
    (hp : s.exm.readWord (v + 2) = 1) (hr : r.value = 0) :
    postedBlocks (retire v r (markTaken v s)).exm < postedBlocks s.exm := by
  have hv8 : v % 8 = 0 ∧ 4096 ≤ v ∧ v ≤ 65520 := by
    unfold pointerFault at hv; split at hv
    · cases hv
    · split at hv
      · cases hv
      · omega
  have hw : (s.exm.writeWord (v + 2) 2).wf = true := Memory.wf_writeWord _ _ _ h
  have he : (retire v r (markTaken v s)).exm = writeResult (s.exm.writeWord (v + 2) 2) v r := rfl
  rw [he]
  apply countP_lt_of
  · intro i hi hq
    simp only [beq_iff_eq] at hq ⊢
    by_cases hne : 8 * (i + 512) + 2 = v + 2
    · rw [hne]; exact hp
    · have := readWord_writeResult _ v (8 * (i + 512) + 2) r hw hr hv8.1 (by omega) hne hq
      rwa [Memory.readWord_writeWord_apart _ _ _ _ h (by omega)] at this
  · refine ⟨v / 8 - 512, List.mem_range.2 (by omega), ?_, ?_⟩
    · have : 8 * (v / 8 - 512 + 512) = v := by omega
      rw [this, (words_writeResult _ _ _ hw).1]
      decide
    · have : 8 * (v / 8 - 512 + 512) = v := by omega
      rw [this]; simp [hp]

/-- Any fuel above the number of POSTED blocks gives the intake's result. -/
theorem intake_fuel (n : Nat) : ∀ (m : Nat) (s : State), s.exm.wf = true → postedBlocks s.exm < n → postedBlocks s.exm < m →
    intake n s = intake m s := by
  induction n with
  | zero => intro m s _ h; omega
  | succ n ih =>
    intro m s hw hn hm
    cases m with
    | zero => omega
    | succ m =>
      unfold intake
      split
      · rfl
      · simp only []
        split
        · rfl
        · split
          · rfl
          · rename_i hpf
            split
            · rfl
            · split
              · rfl
              · rename_i hp
                split
                · rename_i r hc
                  have hp1 : s.exm.readWord _ = 1 := BitVec.eq_of_toNat_eq (not_not.1 hp)
                  have hlt := postedBlocks_retire s _ r hw hpf hp1 (commonCheck_value _ _ _ hc)
                  exact ih m _ (wf_writeResult _ _ _ (Memory.wf_writeWord _ _ _ hw)) (by omega) (by omega)
                · rfl

theorem postedBlocks_le (m : Memory) : postedBlocks m ≤ 7680 :=
  Nat.le_trans List.countP_le_length (by simp)

/-- After a take that a common check ends, the next read is the intake's own (R166, R168). -/
theorem intake_after_check (s : State) (v : Nat) (r : Result) (h : s.exm.wf = true) (hv : pointerFault v = none)
    (hp : s.exm.readWord (v + 2) = 1) (hc : commonCheck (markTaken v s) v = some r) :
    intake 8191 (retire v r (markTaken v s)) = freeToTake (retire v r (markTaken v s)) := by
  have hlt := postedBlocks_retire s v r h hv hp (commonCheck_value _ _ _ hc)
  have := postedBlocks_le s.exm
  exact intake_fuel _ _ _ (wf_writeResult _ _ _ (Memory.wf_writeWord _ _ _ h)) (by omega) (by unfold intakeFuel; omega)

end Sys2Proof.Machine
end

