-- ==== Sys2Proof/Laws/Evolve.lean ====
section
/-! SUPPORT. What the work of the blocks can do, said once: every piece of work is a sequence of the elementary
changes listed in `Evolves`. The invariants of the machine are drawn from that list. -/

namespace Sys2Proof.Machine

/-- Nothing but the records, images and areas of the blocks has changed. -/
structure Quiet (s t : State) : Prop where
  clock : t.clock = s.clock
  resetLow : t.resetLow = s.resetLow
  etripPin : t.etripPin = s.etripPin
  level : t.level = s.level
  attention : t.attention = s.attention
  mask : t.mask = s.mask
  exm : t.exm = s.exm
  configResult : t.configResult = s.configResult
  journal : t.journal = s.journal
  line : t.line = s.line
  trip : t.trip = s.trip
  zones : t.tracker.zones = s.tracker.zones
  pins : t.pins = s.pins
  pending : t.pending = s.pending

theorem Quiet.refl (s : State) : Quiet s s := ⟨rfl, rfl, rfl, rfl, rfl, rfl, rfl, rfl, rfl, rfl, rfl, rfl, rfl, rfl⟩

/-- Which of the rarer changes a piece of work may make: a new level, a new line description copy or CONFIG_RESULT, a
new matrix copy, a trip reset, a write to JOURNAL_READ, the moving of marks. -/
structure Permit where
  level : Bool
  line : Bool
  entry : Bool
  reset : Bool
  port : Bool
  track : Bool

/-- A mark that enters a zone behind others, where the mark at the back of the queue is `x` (R11, R15, R16). -/
theorem arriveBehind_snoc {k : Nat} {q : List Mark} {x : Mark} {s : State} (hz : s.zone k = q ++ [x]) :
    arriveBehind k s =
      if 0 < s.zoneLen k ∨ s.n ≤ k ∨ entryPasses s (k + 1) x.kind = true then s
      else if headOverlaps s k x then raiseCause .coilOverlap (k + 1) (s.withZone k (q ++ [{ x with hold := some 0 }]))
      else s.withZone k (q ++ [{ x with hold := some 0 }]) := by
  unfold arriveBehind
  rw [hz, List.getLast?_append, List.dropLast_concat]
  rfl

/-- All that can happen to a mark that enters a zone behind others. -/
theorem arriveBehind_cases (k : Nat) (s : State) : arriveBehind k s = s ∨ ∃ q x, s.zone k = q ++ [x] ∧
    (arriveBehind k s = s.withZone k (q ++ [{ x with hold := some 0 }]) ∨
      arriveBehind k s = raiseCause .coilOverlap (k + 1) (s.withZone k (q ++ [{ x with hold := some 0 }]))) := by
  rcases List.eq_nil_or_concat (s.zone k) with h | ⟨q, x, h⟩
  · left; unfold arriveBehind; rw [h]; rfl
  · rw [List.concat_eq_append] at h
    rw [arriveBehind_snoc h]
    split
    · exact .inl rfl
    · refine .inr ⟨q, x, h, ?_⟩
      split
      · exact .inr rfl
      · exact .inl rfl

/-- `t` comes from `s` by elementary changes. -/
inductive Evolves (p : Permit) (s : State) : State → Prop
  | refl : Evolves p s s
  | quiet {t u} : Evolves p s t → Quiet t u → Evolves p s u
  | noted {t} (r : JournalRecord) : Evolves p s t → Evolves p s (journal r t)
  | attn {t} (b : BitVec 5) : Evolves p s t → Evolves p s (setAttention b t)
  | wrote {t} (a : Nat) (w : Word) : Evolves p s t → Evolves p s { t with exm := t.exm.writeWord a w }
  | recorded {t} (c : Cause) (k : Nat) (time : Clock) : Evolves p s t → Evolves p s (recordCause c k time t)
  | acted {t} (ks : List Nat) (a : ActionSet) (e : Bool) : Evolves p s t →
      Evolves p s { t with trip := { t.trip with actions := addActions ks a t.trip.actions,
                                                 entryStop := t.trip.entryStop || e } }
  | ready {t} (r : PerStand Bool) : Evolves p s t → Evolves p s { t with trip := { t.trip with ready := r } }
  | cleared {t} : p.reset = true → Evolves p s t → Evolves p s (clearTrip t)
  | leveled {t} (l : RunLevel) : p.level = true → Evolves p s t → Evolves p s { t with level := l }
  | lined {t} (l : Option LineDesc) (c : Word) : p.line = true → Evolves p s t →
      Evolves p s { t with line := l, configResult := c }
  | entered {t} (m : Option (List MatrixEntry)) (r : PerStand Bool) (e : EtripLevel) : p.entry = true →
      Evolves p s t → Evolves p s { t with trip := { t.trip with matrix := m, ready := r, etrip := e } }
  | indexRead {t} (v : Word) : p.port = true → journalValueGood t v = true → Evolves p s t →
      Evolves p s { t with journal := { t.journal with r := v.setWidth 8 } }
  | lossReported {t} : p.port = true → Evolves p s t → Evolves p s (reportLoss t)
  | passed {t} (k : Nat) (m : Mark) (q : List Mark) : p.track = true → t.zone k = m :: q → Evolves p s t →
      Evolves p s (passMark k m q t)
  | fronted {t} (k : Nat) (m m' : Mark) (q : List Mark) : p.track = true → t.zone k = m :: q → m'.thick = m.thick →
      m'.pos = t.zoneLen k → Evolves p s t → Evolves p s (t.withZone k (m' :: q))
  | advanced {t} (k d : Nat) (m m' : Mark) (q : List Mark) : p.track = true → t.zone k = m :: q → m'.thick = m.thick →
      m.pos ≤ m'.pos → (m'.pos ≤ t.zoneLen k ∨ m'.pos = m.pos) → Evolves p s t →
      Evolves p s (t.withZone k (m' :: advanceBehind d m'.pos q))
  | held {t} (k : Nat) (q : List Mark) (x : Mark) (e : Option Nat) : p.track = true → t.zone k = q ++ [x] →
      Evolves p s t → Evolves p s (t.withZone k (q ++ [{ x with hold := e }]))
  | departed {t} (k : Nat) (m : Mark) (q : List Mark) : p.track = true → t.zone k = m :: q → Evolves p s t →
      Evolves p s (t.withTracker { t.tracker with zones := t.tracker.zones.set k q, emptySpell := false })
  | cut {t} (kind : MarkKind) (x : Nat) : p.track = true → t.hasRoom = true →
      (∀ m, (t.zone 1).getLast? = some m → x ≤ m.pos) → ((t.zone 1) = [] → x ≤ t.zoneLen 1) → Evolves p s t →
      Evolves p s (cutMark kind x t)
  | emptied {t} : Evolves p s t → Evolves p s (clearPicture t)

variable {p : Permit} {s t u : State}

namespace Evolves

theorem ite {c : Prop} [Decidable c] (h1 : Evolves p s t) (h2 : Evolves p s u) : Evolves p s (if c then t else u) := by
  split <;> assumption

theorem foldl {α : Type} {f : State → α → State} (hf : ∀ t a, Evolves p s t → Evolves p s (f t a)) (l : List α) :
    ∀ t, Evolves p s t → Evolves p s (l.foldl f t) := by
  induction l with
  | nil => exact fun _ h => h
  | cons a l ih => exact fun t h => ih _ (hf t a h)

theorem atTime_ite {c : Prop} [Decidable c] (a b : State) (d : Clock) :
    (if c then a else b).atTime d = if c then a.atTime d else b.atTime d := by split <;> rfl

theorem atTime_journal (r : JournalRecord) (d : Clock) (s : State) :
    (journal r s).atTime d = journal r (s.atTime d) := atTime_ite ..

theorem atTime_recordCause (c : Cause) (k : Nat) (time d : Clock) (s : State) :
    (recordCause c k time s).atTime d = recordCause c k time (s.atTime d) := by
  have ha : ∀ (b : BitVec 5) u, (setAttention b u).atTime d = setAttention b (u.atTime d) := fun _ _ => rfl
  unfold recordCause note
  dsimp only
  rw [atTime_ite, atTime_ite, atTime_ite, ha, atTime_journal, atTime_journal]
  rfl

/-- Work done with the line clock at another time is work, the clock put back; all but the work of the port, which reads
the clock. -/
theorem timed {b : State} (hp : p.port = false) (hb : Evolves p s b) (c : Clock) (h : Evolves p (b.atTime c) u) :
    Evolves p s (u.atTime b.clock) := by
  generalize hd : b.clock = d
  induction h with
  | refl => subst hd; exact hb
  | quiet _ hq ih => exact ih.quiet ⟨rfl, hq.2, hq.3, hq.4, hq.5, hq.6, hq.7, hq.8, hq.9, hq.10, hq.11, hq.12, hq.13, hq.14⟩
  | @noted t r _ ih =>
    rw [atTime_journal]; exact ih.noted r
  | attn b _ ih => exact ih.attn b
  | wrote a w _ ih => exact ih.wrote a w
  | @recorded t c k time _ ih =>
    rw [atTime_recordCause]; exact ih.recorded c k time
  | acted ks a e _ ih => exact ih.acted ks a e
  | ready r _ ih => exact ih.ready r
  | cleared h _ ih => exact ih.cleared h
  | leveled l h _ ih => exact ih.leveled l h
  | lined l c h _ ih => exact ih.lined l c h
  | entered m r e h _ ih => exact ih.entered m r e h
  | indexRead _ h _ _ _ => rw [hp] at h; cases h
  | lossReported h _ _ => rw [hp] at h; cases h
  | @passed t k m q h hz _ ih =>
    have e : (passMark k m q t).atTime d = passMark k m q (t.atTime d) := by
      unfold passMark; dsimp only; split <;> rfl
    rw [e]; exact ih.passed k m q h hz
  | @fronted t k m m' q h hz ht hx _ ih => exact .fronted (t := t.atTime d) k m m' q h hz ht hx ih
  | @advanced t k x m m' q h hz ht h1 h2 _ ih => exact .advanced (t := t.atTime d) k x m m' q h hz ht h1 h2 ih
  | @held t k q x e h hz _ ih => exact .held (t := t.atTime d) k q x e h hz ih
  | @departed t k m q h hz _ ih => exact .departed (t := t.atTime d) k m q h hz ih
  | @cut t kind x h hr h1 h2 _ ih => exact .cut (t := t.atTime d) kind x h hr h1 h2 ih
  | emptied _ ih => exact ih.emptied

/-! ### Updates of the blocks' records -/

theorem cycleClock {x} (h : Evolves p s t) : Evolves p s { t with cycleClock := x } :=
  h.quiet ⟨rfl, rfl, rfl, rfl, rfl, rfl, rfl, rfl, rfl, rfl, rfl, rfl, rfl, rfl⟩
theorem images {x} (h : Evolves p s t) : Evolves p s { t with images := x } :=
  h.quiet ⟨rfl, rfl, rfl, rfl, rfl, rfl, rfl, rfl, rfl, rfl, rfl, rfl, rfl, rfl⟩
theorem dropImages (h : Evolves p s t) : Evolves p s (dropImages t) := h.images
theorem orders {x} (h : Evolves p s t) : Evolves p s { t with orders := x } :=
  h.quiet ⟨rfl, rfl, rfl, rfl, rfl, rfl, rfl, rfl, rfl, rfl, rfl, rfl, rfl, rfl⟩
theorem link {x} (h : Evolves p s t) : Evolves p s { t with link := x } :=
  h.quiet ⟨rfl, rfl, rfl, rfl, rfl, rfl, rfl, rfl, rfl, rfl, rfl, rfl, rfl, rfl⟩
theorem est {x} (h : Evolves p s t) : Evolves p s { t with est := x } :=
  h.quiet ⟨rfl, rfl, rfl, rfl, rfl, rfl, rfl, rfl, rfl, rfl, rfl, rfl, rfl, rfl⟩
theorem gauge {x} (h : Evolves p s t) : Evolves p s { t with gauge := x } :=
  h.quiet ⟨rfl, rfl, rfl, rfl, rfl, rfl, rfl, rfl, rfl, rfl, rfl, rfl, rfl, rfl⟩
theorem gap {x} (h : Evolves p s t) : Evolves p s { t with gap := x } :=
  h.quiet ⟨rfl, rfl, rfl, rfl, rfl, rfl, rfl, rfl, rfl, rfl, rfl, rfl, rfl, rfl⟩
theorem store {x} (h : Evolves p s t) : Evolves p s { t with store := x } :=
  h.quiet ⟨rfl, rfl, rfl, rfl, rfl, rfl, rfl, rfl, rfl, rfl, rfl, rfl, rfl, rfl⟩
theorem withEst {k e} (h : Evolves p s t) : Evolves p s (t.withEst k e) := h.est
theorem withRef {k r} (h : Evolves p s t) : Evolves p s (t.withRef k r) := h.gap
theorem withMove {k m} (h : Evolves p s t) : Evolves p s (t.withMove k m) := h.gap
theorem withTracker {x} (h : Evolves p s t) (hz : x.zones = t.tracker.zones) : Evolves p s (t.withTracker x) :=
  h.quiet ⟨rfl, rfl, rfl, rfl, rfl, rfl, rfl, rfl, rfl, rfl, rfl, hz, rfl, rfl⟩
theorem withThread {k x} (h : Evolves p s t) : Evolves p s (t.withThread k x) := h.withTracker (by rfl)
theorem withStation {e x} (h : Evolves p s t) : Evolves p s (t.withStation e x) := by cases e <;> exact h.link
theorem withSlot {x r} (h : Evolves p s t) : Evolves p s (t.withSlot x r) := h.store
theorem withGen {g} (h : Evolves p s t) : Evolves p s (withGen g t) := h.withTracker (by rfl)
theorem withCycle {c} (h : Evolves p s t) : Evolves p s (withCycle c t) := h.link
theorem useFree (h : Evolves p s t) : Evolves p s (useFree t) :=
  h.quiet ⟨rfl, rfl, rfl, rfl, rfl, rfl, rfl, rfl, rfl, rfl, rfl, rfl, rfl, rfl⟩
theorem rewriteTripArea (h : Evolves p s t) : Evolves p s (rewriteTripArea t) :=
  h.quiet ⟨rfl, rfl, rfl, rfl, rfl, rfl, rfl, rfl, rfl, rfl, rfl, rfl, rfl, rfl⟩
theorem rewriteSummary (h : Evolves p s t) : Evolves p s (rewriteSummary t) :=
  h.quiet ⟨rfl, rfl, rfl, rfl, rfl, rfl, rfl, rfl, rfl, rfl, rfl, rfl, rfl, rfl⟩
theorem writeImage {k late} (h : Evolves p s t) : Evolves p s (writeImage k late t) :=
  h.quiet ⟨rfl, rfl, rfl, rfl, rfl, rfl, rfl, rfl, rfl, rfl, rfl, rfl, rfl, rfl⟩
theorem raiseCause {c k} (h : Evolves p s t) : Evolves p s (raiseCause c k t) := h.withTracker (by rfl)
theorem note {kind k time c a b d} (h : Evolves p s t) : Evolves p s (note kind k time c a b d t) := h.noted _

/-! ### Orders and the intake -/

theorem retire {q r} (h : Evolves p s t) : Evolves p s (retire q r t) :=
  ((((h.wrote (q + 6) (BitVec.ofNat 16 r.cls.code)).wrote (q + 8) (BitVec.ofNat 16 r.cls.detail)).wrote (q + 10)
    r.value).wrote (q + 2) 3).attn attnOrder
theorem retireLong {k r} (h : Evolves p s t) : Evolves p s (retireLong k r t) := by
  unfold Machine.retireLong; split
  · exact h.orders.retire
  · exact h
theorem retireTaken {r} (h : Evolves p s t) : Evolves p s (retireTaken r t) := by
  unfold Machine.retireTaken; split
  · exact h.orders.retire
  · exact h
theorem retireFree (h : Evolves p s t) : Evolves p s (retireFree t) := h.useFree.retireTaken
theorem chainFault {w v r} (h : Evolves p s t) : Evolves p s (chainFault w v r t) := h.note
theorem markTaken {v} (h : Evolves p s t) : Evolves p s (markTaken v t) := (h.wrote (v + 2) 2).orders
theorem copyOrder {v} (h : Evolves p s t) : Evolves p s (copyOrder v t) := h.orders
theorem intake (fuel : Nat) : ∀ t, Evolves p s t → Evolves p s (intake fuel t) := by
  induction fuel with
  | zero => exact fun _ h => h
  | succ n ih =>
    intro t h
    unfold Machine.intake
    split
    · exact h
    · dsimp only
      split
      · exact h
      · split
        · exact h.chainFault
        · split
          · exact h.chainFault
          · split
            · exact h.retire
            · split
              · exact ih _ h.markTaken.retire
              · exact h.markTaken.copyOrder
theorem freeToTake (h : Evolves p s t) : Evolves p s (freeToTake t) := intake _ _ h
theorem startIntake (h : Evolves p s t) : Evolves p s (startIntake t) := h.orders.freeToTake

/-! ### The Thickness Unit and the Gap Unit -/

theorem estimateReply {k a b} (h : Evolves p s t) : Evolves p s (estimateReply k a b t) := h.withEst
theorem recordReply {k a b} (h : Evolves p s t) : Evolves p s (recordReply k a b t) := h.withEst
theorem setMode {k m} (h : Evolves p s t) : Evolves p s (setMode k m t) := h.withEst
theorem recordZero {k a} (h : Evolves p s t) : Evolves p s (recordZero k a t) := h.withEst
theorem applyTable {k x r time} (h : Evolves p s t) : Evolves p s (applyTable k x r time t) := h.withEst.note
theorem applyPending {k r time} (h : Evolves p s t) : Evolves p s (applyPending k r time t) := by
  unfold Machine.applyPending; split
  · exact h.withEst.applyTable
  · exact h
theorem thicknessRelease {k} (h : Evolves p s t) : Evolves p s (thicknessRelease k t) := h.setMode.applyPending
theorem thicknessTripReset {time} (h : Evolves p s t) : Evolves p s (thicknessTripReset time t) :=
  foldl (fun _ _ h => h.applyPending) _ _ h.est
theorem loadInitial {k} (h : Evolves p s t) : Evolves p s (loadInitial k t) := ite h h.withEst
theorem thicknessRunEntry (h : Evolves p s t) : Evolves p s (thicknessRunEntry t) :=
  (foldl (fun _ _ h => h.applyPending) _ _ (foldl (fun _ _ h => h.loadInitial) _ _ h.est)).est
theorem setModulusWork {k x time} (h : Evolves p s t) : Evolves p s (setModulusWork k x time t) := by
  unfold Machine.setModulusWork; split
  · exact h.retireTaken
  · split
    · exact h.retireTaken
    · exact ite h.retireTaken (ite h.applyTable.retireTaken h.withEst.retireTaken)
theorem ffUpdate {k m} (h : Evolves p s t) : Evolves p s (ffUpdate k m t) := h.withRef
theorem monUpdate {m} (h : Evolves p s t) : Evolves p s (monUpdate m t) := ite h h.withRef
theorem agcUpdate {k} (h : Evolves p s t) : Evolves p s (agcUpdate k t) := ite h h.withRef
theorem captureLock {k} (h : Evolves p s t) : Evolves p s (captureLock k t) := h.withRef
theorem clearTerms {k} (h : Evolves p s t) : Evolves p s (clearTerms k t) := h.withRef
theorem switchTerms {k} (h : Evolves p s t) : Evolves p s (switchTerms k t) := h.withRef
theorem gapTripReset (h : Evolves p s t) : Evolves p s (gapTripReset t) := h.gap
theorem endMove {k d b} (h : Evolves p s t) : Evolves p s (endMove k d b t) := by
  unfold Machine.endMove; split
  · exact h
  · exact h.retireLong.withMove
  · exact ite h h.withMove
  · exact h.retireLong.withMove
  · exact h.retireLong.withMove
theorem endMovesLevel (h : Evolves p s t) : Evolves p s (endMovesLevel t) := foldl (fun _ _ h => h.endMove) _ _ h
theorem endHold {k} (h : Evolves p s t) : Evolves p s (endHold k t) := by
  unfold Machine.endHold; split
  · exact h.withMove
  · exact h
theorem leaveVacant {k} (h : Evolves p s t) : Evolves p s (leaveVacant k t) := ite h.endHold.gap h.endHold
theorem firstBase {k} (h : Evolves p s t) : Evolves p s (firstBase k t) := ite h h.withRef
theorem moveTest {k a b g} (h : Evolves p s t) : Evolves p s (moveTest k a b g t) := by
  unfold Machine.moveTest; split
  · exact h
  · exact h
  · exact ite h.retireLong.withMove h.withMove
  · exact ite h.recordZero.withRef h.withMove
  · exact ite h.retireLong.withMove h
theorem gapReply {k a b l lb} (h : Evolves p s t) : Evolves p s (gapReply k a b l lb t) := by
  have h2 : Evolves p s (if l then Machine.endMove k .station true (Machine.firstBase k t) else Machine.firstBase k t) :=
    ite h.firstBase.endMove h.firstBase
  exact (ite h2.agcUpdate h2).moveTest
theorem sendBase {k b x y} (h : Evolves p s t) : Evolves p s (sendBase k b x y t) := h.withRef
theorem holdFrame {k x} (h : Evolves p s t) : Evolves p s (holdFrame k x t) := h.withRef
theorem assemble {k} (h : Evolves p s t) : Evolves p s (assemble k t) := h.withRef
theorem timeoutTest {k} (h : Evolves p s t) : Evolves p s (timeoutTest k t) := ite h.endMove h
theorem rampStep {k x} (h : Evolves p s t) : Evolves p s (rampStep k x t) := h.sendBase
theorem calOpenStep {k} (h : Evolves p s t) : Evolves p s (calOpenStep k t) := h.sendBase
theorem prepareByMove {k} (h : Evolves p s t) : Evolves p s (prepareByMove k t) := by
  unfold Machine.prepareByMove; dsimp only; split
  · exact ite h.holdFrame h.assemble
  · exact h.sendBase
  · exact h.sendBase
  · exact ite h.sendBase h.withMove.calOpenStep
  · exact h.calOpenStep
theorem prepareMove {k} (h : Evolves p s t) : Evolves p s (prepareMove k t) :=
  ite h.timeoutTest.rampStep h.timeoutTest.prepareByMove
theorem prepare {k} (h : Evolves p s t) : Evolves p s (prepare k t) :=
  ite h.sendBase.withRef (ite (ite h.sendBase h.holdFrame) h.prepareMove)
theorem setTrimWork {k x} (h : Evolves p s t) : Evolves p s (setTrimWork k x t) :=
  ite h.retireTaken h.withRef.retireTaken
theorem acceptLong {k q m} (h : Evolves p s t) : Evolves p s (acceptLong k q m t) := h.orders.withMove
theorem presetGapWork {q k x y time} (h : Evolves p s t) : Evolves p s (presetGapWork q k x y time t) :=
  ite h.retireTaken (ite h.retireTaken (ite h.retireTaken (ite h.retireTaken (ite h.retireTaken (ite h.retireTaken
    (ite h.retireTaken (ite h.retireTaken h.acceptLong)))))))
theorem calibrateZeroWork {q k time} (h : Evolves p s t) : Evolves p s (calibrateZeroWork q k time t) :=
  ite h.retireTaken (ite h.retireTaken (ite h.retireTaken (ite h.retireTaken (ite h.retireTaken h.acceptLong))))
theorem abortMove {k} (h : Evolves p s t) : Evolves p s (abortMove k t) := by
  unfold Machine.abortMove; split
  · exact h
  · exact h
  · exact h.endMove
  · exact h.withMove
  · exact h.withMove
theorem abortMoveWork {k} (h : Evolves p s t) : Evolves p s (abortMoveWork k t) :=
  ite h.retireTaken (ite h.retireTaken (ite h.retireTaken h.abortMove.retireFree))

/-! ### The Schedule Store -/

theorem freeSlot {x c time} (h : Evolves p s t) : Evolves p s (freeSlot x c time t) := h.note.withSlot
theorem settleLeft {x c time} (h : Evolves p s t) : Evolves p s (settleLeft x c time t) :=
  ite (ite h.withSlot h.freeSlot) h
theorem takeInForce {x} (h : Evolves p s t) : Evolves p s (takeInForce x t) := ite h.withSlot h
theorem switchStand {k x c f time} (h : Evolves p s t) : Evolves p s (switchStand k x c f time t) := by
  unfold Machine.switchStand; dsimp only
  refine takeInForce ?_
  split
  · exact h.store.switchTerms.endHold.note.settleLeft
  · exact h.store.switchTerms.endHold.note
theorem switchStands {ks x c f time} (h : Evolves p s t) : Evolves p s (switchStands ks x c f time t) :=
  foldl (fun _ _ h => h.switchStand) _ _ h
theorem releaseSwitch {k} (h : Evolves p s t) : Evolves p s (releaseSwitch k t) := by
  unfold Machine.releaseSwitch; split
  · exact h
  · exact ite h.switchStand h
theorem markDeparted {x} (h : Evolves p s t) : Evolves p s (markDeparted x t) := by
  unfold Machine.markDeparted; split
  · exact h
  · exact ite h.freeSlot h
theorem slotsFlushed {time} (h : Evolves p s t) : Evolves p s (slotsFlushed time t) :=
  foldl (fun _ _ h => ite h.freeSlot h) _ _ h
theorem loadInto {x r ks time} (h : Evolves p s t) : Evolves p s (loadInto x r ks time t) :=
  h.withSlot.store.switchStands.retireTaken
theorem loadScheduleWork {x time} (h : Evolves p s t) : Evolves p s (loadScheduleWork x time t) := by
  unfold Machine.loadScheduleWork; split
  · exact h.retireTaken
  · split
    · exact h.retireTaken
    · split
      · exact h.loadInto
      · exact h.loadInto
      · exact h.loadInto
      · exact h.retireTaken
theorem unloadScheduleWork {x time} (h : Evolves p s t) : Evolves p s (unloadScheduleWork x time t) := by
  unfold Machine.unloadScheduleWork; split
  · exact h.retireTaken
  · exact ite h.freeSlot.retireFree h.retireTaken
theorem collapseSlots {c time} (h : Evolves p s t) : Evolves p s (collapseSlots c time t) := by
  unfold Machine.collapseSlots; split
  · exact h
  · exact ite (ite h.switchStands.freeSlot h.switchStands) h
theorem dropMismatch {x} (h : Evolves p s t) : Evolves p s (dropMismatch x t) := ite h.freeSlot.store h
theorem slotsRunEntry (h : Evolves p s t) : Evolves p s (slotsRunEntry t) := by
  unfold Machine.slotsRunEntry; dsimp only
  refine store ?_
  split
  · exact h.dropMismatch.dropMismatch.collapseSlots.switchStands
  · exact h.dropMismatch.dropMismatch.collapseSlots

/-! ### The Trip Unit -/

theorem applyEntry {e ks} (h : Evolves p s t) : Evolves p s (applyEntry e ks t) :=
  foldl (fun _ _ h => h.endMove) _ _ (h.acted ks e.actions e.entryStop)
theorem takeCause {c k time} (h : Evolves p s t) : Evolves p s (takeCause c k time t) := by
  unfold Machine.takeCause; dsimp only
  refine rewriteTripArea ?_
  split
  · exact (h.recorded c k time).applyEntry
  · exact h.recorded c k time
theorem takeCauses {cs time} (h : Evolves p s t) : Evolves p s (takeCauses cs time t) :=
  foldl (fun _ _ h => h.takeCause) _ _ h
theorem takeRaised (h : Evolves p s t) : Evolves p s (takeRaised t) := (h.withTracker (by rfl)).takeCauses
theorem replyCheck {k a b f} (h : Evolves p s t) : Evolves p s (replyCheck k a b f t) := h.takeCauses
theorem becomeReady {k} (h : Evolves p s t) : Evolves p s (becomeReady k t) := ite h (h.ready _).rewriteTripArea
theorem raiseOrdered {ks time} (h : Evolves p s t) : Evolves p s (raiseOrdered ks time t).1 := by
  suffices ∀ (a : State × Nat), Evolves p s a.1 → Evolves p s (ks.foldl (fun a k =>
      (Machine.takeCause .ordered k time a.1, a.2 + bit (isRecorded a.1 .ordered k))) a).1 from this _ h
  induction ks with
  | nil => exact fun _ h => h
  | cons k ks ih => exact fun a h => ih _ h.takeCause
theorem tripStandsWork {a b time} (h : Evolves p s t) : Evolves p s (tripStandsWork a b time t) :=
  ite h.retireTaken (ite h.retireTaken h.raiseOrdered.retireTaken)

/-! ### The gauge -/

theorem expireSample (h : Evolves p s t) : Evolves p s (expireSample t) := ite h.gauge h
theorem gaugeReply {v x} (h : Evolves p s t) : Evolves p s (gaugeReply v x t) := ite h.gauge h.expireSample
theorem gaugeSilent (h : Evolves p s t) : Evolves p s (gaugeSilent t) := h.gauge
theorem gaugePresent (h : Evolves p s t) : Evolves p s (gaugePresent t) := h.gauge
theorem toleranceVerdict {m} (h : Evolves p s t) : Evolves p s (toleranceVerdict m t) := ite h h.gauge.note
theorem pairMark {m} (h : Evolves p s t) : Evolves p s (pairMark m t) := by
  unfold Machine.pairMark
  extract_lets pd g0 s1 s2 s3 s4 g s5 s6
  have h1 : Evolves p s s1 := ite h.gauge h
  have h2 : Evolves p s s2 := ite h1.monUpdate h1
  have h3 : Evolves p s s3 := ite h2.toleranceVerdict h2
  have h4 : Evolves p s s4 := ite h3.note h3
  have h5 : Evolves p s s5 := h4.gauge
  exact ite h5.note.gauge h5
theorem gaugeTripReset (h : Evolves p s t) : Evolves p s (gaugeTripReset t) := h.gauge
theorem gaugeRunEntry (h : Evolves p s t) : Evolves p s (gaugeRunEntry t) := h.gauge

/-! ### The Strip Tracker -/

theorem summaryAfter {b} (h : Evolves p s t) : Evolves p s (summaryAfter b t) := ite h h.rewriteSummary
theorem pairMark_tracker (m : Mark) (t : State) : (Machine.pairMark m t).tracker = t.tracker := by
  have hn : ∀ (r : JournalRecord) (t : State), (journal r t).tracker = t.tracker := by
    intro r t; unfold journal; split <;> rfl
  have hm : ∀ t : State, (Machine.monUpdate m t).tracker = t.tracker := by
    intro t; unfold Machine.monUpdate; dsimp only; split <;> rfl
  have hv : ∀ t : State, (Machine.toleranceVerdict m t).tracker = t.tracker := by
    intro t; unfold Machine.toleranceVerdict; dsimp only; split
    · rfl
    · exact hn _ _
  unfold Machine.pairMark
  extract_lets pd g0 s1 s2 s3 s4 g s5 s6
  have h1 : s1.tracker = t.tracker := by simp only [s1]; split <;> rfl
  have h2 : s2.tracker = t.tracker := by simp only [s2]; split <;> simp only [hm, h1]
  have h3 : s3.tracker = t.tracker := by simp only [s3]; split <;> simp only [hv, h2]
  have h4 : s4.tracker = t.tracker := by
    simp only [s4]; split
    · exact (hn _ _).trans h3
    · exact h3
  have h5 : s5.tracker = t.tracker := h4
  split
  · exact (hn _ _).trans h5
  · exact h5

theorem holdMark {k m q x} (hp : p.track = true) (hz : t.zone k = m :: q) (h : Evolves p s t) :
    Evolves p s (holdMark k m q x t) := by
  unfold Machine.holdMark
  extract_lets late m' s1 s2 s3
  have h1 : Evolves p s s1 := h.fronted k m m' q hp hz rfl rfl
  have h2 : Evolves p s s2 := ite h1.raiseCause h1
  have h3 : Evolves p s s3 := ite h2.raiseCause h2
  exact ite h3.note h3
theorem departMark {k m q} (hp : p.track = true) (hz : t.zone k = m :: q) (h : Evolves p s t) :
    Evolves p s (departMark k m q t) := by
  refine markDeparted (departed k m q hp ?_ h.pairMark)
  unfold State.zone
  rw [pairMark_tracker]
  exact hz
theorem arriveBehind {k} (hp : p.track = true) (h : Evolves p s t) : Evolves p s (arriveBehind k t) := by
  rcases arriveBehind_cases k t with e | ⟨q, x, hz, e | e⟩ <;> rw [e]
  · exact h
  · exact h.held k q x _ hp hz
  · exact (h.held k q x _ hp hz).raiseCause
theorem arrive (fuel : Nat) (hp : p.track = true) : ∀ k x t, Evolves p s t → Evolves p s (arrive fuel k x t).1 := by
  induction fuel with
  | zero => exact fun _ _ _ h => h
  | succ n ih =>
    intro k x t h
    unfold Machine.arrive
    split
    · exact h
    · rename_i m q hz
      split
      · exact h.departMark hp hz
      · split
        · dsimp only
          split
          · exact ih _ _ _ (h.passed k m q hp hz)
          · exact (h.passed k m q hp hz).arriveBehind hp
        · exact h.holdMark hp hz
theorem passFront {k} (hp : p.track = true) (h : Evolves p s t) : Evolves p s (passFront k t) := by
  unfold Machine.passFront; split
  · exact h
  · rename_i m q hz
    exact ite (arrive _ hp _ _ _ (h.passed k m q hp hz)) ((h.passed k m q hp hz).arriveBehind hp)
theorem entryLoop (fuel : Nat) (hp : p.track = true) : ∀ k t, Evolves p s t → Evolves p s (entryLoop fuel k t) := by
  induction fuel with
  | zero => exact fun _ _ h => h
  | succ n ih =>
    intro k t h
    unfold Machine.entryLoop
    split
    · exact h
    · exact ite (ite (ih _ _ (arrive _ hp _ _ _ h)) (arrive _ hp _ _ _ h)) h
theorem advanceWalk (fuel : Nat) (hp : p.track = true) :
    ∀ k d t, Evolves p s t → Evolves p s (advanceWalk fuel k d t) := by
  induction fuel with
  | zero => exact fun _ _ _ h => h
  | succ n ih =>
    intro k d t h
    unfold Machine.advanceWalk
    split
    · exact h
    · rename_i m q hz
      dsimp only
      split
      · exact h.advanced k d m { m with pos := m.pos + d } q hp hz rfl (Nat.le_add_right _ _) (.inl (Nat.le_of_lt ‹_›))
      · split
        · exact ih _ _ _ (arrive _ hp _ _ _ h)
        · split
          · exact arrive _ hp _ _ _ h
          · rename_i m' q' hz'
            exact (arrive _ hp _ _ _ h).advanced k d m' m' q' hp hz' rfl (Nat.le_refl _) (.inr rfl)
theorem advanceZone {k v dt} (hp : p.track = true) (h : Evolves p s t) : Evolves p s (advanceZone k v dt t).1 := by
  unfold Machine.advanceZone; split
  · exact h
  · exact advanceWalk _ hp _ _ _ (h.withTracker (by rfl))
theorem skipCut {kind} (h : Evolves p s t) : Evolves p s (skipCut kind t) := ite h (h.withTracker (by rfl)).note
theorem loadGenerator (h : Evolves p s t) : Evolves p s (loadGenerator t) := h.withGen
theorem stopGenerator (h : Evolves p s t) : Evolves p s (stopGenerator t) := h.withGen
theorem cutAtZero {kind} (hp : p.track = true) (hr : t.hasRoom = true) (h : Evolves p s t) :
    Evolves p s (cutMark kind 0 t) :=
  h.cut kind 0 hp hr (fun _ _ => Nat.zero_le _) (fun _ => Nat.zero_le _)
theorem cutHead (hp : p.track = true) (h : Evolves p s t) : Evolves p s (cutHead t) := by
  unfold Machine.cutHead; split
  · exact (ite (arrive _ hp _ _ _ (h.cutAtZero hp ‹_›)) ((h.cutAtZero hp ‹_›).arriveBehind hp)).loadGenerator
  · exact h.skipCut.loadGenerator
theorem cutBody {x} (hp : p.track = true) (h : Evolves p s t) : Evolves p s (cutBody x t) := by
  unfold Machine.cutBody; split
  · split
    · rename_i m hm
      refine h.cut _ _ hp ‹_› (fun m' hm' => ?_) (fun he => ?_)
      · rw [hm] at hm'; cases hm'; exact Nat.min_le_right _ _
      · rw [he] at hm; cases hm
    · rename_i hm
      split
      · exact arrive _ hp _ _ _ (h.cut _ _ hp ‹_› (fun m' hm' => by rw [hm] at hm'; cases hm') (fun _ => Nat.le_refl _))
      · exact h.cut _ _ hp ‹_› (fun m' hm' => by rw [hm] at hm'; cases hm') (fun _ => by omega)
  · exact h.skipCut
theorem cutLoop (fuel : Nat) (hp : p.track = true) : ∀ t, Evolves p s t → Evolves p s (cutLoop fuel t) := by
  induction fuel with
  | zero => exact fun _ h => h
  | succ n ih =>
    intro t h
    unfold Machine.cutLoop
    exact ite (ih _ (h.cutBody hp).withGen) h
theorem countDown {d} (hp : p.track = true) (h : Evolves p s t) : Evolves p s (countDown d t) :=
  ite (cutLoop _ hp _ h.withGen) h
theorem cutTail (hp : p.track = true) (h : Evolves p s t) : Evolves p s (cutTail t) := by
  refine stopGenerator ?_
  split
  · exact h.cutAtZero hp ‹_›
  · exact h.skipCut
theorem flush {time} (h : Evolves p s t) : Evolves p s (flush time t) := (slotsFlushed (gauge h.emptied)).rewriteSummary

/-! ### Stand threading -/

theorem takeNotices {k} (h : Evolves p s t) : Evolves p s (takeNotices k t) := by
  have h1 : Evolves p s (takeReleaseNotice k t) := ite h.withThread h
  unfold Machine.takeNotices takeHeadNotice; dsimp only
  split
  · exact h1
  · exact ite h1.withThread.leaveVacant h1.withThread
theorem updateRuns {k f} (h : Evolves p s t) : Evolves p s (updateRuns k f t) := h.withThread
theorem noticesAndRuns {k f} (h : Evolves p s t) : Evolves p s (noticesAndRuns k f t) := h.takeNotices.updateRuns
theorem clearRuns {k} (h : Evolves p s t) : Evolves p s (clearRuns k t) := h.withThread
theorem startBiting {k} (h : Evolves p s t) : Evolves p s (startBiting k t) := h.withThread
theorem setHeadNotices {c} (h : Evolves p s t) : Evolves p s (setHeadNotices c t) :=
  foldl (fun _ _ h => h.withThread) _ _ h
theorem forgetAnnouncement (h : Evolves p s t) : Evolves p s (forgetAnnouncement t) := ite h.withThread h
theorem noteBite1 {u i} (h : Evolves p s t) : Evolves p s (noteBite1 u i t) := ite h.note.note h.note
theorem bite1 (hp : p.track = true) (h : Evolves p s t) : Evolves p s (bite1 t) := by
  unfold Machine.bite1
  extract_lets un room id s1 s2 s3
  have h1 : Evolves p s s1 := h.forgetAnnouncement.startBiting.cutHead hp
  have h2 : Evolves p s s2 := ite h1.setHeadNotices h1
  have h3 : Evolves p s s3 := h2.noteBite1.setMode
  exact ite h3.leaveVacant h3
theorem noteCorrected {k m} (h : Evolves p s t) : Evolves p s (noteCorrected k m t) := ite h h.note
theorem biteHead {k m} (hp : p.track = true) (h : Evolves p s t) : Evolves p s (biteHead k m t) := by
  unfold Machine.biteHead
  extract_lets s1 t1 s2 s3 t3 s4
  have h2 : Evolves p s s2 := h.noteCorrected.startBiting.withThread.passFront hp
  have h3 : Evolves p s s3 := entryLoop _ hp _ _ h2
  have h4 : Evolves p s s4 := ite h3.withThread h3
  exact h4.note.setMode
theorem loadOnAt {k} (hp : p.track = true) (h : Evolves p s t) : Evolves p s (loadOnAt k t) := by
  unfold Machine.loadOnAt
  refine ite (h.bite1 hp) (ite h.raiseCause ?_)
  split
  · exact h.biteHead hp
  · exact h.raiseCause
theorem advanceLock {k} (h : Evolves p s t) : Evolves p s (advanceLock k t) :=
  ite h.withThread.captureLock (ite h.withThread h)
theorem stateAfterRelease {k} (h : Evolves p s t) : Evolves p s (stateAfterRelease k t) := by
  unfold Machine.stateAfterRelease; dsimp only
  refine ite h.withThread ?_
  split
  · exact h.withThread
  · exact ite h.withThread h.withThread
theorem notifyRelease {k} (h : Evolves p s t) : Evolves p s (notifyRelease k t) := ite h.withThread h
theorem releaseWork {k c i} (h : Evolves p s t) : Evolves p s (releaseWork k c i t) :=
  h.withThread.clearTerms.thicknessRelease.releaseSwitch.notifyRelease.note
theorem release1 (hp : p.track = true) (h : Evolves p s t) : Evolves p s (release1 t) :=
  (h.cutTail hp).stateAfterRelease.releaseWork
theorem releaseTail {k m} (hp : p.track = true) (h : Evolves p s t) : Evolves p s (releaseTail k m t) :=
  (entryLoop _ hp _ _ (h.noteCorrected.passFront hp).stateAfterRelease).releaseWork
theorem loadOffAt {k} (hp : p.track = true) (h : Evolves p s t) : Evolves p s (loadOffAt k t) := by
  unfold Machine.loadOffAt
  refine ite (h.release1 hp) (ite h.raiseCause ?_)
  split
  · exact h.releaseTail hp
  · exact h.raiseCause
theorem confirmOrLock {k} (hp : p.track = true) (h : Evolves p s t) : Evolves p s (confirmOrLock k t) :=
  ite (h.clearRuns.loadOnAt hp) (ite (h.clearRuns.loadOffAt hp) h.advanceLock)
theorem threadingWork {k f} (hp : p.track = true) (h : Evolves p s t) : Evolves p s (threadingWork k f t) :=
  h.noticesAndRuns.confirmOrLock hp
theorem generatorWork {f d} (hp : p.track = true) (h : Evolves p s t) : Evolves p s (generatorWork f d t) :=
  ite h (h.countDown hp)
/-- Work that may not change the level leaves it. -/
theorem level_eq (hl : p.level = false) (h : Evolves p s t) : t.level = s.level := by
  induction h with
  | refl => rfl
  | quiet _ hq ih => rw [hq.level, ih]
  | noted r _ ih => rw [← ih]; unfold journal; split <;> rfl
  | attn _ _ ih => exact ih
  | wrote _ _ _ ih => exact ih
  | recorded c k time _ ih =>
    rw [← ih]; unfold recordCause; dsimp only
    split
    · unfold setAttention Machine.note journal; dsimp only; split <;> rfl
    · split
      · rfl
      · split
        · unfold Machine.note journal; dsimp only; split <;> rfl
        · rfl
  | acted _ _ _ _ ih => exact ih
  | ready _ _ ih => exact ih
  | cleared _ _ ih => exact ih
  | leveled _ hp _ _ => rw [hl] at hp; cases hp
  | lined _ _ _ _ ih => exact ih
  | entered _ _ _ _ _ ih => exact ih
  | indexRead _ _ _ _ ih => exact ih
  | lossReported _ _ ih => rw [← ih]; unfold reportLoss; split <;> rfl
  | passed k m q _ _ _ ih => rw [← ih]; unfold passMark; dsimp only; split <;> rfl
  | fronted _ _ _ _ _ _ _ _ _ ih => exact ih
  | advanced _ _ _ _ _ _ _ _ _ _ _ ih => exact ih
  | held _ _ _ _ _ _ _ ih => exact ih
  | departed _ _ _ _ _ _ ih => exact ih
  | cut _ _ _ _ _ _ _ ih => exact ih
  | emptied _ ih => exact ih

/-- Work on replies moves marks at RUN alone, and writes nothing from the port. -/
structure Working (p : Permit) (s : State) : Prop where
  level : p.level = false
  port : p.port = false
  track : s.level = .run → p.track = true

theorem Working.active (hw : Working p s) (h : Evolves p s t) (ha : trackerActive t = true) : p.track = true := by
  refine hw.track ?_
  rw [← h.level_eq hw.level]
  unfold trackerActive at ha
  simp only [Bool.and_eq_true, beq_iff_eq] at ha
  exact ha.1

theorem trackerWork {k f v dt} (hw : Working p s) (h : Evolves p s t) : Evolves p s (trackerWork k f v dt t) := by
  unfold Machine.trackerWork; split
  · have hp := hw.active h ‹_›
    exact (threadingWork hp (ite ((h.advanceZone hp).generatorWork hp) (h.advanceZone hp))).summaryAfter
  · exact h
theorem resetThreading (h : Evolves p s t) : Evolves p s (resetThreading t) := h.withTracker (by rfl)
theorem checkCoil {c x time} (h : Evolves p s t) : Evolves p s (checkCoil c x time t) := ite h h.note
theorem announceHeadWork {c x time} (h : Evolves p s t) : Evolves p s (announceHeadWork c x time t) :=
  ite h.retireTaken (ite h.retireTaken (ite h.retireTaken (ite h.retireTaken
    h.withThread.leaveVacant.checkCoil.retireTaken)))

/-! ### The stand link -/

theorem becomeSilent {e} (h : Evolves p s t) : Evolves p s (becomeSilent e t) := by
  unfold Machine.becomeSilent; dsimp only
  split
  · exact (ite h.withStation.note.takeCause h.withStation.note).endMove
  · exact h.withStation.note.gaugeSilent
theorem becomePresent {e} (h : Evolves p s t) : Evolves p s (becomePresent e t) := by
  unfold Machine.becomePresent
  extract_lets st s1 s2
  have h2 : Evolves p s s2 := ite h.withStation.note h.withStation
  split
  · exact ite h2.becomeReady h2
  · exact h2.gaugePresent
theorem prepareEntry {e} (h : Evolves p s t) : Evolves p s (prepareEntry e t) := by
  cases e
  · exact h.prepare
  · exact h
theorem beginExchange {i l} (h : Evolves p s t) : Evolves p s (beginExchange i l t) := by
  unfold Machine.beginExchange; split
  · exact h.withCycle
  · exact h.prepareEntry.link.withCycle
theorem startCycle {l} (h : Evolves p s t) : Evolves p s (startCycle l t) := h.cycleClock.beginExchange
theorem nextExchange (h : Evolves p s t) : Evolves p s (nextExchange t) := by
  unfold Machine.nextExchange; split
  · exact h
  · exact ite h.beginExchange (ite h.link.startCycle h.withCycle)
theorem nextExchangeAt {now} (hw : Working p s) (h : Evolves p s t) : Evolves p s (nextExchangeAt now t) :=
  h.timed hw.port now Evolves.refl.nextExchange
theorem doWork {k a b v f lb dt now w} (hw : Working p s) (h : Evolves p s t) :
    Evolves p s (doWork k a b v f lb dt now w t) := by
  cases w
  · exact h.trackerWork hw
  · exact h.gapReply
  · exact h.takeRaised
  · exact h.replyCheck
  · exact h.nextExchangeAt hw
theorem deliverStand {k a b v f plan l now} (hw : Working p s) (h : Evolves p s t) :
    Evolves p s (deliverStand k a b v f plan l now t) :=
  (foldl (fun _ _ h => h.doWork hw) _ _ h.withStation.estimateReply).writeImage
theorem onlyNextPoll {plan now} (hw : Working p s) (h : Evolves p s t) : Evolves p s (onlyNextPoll plan now t) :=
  ite (h.nextExchangeAt hw) h
theorem validReply {e r plan l now} (hw : Working p s) (h : Evolves p s t) :
    Evolves p s (validReply e r plan l now t) := by
  unfold Machine.validReply
  extract_lets st next s1 s2 s3
  have h1 : Evolves p s s1 := h.withStation
  have h2 : Evolves p s s2 := ite h1 h1.becomePresent
  have h3 : Evolves p s s3 := h1.withStation
  split
  · split
    · exact h2.deliverStand hw
    · exact h2.withStation.gaugeReply.onlyNextPoll hw
    · exact h2
    · exact h2
  · split
    · exact h3.writeImage.onlyNextPoll hw
    · exact h3.onlyNextPoll hw
theorem missReply {e l} (h : Evolves p s t) : Evolves p s (missReply e l t) := by
  unfold Machine.missReply
  extract_lets st s1 s2
  have h2 : Evolves p s s2 := ite h.withStation.becomeSilent h.withStation
  split
  · exact h2.writeImage
  · exact h2.expireSample
theorem endWithMiss {e l b now} (hw : Working p s) (h : Evolves p s t) : Evolves p s (endWithMiss e l b now t) :=
  ite (h.nextExchangeAt hw).missReply (h.missReply.nextExchangeAt hw)
theorem loopbackExchange {e} (h : Evolves p s t) : Evolves p s (loopbackExchange t e) := by
  unfold Machine.loopbackExchange
  extract_lets s1 st0 st s2 s3 st3 s4
  have h3 : Evolves p s s3 := ite h.prepareEntry.withStation h.prepareEntry.withStation.becomePresent
  have h4 : Evolves p s s4 := h3.withStation
  split
  · exact writeImage (moveTest (firstBase (recordReply h4)))
  · exact h4.gaugeReply
theorem loopbackCycle (h : Evolves p s t) : Evolves p s (loopbackCycle t) :=
  foldl (fun _ _ h => h.loopbackExchange) _ _ h.cycleClock
theorem cycleOnExpiry (h : Evolves p s t) : Evolves p s (cycleOnExpiry t) := by
  unfold Machine.cycleOnExpiry; split
  · exact h.startCycle
  · exact ite h h.loopbackCycle
  · exact h
  · exact h
theorem timerExpiry (h : Evolves p s t) : Evolves p s (timerExpiry t) := ite h.link.link h.link.cycleOnExpiry
theorem frameEnded {c e f b plan now} (hw : Working p s) (h : Evolves p s t) :
    Evolves p s (frameEnded c e f b plan now t) := by
  unfold Machine.frameEnded; split
  · exact h.validReply hw
  · exact h.endWithMiss hw

/-! ### Trip reset and levels -/

theorem acceptReset {time} (hp : p.reset = true) (h : Evolves p s t) : Evolves p s (acceptReset time t) :=
  (note (collapseSlots (gapTripReset (gaugeTripReset (thicknessTripReset
    (resetThreading (flush (h.cleared hp)))))))).rewriteTripArea
theorem resetTripWork {time} (hp : p.reset = true) (h : Evolves p s t) : Evolves p s (resetTripWork time t) := by
  unfold Machine.resetTripWork; split
  · exact h.retireTaken
  · split
    · exact h.retireTaken
    · exact (h.acceptReset hp).retireTaken
theorem ownerWork {c} (hp : c.order = .resetTrip → p.reset = true) (h : Evolves p s t) : Evolves p s (ownerWork c t) := by
  unfold Machine.ownerWork; split
  · exact h.announceHeadWork
  · exact h.setModulusWork
  · exact h.setTrimWork
  · exact h.loadScheduleWork
  · exact h.unloadScheduleWork
  · exact h.presetGapWork
  · exact h.calibrateZeroWork
  · exact h.abortMoveWork
  · exact h.tripStandsWork
  · exact h.resetTripWork (hp ‹_›)
theorem finishTaken (hr : t.orders.copy.map OrderCopy.order = some .resetTrip → p.reset = true) (h : Evolves p s t) :
    Evolves p s (finishTaken t) := by
  unfold Machine.finishTaken; split
  · exact h.ownerWork fun hc => hr (by simp [*])
  · exact h
theorem stopLink (h : Evolves p s t) : Evolves p s (stopLink t) := h.link
theorem levelDrop (h : Evolves p s t) : Evolves p s (levelDrop t) := ite h.takeCause h
theorem leaveRun {l} (hp : p.level = true) (h : Evolves p s t) : Evolves p s (leaveRun l t) :=
  flush (stopLink ((levelDrop (endMovesLevel h)).leveled l hp))
theorem startLink {l} (h : Evolves p s t) : Evolves p s (startLink t l) := h.link
theorem enterLoopback (hp : p.level = true) (h : Evolves p s t) : Evolves p s (enterLoopback t) := by
  unfold Machine.enterLoopback; dsimp only
  split
  · exact (startLink (gap (h.leveled .loopback hp))).loopbackCycle
  · exact link (gap (h.leveled .loopback hp))
theorem resumeIntake {b} (h : Evolves p s t) : Evolves p s (resumeIntake b t) := ite h.freeToTake h
theorem requestConfigure (hp : p.level = true) (hr : t.orders.copy.map OrderCopy.order = some .resetTrip → p.reset = true)
    (h : Evolves p s t) : Evolves p s (requestConfigure t) := by
  unfold Machine.requestConfigure; split
  · exact (h.leveled .configure hp).startIntake
  · exact h
  · exact (((h.finishTaken hr).endMovesLevel.leveled .configure hp).stopLink).resumeIntake
  · exact ((h.finishTaken hr).leaveRun hp).resumeIntake
theorem requestLoopback (hp : p.level = true) (hr : t.orders.copy.map OrderCopy.order = some .resetTrip → p.reset = true)
    (h : Evolves p s t) : Evolves p s (requestLoopback t) := by
  unfold Machine.requestLoopback; split
  · exact (h.enterLoopback hp).startIntake
  · exact ((h.finishTaken hr).enterLoopback hp).resumeIntake
  · exact h
  · exact (((h.finishTaken hr).leaveRun hp).enterLoopback hp).resumeIntake
theorem tripRunEntry (hp : p.entry = true) (h : Evolves p s t) : Evolves p s (tripRunEntry t) := by
  unfold Machine.tripRunEntry
  extract_lets m t0 s1
  have h1 : Evolves p s s1 := (h.entered _ _ _ hp).rewriteTripArea
  exact ite h1.takeCause h1
theorem takeLine {l} (hp : p.level = true) (hl : p.line = true) (h : Evolves p s t) : Evolves p s (takeLine l t) := by
  unfold Machine.takeLine
  extract_lets s1
  have h1 : Evolves p s s1 := (h.lined (some l) 0 hl).leveled .run hp
  exact ite h1.startIntake h1
theorem enterRun {l} (hp : p.level = true) (hl : p.line = true) (he : p.entry = true) (h : Evolves p s t) : Evolves p s (enterRun l t) := by
  have h0 : Evolves p s (leaveLoopback t) := ite h.endMovesLevel.stopLink h
  exact images (startCycle (startLink (tripRunEntry he (gap
    (h0.takeLine hp hl).thicknessRunEntry.gaugeRunEntry.slotsRunEntry.resetThreading.rewriteSummary))))
theorem validateAndEnter (hp : p.level = true) (hl : p.line = true) (he : p.entry = true)
    (hr : t.orders.copy.map OrderCopy.order = some .resetTrip → p.reset = true)
    (h : Evolves p s t) : Evolves p s (validateAndEnter t) := by
  unfold Machine.validateAndEnter; split
  · exact (h.lined t.line _ hl).attn attnConfig
  · exact ((h.finishTaken hr).enterRun hp hl he).resumeIntake
theorem requestRun (hp : p.level = true) (hl : p.line = true) (he : p.entry = true)
    (hr : t.orders.copy.map OrderCopy.order = some .resetTrip → p.reset = true)
    (h : Evolves p s t) : Evolves p s (requestRun t) := by
  unfold Machine.requestRun; split
  · exact h
  · exact h.validateAndEnter hp hl he hr
  · exact h.validateAndEnter hp hl he hr
  · exact h.validateAndEnter hp hl he hr

/-! ### The port -/

theorem journalReadEvent {v} (hp : p.port = true) (h : Evolves p s t) : Evolves p s (journalReadEvent v t) := by
  unfold Machine.journalReadEvent; split
  · exact (h.indexRead v hp ‹_›).lossReported hp
  · exact h
theorem arrivalEvent {a} (h : Evolves p s t) : Evolves p s (arrivalEvent a t) := ite h.freeToTake h
theorem portWrite {a v} (hp : a = journalReadAt → p.port = true) (h : Evolves p s t) :
    Evolves p s (portWrite a v t) := by
  unfold Machine.portWrite
  refine ite (h.attn attnProtect) (arrivalEvent ?_)
  split
  · exact (h.wrote a v).journalReadEvent (hp ‹_›)
  · exact h.wrote a v

end Evolves

end Sys2Proof.Machine
end

