-- ==== Sys2Proof/Laws/State.lean ====
section
/-! SUPPORT. One lemma for each field and each update of State: what an update leaves and what it writes. -/

namespace Sys2Proof.Machine

section setAttention
variable (b : BitVec 5) (s : State)

@[simp] theorem setAttention_clock : (setAttention b s).clock = s.clock := rfl
@[simp] theorem setAttention_resetLow : (setAttention b s).resetLow = s.resetLow := rfl
@[simp] theorem setAttention_etripPin : (setAttention b s).etripPin = s.etripPin := rfl
@[simp] theorem setAttention_level : (setAttention b s).level = s.level := rfl
@[simp] theorem setAttention_attention : (setAttention b s).attention = s.attention ||| b := rfl
@[simp] theorem setAttention_mask : (setAttention b s).mask = s.mask := rfl
@[simp] theorem setAttention_exm : (setAttention b s).exm = s.exm := rfl
@[simp] theorem setAttention_configResult : (setAttention b s).configResult = s.configResult := rfl
@[simp] theorem setAttention_cycleClock : (setAttention b s).cycleClock = s.cycleClock := rfl
@[simp] theorem setAttention_images : (setAttention b s).images = s.images := rfl
@[simp] theorem setAttention_tripArea : (setAttention b s).tripArea = s.tripArea := rfl
@[simp] theorem setAttention_summary : (setAttention b s).summary = s.summary := rfl
@[simp] theorem setAttention_journal : (setAttention b s).journal = s.journal := rfl
@[simp] theorem setAttention_line : (setAttention b s).line = s.line := rfl
@[simp] theorem setAttention_orders : (setAttention b s).orders = s.orders := rfl
@[simp] theorem setAttention_link : (setAttention b s).link = s.link := rfl
@[simp] theorem setAttention_tracker : (setAttention b s).tracker = s.tracker := rfl
@[simp] theorem setAttention_est : (setAttention b s).est = s.est := rfl
@[simp] theorem setAttention_gauge : (setAttention b s).gauge = s.gauge := rfl
@[simp] theorem setAttention_gap : (setAttention b s).gap = s.gap := rfl
@[simp] theorem setAttention_store : (setAttention b s).store = s.store := rfl
@[simp] theorem setAttention_trip : (setAttention b s).trip = s.trip := rfl
@[simp] theorem setAttention_pins : (setAttention b s).pins = s.pins := rfl
@[simp] theorem setAttention_freeIndex : (setAttention b s).freeIndex = s.freeIndex := rfl
@[simp] theorem setAttention_pending : (setAttention b s).pending = s.pending := rfl

end setAttention

section withEst
variable (s : State) (k : Nat) (e : Estimate)

@[simp] theorem withEst_clock : (s.withEst k e).clock = s.clock := rfl
@[simp] theorem withEst_resetLow : (s.withEst k e).resetLow = s.resetLow := rfl
@[simp] theorem withEst_etripPin : (s.withEst k e).etripPin = s.etripPin := rfl
@[simp] theorem withEst_level : (s.withEst k e).level = s.level := rfl
@[simp] theorem withEst_attention : (s.withEst k e).attention = s.attention := rfl
@[simp] theorem withEst_mask : (s.withEst k e).mask = s.mask := rfl
@[simp] theorem withEst_exm : (s.withEst k e).exm = s.exm := rfl
@[simp] theorem withEst_configResult : (s.withEst k e).configResult = s.configResult := rfl
@[simp] theorem withEst_cycleClock : (s.withEst k e).cycleClock = s.cycleClock := rfl
@[simp] theorem withEst_images : (s.withEst k e).images = s.images := rfl
@[simp] theorem withEst_tripArea : (s.withEst k e).tripArea = s.tripArea := rfl
@[simp] theorem withEst_summary : (s.withEst k e).summary = s.summary := rfl
@[simp] theorem withEst_journal : (s.withEst k e).journal = s.journal := rfl
@[simp] theorem withEst_line : (s.withEst k e).line = s.line := rfl
@[simp] theorem withEst_orders : (s.withEst k e).orders = s.orders := rfl
@[simp] theorem withEst_link : (s.withEst k e).link = s.link := rfl
@[simp] theorem withEst_tracker : (s.withEst k e).tracker = s.tracker := rfl
@[simp] theorem withEst_est : (s.withEst k e).est = s.est.set k e := rfl
@[simp] theorem withEst_gauge : (s.withEst k e).gauge = s.gauge := rfl
@[simp] theorem withEst_gap : (s.withEst k e).gap = s.gap := rfl
@[simp] theorem withEst_store : (s.withEst k e).store = s.store := rfl
@[simp] theorem withEst_trip : (s.withEst k e).trip = s.trip := rfl
@[simp] theorem withEst_pins : (s.withEst k e).pins = s.pins := rfl
@[simp] theorem withEst_freeIndex : (s.withEst k e).freeIndex = s.freeIndex := rfl
@[simp] theorem withEst_pending : (s.withEst k e).pending = s.pending := rfl

end withEst

section withRef
variable (s : State) (k : Nat) (r : Reference)

@[simp] theorem withRef_clock : (s.withRef k r).clock = s.clock := rfl
@[simp] theorem withRef_resetLow : (s.withRef k r).resetLow = s.resetLow := rfl
@[simp] theorem withRef_etripPin : (s.withRef k r).etripPin = s.etripPin := rfl
@[simp] theorem withRef_level : (s.withRef k r).level = s.level := rfl
@[simp] theorem withRef_attention : (s.withRef k r).attention = s.attention := rfl
@[simp] theorem withRef_mask : (s.withRef k r).mask = s.mask := rfl
@[simp] theorem withRef_exm : (s.withRef k r).exm = s.exm := rfl
@[simp] theorem withRef_configResult : (s.withRef k r).configResult = s.configResult := rfl
@[simp] theorem withRef_cycleClock : (s.withRef k r).cycleClock = s.cycleClock := rfl
@[simp] theorem withRef_images : (s.withRef k r).images = s.images := rfl
@[simp] theorem withRef_tripArea : (s.withRef k r).tripArea = s.tripArea := rfl
@[simp] theorem withRef_summary : (s.withRef k r).summary = s.summary := rfl
@[simp] theorem withRef_journal : (s.withRef k r).journal = s.journal := rfl
@[simp] theorem withRef_line : (s.withRef k r).line = s.line := rfl
@[simp] theorem withRef_orders : (s.withRef k r).orders = s.orders := rfl
@[simp] theorem withRef_link : (s.withRef k r).link = s.link := rfl
@[simp] theorem withRef_tracker : (s.withRef k r).tracker = s.tracker := rfl
@[simp] theorem withRef_est : (s.withRef k r).est = s.est := rfl
@[simp] theorem withRef_gauge : (s.withRef k r).gauge = s.gauge := rfl
@[simp] theorem withRef_gap : (s.withRef k r).gap = s.gap.set k r := rfl
@[simp] theorem withRef_store : (s.withRef k r).store = s.store := rfl
@[simp] theorem withRef_trip : (s.withRef k r).trip = s.trip := rfl
@[simp] theorem withRef_pins : (s.withRef k r).pins = s.pins := rfl
@[simp] theorem withRef_freeIndex : (s.withRef k r).freeIndex = s.freeIndex := rfl
@[simp] theorem withRef_pending : (s.withRef k r).pending = s.pending := rfl

end withRef

section withMove
variable (s : State) (k : Nat) (m : Move)

@[simp] theorem withMove_clock : (s.withMove k m).clock = s.clock := rfl
@[simp] theorem withMove_resetLow : (s.withMove k m).resetLow = s.resetLow := rfl
@[simp] theorem withMove_etripPin : (s.withMove k m).etripPin = s.etripPin := rfl
@[simp] theorem withMove_level : (s.withMove k m).level = s.level := rfl
@[simp] theorem withMove_attention : (s.withMove k m).attention = s.attention := rfl
@[simp] theorem withMove_mask : (s.withMove k m).mask = s.mask := rfl
@[simp] theorem withMove_exm : (s.withMove k m).exm = s.exm := rfl
@[simp] theorem withMove_configResult : (s.withMove k m).configResult = s.configResult := rfl
@[simp] theorem withMove_cycleClock : (s.withMove k m).cycleClock = s.cycleClock := rfl
@[simp] theorem withMove_images : (s.withMove k m).images = s.images := rfl
@[simp] theorem withMove_tripArea : (s.withMove k m).tripArea = s.tripArea := rfl
@[simp] theorem withMove_summary : (s.withMove k m).summary = s.summary := rfl
@[simp] theorem withMove_journal : (s.withMove k m).journal = s.journal := rfl
@[simp] theorem withMove_line : (s.withMove k m).line = s.line := rfl
@[simp] theorem withMove_orders : (s.withMove k m).orders = s.orders := rfl
@[simp] theorem withMove_link : (s.withMove k m).link = s.link := rfl
@[simp] theorem withMove_tracker : (s.withMove k m).tracker = s.tracker := rfl
@[simp] theorem withMove_est : (s.withMove k m).est = s.est := rfl
@[simp] theorem withMove_gauge : (s.withMove k m).gauge = s.gauge := rfl
@[simp] theorem withMove_gap : (s.withMove k m).gap = s.gap.set k { s.gap.get k with move := m } := rfl
@[simp] theorem withMove_store : (s.withMove k m).store = s.store := rfl
@[simp] theorem withMove_trip : (s.withMove k m).trip = s.trip := rfl
@[simp] theorem withMove_pins : (s.withMove k m).pins = s.pins := rfl
@[simp] theorem withMove_freeIndex : (s.withMove k m).freeIndex = s.freeIndex := rfl
@[simp] theorem withMove_pending : (s.withMove k m).pending = s.pending := rfl

end withMove

section withTracker
variable (s : State) (t : Tracker)

@[simp] theorem withTracker_clock : (s.withTracker t).clock = s.clock := rfl
@[simp] theorem withTracker_resetLow : (s.withTracker t).resetLow = s.resetLow := rfl
@[simp] theorem withTracker_etripPin : (s.withTracker t).etripPin = s.etripPin := rfl
@[simp] theorem withTracker_level : (s.withTracker t).level = s.level := rfl
@[simp] theorem withTracker_attention : (s.withTracker t).attention = s.attention := rfl
@[simp] theorem withTracker_mask : (s.withTracker t).mask = s.mask := rfl
@[simp] theorem withTracker_exm : (s.withTracker t).exm = s.exm := rfl
@[simp] theorem withTracker_configResult : (s.withTracker t).configResult = s.configResult := rfl
@[simp] theorem withTracker_cycleClock : (s.withTracker t).cycleClock = s.cycleClock := rfl
@[simp] theorem withTracker_images : (s.withTracker t).images = s.images := rfl
@[simp] theorem withTracker_tripArea : (s.withTracker t).tripArea = s.tripArea := rfl
@[simp] theorem withTracker_summary : (s.withTracker t).summary = s.summary := rfl
@[simp] theorem withTracker_journal : (s.withTracker t).journal = s.journal := rfl
@[simp] theorem withTracker_line : (s.withTracker t).line = s.line := rfl
@[simp] theorem withTracker_orders : (s.withTracker t).orders = s.orders := rfl
@[simp] theorem withTracker_link : (s.withTracker t).link = s.link := rfl
@[simp] theorem withTracker_tracker : (s.withTracker t).tracker = t := rfl
@[simp] theorem withTracker_est : (s.withTracker t).est = s.est := rfl
@[simp] theorem withTracker_gauge : (s.withTracker t).gauge = s.gauge := rfl
@[simp] theorem withTracker_gap : (s.withTracker t).gap = s.gap := rfl
@[simp] theorem withTracker_store : (s.withTracker t).store = s.store := rfl
@[simp] theorem withTracker_trip : (s.withTracker t).trip = s.trip := rfl
@[simp] theorem withTracker_pins : (s.withTracker t).pins = s.pins := rfl
@[simp] theorem withTracker_freeIndex : (s.withTracker t).freeIndex = s.freeIndex := rfl
@[simp] theorem withTracker_pending : (s.withTracker t).pending = s.pending := rfl

end withTracker

section withThread
variable (s : State) (k : Nat) (t : Threading)

@[simp] theorem withThread_clock : (s.withThread k t).clock = s.clock := rfl
@[simp] theorem withThread_resetLow : (s.withThread k t).resetLow = s.resetLow := rfl
@[simp] theorem withThread_etripPin : (s.withThread k t).etripPin = s.etripPin := rfl
@[simp] theorem withThread_level : (s.withThread k t).level = s.level := rfl
@[simp] theorem withThread_attention : (s.withThread k t).attention = s.attention := rfl
@[simp] theorem withThread_mask : (s.withThread k t).mask = s.mask := rfl
@[simp] theorem withThread_exm : (s.withThread k t).exm = s.exm := rfl
@[simp] theorem withThread_configResult : (s.withThread k t).configResult = s.configResult := rfl
@[simp] theorem withThread_cycleClock : (s.withThread k t).cycleClock = s.cycleClock := rfl
@[simp] theorem withThread_images : (s.withThread k t).images = s.images := rfl
@[simp] theorem withThread_tripArea : (s.withThread k t).tripArea = s.tripArea := rfl
@[simp] theorem withThread_summary : (s.withThread k t).summary = s.summary := rfl
@[simp] theorem withThread_journal : (s.withThread k t).journal = s.journal := rfl
@[simp] theorem withThread_line : (s.withThread k t).line = s.line := rfl
@[simp] theorem withThread_orders : (s.withThread k t).orders = s.orders := rfl
@[simp] theorem withThread_link : (s.withThread k t).link = s.link := rfl
@[simp] theorem withThread_tracker : (s.withThread k t).tracker = { s.tracker with threading := s.tracker.threading.set k t } := rfl
@[simp] theorem withThread_est : (s.withThread k t).est = s.est := rfl
@[simp] theorem withThread_gauge : (s.withThread k t).gauge = s.gauge := rfl
@[simp] theorem withThread_gap : (s.withThread k t).gap = s.gap := rfl
@[simp] theorem withThread_store : (s.withThread k t).store = s.store := rfl
@[simp] theorem withThread_trip : (s.withThread k t).trip = s.trip := rfl
@[simp] theorem withThread_pins : (s.withThread k t).pins = s.pins := rfl
@[simp] theorem withThread_freeIndex : (s.withThread k t).freeIndex = s.freeIndex := rfl
@[simp] theorem withThread_pending : (s.withThread k t).pending = s.pending := rfl

end withThread

section withZone
variable (s : State) (k : Nat) (q : List Mark)

@[simp] theorem withZone_clock : (s.withZone k q).clock = s.clock := rfl
@[simp] theorem withZone_resetLow : (s.withZone k q).resetLow = s.resetLow := rfl
@[simp] theorem withZone_etripPin : (s.withZone k q).etripPin = s.etripPin := rfl
@[simp] theorem withZone_level : (s.withZone k q).level = s.level := rfl
@[simp] theorem withZone_attention : (s.withZone k q).attention = s.attention := rfl
@[simp] theorem withZone_mask : (s.withZone k q).mask = s.mask := rfl
@[simp] theorem withZone_exm : (s.withZone k q).exm = s.exm := rfl
@[simp] theorem withZone_configResult : (s.withZone k q).configResult = s.configResult := rfl
@[simp] theorem withZone_cycleClock : (s.withZone k q).cycleClock = s.cycleClock := rfl
@[simp] theorem withZone_images : (s.withZone k q).images = s.images := rfl
@[simp] theorem withZone_tripArea : (s.withZone k q).tripArea = s.tripArea := rfl
@[simp] theorem withZone_summary : (s.withZone k q).summary = s.summary := rfl
@[simp] theorem withZone_journal : (s.withZone k q).journal = s.journal := rfl
@[simp] theorem withZone_line : (s.withZone k q).line = s.line := rfl
@[simp] theorem withZone_orders : (s.withZone k q).orders = s.orders := rfl
@[simp] theorem withZone_link : (s.withZone k q).link = s.link := rfl
@[simp] theorem withZone_tracker : (s.withZone k q).tracker = { s.tracker with zones := s.tracker.zones.set k q } := rfl
@[simp] theorem withZone_est : (s.withZone k q).est = s.est := rfl
@[simp] theorem withZone_gauge : (s.withZone k q).gauge = s.gauge := rfl
@[simp] theorem withZone_gap : (s.withZone k q).gap = s.gap := rfl
@[simp] theorem withZone_store : (s.withZone k q).store = s.store := rfl
@[simp] theorem withZone_trip : (s.withZone k q).trip = s.trip := rfl
@[simp] theorem withZone_pins : (s.withZone k q).pins = s.pins := rfl
@[simp] theorem withZone_freeIndex : (s.withZone k q).freeIndex = s.freeIndex := rfl
@[simp] theorem withZone_pending : (s.withZone k q).pending = s.pending := rfl

end withZone

section withSlot
variable (s : State) (x : Slot) (r : SlotRecord)

@[simp] theorem withSlot_clock : (s.withSlot x r).clock = s.clock := rfl
@[simp] theorem withSlot_resetLow : (s.withSlot x r).resetLow = s.resetLow := rfl
@[simp] theorem withSlot_etripPin : (s.withSlot x r).etripPin = s.etripPin := rfl
@[simp] theorem withSlot_level : (s.withSlot x r).level = s.level := rfl
@[simp] theorem withSlot_attention : (s.withSlot x r).attention = s.attention := rfl
@[simp] theorem withSlot_mask : (s.withSlot x r).mask = s.mask := rfl
@[simp] theorem withSlot_exm : (s.withSlot x r).exm = s.exm := rfl
@[simp] theorem withSlot_configResult : (s.withSlot x r).configResult = s.configResult := rfl
@[simp] theorem withSlot_cycleClock : (s.withSlot x r).cycleClock = s.cycleClock := rfl
@[simp] theorem withSlot_images : (s.withSlot x r).images = s.images := rfl
@[simp] theorem withSlot_tripArea : (s.withSlot x r).tripArea = s.tripArea := rfl
@[simp] theorem withSlot_summary : (s.withSlot x r).summary = s.summary := rfl
@[simp] theorem withSlot_journal : (s.withSlot x r).journal = s.journal := rfl
@[simp] theorem withSlot_line : (s.withSlot x r).line = s.line := rfl
@[simp] theorem withSlot_orders : (s.withSlot x r).orders = s.orders := rfl
@[simp] theorem withSlot_link : (s.withSlot x r).link = s.link := rfl
@[simp] theorem withSlot_tracker : (s.withSlot x r).tracker = s.tracker := rfl
@[simp] theorem withSlot_est : (s.withSlot x r).est = s.est := rfl
@[simp] theorem withSlot_gauge : (s.withSlot x r).gauge = s.gauge := rfl
@[simp] theorem withSlot_gap : (s.withSlot x r).gap = s.gap := rfl
@[simp] theorem withSlot_store : (s.withSlot x r).store = s.store.withSlot x r := rfl
@[simp] theorem withSlot_trip : (s.withSlot x r).trip = s.trip := rfl
@[simp] theorem withSlot_pins : (s.withSlot x r).pins = s.pins := rfl
@[simp] theorem withSlot_freeIndex : (s.withSlot x r).freeIndex = s.freeIndex := rfl
@[simp] theorem withSlot_pending : (s.withSlot x r).pending = s.pending := rfl

end withSlot

section withStation
variable (s : State) (e : PollEntry) (st : Station)

@[simp] theorem withStation_clock : (s.withStation e st).clock = s.clock := by cases e <;> rfl
@[simp] theorem withStation_resetLow : (s.withStation e st).resetLow = s.resetLow := by cases e <;> rfl
@[simp] theorem withStation_etripPin : (s.withStation e st).etripPin = s.etripPin := by cases e <;> rfl
@[simp] theorem withStation_level : (s.withStation e st).level = s.level := by cases e <;> rfl
@[simp] theorem withStation_attention : (s.withStation e st).attention = s.attention := by cases e <;> rfl
@[simp] theorem withStation_mask : (s.withStation e st).mask = s.mask := by cases e <;> rfl
@[simp] theorem withStation_exm : (s.withStation e st).exm = s.exm := by cases e <;> rfl
@[simp] theorem withStation_configResult : (s.withStation e st).configResult = s.configResult := by cases e <;> rfl
@[simp] theorem withStation_cycleClock : (s.withStation e st).cycleClock = s.cycleClock := by cases e <;> rfl
@[simp] theorem withStation_images : (s.withStation e st).images = s.images := by cases e <;> rfl
@[simp] theorem withStation_tripArea : (s.withStation e st).tripArea = s.tripArea := by cases e <;> rfl
@[simp] theorem withStation_summary : (s.withStation e st).summary = s.summary := by cases e <;> rfl
@[simp] theorem withStation_journal : (s.withStation e st).journal = s.journal := by cases e <;> rfl
@[simp] theorem withStation_line : (s.withStation e st).line = s.line := by cases e <;> rfl
@[simp] theorem withStation_orders : (s.withStation e st).orders = s.orders := by cases e <;> rfl
@[simp] theorem withStation_tracker : (s.withStation e st).tracker = s.tracker := by cases e <;> rfl
@[simp] theorem withStation_est : (s.withStation e st).est = s.est := by cases e <;> rfl
@[simp] theorem withStation_gauge : (s.withStation e st).gauge = s.gauge := by cases e <;> rfl
@[simp] theorem withStation_gap : (s.withStation e st).gap = s.gap := by cases e <;> rfl
@[simp] theorem withStation_store : (s.withStation e st).store = s.store := by cases e <;> rfl
@[simp] theorem withStation_trip : (s.withStation e st).trip = s.trip := by cases e <;> rfl
@[simp] theorem withStation_pins : (s.withStation e st).pins = s.pins := by cases e <;> rfl
@[simp] theorem withStation_freeIndex : (s.withStation e st).freeIndex = s.freeIndex := by cases e <;> rfl
@[simp] theorem withStation_pending : (s.withStation e st).pending = s.pending := by cases e <;> rfl

end withStation

section raiseCause
variable (c : Cause) (k : Nat) (s : State)

@[simp] theorem raiseCause_clock : (raiseCause c k s).clock = s.clock := rfl
@[simp] theorem raiseCause_resetLow : (raiseCause c k s).resetLow = s.resetLow := rfl
@[simp] theorem raiseCause_etripPin : (raiseCause c k s).etripPin = s.etripPin := rfl
@[simp] theorem raiseCause_level : (raiseCause c k s).level = s.level := rfl
@[simp] theorem raiseCause_attention : (raiseCause c k s).attention = s.attention := rfl
@[simp] theorem raiseCause_mask : (raiseCause c k s).mask = s.mask := rfl
@[simp] theorem raiseCause_exm : (raiseCause c k s).exm = s.exm := rfl
@[simp] theorem raiseCause_configResult : (raiseCause c k s).configResult = s.configResult := rfl
@[simp] theorem raiseCause_cycleClock : (raiseCause c k s).cycleClock = s.cycleClock := rfl
@[simp] theorem raiseCause_images : (raiseCause c k s).images = s.images := rfl
@[simp] theorem raiseCause_tripArea : (raiseCause c k s).tripArea = s.tripArea := rfl
@[simp] theorem raiseCause_summary : (raiseCause c k s).summary = s.summary := rfl
@[simp] theorem raiseCause_journal : (raiseCause c k s).journal = s.journal := rfl
@[simp] theorem raiseCause_line : (raiseCause c k s).line = s.line := rfl
@[simp] theorem raiseCause_orders : (raiseCause c k s).orders = s.orders := rfl
@[simp] theorem raiseCause_link : (raiseCause c k s).link = s.link := rfl
@[simp] theorem raiseCause_tracker : (raiseCause c k s).tracker = { s.tracker with raised := s.tracker.raised ++ [(c, k)] } := rfl
@[simp] theorem raiseCause_est : (raiseCause c k s).est = s.est := rfl
@[simp] theorem raiseCause_gauge : (raiseCause c k s).gauge = s.gauge := rfl
@[simp] theorem raiseCause_gap : (raiseCause c k s).gap = s.gap := rfl
@[simp] theorem raiseCause_store : (raiseCause c k s).store = s.store := rfl
@[simp] theorem raiseCause_trip : (raiseCause c k s).trip = s.trip := rfl
@[simp] theorem raiseCause_pins : (raiseCause c k s).pins = s.pins := rfl
@[simp] theorem raiseCause_freeIndex : (raiseCause c k s).freeIndex = s.freeIndex := rfl
@[simp] theorem raiseCause_pending : (raiseCause c k s).pending = s.pending := rfl

end raiseCause

section useFree
variable (s : State)

@[simp] theorem useFree_clock : (useFree s).clock = s.clock := rfl
@[simp] theorem useFree_resetLow : (useFree s).resetLow = s.resetLow := rfl
@[simp] theorem useFree_etripPin : (useFree s).etripPin = s.etripPin := rfl
@[simp] theorem useFree_level : (useFree s).level = s.level := rfl
@[simp] theorem useFree_attention : (useFree s).attention = s.attention := rfl
@[simp] theorem useFree_mask : (useFree s).mask = s.mask := rfl
@[simp] theorem useFree_exm : (useFree s).exm = s.exm := rfl
@[simp] theorem useFree_configResult : (useFree s).configResult = s.configResult := rfl
@[simp] theorem useFree_cycleClock : (useFree s).cycleClock = s.cycleClock := rfl
@[simp] theorem useFree_images : (useFree s).images = s.images := rfl
@[simp] theorem useFree_tripArea : (useFree s).tripArea = s.tripArea := rfl
@[simp] theorem useFree_summary : (useFree s).summary = s.summary := rfl
@[simp] theorem useFree_journal : (useFree s).journal = s.journal := rfl
@[simp] theorem useFree_line : (useFree s).line = s.line := rfl
@[simp] theorem useFree_orders : (useFree s).orders = s.orders := rfl
@[simp] theorem useFree_link : (useFree s).link = s.link := rfl
@[simp] theorem useFree_tracker : (useFree s).tracker = s.tracker := rfl
@[simp] theorem useFree_est : (useFree s).est = s.est := rfl
@[simp] theorem useFree_gauge : (useFree s).gauge = s.gauge := rfl
@[simp] theorem useFree_gap : (useFree s).gap = s.gap := rfl
@[simp] theorem useFree_store : (useFree s).store = s.store := rfl
@[simp] theorem useFree_trip : (useFree s).trip = s.trip := rfl
@[simp] theorem useFree_pins : (useFree s).pins = s.pins := rfl
@[simp] theorem useFree_freeIndex : (useFree s).freeIndex = s.freeIndex + 1 := rfl
@[simp] theorem useFree_pending : (useFree s).pending = s.pending := rfl

end useFree

section tick
variable (s : State) (dt : Clock)

@[simp] theorem tick_clock : (s.tick dt).clock = s.clock + dt := rfl
@[simp] theorem tick_resetLow : (s.tick dt).resetLow = s.resetLow := rfl
@[simp] theorem tick_etripPin : (s.tick dt).etripPin = s.etripPin := rfl
@[simp] theorem tick_level : (s.tick dt).level = s.level := rfl
@[simp] theorem tick_attention : (s.tick dt).attention = s.attention := rfl
@[simp] theorem tick_mask : (s.tick dt).mask = s.mask := rfl
@[simp] theorem tick_exm : (s.tick dt).exm = s.exm := rfl
@[simp] theorem tick_configResult : (s.tick dt).configResult = s.configResult := rfl
@[simp] theorem tick_cycleClock : (s.tick dt).cycleClock = s.cycleClock := rfl
@[simp] theorem tick_images : (s.tick dt).images = s.images := rfl
@[simp] theorem tick_tripArea : (s.tick dt).tripArea = s.tripArea := rfl
@[simp] theorem tick_summary : (s.tick dt).summary = s.summary := rfl
@[simp] theorem tick_journal : (s.tick dt).journal = s.journal := rfl
@[simp] theorem tick_line : (s.tick dt).line = s.line := rfl
@[simp] theorem tick_orders : (s.tick dt).orders = s.orders := rfl
@[simp] theorem tick_link : (s.tick dt).link = s.link := rfl
@[simp] theorem tick_tracker : (s.tick dt).tracker = s.tracker := rfl
@[simp] theorem tick_est : (s.tick dt).est = s.est := rfl
@[simp] theorem tick_gauge : (s.tick dt).gauge = s.gauge := rfl
@[simp] theorem tick_polls : (s.tick dt).polls = s.polls := rfl
@[simp] theorem tick_deliversAt (k : Nat) : (s.tick dt).deliversAt k = s.deliversAt k := rfl
@[simp] theorem tick_gap : (s.tick dt).gap = s.gap := rfl
@[simp] theorem tick_store : (s.tick dt).store = s.store := rfl
@[simp] theorem tick_trip : (s.tick dt).trip = s.trip := rfl
@[simp] theorem tick_pins : (s.tick dt).pins = s.pins := rfl
@[simp] theorem tick_freeIndex : (s.tick dt).freeIndex = s.freeIndex := rfl
@[simp] theorem tick_pending : (s.tick dt).pending = s.pending := rfl

end tick

section atTime
variable (s : State) (t : Clock)

@[simp] theorem atTime_clock : (s.atTime t).clock = t := rfl
@[simp] theorem atTime_resetLow : (s.atTime t).resetLow = s.resetLow := rfl
@[simp] theorem atTime_etripPin : (s.atTime t).etripPin = s.etripPin := rfl
@[simp] theorem atTime_level : (s.atTime t).level = s.level := rfl
@[simp] theorem atTime_attention : (s.atTime t).attention = s.attention := rfl
@[simp] theorem atTime_mask : (s.atTime t).mask = s.mask := rfl
@[simp] theorem atTime_exm : (s.atTime t).exm = s.exm := rfl
@[simp] theorem atTime_configResult : (s.atTime t).configResult = s.configResult := rfl
@[simp] theorem atTime_cycleClock : (s.atTime t).cycleClock = s.cycleClock := rfl
@[simp] theorem atTime_images : (s.atTime t).images = s.images := rfl
@[simp] theorem atTime_tripArea : (s.atTime t).tripArea = s.tripArea := rfl
@[simp] theorem atTime_summary : (s.atTime t).summary = s.summary := rfl
@[simp] theorem atTime_journal : (s.atTime t).journal = s.journal := rfl
@[simp] theorem atTime_line : (s.atTime t).line = s.line := rfl
@[simp] theorem atTime_orders : (s.atTime t).orders = s.orders := rfl
@[simp] theorem atTime_link : (s.atTime t).link = s.link := rfl
@[simp] theorem atTime_tracker : (s.atTime t).tracker = s.tracker := rfl
@[simp] theorem atTime_est : (s.atTime t).est = s.est := rfl
@[simp] theorem atTime_gauge : (s.atTime t).gauge = s.gauge := rfl
@[simp] theorem atTime_gap : (s.atTime t).gap = s.gap := rfl
@[simp] theorem atTime_store : (s.atTime t).store = s.store := rfl
@[simp] theorem atTime_trip : (s.atTime t).trip = s.trip := rfl
@[simp] theorem atTime_pins : (s.atTime t).pins = s.pins := rfl
@[simp] theorem atTime_freeIndex : (s.atTime t).freeIndex = s.freeIndex := rfl
@[simp] theorem atTime_pending : (s.atTime t).pending = s.pending := rfl

end atTime

section withCycle
variable (c : Option Cycle) (s : State)

@[simp] theorem withCycle_clock : (withCycle c s).clock = s.clock := rfl
@[simp] theorem withCycle_resetLow : (withCycle c s).resetLow = s.resetLow := rfl
@[simp] theorem withCycle_etripPin : (withCycle c s).etripPin = s.etripPin := rfl
@[simp] theorem withCycle_level : (withCycle c s).level = s.level := rfl
@[simp] theorem withCycle_attention : (withCycle c s).attention = s.attention := rfl
@[simp] theorem withCycle_mask : (withCycle c s).mask = s.mask := rfl
@[simp] theorem withCycle_exm : (withCycle c s).exm = s.exm := rfl
@[simp] theorem withCycle_configResult : (withCycle c s).configResult = s.configResult := rfl
@[simp] theorem withCycle_cycleClock : (withCycle c s).cycleClock = s.cycleClock := rfl
@[simp] theorem withCycle_images : (withCycle c s).images = s.images := rfl
@[simp] theorem withCycle_tripArea : (withCycle c s).tripArea = s.tripArea := rfl
@[simp] theorem withCycle_summary : (withCycle c s).summary = s.summary := rfl
@[simp] theorem withCycle_journal : (withCycle c s).journal = s.journal := rfl
@[simp] theorem withCycle_line : (withCycle c s).line = s.line := rfl
@[simp] theorem withCycle_orders : (withCycle c s).orders = s.orders := rfl
@[simp] theorem withCycle_link : (withCycle c s).link = { s.link with cycle := c } := rfl
@[simp] theorem withCycle_tracker : (withCycle c s).tracker = s.tracker := rfl
@[simp] theorem withCycle_est : (withCycle c s).est = s.est := rfl
@[simp] theorem withCycle_gauge : (withCycle c s).gauge = s.gauge := rfl
@[simp] theorem withCycle_gap : (withCycle c s).gap = s.gap := rfl
@[simp] theorem withCycle_store : (withCycle c s).store = s.store := rfl
@[simp] theorem withCycle_trip : (withCycle c s).trip = s.trip := rfl
@[simp] theorem withCycle_pins : (withCycle c s).pins = s.pins := rfl
@[simp] theorem withCycle_freeIndex : (withCycle c s).freeIndex = s.freeIndex := rfl
@[simp] theorem withCycle_pending : (withCycle c s).pending = s.pending := rfl

end withCycle

section retire
variable (p : Nat) (r : Result) (s : State)

@[simp] theorem retire_clock : (retire p r s).clock = s.clock := rfl
@[simp] theorem retire_resetLow : (retire p r s).resetLow = s.resetLow := rfl
@[simp] theorem retire_etripPin : (retire p r s).etripPin = s.etripPin := rfl
@[simp] theorem retire_level : (retire p r s).level = s.level := rfl
@[simp] theorem retire_attention : (retire p r s).attention = s.attention ||| attnOrder := rfl
@[simp] theorem retire_mask : (retire p r s).mask = s.mask := rfl
@[simp] theorem retire_exm : (retire p r s).exm = writeResult s.exm p r := rfl
@[simp] theorem retire_configResult : (retire p r s).configResult = s.configResult := rfl
@[simp] theorem retire_cycleClock : (retire p r s).cycleClock = s.cycleClock := rfl
@[simp] theorem retire_images : (retire p r s).images = s.images := rfl
@[simp] theorem retire_tripArea : (retire p r s).tripArea = s.tripArea := rfl
@[simp] theorem retire_summary : (retire p r s).summary = s.summary := rfl
@[simp] theorem retire_journal : (retire p r s).journal = s.journal := rfl
@[simp] theorem retire_line : (retire p r s).line = s.line := rfl
@[simp] theorem retire_orders : (retire p r s).orders = s.orders := rfl
@[simp] theorem retire_link : (retire p r s).link = s.link := rfl
@[simp] theorem retire_tracker : (retire p r s).tracker = s.tracker := rfl
@[simp] theorem retire_est : (retire p r s).est = s.est := rfl
@[simp] theorem retire_gauge : (retire p r s).gauge = s.gauge := rfl
@[simp] theorem retire_gap : (retire p r s).gap = s.gap := rfl
@[simp] theorem retire_store : (retire p r s).store = s.store := rfl
@[simp] theorem retire_trip : (retire p r s).trip = s.trip := rfl
@[simp] theorem retire_pins : (retire p r s).pins = s.pins := rfl
@[simp] theorem retire_freeIndex : (retire p r s).freeIndex = s.freeIndex := rfl
@[simp] theorem retire_pending : (retire p r s).pending = s.pending := rfl

end retire

section rewriteTripArea
variable (s : State)

@[simp] theorem rewriteTripArea_clock : (rewriteTripArea s).clock = s.clock := rfl
@[simp] theorem rewriteTripArea_resetLow : (rewriteTripArea s).resetLow = s.resetLow := rfl
@[simp] theorem rewriteTripArea_etripPin : (rewriteTripArea s).etripPin = s.etripPin := rfl
@[simp] theorem rewriteTripArea_level : (rewriteTripArea s).level = s.level := rfl
@[simp] theorem rewriteTripArea_attention : (rewriteTripArea s).attention = s.attention := rfl
@[simp] theorem rewriteTripArea_mask : (rewriteTripArea s).mask = s.mask := rfl
@[simp] theorem rewriteTripArea_exm : (rewriteTripArea s).exm = s.exm := rfl
@[simp] theorem rewriteTripArea_configResult : (rewriteTripArea s).configResult = s.configResult := rfl
@[simp] theorem rewriteTripArea_cycleClock : (rewriteTripArea s).cycleClock = s.cycleClock := rfl
@[simp] theorem rewriteTripArea_images : (rewriteTripArea s).images = s.images := rfl
@[simp] theorem rewriteTripArea_summary : (rewriteTripArea s).summary = s.summary := rfl
@[simp] theorem rewriteTripArea_journal : (rewriteTripArea s).journal = s.journal := rfl
@[simp] theorem rewriteTripArea_line : (rewriteTripArea s).line = s.line := rfl
@[simp] theorem rewriteTripArea_orders : (rewriteTripArea s).orders = s.orders := rfl
@[simp] theorem rewriteTripArea_link : (rewriteTripArea s).link = s.link := rfl
@[simp] theorem rewriteTripArea_tracker : (rewriteTripArea s).tracker = s.tracker := rfl
@[simp] theorem rewriteTripArea_est : (rewriteTripArea s).est = s.est := rfl
@[simp] theorem rewriteTripArea_gauge : (rewriteTripArea s).gauge = s.gauge := rfl
@[simp] theorem rewriteTripArea_gap : (rewriteTripArea s).gap = s.gap := rfl
@[simp] theorem rewriteTripArea_store : (rewriteTripArea s).store = s.store := rfl
@[simp] theorem rewriteTripArea_trip : (rewriteTripArea s).trip = s.trip := rfl
@[simp] theorem rewriteTripArea_pins : (rewriteTripArea s).pins = s.pins := rfl
@[simp] theorem rewriteTripArea_freeIndex : (rewriteTripArea s).freeIndex = s.freeIndex + 1 := rfl
@[simp] theorem rewriteTripArea_pending : (rewriteTripArea s).pending = s.pending := rfl

end rewriteTripArea

section rewriteSummary
variable (s : State)

@[simp] theorem rewriteSummary_clock : (rewriteSummary s).clock = s.clock := rfl
@[simp] theorem rewriteSummary_resetLow : (rewriteSummary s).resetLow = s.resetLow := rfl
@[simp] theorem rewriteSummary_etripPin : (rewriteSummary s).etripPin = s.etripPin := rfl
@[simp] theorem rewriteSummary_level : (rewriteSummary s).level = s.level := rfl
@[simp] theorem rewriteSummary_attention : (rewriteSummary s).attention = s.attention := rfl
@[simp] theorem rewriteSummary_mask : (rewriteSummary s).mask = s.mask := rfl
@[simp] theorem rewriteSummary_exm : (rewriteSummary s).exm = s.exm := rfl
@[simp] theorem rewriteSummary_configResult : (rewriteSummary s).configResult = s.configResult := rfl
@[simp] theorem rewriteSummary_cycleClock : (rewriteSummary s).cycleClock = s.cycleClock := rfl
@[simp] theorem rewriteSummary_images : (rewriteSummary s).images = s.images := rfl
@[simp] theorem rewriteSummary_tripArea : (rewriteSummary s).tripArea = s.tripArea := rfl
@[simp] theorem rewriteSummary_journal : (rewriteSummary s).journal = s.journal := rfl
@[simp] theorem rewriteSummary_line : (rewriteSummary s).line = s.line := rfl
@[simp] theorem rewriteSummary_orders : (rewriteSummary s).orders = s.orders := rfl
@[simp] theorem rewriteSummary_link : (rewriteSummary s).link = s.link := rfl
@[simp] theorem rewriteSummary_tracker : (rewriteSummary s).tracker = s.tracker := rfl
@[simp] theorem rewriteSummary_est : (rewriteSummary s).est = s.est := rfl
@[simp] theorem rewriteSummary_gauge : (rewriteSummary s).gauge = s.gauge := rfl
@[simp] theorem rewriteSummary_gap : (rewriteSummary s).gap = s.gap := rfl
@[simp] theorem rewriteSummary_store : (rewriteSummary s).store = s.store := rfl
@[simp] theorem rewriteSummary_trip : (rewriteSummary s).trip = s.trip := rfl
@[simp] theorem rewriteSummary_pins : (rewriteSummary s).pins = s.pins := rfl
@[simp] theorem rewriteSummary_freeIndex : (rewriteSummary s).freeIndex = s.freeIndex := rfl
@[simp] theorem rewriteSummary_pending : (rewriteSummary s).pending = s.pending := rfl

end rewriteSummary

section writeImage
variable (k : Nat) (late : Bool) (s : State)

@[simp] theorem writeImage_clock : (writeImage k late s).clock = s.clock := rfl
@[simp] theorem writeImage_resetLow : (writeImage k late s).resetLow = s.resetLow := rfl
@[simp] theorem writeImage_etripPin : (writeImage k late s).etripPin = s.etripPin := rfl
@[simp] theorem writeImage_level : (writeImage k late s).level = s.level := rfl
@[simp] theorem writeImage_attention : (writeImage k late s).attention = s.attention := rfl
@[simp] theorem writeImage_mask : (writeImage k late s).mask = s.mask := rfl
@[simp] theorem writeImage_exm : (writeImage k late s).exm = s.exm := rfl
@[simp] theorem writeImage_configResult : (writeImage k late s).configResult = s.configResult := rfl
@[simp] theorem writeImage_cycleClock : (writeImage k late s).cycleClock = s.cycleClock := rfl
@[simp] theorem writeImage_tripArea : (writeImage k late s).tripArea = s.tripArea := rfl
@[simp] theorem writeImage_summary : (writeImage k late s).summary = s.summary := rfl
@[simp] theorem writeImage_journal : (writeImage k late s).journal = s.journal := rfl
@[simp] theorem writeImage_line : (writeImage k late s).line = s.line := rfl
@[simp] theorem writeImage_orders : (writeImage k late s).orders = s.orders := rfl
@[simp] theorem writeImage_link : (writeImage k late s).link = s.link := rfl
@[simp] theorem writeImage_tracker : (writeImage k late s).tracker = s.tracker := rfl
@[simp] theorem writeImage_est : (writeImage k late s).est = s.est := rfl
@[simp] theorem writeImage_gauge : (writeImage k late s).gauge = s.gauge := rfl
@[simp] theorem writeImage_gap : (writeImage k late s).gap = s.gap := rfl
@[simp] theorem writeImage_store : (writeImage k late s).store = s.store := rfl
@[simp] theorem writeImage_trip : (writeImage k late s).trip = s.trip := rfl
@[simp] theorem writeImage_pins : (writeImage k late s).pins = s.pins := rfl
@[simp] theorem writeImage_freeIndex : (writeImage k late s).freeIndex = s.freeIndex + 1 := rfl
@[simp] theorem writeImage_pending : (writeImage k late s).pending = s.pending := rfl

end writeImage

end Sys2Proof.Machine
end

