-- ==== Sys2Proof/Laws/Keeps.lean ====
section
/-! SUPPORT. What each shared operation leaves as it was: one lemma for each operation, a fact for each field. -/

namespace Sys2Proof.Machine

variable (s : State)

/-- A field that each piece of work leaves, the whole sequence leaves. -/
theorem foldl_keeps {α β : Type} {f : State → α → State} (field : State → β) (h : ∀ t a, field (f t a) = field t)
    (l : List α) : ∀ s, field (l.foldl f s) = field s := by
  induction l with
  | nil => exact fun _ => rfl
  | cons a l ih => exact fun s => (ih (f s a)).trans (h s a)

/-! ### Arithmetic of the journal and the orders -/

@[simp] theorem journal_keeps (r : JournalRecord) : (journal r s).clock = s.clock ∧ (journal r s).resetLow =
    s.resetLow ∧ (journal r s).etripPin = s.etripPin ∧ (journal r s).level = s.level ∧ (journal r s).mask = s.mask ∧
    (journal r s).exm = s.exm ∧ (journal r s).configResult = s.configResult ∧ (journal r s).cycleClock = s.cycleClock
    ∧ (journal r s).images = s.images ∧ (journal r s).tripArea = s.tripArea ∧ (journal r s).summary = s.summary ∧
    (journal r s).line = s.line ∧ (journal r s).orders = s.orders ∧ (journal r s).link = s.link ∧ (journal r
    s).tracker = s.tracker ∧ (journal r s).est = s.est ∧ (journal r s).gauge = s.gauge ∧ (journal r s).gap = s.gap ∧
    (journal r s).store = s.store ∧ (journal r s).trip = s.trip ∧ (journal r s).pins = s.pins ∧ (journal r
    s).freeIndex = s.freeIndex ∧ (journal r s).pending = s.pending := by
  unfold journal
  split <;> simp

@[simp] theorem note_keeps (kind : RecordKind) (k : Nat) (time : Clock) (coil v1 v2 v3 : Word) : (note kind k time
    coil v1 v2 v3 s).clock = s.clock ∧ (note kind k time coil v1 v2 v3 s).resetLow = s.resetLow ∧ (note kind k time
    coil v1 v2 v3 s).etripPin = s.etripPin ∧ (note kind k time coil v1 v2 v3 s).level = s.level ∧ (note kind k time
    coil v1 v2 v3 s).mask = s.mask ∧ (note kind k time coil v1 v2 v3 s).exm = s.exm ∧ (note kind k time coil v1 v2 v3
    s).configResult = s.configResult ∧ (note kind k time coil v1 v2 v3 s).cycleClock = s.cycleClock ∧ (note kind k
    time coil v1 v2 v3 s).images = s.images ∧ (note kind k time coil v1 v2 v3 s).tripArea = s.tripArea ∧ (note kind k
    time coil v1 v2 v3 s).summary = s.summary ∧ (note kind k time coil v1 v2 v3 s).line = s.line ∧ (note kind k time
    coil v1 v2 v3 s).orders = s.orders ∧ (note kind k time coil v1 v2 v3 s).link = s.link ∧ (note kind k time coil v1
    v2 v3 s).tracker = s.tracker ∧ (note kind k time coil v1 v2 v3 s).est = s.est ∧ (note kind k time coil v1 v2 v3
    s).gauge = s.gauge ∧ (note kind k time coil v1 v2 v3 s).gap = s.gap ∧ (note kind k time coil v1 v2 v3 s).store =
    s.store ∧ (note kind k time coil v1 v2 v3 s).trip = s.trip ∧ (note kind k time coil v1 v2 v3 s).pins = s.pins ∧
    (note kind k time coil v1 v2 v3 s).freeIndex = s.freeIndex ∧ (note kind k time coil v1 v2 v3 s).pending =
    s.pending := by
  unfold note
  simp

@[simp] theorem retireLong_keeps (k : Nat) (r : Result) : (retireLong k r s).clock = s.clock ∧ (retireLong k r
    s).resetLow = s.resetLow ∧ (retireLong k r s).etripPin = s.etripPin ∧ (retireLong k r s).level = s.level ∧
    (retireLong k r s).mask = s.mask ∧ (retireLong k r s).configResult = s.configResult ∧ (retireLong k r
    s).cycleClock = s.cycleClock ∧ (retireLong k r s).images = s.images ∧ (retireLong k r s).tripArea = s.tripArea ∧
    (retireLong k r s).summary = s.summary ∧ (retireLong k r s).journal = s.journal ∧ (retireLong k r s).line = s.line
    ∧ (retireLong k r s).link = s.link ∧ (retireLong k r s).tracker = s.tracker ∧ (retireLong k r s).est = s.est ∧
    (retireLong k r s).gauge = s.gauge ∧ (retireLong k r s).gap = s.gap ∧ (retireLong k r s).store = s.store ∧
    (retireLong k r s).trip = s.trip ∧ (retireLong k r s).pins = s.pins ∧ (retireLong k r s).freeIndex = s.freeIndex ∧
    (retireLong k r s).pending = s.pending := by
  unfold retireLong
  split <;> simp

@[simp] theorem retireTaken_keeps (r : Result) : (retireTaken r s).clock = s.clock ∧ (retireTaken r s).resetLow =
    s.resetLow ∧ (retireTaken r s).etripPin = s.etripPin ∧ (retireTaken r s).level = s.level ∧ (retireTaken r s).mask
    = s.mask ∧ (retireTaken r s).configResult = s.configResult ∧ (retireTaken r s).cycleClock = s.cycleClock ∧
    (retireTaken r s).images = s.images ∧ (retireTaken r s).tripArea = s.tripArea ∧ (retireTaken r s).summary =
    s.summary ∧ (retireTaken r s).journal = s.journal ∧ (retireTaken r s).line = s.line ∧ (retireTaken r s).link =
    s.link ∧ (retireTaken r s).tracker = s.tracker ∧ (retireTaken r s).est = s.est ∧ (retireTaken r s).gauge = s.gauge
    ∧ (retireTaken r s).gap = s.gap ∧ (retireTaken r s).store = s.store ∧ (retireTaken r s).trip = s.trip ∧
    (retireTaken r s).pins = s.pins ∧ (retireTaken r s).freeIndex = s.freeIndex ∧ (retireTaken r s).pending =
    s.pending := by
  unfold retireTaken
  split <;> simp

@[simp] theorem retireFree_keeps : (retireFree s).clock = s.clock ∧ (retireFree s).resetLow = s.resetLow ∧ (retireFree
    s).etripPin = s.etripPin ∧ (retireFree s).level = s.level ∧ (retireFree s).mask = s.mask ∧ (retireFree
    s).configResult = s.configResult ∧ (retireFree s).cycleClock = s.cycleClock ∧ (retireFree s).images = s.images ∧
    (retireFree s).tripArea = s.tripArea ∧ (retireFree s).summary = s.summary ∧ (retireFree s).journal = s.journal ∧
    (retireFree s).line = s.line ∧ (retireFree s).link = s.link ∧ (retireFree s).tracker = s.tracker ∧ (retireFree
    s).est = s.est ∧ (retireFree s).gauge = s.gauge ∧ (retireFree s).gap = s.gap ∧ (retireFree s).store = s.store ∧
    (retireFree s).trip = s.trip ∧ (retireFree s).pins = s.pins ∧ (retireFree s).pending = s.pending := by
  unfold retireFree
  simp

@[simp] theorem chainFault_keeps (w v r : Nat) : (chainFault w v r s).clock = s.clock ∧ (chainFault w v r s).resetLow
    = s.resetLow ∧ (chainFault w v r s).etripPin = s.etripPin ∧ (chainFault w v r s).level = s.level ∧ (chainFault w v
    r s).mask = s.mask ∧ (chainFault w v r s).exm = s.exm ∧ (chainFault w v r s).configResult = s.configResult ∧
    (chainFault w v r s).cycleClock = s.cycleClock ∧ (chainFault w v r s).images = s.images ∧ (chainFault w v r
    s).tripArea = s.tripArea ∧ (chainFault w v r s).summary = s.summary ∧ (chainFault w v r s).line = s.line ∧
    (chainFault w v r s).orders = s.orders ∧ (chainFault w v r s).link = s.link ∧ (chainFault w v r s).tracker =
    s.tracker ∧ (chainFault w v r s).est = s.est ∧ (chainFault w v r s).gauge = s.gauge ∧ (chainFault w v r s).gap =
    s.gap ∧ (chainFault w v r s).store = s.store ∧ (chainFault w v r s).trip = s.trip ∧ (chainFault w v r s).pins =
    s.pins ∧ (chainFault w v r s).freeIndex = s.freeIndex ∧ (chainFault w v r s).pending = s.pending := by
  unfold chainFault
  simp

/-! ### The intake -/

@[simp] theorem markTaken_keeps (v : Nat) : (markTaken v s).clock = s.clock ∧ (markTaken v s).resetLow = s.resetLow ∧
    (markTaken v s).etripPin = s.etripPin ∧ (markTaken v s).level = s.level ∧ (markTaken v s).attention = s.attention
    ∧ (markTaken v s).mask = s.mask ∧ (markTaken v s).configResult = s.configResult ∧ (markTaken v s).cycleClock =
    s.cycleClock ∧ (markTaken v s).images = s.images ∧ (markTaken v s).tripArea = s.tripArea ∧ (markTaken v s).summary
    = s.summary ∧ (markTaken v s).journal = s.journal ∧ (markTaken v s).line = s.line ∧ (markTaken v s).link = s.link
    ∧ (markTaken v s).tracker = s.tracker ∧ (markTaken v s).est = s.est ∧ (markTaken v s).gauge = s.gauge ∧ (markTaken
    v s).gap = s.gap ∧ (markTaken v s).store = s.store ∧ (markTaken v s).trip = s.trip ∧ (markTaken v s).pins = s.pins
    ∧ (markTaken v s).freeIndex = s.freeIndex ∧ (markTaken v s).pending = s.pending := by
  refine ⟨rfl, rfl, rfl, rfl, rfl, rfl, rfl, rfl, rfl, rfl, rfl, rfl, rfl, rfl, rfl, rfl, rfl, rfl, rfl, rfl, rfl, rfl, rfl⟩

@[simp] theorem copyOrder_keeps (v : Nat) : (copyOrder v s).clock = s.clock ∧ (copyOrder v s).resetLow = s.resetLow ∧
    (copyOrder v s).etripPin = s.etripPin ∧ (copyOrder v s).level = s.level ∧ (copyOrder v s).attention = s.attention
    ∧ (copyOrder v s).mask = s.mask ∧ (copyOrder v s).exm = s.exm ∧ (copyOrder v s).configResult = s.configResult ∧
    (copyOrder v s).cycleClock = s.cycleClock ∧ (copyOrder v s).images = s.images ∧ (copyOrder v s).tripArea =
    s.tripArea ∧ (copyOrder v s).summary = s.summary ∧ (copyOrder v s).journal = s.journal ∧ (copyOrder v s).line =
    s.line ∧ (copyOrder v s).link = s.link ∧ (copyOrder v s).tracker = s.tracker ∧ (copyOrder v s).est = s.est ∧
    (copyOrder v s).gauge = s.gauge ∧ (copyOrder v s).gap = s.gap ∧ (copyOrder v s).store = s.store ∧ (copyOrder v
    s).trip = s.trip ∧ (copyOrder v s).pins = s.pins ∧ (copyOrder v s).freeIndex = s.freeIndex ∧ (copyOrder v
    s).pending = s.pending := by
  refine ⟨rfl, rfl, rfl, rfl, rfl, rfl, rfl, rfl, rfl, rfl, rfl, rfl, rfl, rfl, rfl, rfl, rfl, rfl, rfl, rfl, rfl, rfl, rfl, rfl⟩

@[simp] theorem intake_keeps (fuel : Nat) : (intake fuel s).clock = s.clock ∧ (intake fuel s).resetLow = s.resetLow ∧
    (intake fuel s).etripPin = s.etripPin ∧ (intake fuel s).level = s.level ∧ (intake fuel s).mask = s.mask ∧ (intake
    fuel s).configResult = s.configResult ∧ (intake fuel s).cycleClock = s.cycleClock ∧ (intake fuel s).images =
    s.images ∧ (intake fuel s).tripArea = s.tripArea ∧ (intake fuel s).summary = s.summary ∧ (intake fuel s).line =
    s.line ∧ (intake fuel s).link = s.link ∧ (intake fuel s).tracker = s.tracker ∧ (intake fuel s).est = s.est ∧
    (intake fuel s).gauge = s.gauge ∧ (intake fuel s).gap = s.gap ∧ (intake fuel s).store = s.store ∧ (intake fuel
    s).trip = s.trip ∧ (intake fuel s).pins = s.pins ∧ (intake fuel s).freeIndex = s.freeIndex ∧ (intake fuel
    s).pending = s.pending := by
  induction fuel generalizing s with
  | zero => simp [intake]
  | succ n ih =>
    unfold intake
    split
    · simp
    · dsimp only
      (repeat' split) <;> simp [*]

@[simp] theorem freeToTake_keeps : (freeToTake s).clock = s.clock ∧ (freeToTake s).resetLow = s.resetLow ∧ (freeToTake
    s).etripPin = s.etripPin ∧ (freeToTake s).level = s.level ∧ (freeToTake s).mask = s.mask ∧ (freeToTake
    s).configResult = s.configResult ∧ (freeToTake s).cycleClock = s.cycleClock ∧ (freeToTake s).images = s.images ∧
    (freeToTake s).tripArea = s.tripArea ∧ (freeToTake s).summary = s.summary ∧ (freeToTake s).line = s.line ∧
    (freeToTake s).link = s.link ∧ (freeToTake s).tracker = s.tracker ∧ (freeToTake s).est = s.est ∧ (freeToTake
    s).gauge = s.gauge ∧ (freeToTake s).gap = s.gap ∧ (freeToTake s).store = s.store ∧ (freeToTake s).trip = s.trip ∧
    (freeToTake s).pins = s.pins ∧ (freeToTake s).freeIndex = s.freeIndex ∧ (freeToTake s).pending = s.pending := by
  unfold freeToTake
  simp

@[simp] theorem startIntake_keeps : (startIntake s).clock = s.clock ∧ (startIntake s).resetLow = s.resetLow ∧
    (startIntake s).etripPin = s.etripPin ∧ (startIntake s).level = s.level ∧ (startIntake s).mask = s.mask ∧
    (startIntake s).configResult = s.configResult ∧ (startIntake s).cycleClock = s.cycleClock ∧ (startIntake s).images
    = s.images ∧ (startIntake s).tripArea = s.tripArea ∧ (startIntake s).summary = s.summary ∧ (startIntake s).line =
    s.line ∧ (startIntake s).link = s.link ∧ (startIntake s).tracker = s.tracker ∧ (startIntake s).est = s.est ∧
    (startIntake s).gauge = s.gauge ∧ (startIntake s).gap = s.gap ∧ (startIntake s).store = s.store ∧ (startIntake
    s).trip = s.trip ∧ (startIntake s).pins = s.pins ∧ (startIntake s).freeIndex = s.freeIndex ∧ (startIntake
    s).pending = s.pending := by
  unfold startIntake
  simp

@[simp] theorem resumeIntake_keeps (b : State) : (resumeIntake b s).clock = s.clock ∧ (resumeIntake b s).resetLow =
    s.resetLow ∧ (resumeIntake b s).etripPin = s.etripPin ∧ (resumeIntake b s).level = s.level ∧ (resumeIntake b
    s).mask = s.mask ∧ (resumeIntake b s).configResult = s.configResult ∧ (resumeIntake b s).cycleClock = s.cycleClock
    ∧ (resumeIntake b s).images = s.images ∧ (resumeIntake b s).tripArea = s.tripArea ∧ (resumeIntake b s).summary =
    s.summary ∧ (resumeIntake b s).line = s.line ∧ (resumeIntake b s).link = s.link ∧ (resumeIntake b s).tracker =
    s.tracker ∧ (resumeIntake b s).est = s.est ∧ (resumeIntake b s).gauge = s.gauge ∧ (resumeIntake b s).gap = s.gap ∧
    (resumeIntake b s).store = s.store ∧ (resumeIntake b s).trip = s.trip ∧ (resumeIntake b s).pins = s.pins ∧
    (resumeIntake b s).freeIndex = s.freeIndex ∧ (resumeIntake b s).pending = s.pending := by
  unfold resumeIntake
  split <;> simp

/-! ### The Thickness Unit -/

@[simp] theorem estimateReply_keeps (k p f : Nat) : (estimateReply k p f s).clock = s.clock ∧ (estimateReply k p f
    s).resetLow = s.resetLow ∧ (estimateReply k p f s).etripPin = s.etripPin ∧ (estimateReply k p f s).level = s.level
    ∧ (estimateReply k p f s).attention = s.attention ∧ (estimateReply k p f s).mask = s.mask ∧ (estimateReply k p f
    s).exm = s.exm ∧ (estimateReply k p f s).configResult = s.configResult ∧ (estimateReply k p f s).cycleClock =
    s.cycleClock ∧ (estimateReply k p f s).images = s.images ∧ (estimateReply k p f s).tripArea = s.tripArea ∧
    (estimateReply k p f s).summary = s.summary ∧ (estimateReply k p f s).journal = s.journal ∧ (estimateReply k p f
    s).line = s.line ∧ (estimateReply k p f s).orders = s.orders ∧ (estimateReply k p f s).link = s.link ∧
    (estimateReply k p f s).tracker = s.tracker ∧ (estimateReply k p f s).gauge = s.gauge ∧ (estimateReply k p f
    s).gap = s.gap ∧ (estimateReply k p f s).store = s.store ∧ (estimateReply k p f s).trip = s.trip ∧ (estimateReply
    k p f s).pins = s.pins ∧ (estimateReply k p f s).freeIndex = s.freeIndex ∧ (estimateReply k p f s).pending =
    s.pending := by
  refine ⟨rfl, rfl, rfl, rfl, rfl, rfl, rfl, rfl, rfl, rfl, rfl, rfl, rfl, rfl, rfl, rfl, rfl, rfl, rfl, rfl, rfl, rfl, rfl, rfl⟩

@[simp] theorem recordReply_keeps (k p f : Nat) : (recordReply k p f s).clock = s.clock ∧ (recordReply k p f
    s).resetLow = s.resetLow ∧ (recordReply k p f s).etripPin = s.etripPin ∧ (recordReply k p f s).level = s.level ∧
    (recordReply k p f s).attention = s.attention ∧ (recordReply k p f s).mask = s.mask ∧ (recordReply k p f s).exm =
    s.exm ∧ (recordReply k p f s).configResult = s.configResult ∧ (recordReply k p f s).cycleClock = s.cycleClock ∧
    (recordReply k p f s).images = s.images ∧ (recordReply k p f s).tripArea = s.tripArea ∧ (recordReply k p f
    s).summary = s.summary ∧ (recordReply k p f s).journal = s.journal ∧ (recordReply k p f s).line = s.line ∧
    (recordReply k p f s).orders = s.orders ∧ (recordReply k p f s).link = s.link ∧ (recordReply k p f s).tracker =
    s.tracker ∧ (recordReply k p f s).gauge = s.gauge ∧ (recordReply k p f s).gap = s.gap ∧ (recordReply k p f
    s).store = s.store ∧ (recordReply k p f s).trip = s.trip ∧ (recordReply k p f s).pins = s.pins ∧ (recordReply k p
    f s).freeIndex = s.freeIndex ∧ (recordReply k p f s).pending = s.pending := by
  refine ⟨rfl, rfl, rfl, rfl, rfl, rfl, rfl, rfl, rfl, rfl, rfl, rfl, rfl, rfl, rfl, rfl, rfl, rfl, rfl, rfl, rfl, rfl, rfl, rfl⟩

@[simp] theorem setMode_keeps (k : Nat) (m : BandMode) : (setMode k m s).clock = s.clock ∧ (setMode k m s).resetLow =
    s.resetLow ∧ (setMode k m s).etripPin = s.etripPin ∧ (setMode k m s).level = s.level ∧ (setMode k m s).attention =
    s.attention ∧ (setMode k m s).mask = s.mask ∧ (setMode k m s).exm = s.exm ∧ (setMode k m s).configResult =
    s.configResult ∧ (setMode k m s).cycleClock = s.cycleClock ∧ (setMode k m s).images = s.images ∧ (setMode k m
    s).tripArea = s.tripArea ∧ (setMode k m s).summary = s.summary ∧ (setMode k m s).journal = s.journal ∧ (setMode k
    m s).line = s.line ∧ (setMode k m s).orders = s.orders ∧ (setMode k m s).link = s.link ∧ (setMode k m s).tracker =
    s.tracker ∧ (setMode k m s).gauge = s.gauge ∧ (setMode k m s).gap = s.gap ∧ (setMode k m s).store = s.store ∧
    (setMode k m s).trip = s.trip ∧ (setMode k m s).pins = s.pins ∧ (setMode k m s).freeIndex = s.freeIndex ∧ (setMode
    k m s).pending = s.pending := by
  refine ⟨rfl, rfl, rfl, rfl, rfl, rfl, rfl, rfl, rfl, rfl, rfl, rfl, rfl, rfl, rfl, rfl, rfl, rfl, rfl, rfl, rfl, rfl, rfl, rfl⟩

@[simp] theorem recordZero_keeps (k p : Nat) : (recordZero k p s).clock = s.clock ∧ (recordZero k p s).resetLow =
    s.resetLow ∧ (recordZero k p s).etripPin = s.etripPin ∧ (recordZero k p s).level = s.level ∧ (recordZero k p
    s).attention = s.attention ∧ (recordZero k p s).mask = s.mask ∧ (recordZero k p s).exm = s.exm ∧ (recordZero k p
    s).configResult = s.configResult ∧ (recordZero k p s).cycleClock = s.cycleClock ∧ (recordZero k p s).images =
    s.images ∧ (recordZero k p s).tripArea = s.tripArea ∧ (recordZero k p s).summary = s.summary ∧ (recordZero k p
    s).journal = s.journal ∧ (recordZero k p s).line = s.line ∧ (recordZero k p s).orders = s.orders ∧ (recordZero k p
    s).link = s.link ∧ (recordZero k p s).tracker = s.tracker ∧ (recordZero k p s).gauge = s.gauge ∧ (recordZero k p
    s).gap = s.gap ∧ (recordZero k p s).store = s.store ∧ (recordZero k p s).trip = s.trip ∧ (recordZero k p s).pins =
    s.pins ∧ (recordZero k p s).freeIndex = s.freeIndex ∧ (recordZero k p s).pending = s.pending := by
  refine ⟨rfl, rfl, rfl, rfl, rfl, rfl, rfl, rfl, rfl, rfl, rfl, rfl, rfl, rfl, rfl, rfl, rfl, rfl, rfl, rfl, rfl, rfl, rfl, rfl⟩

@[simp] theorem applyTable_keeps (k : Nat) (t : ModulusTable) (reason : Nat) (time : Clock) : (applyTable k t reason
    time s).clock = s.clock ∧ (applyTable k t reason time s).resetLow = s.resetLow ∧ (applyTable k t reason time
    s).etripPin = s.etripPin ∧ (applyTable k t reason time s).level = s.level ∧ (applyTable k t reason time s).mask =
    s.mask ∧ (applyTable k t reason time s).exm = s.exm ∧ (applyTable k t reason time s).configResult = s.configResult
    ∧ (applyTable k t reason time s).cycleClock = s.cycleClock ∧ (applyTable k t reason time s).images = s.images ∧
    (applyTable k t reason time s).tripArea = s.tripArea ∧ (applyTable k t reason time s).summary = s.summary ∧
    (applyTable k t reason time s).line = s.line ∧ (applyTable k t reason time s).orders = s.orders ∧ (applyTable k t
    reason time s).link = s.link ∧ (applyTable k t reason time s).tracker = s.tracker ∧ (applyTable k t reason time
    s).gauge = s.gauge ∧ (applyTable k t reason time s).gap = s.gap ∧ (applyTable k t reason time s).store = s.store ∧
    (applyTable k t reason time s).trip = s.trip ∧ (applyTable k t reason time s).pins = s.pins ∧ (applyTable k t
    reason time s).freeIndex = s.freeIndex ∧ (applyTable k t reason time s).pending = s.pending := by
  unfold applyTable
  simp

@[simp] theorem applyPending_keeps (k reason : Nat) (time : Clock) : (applyPending k reason time s).clock = s.clock ∧
    (applyPending k reason time s).resetLow = s.resetLow ∧ (applyPending k reason time s).etripPin = s.etripPin ∧
    (applyPending k reason time s).level = s.level ∧ (applyPending k reason time s).mask = s.mask ∧ (applyPending k
    reason time s).exm = s.exm ∧ (applyPending k reason time s).configResult = s.configResult ∧ (applyPending k reason
    time s).cycleClock = s.cycleClock ∧ (applyPending k reason time s).images = s.images ∧ (applyPending k reason time
    s).tripArea = s.tripArea ∧ (applyPending k reason time s).summary = s.summary ∧ (applyPending k reason time
    s).line = s.line ∧ (applyPending k reason time s).orders = s.orders ∧ (applyPending k reason time s).link = s.link
    ∧ (applyPending k reason time s).tracker = s.tracker ∧ (applyPending k reason time s).gauge = s.gauge ∧
    (applyPending k reason time s).gap = s.gap ∧ (applyPending k reason time s).store = s.store ∧ (applyPending k
    reason time s).trip = s.trip ∧ (applyPending k reason time s).pins = s.pins ∧ (applyPending k reason time
    s).freeIndex = s.freeIndex ∧ (applyPending k reason time s).pending = s.pending := by
  unfold applyPending
  split <;> simp

@[simp] theorem thicknessRelease_keeps (k : Nat) : (thicknessRelease k s).clock = s.clock ∧ (thicknessRelease k
    s).resetLow = s.resetLow ∧ (thicknessRelease k s).etripPin = s.etripPin ∧ (thicknessRelease k s).level = s.level ∧
    (thicknessRelease k s).mask = s.mask ∧ (thicknessRelease k s).exm = s.exm ∧ (thicknessRelease k s).configResult =
    s.configResult ∧ (thicknessRelease k s).cycleClock = s.cycleClock ∧ (thicknessRelease k s).images = s.images ∧
    (thicknessRelease k s).tripArea = s.tripArea ∧ (thicknessRelease k s).summary = s.summary ∧ (thicknessRelease k
    s).line = s.line ∧ (thicknessRelease k s).orders = s.orders ∧ (thicknessRelease k s).link = s.link ∧
    (thicknessRelease k s).tracker = s.tracker ∧ (thicknessRelease k s).gauge = s.gauge ∧ (thicknessRelease k s).gap =
    s.gap ∧ (thicknessRelease k s).store = s.store ∧ (thicknessRelease k s).trip = s.trip ∧ (thicknessRelease k
    s).pins = s.pins ∧ (thicknessRelease k s).freeIndex = s.freeIndex ∧ (thicknessRelease k s).pending = s.pending :=
    by
  unfold thicknessRelease
  simp

@[simp] theorem thicknessTripReset_keeps (time : Clock) : (thicknessTripReset time s).clock = s.clock ∧
    (thicknessTripReset time s).resetLow = s.resetLow ∧ (thicknessTripReset time s).etripPin = s.etripPin ∧
    (thicknessTripReset time s).level = s.level ∧ (thicknessTripReset time s).mask = s.mask ∧ (thicknessTripReset time
    s).exm = s.exm ∧ (thicknessTripReset time s).configResult = s.configResult ∧ (thicknessTripReset time
    s).cycleClock = s.cycleClock ∧ (thicknessTripReset time s).images = s.images ∧ (thicknessTripReset time
    s).tripArea = s.tripArea ∧ (thicknessTripReset time s).summary = s.summary ∧ (thicknessTripReset time s).line =
    s.line ∧ (thicknessTripReset time s).orders = s.orders ∧ (thicknessTripReset time s).link = s.link ∧
    (thicknessTripReset time s).tracker = s.tracker ∧ (thicknessTripReset time s).gauge = s.gauge ∧
    (thicknessTripReset time s).gap = s.gap ∧ (thicknessTripReset time s).store = s.store ∧ (thicknessTripReset time
    s).trip = s.trip ∧ (thicknessTripReset time s).pins = s.pins ∧ (thicknessTripReset time s).freeIndex = s.freeIndex
    ∧ (thicknessTripReset time s).pending = s.pending := by
  unfold thicknessTripReset
  refine ⟨?_, ?_, ?_, ?_, ?_, ?_, ?_, ?_, ?_, ?_, ?_, ?_, ?_, ?_, ?_, ?_, ?_, ?_, ?_, ?_, ?_, ?_⟩
  · exact (foldl_keeps (·.clock) (by simp) _ _)
  · exact (foldl_keeps (·.resetLow) (by simp) _ _)
  · exact (foldl_keeps (·.etripPin) (by simp) _ _)
  · exact (foldl_keeps (·.level) (by simp) _ _)
  · exact (foldl_keeps (·.mask) (by simp) _ _)
  · exact (foldl_keeps (·.exm) (by simp) _ _)
  · exact (foldl_keeps (·.configResult) (by simp) _ _)
  · exact (foldl_keeps (·.cycleClock) (by simp) _ _)
  · exact (foldl_keeps (·.images) (by simp) _ _)
  · exact (foldl_keeps (·.tripArea) (by simp) _ _)
  · exact (foldl_keeps (·.summary) (by simp) _ _)
  · exact (foldl_keeps (·.line) (by simp) _ _)
  · exact (foldl_keeps (·.orders) (by simp) _ _)
  · exact (foldl_keeps (·.link) (by simp) _ _)
  · exact (foldl_keeps (·.tracker) (by simp) _ _)
  · exact (foldl_keeps (·.gauge) (by simp) _ _)
  · exact (foldl_keeps (·.gap) (by simp) _ _)
  · exact (foldl_keeps (·.store) (by simp) _ _)
  · exact (foldl_keeps (·.trip) (by simp) _ _)
  · exact (foldl_keeps (·.pins) (by simp) _ _)
  · exact (foldl_keeps (·.freeIndex) (by simp) _ _)
  · exact (foldl_keeps (·.pending) (by simp) _ _)

@[simp] theorem loadInitial_keeps (k : Nat) : (loadInitial k s).clock = s.clock ∧ (loadInitial k s).resetLow =
    s.resetLow ∧ (loadInitial k s).etripPin = s.etripPin ∧ (loadInitial k s).level = s.level ∧ (loadInitial k
    s).attention = s.attention ∧ (loadInitial k s).mask = s.mask ∧ (loadInitial k s).exm = s.exm ∧ (loadInitial k
    s).configResult = s.configResult ∧ (loadInitial k s).cycleClock = s.cycleClock ∧ (loadInitial k s).images =
    s.images ∧ (loadInitial k s).tripArea = s.tripArea ∧ (loadInitial k s).summary = s.summary ∧ (loadInitial k
    s).journal = s.journal ∧ (loadInitial k s).line = s.line ∧ (loadInitial k s).orders = s.orders ∧ (loadInitial k
    s).link = s.link ∧ (loadInitial k s).tracker = s.tracker ∧ (loadInitial k s).gauge = s.gauge ∧ (loadInitial k
    s).gap = s.gap ∧ (loadInitial k s).store = s.store ∧ (loadInitial k s).trip = s.trip ∧ (loadInitial k s).pins =
    s.pins ∧ (loadInitial k s).freeIndex = s.freeIndex ∧ (loadInitial k s).pending = s.pending := by
  unfold loadInitial
  dsimp only
  split <;> simp

@[simp] theorem thicknessRunEntry_keeps : (thicknessRunEntry s).clock = s.clock ∧ (thicknessRunEntry s).resetLow =
    s.resetLow ∧ (thicknessRunEntry s).etripPin = s.etripPin ∧ (thicknessRunEntry s).level = s.level ∧
    (thicknessRunEntry s).mask = s.mask ∧ (thicknessRunEntry s).exm = s.exm ∧ (thicknessRunEntry s).configResult =
    s.configResult ∧ (thicknessRunEntry s).cycleClock = s.cycleClock ∧ (thicknessRunEntry s).images = s.images ∧
    (thicknessRunEntry s).tripArea = s.tripArea ∧ (thicknessRunEntry s).summary = s.summary ∧ (thicknessRunEntry
    s).line = s.line ∧ (thicknessRunEntry s).orders = s.orders ∧ (thicknessRunEntry s).link = s.link ∧
    (thicknessRunEntry s).tracker = s.tracker ∧ (thicknessRunEntry s).gauge = s.gauge ∧ (thicknessRunEntry s).gap =
    s.gap ∧ (thicknessRunEntry s).store = s.store ∧ (thicknessRunEntry s).trip = s.trip ∧ (thicknessRunEntry s).pins =
    s.pins ∧ (thicknessRunEntry s).freeIndex = s.freeIndex ∧ (thicknessRunEntry s).pending = s.pending := by
  unfold thicknessRunEntry
  dsimp only
  and_intros
  · exact (foldl_keeps (·.clock) (by simp) _ _).trans (foldl_keeps (·.clock) (by simp) _ _)
  · exact (foldl_keeps (·.resetLow) (by simp) _ _).trans (foldl_keeps (·.resetLow) (by simp) _ _)
  · exact (foldl_keeps (·.etripPin) (by simp) _ _).trans (foldl_keeps (·.etripPin) (by simp) _ _)
  · exact (foldl_keeps (·.level) (by simp) _ _).trans (foldl_keeps (·.level) (by simp) _ _)
  · exact (foldl_keeps (·.mask) (by simp) _ _).trans (foldl_keeps (·.mask) (by simp) _ _)
  · exact (foldl_keeps (·.exm) (by simp) _ _).trans (foldl_keeps (·.exm) (by simp) _ _)
  · exact (foldl_keeps (·.configResult) (by simp) _ _).trans (foldl_keeps (·.configResult) (by simp) _ _)
  · exact (foldl_keeps (·.cycleClock) (by simp) _ _).trans (foldl_keeps (·.cycleClock) (by simp) _ _)
  · exact (foldl_keeps (·.images) (by simp) _ _).trans (foldl_keeps (·.images) (by simp) _ _)
  · exact (foldl_keeps (·.tripArea) (by simp) _ _).trans (foldl_keeps (·.tripArea) (by simp) _ _)
  · exact (foldl_keeps (·.summary) (by simp) _ _).trans (foldl_keeps (·.summary) (by simp) _ _)
  · exact (foldl_keeps (·.line) (by simp) _ _).trans (foldl_keeps (·.line) (by simp) _ _)
  · exact (foldl_keeps (·.orders) (by simp) _ _).trans (foldl_keeps (·.orders) (by simp) _ _)
  · exact (foldl_keeps (·.link) (by simp) _ _).trans (foldl_keeps (·.link) (by simp) _ _)
  · exact (foldl_keeps (·.tracker) (by simp) _ _).trans (foldl_keeps (·.tracker) (by simp) _ _)
  · exact (foldl_keeps (·.gauge) (by simp) _ _).trans (foldl_keeps (·.gauge) (by simp) _ _)
  · exact (foldl_keeps (·.gap) (by simp) _ _).trans (foldl_keeps (·.gap) (by simp) _ _)
  · exact (foldl_keeps (·.store) (by simp) _ _).trans (foldl_keeps (·.store) (by simp) _ _)
  · exact (foldl_keeps (·.trip) (by simp) _ _).trans (foldl_keeps (·.trip) (by simp) _ _)
  · exact (foldl_keeps (·.pins) (by simp) _ _).trans (foldl_keeps (·.pins) (by simp) _ _)
  · exact (foldl_keeps (·.freeIndex) (by simp) _ _).trans (foldl_keeps (·.freeIndex) (by simp) _ _)
  · exact (foldl_keeps (·.pending) (by simp) _ _).trans (foldl_keeps (·.pending) (by simp) _ _)

/-! ### The Gap Unit -/

@[simp] theorem ffUpdate_keeps (k : Nat) (m : Mark) : (ffUpdate k m s).clock = s.clock ∧ (ffUpdate k m s).resetLow =
    s.resetLow ∧ (ffUpdate k m s).etripPin = s.etripPin ∧ (ffUpdate k m s).level = s.level ∧ (ffUpdate k m
    s).attention = s.attention ∧ (ffUpdate k m s).mask = s.mask ∧ (ffUpdate k m s).exm = s.exm ∧ (ffUpdate k m
    s).configResult = s.configResult ∧ (ffUpdate k m s).cycleClock = s.cycleClock ∧ (ffUpdate k m s).images = s.images
    ∧ (ffUpdate k m s).tripArea = s.tripArea ∧ (ffUpdate k m s).summary = s.summary ∧ (ffUpdate k m s).journal =
    s.journal ∧ (ffUpdate k m s).line = s.line ∧ (ffUpdate k m s).orders = s.orders ∧ (ffUpdate k m s).link = s.link ∧
    (ffUpdate k m s).tracker = s.tracker ∧ (ffUpdate k m s).est = s.est ∧ (ffUpdate k m s).gauge = s.gauge ∧ (ffUpdate
    k m s).store = s.store ∧ (ffUpdate k m s).trip = s.trip ∧ (ffUpdate k m s).pins = s.pins ∧ (ffUpdate k m
    s).freeIndex = s.freeIndex ∧ (ffUpdate k m s).pending = s.pending := by
  refine ⟨rfl, rfl, rfl, rfl, rfl, rfl, rfl, rfl, rfl, rfl, rfl, rfl, rfl, rfl, rfl, rfl, rfl, rfl, rfl, rfl, rfl, rfl, rfl, rfl⟩

@[simp] theorem monUpdate_keeps (m : Mark) : (monUpdate m s).clock = s.clock ∧ (monUpdate m s).resetLow = s.resetLow ∧
    (monUpdate m s).etripPin = s.etripPin ∧ (monUpdate m s).level = s.level ∧ (monUpdate m s).attention = s.attention
    ∧ (monUpdate m s).mask = s.mask ∧ (monUpdate m s).exm = s.exm ∧ (monUpdate m s).configResult = s.configResult ∧
    (monUpdate m s).cycleClock = s.cycleClock ∧ (monUpdate m s).images = s.images ∧ (monUpdate m s).tripArea =
    s.tripArea ∧ (monUpdate m s).summary = s.summary ∧ (monUpdate m s).journal = s.journal ∧ (monUpdate m s).line =
    s.line ∧ (monUpdate m s).orders = s.orders ∧ (monUpdate m s).link = s.link ∧ (monUpdate m s).tracker = s.tracker ∧
    (monUpdate m s).est = s.est ∧ (monUpdate m s).gauge = s.gauge ∧ (monUpdate m s).store = s.store ∧ (monUpdate m
    s).trip = s.trip ∧ (monUpdate m s).pins = s.pins ∧ (monUpdate m s).freeIndex = s.freeIndex ∧ (monUpdate m
    s).pending = s.pending := by
  unfold monUpdate
  dsimp only
  split <;> simp

@[simp] theorem agcUpdate_keeps (k : Nat) : (agcUpdate k s).clock = s.clock ∧ (agcUpdate k s).resetLow = s.resetLow ∧
    (agcUpdate k s).etripPin = s.etripPin ∧ (agcUpdate k s).level = s.level ∧ (agcUpdate k s).attention = s.attention
    ∧ (agcUpdate k s).mask = s.mask ∧ (agcUpdate k s).exm = s.exm ∧ (agcUpdate k s).configResult = s.configResult ∧
    (agcUpdate k s).cycleClock = s.cycleClock ∧ (agcUpdate k s).images = s.images ∧ (agcUpdate k s).tripArea =
    s.tripArea ∧ (agcUpdate k s).summary = s.summary ∧ (agcUpdate k s).journal = s.journal ∧ (agcUpdate k s).line =
    s.line ∧ (agcUpdate k s).orders = s.orders ∧ (agcUpdate k s).link = s.link ∧ (agcUpdate k s).tracker = s.tracker ∧
    (agcUpdate k s).est = s.est ∧ (agcUpdate k s).gauge = s.gauge ∧ (agcUpdate k s).store = s.store ∧ (agcUpdate k
    s).trip = s.trip ∧ (agcUpdate k s).pins = s.pins ∧ (agcUpdate k s).freeIndex = s.freeIndex ∧ (agcUpdate k
    s).pending = s.pending := by
  unfold agcUpdate
  dsimp only
  split <;> simp

@[simp] theorem captureLock_keeps (k : Nat) : (captureLock k s).clock = s.clock ∧ (captureLock k s).resetLow =
    s.resetLow ∧ (captureLock k s).etripPin = s.etripPin ∧ (captureLock k s).level = s.level ∧ (captureLock k
    s).attention = s.attention ∧ (captureLock k s).mask = s.mask ∧ (captureLock k s).exm = s.exm ∧ (captureLock k
    s).configResult = s.configResult ∧ (captureLock k s).cycleClock = s.cycleClock ∧ (captureLock k s).images =
    s.images ∧ (captureLock k s).tripArea = s.tripArea ∧ (captureLock k s).summary = s.summary ∧ (captureLock k
    s).journal = s.journal ∧ (captureLock k s).line = s.line ∧ (captureLock k s).orders = s.orders ∧ (captureLock k
    s).link = s.link ∧ (captureLock k s).tracker = s.tracker ∧ (captureLock k s).est = s.est ∧ (captureLock k s).gauge
    = s.gauge ∧ (captureLock k s).store = s.store ∧ (captureLock k s).trip = s.trip ∧ (captureLock k s).pins = s.pins
    ∧ (captureLock k s).freeIndex = s.freeIndex ∧ (captureLock k s).pending = s.pending := by
  refine ⟨rfl, rfl, rfl, rfl, rfl, rfl, rfl, rfl, rfl, rfl, rfl, rfl, rfl, rfl, rfl, rfl, rfl, rfl, rfl, rfl, rfl, rfl, rfl, rfl⟩

@[simp] theorem clearTerms_keeps (k : Nat) : (clearTerms k s).clock = s.clock ∧ (clearTerms k s).resetLow = s.resetLow
    ∧ (clearTerms k s).etripPin = s.etripPin ∧ (clearTerms k s).level = s.level ∧ (clearTerms k s).attention =
    s.attention ∧ (clearTerms k s).mask = s.mask ∧ (clearTerms k s).exm = s.exm ∧ (clearTerms k s).configResult =
    s.configResult ∧ (clearTerms k s).cycleClock = s.cycleClock ∧ (clearTerms k s).images = s.images ∧ (clearTerms k
    s).tripArea = s.tripArea ∧ (clearTerms k s).summary = s.summary ∧ (clearTerms k s).journal = s.journal ∧
    (clearTerms k s).line = s.line ∧ (clearTerms k s).orders = s.orders ∧ (clearTerms k s).link = s.link ∧ (clearTerms
    k s).tracker = s.tracker ∧ (clearTerms k s).est = s.est ∧ (clearTerms k s).gauge = s.gauge ∧ (clearTerms k
    s).store = s.store ∧ (clearTerms k s).trip = s.trip ∧ (clearTerms k s).pins = s.pins ∧ (clearTerms k s).freeIndex
    = s.freeIndex ∧ (clearTerms k s).pending = s.pending := by
  refine ⟨rfl, rfl, rfl, rfl, rfl, rfl, rfl, rfl, rfl, rfl, rfl, rfl, rfl, rfl, rfl, rfl, rfl, rfl, rfl, rfl, rfl, rfl, rfl, rfl⟩

@[simp] theorem switchTerms_keeps (k : Nat) : (switchTerms k s).clock = s.clock ∧ (switchTerms k s).resetLow =
    s.resetLow ∧ (switchTerms k s).etripPin = s.etripPin ∧ (switchTerms k s).level = s.level ∧ (switchTerms k
    s).attention = s.attention ∧ (switchTerms k s).mask = s.mask ∧ (switchTerms k s).exm = s.exm ∧ (switchTerms k
    s).configResult = s.configResult ∧ (switchTerms k s).cycleClock = s.cycleClock ∧ (switchTerms k s).images =
    s.images ∧ (switchTerms k s).tripArea = s.tripArea ∧ (switchTerms k s).summary = s.summary ∧ (switchTerms k
    s).journal = s.journal ∧ (switchTerms k s).line = s.line ∧ (switchTerms k s).orders = s.orders ∧ (switchTerms k
    s).link = s.link ∧ (switchTerms k s).tracker = s.tracker ∧ (switchTerms k s).est = s.est ∧ (switchTerms k s).gauge
    = s.gauge ∧ (switchTerms k s).store = s.store ∧ (switchTerms k s).trip = s.trip ∧ (switchTerms k s).pins = s.pins
    ∧ (switchTerms k s).freeIndex = s.freeIndex ∧ (switchTerms k s).pending = s.pending := by
  refine ⟨rfl, rfl, rfl, rfl, rfl, rfl, rfl, rfl, rfl, rfl, rfl, rfl, rfl, rfl, rfl, rfl, rfl, rfl, rfl, rfl, rfl, rfl, rfl, rfl⟩

@[simp] theorem gapTripReset_keeps : (gapTripReset s).clock = s.clock ∧ (gapTripReset s).resetLow = s.resetLow ∧
    (gapTripReset s).etripPin = s.etripPin ∧ (gapTripReset s).level = s.level ∧ (gapTripReset s).attention =
    s.attention ∧ (gapTripReset s).mask = s.mask ∧ (gapTripReset s).exm = s.exm ∧ (gapTripReset s).configResult =
    s.configResult ∧ (gapTripReset s).cycleClock = s.cycleClock ∧ (gapTripReset s).images = s.images ∧ (gapTripReset
    s).tripArea = s.tripArea ∧ (gapTripReset s).summary = s.summary ∧ (gapTripReset s).journal = s.journal ∧
    (gapTripReset s).line = s.line ∧ (gapTripReset s).orders = s.orders ∧ (gapTripReset s).link = s.link ∧
    (gapTripReset s).tracker = s.tracker ∧ (gapTripReset s).est = s.est ∧ (gapTripReset s).gauge = s.gauge ∧
    (gapTripReset s).store = s.store ∧ (gapTripReset s).trip = s.trip ∧ (gapTripReset s).pins = s.pins ∧ (gapTripReset
    s).freeIndex = s.freeIndex ∧ (gapTripReset s).pending = s.pending := by
  refine ⟨rfl, rfl, rfl, rfl, rfl, rfl, rfl, rfl, rfl, rfl, rfl, rfl, rfl, rfl, rfl, rfl, rfl, rfl, rfl, rfl, rfl, rfl, rfl, rfl⟩

@[simp] theorem endMove_keeps (k : Nat) (d : AbortDetail) (stays : Bool) : (endMove k d stays s).clock = s.clock ∧
    (endMove k d stays s).resetLow = s.resetLow ∧ (endMove k d stays s).etripPin = s.etripPin ∧ (endMove k d stays
    s).level = s.level ∧ (endMove k d stays s).mask = s.mask ∧ (endMove k d stays s).configResult = s.configResult ∧
    (endMove k d stays s).cycleClock = s.cycleClock ∧ (endMove k d stays s).images = s.images ∧ (endMove k d stays
    s).tripArea = s.tripArea ∧ (endMove k d stays s).summary = s.summary ∧ (endMove k d stays s).journal = s.journal ∧
    (endMove k d stays s).line = s.line ∧ (endMove k d stays s).link = s.link ∧ (endMove k d stays s).tracker =
    s.tracker ∧ (endMove k d stays s).est = s.est ∧ (endMove k d stays s).gauge = s.gauge ∧ (endMove k d stays
    s).store = s.store ∧ (endMove k d stays s).trip = s.trip ∧ (endMove k d stays s).pins = s.pins ∧ (endMove k d
    stays s).freeIndex = s.freeIndex ∧ (endMove k d stays s).pending = s.pending := by
  unfold endMove
  (repeat' split) <;> simp

@[simp] theorem endMovesLevel_keeps : (endMovesLevel s).clock = s.clock ∧ (endMovesLevel s).resetLow = s.resetLow ∧
    (endMovesLevel s).etripPin = s.etripPin ∧ (endMovesLevel s).level = s.level ∧ (endMovesLevel s).mask = s.mask ∧
    (endMovesLevel s).configResult = s.configResult ∧ (endMovesLevel s).cycleClock = s.cycleClock ∧ (endMovesLevel
    s).images = s.images ∧ (endMovesLevel s).tripArea = s.tripArea ∧ (endMovesLevel s).summary = s.summary ∧
    (endMovesLevel s).journal = s.journal ∧ (endMovesLevel s).line = s.line ∧ (endMovesLevel s).link = s.link ∧
    (endMovesLevel s).tracker = s.tracker ∧ (endMovesLevel s).est = s.est ∧ (endMovesLevel s).gauge = s.gauge ∧
    (endMovesLevel s).store = s.store ∧ (endMovesLevel s).trip = s.trip ∧ (endMovesLevel s).pins = s.pins ∧
    (endMovesLevel s).freeIndex = s.freeIndex ∧ (endMovesLevel s).pending = s.pending := by
  unfold endMovesLevel
  refine ⟨?_, ?_, ?_, ?_, ?_, ?_, ?_, ?_, ?_, ?_, ?_, ?_, ?_, ?_, ?_, ?_, ?_, ?_, ?_, ?_, ?_⟩
  · exact (foldl_keeps (·.clock) (by simp) _ _)
  · exact (foldl_keeps (·.resetLow) (by simp) _ _)
  · exact (foldl_keeps (·.etripPin) (by simp) _ _)
  · exact (foldl_keeps (·.level) (by simp) _ _)
  · exact (foldl_keeps (·.mask) (by simp) _ _)
  · exact (foldl_keeps (·.configResult) (by simp) _ _)
  · exact (foldl_keeps (·.cycleClock) (by simp) _ _)
  · exact (foldl_keeps (·.images) (by simp) _ _)
  · exact (foldl_keeps (·.tripArea) (by simp) _ _)
  · exact (foldl_keeps (·.summary) (by simp) _ _)
  · exact (foldl_keeps (·.journal) (by simp) _ _)
  · exact (foldl_keeps (·.line) (by simp) _ _)
  · exact (foldl_keeps (·.link) (by simp) _ _)
  · exact (foldl_keeps (·.tracker) (by simp) _ _)
  · exact (foldl_keeps (·.est) (by simp) _ _)
  · exact (foldl_keeps (·.gauge) (by simp) _ _)
  · exact (foldl_keeps (·.store) (by simp) _ _)
  · exact (foldl_keeps (·.trip) (by simp) _ _)
  · exact (foldl_keeps (·.pins) (by simp) _ _)
  · exact (foldl_keeps (·.freeIndex) (by simp) _ _)
  · exact (foldl_keeps (·.pending) (by simp) _ _)

@[simp] theorem endHold_keeps (k : Nat) : (endHold k s).clock = s.clock ∧ (endHold k s).resetLow = s.resetLow ∧
    (endHold k s).etripPin = s.etripPin ∧ (endHold k s).level = s.level ∧ (endHold k s).attention = s.attention ∧
    (endHold k s).mask = s.mask ∧ (endHold k s).exm = s.exm ∧ (endHold k s).configResult = s.configResult ∧ (endHold k
    s).cycleClock = s.cycleClock ∧ (endHold k s).images = s.images ∧ (endHold k s).tripArea = s.tripArea ∧ (endHold k
    s).summary = s.summary ∧ (endHold k s).journal = s.journal ∧ (endHold k s).line = s.line ∧ (endHold k s).orders =
    s.orders ∧ (endHold k s).link = s.link ∧ (endHold k s).tracker = s.tracker ∧ (endHold k s).est = s.est ∧ (endHold
    k s).gauge = s.gauge ∧ (endHold k s).store = s.store ∧ (endHold k s).trip = s.trip ∧ (endHold k s).pins = s.pins ∧
    (endHold k s).freeIndex = s.freeIndex ∧ (endHold k s).pending = s.pending := by
  unfold endHold
  split <;> simp

@[simp] theorem leaveVacant_keeps (k : Nat) : (leaveVacant k s).clock = s.clock ∧ (leaveVacant k s).resetLow =
    s.resetLow ∧ (leaveVacant k s).etripPin = s.etripPin ∧ (leaveVacant k s).level = s.level ∧ (leaveVacant k
    s).attention = s.attention ∧ (leaveVacant k s).mask = s.mask ∧ (leaveVacant k s).exm = s.exm ∧ (leaveVacant k
    s).configResult = s.configResult ∧ (leaveVacant k s).cycleClock = s.cycleClock ∧ (leaveVacant k s).images =
    s.images ∧ (leaveVacant k s).tripArea = s.tripArea ∧ (leaveVacant k s).summary = s.summary ∧ (leaveVacant k
    s).journal = s.journal ∧ (leaveVacant k s).line = s.line ∧ (leaveVacant k s).orders = s.orders ∧ (leaveVacant k
    s).link = s.link ∧ (leaveVacant k s).tracker = s.tracker ∧ (leaveVacant k s).est = s.est ∧ (leaveVacant k s).gauge
    = s.gauge ∧ (leaveVacant k s).store = s.store ∧ (leaveVacant k s).trip = s.trip ∧ (leaveVacant k s).pins = s.pins
    ∧ (leaveVacant k s).freeIndex = s.freeIndex ∧ (leaveVacant k s).pending = s.pending := by
  unfold leaveVacant
  split <;> simp

@[simp] theorem firstBase_keeps (k : Nat) : (firstBase k s).clock = s.clock ∧ (firstBase k s).resetLow = s.resetLow ∧
    (firstBase k s).etripPin = s.etripPin ∧ (firstBase k s).level = s.level ∧ (firstBase k s).attention = s.attention
    ∧ (firstBase k s).mask = s.mask ∧ (firstBase k s).exm = s.exm ∧ (firstBase k s).configResult = s.configResult ∧
    (firstBase k s).cycleClock = s.cycleClock ∧ (firstBase k s).images = s.images ∧ (firstBase k s).tripArea =
    s.tripArea ∧ (firstBase k s).summary = s.summary ∧ (firstBase k s).journal = s.journal ∧ (firstBase k s).line =
    s.line ∧ (firstBase k s).orders = s.orders ∧ (firstBase k s).link = s.link ∧ (firstBase k s).tracker = s.tracker ∧
    (firstBase k s).est = s.est ∧ (firstBase k s).gauge = s.gauge ∧ (firstBase k s).store = s.store ∧ (firstBase k
    s).trip = s.trip ∧ (firstBase k s).pins = s.pins ∧ (firstBase k s).freeIndex = s.freeIndex ∧ (firstBase k
    s).pending = s.pending := by
  unfold firstBase
  dsimp only
  split <;> simp

@[simp] theorem moveTest_keeps (k p f : Nat) (g : Int) : (moveTest k p f g s).clock = s.clock ∧ (moveTest k p f g
    s).resetLow = s.resetLow ∧ (moveTest k p f g s).etripPin = s.etripPin ∧ (moveTest k p f g s).level = s.level ∧
    (moveTest k p f g s).mask = s.mask ∧ (moveTest k p f g s).configResult = s.configResult ∧ (moveTest k p f g
    s).cycleClock = s.cycleClock ∧ (moveTest k p f g s).images = s.images ∧ (moveTest k p f g s).tripArea = s.tripArea
    ∧ (moveTest k p f g s).summary = s.summary ∧ (moveTest k p f g s).journal = s.journal ∧ (moveTest k p f g s).line
    = s.line ∧ (moveTest k p f g s).link = s.link ∧ (moveTest k p f g s).tracker = s.tracker ∧ (moveTest k p f g
    s).gauge = s.gauge ∧ (moveTest k p f g s).store = s.store ∧ (moveTest k p f g s).trip = s.trip ∧ (moveTest k p f g
    s).pins = s.pins ∧ (moveTest k p f g s).freeIndex = s.freeIndex ∧ (moveTest k p f g s).pending = s.pending := by
  unfold moveTest
  dsimp only
  (repeat' split) <;> simp

@[simp] theorem gapReply_keeps (k p f : Nat) (localMode lockBefore : Bool) : (gapReply k p f localMode lockBefore
    s).clock = s.clock ∧ (gapReply k p f localMode lockBefore s).resetLow = s.resetLow ∧ (gapReply k p f localMode
    lockBefore s).etripPin = s.etripPin ∧ (gapReply k p f localMode lockBefore s).level = s.level ∧ (gapReply k p f
    localMode lockBefore s).mask = s.mask ∧ (gapReply k p f localMode lockBefore s).configResult = s.configResult ∧
    (gapReply k p f localMode lockBefore s).cycleClock = s.cycleClock ∧ (gapReply k p f localMode lockBefore s).images
    = s.images ∧ (gapReply k p f localMode lockBefore s).tripArea = s.tripArea ∧ (gapReply k p f localMode lockBefore
    s).summary = s.summary ∧ (gapReply k p f localMode lockBefore s).journal = s.journal ∧ (gapReply k p f localMode
    lockBefore s).line = s.line ∧ (gapReply k p f localMode lockBefore s).link = s.link ∧ (gapReply k p f localMode
    lockBefore s).tracker = s.tracker ∧ (gapReply k p f localMode lockBefore s).gauge = s.gauge ∧ (gapReply k p f
    localMode lockBefore s).store = s.store ∧ (gapReply k p f localMode lockBefore s).trip = s.trip ∧ (gapReply k p f
    localMode lockBefore s).pins = s.pins ∧ (gapReply k p f localMode lockBefore s).freeIndex = s.freeIndex ∧
    (gapReply k p f localMode lockBefore s).pending = s.pending := by
  unfold gapReply
  dsimp only
  (repeat' split) <;> simp

@[simp] theorem sendBase_keeps (k : Nat) (b : Int) (t c : Bool) : (sendBase k b t c s).clock = s.clock ∧ (sendBase k b
    t c s).resetLow = s.resetLow ∧ (sendBase k b t c s).etripPin = s.etripPin ∧ (sendBase k b t c s).level = s.level ∧
    (sendBase k b t c s).attention = s.attention ∧ (sendBase k b t c s).mask = s.mask ∧ (sendBase k b t c s).exm =
    s.exm ∧ (sendBase k b t c s).configResult = s.configResult ∧ (sendBase k b t c s).cycleClock = s.cycleClock ∧
    (sendBase k b t c s).images = s.images ∧ (sendBase k b t c s).tripArea = s.tripArea ∧ (sendBase k b t c s).summary
    = s.summary ∧ (sendBase k b t c s).journal = s.journal ∧ (sendBase k b t c s).line = s.line ∧ (sendBase k b t c
    s).orders = s.orders ∧ (sendBase k b t c s).link = s.link ∧ (sendBase k b t c s).tracker = s.tracker ∧ (sendBase k
    b t c s).est = s.est ∧ (sendBase k b t c s).gauge = s.gauge ∧ (sendBase k b t c s).store = s.store ∧ (sendBase k b
    t c s).trip = s.trip ∧ (sendBase k b t c s).pins = s.pins ∧ (sendBase k b t c s).freeIndex = s.freeIndex ∧
    (sendBase k b t c s).pending = s.pending := by
  refine ⟨rfl, rfl, rfl, rfl, rfl, rfl, rfl, rfl, rfl, rfl, rfl, rfl, rfl, rfl, rfl, rfl, rfl, rfl, rfl, rfl, rfl, rfl, rfl, rfl⟩

@[simp] theorem holdFrame_keeps (k : Nat) (t : Bool) : (holdFrame k t s).clock = s.clock ∧ (holdFrame k t s).resetLow
    = s.resetLow ∧ (holdFrame k t s).etripPin = s.etripPin ∧ (holdFrame k t s).level = s.level ∧ (holdFrame k t
    s).attention = s.attention ∧ (holdFrame k t s).mask = s.mask ∧ (holdFrame k t s).exm = s.exm ∧ (holdFrame k t
    s).configResult = s.configResult ∧ (holdFrame k t s).cycleClock = s.cycleClock ∧ (holdFrame k t s).images =
    s.images ∧ (holdFrame k t s).tripArea = s.tripArea ∧ (holdFrame k t s).summary = s.summary ∧ (holdFrame k t
    s).journal = s.journal ∧ (holdFrame k t s).line = s.line ∧ (holdFrame k t s).orders = s.orders ∧ (holdFrame k t
    s).link = s.link ∧ (holdFrame k t s).tracker = s.tracker ∧ (holdFrame k t s).est = s.est ∧ (holdFrame k t s).gauge
    = s.gauge ∧ (holdFrame k t s).store = s.store ∧ (holdFrame k t s).trip = s.trip ∧ (holdFrame k t s).pins = s.pins
    ∧ (holdFrame k t s).freeIndex = s.freeIndex ∧ (holdFrame k t s).pending = s.pending := by
  refine ⟨rfl, rfl, rfl, rfl, rfl, rfl, rfl, rfl, rfl, rfl, rfl, rfl, rfl, rfl, rfl, rfl, rfl, rfl, rfl, rfl, rfl, rfl, rfl, rfl⟩

@[simp] theorem assemble_keeps (k : Nat) : (assemble k s).clock = s.clock ∧ (assemble k s).resetLow = s.resetLow ∧
    (assemble k s).etripPin = s.etripPin ∧ (assemble k s).level = s.level ∧ (assemble k s).attention = s.attention ∧
    (assemble k s).mask = s.mask ∧ (assemble k s).exm = s.exm ∧ (assemble k s).configResult = s.configResult ∧
    (assemble k s).cycleClock = s.cycleClock ∧ (assemble k s).images = s.images ∧ (assemble k s).tripArea = s.tripArea
    ∧ (assemble k s).summary = s.summary ∧ (assemble k s).journal = s.journal ∧ (assemble k s).line = s.line ∧
    (assemble k s).orders = s.orders ∧ (assemble k s).link = s.link ∧ (assemble k s).tracker = s.tracker ∧ (assemble k
    s).est = s.est ∧ (assemble k s).gauge = s.gauge ∧ (assemble k s).store = s.store ∧ (assemble k s).trip = s.trip ∧
    (assemble k s).pins = s.pins ∧ (assemble k s).freeIndex = s.freeIndex ∧ (assemble k s).pending = s.pending := by
  refine ⟨rfl, rfl, rfl, rfl, rfl, rfl, rfl, rfl, rfl, rfl, rfl, rfl, rfl, rfl, rfl, rfl, rfl, rfl, rfl, rfl, rfl, rfl, rfl, rfl⟩

@[simp] theorem timeoutTest_keeps (k : Nat) : (timeoutTest k s).clock = s.clock ∧ (timeoutTest k s).resetLow =
    s.resetLow ∧ (timeoutTest k s).etripPin = s.etripPin ∧ (timeoutTest k s).level = s.level ∧ (timeoutTest k s).mask
    = s.mask ∧ (timeoutTest k s).configResult = s.configResult ∧ (timeoutTest k s).cycleClock = s.cycleClock ∧
    (timeoutTest k s).images = s.images ∧ (timeoutTest k s).tripArea = s.tripArea ∧ (timeoutTest k s).summary =
    s.summary ∧ (timeoutTest k s).journal = s.journal ∧ (timeoutTest k s).line = s.line ∧ (timeoutTest k s).link =
    s.link ∧ (timeoutTest k s).tracker = s.tracker ∧ (timeoutTest k s).est = s.est ∧ (timeoutTest k s).gauge = s.gauge
    ∧ (timeoutTest k s).store = s.store ∧ (timeoutTest k s).trip = s.trip ∧ (timeoutTest k s).pins = s.pins ∧
    (timeoutTest k s).freeIndex = s.freeIndex ∧ (timeoutTest k s).pending = s.pending := by
  unfold timeoutTest
  split <;> simp

@[simp] theorem rampStep_keeps (k : Nat) (x : Int) : (rampStep k x s).clock = s.clock ∧ (rampStep k x s).resetLow =
    s.resetLow ∧ (rampStep k x s).etripPin = s.etripPin ∧ (rampStep k x s).level = s.level ∧ (rampStep k x
    s).attention = s.attention ∧ (rampStep k x s).mask = s.mask ∧ (rampStep k x s).exm = s.exm ∧ (rampStep k x
    s).configResult = s.configResult ∧ (rampStep k x s).cycleClock = s.cycleClock ∧ (rampStep k x s).images = s.images
    ∧ (rampStep k x s).tripArea = s.tripArea ∧ (rampStep k x s).summary = s.summary ∧ (rampStep k x s).journal =
    s.journal ∧ (rampStep k x s).line = s.line ∧ (rampStep k x s).orders = s.orders ∧ (rampStep k x s).link = s.link ∧
    (rampStep k x s).tracker = s.tracker ∧ (rampStep k x s).est = s.est ∧ (rampStep k x s).gauge = s.gauge ∧ (rampStep
    k x s).store = s.store ∧ (rampStep k x s).trip = s.trip ∧ (rampStep k x s).pins = s.pins ∧ (rampStep k x
    s).freeIndex = s.freeIndex ∧ (rampStep k x s).pending = s.pending := by
  refine ⟨rfl, rfl, rfl, rfl, rfl, rfl, rfl, rfl, rfl, rfl, rfl, rfl, rfl, rfl, rfl, rfl, rfl, rfl, rfl, rfl, rfl, rfl, rfl, rfl⟩

@[simp] theorem calOpenStep_keeps (k : Nat) : (calOpenStep k s).clock = s.clock ∧ (calOpenStep k s).resetLow =
    s.resetLow ∧ (calOpenStep k s).etripPin = s.etripPin ∧ (calOpenStep k s).level = s.level ∧ (calOpenStep k
    s).attention = s.attention ∧ (calOpenStep k s).mask = s.mask ∧ (calOpenStep k s).exm = s.exm ∧ (calOpenStep k
    s).configResult = s.configResult ∧ (calOpenStep k s).cycleClock = s.cycleClock ∧ (calOpenStep k s).images =
    s.images ∧ (calOpenStep k s).tripArea = s.tripArea ∧ (calOpenStep k s).summary = s.summary ∧ (calOpenStep k
    s).journal = s.journal ∧ (calOpenStep k s).line = s.line ∧ (calOpenStep k s).orders = s.orders ∧ (calOpenStep k
    s).link = s.link ∧ (calOpenStep k s).tracker = s.tracker ∧ (calOpenStep k s).est = s.est ∧ (calOpenStep k s).gauge
    = s.gauge ∧ (calOpenStep k s).store = s.store ∧ (calOpenStep k s).trip = s.trip ∧ (calOpenStep k s).pins = s.pins
    ∧ (calOpenStep k s).freeIndex = s.freeIndex ∧ (calOpenStep k s).pending = s.pending := by
  refine ⟨rfl, rfl, rfl, rfl, rfl, rfl, rfl, rfl, rfl, rfl, rfl, rfl, rfl, rfl, rfl, rfl, rfl, rfl, rfl, rfl, rfl, rfl, rfl, rfl⟩

@[simp] theorem prepareByMove_keeps (k : Nat) : (prepareByMove k s).clock = s.clock ∧ (prepareByMove k s).resetLow =
    s.resetLow ∧ (prepareByMove k s).etripPin = s.etripPin ∧ (prepareByMove k s).level = s.level ∧ (prepareByMove k
    s).attention = s.attention ∧ (prepareByMove k s).mask = s.mask ∧ (prepareByMove k s).exm = s.exm ∧ (prepareByMove
    k s).configResult = s.configResult ∧ (prepareByMove k s).cycleClock = s.cycleClock ∧ (prepareByMove k s).images =
    s.images ∧ (prepareByMove k s).tripArea = s.tripArea ∧ (prepareByMove k s).summary = s.summary ∧ (prepareByMove k
    s).journal = s.journal ∧ (prepareByMove k s).line = s.line ∧ (prepareByMove k s).orders = s.orders ∧
    (prepareByMove k s).link = s.link ∧ (prepareByMove k s).tracker = s.tracker ∧ (prepareByMove k s).est = s.est ∧
    (prepareByMove k s).gauge = s.gauge ∧ (prepareByMove k s).store = s.store ∧ (prepareByMove k s).trip = s.trip ∧
    (prepareByMove k s).pins = s.pins ∧ (prepareByMove k s).freeIndex = s.freeIndex ∧ (prepareByMove k s).pending =
    s.pending := by
  unfold prepareByMove
  dsimp only
  (repeat' split) <;> simp

@[simp] theorem prepareMove_keeps (k : Nat) : (prepareMove k s).clock = s.clock ∧ (prepareMove k s).resetLow =
    s.resetLow ∧ (prepareMove k s).etripPin = s.etripPin ∧ (prepareMove k s).level = s.level ∧ (prepareMove k s).mask
    = s.mask ∧ (prepareMove k s).configResult = s.configResult ∧ (prepareMove k s).cycleClock = s.cycleClock ∧
    (prepareMove k s).images = s.images ∧ (prepareMove k s).tripArea = s.tripArea ∧ (prepareMove k s).summary =
    s.summary ∧ (prepareMove k s).journal = s.journal ∧ (prepareMove k s).line = s.line ∧ (prepareMove k s).link =
    s.link ∧ (prepareMove k s).tracker = s.tracker ∧ (prepareMove k s).est = s.est ∧ (prepareMove k s).gauge = s.gauge
    ∧ (prepareMove k s).store = s.store ∧ (prepareMove k s).trip = s.trip ∧ (prepareMove k s).pins = s.pins ∧
    (prepareMove k s).freeIndex = s.freeIndex ∧ (prepareMove k s).pending = s.pending := by
  unfold prepareMove
  dsimp only
  split <;> simp

@[simp] theorem prepare_keeps (k : Nat) : (prepare k s).clock = s.clock ∧ (prepare k s).resetLow = s.resetLow ∧
    (prepare k s).etripPin = s.etripPin ∧ (prepare k s).level = s.level ∧ (prepare k s).mask = s.mask ∧ (prepare k
    s).configResult = s.configResult ∧ (prepare k s).cycleClock = s.cycleClock ∧ (prepare k s).images = s.images ∧
    (prepare k s).tripArea = s.tripArea ∧ (prepare k s).summary = s.summary ∧ (prepare k s).journal = s.journal ∧
    (prepare k s).line = s.line ∧ (prepare k s).link = s.link ∧ (prepare k s).tracker = s.tracker ∧ (prepare k s).est
    = s.est ∧ (prepare k s).gauge = s.gauge ∧ (prepare k s).store = s.store ∧ (prepare k s).trip = s.trip ∧ (prepare k
    s).pins = s.pins ∧ (prepare k s).freeIndex = s.freeIndex ∧ (prepare k s).pending = s.pending := by
  unfold prepare
  (repeat' split) <;> simp

@[simp] theorem acceptLong_keeps (k ptr : Nat) (m : Move) : (acceptLong k ptr m s).clock = s.clock ∧ (acceptLong k ptr
    m s).resetLow = s.resetLow ∧ (acceptLong k ptr m s).etripPin = s.etripPin ∧ (acceptLong k ptr m s).level = s.level
    ∧ (acceptLong k ptr m s).attention = s.attention ∧ (acceptLong k ptr m s).mask = s.mask ∧ (acceptLong k ptr m
    s).exm = s.exm ∧ (acceptLong k ptr m s).configResult = s.configResult ∧ (acceptLong k ptr m s).cycleClock =
    s.cycleClock ∧ (acceptLong k ptr m s).images = s.images ∧ (acceptLong k ptr m s).tripArea = s.tripArea ∧
    (acceptLong k ptr m s).summary = s.summary ∧ (acceptLong k ptr m s).journal = s.journal ∧ (acceptLong k ptr m
    s).line = s.line ∧ (acceptLong k ptr m s).link = s.link ∧ (acceptLong k ptr m s).tracker = s.tracker ∧ (acceptLong
    k ptr m s).est = s.est ∧ (acceptLong k ptr m s).gauge = s.gauge ∧ (acceptLong k ptr m s).store = s.store ∧
    (acceptLong k ptr m s).trip = s.trip ∧ (acceptLong k ptr m s).pins = s.pins ∧ (acceptLong k ptr m s).freeIndex =
    s.freeIndex ∧ (acceptLong k ptr m s).pending = s.pending := by
  refine ⟨rfl, rfl, rfl, rfl, rfl, rfl, rfl, rfl, rfl, rfl, rfl, rfl, rfl, rfl, rfl, rfl, rfl, rfl, rfl, rfl, rfl, rfl, rfl⟩

@[simp] theorem abortMove_keeps (k : Nat) : (abortMove k s).clock = s.clock ∧ (abortMove k s).resetLow = s.resetLow ∧
    (abortMove k s).etripPin = s.etripPin ∧ (abortMove k s).level = s.level ∧ (abortMove k s).mask = s.mask ∧
    (abortMove k s).configResult = s.configResult ∧ (abortMove k s).cycleClock = s.cycleClock ∧ (abortMove k s).images
    = s.images ∧ (abortMove k s).tripArea = s.tripArea ∧ (abortMove k s).summary = s.summary ∧ (abortMove k s).journal
    = s.journal ∧ (abortMove k s).line = s.line ∧ (abortMove k s).link = s.link ∧ (abortMove k s).tracker = s.tracker
    ∧ (abortMove k s).est = s.est ∧ (abortMove k s).gauge = s.gauge ∧ (abortMove k s).store = s.store ∧ (abortMove k
    s).trip = s.trip ∧ (abortMove k s).pins = s.pins ∧ (abortMove k s).freeIndex = s.freeIndex ∧ (abortMove k
    s).pending = s.pending := by
  unfold abortMove
  split <;> simp

/-! ### The Schedule Store -/

@[simp] theorem freeSlot_keeps (x : Slot) (cause : FreeCause) (time : Clock) : (freeSlot x cause time s).clock =
    s.clock ∧ (freeSlot x cause time s).resetLow = s.resetLow ∧ (freeSlot x cause time s).etripPin = s.etripPin ∧
    (freeSlot x cause time s).level = s.level ∧ (freeSlot x cause time s).mask = s.mask ∧ (freeSlot x cause time
    s).exm = s.exm ∧ (freeSlot x cause time s).configResult = s.configResult ∧ (freeSlot x cause time s).cycleClock =
    s.cycleClock ∧ (freeSlot x cause time s).images = s.images ∧ (freeSlot x cause time s).tripArea = s.tripArea ∧
    (freeSlot x cause time s).summary = s.summary ∧ (freeSlot x cause time s).line = s.line ∧ (freeSlot x cause time
    s).orders = s.orders ∧ (freeSlot x cause time s).link = s.link ∧ (freeSlot x cause time s).tracker = s.tracker ∧
    (freeSlot x cause time s).est = s.est ∧ (freeSlot x cause time s).gauge = s.gauge ∧ (freeSlot x cause time s).gap
    = s.gap ∧ (freeSlot x cause time s).trip = s.trip ∧ (freeSlot x cause time s).pins = s.pins ∧ (freeSlot x cause
    time s).freeIndex = s.freeIndex ∧ (freeSlot x cause time s).pending = s.pending := by
  unfold freeSlot
  simp

@[simp] theorem settleLeft_keeps (x : Slot) (cause : FreeCause) (time : Clock) : (settleLeft x cause time s).clock =
    s.clock ∧ (settleLeft x cause time s).resetLow = s.resetLow ∧ (settleLeft x cause time s).etripPin = s.etripPin ∧
    (settleLeft x cause time s).level = s.level ∧ (settleLeft x cause time s).mask = s.mask ∧ (settleLeft x cause time
    s).exm = s.exm ∧ (settleLeft x cause time s).configResult = s.configResult ∧ (settleLeft x cause time
    s).cycleClock = s.cycleClock ∧ (settleLeft x cause time s).images = s.images ∧ (settleLeft x cause time
    s).tripArea = s.tripArea ∧ (settleLeft x cause time s).summary = s.summary ∧ (settleLeft x cause time s).line =
    s.line ∧ (settleLeft x cause time s).orders = s.orders ∧ (settleLeft x cause time s).link = s.link ∧ (settleLeft x
    cause time s).tracker = s.tracker ∧ (settleLeft x cause time s).est = s.est ∧ (settleLeft x cause time s).gauge =
    s.gauge ∧ (settleLeft x cause time s).gap = s.gap ∧ (settleLeft x cause time s).trip = s.trip ∧ (settleLeft x
    cause time s).pins = s.pins ∧ (settleLeft x cause time s).freeIndex = s.freeIndex ∧ (settleLeft x cause time
    s).pending = s.pending := by
  unfold settleLeft
  (repeat' split) <;> simp

@[simp] theorem takeInForce_keeps (x : Slot) : (takeInForce x s).clock = s.clock ∧ (takeInForce x s).resetLow =
    s.resetLow ∧ (takeInForce x s).etripPin = s.etripPin ∧ (takeInForce x s).level = s.level ∧ (takeInForce x
    s).attention = s.attention ∧ (takeInForce x s).mask = s.mask ∧ (takeInForce x s).exm = s.exm ∧ (takeInForce x
    s).configResult = s.configResult ∧ (takeInForce x s).cycleClock = s.cycleClock ∧ (takeInForce x s).images =
    s.images ∧ (takeInForce x s).tripArea = s.tripArea ∧ (takeInForce x s).summary = s.summary ∧ (takeInForce x
    s).journal = s.journal ∧ (takeInForce x s).line = s.line ∧ (takeInForce x s).orders = s.orders ∧ (takeInForce x
    s).link = s.link ∧ (takeInForce x s).tracker = s.tracker ∧ (takeInForce x s).est = s.est ∧ (takeInForce x s).gauge
    = s.gauge ∧ (takeInForce x s).gap = s.gap ∧ (takeInForce x s).trip = s.trip ∧ (takeInForce x s).pins = s.pins ∧
    (takeInForce x s).freeIndex = s.freeIndex ∧ (takeInForce x s).pending = s.pending := by
  unfold takeInForce
  split <;> simp

@[simp] theorem switchStand_keeps (k : Nat) (x : Slot) (cause : SwitchCause) (free : FreeCause) (time : Clock) :
    (switchStand k x cause free time s).clock = s.clock ∧ (switchStand k x cause free time s).resetLow = s.resetLow ∧
    (switchStand k x cause free time s).etripPin = s.etripPin ∧ (switchStand k x cause free time s).level = s.level ∧
    (switchStand k x cause free time s).mask = s.mask ∧ (switchStand k x cause free time s).exm = s.exm ∧ (switchStand
    k x cause free time s).configResult = s.configResult ∧ (switchStand k x cause free time s).cycleClock =
    s.cycleClock ∧ (switchStand k x cause free time s).images = s.images ∧ (switchStand k x cause free time
    s).tripArea = s.tripArea ∧ (switchStand k x cause free time s).summary = s.summary ∧ (switchStand k x cause free
    time s).line = s.line ∧ (switchStand k x cause free time s).orders = s.orders ∧ (switchStand k x cause free time
    s).link = s.link ∧ (switchStand k x cause free time s).tracker = s.tracker ∧ (switchStand k x cause free time
    s).est = s.est ∧ (switchStand k x cause free time s).gauge = s.gauge ∧ (switchStand k x cause free time s).trip =
    s.trip ∧ (switchStand k x cause free time s).pins = s.pins ∧ (switchStand k x cause free time s).freeIndex =
    s.freeIndex ∧ (switchStand k x cause free time s).pending = s.pending := by
  unfold switchStand
  dsimp only
  split <;> simp

@[simp] theorem switchStands_keeps (ks : List Nat) (x : Slot) (cause : SwitchCause) (free : FreeCause) (time : Clock)
    : (switchStands ks x cause free time s).clock = s.clock ∧ (switchStands ks x cause free time s).resetLow =
    s.resetLow ∧ (switchStands ks x cause free time s).etripPin = s.etripPin ∧ (switchStands ks x cause free time
    s).level = s.level ∧ (switchStands ks x cause free time s).mask = s.mask ∧ (switchStands ks x cause free time
    s).exm = s.exm ∧ (switchStands ks x cause free time s).configResult = s.configResult ∧ (switchStands ks x cause
    free time s).cycleClock = s.cycleClock ∧ (switchStands ks x cause free time s).images = s.images ∧ (switchStands
    ks x cause free time s).tripArea = s.tripArea ∧ (switchStands ks x cause free time s).summary = s.summary ∧
    (switchStands ks x cause free time s).line = s.line ∧ (switchStands ks x cause free time s).orders = s.orders ∧
    (switchStands ks x cause free time s).link = s.link ∧ (switchStands ks x cause free time s).tracker = s.tracker ∧
    (switchStands ks x cause free time s).est = s.est ∧ (switchStands ks x cause free time s).gauge = s.gauge ∧
    (switchStands ks x cause free time s).trip = s.trip ∧ (switchStands ks x cause free time s).pins = s.pins ∧
    (switchStands ks x cause free time s).freeIndex = s.freeIndex ∧ (switchStands ks x cause free time s).pending =
    s.pending := by
  unfold switchStands
  refine ⟨?_, ?_, ?_, ?_, ?_, ?_, ?_, ?_, ?_, ?_, ?_, ?_, ?_, ?_, ?_, ?_, ?_, ?_, ?_, ?_, ?_⟩
  · exact (foldl_keeps (·.clock) (by simp) _ _)
  · exact (foldl_keeps (·.resetLow) (by simp) _ _)
  · exact (foldl_keeps (·.etripPin) (by simp) _ _)
  · exact (foldl_keeps (·.level) (by simp) _ _)
  · exact (foldl_keeps (·.mask) (by simp) _ _)
  · exact (foldl_keeps (·.exm) (by simp) _ _)
  · exact (foldl_keeps (·.configResult) (by simp) _ _)
  · exact (foldl_keeps (·.cycleClock) (by simp) _ _)
  · exact (foldl_keeps (·.images) (by simp) _ _)
  · exact (foldl_keeps (·.tripArea) (by simp) _ _)
  · exact (foldl_keeps (·.summary) (by simp) _ _)
  · exact (foldl_keeps (·.line) (by simp) _ _)
  · exact (foldl_keeps (·.orders) (by simp) _ _)
  · exact (foldl_keeps (·.link) (by simp) _ _)
  · exact (foldl_keeps (·.tracker) (by simp) _ _)
  · exact (foldl_keeps (·.est) (by simp) _ _)
  · exact (foldl_keeps (·.gauge) (by simp) _ _)
  · exact (foldl_keeps (·.trip) (by simp) _ _)
  · exact (foldl_keeps (·.pins) (by simp) _ _)
  · exact (foldl_keeps (·.freeIndex) (by simp) _ _)
  · exact (foldl_keeps (·.pending) (by simp) _ _)

@[simp] theorem releaseSwitch_keeps (k : Nat) : (releaseSwitch k s).clock = s.clock ∧ (releaseSwitch k s).resetLow =
    s.resetLow ∧ (releaseSwitch k s).etripPin = s.etripPin ∧ (releaseSwitch k s).level = s.level ∧ (releaseSwitch k
    s).mask = s.mask ∧ (releaseSwitch k s).exm = s.exm ∧ (releaseSwitch k s).configResult = s.configResult ∧
    (releaseSwitch k s).cycleClock = s.cycleClock ∧ (releaseSwitch k s).images = s.images ∧ (releaseSwitch k
    s).tripArea = s.tripArea ∧ (releaseSwitch k s).summary = s.summary ∧ (releaseSwitch k s).line = s.line ∧
    (releaseSwitch k s).orders = s.orders ∧ (releaseSwitch k s).link = s.link ∧ (releaseSwitch k s).tracker =
    s.tracker ∧ (releaseSwitch k s).est = s.est ∧ (releaseSwitch k s).gauge = s.gauge ∧ (releaseSwitch k s).trip =
    s.trip ∧ (releaseSwitch k s).pins = s.pins ∧ (releaseSwitch k s).freeIndex = s.freeIndex ∧ (releaseSwitch k
    s).pending = s.pending := by
  unfold releaseSwitch
  (repeat' split) <;> simp

@[simp] theorem markDeparted_keeps (tag : Option Slot) : (markDeparted tag s).clock = s.clock ∧ (markDeparted tag
    s).resetLow = s.resetLow ∧ (markDeparted tag s).etripPin = s.etripPin ∧ (markDeparted tag s).level = s.level ∧
    (markDeparted tag s).mask = s.mask ∧ (markDeparted tag s).exm = s.exm ∧ (markDeparted tag s).configResult =
    s.configResult ∧ (markDeparted tag s).cycleClock = s.cycleClock ∧ (markDeparted tag s).images = s.images ∧
    (markDeparted tag s).tripArea = s.tripArea ∧ (markDeparted tag s).summary = s.summary ∧ (markDeparted tag s).line
    = s.line ∧ (markDeparted tag s).orders = s.orders ∧ (markDeparted tag s).link = s.link ∧ (markDeparted tag
    s).tracker = s.tracker ∧ (markDeparted tag s).est = s.est ∧ (markDeparted tag s).gauge = s.gauge ∧ (markDeparted
    tag s).gap = s.gap ∧ (markDeparted tag s).trip = s.trip ∧ (markDeparted tag s).pins = s.pins ∧ (markDeparted tag
    s).freeIndex = s.freeIndex ∧ (markDeparted tag s).pending = s.pending := by
  unfold markDeparted
  (repeat' split) <;> simp

@[simp] theorem slotsFlushed_keeps (time : Clock) : (slotsFlushed time s).clock = s.clock ∧ (slotsFlushed time
    s).resetLow = s.resetLow ∧ (slotsFlushed time s).etripPin = s.etripPin ∧ (slotsFlushed time s).level = s.level ∧
    (slotsFlushed time s).mask = s.mask ∧ (slotsFlushed time s).exm = s.exm ∧ (slotsFlushed time s).configResult =
    s.configResult ∧ (slotsFlushed time s).cycleClock = s.cycleClock ∧ (slotsFlushed time s).images = s.images ∧
    (slotsFlushed time s).tripArea = s.tripArea ∧ (slotsFlushed time s).summary = s.summary ∧ (slotsFlushed time
    s).line = s.line ∧ (slotsFlushed time s).orders = s.orders ∧ (slotsFlushed time s).link = s.link ∧ (slotsFlushed
    time s).tracker = s.tracker ∧ (slotsFlushed time s).est = s.est ∧ (slotsFlushed time s).gauge = s.gauge ∧
    (slotsFlushed time s).gap = s.gap ∧ (slotsFlushed time s).trip = s.trip ∧ (slotsFlushed time s).pins = s.pins ∧
    (slotsFlushed time s).freeIndex = s.freeIndex ∧ (slotsFlushed time s).pending = s.pending := by
  unfold slotsFlushed
  simp only [List.foldl_cons, List.foldl_nil]
  (repeat' split) <;> simp

@[simp] theorem loadInto_keeps (x : Slot) (r : Schedule) (ks : List Nat) (time : Clock) : (loadInto x r ks time
    s).clock = s.clock ∧ (loadInto x r ks time s).resetLow = s.resetLow ∧ (loadInto x r ks time s).etripPin =
    s.etripPin ∧ (loadInto x r ks time s).level = s.level ∧ (loadInto x r ks time s).mask = s.mask ∧ (loadInto x r ks
    time s).configResult = s.configResult ∧ (loadInto x r ks time s).cycleClock = s.cycleClock ∧ (loadInto x r ks time
    s).images = s.images ∧ (loadInto x r ks time s).tripArea = s.tripArea ∧ (loadInto x r ks time s).summary =
    s.summary ∧ (loadInto x r ks time s).line = s.line ∧ (loadInto x r ks time s).link = s.link ∧ (loadInto x r ks
    time s).tracker = s.tracker ∧ (loadInto x r ks time s).est = s.est ∧ (loadInto x r ks time s).gauge = s.gauge ∧
    (loadInto x r ks time s).trip = s.trip ∧ (loadInto x r ks time s).pins = s.pins ∧ (loadInto x r ks time
    s).freeIndex = s.freeIndex ∧ (loadInto x r ks time s).pending = s.pending := by
  unfold loadInto
  simp

@[simp] theorem collapseSlots_keeps (cause : SwitchCause) (time : Clock) : (collapseSlots cause time s).clock =
    s.clock ∧ (collapseSlots cause time s).resetLow = s.resetLow ∧ (collapseSlots cause time s).etripPin = s.etripPin
    ∧ (collapseSlots cause time s).level = s.level ∧ (collapseSlots cause time s).mask = s.mask ∧ (collapseSlots cause
    time s).exm = s.exm ∧ (collapseSlots cause time s).configResult = s.configResult ∧ (collapseSlots cause time
    s).cycleClock = s.cycleClock ∧ (collapseSlots cause time s).images = s.images ∧ (collapseSlots cause time
    s).tripArea = s.tripArea ∧ (collapseSlots cause time s).summary = s.summary ∧ (collapseSlots cause time s).line =
    s.line ∧ (collapseSlots cause time s).orders = s.orders ∧ (collapseSlots cause time s).link = s.link ∧
    (collapseSlots cause time s).tracker = s.tracker ∧ (collapseSlots cause time s).est = s.est ∧ (collapseSlots cause
    time s).gauge = s.gauge ∧ (collapseSlots cause time s).trip = s.trip ∧ (collapseSlots cause time s).pins = s.pins
    ∧ (collapseSlots cause time s).freeIndex = s.freeIndex ∧ (collapseSlots cause time s).pending = s.pending := by
  unfold collapseSlots
  dsimp only
  (repeat' split) <;> simp

@[simp] theorem dropMismatch_keeps (x : Slot) : (dropMismatch x s).clock = s.clock ∧ (dropMismatch x s).resetLow =
    s.resetLow ∧ (dropMismatch x s).etripPin = s.etripPin ∧ (dropMismatch x s).level = s.level ∧ (dropMismatch x
    s).mask = s.mask ∧ (dropMismatch x s).exm = s.exm ∧ (dropMismatch x s).configResult = s.configResult ∧
    (dropMismatch x s).cycleClock = s.cycleClock ∧ (dropMismatch x s).images = s.images ∧ (dropMismatch x s).tripArea
    = s.tripArea ∧ (dropMismatch x s).summary = s.summary ∧ (dropMismatch x s).line = s.line ∧ (dropMismatch x
    s).orders = s.orders ∧ (dropMismatch x s).link = s.link ∧ (dropMismatch x s).tracker = s.tracker ∧ (dropMismatch x
    s).est = s.est ∧ (dropMismatch x s).gauge = s.gauge ∧ (dropMismatch x s).gap = s.gap ∧ (dropMismatch x s).trip =
    s.trip ∧ (dropMismatch x s).pins = s.pins ∧ (dropMismatch x s).freeIndex = s.freeIndex ∧ (dropMismatch x
    s).pending = s.pending := by
  unfold dropMismatch
  split <;> simp

@[simp] theorem slotsRunEntry_keeps : (slotsRunEntry s).clock = s.clock ∧ (slotsRunEntry s).resetLow = s.resetLow ∧
    (slotsRunEntry s).etripPin = s.etripPin ∧ (slotsRunEntry s).level = s.level ∧ (slotsRunEntry s).mask = s.mask ∧
    (slotsRunEntry s).exm = s.exm ∧ (slotsRunEntry s).configResult = s.configResult ∧ (slotsRunEntry s).cycleClock =
    s.cycleClock ∧ (slotsRunEntry s).images = s.images ∧ (slotsRunEntry s).tripArea = s.tripArea ∧ (slotsRunEntry
    s).summary = s.summary ∧ (slotsRunEntry s).line = s.line ∧ (slotsRunEntry s).orders = s.orders ∧ (slotsRunEntry
    s).link = s.link ∧ (slotsRunEntry s).tracker = s.tracker ∧ (slotsRunEntry s).est = s.est ∧ (slotsRunEntry s).gauge
    = s.gauge ∧ (slotsRunEntry s).trip = s.trip ∧ (slotsRunEntry s).pins = s.pins ∧ (slotsRunEntry s).freeIndex =
    s.freeIndex ∧ (slotsRunEntry s).pending = s.pending := by
  unfold slotsRunEntry
  dsimp only
  split <;> simp

/-! ### The Trip Unit -/

@[simp] theorem recordCause_keeps (c : Cause) (k : Nat) (time : Clock) : (recordCause c k time s).clock = s.clock ∧
    (recordCause c k time s).resetLow = s.resetLow ∧ (recordCause c k time s).etripPin = s.etripPin ∧ (recordCause c k
    time s).level = s.level ∧ (recordCause c k time s).mask = s.mask ∧ (recordCause c k time s).exm = s.exm ∧
    (recordCause c k time s).configResult = s.configResult ∧ (recordCause c k time s).cycleClock = s.cycleClock ∧
    (recordCause c k time s).images = s.images ∧ (recordCause c k time s).tripArea = s.tripArea ∧ (recordCause c k
    time s).summary = s.summary ∧ (recordCause c k time s).line = s.line ∧ (recordCause c k time s).orders = s.orders
    ∧ (recordCause c k time s).link = s.link ∧ (recordCause c k time s).tracker = s.tracker ∧ (recordCause c k time
    s).est = s.est ∧ (recordCause c k time s).gauge = s.gauge ∧ (recordCause c k time s).gap = s.gap ∧ (recordCause c
    k time s).store = s.store ∧ (recordCause c k time s).pins = s.pins ∧ (recordCause c k time s).freeIndex =
    s.freeIndex ∧ (recordCause c k time s).pending = s.pending := by
  unfold recordCause
  (repeat' split) <;> simp

@[simp] theorem applyEntry_keeps (e : MatrixEntry) (ks : List Nat) : (applyEntry e ks s).clock = s.clock ∧ (applyEntry
    e ks s).resetLow = s.resetLow ∧ (applyEntry e ks s).etripPin = s.etripPin ∧ (applyEntry e ks s).level = s.level ∧
    (applyEntry e ks s).mask = s.mask ∧ (applyEntry e ks s).configResult = s.configResult ∧ (applyEntry e ks
    s).cycleClock = s.cycleClock ∧ (applyEntry e ks s).images = s.images ∧ (applyEntry e ks s).tripArea = s.tripArea ∧
    (applyEntry e ks s).summary = s.summary ∧ (applyEntry e ks s).journal = s.journal ∧ (applyEntry e ks s).line =
    s.line ∧ (applyEntry e ks s).link = s.link ∧ (applyEntry e ks s).tracker = s.tracker ∧ (applyEntry e ks s).est =
    s.est ∧ (applyEntry e ks s).gauge = s.gauge ∧ (applyEntry e ks s).store = s.store ∧ (applyEntry e ks s).pins =
    s.pins ∧ (applyEntry e ks s).freeIndex = s.freeIndex ∧ (applyEntry e ks s).pending = s.pending := by
  unfold applyEntry
  dsimp only
  and_intros
  · exact foldl_keeps (·.clock) (by simp) _ _
  · exact foldl_keeps (·.resetLow) (by simp) _ _
  · exact foldl_keeps (·.etripPin) (by simp) _ _
  · exact foldl_keeps (·.level) (by simp) _ _
  · exact foldl_keeps (·.mask) (by simp) _ _
  · exact foldl_keeps (·.configResult) (by simp) _ _
  · exact foldl_keeps (·.cycleClock) (by simp) _ _
  · exact foldl_keeps (·.images) (by simp) _ _
  · exact foldl_keeps (·.tripArea) (by simp) _ _
  · exact foldl_keeps (·.summary) (by simp) _ _
  · exact foldl_keeps (·.journal) (by simp) _ _
  · exact foldl_keeps (·.line) (by simp) _ _
  · exact foldl_keeps (·.link) (by simp) _ _
  · exact foldl_keeps (·.tracker) (by simp) _ _
  · exact foldl_keeps (·.est) (by simp) _ _
  · exact foldl_keeps (·.gauge) (by simp) _ _
  · exact foldl_keeps (·.store) (by simp) _ _
  · exact foldl_keeps (·.pins) (by simp) _ _
  · exact foldl_keeps (·.freeIndex) (by simp) _ _
  · exact foldl_keeps (·.pending) (by simp) _ _

@[simp] theorem takeCause_keeps (c : Cause) (k : Nat) (time : Clock) : (takeCause c k time s).clock = s.clock ∧
    (takeCause c k time s).resetLow = s.resetLow ∧ (takeCause c k time s).etripPin = s.etripPin ∧ (takeCause c k time
    s).level = s.level ∧ (takeCause c k time s).mask = s.mask ∧ (takeCause c k time s).configResult = s.configResult ∧
    (takeCause c k time s).cycleClock = s.cycleClock ∧ (takeCause c k time s).images = s.images ∧ (takeCause c k time
    s).summary = s.summary ∧ (takeCause c k time s).line = s.line ∧ (takeCause c k time s).link = s.link ∧ (takeCause
    c k time s).tracker = s.tracker ∧ (takeCause c k time s).est = s.est ∧ (takeCause c k time s).gauge = s.gauge ∧
    (takeCause c k time s).store = s.store ∧ (takeCause c k time s).pins = s.pins ∧ (takeCause c k time s).pending =
    s.pending := by
  unfold takeCause
  split <;> simp

@[simp] theorem takeCauses_keeps (cs : List (Cause × Nat)) (time : Clock) : (takeCauses cs time s).clock = s.clock ∧
    (takeCauses cs time s).resetLow = s.resetLow ∧ (takeCauses cs time s).etripPin = s.etripPin ∧ (takeCauses cs time
    s).level = s.level ∧ (takeCauses cs time s).mask = s.mask ∧ (takeCauses cs time s).configResult = s.configResult ∧
    (takeCauses cs time s).cycleClock = s.cycleClock ∧ (takeCauses cs time s).images = s.images ∧ (takeCauses cs time
    s).summary = s.summary ∧ (takeCauses cs time s).line = s.line ∧ (takeCauses cs time s).link = s.link ∧ (takeCauses
    cs time s).tracker = s.tracker ∧ (takeCauses cs time s).est = s.est ∧ (takeCauses cs time s).gauge = s.gauge ∧
    (takeCauses cs time s).store = s.store ∧ (takeCauses cs time s).pins = s.pins ∧ (takeCauses cs time s).pending =
    s.pending := by
  unfold takeCauses
  refine ⟨?_, ?_, ?_, ?_, ?_, ?_, ?_, ?_, ?_, ?_, ?_, ?_, ?_, ?_, ?_, ?_, ?_⟩
  · exact (foldl_keeps (·.clock) (by simp) _ _)
  · exact (foldl_keeps (·.resetLow) (by simp) _ _)
  · exact (foldl_keeps (·.etripPin) (by simp) _ _)
  · exact (foldl_keeps (·.level) (by simp) _ _)
  · exact (foldl_keeps (·.mask) (by simp) _ _)
  · exact (foldl_keeps (·.configResult) (by simp) _ _)
  · exact (foldl_keeps (·.cycleClock) (by simp) _ _)
  · exact (foldl_keeps (·.images) (by simp) _ _)
  · exact (foldl_keeps (·.summary) (by simp) _ _)
  · exact (foldl_keeps (·.line) (by simp) _ _)
  · exact (foldl_keeps (·.link) (by simp) _ _)
  · exact (foldl_keeps (·.tracker) (by simp) _ _)
  · exact (foldl_keeps (·.est) (by simp) _ _)
  · exact (foldl_keeps (·.gauge) (by simp) _ _)
  · exact (foldl_keeps (·.store) (by simp) _ _)
  · exact (foldl_keeps (·.pins) (by simp) _ _)
  · exact (foldl_keeps (·.pending) (by simp) _ _)

@[simp] theorem takeRaised_keeps : (takeRaised s).clock = s.clock ∧ (takeRaised s).resetLow = s.resetLow ∧ (takeRaised
    s).etripPin = s.etripPin ∧ (takeRaised s).level = s.level ∧ (takeRaised s).mask = s.mask ∧ (takeRaised
    s).configResult = s.configResult ∧ (takeRaised s).cycleClock = s.cycleClock ∧ (takeRaised s).images = s.images ∧
    (takeRaised s).summary = s.summary ∧ (takeRaised s).line = s.line ∧ (takeRaised s).link = s.link ∧ (takeRaised
    s).est = s.est ∧ (takeRaised s).gauge = s.gauge ∧ (takeRaised s).store = s.store ∧ (takeRaised s).pins = s.pins ∧
    (takeRaised s).pending = s.pending := by
  unfold takeRaised
  simp

@[simp] theorem replyCheck_keeps (k p f : Nat) (flags : ReplyFlags) : (replyCheck k p f flags s).clock = s.clock ∧
    (replyCheck k p f flags s).resetLow = s.resetLow ∧ (replyCheck k p f flags s).etripPin = s.etripPin ∧ (replyCheck
    k p f flags s).level = s.level ∧ (replyCheck k p f flags s).mask = s.mask ∧ (replyCheck k p f flags
    s).configResult = s.configResult ∧ (replyCheck k p f flags s).cycleClock = s.cycleClock ∧ (replyCheck k p f flags
    s).images = s.images ∧ (replyCheck k p f flags s).summary = s.summary ∧ (replyCheck k p f flags s).line = s.line ∧
    (replyCheck k p f flags s).link = s.link ∧ (replyCheck k p f flags s).tracker = s.tracker ∧ (replyCheck k p f
    flags s).est = s.est ∧ (replyCheck k p f flags s).gauge = s.gauge ∧ (replyCheck k p f flags s).store = s.store ∧
    (replyCheck k p f flags s).pins = s.pins ∧ (replyCheck k p f flags s).pending = s.pending := by
  unfold replyCheck
  simp

@[simp] theorem becomeReady_keeps (k : Nat) : (becomeReady k s).clock = s.clock ∧ (becomeReady k s).resetLow =
    s.resetLow ∧ (becomeReady k s).etripPin = s.etripPin ∧ (becomeReady k s).level = s.level ∧ (becomeReady k
    s).attention = s.attention ∧ (becomeReady k s).mask = s.mask ∧ (becomeReady k s).exm = s.exm ∧ (becomeReady k
    s).configResult = s.configResult ∧ (becomeReady k s).cycleClock = s.cycleClock ∧ (becomeReady k s).images =
    s.images ∧ (becomeReady k s).summary = s.summary ∧ (becomeReady k s).journal = s.journal ∧ (becomeReady k s).line
    = s.line ∧ (becomeReady k s).orders = s.orders ∧ (becomeReady k s).link = s.link ∧ (becomeReady k s).tracker =
    s.tracker ∧ (becomeReady k s).est = s.est ∧ (becomeReady k s).gauge = s.gauge ∧ (becomeReady k s).gap = s.gap ∧
    (becomeReady k s).store = s.store ∧ (becomeReady k s).pins = s.pins ∧ (becomeReady k s).pending = s.pending := by
  unfold becomeReady
  split <;> simp

/-! ### The gauge record -/

@[simp] theorem expireSample_keeps : (expireSample s).clock = s.clock ∧ (expireSample s).resetLow = s.resetLow ∧
    (expireSample s).etripPin = s.etripPin ∧ (expireSample s).level = s.level ∧ (expireSample s).attention =
    s.attention ∧ (expireSample s).mask = s.mask ∧ (expireSample s).exm = s.exm ∧ (expireSample s).configResult =
    s.configResult ∧ (expireSample s).cycleClock = s.cycleClock ∧ (expireSample s).images = s.images ∧ (expireSample
    s).tripArea = s.tripArea ∧ (expireSample s).summary = s.summary ∧ (expireSample s).journal = s.journal ∧
    (expireSample s).line = s.line ∧ (expireSample s).orders = s.orders ∧ (expireSample s).link = s.link ∧
    (expireSample s).tracker = s.tracker ∧ (expireSample s).est = s.est ∧ (expireSample s).gap = s.gap ∧ (expireSample
    s).store = s.store ∧ (expireSample s).trip = s.trip ∧ (expireSample s).pins = s.pins ∧ (expireSample s).freeIndex
    = s.freeIndex ∧ (expireSample s).pending = s.pending := by
  unfold expireSample
  split <;> simp

@[simp] theorem gaugeReply_keeps (valid : Bool) (hx : Nat) : (gaugeReply valid hx s).clock = s.clock ∧ (gaugeReply
    valid hx s).resetLow = s.resetLow ∧ (gaugeReply valid hx s).etripPin = s.etripPin ∧ (gaugeReply valid hx s).level
    = s.level ∧ (gaugeReply valid hx s).attention = s.attention ∧ (gaugeReply valid hx s).mask = s.mask ∧ (gaugeReply
    valid hx s).exm = s.exm ∧ (gaugeReply valid hx s).configResult = s.configResult ∧ (gaugeReply valid hx
    s).cycleClock = s.cycleClock ∧ (gaugeReply valid hx s).images = s.images ∧ (gaugeReply valid hx s).tripArea =
    s.tripArea ∧ (gaugeReply valid hx s).summary = s.summary ∧ (gaugeReply valid hx s).journal = s.journal ∧
    (gaugeReply valid hx s).line = s.line ∧ (gaugeReply valid hx s).orders = s.orders ∧ (gaugeReply valid hx s).link =
    s.link ∧ (gaugeReply valid hx s).tracker = s.tracker ∧ (gaugeReply valid hx s).est = s.est ∧ (gaugeReply valid hx
    s).gap = s.gap ∧ (gaugeReply valid hx s).store = s.store ∧ (gaugeReply valid hx s).trip = s.trip ∧ (gaugeReply
    valid hx s).pins = s.pins ∧ (gaugeReply valid hx s).freeIndex = s.freeIndex ∧ (gaugeReply valid hx s).pending =
    s.pending := by
  unfold gaugeReply
  split <;> simp

@[simp] theorem gaugeSilent_keeps : (gaugeSilent s).clock = s.clock ∧ (gaugeSilent s).resetLow = s.resetLow ∧
    (gaugeSilent s).etripPin = s.etripPin ∧ (gaugeSilent s).level = s.level ∧ (gaugeSilent s).attention = s.attention
    ∧ (gaugeSilent s).mask = s.mask ∧ (gaugeSilent s).exm = s.exm ∧ (gaugeSilent s).configResult = s.configResult ∧
    (gaugeSilent s).cycleClock = s.cycleClock ∧ (gaugeSilent s).images = s.images ∧ (gaugeSilent s).tripArea =
    s.tripArea ∧ (gaugeSilent s).summary = s.summary ∧ (gaugeSilent s).journal = s.journal ∧ (gaugeSilent s).line =
    s.line ∧ (gaugeSilent s).orders = s.orders ∧ (gaugeSilent s).link = s.link ∧ (gaugeSilent s).tracker = s.tracker ∧
    (gaugeSilent s).est = s.est ∧ (gaugeSilent s).gap = s.gap ∧ (gaugeSilent s).store = s.store ∧ (gaugeSilent s).trip
    = s.trip ∧ (gaugeSilent s).pins = s.pins ∧ (gaugeSilent s).freeIndex = s.freeIndex ∧ (gaugeSilent s).pending =
    s.pending := by
  refine ⟨rfl, rfl, rfl, rfl, rfl, rfl, rfl, rfl, rfl, rfl, rfl, rfl, rfl, rfl, rfl, rfl, rfl, rfl, rfl, rfl, rfl, rfl, rfl, rfl⟩

@[simp] theorem gaugePresent_keeps : (gaugePresent s).clock = s.clock ∧ (gaugePresent s).resetLow = s.resetLow ∧
    (gaugePresent s).etripPin = s.etripPin ∧ (gaugePresent s).level = s.level ∧ (gaugePresent s).attention =
    s.attention ∧ (gaugePresent s).mask = s.mask ∧ (gaugePresent s).exm = s.exm ∧ (gaugePresent s).configResult =
    s.configResult ∧ (gaugePresent s).cycleClock = s.cycleClock ∧ (gaugePresent s).images = s.images ∧ (gaugePresent
    s).tripArea = s.tripArea ∧ (gaugePresent s).summary = s.summary ∧ (gaugePresent s).journal = s.journal ∧
    (gaugePresent s).line = s.line ∧ (gaugePresent s).orders = s.orders ∧ (gaugePresent s).link = s.link ∧
    (gaugePresent s).tracker = s.tracker ∧ (gaugePresent s).est = s.est ∧ (gaugePresent s).gap = s.gap ∧ (gaugePresent
    s).store = s.store ∧ (gaugePresent s).trip = s.trip ∧ (gaugePresent s).pins = s.pins ∧ (gaugePresent s).freeIndex
    = s.freeIndex ∧ (gaugePresent s).pending = s.pending := by
  refine ⟨rfl, rfl, rfl, rfl, rfl, rfl, rfl, rfl, rfl, rfl, rfl, rfl, rfl, rfl, rfl, rfl, rfl, rfl, rfl, rfl, rfl, rfl, rfl, rfl⟩

@[simp] theorem gaugeTripReset_keeps : (gaugeTripReset s).clock = s.clock ∧ (gaugeTripReset s).resetLow = s.resetLow ∧
    (gaugeTripReset s).etripPin = s.etripPin ∧ (gaugeTripReset s).level = s.level ∧ (gaugeTripReset s).attention =
    s.attention ∧ (gaugeTripReset s).mask = s.mask ∧ (gaugeTripReset s).exm = s.exm ∧ (gaugeTripReset s).configResult
    = s.configResult ∧ (gaugeTripReset s).cycleClock = s.cycleClock ∧ (gaugeTripReset s).images = s.images ∧
    (gaugeTripReset s).tripArea = s.tripArea ∧ (gaugeTripReset s).summary = s.summary ∧ (gaugeTripReset s).journal =
    s.journal ∧ (gaugeTripReset s).line = s.line ∧ (gaugeTripReset s).orders = s.orders ∧ (gaugeTripReset s).link =
    s.link ∧ (gaugeTripReset s).tracker = s.tracker ∧ (gaugeTripReset s).est = s.est ∧ (gaugeTripReset s).gap = s.gap
    ∧ (gaugeTripReset s).store = s.store ∧ (gaugeTripReset s).trip = s.trip ∧ (gaugeTripReset s).pins = s.pins ∧
    (gaugeTripReset s).freeIndex = s.freeIndex ∧ (gaugeTripReset s).pending = s.pending := by
  refine ⟨rfl, rfl, rfl, rfl, rfl, rfl, rfl, rfl, rfl, rfl, rfl, rfl, rfl, rfl, rfl, rfl, rfl, rfl, rfl, rfl, rfl, rfl, rfl, rfl⟩

@[simp] theorem gaugeRunEntry_keeps : (gaugeRunEntry s).clock = s.clock ∧ (gaugeRunEntry s).resetLow = s.resetLow ∧
    (gaugeRunEntry s).etripPin = s.etripPin ∧ (gaugeRunEntry s).level = s.level ∧ (gaugeRunEntry s).attention =
    s.attention ∧ (gaugeRunEntry s).mask = s.mask ∧ (gaugeRunEntry s).exm = s.exm ∧ (gaugeRunEntry s).configResult =
    s.configResult ∧ (gaugeRunEntry s).cycleClock = s.cycleClock ∧ (gaugeRunEntry s).images = s.images ∧
    (gaugeRunEntry s).tripArea = s.tripArea ∧ (gaugeRunEntry s).summary = s.summary ∧ (gaugeRunEntry s).journal =
    s.journal ∧ (gaugeRunEntry s).line = s.line ∧ (gaugeRunEntry s).orders = s.orders ∧ (gaugeRunEntry s).link =
    s.link ∧ (gaugeRunEntry s).tracker = s.tracker ∧ (gaugeRunEntry s).est = s.est ∧ (gaugeRunEntry s).gap = s.gap ∧
    (gaugeRunEntry s).store = s.store ∧ (gaugeRunEntry s).trip = s.trip ∧ (gaugeRunEntry s).pins = s.pins ∧
    (gaugeRunEntry s).freeIndex = s.freeIndex ∧ (gaugeRunEntry s).pending = s.pending := by
  refine ⟨rfl, rfl, rfl, rfl, rfl, rfl, rfl, rfl, rfl, rfl, rfl, rfl, rfl, rfl, rfl, rfl, rfl, rfl, rfl, rfl, rfl, rfl, rfl, rfl⟩

@[simp] theorem toleranceVerdict_keeps (m : Mark) : (toleranceVerdict m s).clock = s.clock ∧ (toleranceVerdict m
    s).resetLow = s.resetLow ∧ (toleranceVerdict m s).etripPin = s.etripPin ∧ (toleranceVerdict m s).level = s.level ∧
    (toleranceVerdict m s).mask = s.mask ∧ (toleranceVerdict m s).exm = s.exm ∧ (toleranceVerdict m s).configResult =
    s.configResult ∧ (toleranceVerdict m s).cycleClock = s.cycleClock ∧ (toleranceVerdict m s).images = s.images ∧
    (toleranceVerdict m s).tripArea = s.tripArea ∧ (toleranceVerdict m s).summary = s.summary ∧ (toleranceVerdict m
    s).line = s.line ∧ (toleranceVerdict m s).orders = s.orders ∧ (toleranceVerdict m s).link = s.link ∧
    (toleranceVerdict m s).tracker = s.tracker ∧ (toleranceVerdict m s).est = s.est ∧ (toleranceVerdict m s).gap =
    s.gap ∧ (toleranceVerdict m s).store = s.store ∧ (toleranceVerdict m s).trip = s.trip ∧ (toleranceVerdict m
    s).pins = s.pins ∧ (toleranceVerdict m s).freeIndex = s.freeIndex ∧ (toleranceVerdict m s).pending = s.pending :=
    by
  unfold toleranceVerdict
  dsimp only
  split <;> simp

/-! ### The Tracker -/

@[simp] theorem clearPicture_keeps : (clearPicture s).clock = s.clock ∧ (clearPicture s).resetLow = s.resetLow ∧
    (clearPicture s).etripPin = s.etripPin ∧ (clearPicture s).level = s.level ∧ (clearPicture s).attention =
    s.attention ∧ (clearPicture s).mask = s.mask ∧ (clearPicture s).exm = s.exm ∧ (clearPicture s).configResult =
    s.configResult ∧ (clearPicture s).cycleClock = s.cycleClock ∧ (clearPicture s).images = s.images ∧ (clearPicture
    s).tripArea = s.tripArea ∧ (clearPicture s).summary = s.summary ∧ (clearPicture s).journal = s.journal ∧
    (clearPicture s).line = s.line ∧ (clearPicture s).orders = s.orders ∧ (clearPicture s).link = s.link ∧
    (clearPicture s).est = s.est ∧ (clearPicture s).gauge = s.gauge ∧ (clearPicture s).gap = s.gap ∧ (clearPicture
    s).store = s.store ∧ (clearPicture s).trip = s.trip ∧ (clearPicture s).pins = s.pins ∧ (clearPicture s).freeIndex
    = s.freeIndex ∧ (clearPicture s).pending = s.pending := by
  refine ⟨rfl, rfl, rfl, rfl, rfl, rfl, rfl, rfl, rfl, rfl, rfl, rfl, rfl, rfl, rfl, rfl, rfl, rfl, rfl, rfl, rfl, rfl, rfl, rfl⟩

@[simp] theorem clearTally_keeps : (clearTally s).clock = s.clock ∧ (clearTally s).resetLow = s.resetLow ∧ (clearTally
    s).etripPin = s.etripPin ∧ (clearTally s).level = s.level ∧ (clearTally s).attention = s.attention ∧ (clearTally
    s).mask = s.mask ∧ (clearTally s).exm = s.exm ∧ (clearTally s).configResult = s.configResult ∧ (clearTally
    s).cycleClock = s.cycleClock ∧ (clearTally s).images = s.images ∧ (clearTally s).tripArea = s.tripArea ∧
    (clearTally s).summary = s.summary ∧ (clearTally s).journal = s.journal ∧ (clearTally s).line = s.line ∧
    (clearTally s).orders = s.orders ∧ (clearTally s).link = s.link ∧ (clearTally s).tracker = s.tracker ∧ (clearTally
    s).est = s.est ∧ (clearTally s).gap = s.gap ∧ (clearTally s).store = s.store ∧ (clearTally s).trip = s.trip ∧
    (clearTally s).pins = s.pins ∧ (clearTally s).freeIndex = s.freeIndex ∧ (clearTally s).pending = s.pending := by
  refine ⟨rfl, rfl, rfl, rfl, rfl, rfl, rfl, rfl, rfl, rfl, rfl, rfl, rfl, rfl, rfl, rfl, rfl, rfl, rfl, rfl, rfl, rfl, rfl, rfl⟩

@[simp] theorem flush_keeps (time : Clock) : (flush time s).clock = s.clock ∧ (flush time s).resetLow = s.resetLow ∧
    (flush time s).etripPin = s.etripPin ∧ (flush time s).level = s.level ∧ (flush time s).mask = s.mask ∧ (flush time
    s).exm = s.exm ∧ (flush time s).configResult = s.configResult ∧ (flush time s).cycleClock = s.cycleClock ∧ (flush
    time s).images = s.images ∧ (flush time s).tripArea = s.tripArea ∧ (flush time s).line = s.line ∧ (flush time
    s).orders = s.orders ∧ (flush time s).link = s.link ∧ (flush time s).est = s.est ∧ (flush time s).gap = s.gap ∧
    (flush time s).trip = s.trip ∧ (flush time s).pins = s.pins ∧ (flush time s).freeIndex = s.freeIndex ∧ (flush time
    s).pending = s.pending := by
  unfold flush
  simp

@[simp] theorem resetThreading_keeps : (resetThreading s).clock = s.clock ∧ (resetThreading s).resetLow = s.resetLow ∧
    (resetThreading s).etripPin = s.etripPin ∧ (resetThreading s).level = s.level ∧ (resetThreading s).attention =
    s.attention ∧ (resetThreading s).mask = s.mask ∧ (resetThreading s).exm = s.exm ∧ (resetThreading s).configResult
    = s.configResult ∧ (resetThreading s).cycleClock = s.cycleClock ∧ (resetThreading s).images = s.images ∧
    (resetThreading s).tripArea = s.tripArea ∧ (resetThreading s).summary = s.summary ∧ (resetThreading s).journal =
    s.journal ∧ (resetThreading s).line = s.line ∧ (resetThreading s).orders = s.orders ∧ (resetThreading s).link =
    s.link ∧ (resetThreading s).est = s.est ∧ (resetThreading s).gauge = s.gauge ∧ (resetThreading s).gap = s.gap ∧
    (resetThreading s).store = s.store ∧ (resetThreading s).trip = s.trip ∧ (resetThreading s).pins = s.pins ∧
    (resetThreading s).freeIndex = s.freeIndex ∧ (resetThreading s).pending = s.pending := by
  refine ⟨rfl, rfl, rfl, rfl, rfl, rfl, rfl, rfl, rfl, rfl, rfl, rfl, rfl, rfl, rfl, rfl, rfl, rfl, rfl, rfl, rfl, rfl, rfl, rfl⟩

@[simp] theorem withGen_keeps (g : Generator) : (withGen g s).clock = s.clock ∧ (withGen g s).resetLow = s.resetLow ∧
    (withGen g s).etripPin = s.etripPin ∧ (withGen g s).level = s.level ∧ (withGen g s).attention = s.attention ∧
    (withGen g s).mask = s.mask ∧ (withGen g s).exm = s.exm ∧ (withGen g s).configResult = s.configResult ∧ (withGen g
    s).cycleClock = s.cycleClock ∧ (withGen g s).images = s.images ∧ (withGen g s).tripArea = s.tripArea ∧ (withGen g
    s).summary = s.summary ∧ (withGen g s).journal = s.journal ∧ (withGen g s).line = s.line ∧ (withGen g s).orders =
    s.orders ∧ (withGen g s).link = s.link ∧ (withGen g s).est = s.est ∧ (withGen g s).gauge = s.gauge ∧ (withGen g
    s).gap = s.gap ∧ (withGen g s).store = s.store ∧ (withGen g s).trip = s.trip ∧ (withGen g s).pins = s.pins ∧
    (withGen g s).freeIndex = s.freeIndex ∧ (withGen g s).pending = s.pending := by
  refine ⟨rfl, rfl, rfl, rfl, rfl, rfl, rfl, rfl, rfl, rfl, rfl, rfl, rfl, rfl, rfl, rfl, rfl, rfl, rfl, rfl, rfl, rfl, rfl, rfl⟩

@[simp] theorem cutMark_keeps (kind : MarkKind) (x : Nat) : (cutMark kind x s).clock = s.clock ∧ (cutMark kind x
    s).resetLow = s.resetLow ∧ (cutMark kind x s).etripPin = s.etripPin ∧ (cutMark kind x s).level = s.level ∧
    (cutMark kind x s).attention = s.attention ∧ (cutMark kind x s).mask = s.mask ∧ (cutMark kind x s).exm = s.exm ∧
    (cutMark kind x s).configResult = s.configResult ∧ (cutMark kind x s).cycleClock = s.cycleClock ∧ (cutMark kind x
    s).images = s.images ∧ (cutMark kind x s).tripArea = s.tripArea ∧ (cutMark kind x s).summary = s.summary ∧
    (cutMark kind x s).journal = s.journal ∧ (cutMark kind x s).line = s.line ∧ (cutMark kind x s).orders = s.orders ∧
    (cutMark kind x s).link = s.link ∧ (cutMark kind x s).est = s.est ∧ (cutMark kind x s).gauge = s.gauge ∧ (cutMark
    kind x s).gap = s.gap ∧ (cutMark kind x s).store = s.store ∧ (cutMark kind x s).trip = s.trip ∧ (cutMark kind x
    s).pins = s.pins ∧ (cutMark kind x s).freeIndex = s.freeIndex ∧ (cutMark kind x s).pending = s.pending := by
  refine ⟨rfl, rfl, rfl, rfl, rfl, rfl, rfl, rfl, rfl, rfl, rfl, rfl, rfl, rfl, rfl, rfl, rfl, rfl, rfl, rfl, rfl, rfl, rfl, rfl⟩

@[simp] theorem skipCut_keeps (kind : MarkKind) : (skipCut kind s).clock = s.clock ∧ (skipCut kind s).resetLow =
    s.resetLow ∧ (skipCut kind s).etripPin = s.etripPin ∧ (skipCut kind s).level = s.level ∧ (skipCut kind s).mask =
    s.mask ∧ (skipCut kind s).exm = s.exm ∧ (skipCut kind s).configResult = s.configResult ∧ (skipCut kind
    s).cycleClock = s.cycleClock ∧ (skipCut kind s).images = s.images ∧ (skipCut kind s).tripArea = s.tripArea ∧
    (skipCut kind s).summary = s.summary ∧ (skipCut kind s).line = s.line ∧ (skipCut kind s).orders = s.orders ∧
    (skipCut kind s).link = s.link ∧ (skipCut kind s).est = s.est ∧ (skipCut kind s).gauge = s.gauge ∧ (skipCut kind
    s).gap = s.gap ∧ (skipCut kind s).store = s.store ∧ (skipCut kind s).trip = s.trip ∧ (skipCut kind s).pins =
    s.pins ∧ (skipCut kind s).freeIndex = s.freeIndex ∧ (skipCut kind s).pending = s.pending := by
  unfold skipCut
  split <;> simp

@[simp] theorem loadGenerator_keeps : (loadGenerator s).clock = s.clock ∧ (loadGenerator s).resetLow = s.resetLow ∧
    (loadGenerator s).etripPin = s.etripPin ∧ (loadGenerator s).level = s.level ∧ (loadGenerator s).attention =
    s.attention ∧ (loadGenerator s).mask = s.mask ∧ (loadGenerator s).exm = s.exm ∧ (loadGenerator s).configResult =
    s.configResult ∧ (loadGenerator s).cycleClock = s.cycleClock ∧ (loadGenerator s).images = s.images ∧
    (loadGenerator s).tripArea = s.tripArea ∧ (loadGenerator s).summary = s.summary ∧ (loadGenerator s).journal =
    s.journal ∧ (loadGenerator s).line = s.line ∧ (loadGenerator s).orders = s.orders ∧ (loadGenerator s).link =
    s.link ∧ (loadGenerator s).est = s.est ∧ (loadGenerator s).gauge = s.gauge ∧ (loadGenerator s).gap = s.gap ∧
    (loadGenerator s).store = s.store ∧ (loadGenerator s).trip = s.trip ∧ (loadGenerator s).pins = s.pins ∧
    (loadGenerator s).freeIndex = s.freeIndex ∧ (loadGenerator s).pending = s.pending := by
  refine ⟨rfl, rfl, rfl, rfl, rfl, rfl, rfl, rfl, rfl, rfl, rfl, rfl, rfl, rfl, rfl, rfl, rfl, rfl, rfl, rfl, rfl, rfl, rfl, rfl⟩

@[simp] theorem stopGenerator_keeps : (stopGenerator s).clock = s.clock ∧ (stopGenerator s).resetLow = s.resetLow ∧
    (stopGenerator s).etripPin = s.etripPin ∧ (stopGenerator s).level = s.level ∧ (stopGenerator s).attention =
    s.attention ∧ (stopGenerator s).mask = s.mask ∧ (stopGenerator s).exm = s.exm ∧ (stopGenerator s).configResult =
    s.configResult ∧ (stopGenerator s).cycleClock = s.cycleClock ∧ (stopGenerator s).images = s.images ∧
    (stopGenerator s).tripArea = s.tripArea ∧ (stopGenerator s).summary = s.summary ∧ (stopGenerator s).journal =
    s.journal ∧ (stopGenerator s).line = s.line ∧ (stopGenerator s).orders = s.orders ∧ (stopGenerator s).link =
    s.link ∧ (stopGenerator s).est = s.est ∧ (stopGenerator s).gauge = s.gauge ∧ (stopGenerator s).gap = s.gap ∧
    (stopGenerator s).store = s.store ∧ (stopGenerator s).trip = s.trip ∧ (stopGenerator s).pins = s.pins ∧
    (stopGenerator s).freeIndex = s.freeIndex ∧ (stopGenerator s).pending = s.pending := by
  refine ⟨rfl, rfl, rfl, rfl, rfl, rfl, rfl, rfl, rfl, rfl, rfl, rfl, rfl, rfl, rfl, rfl, rfl, rfl, rfl, rfl, rfl, rfl, rfl, rfl⟩

@[simp] theorem passMark_keeps (k : Nat) (m : Mark) (q : List Mark) : (passMark k m q s).clock = s.clock ∧ (passMark k
    m q s).resetLow = s.resetLow ∧ (passMark k m q s).etripPin = s.etripPin ∧ (passMark k m q s).level = s.level ∧
    (passMark k m q s).attention = s.attention ∧ (passMark k m q s).mask = s.mask ∧ (passMark k m q s).exm = s.exm ∧
    (passMark k m q s).configResult = s.configResult ∧ (passMark k m q s).cycleClock = s.cycleClock ∧ (passMark k m q
    s).images = s.images ∧ (passMark k m q s).tripArea = s.tripArea ∧ (passMark k m q s).summary = s.summary ∧
    (passMark k m q s).journal = s.journal ∧ (passMark k m q s).line = s.line ∧ (passMark k m q s).orders = s.orders ∧
    (passMark k m q s).link = s.link ∧ (passMark k m q s).est = s.est ∧ (passMark k m q s).gauge = s.gauge ∧ (passMark
    k m q s).store = s.store ∧ (passMark k m q s).trip = s.trip ∧ (passMark k m q s).pins = s.pins ∧ (passMark k m q
    s).freeIndex = s.freeIndex ∧ (passMark k m q s).pending = s.pending := by
  unfold passMark
  split <;> simp

@[simp] theorem holdMark_keeps (k : Nat) (m : Mark) (q : List Mark) (x : Nat) : (holdMark k m q x s).clock = s.clock ∧
    (holdMark k m q x s).resetLow = s.resetLow ∧ (holdMark k m q x s).etripPin = s.etripPin ∧ (holdMark k m q x
    s).level = s.level ∧ (holdMark k m q x s).mask = s.mask ∧ (holdMark k m q x s).exm = s.exm ∧ (holdMark k m q x
    s).configResult = s.configResult ∧ (holdMark k m q x s).cycleClock = s.cycleClock ∧ (holdMark k m q x s).images =
    s.images ∧ (holdMark k m q x s).tripArea = s.tripArea ∧ (holdMark k m q x s).summary = s.summary ∧ (holdMark k m q
    x s).line = s.line ∧ (holdMark k m q x s).orders = s.orders ∧ (holdMark k m q x s).link = s.link ∧ (holdMark k m q
    x s).est = s.est ∧ (holdMark k m q x s).gauge = s.gauge ∧ (holdMark k m q x s).gap = s.gap ∧ (holdMark k m q x
    s).store = s.store ∧ (holdMark k m q x s).trip = s.trip ∧ (holdMark k m q x s).pins = s.pins ∧ (holdMark k m q x
    s).freeIndex = s.freeIndex ∧ (holdMark k m q x s).pending = s.pending := by
  unfold holdMark
  dsimp only
  (repeat' split) <;> simp

@[simp] theorem pairMark_keeps (m : Mark) : (pairMark m s).clock = s.clock ∧ (pairMark m s).resetLow = s.resetLow ∧
    (pairMark m s).etripPin = s.etripPin ∧ (pairMark m s).level = s.level ∧ (pairMark m s).mask = s.mask ∧ (pairMark m
    s).exm = s.exm ∧ (pairMark m s).configResult = s.configResult ∧ (pairMark m s).cycleClock = s.cycleClock ∧
    (pairMark m s).images = s.images ∧ (pairMark m s).tripArea = s.tripArea ∧ (pairMark m s).summary = s.summary ∧
    (pairMark m s).line = s.line ∧ (pairMark m s).orders = s.orders ∧ (pairMark m s).link = s.link ∧ (pairMark m
    s).tracker = s.tracker ∧ (pairMark m s).est = s.est ∧ (pairMark m s).store = s.store ∧ (pairMark m s).trip =
    s.trip ∧ (pairMark m s).pins = s.pins ∧ (pairMark m s).freeIndex = s.freeIndex ∧ (pairMark m s).pending =
    s.pending := by
  unfold pairMark
  dsimp only
  (repeat' split) <;> simp

@[simp] theorem departMark_keeps (k : Nat) (m : Mark) (q : List Mark) : (departMark k m q s).clock = s.clock ∧
    (departMark k m q s).resetLow = s.resetLow ∧ (departMark k m q s).etripPin = s.etripPin ∧ (departMark k m q
    s).level = s.level ∧ (departMark k m q s).mask = s.mask ∧ (departMark k m q s).exm = s.exm ∧ (departMark k m q
    s).configResult = s.configResult ∧ (departMark k m q s).cycleClock = s.cycleClock ∧ (departMark k m q s).images =
    s.images ∧ (departMark k m q s).tripArea = s.tripArea ∧ (departMark k m q s).summary = s.summary ∧ (departMark k m
    q s).line = s.line ∧ (departMark k m q s).orders = s.orders ∧ (departMark k m q s).link = s.link ∧ (departMark k m
    q s).est = s.est ∧ (departMark k m q s).trip = s.trip ∧ (departMark k m q s).pins = s.pins ∧ (departMark k m q
    s).freeIndex = s.freeIndex ∧ (departMark k m q s).pending = s.pending := by
  unfold departMark
  simp

@[simp] theorem summaryAfter_keeps (b : State) : (summaryAfter b s).clock = s.clock ∧ (summaryAfter b s).resetLow =
    s.resetLow ∧ (summaryAfter b s).etripPin = s.etripPin ∧ (summaryAfter b s).level = s.level ∧ (summaryAfter b
    s).attention = s.attention ∧ (summaryAfter b s).mask = s.mask ∧ (summaryAfter b s).exm = s.exm ∧ (summaryAfter b
    s).configResult = s.configResult ∧ (summaryAfter b s).cycleClock = s.cycleClock ∧ (summaryAfter b s).images =
    s.images ∧ (summaryAfter b s).tripArea = s.tripArea ∧ (summaryAfter b s).journal = s.journal ∧ (summaryAfter b
    s).line = s.line ∧ (summaryAfter b s).orders = s.orders ∧ (summaryAfter b s).link = s.link ∧ (summaryAfter b
    s).tracker = s.tracker ∧ (summaryAfter b s).est = s.est ∧ (summaryAfter b s).gauge = s.gauge ∧ (summaryAfter b
    s).gap = s.gap ∧ (summaryAfter b s).store = s.store ∧ (summaryAfter b s).trip = s.trip ∧ (summaryAfter b s).pins =
    s.pins ∧ (summaryAfter b s).freeIndex = s.freeIndex ∧ (summaryAfter b s).pending = s.pending := by
  unfold summaryAfter
  split <;> simp

@[simp] theorem takeReleaseNotice_keeps (k : Nat) : (takeReleaseNotice k s).clock = s.clock ∧ (takeReleaseNotice k
    s).resetLow = s.resetLow ∧ (takeReleaseNotice k s).etripPin = s.etripPin ∧ (takeReleaseNotice k s).level = s.level
    ∧ (takeReleaseNotice k s).attention = s.attention ∧ (takeReleaseNotice k s).mask = s.mask ∧ (takeReleaseNotice k
    s).exm = s.exm ∧ (takeReleaseNotice k s).configResult = s.configResult ∧ (takeReleaseNotice k s).cycleClock =
    s.cycleClock ∧ (takeReleaseNotice k s).images = s.images ∧ (takeReleaseNotice k s).tripArea = s.tripArea ∧
    (takeReleaseNotice k s).summary = s.summary ∧ (takeReleaseNotice k s).journal = s.journal ∧ (takeReleaseNotice k
    s).line = s.line ∧ (takeReleaseNotice k s).orders = s.orders ∧ (takeReleaseNotice k s).link = s.link ∧
    (takeReleaseNotice k s).est = s.est ∧ (takeReleaseNotice k s).gauge = s.gauge ∧ (takeReleaseNotice k s).gap =
    s.gap ∧ (takeReleaseNotice k s).store = s.store ∧ (takeReleaseNotice k s).trip = s.trip ∧ (takeReleaseNotice k
    s).pins = s.pins ∧ (takeReleaseNotice k s).freeIndex = s.freeIndex ∧ (takeReleaseNotice k s).pending = s.pending
    := by
  unfold takeReleaseNotice
  dsimp only
  split <;> simp

@[simp] theorem takeHeadNotice_keeps (k : Nat) : (takeHeadNotice k s).clock = s.clock ∧ (takeHeadNotice k s).resetLow
    = s.resetLow ∧ (takeHeadNotice k s).etripPin = s.etripPin ∧ (takeHeadNotice k s).level = s.level ∧ (takeHeadNotice
    k s).attention = s.attention ∧ (takeHeadNotice k s).mask = s.mask ∧ (takeHeadNotice k s).exm = s.exm ∧
    (takeHeadNotice k s).configResult = s.configResult ∧ (takeHeadNotice k s).cycleClock = s.cycleClock ∧
    (takeHeadNotice k s).images = s.images ∧ (takeHeadNotice k s).tripArea = s.tripArea ∧ (takeHeadNotice k s).summary
    = s.summary ∧ (takeHeadNotice k s).journal = s.journal ∧ (takeHeadNotice k s).line = s.line ∧ (takeHeadNotice k
    s).orders = s.orders ∧ (takeHeadNotice k s).link = s.link ∧ (takeHeadNotice k s).est = s.est ∧ (takeHeadNotice k
    s).gauge = s.gauge ∧ (takeHeadNotice k s).store = s.store ∧ (takeHeadNotice k s).trip = s.trip ∧ (takeHeadNotice k
    s).pins = s.pins ∧ (takeHeadNotice k s).freeIndex = s.freeIndex ∧ (takeHeadNotice k s).pending = s.pending := by
  unfold takeHeadNotice
  dsimp only
  (repeat' split) <;> simp

@[simp] theorem takeNotices_keeps (k : Nat) : (takeNotices k s).clock = s.clock ∧ (takeNotices k s).resetLow =
    s.resetLow ∧ (takeNotices k s).etripPin = s.etripPin ∧ (takeNotices k s).level = s.level ∧ (takeNotices k
    s).attention = s.attention ∧ (takeNotices k s).mask = s.mask ∧ (takeNotices k s).exm = s.exm ∧ (takeNotices k
    s).configResult = s.configResult ∧ (takeNotices k s).cycleClock = s.cycleClock ∧ (takeNotices k s).images =
    s.images ∧ (takeNotices k s).tripArea = s.tripArea ∧ (takeNotices k s).summary = s.summary ∧ (takeNotices k
    s).journal = s.journal ∧ (takeNotices k s).line = s.line ∧ (takeNotices k s).orders = s.orders ∧ (takeNotices k
    s).link = s.link ∧ (takeNotices k s).est = s.est ∧ (takeNotices k s).gauge = s.gauge ∧ (takeNotices k s).store =
    s.store ∧ (takeNotices k s).trip = s.trip ∧ (takeNotices k s).pins = s.pins ∧ (takeNotices k s).freeIndex =
    s.freeIndex ∧ (takeNotices k s).pending = s.pending := by
  unfold takeNotices
  simp

@[simp] theorem updateRuns_keeps (k f : Nat) : (updateRuns k f s).clock = s.clock ∧ (updateRuns k f s).resetLow =
    s.resetLow ∧ (updateRuns k f s).etripPin = s.etripPin ∧ (updateRuns k f s).level = s.level ∧ (updateRuns k f
    s).attention = s.attention ∧ (updateRuns k f s).mask = s.mask ∧ (updateRuns k f s).exm = s.exm ∧ (updateRuns k f
    s).configResult = s.configResult ∧ (updateRuns k f s).cycleClock = s.cycleClock ∧ (updateRuns k f s).images =
    s.images ∧ (updateRuns k f s).tripArea = s.tripArea ∧ (updateRuns k f s).summary = s.summary ∧ (updateRuns k f
    s).journal = s.journal ∧ (updateRuns k f s).line = s.line ∧ (updateRuns k f s).orders = s.orders ∧ (updateRuns k f
    s).link = s.link ∧ (updateRuns k f s).est = s.est ∧ (updateRuns k f s).gauge = s.gauge ∧ (updateRuns k f s).gap =
    s.gap ∧ (updateRuns k f s).store = s.store ∧ (updateRuns k f s).trip = s.trip ∧ (updateRuns k f s).pins = s.pins ∧
    (updateRuns k f s).freeIndex = s.freeIndex ∧ (updateRuns k f s).pending = s.pending := by
  refine ⟨rfl, rfl, rfl, rfl, rfl, rfl, rfl, rfl, rfl, rfl, rfl, rfl, rfl, rfl, rfl, rfl, rfl, rfl, rfl, rfl, rfl, rfl, rfl, rfl⟩

@[simp] theorem noticesAndRuns_keeps (k f : Nat) : (noticesAndRuns k f s).clock = s.clock ∧ (noticesAndRuns k f
    s).resetLow = s.resetLow ∧ (noticesAndRuns k f s).etripPin = s.etripPin ∧ (noticesAndRuns k f s).level = s.level ∧
    (noticesAndRuns k f s).attention = s.attention ∧ (noticesAndRuns k f s).mask = s.mask ∧ (noticesAndRuns k f s).exm
    = s.exm ∧ (noticesAndRuns k f s).configResult = s.configResult ∧ (noticesAndRuns k f s).cycleClock = s.cycleClock
    ∧ (noticesAndRuns k f s).images = s.images ∧ (noticesAndRuns k f s).tripArea = s.tripArea ∧ (noticesAndRuns k f
    s).summary = s.summary ∧ (noticesAndRuns k f s).journal = s.journal ∧ (noticesAndRuns k f s).line = s.line ∧
    (noticesAndRuns k f s).orders = s.orders ∧ (noticesAndRuns k f s).link = s.link ∧ (noticesAndRuns k f s).est =
    s.est ∧ (noticesAndRuns k f s).gauge = s.gauge ∧ (noticesAndRuns k f s).store = s.store ∧ (noticesAndRuns k f
    s).trip = s.trip ∧ (noticesAndRuns k f s).pins = s.pins ∧ (noticesAndRuns k f s).freeIndex = s.freeIndex ∧
    (noticesAndRuns k f s).pending = s.pending := by
  unfold noticesAndRuns
  simp

@[simp] theorem clearRuns_keeps (k : Nat) : (clearRuns k s).clock = s.clock ∧ (clearRuns k s).resetLow = s.resetLow ∧
    (clearRuns k s).etripPin = s.etripPin ∧ (clearRuns k s).level = s.level ∧ (clearRuns k s).attention = s.attention
    ∧ (clearRuns k s).mask = s.mask ∧ (clearRuns k s).exm = s.exm ∧ (clearRuns k s).configResult = s.configResult ∧
    (clearRuns k s).cycleClock = s.cycleClock ∧ (clearRuns k s).images = s.images ∧ (clearRuns k s).tripArea =
    s.tripArea ∧ (clearRuns k s).summary = s.summary ∧ (clearRuns k s).journal = s.journal ∧ (clearRuns k s).line =
    s.line ∧ (clearRuns k s).orders = s.orders ∧ (clearRuns k s).link = s.link ∧ (clearRuns k s).est = s.est ∧
    (clearRuns k s).gauge = s.gauge ∧ (clearRuns k s).gap = s.gap ∧ (clearRuns k s).store = s.store ∧ (clearRuns k
    s).trip = s.trip ∧ (clearRuns k s).pins = s.pins ∧ (clearRuns k s).freeIndex = s.freeIndex ∧ (clearRuns k
    s).pending = s.pending := by
  refine ⟨rfl, rfl, rfl, rfl, rfl, rfl, rfl, rfl, rfl, rfl, rfl, rfl, rfl, rfl, rfl, rfl, rfl, rfl, rfl, rfl, rfl, rfl, rfl, rfl⟩

@[simp] theorem startBiting_keeps (k : Nat) : (startBiting k s).clock = s.clock ∧ (startBiting k s).resetLow =
    s.resetLow ∧ (startBiting k s).etripPin = s.etripPin ∧ (startBiting k s).level = s.level ∧ (startBiting k
    s).attention = s.attention ∧ (startBiting k s).mask = s.mask ∧ (startBiting k s).exm = s.exm ∧ (startBiting k
    s).configResult = s.configResult ∧ (startBiting k s).cycleClock = s.cycleClock ∧ (startBiting k s).images =
    s.images ∧ (startBiting k s).tripArea = s.tripArea ∧ (startBiting k s).summary = s.summary ∧ (startBiting k
    s).journal = s.journal ∧ (startBiting k s).line = s.line ∧ (startBiting k s).orders = s.orders ∧ (startBiting k
    s).link = s.link ∧ (startBiting k s).est = s.est ∧ (startBiting k s).gauge = s.gauge ∧ (startBiting k s).gap =
    s.gap ∧ (startBiting k s).store = s.store ∧ (startBiting k s).trip = s.trip ∧ (startBiting k s).pins = s.pins ∧
    (startBiting k s).freeIndex = s.freeIndex ∧ (startBiting k s).pending = s.pending := by
  refine ⟨rfl, rfl, rfl, rfl, rfl, rfl, rfl, rfl, rfl, rfl, rfl, rfl, rfl, rfl, rfl, rfl, rfl, rfl, rfl, rfl, rfl, rfl, rfl, rfl⟩

@[simp] theorem forgetAnnouncement_keeps : (forgetAnnouncement s).clock = s.clock ∧ (forgetAnnouncement s).resetLow =
    s.resetLow ∧ (forgetAnnouncement s).etripPin = s.etripPin ∧ (forgetAnnouncement s).level = s.level ∧
    (forgetAnnouncement s).attention = s.attention ∧ (forgetAnnouncement s).mask = s.mask ∧ (forgetAnnouncement s).exm
    = s.exm ∧ (forgetAnnouncement s).configResult = s.configResult ∧ (forgetAnnouncement s).cycleClock = s.cycleClock
    ∧ (forgetAnnouncement s).images = s.images ∧ (forgetAnnouncement s).tripArea = s.tripArea ∧ (forgetAnnouncement
    s).summary = s.summary ∧ (forgetAnnouncement s).journal = s.journal ∧ (forgetAnnouncement s).line = s.line ∧
    (forgetAnnouncement s).orders = s.orders ∧ (forgetAnnouncement s).link = s.link ∧ (forgetAnnouncement s).est =
    s.est ∧ (forgetAnnouncement s).gauge = s.gauge ∧ (forgetAnnouncement s).gap = s.gap ∧ (forgetAnnouncement s).store
    = s.store ∧ (forgetAnnouncement s).trip = s.trip ∧ (forgetAnnouncement s).pins = s.pins ∧ (forgetAnnouncement
    s).freeIndex = s.freeIndex ∧ (forgetAnnouncement s).pending = s.pending := by
  unfold forgetAnnouncement
  split <;> simp

@[simp] theorem noteBite1_keeps (u : Bool) (id : Word) : (noteBite1 u id s).clock = s.clock ∧ (noteBite1 u id
    s).resetLow = s.resetLow ∧ (noteBite1 u id s).etripPin = s.etripPin ∧ (noteBite1 u id s).level = s.level ∧
    (noteBite1 u id s).mask = s.mask ∧ (noteBite1 u id s).exm = s.exm ∧ (noteBite1 u id s).configResult =
    s.configResult ∧ (noteBite1 u id s).cycleClock = s.cycleClock ∧ (noteBite1 u id s).images = s.images ∧ (noteBite1
    u id s).tripArea = s.tripArea ∧ (noteBite1 u id s).summary = s.summary ∧ (noteBite1 u id s).line = s.line ∧
    (noteBite1 u id s).orders = s.orders ∧ (noteBite1 u id s).link = s.link ∧ (noteBite1 u id s).tracker = s.tracker ∧
    (noteBite1 u id s).est = s.est ∧ (noteBite1 u id s).gauge = s.gauge ∧ (noteBite1 u id s).gap = s.gap ∧ (noteBite1
    u id s).store = s.store ∧ (noteBite1 u id s).trip = s.trip ∧ (noteBite1 u id s).pins = s.pins ∧ (noteBite1 u id
    s).freeIndex = s.freeIndex ∧ (noteBite1 u id s).pending = s.pending := by
  unfold noteBite1
  split <;> simp

@[simp] theorem noteCorrected_keeps (k : Nat) (m : Mark) : (noteCorrected k m s).clock = s.clock ∧ (noteCorrected k m
    s).resetLow = s.resetLow ∧ (noteCorrected k m s).etripPin = s.etripPin ∧ (noteCorrected k m s).level = s.level ∧
    (noteCorrected k m s).mask = s.mask ∧ (noteCorrected k m s).exm = s.exm ∧ (noteCorrected k m s).configResult =
    s.configResult ∧ (noteCorrected k m s).cycleClock = s.cycleClock ∧ (noteCorrected k m s).images = s.images ∧
    (noteCorrected k m s).tripArea = s.tripArea ∧ (noteCorrected k m s).summary = s.summary ∧ (noteCorrected k m
    s).line = s.line ∧ (noteCorrected k m s).orders = s.orders ∧ (noteCorrected k m s).link = s.link ∧ (noteCorrected
    k m s).tracker = s.tracker ∧ (noteCorrected k m s).est = s.est ∧ (noteCorrected k m s).gauge = s.gauge ∧
    (noteCorrected k m s).gap = s.gap ∧ (noteCorrected k m s).store = s.store ∧ (noteCorrected k m s).trip = s.trip ∧
    (noteCorrected k m s).pins = s.pins ∧ (noteCorrected k m s).freeIndex = s.freeIndex ∧ (noteCorrected k m
    s).pending = s.pending := by
  unfold noteCorrected
  split <;> simp

@[simp] theorem advanceLock_keeps (k : Nat) : (advanceLock k s).clock = s.clock ∧ (advanceLock k s).resetLow =
    s.resetLow ∧ (advanceLock k s).etripPin = s.etripPin ∧ (advanceLock k s).level = s.level ∧ (advanceLock k
    s).attention = s.attention ∧ (advanceLock k s).mask = s.mask ∧ (advanceLock k s).exm = s.exm ∧ (advanceLock k
    s).configResult = s.configResult ∧ (advanceLock k s).cycleClock = s.cycleClock ∧ (advanceLock k s).images =
    s.images ∧ (advanceLock k s).tripArea = s.tripArea ∧ (advanceLock k s).summary = s.summary ∧ (advanceLock k
    s).journal = s.journal ∧ (advanceLock k s).line = s.line ∧ (advanceLock k s).orders = s.orders ∧ (advanceLock k
    s).link = s.link ∧ (advanceLock k s).est = s.est ∧ (advanceLock k s).gauge = s.gauge ∧ (advanceLock k s).store =
    s.store ∧ (advanceLock k s).trip = s.trip ∧ (advanceLock k s).pins = s.pins ∧ (advanceLock k s).freeIndex =
    s.freeIndex ∧ (advanceLock k s).pending = s.pending := by
  unfold advanceLock
  dsimp only
  (repeat' split) <;> simp

@[simp] theorem stateAfterRelease_keeps (k : Nat) : (stateAfterRelease k s).clock = s.clock ∧ (stateAfterRelease k
    s).resetLow = s.resetLow ∧ (stateAfterRelease k s).etripPin = s.etripPin ∧ (stateAfterRelease k s).level = s.level
    ∧ (stateAfterRelease k s).attention = s.attention ∧ (stateAfterRelease k s).mask = s.mask ∧ (stateAfterRelease k
    s).exm = s.exm ∧ (stateAfterRelease k s).configResult = s.configResult ∧ (stateAfterRelease k s).cycleClock =
    s.cycleClock ∧ (stateAfterRelease k s).images = s.images ∧ (stateAfterRelease k s).tripArea = s.tripArea ∧
    (stateAfterRelease k s).summary = s.summary ∧ (stateAfterRelease k s).journal = s.journal ∧ (stateAfterRelease k
    s).line = s.line ∧ (stateAfterRelease k s).orders = s.orders ∧ (stateAfterRelease k s).link = s.link ∧
    (stateAfterRelease k s).est = s.est ∧ (stateAfterRelease k s).gauge = s.gauge ∧ (stateAfterRelease k s).gap =
    s.gap ∧ (stateAfterRelease k s).store = s.store ∧ (stateAfterRelease k s).trip = s.trip ∧ (stateAfterRelease k
    s).pins = s.pins ∧ (stateAfterRelease k s).freeIndex = s.freeIndex ∧ (stateAfterRelease k s).pending = s.pending
    := by
  unfold stateAfterRelease
  (repeat' split) <;> simp

@[simp] theorem notifyRelease_keeps (k : Nat) : (notifyRelease k s).clock = s.clock ∧ (notifyRelease k s).resetLow =
    s.resetLow ∧ (notifyRelease k s).etripPin = s.etripPin ∧ (notifyRelease k s).level = s.level ∧ (notifyRelease k
    s).attention = s.attention ∧ (notifyRelease k s).mask = s.mask ∧ (notifyRelease k s).exm = s.exm ∧ (notifyRelease
    k s).configResult = s.configResult ∧ (notifyRelease k s).cycleClock = s.cycleClock ∧ (notifyRelease k s).images =
    s.images ∧ (notifyRelease k s).tripArea = s.tripArea ∧ (notifyRelease k s).summary = s.summary ∧ (notifyRelease k
    s).journal = s.journal ∧ (notifyRelease k s).line = s.line ∧ (notifyRelease k s).orders = s.orders ∧
    (notifyRelease k s).link = s.link ∧ (notifyRelease k s).est = s.est ∧ (notifyRelease k s).gauge = s.gauge ∧
    (notifyRelease k s).gap = s.gap ∧ (notifyRelease k s).store = s.store ∧ (notifyRelease k s).trip = s.trip ∧
    (notifyRelease k s).pins = s.pins ∧ (notifyRelease k s).freeIndex = s.freeIndex ∧ (notifyRelease k s).pending =
    s.pending := by
  unfold notifyRelease
  split <;> simp

@[simp] theorem releaseWork_keeps (k : Nat) (coil id : Word) : (releaseWork k coil id s).clock = s.clock ∧
    (releaseWork k coil id s).resetLow = s.resetLow ∧ (releaseWork k coil id s).etripPin = s.etripPin ∧ (releaseWork k
    coil id s).level = s.level ∧ (releaseWork k coil id s).mask = s.mask ∧ (releaseWork k coil id s).exm = s.exm ∧
    (releaseWork k coil id s).configResult = s.configResult ∧ (releaseWork k coil id s).cycleClock = s.cycleClock ∧
    (releaseWork k coil id s).images = s.images ∧ (releaseWork k coil id s).tripArea = s.tripArea ∧ (releaseWork k
    coil id s).summary = s.summary ∧ (releaseWork k coil id s).line = s.line ∧ (releaseWork k coil id s).orders =
    s.orders ∧ (releaseWork k coil id s).link = s.link ∧ (releaseWork k coil id s).gauge = s.gauge ∧ (releaseWork k
    coil id s).trip = s.trip ∧ (releaseWork k coil id s).pins = s.pins ∧ (releaseWork k coil id s).freeIndex =
    s.freeIndex ∧ (releaseWork k coil id s).pending = s.pending := by
  unfold releaseWork
  simp

@[simp] theorem checkCoil_keeps (coil : Word) (h0 : Nat) (time : Clock) : (checkCoil coil h0 time s).clock = s.clock ∧
    (checkCoil coil h0 time s).resetLow = s.resetLow ∧ (checkCoil coil h0 time s).etripPin = s.etripPin ∧ (checkCoil
    coil h0 time s).level = s.level ∧ (checkCoil coil h0 time s).mask = s.mask ∧ (checkCoil coil h0 time s).exm =
    s.exm ∧ (checkCoil coil h0 time s).configResult = s.configResult ∧ (checkCoil coil h0 time s).cycleClock =
    s.cycleClock ∧ (checkCoil coil h0 time s).images = s.images ∧ (checkCoil coil h0 time s).tripArea = s.tripArea ∧
    (checkCoil coil h0 time s).summary = s.summary ∧ (checkCoil coil h0 time s).line = s.line ∧ (checkCoil coil h0
    time s).orders = s.orders ∧ (checkCoil coil h0 time s).link = s.link ∧ (checkCoil coil h0 time s).tracker =
    s.tracker ∧ (checkCoil coil h0 time s).est = s.est ∧ (checkCoil coil h0 time s).gauge = s.gauge ∧ (checkCoil coil
    h0 time s).gap = s.gap ∧ (checkCoil coil h0 time s).store = s.store ∧ (checkCoil coil h0 time s).trip = s.trip ∧
    (checkCoil coil h0 time s).pins = s.pins ∧ (checkCoil coil h0 time s).freeIndex = s.freeIndex ∧ (checkCoil coil h0
    time s).pending = s.pending := by
  unfold checkCoil
  split <;> simp

/-! ### The Stand Link Controller -/

@[simp] theorem prepareEntry_keeps (e : PollEntry) : (prepareEntry e s).clock = s.clock ∧ (prepareEntry e s).resetLow
    = s.resetLow ∧ (prepareEntry e s).etripPin = s.etripPin ∧ (prepareEntry e s).level = s.level ∧ (prepareEntry e
    s).mask = s.mask ∧ (prepareEntry e s).configResult = s.configResult ∧ (prepareEntry e s).cycleClock = s.cycleClock
    ∧ (prepareEntry e s).images = s.images ∧ (prepareEntry e s).tripArea = s.tripArea ∧ (prepareEntry e s).summary =
    s.summary ∧ (prepareEntry e s).journal = s.journal ∧ (prepareEntry e s).line = s.line ∧ (prepareEntry e s).link =
    s.link ∧ (prepareEntry e s).tracker = s.tracker ∧ (prepareEntry e s).est = s.est ∧ (prepareEntry e s).gauge =
    s.gauge ∧ (prepareEntry e s).store = s.store ∧ (prepareEntry e s).trip = s.trip ∧ (prepareEntry e s).pins = s.pins
    ∧ (prepareEntry e s).freeIndex = s.freeIndex ∧ (prepareEntry e s).pending = s.pending := by
  unfold prepareEntry
  split <;> simp

@[simp] theorem beginExchange_keeps (i : Nat) (late : Bool) : (beginExchange i late s).clock = s.clock ∧
    (beginExchange i late s).resetLow = s.resetLow ∧ (beginExchange i late s).etripPin = s.etripPin ∧ (beginExchange i
    late s).level = s.level ∧ (beginExchange i late s).mask = s.mask ∧ (beginExchange i late s).configResult =
    s.configResult ∧ (beginExchange i late s).cycleClock = s.cycleClock ∧ (beginExchange i late s).images = s.images ∧
    (beginExchange i late s).tripArea = s.tripArea ∧ (beginExchange i late s).summary = s.summary ∧ (beginExchange i
    late s).journal = s.journal ∧ (beginExchange i late s).line = s.line ∧ (beginExchange i late s).tracker =
    s.tracker ∧ (beginExchange i late s).est = s.est ∧ (beginExchange i late s).gauge = s.gauge ∧ (beginExchange i
    late s).store = s.store ∧ (beginExchange i late s).trip = s.trip ∧ (beginExchange i late s).pins = s.pins ∧
    (beginExchange i late s).freeIndex = s.freeIndex ∧ (beginExchange i late s).pending = s.pending := by
  unfold beginExchange
  split <;> simp

@[simp] theorem startCycle_keeps (late : Bool) : (startCycle late s).clock = s.clock ∧ (startCycle late s).resetLow =
    s.resetLow ∧ (startCycle late s).etripPin = s.etripPin ∧ (startCycle late s).level = s.level ∧ (startCycle late
    s).mask = s.mask ∧ (startCycle late s).configResult = s.configResult ∧ (startCycle late s).images = s.images ∧
    (startCycle late s).tripArea = s.tripArea ∧ (startCycle late s).summary = s.summary ∧ (startCycle late s).journal
    = s.journal ∧ (startCycle late s).line = s.line ∧ (startCycle late s).tracker = s.tracker ∧ (startCycle late
    s).est = s.est ∧ (startCycle late s).gauge = s.gauge ∧ (startCycle late s).store = s.store ∧ (startCycle late
    s).trip = s.trip ∧ (startCycle late s).pins = s.pins ∧ (startCycle late s).freeIndex = s.freeIndex ∧ (startCycle
    late s).pending = s.pending := by
  unfold startCycle
  simp

@[simp] theorem nextExchange_keeps : (nextExchange s).clock = s.clock ∧ (nextExchange s).resetLow = s.resetLow ∧
    (nextExchange s).etripPin = s.etripPin ∧ (nextExchange s).level = s.level ∧ (nextExchange s).mask = s.mask ∧
    (nextExchange s).configResult = s.configResult ∧ (nextExchange s).images = s.images ∧ (nextExchange s).tripArea =
    s.tripArea ∧ (nextExchange s).summary = s.summary ∧ (nextExchange s).journal = s.journal ∧ (nextExchange s).line =
    s.line ∧ (nextExchange s).tracker = s.tracker ∧ (nextExchange s).est = s.est ∧ (nextExchange s).gauge = s.gauge ∧
    (nextExchange s).store = s.store ∧ (nextExchange s).trip = s.trip ∧ (nextExchange s).pins = s.pins ∧ (nextExchange
    s).freeIndex = s.freeIndex ∧ (nextExchange s).pending = s.pending := by
  unfold nextExchange
  (repeat' split) <;> simp

@[simp] theorem nextExchangeAt_keeps (now : Clock) : (nextExchangeAt now s).clock = s.clock ∧ (nextExchangeAt now
    s).resetLow = s.resetLow ∧ (nextExchangeAt now s).etripPin = s.etripPin ∧ (nextExchangeAt now s).level = s.level ∧
    (nextExchangeAt now s).mask = s.mask ∧ (nextExchangeAt now s).configResult = s.configResult ∧ (nextExchangeAt now
    s).images = s.images ∧ (nextExchangeAt now s).tripArea = s.tripArea ∧ (nextExchangeAt now s).summary = s.summary ∧
    (nextExchangeAt now s).journal = s.journal ∧ (nextExchangeAt now s).line = s.line ∧ (nextExchangeAt now s).tracker
    = s.tracker ∧ (nextExchangeAt now s).est = s.est ∧ (nextExchangeAt now s).gauge = s.gauge ∧ (nextExchangeAt now
    s).store = s.store ∧ (nextExchangeAt now s).trip = s.trip ∧ (nextExchangeAt now s).pins = s.pins ∧ (nextExchangeAt
    now s).freeIndex = s.freeIndex ∧ (nextExchangeAt now s).pending = s.pending := by
  unfold nextExchangeAt
  simp

@[simp] theorem becomePresent_keeps (e : PollEntry) : (becomePresent e s).clock = s.clock ∧ (becomePresent e
    s).resetLow = s.resetLow ∧ (becomePresent e s).etripPin = s.etripPin ∧ (becomePresent e s).level = s.level ∧
    (becomePresent e s).mask = s.mask ∧ (becomePresent e s).exm = s.exm ∧ (becomePresent e s).configResult =
    s.configResult ∧ (becomePresent e s).cycleClock = s.cycleClock ∧ (becomePresent e s).images = s.images ∧
    (becomePresent e s).summary = s.summary ∧ (becomePresent e s).line = s.line ∧ (becomePresent e s).orders =
    s.orders ∧ (becomePresent e s).tracker = s.tracker ∧ (becomePresent e s).est = s.est ∧ (becomePresent e s).gap =
    s.gap ∧ (becomePresent e s).store = s.store ∧ (becomePresent e s).pins = s.pins ∧ (becomePresent e s).pending =
    s.pending := by
  unfold becomePresent
  dsimp only
  (repeat' split) <;> simp

@[simp] theorem becomeSilent_keeps (e : PollEntry) : (becomeSilent e s).clock = s.clock ∧ (becomeSilent e s).resetLow
    = s.resetLow ∧ (becomeSilent e s).etripPin = s.etripPin ∧ (becomeSilent e s).level = s.level ∧ (becomeSilent e
    s).mask = s.mask ∧ (becomeSilent e s).configResult = s.configResult ∧ (becomeSilent e s).cycleClock = s.cycleClock
    ∧ (becomeSilent e s).images = s.images ∧ (becomeSilent e s).summary = s.summary ∧ (becomeSilent e s).line = s.line
    ∧ (becomeSilent e s).tracker = s.tracker ∧ (becomeSilent e s).est = s.est ∧ (becomeSilent e s).store = s.store ∧
    (becomeSilent e s).pins = s.pins ∧ (becomeSilent e s).pending = s.pending := by
  unfold becomeSilent
  (repeat' split) <;> simp

@[simp] theorem missReply_keeps (e : PollEntry) (late : Bool) : (missReply e late s).clock = s.clock ∧ (missReply e
    late s).resetLow = s.resetLow ∧ (missReply e late s).etripPin = s.etripPin ∧ (missReply e late s).level = s.level
    ∧ (missReply e late s).mask = s.mask ∧ (missReply e late s).configResult = s.configResult ∧ (missReply e late
    s).cycleClock = s.cycleClock ∧ (missReply e late s).summary = s.summary ∧ (missReply e late s).line = s.line ∧
    (missReply e late s).tracker = s.tracker ∧ (missReply e late s).est = s.est ∧ (missReply e late s).store = s.store
    ∧ (missReply e late s).pins = s.pins ∧ (missReply e late s).pending = s.pending := by
  unfold missReply
  dsimp only
  (repeat' split) <;> simp

@[simp] theorem loopbackExchange_keeps (e : PollEntry) : (loopbackExchange s e).clock = s.clock ∧ (loopbackExchange s
    e).resetLow = s.resetLow ∧ (loopbackExchange s e).etripPin = s.etripPin ∧ (loopbackExchange s e).level = s.level ∧
    (loopbackExchange s e).mask = s.mask ∧ (loopbackExchange s e).configResult = s.configResult ∧ (loopbackExchange s
    e).cycleClock = s.cycleClock ∧ (loopbackExchange s e).summary = s.summary ∧ (loopbackExchange s e).line = s.line ∧
    (loopbackExchange s e).tracker = s.tracker ∧ (loopbackExchange s e).store = s.store ∧ (loopbackExchange s e).pins
    = s.pins ∧ (loopbackExchange s e).pending = s.pending := by
  unfold loopbackExchange
  dsimp only
  (repeat' split) <;> simp

@[simp] theorem loopbackCycle_keeps : (loopbackCycle s).clock = s.clock ∧ (loopbackCycle s).resetLow = s.resetLow ∧
    (loopbackCycle s).etripPin = s.etripPin ∧ (loopbackCycle s).level = s.level ∧ (loopbackCycle s).mask = s.mask ∧
    (loopbackCycle s).configResult = s.configResult ∧ (loopbackCycle s).summary = s.summary ∧ (loopbackCycle s).line =
    s.line ∧ (loopbackCycle s).tracker = s.tracker ∧ (loopbackCycle s).store = s.store ∧ (loopbackCycle s).pins =
    s.pins ∧ (loopbackCycle s).pending = s.pending := by
  unfold loopbackCycle
  refine ⟨?_, ?_, ?_, ?_, ?_, ?_, ?_, ?_, ?_, ?_, ?_, ?_⟩
  · exact (foldl_keeps (·.clock) (by simp) _ _)
  · exact (foldl_keeps (·.resetLow) (by simp) _ _)
  · exact (foldl_keeps (·.etripPin) (by simp) _ _)
  · exact (foldl_keeps (·.level) (by simp) _ _)
  · exact (foldl_keeps (·.mask) (by simp) _ _)
  · exact (foldl_keeps (·.configResult) (by simp) _ _)
  · exact (foldl_keeps (·.summary) (by simp) _ _)
  · exact (foldl_keeps (·.line) (by simp) _ _)
  · exact (foldl_keeps (·.tracker) (by simp) _ _)
  · exact (foldl_keeps (·.store) (by simp) _ _)
  · exact (foldl_keeps (·.pins) (by simp) _ _)
  · exact (foldl_keeps (·.pending) (by simp) _ _)

@[simp] theorem rearm_keeps : (rearm s).clock = s.clock ∧ (rearm s).resetLow = s.resetLow ∧ (rearm s).etripPin =
    s.etripPin ∧ (rearm s).level = s.level ∧ (rearm s).attention = s.attention ∧ (rearm s).mask = s.mask ∧ (rearm
    s).exm = s.exm ∧ (rearm s).configResult = s.configResult ∧ (rearm s).cycleClock = s.cycleClock ∧ (rearm s).images
    = s.images ∧ (rearm s).tripArea = s.tripArea ∧ (rearm s).summary = s.summary ∧ (rearm s).journal = s.journal ∧
    (rearm s).line = s.line ∧ (rearm s).orders = s.orders ∧ (rearm s).tracker = s.tracker ∧ (rearm s).est = s.est ∧
    (rearm s).gauge = s.gauge ∧ (rearm s).gap = s.gap ∧ (rearm s).store = s.store ∧ (rearm s).trip = s.trip ∧ (rearm
    s).pins = s.pins ∧ (rearm s).freeIndex = s.freeIndex ∧ (rearm s).pending = s.pending := by
  refine ⟨rfl, rfl, rfl, rfl, rfl, rfl, rfl, rfl, rfl, rfl, rfl, rfl, rfl, rfl, rfl, rfl, rfl, rfl, rfl, rfl, rfl, rfl, rfl, rfl⟩

/-! ### Trip reset and the run levels -/

@[simp] theorem clearTrip_keeps : (clearTrip s).clock = s.clock ∧ (clearTrip s).resetLow = s.resetLow ∧ (clearTrip
    s).etripPin = s.etripPin ∧ (clearTrip s).level = s.level ∧ (clearTrip s).attention = s.attention ∧ (clearTrip
    s).mask = s.mask ∧ (clearTrip s).exm = s.exm ∧ (clearTrip s).configResult = s.configResult ∧ (clearTrip
    s).cycleClock = s.cycleClock ∧ (clearTrip s).images = s.images ∧ (clearTrip s).tripArea = s.tripArea ∧ (clearTrip
    s).summary = s.summary ∧ (clearTrip s).journal = s.journal ∧ (clearTrip s).line = s.line ∧ (clearTrip s).orders =
    s.orders ∧ (clearTrip s).link = s.link ∧ (clearTrip s).tracker = s.tracker ∧ (clearTrip s).est = s.est ∧
    (clearTrip s).gauge = s.gauge ∧ (clearTrip s).gap = s.gap ∧ (clearTrip s).store = s.store ∧ (clearTrip s).pins =
    s.pins ∧ (clearTrip s).freeIndex = s.freeIndex ∧ (clearTrip s).pending = s.pending := by
  refine ⟨rfl, rfl, rfl, rfl, rfl, rfl, rfl, rfl, rfl, rfl, rfl, rfl, rfl, rfl, rfl, rfl, rfl, rfl, rfl, rfl, rfl, rfl, rfl, rfl⟩

@[simp] theorem noteReset_keeps (time : Clock) : (noteReset time s).clock = s.clock ∧ (noteReset time s).resetLow =
    s.resetLow ∧ (noteReset time s).etripPin = s.etripPin ∧ (noteReset time s).level = s.level ∧ (noteReset time
    s).mask = s.mask ∧ (noteReset time s).exm = s.exm ∧ (noteReset time s).configResult = s.configResult ∧ (noteReset
    time s).cycleClock = s.cycleClock ∧ (noteReset time s).images = s.images ∧ (noteReset time s).tripArea =
    s.tripArea ∧ (noteReset time s).summary = s.summary ∧ (noteReset time s).line = s.line ∧ (noteReset time s).orders
    = s.orders ∧ (noteReset time s).link = s.link ∧ (noteReset time s).tracker = s.tracker ∧ (noteReset time s).est =
    s.est ∧ (noteReset time s).gauge = s.gauge ∧ (noteReset time s).gap = s.gap ∧ (noteReset time s).store = s.store ∧
    (noteReset time s).trip = s.trip ∧ (noteReset time s).pins = s.pins ∧ (noteReset time s).freeIndex = s.freeIndex ∧
    (noteReset time s).pending = s.pending := by
  unfold noteReset
  simp

@[simp] theorem stopLink_keeps : (stopLink s).clock = s.clock ∧ (stopLink s).resetLow = s.resetLow ∧ (stopLink
    s).etripPin = s.etripPin ∧ (stopLink s).level = s.level ∧ (stopLink s).attention = s.attention ∧ (stopLink s).mask
    = s.mask ∧ (stopLink s).exm = s.exm ∧ (stopLink s).configResult = s.configResult ∧ (stopLink s).cycleClock =
    s.cycleClock ∧ (stopLink s).images = s.images ∧ (stopLink s).tripArea = s.tripArea ∧ (stopLink s).summary =
    s.summary ∧ (stopLink s).journal = s.journal ∧ (stopLink s).line = s.line ∧ (stopLink s).orders = s.orders ∧
    (stopLink s).tracker = s.tracker ∧ (stopLink s).est = s.est ∧ (stopLink s).gauge = s.gauge ∧ (stopLink s).gap =
    s.gap ∧ (stopLink s).store = s.store ∧ (stopLink s).trip = s.trip ∧ (stopLink s).pins = s.pins ∧ (stopLink
    s).freeIndex = s.freeIndex ∧ (stopLink s).pending = s.pending := by
  refine ⟨rfl, rfl, rfl, rfl, rfl, rfl, rfl, rfl, rfl, rfl, rfl, rfl, rfl, rfl, rfl, rfl, rfl, rfl, rfl, rfl, rfl, rfl, rfl, rfl⟩

@[simp] theorem levelDrop_keeps : (levelDrop s).clock = s.clock ∧ (levelDrop s).resetLow = s.resetLow ∧ (levelDrop
    s).etripPin = s.etripPin ∧ (levelDrop s).level = s.level ∧ (levelDrop s).mask = s.mask ∧ (levelDrop
    s).configResult = s.configResult ∧ (levelDrop s).cycleClock = s.cycleClock ∧ (levelDrop s).images = s.images ∧
    (levelDrop s).summary = s.summary ∧ (levelDrop s).line = s.line ∧ (levelDrop s).link = s.link ∧ (levelDrop
    s).tracker = s.tracker ∧ (levelDrop s).est = s.est ∧ (levelDrop s).gauge = s.gauge ∧ (levelDrop s).store = s.store
    ∧ (levelDrop s).pins = s.pins ∧ (levelDrop s).pending = s.pending := by
  unfold levelDrop
  split <;> simp

@[simp] theorem leaveRun_keeps (l : RunLevel) : (leaveRun l s).clock = s.clock ∧ (leaveRun l s).resetLow = s.resetLow
    ∧ (leaveRun l s).etripPin = s.etripPin ∧ (leaveRun l s).mask = s.mask ∧ (leaveRun l s).configResult =
    s.configResult ∧ (leaveRun l s).cycleClock = s.cycleClock ∧ (leaveRun l s).images = s.images ∧ (leaveRun l s).line
    = s.line ∧ (leaveRun l s).est = s.est ∧ (leaveRun l s).pins = s.pins ∧ (leaveRun l s).pending = s.pending := by
  unfold leaveRun
  simp

@[simp] theorem startLink_keeps (l : LineDesc) : (startLink s l).clock = s.clock ∧ (startLink s l).resetLow =
    s.resetLow ∧ (startLink s l).etripPin = s.etripPin ∧ (startLink s l).level = s.level ∧ (startLink s l).attention =
    s.attention ∧ (startLink s l).mask = s.mask ∧ (startLink s l).exm = s.exm ∧ (startLink s l).configResult =
    s.configResult ∧ (startLink s l).cycleClock = s.cycleClock ∧ (startLink s l).images = s.images ∧ (startLink s
    l).tripArea = s.tripArea ∧ (startLink s l).summary = s.summary ∧ (startLink s l).journal = s.journal ∧ (startLink
    s l).line = s.line ∧ (startLink s l).orders = s.orders ∧ (startLink s l).tracker = s.tracker ∧ (startLink s l).est
    = s.est ∧ (startLink s l).gauge = s.gauge ∧ (startLink s l).gap = s.gap ∧ (startLink s l).store = s.store ∧
    (startLink s l).trip = s.trip ∧ (startLink s l).pins = s.pins ∧ (startLink s l).freeIndex = s.freeIndex ∧
    (startLink s l).pending = s.pending := by
  refine ⟨rfl, rfl, rfl, rfl, rfl, rfl, rfl, rfl, rfl, rfl, rfl, rfl, rfl, rfl, rfl, rfl, rfl, rfl, rfl, rfl, rfl, rfl, rfl, rfl⟩

@[simp] theorem startNoLink_keeps : (startNoLink s).clock = s.clock ∧ (startNoLink s).resetLow = s.resetLow ∧
    (startNoLink s).etripPin = s.etripPin ∧ (startNoLink s).level = s.level ∧ (startNoLink s).attention = s.attention
    ∧ (startNoLink s).mask = s.mask ∧ (startNoLink s).exm = s.exm ∧ (startNoLink s).configResult = s.configResult ∧
    (startNoLink s).cycleClock = s.cycleClock ∧ (startNoLink s).images = s.images ∧ (startNoLink s).tripArea =
    s.tripArea ∧ (startNoLink s).summary = s.summary ∧ (startNoLink s).journal = s.journal ∧ (startNoLink s).line =
    s.line ∧ (startNoLink s).orders = s.orders ∧ (startNoLink s).tracker = s.tracker ∧ (startNoLink s).est = s.est ∧
    (startNoLink s).gauge = s.gauge ∧ (startNoLink s).gap = s.gap ∧ (startNoLink s).store = s.store ∧ (startNoLink
    s).trip = s.trip ∧ (startNoLink s).pins = s.pins ∧ (startNoLink s).freeIndex = s.freeIndex ∧ (startNoLink
    s).pending = s.pending := by
  refine ⟨rfl, rfl, rfl, rfl, rfl, rfl, rfl, rfl, rfl, rfl, rfl, rfl, rfl, rfl, rfl, rfl, rfl, rfl, rfl, rfl, rfl, rfl, rfl, rfl⟩

@[simp] theorem forgetBases_keeps : (forgetBases s).clock = s.clock ∧ (forgetBases s).resetLow = s.resetLow ∧
    (forgetBases s).etripPin = s.etripPin ∧ (forgetBases s).level = s.level ∧ (forgetBases s).attention = s.attention
    ∧ (forgetBases s).mask = s.mask ∧ (forgetBases s).exm = s.exm ∧ (forgetBases s).configResult = s.configResult ∧
    (forgetBases s).cycleClock = s.cycleClock ∧ (forgetBases s).images = s.images ∧ (forgetBases s).tripArea =
    s.tripArea ∧ (forgetBases s).summary = s.summary ∧ (forgetBases s).journal = s.journal ∧ (forgetBases s).line =
    s.line ∧ (forgetBases s).orders = s.orders ∧ (forgetBases s).link = s.link ∧ (forgetBases s).tracker = s.tracker ∧
    (forgetBases s).est = s.est ∧ (forgetBases s).gauge = s.gauge ∧ (forgetBases s).store = s.store ∧ (forgetBases
    s).trip = s.trip ∧ (forgetBases s).pins = s.pins ∧ (forgetBases s).freeIndex = s.freeIndex ∧ (forgetBases
    s).pending = s.pending := by
  refine ⟨rfl, rfl, rfl, rfl, rfl, rfl, rfl, rfl, rfl, rfl, rfl, rfl, rfl, rfl, rfl, rfl, rfl, rfl, rfl, rfl, rfl, rfl, rfl, rfl⟩

@[simp] theorem enterLoopback_keeps : (enterLoopback s).clock = s.clock ∧ (enterLoopback s).resetLow = s.resetLow ∧
    (enterLoopback s).etripPin = s.etripPin ∧ (enterLoopback s).mask = s.mask ∧ (enterLoopback s).configResult =
    s.configResult ∧ (enterLoopback s).summary = s.summary ∧ (enterLoopback s).line = s.line ∧ (enterLoopback
    s).tracker = s.tracker ∧ (enterLoopback s).store = s.store ∧ (enterLoopback s).pins = s.pins ∧ (enterLoopback
    s).pending = s.pending := by
  unfold enterLoopback
  dsimp only
  split <;> simp

@[simp] theorem gapRunEntry_keeps (n : Option Nat) : (gapRunEntry n s).clock = s.clock ∧ (gapRunEntry n s).resetLow =
    s.resetLow ∧ (gapRunEntry n s).etripPin = s.etripPin ∧ (gapRunEntry n s).level = s.level ∧ (gapRunEntry n
    s).attention = s.attention ∧ (gapRunEntry n s).mask = s.mask ∧ (gapRunEntry n s).exm = s.exm ∧ (gapRunEntry n
    s).configResult = s.configResult ∧ (gapRunEntry n s).cycleClock = s.cycleClock ∧ (gapRunEntry n s).images =
    s.images ∧ (gapRunEntry n s).tripArea = s.tripArea ∧ (gapRunEntry n s).summary = s.summary ∧ (gapRunEntry n
    s).journal = s.journal ∧ (gapRunEntry n s).line = s.line ∧ (gapRunEntry n s).orders = s.orders ∧ (gapRunEntry n
    s).link = s.link ∧ (gapRunEntry n s).tracker = s.tracker ∧ (gapRunEntry n s).est = s.est ∧ (gapRunEntry n s).gauge
    = s.gauge ∧ (gapRunEntry n s).store = s.store ∧ (gapRunEntry n s).trip = s.trip ∧ (gapRunEntry n s).pins = s.pins
    ∧ (gapRunEntry n s).freeIndex = s.freeIndex ∧ (gapRunEntry n s).pending = s.pending := by
  refine ⟨rfl, rfl, rfl, rfl, rfl, rfl, rfl, rfl, rfl, rfl, rfl, rfl, rfl, rfl, rfl, rfl, rfl, rfl, rfl, rfl, rfl, rfl, rfl, rfl⟩

@[simp] theorem tripRunEntry_keeps : (tripRunEntry s).clock = s.clock ∧ (tripRunEntry s).resetLow = s.resetLow ∧
    (tripRunEntry s).etripPin = s.etripPin ∧ (tripRunEntry s).level = s.level ∧ (tripRunEntry s).mask = s.mask ∧
    (tripRunEntry s).configResult = s.configResult ∧ (tripRunEntry s).cycleClock = s.cycleClock ∧ (tripRunEntry
    s).images = s.images ∧ (tripRunEntry s).summary = s.summary ∧ (tripRunEntry s).line = s.line ∧ (tripRunEntry
    s).link = s.link ∧ (tripRunEntry s).tracker = s.tracker ∧ (tripRunEntry s).est = s.est ∧ (tripRunEntry s).gauge =
    s.gauge ∧ (tripRunEntry s).store = s.store ∧ (tripRunEntry s).pins = s.pins ∧ (tripRunEntry s).pending = s.pending
    := by
  unfold tripRunEntry
  dsimp only
  split <;> simp

@[simp] theorem dropImages_keeps : (dropImages s).clock = s.clock ∧ (dropImages s).resetLow = s.resetLow ∧ (dropImages
    s).etripPin = s.etripPin ∧ (dropImages s).level = s.level ∧ (dropImages s).attention = s.attention ∧ (dropImages
    s).mask = s.mask ∧ (dropImages s).exm = s.exm ∧ (dropImages s).configResult = s.configResult ∧ (dropImages
    s).cycleClock = s.cycleClock ∧ (dropImages s).tripArea = s.tripArea ∧ (dropImages s).summary = s.summary ∧
    (dropImages s).journal = s.journal ∧ (dropImages s).line = s.line ∧ (dropImages s).orders = s.orders ∧ (dropImages
    s).link = s.link ∧ (dropImages s).tracker = s.tracker ∧ (dropImages s).est = s.est ∧ (dropImages s).gauge =
    s.gauge ∧ (dropImages s).gap = s.gap ∧ (dropImages s).store = s.store ∧ (dropImages s).trip = s.trip ∧ (dropImages
    s).pins = s.pins ∧ (dropImages s).freeIndex = s.freeIndex ∧ (dropImages s).pending = s.pending := by
  refine ⟨rfl, rfl, rfl, rfl, rfl, rfl, rfl, rfl, rfl, rfl, rfl, rfl, rfl, rfl, rfl, rfl, rfl, rfl, rfl, rfl, rfl, rfl, rfl, rfl⟩

@[simp] theorem linkRunEntry_keeps : (linkRunEntry s).clock = s.clock ∧ (linkRunEntry s).resetLow = s.resetLow ∧
    (linkRunEntry s).etripPin = s.etripPin ∧ (linkRunEntry s).level = s.level ∧ (linkRunEntry s).mask = s.mask ∧
    (linkRunEntry s).configResult = s.configResult ∧ (linkRunEntry s).images = s.images ∧ (linkRunEntry s).tripArea =
    s.tripArea ∧ (linkRunEntry s).summary = s.summary ∧ (linkRunEntry s).journal = s.journal ∧ (linkRunEntry s).line =
    s.line ∧ (linkRunEntry s).tracker = s.tracker ∧ (linkRunEntry s).est = s.est ∧ (linkRunEntry s).gauge = s.gauge ∧
    (linkRunEntry s).store = s.store ∧ (linkRunEntry s).trip = s.trip ∧ (linkRunEntry s).pins = s.pins ∧ (linkRunEntry
    s).freeIndex = s.freeIndex ∧ (linkRunEntry s).pending = s.pending := by
  unfold linkRunEntry
  simp

@[simp] theorem leaveLoopback_keeps : (leaveLoopback s).clock = s.clock ∧ (leaveLoopback s).resetLow = s.resetLow ∧
    (leaveLoopback s).etripPin = s.etripPin ∧ (leaveLoopback s).level = s.level ∧ (leaveLoopback s).mask = s.mask ∧
    (leaveLoopback s).configResult = s.configResult ∧ (leaveLoopback s).cycleClock = s.cycleClock ∧ (leaveLoopback
    s).images = s.images ∧ (leaveLoopback s).tripArea = s.tripArea ∧ (leaveLoopback s).summary = s.summary ∧
    (leaveLoopback s).journal = s.journal ∧ (leaveLoopback s).line = s.line ∧ (leaveLoopback s).tracker = s.tracker ∧
    (leaveLoopback s).est = s.est ∧ (leaveLoopback s).gauge = s.gauge ∧ (leaveLoopback s).store = s.store ∧
    (leaveLoopback s).trip = s.trip ∧ (leaveLoopback s).pins = s.pins ∧ (leaveLoopback s).freeIndex = s.freeIndex ∧
    (leaveLoopback s).pending = s.pending := by
  unfold leaveLoopback
  split <;> simp

@[simp] theorem takeLine_keeps (l : LineDesc) : (takeLine l s).clock = s.clock ∧ (takeLine l s).resetLow = s.resetLow
    ∧ (takeLine l s).etripPin = s.etripPin ∧ (takeLine l s).mask = s.mask ∧ (takeLine l s).cycleClock = s.cycleClock ∧
    (takeLine l s).images = s.images ∧ (takeLine l s).tripArea = s.tripArea ∧ (takeLine l s).summary = s.summary ∧
    (takeLine l s).link = s.link ∧ (takeLine l s).tracker = s.tracker ∧ (takeLine l s).est = s.est ∧ (takeLine l
    s).gauge = s.gauge ∧ (takeLine l s).gap = s.gap ∧ (takeLine l s).store = s.store ∧ (takeLine l s).trip = s.trip ∧
    (takeLine l s).pins = s.pins ∧ (takeLine l s).freeIndex = s.freeIndex ∧ (takeLine l s).pending = s.pending := by
  unfold takeLine
  split <;> simp

end Sys2Proof.Machine
end

