-- ==== Sys2Proof/Laws/Command.lean ====
section
/-! SUPPORT. What a command can do, said once: the commands that set a register or a pin directly, by their next state;
all the others, as a sequence of the elementary changes of `Evolves` after the time has passed. -/

namespace Sys2Proof.Machine

/-- The commands that set registers and pins directly; every other command is work of the blocks. -/
def setsDirectly : Instr → Bool
  | .powerOn _ => true
  | .runLevelHalt _ => true
  | .resetAsserted _ => true
  | .etripChange .. => true
  | .attentionWrite .. => true
  | .attentionMaskWrite .. => true
  | _ => false

/-- The rarer changes a command may make in the state `s`. A change of level completes the order that stands taken,
which may be a RESET_TRIP. -/
def permitOf (i : Instr) (s : State) : Permit :=
  { level := i.requestsLevel, line := i.requestsRun, entry := i.requestsRun,
    reset := (match i with | .resetTrip _ => true | _ => false)
      || (i.requestsLevel && (s.orders.copy.map OrderCopy.order == some .resetTrip)),
    port := i.writesJournalRead s, track := !i.requestsLevel && s.level == .run }

/-- The command's work has been done, and the pins have followed it. -/
def Done (p : Permit) (s u : State) : Prop := ∃ t, Evolves p s t ∧ u = { t with pins := pinsOf t }

theorem finish_next {t u : State} (h : finish t = .next u) : u = { t with pins := pinsOf t } := by
  unfold finish at h
  exact (Host.Outcome.next.inj h).symm

theorem finish_done {p : Permit} {s t u : State} (h : finish t = .next u) (he : Evolves p s t) : Done p s u :=
  ⟨t, he, finish_next h⟩

theorem active_run {s : State} (h : trackerActive s = true) : s.level = .run := by
  unfold trackerActive at h
  simp only [Bool.and_eq_true, beq_iff_eq] at h
  exact h.1

theorem threading_run {s : State} {k : Nat} (h : threadingActive s k = true) : s.level = .run := by
  unfold threadingActive at h
  simp only [Bool.and_eq_true] at h
  exact active_run h.1

theorem open_run {s : State} {x : Cycle × PollEntry} (h : openExchange s = some x) : s.level = .run := by
  unfold openExchange at h
  split at h
  · assumption
  · cases h

/-- Every command that is work of the blocks does it by elementary changes, after its time has passed. -/
theorem exec_done (i : Instr) (s u : State) (hi : setsDirectly i = false) (h : exec i s = .next u) :
    Done (permitOf i s) (s.tick i.elapsed) u := by
  have r : Evolves (permitOf i s) (s.tick i.elapsed) (s.tick i.elapsed) := .refl
  have hw : i.requestsLevel = false → i.writesJournalRead s = false → Evolves.Working (permitOf i s) (s.tick i.elapsed) := by
    intro hl hq
    refine ⟨hl, hq, fun hr => ?_⟩
    have hr' : s.level = .run := hr
    simp [permitOf, hl, hr']
  have hreset : i.requestsLevel = true → s.orders.copy.map OrderCopy.order = some .resetTrip →
      (permitOf i s).reset = true := by
    intro hl hc
    show (_ || (i.requestsLevel && (s.orders.copy.map OrderCopy.order == some .resetTrip))) = true
    rw [hl, hc]
    exact Bool.or_true _
  have ht : i.requestsLevel = false → s.level = .run → (permitOf i s).track = true := by
    intro hl hr
    simp [permitOf, hl, hr]
  cases i with
  | powerOn _ => cases hi
  | runLevelHalt _ => cases hi
  | resetAsserted _ => cases hi
  | etripChange _ _ => cases hi
  | attentionWrite _ _ => cases hi
  | attentionMaskWrite _ _ => cases hi
  | runLevelConfigure dt => exact finish_done h (r.requestConfigure rfl fun hc => hreset rfl hc)
  | runLevelLoopback dt => exact finish_done h (r.requestLoopback rfl fun hc => hreset rfl hc)
  | runLevelRun dt => exact finish_done h (r.requestRun rfl rfl rfl fun hc => hreset rfl hc)
  | registerWriteIgnored dt a v => exact finish_done h r
  | exmWrite dt a v =>
    exact finish_done h (r.portWrite fun ha => by simp [permitOf, Instr.writesJournalRead, ha])
  | watchedWordArrival dt v =>
    simp only [exec, execWatchedWordArrival] at h
    split at h
    · have hs : s.orders.watched = _ := ‹_›
      exact finish_done h (r.portWrite fun ha => by simp [permitOf, Instr.writesJournalRead, hs, ha])
    · exact finish_done h r
  | journalReadWrite dt v => exact finish_done h (r.portWrite fun _ => rfl)
  | announceHead dt =>
    simp only [exec, execAnnounceHead] at h
    split at h
    · exact finish_done h r.announceHeadWork.freeToTake
    · exact finish_done h r
  | setModulus dt =>
    simp only [exec, execSetModulus] at h
    split at h
    · exact finish_done h r.setModulusWork.freeToTake
    · exact finish_done h r
  | setTrim dt =>
    simp only [exec, execSetTrim] at h
    split at h
    · exact finish_done h r.setTrimWork.freeToTake
    · exact finish_done h r
  | loadSchedule dt =>
    simp only [exec, execLoadSchedule] at h
    split at h
    · exact finish_done h r.loadScheduleWork.freeToTake
    · exact finish_done h r
  | unloadSchedule dt =>
    simp only [exec, execUnloadSchedule] at h
    split at h
    · exact finish_done h r.unloadScheduleWork.freeToTake
    · exact finish_done h r
  | presetGap dt =>
    simp only [exec, execPresetGap] at h
    split at h
    · exact finish_done h r.presetGapWork.freeToTake
    · exact finish_done h r
  | calibrateZero dt =>
    simp only [exec, execCalibrateZero] at h
    split at h
    · exact finish_done h r.calibrateZeroWork.freeToTake
    · exact finish_done h r
  | abortMove dt =>
    simp only [exec, execAbortMove] at h
    split at h
    · exact finish_done h r.abortMoveWork.freeToTake
    · exact finish_done h r
  | tripStands dt =>
    simp only [exec, execTripStands] at h
    split at h
    · exact finish_done h r.tripStandsWork.freeToTake
    · exact finish_done h r
  | resetTrip dt =>
    simp only [exec, execResetTrip] at h
    split at h
    · exact finish_done h (r.resetTripWork rfl).freeToTake
    · exact finish_done h r
  | pollTimerExpiry dt =>
    simp only [exec, execPollTimerExpiry] at h
    split at h
    · exact finish_done h r.timerExpiry
    · exact finish_done h r
  | pollSent dt =>
    simp only [exec, execPollSent] at h
    split at h
    · split at h
      · exact finish_done h r.withCycle
      · exact finish_done h r
    · exact finish_done h r
  | replyStart dt =>
    simp only [exec, execReplyStart] at h
    split at h
    · split at h
      · exact finish_done h r.withCycle
      · exact finish_done h r
    · exact finish_done h r
  | replyWindowClose dt b =>
    simp only [exec, execReplyWindowClose] at h
    split at h
    · split at h
      · exact finish_done h (r.endWithMiss (hw rfl rfl))
      · exact finish_done h r
    · exact finish_done h r
  | replyReceived dt fr b plan =>
    simp only [exec, execReplyReceived] at h
    split at h
    · split at h
      · have hw' := hw rfl rfl
        exact finish_done h (r.timed hw'.port (frameTime (s.tick dt).clock b) (Evolves.refl.frameEnded ⟨hw'.level, hw'.port, hw'.track⟩))
      · exact finish_done h r
    · exact finish_done h r
  | bodyCut dt d =>
    simp only [exec, execBodyCut] at h
    split at h
    · have hc := ‹_ ∧ _›
      exact finish_done h (r.countDown (ht rfl (active_run hc.1))).summaryAfter.takeRaised
    · exact finish_done h r
  | loadOn dt k f =>
    simp only [exec, execLoadOn] at h
    split at h
    · have hc := ‹_ ∧ _›
      exact finish_done h (r.threadingWork (ht rfl (threading_run hc.1))).summaryAfter.takeRaised
    · exact finish_done h r
  | loadOff dt k f =>
    simp only [exec, execLoadOff] at h
    split at h
    · have hc := ‹_ ∧ _›
      exact finish_done h (r.threadingWork (ht rfl (threading_run hc.1))).summaryAfter.takeRaised
    · exact finish_done h r
  | lockOn dt k f =>
    simp only [exec, execLockOn] at h
    split at h
    · have hc := ‹_ ∧ _›
      exact finish_done h (r.threadingWork (ht rfl (threading_run hc.1))).summaryAfter.takeRaised
    · exact finish_done h r
  | presetComplete dt k g =>
    simp only [exec, execPresetComplete] at h
    split at h
    · exact finish_done h r.moveTest
    · exact finish_done h r
  | zeroFound dt k a f =>
    simp only [exec, execZeroFound] at h
    split at h
    · exact finish_done h r.moveTest
    · exact finish_done h r
  | calibrationRetire dt k g =>
    simp only [exec, execCalibrationRetire] at h
    split at h
    · exact finish_done h r.moveTest
    · exact finish_done h r
  | moveTimeout dt k =>
    simp only [exec, execMoveTimeout] at h
    split at h
    · exact finish_done h r.timeoutTest
    · exact finish_done h r
  | stationSilent dt e =>
    simp only [exec, execStationSilent] at h
    split at h
    · exact finish_done h r.missReply
    · exact finish_done h r
  | stationRejoined dt e rep plan =>
    simp only [exec, execStationRejoined] at h
    split at h
    · exact finish_done h (r.validReply (hw rfl rfl))
    · exact finish_done h r
  | sampleExpiry dt =>
    simp only [exec, execSampleExpiry] at h
    split at h
    · exact finish_done h r.expireSample
    · exact finish_done h r
  | elapsedSaturated dt e =>
    simp only [exec, execElapsedSaturated] at h
    split at h
    · exact finish_done h r.withStation
    · exact finish_done h r
  | strayFrameDiscard dt b => exact finish_done h r

/-! ### The commands that set registers and pins directly -/

theorem exec_powerOn {e : EtripLevel} {s u : State} (h : exec (.powerOn e) s = .next u) :
    u = State.settled { State.reset with
      etripPin := e, trip := { etrip := e }, freeIndex := s.freeIndex, pending := s.pending } := finish_next h

theorem exec_halt {dt : Clock} {s u : State} (h : exec (.runLevelHalt dt) s = .next u) :
    u = (haltState (s.tick dt)).settled := finish_next h

theorem exec_resetAsserted {dt : Clock} {s u : State} (h : exec (.resetAsserted dt) s = .next u) :
    u = State.settled { s.tick dt with resetLow := true } := finish_next h

theorem exec_attentionWrite {dt : Clock} {v : Word} {s u : State} (h : exec (.attentionWrite dt v) s = .next u) :
    u = State.settled { s.tick dt with attention := s.attention &&& ~~~(v.setWidth 5) } := finish_next h

theorem exec_maskWrite {dt : Clock} {v : Word} {s u : State} (h : exec (.attentionMaskWrite dt v) s = .next u) :
    u = State.settled { s.tick dt with mask := v.setWidth 5 } := finish_next h

/-- ETRIP_CHANGE: the level is recorded, and what follows is work of the Trip Unit (R125). -/
theorem exec_etripChange {dt : Clock} {l : EtripLevel} {s u : State} (h : exec (.etripChange dt l) s = .next u)
    (p : Permit) :
    Done p { s.tick dt with etripPin := l, trip := { s.trip with etrip := l } } u := by
  refine finish_done h ?_
  unfold etripTaken
  exact .ite .refl (.ite Evolves.refl.takeCause Evolves.refl.rewriteTripArea)

/-- The permit of work that makes none of the rarer changes. -/
def Permit.none : Permit := { level := false, line := false, entry := false, reset := false, port := false, track := false }

/-- What every command answers, said once: what holds of every state that block work can lead to, and of the next state
of each command that sets a register or a pin directly, holds after every command. -/
theorem exec_cases {P : State → Prop} {s t : State} {i : Instr} (h : exec i s = .next t)
    (work : setsDirectly i = false → ∀ u, Done (permitOf i s) (s.tick i.elapsed) u → P u)
    (etrip : ∀ dt l, i = .etripChange dt l →
      ∀ u, Done Permit.none { s.tick dt with etripPin := l, trip := { s.trip with etrip := l } } u → P u)
    (power : ∀ e, i = .powerOn e → P (State.settled { State.reset with
      etripPin := e, trip := { etrip := e }, freeIndex := s.freeIndex, pending := s.pending }))
    (halt : ∀ dt, i = .runLevelHalt dt → P (haltState (s.tick dt)).settled)
    (low : ∀ dt, i = .resetAsserted dt → P (State.settled { s.tick dt with resetLow := true }))
    (clear : ∀ dt v, i = .attentionWrite dt v →
      P (State.settled { s.tick dt with attention := s.attention &&& ~~~(v.setWidth 5) }))
    (enable : ∀ dt v, i = .attentionMaskWrite dt v → P (State.settled { s.tick dt with mask := v.setWidth 5 })) :
    P t := by
  by_cases hs : setsDirectly i = false
  · exact work hs t (exec_done i s t hs h)
  · cases i <;> first | exact absurd rfl hs | skip
    · rw [exec_powerOn h]; exact power _ rfl
    · rw [exec_halt h]; exact halt _ rfl
    · rw [exec_attentionWrite h]; exact clear _ _ rfl
    · rw [exec_maskWrite h]; exact enable _ _ rfl
    · exact etrip _ _ rfl _ (exec_etripChange h _)
    · rw [exec_resetAsserted h]; exact low _ rfl

/-- An invariant that every command keeps, and that neither the queue nor the line clock bears on, every step keeps. -/
theorem step_keeps {P : State → Prop} (clock : ∀ s : State, P s → P { s with clock := s.clock + 1 })
    (queue : ∀ (s : State) q, P s → P { s with pending := q })
    (command : ∀ i s t, P s → exec i s = .next t → P t) : ∀ s t, P s → step s = .next t → P t := by
  intro s t hs h
  unfold step at h
  split at h
  · cases h; exact clock s hs
  · exact command _ _ _ (queue s _ hs) h

end Sys2Proof.Machine
end

