-- ==== Sys2Proof/Laws/PerStand.lean ====
section
/-! SUPPORT. Reading and writing one value per stand. -/

namespace Sys2Proof.Machine

variable {α β : Type}

@[simp] theorem PerStand.get_all [Inhabited α] (a : α) (k : Nat) (h : 1 ≤ k ∧ k ≤ 8) :
    (PerStand.all a).get k = a := by
  obtain ⟨h1, h2⟩ := h
  interval_cases k <;> rfl

theorem PerStand.get_set_same [Inhabited α] (p : PerStand α) (k : Nat) (a : α) (h : 1 ≤ k ∧ k ≤ 8) :
    (p.set k a).get k = a := by
  obtain ⟨h1, h2⟩ := h
  interval_cases k <;> rfl

theorem PerStand.get_set_other [Inhabited α] (p : PerStand α) (j k : Nat) (a : α) (h : j ≠ k) :
    (p.set k a).get j = p.get j := by
  unfold PerStand.set
  split <;> unfold PerStand.get <;> split <;> first | rfl | omega

theorem PerStand.get_set [Inhabited α] (p : PerStand α) (j k : Nat) (a : α) (h : 1 ≤ k ∧ k ≤ 8) :
    (p.set k a).get j = if j = k then a else p.get j := by
  split
  · subst_vars; exact p.get_set_same _ a h
  · exact p.get_set_other j k a ‹_›

theorem PerStand.set_outside (p : PerStand α) (k : Nat) (a : α) (h : ¬(1 ≤ k ∧ k ≤ 8)) : p.set k a = p := by
  unfold PerStand.set
  split <;> first | rfl | omega

theorem PerStand.get_outside [Inhabited α] (p : PerStand α) (k : Nat) (h : ¬(1 ≤ k ∧ k ≤ 8)) :
    p.get k = default := by
  unfold PerStand.get
  split <;> first | rfl | omega

theorem PerStand.get_map [Inhabited α] [Inhabited β] (p : PerStand α) (f : α → β) (k : Nat) (h : 1 ≤ k ∧ k ≤ 8) :
    (p.map f).get k = f (p.get k) := by
  obtain ⟨h1, h2⟩ := h
  interval_cases k <;> rfl

theorem PerStand.get_ofStand [Inhabited α] (f : Nat → α) (k : Nat) (h : 1 ≤ k ∧ k ≤ 8) :
    (PerStand.ofStand f).get k = f k := by
  obtain ⟨h1, h2⟩ := h
  interval_cases k <;> rfl

/-- Two records that agree at every stand are the same. -/
theorem PerStand.ext_get [Inhabited α] (p q : PerStand α) (h : ∀ k, 1 ≤ k ∧ k ≤ 8 → p.get k = q.get k) : p = q := by
  obtain ⟨⟩ := p
  obtain ⟨⟩ := q
  have h1 := h 1 (by decide)
  have h2 := h 2 (by decide)
  have h3 := h 3 (by decide)
  have h4 := h 4 (by decide)
  have h5 := h 5 (by decide)
  have h6 := h 6 (by decide)
  have h7 := h 7 (by decide)
  have h8 := h 8 (by decide)
  simp only [PerStand.get] at h1 h2 h3 h4 h5 h6 h7 h8
  simp [*]

/-- Writing back what is read changes nothing. -/
theorem PerStand.set_get [Inhabited α] (p : PerStand α) (k : Nat) : p.set k (p.get k) = p := by
  by_cases h : 1 ≤ k ∧ k ≤ 8
  · obtain ⟨h1, h2⟩ := h
    interval_cases k <;> rfl
  · exact p.set_outside k _ h

/-- The later of two writes at a stand is the one that stays. -/
theorem PerStand.set_set (p : PerStand α) (k : Nat) (a b : α) : (p.set k a).set k b = p.set k b := by
  by_cases h : 1 ≤ k ∧ k ≤ 8
  · obtain ⟨h1, h2⟩ := h
    interval_cases k <;> rfl
  · rw [p.set_outside k a h]

/-- The stands 1 to `n` are the stand numbers of the part up to `n`. -/
theorem mem_standsTo (n k : Nat) : k ∈ standsTo n ↔ 1 ≤ k ∧ k ≤ 8 ∧ k ≤ n := by
  by_cases h : n ≤ 8
  · interval_cases n <;> simp [standsTo, standNumbers] <;> omega
  · have : standsTo n = standNumbers := by
      unfold standsTo
      exact List.take_of_length_le (by simp [standNumbers]; omega)
    rw [this]
    simp [standNumbers]
    omega

end Sys2Proof.Machine
end

