-- ==== Sys2Proof/Laws/Kept.lean ====
section
/-! SUPPORT. What every piece of work keeps: the clock, the inputs, the enables and the queue; the memory's canonical
form; set attention bits; the level and the line description where no level is requested; the journal's bounds and its
unread records; the trip record. -/

namespace Sys2Proof.Machine

/-- What no elementary change touches. -/
structure Untouched (s t : State) : Prop where
  clock : t.clock = s.clock
  resetLow : t.resetLow = s.resetLow
  etripPin : t.etripPin = s.etripPin
  mask : t.mask = s.mask
  pins : t.pins = s.pins
  pending : t.pending = s.pending

theorem Untouched.refl (s : State) : Untouched s s := ⟨rfl, rfl, rfl, rfl, rfl, rfl⟩

theorem Untouched.trans {s t u : State} (h : Untouched s t) (g : Untouched t u) : Untouched s u :=
  ⟨g.clock.trans h.clock, g.resetLow.trans h.resetLow, g.etripPin.trans h.etripPin, g.mask.trans h.mask,
    g.pins.trans h.pins, g.pending.trans h.pending⟩

/-- What a journal record leaves as it is: everything but the journal and ATTENTION. -/
theorem journal_rest (r : JournalRecord) (t : State) :
    ∃ j a, journal r t = { t with journal := j, attention := a } := by
  unfold journal; split
  · exact ⟨_, _, rfl⟩
  · exact ⟨_, _, rfl⟩

/-- What recording a cause leaves as it is: everything but the journal, ATTENTION and the Trip Unit. -/
theorem recordCause_rest (c : Cause) (k : Nat) (time : Clock) (t : State) :
    ∃ j a tr, recordCause c k time t = { t with journal := j, attention := a, trip := tr } := by
  unfold recordCause note; dsimp only
  split
  · obtain ⟨j, a, e⟩ := journal_rest
      { kind := .tripFirst, stand := k, time := time, coil := (causeEntry t c k time).coil,
        v1 := BitVec.ofNat 16 c.code, v2 := 1, v3 := BitVec.ofNat 16 (standsGrown t c k) }
      { t with trip := { t.trip with causes := [causeEntry t c k time], overflow := false, latch := true } }
    exact ⟨j, a ||| attnTrip, _, by rw [e]; rfl⟩
  · split
    · exact ⟨_, _, _, rfl⟩
    · split
      · obtain ⟨j, a, e⟩ := journal_rest
          { kind := .tripAdded, stand := k, time := time, coil := (causeEntry t c k time).coil,
            v1 := BitVec.ofNat 16 c.code, v2 := BitVec.ofNat 16 (t.trip.causes.length + 1),
            v3 := BitVec.ofNat 16 (standsGrown t c k) }
          { t with trip := { t.trip with causes := t.trip.causes ++ [causeEntry t c k time] } }
        exact ⟨j, a, _, by rw [e]⟩
      · exact ⟨_, _, _, rfl⟩

theorem reportLoss_rest (t : State) : ∃ j a, reportLoss t = { t with journal := j, attention := a } := by
  unfold reportLoss; split
  · exact ⟨_, _, rfl⟩
  · exact ⟨_, _, rfl⟩

/-- A mark's passage changes the Tracker and the Gap Unit's records alone (R15). -/
theorem passMark_rest (k : Nat) (m : Mark) (q : List Mark) (t : State) :
    ∃ x g, passMark k m q t = { t with tracker := x, gap := g } := by
  unfold passMark; dsimp only; split
  · exact ⟨_, _, rfl⟩
  · exact ⟨_, _, rfl⟩

variable {p : Permit} {s t : State}

namespace Evolves

theorem untouched (h : Evolves p s t) : Untouched s t := by
  induction h with
  | refl => exact .refl s
  | quiet _ hq ih => exact ih.trans ⟨hq.clock, hq.resetLow, hq.etripPin, hq.mask, hq.pins, hq.pending⟩
  | noted r _ ih => obtain ⟨j, a, e⟩ := journal_rest r _; rw [e]; exact ih.trans ⟨rfl, rfl, rfl, rfl, rfl, rfl⟩
  | attn _ _ ih => exact ih.trans ⟨rfl, rfl, rfl, rfl, rfl, rfl⟩
  | wrote _ _ _ ih => exact ih.trans ⟨rfl, rfl, rfl, rfl, rfl, rfl⟩
  | recorded c k time _ ih =>
    obtain ⟨j, a, tr, e⟩ := recordCause_rest c k time _
    rw [e]; exact ih.trans ⟨rfl, rfl, rfl, rfl, rfl, rfl⟩
  | acted _ _ _ _ ih => exact ih.trans ⟨rfl, rfl, rfl, rfl, rfl, rfl⟩
  | ready _ _ ih => exact ih.trans ⟨rfl, rfl, rfl, rfl, rfl, rfl⟩
  | cleared _ _ ih => exact ih.trans ⟨rfl, rfl, rfl, rfl, rfl, rfl⟩
  | leveled _ _ _ ih => exact ih.trans ⟨rfl, rfl, rfl, rfl, rfl, rfl⟩
  | lined _ _ _ _ ih => exact ih.trans ⟨rfl, rfl, rfl, rfl, rfl, rfl⟩
  | entered _ _ _ _ _ ih => exact ih.trans ⟨rfl, rfl, rfl, rfl, rfl, rfl⟩
  | indexRead _ _ _ _ ih => exact ih.trans ⟨rfl, rfl, rfl, rfl, rfl, rfl⟩
  | lossReported _ _ ih =>
    obtain ⟨j, a, e⟩ := reportLoss_rest _; rw [e]; exact ih.trans ⟨rfl, rfl, rfl, rfl, rfl, rfl⟩
  | passed k m q _ _ _ ih =>
    obtain ⟨x, g, e⟩ := passMark_rest k m q _; rw [e]; exact ih.trans ⟨rfl, rfl, rfl, rfl, rfl, rfl⟩
  | fronted _ _ _ _ _ _ _ _ _ ih => exact ih.trans ⟨rfl, rfl, rfl, rfl, rfl, rfl⟩
  | advanced _ _ _ _ _ _ _ _ _ _ _ ih => exact ih.trans ⟨rfl, rfl, rfl, rfl, rfl, rfl⟩
  | held _ _ _ _ _ _ _ ih => exact ih.trans ⟨rfl, rfl, rfl, rfl, rfl, rfl⟩
  | departed _ _ _ _ _ _ ih => exact ih.trans ⟨rfl, rfl, rfl, rfl, rfl, rfl⟩
  | cut _ _ _ _ _ _ _ ih => exact ih.trans ⟨rfl, rfl, rfl, rfl, rfl, rfl⟩
  | emptied _ ih => exact ih.trans ⟨rfl, rfl, rfl, rfl, rfl, rfl⟩

/-- Work that may not change the line description copy leaves the line description and CONFIG_RESULT. -/
theorem line_eq (hl : p.line = false) (h : Evolves p s t) : t.line = s.line ∧ t.configResult = s.configResult := by
  induction h with
  | refl => exact ⟨rfl, rfl⟩
  | quiet _ hq ih => exact ⟨hq.line.trans ih.1, hq.configResult.trans ih.2⟩
  | noted r _ ih => obtain ⟨j, a, e⟩ := journal_rest r _; rw [e]; exact ih
  | attn _ _ ih => exact ih
  | wrote _ _ _ ih => exact ih
  | recorded c k time _ ih => obtain ⟨j, a, tr, e⟩ := recordCause_rest c k time _; rw [e]; exact ih
  | acted _ _ _ _ ih => exact ih
  | ready _ _ ih => exact ih
  | cleared _ _ ih => exact ih
  | leveled _ _ _ ih => exact ih
  | lined _ _ hp _ _ => rw [hl] at hp; cases hp
  | entered _ _ _ _ _ ih => exact ih
  | indexRead _ _ _ _ ih => exact ih
  | lossReported _ _ ih => obtain ⟨j, a, e⟩ := reportLoss_rest _; rw [e]; exact ih
  | passed k m q _ _ _ ih => obtain ⟨x, g, e⟩ := passMark_rest k m q _; rw [e]; exact ih
  | fronted _ _ _ _ _ _ _ _ _ ih => exact ih
  | advanced _ _ _ _ _ _ _ _ _ _ _ ih => exact ih
  | held _ _ _ _ _ _ _ ih => exact ih
  | departed _ _ _ _ _ _ ih => exact ih
  | cut _ _ _ _ _ _ _ ih => exact ih
  | emptied _ ih => exact ih

/-- Every piece of work keeps the memory's canonical form. -/
theorem memory (h : Evolves p s t) (hm : memoryOk s) : memoryOk t := by
  unfold memoryOk at *
  induction h with
  | refl => exact hm
  | quiet _ hq ih => rw [hq.exm]; exact ih
  | noted r _ ih => obtain ⟨j, a, e⟩ := journal_rest r _; rw [e]; exact ih
  | attn _ _ ih => exact ih
  | wrote a w _ ih => exact Memory.wf_writeWord _ a w ih
  | recorded c k time _ ih => obtain ⟨j, a, tr, e⟩ := recordCause_rest c k time _; rw [e]; exact ih
  | acted _ _ _ _ ih => exact ih
  | ready _ _ ih => exact ih
  | cleared _ _ ih => exact ih
  | leveled _ _ _ ih => exact ih
  | lined _ _ _ _ ih => exact ih
  | entered _ _ _ _ _ ih => exact ih
  | indexRead _ _ _ _ ih => exact ih
  | lossReported _ _ ih => obtain ⟨j, a, e⟩ := reportLoss_rest _; rw [e]; exact ih
  | passed k m q _ _ _ ih => obtain ⟨x, g, e⟩ := passMark_rest k m q _; rw [e]; exact ih
  | fronted _ _ _ _ _ _ _ _ _ ih => exact ih
  | advanced _ _ _ _ _ _ _ _ _ _ _ ih => exact ih
  | held _ _ _ _ _ _ _ ih => exact ih
  | departed _ _ _ _ _ _ ih => exact ih
  | cut _ _ _ _ _ _ _ ih => exact ih
  | emptied _ ih => exact ih

end Evolves

/-! ### Attention -/

theorem journal_attention (r : JournalRecord) (t : State) :
    (journal r t).attention = t.attention ∨ (journal r t).attention = t.attention ||| attnJournal := by
  unfold journal; split
  · exact .inr rfl
  · exact .inl rfl

/-- The bits of `a` are among those of `b`. -/
def bitsKept (a b : BitVec 5) : Prop := ∀ i, a.getLsbD i = true → b.getLsbD i = true

theorem bitsKept_or (a b c : BitVec 5) (h : bitsKept a b) : bitsKept a (b ||| c) := by
  intro i hi
  rw [BitVec.getLsbD_or, h i hi, Bool.true_or]

theorem journal_bits (a : BitVec 5) (r : JournalRecord) (t : State) (h : bitsKept a t.attention) :
    bitsKept a (journal r t).attention := by
  rcases journal_attention r t with e | e <;> rw [e]
  · exact h
  · exact bitsKept_or _ _ _ h

theorem recordCause_bits (a : BitVec 5) (c : Cause) (k : Nat) (time : Clock) (t : State)
    (h : bitsKept a t.attention) : bitsKept a (recordCause c k time t).attention := by
  unfold recordCause note; dsimp only
  split
  · exact bitsKept_or _ _ _ (journal_bits _ _ _ h)
  · split
    · exact h
    · split
      · exact journal_bits _ _ _ h
      · exact h

/-- No piece of work clears an attention bit (R161). -/
theorem Evolves.attention (h : Evolves p s t) : bitsKept s.attention t.attention := by
  induction h with
  | refl => exact fun _ h => h
  | quiet _ hq ih => rw [hq.attention]; exact ih
  | noted r _ ih => exact journal_bits _ r _ ih
  | attn b _ ih => exact bitsKept_or _ _ b ih
  | wrote _ _ _ ih => exact ih
  | recorded c k time _ ih => exact recordCause_bits _ c k time _ ih
  | acted _ _ _ _ ih => exact ih
  | ready _ _ ih => exact ih
  | cleared _ _ ih => exact ih
  | leveled _ _ _ ih => exact ih
  | lined _ _ _ _ ih => exact ih
  | entered _ _ _ _ _ ih => exact ih
  | indexRead _ _ _ _ ih => exact ih
  | lossReported _ _ ih =>
    unfold reportLoss; split
    · exact bitsKept_or _ _ _ ih
    · exact ih
  | passed k m q _ _ _ ih => obtain ⟨x, g, e⟩ := passMark_rest k m q _; rw [e]; exact ih
  | fronted _ _ _ _ _ _ _ _ _ ih => exact ih
  | advanced _ _ _ _ _ _ _ _ _ _ _ ih => exact ih
  | held _ _ _ _ _ _ _ ih => exact ih
  | departed _ _ _ _ _ _ ih => exact ih
  | cut _ _ _ _ _ _ _ ih => exact ih
  | emptied _ ih => exact ih

/-! ### The journal -/

theorem unread_append (w r : BitVec 8) (h : (w - r).toNat < 128) : (w + 1 - r).toNat = (w - r).toNat + 1 := by
  simp only [BitVec.toNat_add, BitVec.toNat_sub, BitVec.ofNat_eq_ofNat, BitVec.toNat_ofNat] at h ⊢
  have := w.isLt
  have := r.isLt
  omega

/-- A record that falls due keeps the journal's bounds (R173, R174). -/
theorem journal_ok (r : JournalRecord) (t : State) (h : journalOk t) : journalOk (journal r t) := by
  unfold journalOk at *
  unfold journal
  split
  · rename_i hc
    refine ⟨?_, ?_, h.2.2⟩
    · have : (t.journal.w + 1 - t.journal.r).toNat = (t.journal.w - t.journal.r).toNat + 1 :=
        unread_append _ _ hc.2
      show (t.journal.w + 1 - t.journal.r).toNat ≤ 128
      have h2 := hc.2
      unfold Journal.unread at h2
      omega
    · show (t.journal.slots.set _ _).length = 128
      rw [List.length_set]; exact h.2.1
  · exact ⟨h.1, h.2.1, Nat.min_le_right _ _⟩

theorem recordCause_journal (c : Cause) (k : Nat) (time : Clock) (t : State) :
    (recordCause c k time t).journal = t.journal ∨
      ∃ r x, (recordCause c k time t).journal = (journal r { t with trip := x }).journal := by
  unfold recordCause note; dsimp only
  split
  · exact .inr ⟨_, _, rfl⟩
  · split
    · exact .inl rfl
    · split
      · exact .inr ⟨_, _, rfl⟩
      · exact .inl rfl

theorem reportLoss_ok (t : State) (h : journalOk t) : journalOk (reportLoss t) := by
  unfold journalOk at *
  unfold reportLoss
  split
  · rename_i hc
    refine ⟨?_, ?_, Nat.zero_le _⟩
    · have : (t.journal.w + 1 - t.journal.r).toNat = (t.journal.w - t.journal.r).toNat + 1 :=
        unread_append _ _ hc.2
      show (t.journal.w + 1 - t.journal.r).toNat ≤ 128
      have h2 := hc.2
      unfold Journal.unread at h2
      omega
    · show (t.journal.slots.set _ _).length = 128
      rw [List.length_set]; exact h.2.1
  · exact h

/-- Every piece of work keeps the journal's bounds (R172 to R175). -/
theorem Evolves.journalOk (h : Evolves p s t) (hj : journalOk s) : journalOk t := by
  induction h with
  | refl => exact hj
  | quiet _ hq ih => unfold Machine.journalOk; rw [hq.journal]; exact ih
  | noted r _ ih => exact journal_ok r _ ih
  | attn _ _ ih => exact ih
  | wrote _ _ _ ih => exact ih
  | recorded c k time _ ih =>
    unfold Machine.journalOk
    rcases recordCause_journal c k time _ with e | ⟨r, x, e⟩ <;> rw [e]
    · exact ih
    · exact journal_ok r { (_ : State) with trip := x } ih
  | acted _ _ _ _ ih => exact ih
  | ready _ _ ih => exact ih
  | cleared _ _ ih => exact ih
  | leveled _ _ _ ih => exact ih
  | lined _ _ _ _ ih => exact ih
  | entered _ _ _ _ _ ih => exact ih
  | indexRead v _ hv _ ih =>
    refine ⟨?_, ih.2⟩
    unfold journalValueGood at hv
    rw [decide_eq_true_eq] at hv
    exact hv.2
  | lossReported _ _ ih => exact reportLoss_ok _ ih
  | passed k m q _ _ _ ih => obtain ⟨x, g, e⟩ := passMark_rest k m q _; rw [e]; exact ih
  | fronted _ _ _ _ _ _ _ _ _ ih => exact ih
  | advanced _ _ _ _ _ _ _ _ _ _ _ ih => exact ih
  | held _ _ _ _ _ _ _ ih => exact ih
  | departed _ _ _ _ _ _ ih => exact ih
  | cut _ _ _ _ _ _ _ ih => exact ih
  | emptied _ ih => exact ih

/-- The unread records of `j` stand unread and unchanged in `j'`, from the same read index. -/
def UnreadKept (j j' : Journal) : Prop :=
  j'.r = j.r ∧ j.unread ≤ j'.unread ∧ j'.slots.length = j.slots.length ∧
    ∀ i < j.unread, j'.slots[(j.r.toNat + i) % 128]? = j.slots[(j.r.toNat + i) % 128]?

theorem UnreadKept.refl (j : Journal) : UnreadKept j j := ⟨rfl, Nat.le_refl _, rfl, fun _ _ => rfl⟩

/-- A record that falls due keeps every unread record (R173). -/
theorem journal_unread (j : Journal) (r : JournalRecord) (t : State) (h : UnreadKept j t.journal) :
    UnreadKept j (journal r t).journal := by
  unfold journal
  split
  · rename_i hc
    have hu : (t.journal.w + 1 - t.journal.r).toNat = (t.journal.w - t.journal.r).toNat + 1 :=
      unread_append _ _ hc.2
    refine ⟨h.1, ?_, ?_, ?_⟩
    · have h2 := h.2.1
      show j.unread ≤ (t.journal.w + 1 - t.journal.r).toNat
      unfold Journal.unread at h2 ⊢
      omega
    · show (t.journal.slots.set _ _).length = _
      rw [List.length_set]; exact h.2.2.1
    · intro i hi
      show (t.journal.slots.set (t.journal.w.toNat % 128) (some r))[_]? = _
      have hne : t.journal.w.toNat % 128 ≠ (j.r.toNat + i) % 128 := by
        have h2 := h.2.1
        have h1 := hc.2
        have hr : t.journal.r = j.r := h.1
        unfold Journal.unread at h2 h1 hi
        rw [hr] at h2 h1
        simp only [BitVec.toNat_sub] at h2 h1 hi
        have := t.journal.w.isLt
        have := j.r.isLt
        have := j.w.isLt
        omega
      rw [List.getElem?_set_ne hne]
      exact h.2.2.2 i hi
  · exact h

theorem Evolves.unread (hp : p.port = false) (h : Evolves p s t) : UnreadKept s.journal t.journal := by
  induction h with
  | refl => exact .refl _
  | quiet _ hq ih => rw [hq.journal]; exact ih
  | noted r _ ih => exact journal_unread _ r _ ih
  | attn _ _ ih => exact ih
  | wrote _ _ _ ih => exact ih
  | recorded c k time _ ih =>
    rcases recordCause_journal c k time _ with e | ⟨r, x, e⟩ <;> rw [e]
    · exact ih
    · exact journal_unread _ r { (_ : State) with trip := x } ih
  | acted _ _ _ _ ih => exact ih
  | ready _ _ ih => exact ih
  | cleared _ _ ih => exact ih
  | leveled _ _ _ ih => exact ih
  | lined _ _ _ _ ih => exact ih
  | entered _ _ _ _ _ ih => exact ih
  | indexRead _ h _ _ _ => rw [hp] at h; cases h
  | lossReported h _ _ => rw [hp] at h; cases h
  | passed k m q _ _ _ ih => obtain ⟨x, g, e⟩ := passMark_rest k m q _; rw [e]; exact ih
  | fronted _ _ _ _ _ _ _ _ _ ih => exact ih
  | advanced _ _ _ _ _ _ _ _ _ _ _ ih => exact ih
  | held _ _ _ _ _ _ _ ih => exact ih
  | departed _ _ _ _ _ _ ih => exact ih
  | cut _ _ _ _ _ _ _ ih => exact ih
  | emptied _ ih => exact ih

/-! ### The trip record -/

theorem journal_trip (r : JournalRecord) (t : State) : (journal r t).trip = t.trip := by
  unfold journal; split <;> rfl

/-- What recording a cause leaves in the Trip Unit (R130, R131). -/
theorem recordCause_trip (c : Cause) (k : Nat) (time : Clock) (t : State) :
    (recordCause c k time t).trip =
      if t.trip.latch = false then
        { t.trip with causes := [causeEntry t c k time], overflow := false, latch := true }
      else if isDuplicate t c k then t.trip
      else if t.trip.causes.length < 16 then { t.trip with causes := t.trip.causes ++ [causeEntry t c k time] }
      else { t.trip with overflow := true } := by
  unfold recordCause note; dsimp only
  split
  · exact journal_trip _ _
  · split
    · rfl
    · split
      · exact journal_trip _ _
      · rfl

theorem recordCause_ok (c : Cause) (k : Nat) (time : Clock) (t : State) (h : tripOk t) :
    tripOk (recordCause c k time t) := by
  unfold tripOk at *
  rw [recordCause_trip]
  split
  · exact ⟨fun _ => by simp, by simp, by simp⟩
  · split
    · exact h
    · rename_i hd
      split
      · refine ⟨fun _ => by simp, by simp; omega, ?_⟩
        rw [List.map_append, List.nodup_append]
        refine ⟨h.2.2, by simp, ?_⟩
        intro x hx y hy e
        subst e
        simp only [List.map_cons, List.map_nil, List.mem_singleton] at hy
        subst hy
        obtain ⟨z, hz, he⟩ := List.mem_map.mp hx
        apply hd
        unfold isDuplicate
        rw [List.any_eq_true]
        refine ⟨z, hz, ?_⟩
        simp only [causeEntry, Prod.mk.injEq] at he
        simp [he.1, he.2]
      · exact h

/-- Every piece of work keeps the trip record's bounds (R130, R131). -/
theorem Evolves.tripOk (h : Evolves p s t) (ht : tripOk s) : tripOk t := by
  induction h with
  | refl => exact ht
  | quiet _ hq ih => unfold Machine.tripOk; rw [hq.trip]; exact ih
  | noted r _ ih => unfold Machine.tripOk; rw [journal_trip]; exact ih
  | attn _ _ ih => exact ih
  | wrote _ _ _ ih => exact ih
  | recorded c k time _ ih => exact recordCause_ok c k time _ ih
  | acted _ _ _ _ ih => exact ih
  | ready _ _ ih => exact ih
  | cleared _ _ ih => exact ⟨fun h => Bool.noConfusion h, ih.2⟩
  | leveled _ _ _ ih => exact ih
  | lined _ _ _ _ ih => exact ih
  | entered _ _ _ _ _ ih => exact ih
  | indexRead _ _ _ _ ih => exact ih
  | lossReported _ _ ih => obtain ⟨j, a, e⟩ := reportLoss_rest _; rw [e]; exact ih
  | passed k m q _ _ _ ih => obtain ⟨x, g, e⟩ := passMark_rest k m q _; rw [e]; exact ih
  | fronted _ _ _ _ _ _ _ _ _ ih => exact ih
  | advanced _ _ _ _ _ _ _ _ _ _ _ ih => exact ih
  | held _ _ _ _ _ _ _ ih => exact ih
  | departed _ _ _ _ _ _ ih => exact ih
  | cut _ _ _ _ _ _ _ ih => exact ih
  | emptied _ ih => exact ih

/-- Every action of `a` is in `b`. -/
def ActionSet.le (a b : ActionSet) : Prop :=
  (a.driveStop = true → b.driveStop = true) ∧ (a.gapOpen = true → b.gapOpen = true)

theorem ActionSet.le_union (a b c : ActionSet) (h : a.le b) : a.le (b.union c) :=
  ⟨fun x => by simp [ActionSet.union, h.1 x], fun x => by simp [ActionSet.union, h.2 x]⟩

theorem addActions_le (ks : List Nat) (a : ActionSet) (q : PerStand ActionSet) (j : Nat) :
    (q.get j).le ((addActions ks a q).get j) := by
  unfold addActions
  induction ks generalizing q with
  | nil => exact ⟨fun h => h, fun h => h⟩
  | cons k ks ih =>
    have h1 : (q.get j).le ((q.set k ((q.get k).union a)).get j) := by
      by_cases hk : 1 ≤ k ∧ k ≤ 8
      · rw [PerStand.get_set q j k _ hk]
        split
        · subst_vars; exact ActionSet.le_union _ _ _ ⟨fun h => h, fun h => h⟩
        · exact ⟨fun h => h, fun h => h⟩
      · rw [PerStand.set_outside q k _ hk]; exact ⟨fun h => h, fun h => h⟩
    have h2 := ih (q.set k ((q.get k).union a))
    exact ⟨fun x => h2.1 (h1.1 x), fun x => h2.2 (h1.2 x)⟩

/-- What a trip keeps until a reset: the latch, the entry stop, and every action (R129). -/
structure TripGrows (s t : State) : Prop where
  latch : s.trip.latch = true → t.trip.latch = true
  entryStop : s.trip.entryStop = true → t.trip.entryStop = true
  actions : ∀ j, (s.trip.actions.get j).le (t.trip.actions.get j)

theorem Evolves.tripGrows (hp : p.reset = false) (h : Evolves p s t) : TripGrows s t := by
  induction h with
  | refl => exact ⟨fun h => h, fun h => h, fun _ => ⟨fun h => h, fun h => h⟩⟩
  | quiet _ hq ih => exact ⟨fun h => by rw [hq.trip]; exact ih.1 h, fun h => by rw [hq.trip]; exact ih.2 h,
      fun j => by rw [hq.trip]; exact ih.3 j⟩
  | noted r _ ih => exact ⟨fun h => by rw [journal_trip]; exact ih.1 h, fun h => by rw [journal_trip]; exact ih.2 h,
      fun j => by rw [journal_trip]; exact ih.3 j⟩
  | attn _ _ ih => exact ⟨ih.1, ih.2, ih.3⟩
  | wrote _ _ _ ih => exact ⟨ih.1, ih.2, ih.3⟩
  | recorded c k time _ ih =>
    refine ⟨fun h => ?_, fun h => ?_, fun j => ?_⟩ <;> rw [recordCause_trip] <;> (repeat' split)
    all_goals first | exact ih.1 h | exact ih.2 h | exact ih.3 j | rfl
  | @acted v ks a e _ ih =>
    refine ⟨ih.1, fun h => ?_, fun j => ?_⟩
    · show (_ || e) = true
      rw [ih.2 h, Bool.true_or]
    · have h1 := ih.3 j
      have h2 := addActions_le ks a v.trip.actions j
      exact ⟨fun x => h2.1 (h1.1 x), fun x => h2.2 (h1.2 x)⟩
  | ready _ _ ih => exact ⟨ih.1, ih.2, ih.3⟩
  | cleared h _ _ => rw [hp] at h; cases h
  | leveled _ _ _ ih => exact ⟨ih.1, ih.2, ih.3⟩
  | lined _ _ _ _ ih => exact ⟨ih.1, ih.2, ih.3⟩
  | entered _ _ _ _ _ ih => exact ⟨ih.1, ih.2, ih.3⟩
  | indexRead _ _ _ _ ih => exact ⟨ih.1, ih.2, ih.3⟩
  | lossReported _ _ ih => obtain ⟨j, a, e⟩ := reportLoss_rest _; rw [e]; exact ⟨ih.1, ih.2, ih.3⟩
  | passed k m q _ _ _ ih => obtain ⟨x, g, e⟩ := passMark_rest k m q _; rw [e]; exact ⟨ih.1, ih.2, ih.3⟩
  | fronted _ _ _ _ _ _ _ _ _ ih => exact ⟨ih.1, ih.2, ih.3⟩
  | advanced _ _ _ _ _ _ _ _ _ _ _ ih => exact ⟨ih.1, ih.2, ih.3⟩
  | held _ _ _ _ _ _ _ ih => exact ⟨ih.1, ih.2, ih.3⟩
  | departed _ _ _ _ _ _ ih => exact ⟨ih.1, ih.2, ih.3⟩
  | cut _ _ _ _ _ _ _ ih => exact ⟨ih.1, ih.2, ih.3⟩
  | emptied _ ih => exact ⟨ih.1, ih.2, ih.3⟩

end Sys2Proof.Machine
end

