-- ==== Sys2Proof/Laws/Zones.lean ====
section
/-! SUPPORT. The zone queues under every elementary change: order, positions, thickness entries, and the pool (R4,
R5, R8, R15). -/

namespace Sys2Proof.Machine

/-- The marks in a list of queues. -/
def queued (z : PerStand (List Mark)) : Nat := (z.toList.map List.length).sum

theorem queued_set (z : PerStand (List Mark)) (k : Nat) (q : List Mark) (h : 1 ≤ k ∧ k ≤ 8) :
    queued (z.set k q) + (z.get k).length = queued z + q.length := by
  obtain ⟨h1, h2⟩ := h
  interval_cases k <;> simp [queued, PerStand.set, PerStand.get, PerStand.toList] <;> omega

/-- A queue that holds a mark belongs to a zone of the part. -/
theorem zone_inside {t : State} {k : Nat} {m : Mark} {q : List Mark} (h : t.zone k = m :: q) : 1 ≤ k ∧ k ≤ 8 := by
  by_contra hk
  unfold State.zone at h
  rw [PerStand.get_outside _ _ hk] at h
  cases h

/-- Every queue is in order for the zone lengths of `s`. -/
def QueuesOk (s : State) (z : PerStand (List Mark)) : Prop :=
  ∀ k, 1 ≤ k ∧ k ≤ 8 → queueOk (s.zoneLen k) k (z.get k)

theorem QueuesOk.set {s : State} {z : PerStand (List Mark)} {k : Nat} {q : List Mark} (h : QueuesOk s z)
    (hq : queueOk (s.zoneLen k) k q) : QueuesOk s (z.set k q) := by
  intro j hj
  by_cases hk : 1 ≤ k ∧ k ≤ 8
  · rw [PerStand.get_set z j k q hk]
    split
    · subst_vars; exact hq
    · exact h j hj
  · rw [PerStand.set_outside z k q hk]; exact h j hj

theorem queueOk_tail {len k : Nat} {m : Mark} {q : List Mark} (h : queueOk len k (m :: q)) : queueOk len k q :=
  ⟨fun x hx => h.1 x (List.mem_cons_of_mem _ hx), (List.pairwise_cons.mp h.2).2⟩

theorem queueOk_snoc {len k : Nat} {q : List Mark} {x : Mark} (h : queueOk len k q) (hp : x.pos ≤ len)
    (hk : x.thick.length = k) (hx : ∀ m ∈ q, x.pos ≤ m.pos) : queueOk len k (q ++ [x]) := by
  refine ⟨fun m hm => ?_, ?_⟩
  · rcases List.mem_append.mp hm with hm | hm
    · exact h.1 m hm
    · rw [List.mem_singleton.mp hm]; exact ⟨hp, hk⟩
  · rw [List.pairwise_append]
    exact ⟨h.2, List.pairwise_singleton _ _, fun m hm y hy => by rw [List.mem_singleton.mp hy]; exact hx m hm⟩

/-- In an ordered queue no mark is behind the last one's position. -/
theorem queueOk_last {len k : Nat} {q : List Mark} {x : Mark} (h : queueOk len k q) (hl : q.getLast? = some x) :
    ∀ m ∈ q, x.pos ≤ m.pos := by
  intro m hm
  obtain ⟨ys, rfl⟩ := List.getLast?_eq_some_iff.mp hl
  rcases List.mem_append.mp hm with hm | hm
  · exact (List.pairwise_append.mp h.2).2.2 m hm x (List.mem_singleton.mpr rfl)
  · rw [List.mem_singleton.mp hm]

/-- The marks behind one at `ahead`, advanced: none passes the mark ahead of it (R8). -/
theorem advanceBehind_ok (d len k : Nat) (q : List Mark) :
    ∀ ahead, ahead ≤ len → (∀ m ∈ q, m.thick.length = k) →
      (∀ m ∈ advanceBehind d ahead q, m.pos ≤ ahead) ∧ queueOk len k (advanceBehind d ahead q) := by
  induction q with
  | nil => exact fun _ _ _ => ⟨fun _ h => absurd h List.not_mem_nil, fun _ h => absurd h List.not_mem_nil, .nil⟩
  | cons m q ih =>
    intro ahead ha hk
    have hm : min (m.pos + d) ahead ≤ ahead := Nat.min_le_right _ _
    obtain ⟨h1, h2⟩ := ih (min (m.pos + d) ahead) (by omega) (fun x hx => hk x (List.mem_cons_of_mem _ hx))
    refine ⟨fun x hx => ?_, ?_, ?_⟩
    · rcases List.mem_cons.mp hx with e | hx
      · rw [e]; exact hm
      · exact Nat.le_trans (h1 x hx) hm
    · intro x hx
      rcases List.mem_cons.mp hx with e | hx
      · rw [e]; exact ⟨Nat.le_trans hm ha, hk m (List.mem_cons_self ..)⟩
      · exact h2.1 x hx
    · exact List.pairwise_cons.mpr ⟨fun x hx => h1 x hx, h2.2⟩

theorem advanceBehind_length (d : Nat) (q : List Mark) : ∀ ahead, (advanceBehind d ahead q).length = q.length := by
  induction q with
  | nil => exact fun _ => rfl
  | cons m q ih => exact fun _ => congrArg (· + 1) (ih _)

/-- The queues a passage leaves (R15). -/
theorem passMark_zones (k : Nat) (m : Mark) (q : List Mark) (t : State) :
    (passMark k m q t).tracker.zones =
      (t.tracker.zones.set k q).set (k + 1) (t.tracker.zones.get (k + 1) ++ [m.passed (t.hEst (k + 1))]) := by
  unfold passMark; dsimp only; split <;> rfl

theorem zoneLen_of_line {s t : State} (h : t.line = s.line) (k : Nat) : t.zoneLen k = s.zoneLen k := by
  unfold State.zoneLen State.n State.lineCopy
  rw [h]

theorem journal_zones (r : JournalRecord) (t : State) : (journal r t).tracker.zones = t.tracker.zones := by
  unfold journal; split <;> rfl

variable {p : Permit} {s t : State}

/-- Work that may not change the line description copy keeps the queues in order and the pool within 256 records (R4, R5). -/
theorem Evolves.zones (hl : p.line = false) (h : Evolves p s t) (hq : QueuesOk s s.tracker.zones)
    (hn : queued s.tracker.zones ≤ 256) : QueuesOk s t.tracker.zones ∧ queued t.tracker.zones ≤ 256 := by
  induction h with
  | refl => exact ⟨hq, hn⟩
  | quiet _ h ih => rw [h.zones]; exact ih
  | noted r _ ih => rw [journal_zones]; exact ih
  | attn _ _ ih => exact ih
  | wrote _ _ _ ih => exact ih
  | recorded c k time _ ih => obtain ⟨j, a, tr, e⟩ := recordCause_rest c k time _; rw [e]; exact ih
  | acted _ _ _ _ ih => exact ih
  | ready _ _ ih => exact ih
  | cleared _ _ ih => exact ih
  | leveled _ _ _ ih => exact ih
  | lined _ _ _ _ ih => exact ih
  | entered _ _ _ _ _ ih => exact ih
  | indexRead _ _ _ _ ih => exact ih
  | lossReported _ _ ih => obtain ⟨j, a, e⟩ := reportLoss_rest _; rw [e]; exact ih
  | @passed v k m q _ hz _ ih =>
    have hk := zone_inside hz
    have hzone : v.tracker.zones.get k = m :: q := hz
    have hok := ih.1 k hk
    rw [hzone] at hok
    have h1 := ih.1.set (k := k) (q := q) (queueOk_tail hok)
    have hm := (hok.1 m (List.mem_cons_self ..)).2
    rw [passMark_zones]
    have hsum := queued_set v.tracker.zones k q hk
    rw [hzone, List.length_cons] at hsum
    by_cases hk1 : 1 ≤ k + 1 ∧ k + 1 ≤ 8
    · refine ⟨h1.set (queueOk_snoc (ih.1 (k + 1) hk1) (Nat.zero_le _) (by simp [Mark.passed, hm])
        (fun _ _ => Nat.zero_le _)), ?_⟩
      have h2 := queued_set (v.tracker.zones.set k q) (k + 1)
        (v.tracker.zones.get (k + 1) ++ [m.passed (v.hEst (k + 1))]) hk1
      rw [PerStand.get_set_other _ _ _ _ (by omega), List.length_append, List.length_singleton] at h2
      have := ih.2
      omega
    · rw [PerStand.set_outside _ _ _ hk1]
      exact ⟨h1, by have := ih.2; omega⟩
  | @fronted v k m m' q _ hz ht hp h ih =>
    have hk := zone_inside hz
    have hzone : v.tracker.zones.get k = m :: q := hz
    have hok := ih.1 k hk
    rw [hzone] at hok
    have hlen := zoneLen_of_line (h.line_eq hl).1 k
    have hsum := queued_set v.tracker.zones k (m' :: q) hk
    rw [hzone, List.length_cons, List.length_cons] at hsum
    refine ⟨ih.1.set ⟨fun x hx => ?_, ?_⟩, ?_⟩
    · rcases List.mem_cons.mp hx with e | hx
      · rw [e, hp, hlen, ht]; exact ⟨Nat.le_refl _, (hok.1 m (List.mem_cons_self ..)).2⟩
      · exact hok.1 x (List.mem_cons_of_mem _ hx)
    · refine List.pairwise_cons.mpr ⟨fun x hx => ?_, (List.pairwise_cons.mp hok.2).2⟩
      rw [hp, hlen]; exact (hok.1 x (List.mem_cons_of_mem _ hx)).1
    · show queued (v.tracker.zones.set k (m' :: q)) ≤ 256
      have := ih.2
      omega
  | @advanced v k d m m' q _ hz ht _ hp h ih =>
    have hk := zone_inside hz
    have hzone : v.tracker.zones.get k = m :: q := hz
    have hok := ih.1 k hk
    rw [hzone] at hok
    have hlen := zoneLen_of_line (h.line_eq hl).1 k
    have hm' : m'.pos ≤ s.zoneLen k := by
      rcases hp with hp | hp
      · rw [← hlen]; exact hp
      · rw [hp]; exact (hok.1 m (List.mem_cons_self ..)).1
    have hb := advanceBehind_ok d (s.zoneLen k) k q m'.pos hm' (fun x hx => (hok.1 x (List.mem_cons_of_mem _ hx)).2)
    have hsum := queued_set v.tracker.zones k (m' :: advanceBehind d m'.pos q) hk
    rw [hzone, List.length_cons, List.length_cons, advanceBehind_length] at hsum
    refine ⟨ih.1.set ⟨fun x hx => ?_, ?_⟩, ?_⟩
    · rcases List.mem_cons.mp hx with e | hx
      · rw [e, ht]; exact ⟨hm', (hok.1 m (List.mem_cons_self ..)).2⟩
      · exact hb.2.1 x hx
    · exact List.pairwise_cons.mpr ⟨fun x hx => hb.1 x hx, hb.2.2⟩
    · show queued (v.tracker.zones.set k (m' :: advanceBehind d m'.pos q)) ≤ 256
      have := ih.2
      omega
  | @held v k q x e _ hz _ ih =>
    have hzone : v.tracker.zones.get k = q ++ [x] := hz
    have hk : 1 ≤ k ∧ k ≤ 8 := by
      by_contra hn
      rw [PerStand.get_outside _ _ hn] at hzone
      exact List.cons_ne_nil x [] (List.append_eq_nil_iff.mp hzone.symm).2
    have hok := ih.1 k hk
    rw [hzone] at hok
    have hsum := queued_set v.tracker.zones k (q ++ [{ x with hold := e }]) hk
    rw [hzone, List.length_append, List.length_append, List.length_singleton, List.length_singleton] at hsum
    obtain ⟨hq, -, hl⟩ := List.pairwise_append.mp hok.2
    have hx := hok.1 x (List.mem_append_right _ (List.mem_singleton.mpr rfl))
    refine ⟨ih.1.set (queueOk_snoc ⟨fun m hm => hok.1 m (List.mem_append_left _ hm), hq⟩ hx.1 hx.2
      fun m hm => hl m hm x (List.mem_singleton.mpr rfl)), ?_⟩
    show queued (v.tracker.zones.set k (q ++ [{ x with hold := e }])) ≤ 256
    have := ih.2
    omega
  | @departed v k m q _ hz _ ih =>
    have hk := zone_inside hz
    have hzone : v.tracker.zones.get k = m :: q := hz
    have hok := ih.1 k hk
    rw [hzone] at hok
    have hsum := queued_set v.tracker.zones k q hk
    rw [hzone, List.length_cons] at hsum
    refine ⟨ih.1.set (queueOk_tail hok), ?_⟩
    show queued (v.tracker.zones.set k q) ≤ 256
    have := ih.2
    omega
  | @cut v kind x _ hr hlast hempty h ih =>
    have hok := ih.1 1 (by decide)
    have hlen := zoneLen_of_line (h.line_eq hl).1 1
    have hsum := queued_set v.tracker.zones 1 (v.tracker.zones.get 1 ++ [newMark v kind x]) (by decide)
    rw [List.length_append, List.length_singleton] at hsum
    have hroom : queued v.tracker.zones < 256 := by
      unfold State.hasRoom Tracker.freeRecords at hr
      rw [decide_eq_true_eq] at hr
      unfold queued
      omega
    refine ⟨ih.1.set (queueOk_snoc hok ?_ rfl ?_), ?_⟩
    · show x ≤ _
      cases hg : v.zone 1 with
      | nil => rw [← hlen]; exact hempty hg
      | cons a q =>
        obtain ⟨b, hb⟩ : ∃ b, (v.zone 1).getLast? = some b := by
          rw [hg]; exact ⟨_, List.getLast?_eq_some_getLast (List.cons_ne_nil _ _)⟩
        exact Nat.le_trans (hlast b hb) (hok.1 b (List.mem_of_getLast? hb)).1
    · intro m hm
      show x ≤ m.pos
      obtain ⟨b, hb⟩ : ∃ b, (v.zone 1).getLast? = some b :=
        ⟨_, List.getLast?_eq_some_getLast (List.ne_nil_of_mem hm)⟩
      exact Nat.le_trans (hlast b hb) (queueOk_last hok hb m hm)
    · show queued (v.tracker.zones.set 1 (v.tracker.zones.get 1 ++ [newMark v kind x])) ≤ 256
      omega
  | emptied _ ih =>
    refine ⟨fun k hk => ?_, Nat.zero_le _⟩
    show queueOk _ _ ((PerStand.all []).get k)
    rw [PerStand.get_all _ _ hk]
    exact ⟨fun _ h => (by cases h), List.Pairwise.nil⟩

/-- Work that may not move marks leaves the queues, or empties them. -/
theorem Evolves.still (hp : p.track = false) (h : Evolves p s t) :
    t.tracker.zones = s.tracker.zones ∨ t.tracker.zones = PerStand.all [] := by
  induction h with
  | refl => exact .inl rfl
  | quiet _ h ih => rw [h.zones]; exact ih
  | noted r _ ih => rw [journal_zones]; exact ih
  | attn _ _ ih => exact ih
  | wrote _ _ _ ih => exact ih
  | recorded c k time _ ih => obtain ⟨j, a, tr, e⟩ := recordCause_rest c k time _; rw [e]; exact ih
  | acted _ _ _ _ ih => exact ih
  | ready _ _ ih => exact ih
  | cleared _ _ ih => exact ih
  | leveled _ _ _ ih => exact ih
  | lined _ _ _ _ ih => exact ih
  | entered _ _ _ _ _ ih => exact ih
  | indexRead _ _ _ _ ih => exact ih
  | lossReported _ _ ih => obtain ⟨j, a, e⟩ := reportLoss_rest _; rw [e]; exact ih
  | passed _ _ _ h _ _ _ => rw [hp] at h; cases h
  | fronted _ _ _ _ h _ _ _ _ _ => rw [hp] at h; cases h
  | advanced _ _ _ _ _ h _ _ _ _ _ _ => rw [hp] at h; cases h
  | held _ _ _ _ h _ _ _ => rw [hp] at h; cases h
  | departed _ _ _ h _ _ _ => rw [hp] at h; cases h
  | cut _ _ h _ _ _ _ _ => rw [hp] at h; cases h
  | emptied _ _ => exact .inr rfl

end Sys2Proof.Machine
end

