-- ==== Sys2Proof/Laws/Levels.lean ====
section
/-! SUPPORT. What a change of level leaves of the zone queues and of the line description copy. -/

namespace Sys2Proof.Machine

/-- A state with empty queues meets the queues' invariant. -/
theorem zonesOk_empty (s : State) (h : s.tracker.zones = PerStand.all []) : zonesOk s := by
  refine ⟨fun k hk => ?_, ?_, fun _ => h⟩
  · have hk' : 1 ≤ k ∧ k ≤ 8 := by simp [standNumbers] at hk; omega
    have : s.zone k = [] := by unfold State.zone; rw [h]; exact PerStand.get_all _ _ hk'
    rw [this]
    exact ⟨fun _ h => (by cases h), List.Pairwise.nil⟩
  · unfold State.marksQueued; rw [h]; exact Nat.zero_le _

/-- A flush empties the queues (R23). -/
theorem flush_zones (time : Clock) (s : State) : (flush time s).tracker.zones = PerStand.all [] := by
  have h : Evolves Permit.none (clearPicture s) (flush time s) := Evolves.refl.gauge.slotsFlushed.rewriteSummary
  rcases h.still rfl with e | e
  · exact e
  · exact e

/-- Work that moves no mark leaves empty queues empty. -/
theorem Evolves.stays_empty {p : Permit} {s t : State} (hp : p.track = false) (h : Evolves p s t)
    (hs : s.tracker.zones = PerStand.all []) : t.tracker.zones = PerStand.all [] := by
  rcases h.still hp with e | e
  · rw [e, hs]
  · exact e

/-- Leaving RUN empties the queues (R165, step 4). -/
theorem leaveRun_zones (l : RunLevel) (s : State) : (leaveRun l s).tracker.zones = PerStand.all [] := flush_zones _ _

/-- A request for CONFIGURE or LOOPBACK leaves the queues empty, if they were empty at the levels other than RUN. -/
theorem requestConfigure_zones (s : State) (h : s.level ≠ .run → s.tracker.zones = PerStand.all []) :
    (requestConfigure s).tracker.zones = PerStand.all [] := by
  by_cases hr : s.level = .run
  · unfold requestConfigure
    rw [hr]
    exact (Evolves.refl (p := Permit.none)).resumeIntake.stays_empty rfl (leaveRun_zones _ _)
  · exact ((Evolves.refl (p := ⟨true, false, false, true, false, false⟩)).requestConfigure rfl fun _ => rfl).stays_empty rfl (h hr)

theorem requestLoopback_zones (s : State) (h : s.level ≠ .run → s.tracker.zones = PerStand.all []) :
    (requestLoopback s).tracker.zones = PerStand.all [] := by
  by_cases hr : s.level = .run
  · unfold requestLoopback
    rw [hr]
    exact ((Evolves.refl (p := ⟨true, false, false, false, false, false⟩)).enterLoopback rfl).resumeIntake.stays_empty rfl
      (leaveRun_zones _ _)
  · exact ((Evolves.refl (p := ⟨true, false, false, true, false, false⟩)).requestLoopback rfl fun _ => rfl).stays_empty rfl (h hr)

/-- A request for RUN leaves the queues as they are at RUN, and empty queues empty. -/
theorem requestRun_zones (s : State) (h : s.level ≠ .run → s.tracker.zones = PerStand.all []) :
    requestRun s = s ∨ (requestRun s).tracker.zones = PerStand.all [] := by
  by_cases hr : s.level = .run
  · left; unfold requestRun; rw [hr]
  · right
    exact ((Evolves.refl (p := ⟨true, true, true, true, false, false⟩)).requestRun rfl rfl rfl fun _ => rfl).stays_empty rfl (h hr)

/-- A RUN entry takes the description it validated, and is at RUN (R163, steps 3 and 4). -/
theorem enterRun_line (l : LineDesc) (s : State) : (enterRun l s).line = some l ∧ (enterRun l s).level = .run := by
  let q : Permit := ⟨false, false, true, false, false, false⟩
  have h0 : Evolves q { leaveLoopback s with line := some l, configResult := 0, level := .run }
      (takeLine l (leaveLoopback s)) := by
    unfold takeLine
    extract_lets s1
    exact .ite Evolves.refl.startIntake .refl
  have h : Evolves q { leaveLoopback s with line := some l, configResult := 0, level := .run } (enterRun l s) := by
    unfold enterRun
    exact (Evolves.startCycle (Evolves.startLink (Evolves.tripRunEntry rfl
      h0.thicknessRunEntry.gaugeRunEntry.slotsRunEntry.resetThreading.rewriteSummary.gap))).dropImages
  exact ⟨(h.line_eq rfl).1, h.level_eq rfl⟩

/-- A request for RUN keeps the copy valid, and at RUN there is one. -/
theorem requestRun_copy (s : State) (h : copyOk s) : copyOk (requestRun s) := by
  have key : copyOk (validateAndEnter s) := by
    unfold validateAndEnter
    split
    · exact h
    · next hv =>
      have hr : Evolves Permit.none (enterRun (lineAt s.exm) (finishTaken s))
          (resumeIntake s (enterRun (lineAt s.exm) (finishTaken s))) := Evolves.refl.resumeIntake
      obtain ⟨h1, h2⟩ := enterRun_line (lineAt s.exm) (finishTaken s)
      have h3 := (hr.line_eq rfl).1.trans h1
      refine ⟨fun _ => by rw [h3]; rfl, fun l hl => ?_⟩
      rw [h3] at hl
      cases hl
      exact hv
  unfold requestRun
  split
  · exact h
  all_goals exact key

/-- A request for CONFIGURE or LOOPBACK leaves RUN, or was not at RUN. -/
theorem requestConfigure_level (s : State) : (requestConfigure s).level = .configure := by
  unfold requestConfigure
  split
  · exact (Evolves.refl (p := Permit.none)).startIntake.level_eq rfl
  · assumption
  · exact (Evolves.refl (p := Permit.none)).resumeIntake.level_eq rfl
  · refine ((Evolves.refl (p := Permit.none)).resumeIntake.level_eq rfl).trans ?_
    unfold leaveRun
    exact (Evolves.refl (p := Permit.none)).flush.level_eq rfl

theorem enterLoopback_level (s : State) : (enterLoopback s).level = .loopback := by
  have h : Evolves Permit.none { s with level := .loopback } (enterLoopback s) := by
    unfold enterLoopback
    extract_lets s1
    have h1 : Evolves Permit.none { s with level := .loopback } s1 := Evolves.refl.gap
    split
    · exact h1.startLink.loopbackCycle
    · exact h1.link
  exact h.level_eq rfl

theorem requestLoopback_level (s : State) : (requestLoopback s).level = .loopback := by
  unfold requestLoopback
  split
  · exact ((Evolves.refl (p := Permit.none)).startIntake.level_eq rfl).trans (enterLoopback_level _)
  · exact ((Evolves.refl (p := Permit.none)).resumeIntake.level_eq rfl).trans (enterLoopback_level _)
  · assumption
  · exact ((Evolves.refl (p := Permit.none)).resumeIntake.level_eq rfl).trans (enterLoopback_level _)

end Sys2Proof.Machine
end

