-- ==== Sys2Proof/Laws/Pins.lean ====
section
/-! SUPPORT. The pins after a command are as their conditions have them. -/

namespace Sys2Proof.Machine

/-- A bit set in both words is a common bit. -/
theorem attnActive_iff (s : State) :
    attnActive s = true ↔ ∃ b, s.attention.getLsbD b = true ∧ s.mask.getLsbD b = true := by
  unfold attnActive
  rw [bne_iff_ne, ne_eq, ← not_iff_not, not_not]
  constructor
  · rintro h ⟨b, h1, h2⟩
    have := congrArg (fun x : BitVec 5 => x.getLsbD b) h
    simp [h1, h2] at this
  · intro h
    apply BitVec.eq_of_getLsbD_eq
    intro i _
    rw [BitVec.getLsbD_and]
    by_cases h1 : s.attention.getLsbD i = true
    · by_cases h2 : s.mask.getLsbD i = true
      · exact absurd ⟨i, h1, h2⟩ h
      · simp [h2]
    · simp [h1]

/-- LINK_DE is high exactly while a poll is sent at RUN. -/
theorem linkDriven_iff (s : State) :
    linkDriven s = true ↔ s.level = .run ∧ ∃ c, s.link.cycle = some c ∧ c.phase = .sending := by
  unfold linkDriven
  split
  · next c h => simp [h, and_comm]
  · next h => simp [h]

/-- A state whose pins have followed their conditions meets the pins' invariant. -/
theorem pinsOk_of_pinsOf (s : State) (h : s.pins = pinsOf s) : pinsOk s := by
  have hd : s.pins.dstop = PerStand.ofStand (dstopOn s) := by rw [h]; rfl
  have hg : s.pins.gopen = PerStand.ofStand (gopenOn s) := by rw [h]; rfl
  have hm : s.pins.mstop = mstopOn s := by rw [h]; rfl
  have ha : s.pins.attn = attnActive s := by rw [h]; rfl
  have hl : s.pins.linkDe = linkDriven s := by rw [h]; rfl
  refine ⟨fun k hk => ?_, ?_, ?_, ?_⟩
  · have hk' : 1 ≤ k ∧ k ≤ 8 := by simp [standNumbers] at hk; omega
    rw [hd, hg, PerStand.get_ofStand _ k hk', PerStand.get_ofStand _ k hk']
    simp [dstopOn, gopenOn, and_assoc]
  · rw [hm]; simp [mstopOn, and_assoc]
  · rw [ha]; exact attnActive_iff s
  · rw [hl]; exact linkDriven_iff s

/-- After every command the pins are as their conditions have them. -/
theorem finish_pinsOk {t u : State} (h : finish t = .next u) : pinsOk u := by
  rw [finish_next h]
  exact pinsOk_of_pinsOf _ rfl

end Sys2Proof.Machine
end

