-- ==== Sys2Proof/Laws/Specs.lean ====
section
/-! SUPPORT. One lemma for each shared operation, which says once what it can do: retirements and ends of orders (R169,
R171), the intake's read (R166), the ends of moves (R113, R119, R121), the recording of causes (R130, R131), slots freed
and flushed (R102, R103), the flush (R23), LEVEL_DROP (R165). -/

namespace Sys2Proof.Machine

/-! ### Orders and the intake -/

/-- What the writing of a result leaves in memory (R171). -/
theorem retired_of (p : Nat) (r : Result) (s : State) (h : memoryOk s) :
   Retired p r.cls.code r.cls.detail r.value s { s with exm := writeResult s.exm p r } := by
  have hw := words_writeResult s.exm p r h
  refine ⟨hw.1, hw.2.1, hw.2.2.1, hw.2.2.2, ?_⟩
  intro a h1 h2
  exact read_writeResult _ _ _ _ h (by omega)

/-- A word field is the number its word reads as. -/
theorem word_eq (m : Memory) (a : Nat) (v : Word) (h : m.readWord a = v) : m.wordAt a = v.toNat := by unfold Memory.wordAt; rw [h]

/-- The table of long orders in flight, entry by entry (R169). -/
theorem inflight_iff (s : State) (v : Nat) : s.blockInFlight v = true ↔ ∃ k ∈ standNumbers, s.orders.inFlight.get k = some v := by
  unfold State.blockInFlight
  simp [standNumbers, PerStand.toList, PerStand.get]
  tauto

/-- A write to the watched word, with no take in progress, is the intake's next read (R166). -/
theorem arrival_is_read (s u : State) (w : Nat) (dt : Clock) (v : Word) (hw : s.orders.watched = some w) (hc : s.orders.copy = none) (h8 : w % 8 = 0) (hp : partOwned s w = false)
   (hu : u = { s with clock := s.clock + dt, exm := s.exm.writeWord w v }) : exec (.watchedWordArrival dt v) s = finish (freeToTake u) := by
  show execWatchedWordArrival dt v s = _
  unfold execWatchedWordArrival
  simp only [show (s.tick dt).orders = s.orders from rfl, hw]
  unfold portWrite
  rw [if_neg (by rw [show partOwned (s.tick dt) w = partOwned s w from rfl, hp]; simp)]
  simp only []
  rw [if_neg (by unfold journalReadAt; omega)]
  unfold arrivalEvent
  rw [if_pos ⟨hw, hc⟩, hu]; rfl

/-- The intake waits while the watched word reads 0 (R166). -/
theorem freeToTake_waits (u : State) (w : Nat) (h : u.orders.watched = some w) (h0 : u.exm.readWord w = 0) : freeToTake u = u := by
  unfold freeToTake intakeFuel
  show intake (8191 + 1) u = u
  unfold intake
  rw [h]
  simp [Memory.wordAt, h0]

/-- The retirement of the order being taken, and the next read (R169, R171). -/
theorem ends_of (x : State) (c : OrderCopy) (r : Result) (h : memoryOk x) (hc : x.orders.copy = some c) :
    OrderEnds c.ptr r.cls.code r.cls.detail r.value x (freeToTake (retireTaken r x)).settled := by
  refine ⟨_, retired_of c.ptr r x h, ?_⟩
  unfold retireTaken
  rw [hc]
  rfl

theorem ends_as (x : State) (c : OrderCopy) (r : Result) (h : memoryOk x) (hc : x.orders.copy = some c) {p cls d : Nat} {v : Word} {t : State}
   (hp : c.ptr = p) (h1 : r.cls.code = cls) (h2 : r.cls.detail = d) (h3 : r.value = v) (ht : t = (freeToTake (retireTaken r x)).settled) : OrderEnds p cls d v x t := by
  subst hp h1 h2 h3 ht; exact ends_of x c r h hc

/-- The stands an order may name (R184). -/
theorem named_iff (s : State) (k : Nat) : s.namesStand k = true ↔ standNamed s k := by
  unfold State.namesStand standNamed
  cases s.line <;> simp [Option.elim]

/-! ### Moves -/

theorem move_outside (s : State) (k : Nat) (h : ¬ (1 ≤ k ∧ k ≤ 8)) : (s.gap.get k).move = .none := by
  rw [PerStand.get_outside _ _ h]; rfl

theorem endMove_level_gap (k : Nat) (d : AbortDetail) (s : State) :
    (endMove k d false s).gap = s.gap.set k { s.gap.get k with move := .none } := by
  unfold endMove
  split
  · next h =>
    have : ({ s.gap.get k with move := Move.none } : Reference) = s.gap.get k := by rw [← h]
    rw [this, PerStand.set_get]
  all_goals simp [State.withMove, State.withRef]

theorem endMove_none (k : Nat) (d : AbortDetail) (b : Bool) (s : State) (h : (s.gap.get k).move = .none) : endMove k d b s = s := by
  unfold endMove; rw [h]

theorem ended_gap (l : List Nat) (d : AbortDetail) (s : State) (k : Nat) :
   ((l.foldl (fun s k => endMove k d false s) s).gap).get k = if k ∈ l ∧ 1 ≤ k ∧ k ≤ 8 then { s.gap.get k with move := .none } else s.gap.get k := by
  induction l generalizing s with
  | nil => simp
  | cons j l ih =>
    rw [List.foldl_cons, ih, endMove_level_gap]
    by_cases hj : 1 ≤ j ∧ j ≤ 8
    · rw [PerStand.get_set _ _ _ _ hj]
      by_cases hk : k = j
      · subst hk; simp [hj]
      · simp [hk]
    · rw [PerStand.set_outside _ _ _ hj]
      by_cases hk : k = j
      · subst hk; simp [hj]
      · simp [hk]

/-- A level change ends every move and HOLD (R121). -/
theorem endMovesLevel_gap (s : State) (k : Nat) (hk : 1 ≤ k ∧ k ≤ 8) : ((endMovesLevel s).gap).get k = { s.gap.get k with move := .none } := by
  unfold endMovesLevel
  rw [ended_gap, if_pos ⟨by simp [standNumbers]; omega, hk⟩]

theorem ends_none (l : List Nat) (d : AbortDetail) (s : State) (h : ∀ k, (s.gap.get k).move = .none) : l.foldl (fun s k => endMove k d false s) s = s := by
  induction l with
  | nil => rfl
  | cons j l ih => rw [List.foldl_cons, endMove_none _ _ _ _ (h j), ih]

/-- The end of HOLD at a stand (R113). -/
theorem endHold_eq (k : Nat) (s : State) : endHold k s = { s with gap := s.gap.set k { s.gap.get k with
    move := (match (s.gap.get k).move with | .hold _ => Move.none | m => m) } } := by
  unfold endHold
  generalize hm : (s.gap.get k).move = m
  have h : ({ s.gap.get k with move := m } : Reference) = s.gap.get k := by rw [← hm]
  cases m <;> first | rfl | exact congrArg (fun g => ({ s with gap := g } : State)) ((PerStand.set_get ..).symm.trans (by rw [← h]))

theorem endMove_copy (k : Nat) (d : AbortDetail) (b : Bool) (s : State) : (endMove k d b s).orders.copy = s.orders.copy := by
  unfold endMove retireLong
  (repeat' split) <;> rfl

theorem foldl_copy {α : Type} (f : State → α → State) (hf : ∀ s a, (f s a).orders.copy = s.orders.copy) (l : List α) (s : State) : (l.foldl f s).orders.copy = s.orders.copy := by
  induction l generalizing s with
  | nil => rfl
  | cons a l ih => rw [List.foldl_cons, ih, hf]

/-- Two reference records differ in the move alone. -/
def MoveOnly (r r' : Reference) : Prop := ∃ m, r' = { r with move := m }

theorem MoveOnly.refl (r : Reference) : MoveOnly r r := ⟨r.move, rfl⟩

theorem MoveOnly.trans {a b c : Reference} (h : MoveOnly a b) (g : MoveOnly b c) : MoveOnly a c := by
  obtain ⟨m, rfl⟩ := h; obtain ⟨m', rfl⟩ := g; exact ⟨m', rfl⟩

theorem withMove_only (s : State) (j k : Nat) (m : Move) : MoveOnly (s.gap.get k) ((s.withMove j m).gap.get k) := by
  rw [withMove_gap]
  by_cases hj : 1 ≤ j ∧ j ≤ 8
  · rw [PerStand.get_set _ _ _ _ hj]
    split
    · subst_vars; exact ⟨m, rfl⟩
    · exact .refl _
  · rw [PerStand.set_outside _ _ _ hj]; exact .refl _

theorem endMove_only (s : State) (j k : Nat) (d : AbortDetail) (b : Bool) : MoveOnly (s.gap.get k) ((endMove j d b s).gap.get k) := by
  unfold endMove
  split
  · exact .refl _
  · refine MoveOnly.trans ?_ (withMove_only _ j k _); rw [(retireLong_keeps _ _ _).2.2.2.2.2.2.2.2.2.2.2.2.2.2.2.2.1]; exact .refl _
  · split
    · exact .refl _
    · exact withMove_only _ j k _
  · refine MoveOnly.trans ?_ (withMove_only _ j k _); rw [(retireLong_keeps _ _ _).2.2.2.2.2.2.2.2.2.2.2.2.2.2.2.2.1]; exact .refl _
  · refine MoveOnly.trans ?_ (withMove_only _ j k _); rw [(retireLong_keeps _ _ _).2.2.2.2.2.2.2.2.2.2.2.2.2.2.2.2.1]; exact .refl _

theorem endMoves_only (l : List Nat) (s : State) (k : Nat) (d : AbortDetail) (b : Bool) : MoveOnly (s.gap.get k) ((l.foldl (fun s k => endMove k d b s) s).gap.get k) := by
  induction l generalizing s with
  | nil => exact .refl _
  | cons j l ih => exact (endMove_only s j k d b).trans (ih _)

/-! ### Causes -/

theorem recordCause_gap (c : Cause) (k : Nat) (time : Clock) (s : State) : (recordCause c k time s).gap = s.gap := by simp

theorem takeCause_gap_none (c : Cause) (k : Nat) (time : Clock) (s : State) (h : ∀ k, (s.gap.get k).move = .none) :
    (takeCause c k time s).gap = s.gap := by
  unfold takeCause
  dsimp only
  split
  · rw [rewriteTripArea_gap]
    unfold applyEntry
    dsimp only
    rw [ends_none _ _ _ (by simpa using h)]
    simp
  · simp

/-- Recording a cause leaves the latch set (R130, step 3). -/
theorem recordCause_latch (c : Cause) (k : Nat) (time : Clock) (s : State) : (recordCause c k time s).trip.latch = true := by
  rw [recordCause_trip]
  (repeat' split) <;> simp_all

theorem takeCause_trip (c : Cause) (k : Nat) (time : Clock) (s : State) :
  (takeCause c k time s).trip.latch = true ∧ (takeCause c k time s).trip.causes = (recordCause c k time s).trip.causes ∧ (takeCause c k time s).trip.overflow = (recordCause c k time s).trip.overflow := by
  have hf : ∀ (l : List Nat) (u : State), (l.foldl (fun s k => endMove k .trip false s) u).trip = u.trip := fun l u => foldl_keeps (·.trip) (by simp) l u
  unfold takeCause
  dsimp only
  split
  · unfold applyEntry; dsimp only
    rw [rewriteTripArea_trip, hf]
    exact ⟨recordCause_latch .., rfl, rfl⟩
  · rw [rewriteTripArea_trip]
    exact ⟨recordCause_latch .., rfl, rfl⟩

/-- A cause taken is in the list, or overflow is set (R130, R131). -/
theorem recordCause_has (c : Cause) (k : Nat) (time : Clock) (s : State) :
  (recordCause c k time s).trip.overflow = true ∨ ∃ e ∈ (recordCause c k time s).trip.causes, e.cause = c ∧ e.stand = k := by
  rw [recordCause_trip]
  split
  · right; exact ⟨_, List.mem_singleton.mpr rfl, rfl, rfl⟩
  · split
    · next h =>
      right
      unfold isDuplicate at h
      rw [List.any_eq_true] at h
      obtain ⟨e, he, h⟩ := h
      exact ⟨e, he, by simpa using h⟩
    · split
      · right; exact ⟨_, List.mem_append_right _ (List.mem_singleton.mpr rfl), rfl, rfl⟩
      · left; rfl

theorem takeCause_copy (c : Cause) (k : Nat) (time : Clock) (s : State) : (takeCause c k time s).orders.copy = s.orders.copy := by
  unfold takeCause
  split
  · show (applyEntry _ _ _).orders.copy = _
    unfold applyEntry
    simp only []
    rw [foldl_copy _ (fun s k => endMove_copy k .trip false s)]
    show (recordCause c k time s).orders.copy = _
    simp
  · show (recordCause c k time s).orders.copy = _
    simp

theorem takeCause_causes (c : Cause) (k : Nat) (time : Clock) (s : State) : (takeCause c k time s).trip.causes = (recordCause c k time s).trip.causes ∧ (takeCause c k time s).trip.latch = (recordCause c k time s).trip.latch := by
  unfold takeCause
  split
  · rename_i e he
    have h : ∀ (l : List Nat) (s : State), (l.foldl (fun s k => endMove k .trip false s) s).trip = s.trip := by
      intro l; induction l with
      | nil => exact fun _ => rfl
      | cons a l ih => intro s; rw [List.foldl_cons, ih]; simp
    have hx : (applyEntry e (standSet e.cascade k s.n) (recordCause c k time s)).trip.causes = (recordCause c k time s).trip.causes ∧ (applyEntry e (standSet e.cascade k s.n) (recordCause c k time s)).trip.latch = (recordCause c k time s).trip.latch := by
      unfold applyEntry; simp only []; rw [h]; exact ⟨rfl, rfl⟩
    exact hx
  · exact ⟨rfl, rfl⟩

/-- The list grows by one where the cause is recorded as a new entry (R130, R131). -/
theorem record_count (c : Cause) (k : Nat) (time : Clock) (s : State) : (recordCause c k time s).trip.latch = true ∧
   (recordCause c k time s).trip.causes.length = (if s.trip.latch then s.trip.causes.length else 0) + bit (isRecorded s c k) := by
  unfold recordCause isRecorded
  simp only []
  cases hl : s.trip.latch
  · simp [bit]
  · simp only [Bool.true_eq_false, if_false]
    split
    · rename_i h; simp [h, hl, bit]
    · rename_i h
      split
      · rename_i h'; simp [h, h', bit]
      · rename_i h'; simp [h', bit]

theorem raise_count (ks : List Nat) (time : Clock) (s : State) (n : Nat) : ∃ m, ks.foldl (fun a k => (takeCause .ordered k time a.1, a.2 + bit (isRecorded a.1 .ordered k))) (s, n)
   = (ks.foldl (fun s k => takeCause .ordered k time s) s, n + m) ∧ (ks ≠ [] → (ks.foldl (fun s k => takeCause .ordered k time s) s).trip.latch = true ∧
   (ks.foldl (fun s k => takeCause .ordered k time s) s).trip.causes.length = (if s.trip.latch then s.trip.causes.length else 0) + m) := by
  induction ks generalizing s n with
  | nil => exact ⟨0, rfl, fun h => absurd rfl h⟩
  | cons a l ih =>
    obtain ⟨m, h1, h2⟩ := ih (takeCause .ordered a time s) (n + bit (isRecorded s .ordered a))
    have hr := record_count .ordered a time s
    have hc := takeCause_causes .ordered a time s
    refine ⟨bit (isRecorded s .ordered a) + m, ?_, ?_⟩
    · rw [List.foldl_cons, List.foldl_cons, h1]; congr 1; omega
    · intro _
      rw [List.foldl_cons]
      by_cases hl : l = []
      · subst hl
        have : m = 0 := by
          have := congrArg Prod.snd h1
          simpa using this.symm
        rw [List.foldl_nil, hc.1, hc.2, hr.1, hr.2, this]; exact ⟨rfl, by omega⟩
      · obtain ⟨g1, g2⟩ := h2 hl
        refine ⟨g1, ?_⟩
        rw [g2, hc.1, hc.2, hr.1, hr.2]; simp; omega

theorem takeCause_only (c : Cause) (j k : Nat) (time : Clock) (s : State) : MoveOnly (s.gap.get k) ((takeCause c j time s).gap.get k) := by
  unfold takeCause
  dsimp only
  rw [rewriteTripArea_gap]
  split
  · unfold applyEntry; dsimp only
    refine MoveOnly.trans ?_ (endMoves_only _ _ k _ _)
    first | exact .refl _ | (simp; exact .refl _)
  · first | exact .refl _ | (simp; exact .refl _)

/-! ### Slots, flush, LEVEL_DROP -/

theorem freeSlot_slot (x y : Slot) (c : FreeCause) (time : Clock) (s : State) : (freeSlot x c time s).store.slot y = if y = x then {} else s.store.slot y := by
  unfold freeSlot
  rw [withSlot_store, (note_keeps _ _ _ _ _ _ _ _).2.2.2.2.2.2.2.2.2.2.2.2.2.2.2.2.2.2.1]
  cases x <;> cases y <;> rfl

theorem freeSlot_rest (x : Slot) (c : FreeCause) (time : Clock) (s : State) : (freeSlot x c time s).store.inForce = s.store.inForce ∧ (freeSlot x c time s).store.lastLoaded = s.store.lastLoaded := by
  unfold freeSlot
  cases x <;> simp [Store.withSlot]

theorem slotsFlushed_store (time : Clock) (s : State) : (∀ x, (slotsFlushed time s).store.slot x = if (s.store.slot x).state = .draining then {} else s.store.slot x) ∧
   (slotsFlushed time s).store.inForce = s.store.inForce ∧ (slotsFlushed time s).store.lastLoaded = s.store.lastLoaded := by
  unfold slotsFlushed
  simp only [List.foldl_cons, List.foldl_nil]
  by_cases ha : (s.store.slot .a).state = .draining
  · rw [if_pos ha]
    by_cases hb : (s.store.slot .b).state = .draining
    · rw [if_pos (by rw [freeSlot_slot, if_neg (by decide)]; exact hb)]
      refine ⟨fun x => ?_, by simp [freeSlot_rest], by simp [freeSlot_rest]⟩
      rw [freeSlot_slot, freeSlot_slot]
      cases x <;> simp [ha, hb]
    · rw [if_neg (by rw [freeSlot_slot, if_neg (by decide)]; exact hb)]
      refine ⟨fun x => ?_, by simp [freeSlot_rest], by simp [freeSlot_rest]⟩
      rw [freeSlot_slot]
      cases x <;> simp [ha, hb]
  · rw [if_neg ha]
    by_cases hb : (s.store.slot .b).state = .draining
    · rw [if_pos hb]
      refine ⟨fun x => ?_, by simp [freeSlot_rest], by simp [freeSlot_rest]⟩
      rw [freeSlot_slot]
      cases x <;> simp [ha, hb]
    · rw [if_neg hb]
      refine ⟨fun x => ?_, rfl, rfl⟩
      cases x <;> simp [ha, hb]

/-- What a flush leaves (R23, R72, R103). -/
theorem flush_parts (time : Clock) (s : State) :
  (flush time s).tracker = { s.tracker with
      zones := PerStand.all [], carry := PerStand.all 0, emptySpell := false,
      gen := { s.tracker.gen with running := false } } ∧
  (flush time s).gauge = { s.gauge with paired := 0, unpaired := 0, outCount := 0 } ∧
  (∀ x, (flush time s).store.slot x = if (s.store.slot x).state = .draining then {} else s.store.slot x) ∧
  (flush time s).store.inForce = s.store.inForce ∧ (flush time s).store.lastLoaded = s.store.lastLoaded ∧
  (flush time s).summary.map Summary.count = some ((s.summary.map Summary.count).getD 0 + 1) := by
  have h := slotsFlushed_store time (clearTally (clearPicture s))
  unfold flush
  refine ⟨by simp; rfl, by simp; rfl, ?_, ?_, ?_, ?_⟩
  · intro x; rw [rewriteSummary_store, h.1]; rfl
  · rw [rewriteSummary_store, h.2.1]; rfl
  · rw [rewriteSummary_store, h.2.2]; rfl
  · show some _ = _
    simp

/-- LEVEL_DROP is raised exactly when a stand of the line is not VACANT (R165, step 2). -/
theorem levelDrop_spec (s : State) (h : ∀ k, (s.gap.get k).move = .none) :
   (levelDrop s).gap = s.gap ∧ ((∀ k ∈ standsTo s.n, (s.thread k).state = .vacant) → levelDrop s = s) ∧
    ((∃ k ∈ standsTo s.n, (s.thread k).state ≠ .vacant) →
      (levelDrop s).trip.latch = true ∧ ((levelDrop s).trip.overflow = true ∨ ∃ e ∈ (levelDrop s).trip.causes, e.cause = .levelDrop ∧ e.stand = 0)) := by
  have ho : occupied s = true ↔ ∃ k ∈ standsTo s.n, (s.thread k).state ≠ .vacant := by
    unfold occupied State.vacant
    simp
  unfold levelDrop
  refine ⟨?_, fun hv => ?_, fun hv => ?_⟩
  · split
    · exact takeCause_gap_none _ _ _ _ h
    · rfl
  · rw [if_neg]
    rw [ho]
    rintro ⟨k, hk, hn⟩
    exact hn (hv k hk)
  · rw [if_pos (ho.mpr hv)]
    have := takeCause_trip .levelDrop 0 s.clock s
    rw [this.1, this.2.1, this.2.2]
    exact ⟨rfl, recordCause_has ..⟩

theorem ofStand_false (f : Nat → Bool) (h : ∀ k, f k = false) : PerStand.ofStand f = PerStand.all false := by
  simp [PerStand.ofStand, PerStand.all, h]

theorem linesDown_settled (s : State) (h : s.resetLow = true ∨ s.level ≠ .run) : s.settled.linesDown := by
  refine ⟨ofStand_false _ ?_, ofStand_false _ ?_, ?_⟩
  · intro k; unfold dstopOn; rcases h with h | h <;> simp [h]
  · intro k; unfold gopenOn; rcases h with h | h <;> simp [h]
  · show mstopOn s = false
    unfold mstopOn; rcases h with h | h <;> simp [h]

/-- A slot that a stand left is settled without touching the other (R102). -/
theorem settleLeft_store (y : Slot) (f : FreeCause) (time : Clock) (s : State) :
   (settleLeft y f time s).store.inForce = s.store.inForce ∧ (settleLeft y f time s).store.lastLoaded = s.store.lastLoaded ∧
   ∀ x, (x ≠ y ∨ ∃ k, 1 ≤ k ∧ k ≤ 8 ∧ s.store.inForce.get k = some x) → (settleLeft y f time s).store.slot x = s.store.slot x := by
  unfold settleLeft
  split
  · rename_i hn
    have hx : ∀ x, (x ≠ y ∨ ∃ k, 1 ≤ k ∧ k ≤ 8 ∧ s.store.inForce.get k = some x) → x ≠ y := by
      rintro x (h | ⟨k, h1, h2, h3⟩) rfl
      · exact h rfl
      · unfold Store.inForceNowhere at hn
        rw [List.all_eq_true] at hn
        have := hn (s.store.inForce.get k) (by
          have : k = 1 ∨ k = 2 ∨ k = 3 ∨ k = 4 ∨ k = 5 ∨ k = 6 ∨ k = 7 ∨ k = 8 := by omega
          rcases this with rfl|rfl|rfl|rfl|rfl|rfl|rfl|rfl <;> simp [PerStand.toList, PerStand.get])
        rw [h3] at this; simp at this
    split
    · refine ⟨by cases y <;> rfl, by cases y <;> rfl, fun x h => ?_⟩
      have := hx x h
      cases x <;> cases y <;> first | rfl | exact absurd rfl this
    · refine ⟨(freeSlot_rest _ _ _ _).1, (freeSlot_rest _ _ _ _).2, fun x h => ?_⟩
      rw [freeSlot_slot, if_neg (hx x h)]
  · exact ⟨rfl, rfl, fun _ _ => rfl⟩

theorem takeInForce_store (x : Slot) (s : State) : (takeInForce x s).store.inForce = s.store.inForce ∧ (takeInForce x s).store.lastLoaded = s.store.lastLoaded ∧
   (∀ y, (takeInForce x s).store.slot y = if y = x ∧ (s.store.slot x).state = .waiting then { s.store.slot x with state := .inForce } else s.store.slot y) := by
  unfold takeInForce
  split
  · rename_i h
    refine ⟨by cases x <;> rfl, by cases x <;> rfl, fun y => ?_⟩
    cases x <;> cases y <;> simp [h] <;> rfl
  · rename_i h
    refine ⟨rfl, rfl, fun y => by rw [if_neg (fun g => h g.2)]⟩

/-- A switch of one stand (R100). -/
theorem switch_spec (k : Nat) (x : Slot) (c : SwitchCause) (f : FreeCause) (time : Clock) (s : State) (hk : 1 ≤ k ∧ k ≤ 8) :
   (switchStand k x c f time s).store.inForce = s.store.inForce.set k (some x) ∧
   (switchStand k x c f time s).store.lastLoaded = s.store.lastLoaded ∧
   (switchStand k x c f time s).store.slot x = (if (s.store.slot x).state = .waiting then { s.store.slot x with state := .inForce } else s.store.slot x) ∧
   (∀ j, j ≠ k → (switchStand k x c f time s).gap.get j = s.gap.get j) ∧
   ∃ mon mv, (switchStand k x c f time s).gap.get k = { s.gap.get k with ff := limit (s.gap.get k).ff (((s.store.slot x).schedule.getD {}).stands.get k).ffLim, agc := limit (s.gap.get k).agc (((s.store.slot x).schedule.getD {}).stands.get k).agcLim, mon := mon, move := mv } ∧
     (mon = (s.gap.get k).mon ∨ ∃ l, mon = limit (s.gap.get k).mon l) := by
  let s1 : State := { s with store := { s.store with inForce := s.store.inForce.set k (some x) } }
  let s3 := note .scheduleSwitch k time ((endHold k (switchTerms k s1)).slotCoil x) (BitVec.ofNat 16 x.code) (BitVec.ofNat 16 (slotCode (s.slotAt k))) c.code (endHold k (switchTerms k s1))
  let s4 := match s.slotAt k with
    | some y => settleLeft y f time s3
    | none => s3
  have e : switchStand k x c f time s = takeInForce x s4 := rfl
  have hst : s3.store = s1.store := by
    show (note _ _ _ _ _ _ _ _).store = _
    simp
  have hin : s1.slotAt k = some x := by
    show (s.store.inForce.set k (some x)).get k = some x
    rw [PerStand.get_set_same _ _ _ hk]
  have h4 : s4.store.inForce = s1.store.inForce ∧ s4.store.lastLoaded = s.store.lastLoaded ∧ s4.store.slot x = s.store.slot x ∧ s4.gap = s3.gap := by
    show (match s.slotAt k with | some y => settleLeft y f time s3 | none => s3).store.inForce = _ ∧ (match s.slotAt k with | some y => settleLeft y f time s3 | none => s3).store.lastLoaded = _ ∧ (match s.slotAt k with | some y => settleLeft y f time s3 | none => s3).store.slot x = _ ∧ (match s.slotAt k with | some y => settleLeft y f time s3 | none => s3).gap = _
    generalize s.slotAt k = o
    cases o with
    | none => exact ⟨by rw [hst], by rw [hst], by rw [hst]; cases x <;> rfl, rfl⟩
    | some y =>
      have := settleLeft_store y f time s3
      refine ⟨by rw [this.1, hst], by rw [this.2.1, hst], ?_, ?_⟩
      · rw [this.2.2 x (Or.inr ⟨k, hk.1, hk.2, ?_⟩)]
        · rw [hst]; cases x <;> rfl
        · rw [hst]; exact hin
      · show (settleLeft y f time s3).gap = s3.gap
        simp
  have ht := takeInForce_store x s4
  have hg : (takeInForce x s4).gap = (endHold k (switchTerms k s1)).gap := by
    have : (takeInForce x s4).gap = s4.gap := by simp
    rw [this, h4.2.2.2]
    show (note _ _ _ _ _ _ _ _).gap = _
    simp
  have hsched : s1.sched k = ((s.store.slot x).schedule.getD {}).stands.get k := by
    unfold State.sched
    rw [hin]
    show (((s1.store.slot x).schedule.getD {})).stands.get k = _
    cases x <;> rfl
  have hg1 : ∀ j, j ≠ k → (endHold k (switchTerms k s1)).gap.get j = s.gap.get j := by
    intro j hj
    rw [endHold_eq]
    show ((switchTerms k s1).gap.set k _).get j = _
    rw [PerStand.get_set_other _ _ _ _ hj]
    show (s.gap.set k _).get j = _
    rw [PerStand.get_set_other _ _ _ _ hj]
  have hg2 : ∃ mon mv, (endHold k (switchTerms k s1)).gap.get k = { s.gap.get k with ff := limit (s.gap.get k).ff (s1.sched k).ffLim, agc := limit (s.gap.get k).agc (s1.sched k).agcLim, mon := mon, move := mv } ∧
     (mon = (s.gap.get k).mon ∨ ∃ l, mon = limit (s.gap.get k).mon l) := by
    rw [endHold_eq]
    refine ⟨if k = s1.n then limit (s.gap.get k).mon (s1.scheduleOf (s1.slotAt k)).monLim else (s.gap.get k).mon, (match (s.gap.get k).move with | .hold _ => Move.none | m => m), ?_, ?_⟩
    rotate_left
    · split
      · exact Or.inr ⟨_, rfl⟩
      · exact Or.inl rfl
    show ((switchTerms k s1).gap.set k _).get k = _
    rw [PerStand.get_set_same _ _ _ hk]
    have : (switchTerms k s1).gap.get k = { s.gap.get k with ff := limit (s.gap.get k).ff (s1.sched k).ffLim, agc := limit (s.gap.get k).agc (s1.sched k).agcLim, mon := if k = s1.n then limit (s.gap.get k).mon (s1.scheduleOf (s1.slotAt k)).monLim else (s.gap.get k).mon } := by
      show (s.gap.set k _).get k = _
      rw [PerStand.get_set_same _ _ _ hk]
    exact this ▸ rfl
  obtain ⟨mon, mv, hg2⟩ := hg2
  rw [e]
  refine ⟨by rw [ht.1, h4.1], by rw [ht.2.1, h4.2.1], ?_, ?_, mon, mv, ?_⟩
  · rw [ht.2.2, h4.2.2.1]; simp
  · intro j hj; rw [hg, hg1 j hj]
  · rw [hg, ← hsched]; exact hg2

/-- The switches of several stands (R99, R100). -/
theorem switches_spec (ks : List Nat) (x : Slot) (c : SwitchCause) (f : FreeCause) (time : Clock) (s : State) (rec : Schedule) (hks : ∀ k ∈ ks, 1 ≤ k ∧ k ≤ 8) (hnd : ks.Nodup)
   (hr : (s.store.slot x).schedule = some rec) :
   (switchStands ks x c f time s).store.lastLoaded = s.store.lastLoaded ∧
   ((switchStands ks x c f time s).store.slot x).coil = (s.store.slot x).coil ∧
   ((switchStands ks x c f time s).store.slot x).schedule = some rec ∧
   ((switchStands ks x c f time s).store.slot x).state = (if ks ≠ [] ∧ (s.store.slot x).state = .waiting then .inForce else (s.store.slot x).state) ∧
   (∀ k, 1 ≤ k ∧ k ≤ 8 → (switchStands ks x c f time s).slotAt k = if k ∈ ks then some x else s.slotAt k) ∧
   (∀ k, k ∉ ks → (switchStands ks x c f time s).gap.get k = s.gap.get k) ∧
   (∀ k ∈ ks, ((switchStands ks x c f time s).gap.get k).ff = limit (s.gap.get k).ff (rec.stands.get k).ffLim ∧
     ((switchStands ks x c f time s).gap.get k).agc = limit (s.gap.get k).agc (rec.stands.get k).agcLim ∧
     ((switchStands ks x c f time s).gap.get k).base = (s.gap.get k).base ∧ ((switchStands ks x c f time s).gap.get k).trim = (s.gap.get k).trim) := by
  induction ks generalizing s with
  | nil => exact ⟨rfl, rfl, hr, by simp [switchStands], fun _ _ => by simp [switchStands], fun _ _ => rfl, fun _ h => by cases h⟩
  | cons a l ih =>
    have hsp := switch_spec a x c f time s (hks a List.mem_cons_self)
    have hr' : ((switchStand a x c f time s).store.slot x).schedule = some rec := by
      rw [hsp.2.2.1]; split <;> exact hr
    have := ih (switchStand a x c f time s) (fun k hk => hks k (List.mem_cons_of_mem _ hk)) (List.nodup_cons.1 hnd).2 hr'
    have e : switchStands (a :: l) x c f time s = switchStands l x c f time (switchStand a x c f time s) := rfl
    rw [e]
    obtain ⟨g1, g2, g3, g4, g5, g6, g7⟩ := this
    refine ⟨g1.trans hsp.2.1, ?_, g3, ?_, ?_, ?_, ?_⟩
    · rw [g2, hsp.2.2.1]; split <;> rfl
    · rw [g4, hsp.2.2.1]
      cases hw : (s.store.slot x).state <;> simp [hw]
    · intro k hk
      rw [g5 k hk]
      unfold State.slotAt
      rw [hsp.1]
      by_cases hka : k = a
      · subst hka; rw [PerStand.get_set_same _ _ _ hk]; simp
      · rw [PerStand.get_set_other _ _ _ _ hka]; simp [hka]
    · intro k hk
      rw [g6 k (fun h => hk (List.mem_cons_of_mem _ h)), hsp.2.2.2.1 k (fun h => hk (h ▸ List.mem_cons_self))]
    · intro k hk
      rcases List.mem_cons.1 hk with rfl | hk
      · have hn := (List.nodup_cons.1 hnd).1
        rw [g6 k hn]
        obtain ⟨_, _, _, _, mon, mv, h1, _⟩ := hsp
        rw [hr] at h1
        rw [h1]
        exact ⟨rfl, rfl, rfl, rfl⟩
      · have hn : k ≠ a := fun h => (List.nodup_cons.1 hnd).1 (h ▸ hk)
        have := g7 k hk
        rw [hsp.2.2.2.1 k hn] at this
        exact this

theorem reach_ok (n : Nat) : (standsTo n).Nodup ∧ ∀ k ∈ standsTo n, 1 ≤ k ∧ k ≤ 8 :=
  ⟨(by decide : standNumbers.Nodup).sublist (List.take_sublist _ _), fun k hk => by have := (mem_standsTo _ _).1 hk; omega⟩

/-! ### Tables (R57, R60) -/

theorem standsTo_nodup (n : Nat) : (standsTo n).Nodup := (by decide : standNumbers.Nodup).sublist (List.take_sublist _ _)

/-- A pending table applied (R57). -/
theorem applyPending_est (k reason : Nat) (time : Clock) (s : State) :
   (applyPending k reason time s).est = match (s.est.get k).pendingTable with
     | some t => s.est.set k { s.est.get k with table := some t, mode := .lookup, pendingTable := none }
     | none => s.est := by
  unfold applyPending
  split
  · next t h =>
    unfold applyTable
    dsimp only
    try rw [h]
    have hk : 1 ≤ k ∧ k ≤ 8 := by
      by_contra hc
      rw [PerStand.get_outside _ _ hc] at h
      cases h
    rw [(note_keeps _ _ _ _ _ _ _ _).2.2.2.2.2.2.2.2.2.2.2.2.2.2.2.1]
    simp only [withEst_est]
    rw [PerStand.get_set_same _ _ _ hk]
    apply PerStand.ext_get
    intro j hj
    rw [PerStand.get_set _ _ _ _ hk, PerStand.get_set _ _ _ _ hk, PerStand.get_set _ _ _ _ hk]
    split <;> rfl
  · next h => simp only [h]

theorem applied_est (l : List Nat) (reason : Nat) (time : State → Clock) (s : State) (hl : l.Nodup) (hin : ∀ k ∈ l, 1 ≤ k ∧ k ≤ 8) (j : Nat) :
   (l.foldl (fun s k => applyPending k reason (time s) s) s).est.get j =
     if j ∈ l then (match (s.est.get j).pendingTable with
       | some t => { s.est.get j with table := some t, mode := .lookup, pendingTable := none }
       | none => s.est.get j) else s.est.get j := by
  induction l generalizing s with
  | nil => simp
  | cons k l ih =>
    have hk := hin k (List.mem_cons_self ..)
    rw [List.foldl_cons, ih _ (List.nodup_cons.mp hl).2 (fun j hj => hin j (List.mem_cons_of_mem _ hj)), applyPending_est]
    have hkl := (List.nodup_cons.mp hl).1
    by_cases hj : j = k
    · subst hj
      rw [if_neg hkl, if_pos (List.mem_cons_self ..)]
      split
      · rw [PerStand.get_set_same _ _ _ hk]
      · rfl
    · have e : ∀ (x : PerStand Estimate), (x = s.est ∨ ∃ v, x = s.est.set k v) → x.get j = s.est.get j := by
        rintro x (rfl | ⟨v, rfl⟩)
        · rfl
        · exact PerStand.get_set_other _ _ _ _ hj
      rw [e _ (by split; exact .inr ⟨_, rfl⟩; exact .inl rfl)]
      simp [hj]

theorem loaded_est (l : List Nat) (s : State) (hl : l.Nodup) (hin : ∀ k ∈ l, 1 ≤ k ∧ k ≤ 8) (j : Nat) :
   (l.foldl (fun s k => loadInitial k s) s).est.get j =
     if j ∈ l ∧ (s.est.get j).loaded = false then
       { s.est.get j with loaded := true, table := some (s.lineCopy.stands.get j).table, z := (s.lineCopy.stands.get j).z, zst := (s.lineCopy.stands.get j).zst }
     else s.est.get j := by
  induction l generalizing s with
  | nil => simp
  | cons k l ih =>
    have hk := hin k (List.mem_cons_self ..)
    rw [List.foldl_cons, ih _ (List.nodup_cons.mp hl).2 (fun j hj => hin j (List.mem_cons_of_mem _ hj))]
    have hkl := (List.nodup_cons.mp hl).1
    have e0 : (loadInitial k s).lineCopy = s.lineCopy := by unfold State.lineCopy; simp
    have e1 : (loadInitial k s).est = if (s.est.get k).loaded = true then s.est else s.est.set k { s.est.get k with loaded := true, table := some (s.lineCopy.stands.get k).table, z := (s.lineCopy.stands.get k).z, zst := (s.lineCopy.stands.get k).zst } := by
      unfold loadInitial; dsimp only; split <;> simp [*]
    rw [e0, e1]
    by_cases hj : j = k
    · subst hj
      rw [if_neg (fun h => hkl h.1)]
      by_cases hld : (s.est.get j).loaded = true
      · simp [hld]
      · rw [if_neg hld, PerStand.get_set_same _ _ _ hk, if_pos ⟨List.mem_cons_self .., by simpa using hld⟩]
    · have e : (if (s.est.get k).loaded = true then s.est else s.est.set k { s.est.get k with loaded := true, table := some (s.lineCopy.stands.get k).table, z := (s.lineCopy.stands.get k).z, zst := (s.lineCopy.stands.get k).zst }).get j = s.est.get j := by
        split
        · rfl
        · exact PerStand.get_set_other _ _ _ _ hj
      rw [e]
      simp [hj]

/-- The Thickness Unit at RUN entry (R57, R60). -/
theorem thicknessRunEntry_est (s : State) (k : Nat) (hk : 1 ≤ k ∧ k ≤ 8) (l : LineDesc) (hl : s.line = some l) :
   let e := (thicknessRunEntry s).est.get k
   e.pendingTable = none ∧ e.mode = .lookup ∧ (k ≤ l.n → e.loaded = true ∧
          ((s.est.get k).loaded = false → e.z = (l.stands.get k).z ∧ e.zst = (l.stands.get k).zst ∧
            e.table = some ((s.est.get k).pendingTable.getD (l.stands.get k).table)) ∧
          ((s.est.get k).loaded = true → e.z = (s.est.get k).z ∧ e.zst = (s.est.get k).zst)) := by
  intro e
  have hn : s.n = l.n := by unfold State.n State.lineCopy; rw [hl]; rfl
  have hc : s.lineCopy = l := by unfold State.lineCopy; rw [hl]; rfl
  let s1 : State := { s with est := s.est.map fun e => { e with mode := .lookup } }
  let s2 := (standsTo s.n).foldl (fun s k => loadInitial k s) s1
  let s3 := (standsTo s.n).foldl (fun s k => applyPending k 4 s.clock s) s2
  have hin : ∀ k ∈ standsTo s.n, 1 ≤ k ∧ k ≤ 8 := fun k hk => by rw [mem_standsTo] at hk; omega
  have hs2n : s2.n = s.n := by
    have : s2.line = s.line := foldl_keeps (·.line) (by simp) _ _
    unfold State.n State.lineCopy; rw [this]
  have hs3n : s3.n = s.n := by
    have : s3.line = s2.line := foldl_keeps (·.line) (by simp) _ _
    rw [← hs2n]; unfold State.n State.lineCopy; rw [this]
  have he : e = if k ≤ s.n then s3.est.get k else { s3.est.get k with pendingTable := none } := by
    show ((thicknessRunEntry s).est).get k = _
    unfold thicknessRunEntry
    exact PerStand.get_ofStand (fun k => if k ≤ s.n then s3.est.get k else { s3.est.get k with pendingTable := none }) k hk
  have h1 : s1.est.get k = { s.est.get k with mode := .lookup } := PerStand.get_map _ _ _ hk
  have h2 : s2.est.get k = _ := loaded_est _ s1 (standsTo_nodup _) hin k
  have h3 : s3.est.get k = _ := applied_est (standsTo s.n) 4 (·.clock) s2 (standsTo_nodup _) hin k
  have hm : k ∈ standsTo s.n ↔ k ≤ l.n := by rw [mem_standsTo, hn]; omega
  have hc1 : s1.lineCopy = l := hc
  rw [hc1, h1] at h2
  simp only [hm] at h2 h3
  rw [h2] at h3
  rw [h3, hn] at he
  rw [he]
  by_cases hkn : k ≤ l.n
  · simp only [if_pos hkn]
    by_cases hld : (s.est.get k).loaded = true
    · simp only [hld]
      cases hp : (s.est.get k).pendingTable <;> simp [hkn]
    · have hld' : (s.est.get k).loaded = false := by simpa using hld
      simp only [hld']
      cases hp : (s.est.get k).pendingTable <;> simp [hkn]
  · simp only [if_neg hkn]
    simp [hkn]

end Sys2Proof.Machine
end

