-- ==== Sys2Proof/Laws/Work.lean ====
section
/-! SUPPORT. The Tracker's work on a reply, walked through once (R6 to R41): a property that its elementary pieces keep, the
whole of it keeps. -/

namespace Sys2Proof.Machine

/-- Every elementary piece of the Tracker's work keeps the property `P`. -/
structure TrackKeeps (P : State → Prop) : Prop where
  thread : ∀ t k x, P t → P (t.withThread k x)
  gen : ∀ t g, P t → P (withGen g t)
  carry : ∀ t c, P t → P (t.withTracker { t.tracker with carry := c })
  raise : ∀ t c k, P t → P (raiseCause c k t)
  note : ∀ t kd k tm c v1 v2 v3, P t → P (note kd k tm c v1 v2 v3 t)
  skip : ∀ t kd, P t → P (skipCut kd t)
  cut : ∀ t kd x, P t → P (cutMark kd x t)
  depart : ∀ t k m q, t.zone k = m :: q → P t → P (departMark k m q t)
  pass : ∀ t k m q, t.zone k = m :: q → k < t.n ∨ k + 1 ≤ 8 → P t → P (passMark k m q t)
  hold : ∀ t k m q x, t.zone k = m :: q → P t → P (holdMark k m q x t)
  behind : ∀ t k, P t → P (arriveBehind k t)
  move : ∀ t k q d p m x, t.zone k = m :: q → P t → P (t.withZone k ({ m with pos := x } :: advanceBehind d p q))
  mode : ∀ t k m, P t → P (setMode k m t)
  table : ∀ t k, P t → P (thicknessRelease k t)
  terms : ∀ t k, P t → P (clearTerms k t)
  lock : ∀ t k, P t → P (captureLock k t)
  leave : ∀ t k, P t → P (leaveVacant k t)
  switch : ∀ t k, P t → P (releaseSwitch k t)
  summary : ∀ t, P t → P (rewriteSummary t)

/-- No mark is in a zone that is not of the part. -/
theorem zone_outside (s : State) (k : Nat) (h : ¬(1 ≤ k ∧ k ≤ 8)) : s.zone k = [] := PerStand.get_outside _ _ h

/-- A number that names no stand of the part has the record of a stand never used. -/
theorem thread_outside (s : State) (k : Nat) (h : ¬(1 ≤ k ∧ k ≤ 8)) : s.thread k = {} := PerStand.get_outside _ _ h

theorem prop_ite {P : State → Prop} {c : Prop} [Decidable c] {a b : State} (h : P a) (g : P b) : P (if c then a else b) := by
  split <;> assumption

namespace TrackKeeps
variable {P : State → Prop} (K : TrackKeeps P) {t : State}
include K

theorem arrive : ∀ (fuel k extra : Nat) (t : State), P t → P (arrive fuel k extra t).1 := by
  intro fuel
  induction fuel with
  | zero => exact fun _ _ _ h => h
  | succ n ih =>
    intro k x t h
    unfold Machine.arrive
    split
    · exact h
    · rename_i m q hz
      split
      · exact K.depart _ _ _ _ hz h
      · have hp := K.pass t k m q hz (.inl (by omega)) h
        split
        · dsimp only
          split
          · exact ih _ _ _ hp
          · exact K.behind _ _ hp
        · exact K.hold _ _ _ _ _ hz h

theorem passFront {k} (hk : k + 1 ≤ 8) (h : P t) : P (passFront k t) := by
  unfold Machine.passFront
  split
  · exact h
  · rename_i m q hz
    have hp := K.pass t k m q hz (.inr hk) h
    exact prop_ite (K.arrive _ _ _ _ hp) (K.behind _ _ hp)

theorem entryLoop : ∀ (fuel k : Nat) (t : State), P t → P (entryLoop fuel k t) := by
  intro fuel
  induction fuel with
  | zero => exact fun _ _ h => h
  | succ n ih =>
    intro k t h
    unfold Machine.entryLoop
    split
    · exact h
    · refine prop_ite ?_ h
      dsimp only
      exact prop_ite (ih _ _ (K.arrive _ _ _ _ h)) (K.arrive _ _ _ _ h)

theorem advanceWalk : ∀ (fuel k dL : Nat) (t : State), P t → P (advanceWalk fuel k dL t) := by
  intro fuel
  induction fuel with
  | zero => exact fun _ _ _ h => h
  | succ n ih =>
    intro k d t h
    unfold Machine.advanceWalk
    split
    · exact h
    · rename_i m q hz
      refine prop_ite (K.move _ _ _ _ _ _ _ hz h) ?_
      dsimp only
      refine prop_ite (ih _ _ _ (K.arrive _ _ _ _ h)) ?_
      split
      · exact K.arrive _ _ _ _ h
      · rename_i held behind hz'
        exact K.move _ _ _ _ _ held held.pos hz' (K.arrive _ _ _ _ h)

theorem advanceZone {k v dt} (h : P t) : P (advanceZone k v dt t).1 := by
  unfold Machine.advanceZone
  split
  · exact h
  · exact K.advanceWalk _ _ _ _ (K.carry _ _ h)

theorem cutHead (h : P t) : P (cutHead t) := by
  unfold Machine.cutHead
  have hc := K.cut t .head 0 h
  exact prop_ite (K.gen _ _ (prop_ite (K.arrive _ _ _ _ hc) (K.behind _ _ hc))) (K.gen _ _ (K.skip _ _ h))

theorem cutBody {x} (h : P t) : P (cutBody x t) := by
  unfold Machine.cutBody
  refine prop_ite ?_ (K.skip _ _ h)
  split
  · exact K.cut _ _ _ h
  · exact prop_ite (K.arrive _ _ _ _ (K.cut _ _ _ h)) (K.cut _ _ _ h)

theorem cutLoop : ∀ (fuel : Nat) (t : State), P t → P (cutLoop fuel t) := by
  intro fuel
  induction fuel with
  | zero => exact fun _ h => h
  | succ n ih => intro t h; unfold Machine.cutLoop; exact prop_ite (ih _ (K.gen _ _ (K.cutBody h))) h

theorem countDown {d} (h : P t) : P (countDown d t) := prop_ite (K.cutLoop _ _ (K.gen _ _ h)) h

theorem generatorWork {f d} (h : P t) : P (generatorWork f d t) := prop_ite h (K.countDown h)

theorem cutTail (h : P t) : P (cutTail t) := K.gen _ _ (prop_ite (K.cut _ _ _ h) (K.skip _ _ h))

theorem takeNotices {k} (h : P t) : P (takeNotices k t) := by
  have h1 : P (takeReleaseNotice k t) := prop_ite (K.thread _ _ _ h) h
  unfold Machine.takeNotices takeHeadNotice; dsimp only
  split
  · exact h1
  · exact prop_ite (K.leave _ _ (K.thread _ _ _ h1)) (K.thread _ _ _ h1)

theorem noticesAndRuns {k f} (h : P t) : P (noticesAndRuns k f t) := K.thread _ _ _ (K.takeNotices h)

theorem clearRuns {k} (h : P t) : P (clearRuns k t) := K.thread _ _ _ h

theorem setHeadNotices {c} (h : P t) : P (setHeadNotices c t) := by
  unfold Machine.setHeadNotices
  generalize (standsTo t.n).drop 1 = l
  induction l generalizing t with
  | nil => exact h
  | cons a l ih => exact ih (K.thread _ _ _ h)

theorem bite1 (h : P t) : P (bite1 t) := by
  unfold Machine.bite1
  extract_lets un room id s1 s2 s3
  have h0 : P (forgetAnnouncement t) := prop_ite (K.thread _ _ _ h) h
  have h1 : P s1 := K.cutHead (K.thread _ _ _ h0)
  have h2 : P s2 := prop_ite (K.setHeadNotices h1) h1
  have h3 : P s3 := K.mode _ _ _ (prop_ite (K.note _ _ _ _ _ _ _ _ (K.note _ _ _ _ _ _ _ _ h2))
    (K.note _ _ _ _ _ _ _ _ h2))
  exact prop_ite (K.leave _ _ h3) h3

theorem noteCorrected {k m} (h : P t) : P (noteCorrected k m t) := prop_ite h (K.note _ _ _ _ _ _ _ _ h)

theorem biteHead {k m} (hk : k - 1 + 1 ≤ 8) (h : P t) : P (biteHead k m t) := by
  unfold Machine.biteHead
  extract_lets s1 t1 s2 s3 t3 s4
  have h2 : P s2 := K.passFront hk (K.thread _ _ _ (K.thread _ _ _ (K.noteCorrected h)))
  have h3 : P s3 := K.entryLoop _ _ _ h2
  have h4 : P s4 := prop_ite (K.thread _ _ _ h3) h3
  exact K.mode _ _ _ (K.note _ _ _ _ _ _ _ _ h4)

theorem loadOnAt {k} (h : P t) : P (loadOnAt k t) := by
  unfold Machine.loadOnAt
  refine prop_ite (K.bite1 h) ?_
  split
  · exact K.raise _ _ _ h
  · rename_i hv
    split
    · refine K.biteHead ?_ h
      by_cases hk : 1 ≤ k ∧ k ≤ 8
      · omega
      · exfalso; apply hv; unfold State.vacant; rw [thread_outside _ _ hk]; rfl
    · exact K.raise _ _ _ h

theorem advanceLock {k} (h : P t) : P (advanceLock k t) :=
  prop_ite (K.lock _ _ (K.thread _ _ _ h)) (prop_ite (K.thread _ _ _ h) h)

theorem stateAfterRelease {k} (h : P t) : P (stateAfterRelease k t) := by
  unfold Machine.stateAfterRelease; dsimp only
  refine prop_ite (K.thread _ _ _ h) ?_
  split
  · exact K.thread _ _ _ h
  · exact prop_ite (K.thread _ _ _ h) (K.thread _ _ _ h)

theorem releaseWork {k c i} (h : P t) : P (releaseWork k c i t) := by
  have h1 := K.switch _ k (K.table _ k (K.terms _ k (K.thread _ k { t.thread k with lockCount := 0, lockMade := false } h)))
  exact K.note _ _ _ _ _ _ _ _ (prop_ite (K.thread _ _ _ h1) h1)

theorem loadOffAt {k} (h : P t) : P (loadOffAt k t) := by
  unfold Machine.loadOffAt
  refine prop_ite (K.releaseWork (K.stateAfterRelease (K.cutTail h))) ?_
  split
  · exact K.raise _ _ _ h
  · rename_i hv
    split
    · refine K.releaseWork (K.entryLoop _ _ _ (K.stateAfterRelease (K.passFront ?_ (K.noteCorrected h))))
      by_cases hk : 1 ≤ k ∧ k ≤ 8
      · omega
      · exfalso; apply hv; rw [thread_outside _ _ hk]; decide
    · exact K.raise _ _ _ h

theorem threadingWork {k f} (h : P t) : P (threadingWork k f t) := by
  have h1 : P (Machine.noticesAndRuns k f t) := K.noticesAndRuns h
  exact prop_ite (K.loadOnAt (K.clearRuns h1)) (prop_ite (K.loadOffAt (K.clearRuns h1)) (K.advanceLock h1))

theorem summaryAfter {b} (h : P t) : P (summaryAfter b t) := prop_ite h (K.summary _ h)

theorem trackerWork {k f v dt} (h : P t) : P (trackerWork k f v dt t) := by
  unfold Machine.trackerWork
  refine prop_ite ?_ h
  exact K.summaryAfter (K.threadingWork (prop_ite (K.generatorWork (K.advanceZone h)) (K.advanceZone h)))

end TrackKeeps
end Sys2Proof.Machine
end

