-- ==== Sys2Proof/Laws/Beside.lean ====
section
/-! SUPPORT. What the blocks' work on a delivered reply leaves alone, whatever it does: the link, the clock, the stand
images, the line description copy, the level, readiness, and the figures of every estimate (R153). -/

namespace Sys2Proof.Machine

/-- The figures a reply gives an estimate (R47): all of it but the band mode, the tables and the zero. -/
def Estimate.figures (e : Estimate) : Nat × Nat × Int × Nat × Nat × Nat × Bool :=
  (e.p, e.f, e.gapAct, e.band, e.stretch, e.hEst, e.clamped)

/-- An estimate with the figures of another is that one but for the band mode, the tables and the zero. -/
theorem Estimate.eq_of_figures {a b : Estimate} (h : a.figures = b.figures) : a = { b with
    loaded := a.loaded, table := a.table, pendingTable := a.pendingTable, mode := a.mode, z := a.z, zst := a.zst } := by
  cases a; cases b; simp_all [Estimate.figures]

/-- From `s` to `t` the work on a reply left alone what it does not own: the link's records and cycle, the clock, the stand
images, the line description copy, the level, readiness, and the figures of every stand's estimate. -/
structure Beside (s t : State) : Prop where
  link : t.link = s.link
  clock : t.clock = s.clock
  cycleClock : t.cycleClock = s.cycleClock
  images : t.images = s.images
  line : t.line = s.line
  level : t.level = s.level
  ready : t.trip.ready = s.trip.ready
  figs : ∀ k, (t.est.get k).figures = (s.est.get k).figures

namespace Beside
variable {s t : State}

theorem refl (s : State) : Beside s s := ⟨rfl, rfl, rfl, rfl, rfl, rfl, rfl, fun _ => rfl⟩

theorem trans {a b c : State} (h : Beside a b) (g : Beside b c) : Beside a c :=
  ⟨g.link.trans h.link, g.clock.trans h.clock, g.cycleClock.trans h.cycleClock, g.images.trans h.images,
    g.line.trans h.line, g.level.trans h.level, g.ready.trans h.ready,
    fun k => (g.figs k).trans (h.figs k)⟩

/-- A step that keeps every estimate. -/
theorem keep {u : State} (h : Beside s t) (h1 : u.link = t.link) (h2 : u.clock = t.clock) (h3 : u.cycleClock = t.cycleClock)
    (h4 : u.images = t.images) (h5 : u.line = t.line) (h6 : u.level = t.level) (h7 : u.trip.ready = t.trip.ready)
    (h8 : u.est = t.est) : Beside s u :=
  h.trans ⟨h1, h2, h3, h4, h5, h6, h7, fun k => by rw [h8]⟩

theorem ite {c : Prop} [Decidable c] {a b : State} (h : Beside s a) (g : Beside s b) : Beside s (if c then a else b) := by
  split
  · exact h
  · exact g

theorem foldl {α : Type} {f : State → α → State} (hf : ∀ t a, Beside s t → Beside s (f t a)) (l : List α) :
    ∀ t, Beside s t → Beside s (l.foldl f t) := by
  induction l with
  | nil => exact fun _ h => h
  | cons a l ih => exact fun t h => ih _ (hf t a h)

theorem withEst {k e} (h : Beside s t) (he : e.figures = (t.est.get k).figures) :
    Beside s (t.withEst k e) := by
  refine h.trans ⟨rfl, rfl, rfl, rfl, rfl, rfl, rfl, fun j => ?_⟩
  show ((t.est.set k e).get j).figures = _
  by_cases hk : 1 ≤ k ∧ k ≤ 8
  · rw [PerStand.get_set _ _ _ _ hk]
    split
    · subst_vars; exact he
    · rfl
  · rw [PerStand.set_outside _ _ _ hk]

theorem withTracker {x} (h : Beside s t) : Beside s (t.withTracker x) := h.keep rfl rfl rfl rfl rfl rfl rfl rfl
theorem withThread {k x} (h : Beside s t) : Beside s (t.withThread k x) := h.withTracker
theorem withZone {k x} (h : Beside s t) : Beside s (t.withZone k x) := h.withTracker
theorem withGen {g} (h : Beside s t) : Beside s (withGen g t) := h.withTracker
theorem withRef {k r} (h : Beside s t) : Beside s (t.withRef k r) := h.keep rfl rfl rfl rfl rfl rfl rfl rfl
theorem withMove {k m} (h : Beside s t) : Beside s (t.withMove k m) := h.withRef
theorem raiseCause {c k} (h : Beside s t) : Beside s (raiseCause c k t) := h.withTracker
theorem note {kd k tm c v1 v2 v3} (h : Beside s t) : Beside s (note kd k tm c v1 v2 v3 t) := by
  apply h.keep <;> simp
theorem retireLong {k r} (h : Beside s t) : Beside s (retireLong k r t) := by apply h.keep <;> simp
theorem endMove {k d b} (h : Beside s t) : Beside s (endMove k d b t) := by apply h.keep <;> simp
theorem endHold {k} (h : Beside s t) : Beside s (endHold k t) := by apply h.keep <;> simp
theorem leaveVacant {k} (h : Beside s t) : Beside s (leaveVacant k t) := by apply h.keep <;> simp
theorem ffUpdate {k m} (h : Beside s t) : Beside s (ffUpdate k m t) := by apply h.keep <;> simp
theorem pairMark {m} (h : Beside s t) : Beside s (pairMark m t) := by apply h.keep <;> simp
theorem passMark {k m q} (h : Beside s t) : Beside s (passMark k m q t) := by apply h.keep <;> simp
theorem holdMark {k m q x} (h : Beside s t) : Beside s (holdMark k m q x t) := by apply h.keep <;> simp
theorem arriveBehind {k} (h : Beside s t) : Beside s (arriveBehind k t) := by
  rcases arriveBehind_cases k t with e | ⟨q, x, -, e | e⟩ <;> rw [e]
  · exact h
  · exact h.withZone
  · exact h.withZone.raiseCause
theorem departMark {k m q} (h : Beside s t) : Beside s (departMark k m q t) := by apply h.keep <;> simp
theorem releaseSwitch {k} (h : Beside s t) : Beside s (releaseSwitch k t) := by apply h.keep <;> simp
theorem captureLock {k} (h : Beside s t) : Beside s (captureLock k t) := by apply h.keep <;> simp
theorem clearTerms {k} (h : Beside s t) : Beside s (clearTerms k t) := by apply h.keep <;> simp
theorem skipCut {kd} (h : Beside s t) : Beside s (skipCut kd t) := by apply h.keep <;> simp
theorem cutMark {kd x} (h : Beside s t) : Beside s (cutMark kd x t) := by apply h.keep <;> simp
theorem firstBase {k} (h : Beside s t) : Beside s (firstBase k t) := by apply h.keep <;> simp
theorem agcUpdate {k} (h : Beside s t) : Beside s (agcUpdate k t) := by apply h.keep <;> simp

theorem setMode {k m} (h : Beside s t) : Beside s (setMode k m t) := h.withEst rfl
theorem recordZero {k p} (h : Beside s t) : Beside s (recordZero k p t) := h.withEst rfl
theorem applyPending {k r tm} (h : Beside s t) : Beside s (applyPending k r tm t) := by
  unfold Machine.applyPending
  split
  · unfold applyTable
    refine note (withEst (withEst h rfl) rfl)
  · exact h
theorem thicknessRelease {k} (h : Beside s t) : Beside s (thicknessRelease k t) := applyPending h.setMode

/-- The Tracker's work leaves all of it alone. -/
theorem track (s : State) : TrackKeeps (Beside s) where
  thread _ _ _ h := h.withThread
  gen _ _ h := h.withGen
  carry _ _ h := h.withTracker
  raise _ _ _ h := h.raiseCause
  note _ _ _ _ _ _ _ _ h := h.note
  skip _ _ h := h.skipCut
  cut _ _ _ h := h.cutMark
  depart _ _ _ _ _ h := h.departMark
  pass _ _ _ _ _ _ h := h.passMark
  hold _ _ _ _ _ _ h := h.holdMark
  behind _ _ h := h.arriveBehind
  move _ _ _ _ _ _ _ _ h := h.withZone
  mode _ _ _ h := h.setMode
  table _ _ h := h.thicknessRelease
  terms _ _ h := h.clearTerms
  lock _ _ h := h.captureLock
  leave _ _ h := h.leaveVacant
  switch _ _ h := h.releaseSwitch
  summary _ h := by apply h.keep <;> simp

theorem trackerWork {k f v dt} (h : Beside s t) : Beside s (trackerWork k f v dt t) := (track s).trackerWork h

theorem recordCause_ready (c k tm) (t : State) : (recordCause c k tm t).trip.ready = t.trip.ready := by
  rw [recordCause_trip]; (repeat' split) <;> rfl
theorem takeCause {c k tm} (h : Beside s t) : Beside s (takeCause c k tm t) := by
  have hr : (Machine.takeCause c k tm t).trip.ready = t.trip.ready := by
    have hf : ∀ (l : List Nat) (u : State), (l.foldl (fun s k => Machine.endMove k .trip false s) u).trip = u.trip := fun l u => foldl_keeps (·.trip) (by simp) l u
    unfold Machine.takeCause; dsimp only
    rw [rewriteTripArea_trip]
    rcases applyingEntry t c with _ | e
    · exact recordCause_ready ..
    · unfold applyEntry; dsimp only; rw [hf]; exact recordCause_ready ..
  apply h.keep <;> first | exact hr | simp
theorem takeCauses {cs tm} (h : Beside s t) : Beside s (takeCauses cs tm t) := foldl (fun _ _ h => h.takeCause) _ _ h
theorem takeRaised (h : Beside s t) : Beside s (takeRaised t) := takeCauses h.withTracker
theorem replyCheck {k p f fl} (h : Beside s t) : Beside s (replyCheck k p f fl t) := takeCauses h
theorem moveTest {k p f g} (h : Beside s t) : Beside s (moveTest k p f g t) := by
  unfold Machine.moveTest
  split
  · exact h
  · exact h
  · dsimp only; exact ite h.retireLong.withMove h.withMove
  · dsimp only; exact ite h.recordZero.withRef h.withMove
  · exact ite h.retireLong.withMove h
theorem gapReply {k p f lm lb} (h : Beside s t) : Beside s (gapReply k p f lm lb t) := by
  unfold Machine.gapReply
  extract_lets s1 s2 s3
  have h1 : Beside s s1 := h.firstBase
  have h2 : Beside s s2 := ite h1.endMove h1
  have h3 : Beside s s3 := ite h2.agcUpdate h2
  exact h3.moveTest

/-- Every piece of the work on a reply but the next exchange. -/
theorem doWork {k p f v fl lb dt now w} (hw : w ≠ .nextPoll) (h : Beside s t) :
    Beside s (doWork k p f v fl lb dt now w t) := by
  cases w
  · exact h.trackerWork
  · exact h.gapReply
  · exact h.takeRaised
  · exact h.replyCheck
  · exact absurd rfl hw

end Beside
end Sys2Proof.Machine
end

