-- ==== Sys2Proof/Laws/Journal.lean ====
section
/-! SUPPORT. The journal after a run of records: what `journalled` says, one record at a time, and that all work but the
port's adds to the journal by records that fall due (R173, R174). -/

namespace Sys2Proof.Machine

/-- What a record that falls due makes of the journal depends on the journal alone (R173, R174). -/
theorem journal_congr (r : JournalRecord) {s t : State} (h : s.journal = t.journal) :
    (journal r s).journal = (journal r t).journal := by
  unfold journal
  rw [h]
  split <;> rfl

theorem journalled_congr (rs : List JournalRecord) : ∀ {s t : State}, s.journal = t.journal →
    journalled rs s = journalled rs t := by
  induction rs with
  | nil => exact fun h => h
  | cons r rs ih => exact fun h => ih (journal_congr r h)

theorem journalled_append (a b : List JournalRecord) (s t : State) (h : t.journal = journalled a s) :
    journalled b t = journalled (a ++ b) s := by
  unfold journalled
  rw [List.foldl_append]
  exact journalled_congr b h

/-- One more record. -/
theorem journalled_snoc (r : JournalRecord) (a : List JournalRecord) (s t : State) (h : t.journal = journalled a s) :
    (journal r t).journal = journalled (a ++ [r]) s := journalled_append a [r] s t h

/-- What a cause journals (R132). -/
theorem recordCause_journalled (c : Cause) (k : Nat) (time : Clock) (s : State) :
    (recordCause c k time s).journal = journalled
      (if s.trip.latch = false then
        [{ kind := .tripFirst, stand := k, time := time, coil := (causeEntry s c k time).coil, v1 := BitVec.ofNat 16 c.code,
           v2 := 1, v3 := BitVec.ofNat 16 (standsGrown s c k) }]
      else if isDuplicate s c k = true then []
      else if s.trip.causes.length < 16 then
        [{ kind := .tripAdded, stand := k, time := time, coil := (causeEntry s c k time).coil, v1 := BitVec.ofNat 16 c.code,
           v2 := BitVec.ofNat 16 (s.trip.causes.length + 1), v3 := BitVec.ofNat 16 (standsGrown s c k) }]
      else []) s := by
  unfold recordCause note
  dsimp only
  split
  · exact journal_congr _ rfl
  · split
    · rfl
    · split
      · exact journal_congr _ rfl
      · rfl

variable {p : Permit} {s t : State}

/-- Work that is not the port's adds to the journal by records that fall due, and by nothing else. -/
theorem Evolves.journalled (hp : p.port = false) (h : Evolves p s t) : ∃ rs, t.journal = journalled rs s := by
  induction h with
  | refl => exact ⟨[], rfl⟩
  | quiet _ hq ih => obtain ⟨rs, e⟩ := ih; exact ⟨rs, hq.journal.trans e⟩
  | noted r _ ih => obtain ⟨rs, e⟩ := ih; exact ⟨rs ++ [r], journalled_snoc r rs _ _ e⟩
  | recorded c k time _ ih =>
    obtain ⟨rs, e⟩ := ih
    exact ⟨_, (recordCause_journalled c k time _).trans (journalled_append rs _ _ _ e)⟩
  | indexRead _ h _ _ _ => rw [hp] at h; cases h
  | lossReported h _ _ => rw [hp] at h; cases h
  | passed k m q _ _ _ ih =>
    obtain ⟨rs, e⟩ := ih
    refine ⟨rs, Eq.trans ?_ e⟩
    unfold passMark; dsimp only; split <;> rfl
  | attn _ _ ih => exact ih
  | wrote _ _ _ ih => exact ih
  | acted _ _ _ _ ih => exact ih
  | ready _ _ ih => exact ih
  | cleared _ _ ih => exact ih
  | leveled _ _ _ ih => exact ih
  | lined _ _ _ _ ih => exact ih
  | entered _ _ _ _ _ ih => exact ih
  | fronted _ _ _ _ _ _ _ _ _ ih => exact ih
  | advanced _ _ _ _ _ _ _ _ _ _ _ ih => exact ih
  | held _ _ _ _ _ _ _ ih => exact ih
  | departed _ _ _ _ _ _ ih => exact ih
  | cut _ _ _ _ _ _ _ ih => exact ih
  | emptied _ ih => exact ih

end Sys2Proof.Machine
end

