-- ==== Sys2Proof/Laws/LongOrders.lean ====
section
/-! SUPPORT. The table of long orders in flight: what the end of a move does to it and to the order's block (R117, R119,
R121, R169). -/

namespace Sys2Proof.Machine

/-- The result with which the end of a move by `d` retires its order, if one is in flight (R116, R117, R119, R121). -/
def endedResult (d : AbortDetail) (k : Nat) (s : State) : Option Result :=
  match (s.gap.get k).move with
  | .none => none
  | .hold _ => none
  | .preset .. => some (presetAborted s k d)
  | .calClose _ _ _ z0 => some { cls := .aborted d, value := zChange s k z0 }
  | .calOpen _ _ p z0 => some { cls := .aborted (p.detail d), value := zChange s k z0 }

/-- What the end of a move leaves (R119, R121): no move; its order, if one is entered, retired and its entry gone. -/
theorem endMove_retires (k : Nat) (d : AbortDetail) (s : State) :
    endMove k d false s =
      (match endedResult d k s with
        | some r => retireLong k r s
        | none => s).withMove k .none := by
  unfold endMove endedResult
  cases h : (s.gap.get k).move with
  | none =>
    show s = s.withMove k .none
    have : ({ s.gap.get k with move := Move.none } : Reference) = s.gap.get k := by rw [← h]
    unfold State.withMove State.withRef
    rw [this, PerStand.set_get]
  | _ => rfl

/-- What the end of a move that may leave HOLD leaves: HOLD stays, a preset turns to HOLD at its base, or to NONE once the
stand has left VACANT, and its order is retired (R119, R120). -/
theorem endMove_stays (k : Nat) (d : AbortDetail) (s : State) :
    endMove k d true s =
      match endedResult d k s with
      | some r => (retireLong k r s).withMove k
          (match (s.gap.get k).move with
            | .preset .. => holdAtBase s k
            | _ => .none)
      | none => s := by
  unfold endMove endedResult
  cases h : (s.gap.get k).move <;> rfl

theorem endedResult_eq {s t : State} {k : Nat} (d : AbortDetail) (h1 : t.gap.get k = s.gap.get k) (h2 : t.est = s.est) :
    endedResult d k t = endedResult d k s := by
  unfold endedResult presetAborted zChange
  rw [h1, h2]

theorem endedResult_isSome (d : AbortDetail) (k : Nat) (s : State) :
    (endedResult d k s).isSome = (s.gap.get k).move.inFlight := by
  unfold endedResult Move.inFlight
  cases (s.gap.get k).move <;> rfl

/-- What the end of one move does to the memory and to the table of long orders. -/
theorem endMove_orders (k : Nat) (d : AbortDetail) (s : State) :
    (endMove k d false s).orders.inFlight =
      (if (s.gap.get k).move.inFlight then s.orders.inFlight.set k none else s.orders.inFlight) ∧
    (endMove k d false s).exm =
      (match endedResult d k s, s.orders.inFlight.get k with
        | some r, some q => writeResult s.exm q r
        | _, _ => s.exm) := by
  have hs := endedResult_isSome d k s
  rw [endMove_retires]
  cases hr : endedResult d k s with
  | none =>
    rw [hr] at hs
    rw [← hs]
    exact ⟨rfl, rfl⟩
  | some r =>
    rw [hr] at hs
    rw [← hs]
    unfold retireLong
    cases hq : s.orders.inFlight.get k with
    | none =>
      refine ⟨?_, rfl⟩
      show s.orders.inFlight = s.orders.inFlight.set k none
      rw [← hq, PerStand.set_get]
    | some q => exact ⟨rfl, rfl⟩

/-- Moves ended one after another, each at its own stand. -/
theorem endMoves_orders (d : AbortDetail) : ∀ (ks : List Nat), ks.Nodup → (∀ k ∈ ks, 1 ≤ k ∧ k ≤ 8) → ∀ s t : State,
    t = ks.foldl (fun s k => endMove k d false s) s →
    (∀ k, k ∉ ks → t.gap.get k = s.gap.get k ∧ t.orders.inFlight.get k = s.orders.inFlight.get k) ∧
    (∀ k ∈ ks, (t.gap.get k).move = .none ∧
      t.orders.inFlight.get k = if (s.gap.get k).move.inFlight then none else s.orders.inFlight.get k) ∧
    ((∀ k ∈ ks, (s.gap.get k).move.inFlight = false) → t.exm = s.exm) ∧
    ∀ k ∈ ks, ∀ q r, endedResult d k s = some r → s.orders.inFlight.get k = some q →
      (∀ j ∈ ks, j ≠ k → (s.gap.get j).move.inFlight = false) → t.exm = writeResult s.exm q r := by
  intro ks
  induction ks with
  | nil =>
    rintro - - s t rfl
    exact ⟨fun _ _ => ⟨rfl, rfl⟩, fun _ h => absurd h (by simp), fun _ => rfl, fun _ h => absurd h (by simp)⟩
  | cons j ks ih =>
    intro hnd hks s t ht
    have hj := hks j (by simp)
    have hjn : j ∉ ks := (List.nodup_cons.mp hnd).1
    obtain ⟨u, hu⟩ : ∃ u, u = endMove j d false s := ⟨_, rfl⟩
    rw [List.foldl_cons, ← hu] at ht
    obtain ⟨i1, i2, i3, i4⟩ := ih (List.nodup_cons.mp hnd).2 (fun k h => hks k (by simp [h])) u t ht
    have hg : ∀ k, k ≠ j → u.gap.get k = s.gap.get k := by
      intro k h; rw [hu, endMove_level_gap]; exact PerStand.get_set_other _ _ _ _ h
    have hgj : (u.gap.get j).move = .none := by rw [hu, endMove_level_gap, PerStand.get_set_same _ _ _ hj]
    obtain ⟨o1, o2⟩ := endMove_orders j d s
    rw [← hu] at o1 o2
    have hf : ∀ k, k ≠ j → u.orders.inFlight.get k = s.orders.inFlight.get k := by
      intro k h; rw [o1]; split
      · exact PerStand.get_set_other _ _ _ _ h
      · rfl
    have hfj : u.orders.inFlight.get j = if (s.gap.get j).move.inFlight then none else s.orders.inFlight.get j := by
      rw [o1]; split
      · exact PerStand.get_set_same _ _ _ hj
      · rfl
    have he : u.est = s.est := by rw [hu]; simp
    have hx : (s.gap.get j).move.inFlight = false → u.exm = s.exm := by
      intro h
      have hs := endedResult_isSome d j s
      rw [h] at hs
      rw [o2]
      cases hr : endedResult d j s with
      | none => rfl
      | some r => rw [hr] at hs; cases hs
    refine ⟨?_, ?_, ?_, ?_⟩
    · intro k hk
      have hkj : k ≠ j := fun h => hk (by simp [h])
      have hkn : k ∉ ks := fun h => hk (by simp [h])
      rw [(i1 k hkn).1, (i1 k hkn).2, hg k hkj, hf k hkj]; exact ⟨rfl, rfl⟩
    · intro k hk
      by_cases hkj : k = j
      · subst hkj
        rw [(i1 k hjn).1, (i1 k hjn).2]
        exact ⟨hgj, hfj⟩
      · have hkn : k ∈ ks := by simpa [hkj] using hk
        rw [← hg k hkj, ← hf k hkj]; exact i2 k hkn
    · intro h
      rw [i3 (fun k hk => by rw [hg k (fun e => hjn (e ▸ hk))]; exact h k (by simp [hk])), hx (h j (by simp))]
    · intro k hk q r hr hq hothers
      by_cases hkj : k = j
      · subst hkj
        rw [i3 (fun i hi => by
          have hne : i ≠ k := fun e => hjn (e ▸ hi)
          rw [hg i hne]; exact hothers i (by simp [hi]) hne), o2, hr, hq]
      · have hkn : k ∈ ks := by simpa [hkj] using hk
        have hjf := hothers j (by simp) (fun e => hkj e.symm)
        rw [i4 k hkn q r (by rw [endedResult_eq d (hg k hkj) he]; exact hr) (by rw [hf k hkj]; exact hq)
          (fun i hi hne => by rw [hg i (fun e => hjn (e ▸ hi))]; exact hothers i (by simp [hi]) hne), hx hjf]

/-- What the ends of moves can change, whatever they are. -/
theorem endMoves_shape (d : AbortDetail) : ∀ (ks : List Nat) (s : State), ∃ m a f g,
    ks.foldl (fun s k => endMove k d false s) s =
      { s with exm := m, attention := a, orders := { s.orders with inFlight := f }, gap := g } := by
  intro ks
  induction ks with
  | nil => intro s; exact ⟨s.exm, s.attention, s.orders.inFlight, s.gap, rfl⟩
  | cons k ks ih =>
    intro s
    have h1 : ∃ m a f g, endMove k d false s =
        { s with exm := m, attention := a, orders := { s.orders with inFlight := f }, gap := g } := by
      rw [endMove_retires]
      cases endedResult d k s with
      | none => exact ⟨s.exm, s.attention, s.orders.inFlight, _, rfl⟩
      | some r =>
        dsimp only
        unfold retireLong
        cases s.orders.inFlight.get k with
        | none => exact ⟨s.exm, s.attention, s.orders.inFlight, _, rfl⟩
        | some q => exact ⟨_, _, _, _, rfl⟩
    obtain ⟨m, a, f, g, h1⟩ := h1
    obtain ⟨m', a', f', g', h2⟩ := ih (endMove k d false s)
    exact ⟨m', a', f', g', by rw [List.foldl_cons, h2, h1]⟩

/-- A cause taken while no move stands changes no order (R129). -/
theorem takeCause_noMoves (c : Cause) (k : Nat) (time : Clock) (s : State) (h : ∀ k, (s.gap.get k).move = .none) :
    (takeCause c k time s).exm = s.exm ∧ (takeCause c k time s).orders = s.orders ∧ (takeCause c k time s).gap = s.gap := by
  have hr : (recordCause c k time s).exm = s.exm ∧ (recordCause c k time s).orders = s.orders ∧
      (recordCause c k time s).gap = s.gap := by simp
  unfold takeCause
  dsimp only
  cases applyingEntry s c with
  | none => exact hr
  | some e =>
    dsimp only
    unfold applyEntry
    dsimp only
    rw [ends_none]
    · exact hr
    · intro j
      show ((recordCause c k time s).gap.get j).move = _
      rw [hr.2.2]; exact h j

theorem abortedAs_eq (d : AbortDetail) (k : Nat) (s : State) :
    abortedAs d.code k s = (endedResult d k s).map fun r => (r.cls.detail, r.value) := by
  have hc : ∀ x : Int, satChange16 x = BitVec.ofInt 16 (max (-32767) (min 32767 x)) := by
    intro x; unfold satChange16 clampInt; congr 1; split <;> (try split) <;> omega
  have hp : ∀ x : Int, satSigned16 x = BitVec.ofInt 16 (max (-32768) (min 32767 x)) := by
    intro x; unfold satSigned16 clampInt; congr 1; split <;> (try split) <;> omega
  unfold abortedAs endedResult presetAborted zChange
  dsimp only
  cases (s.gap.get k).move with
  | none => rfl
  | hold _ => rfl
  | preset => simp [hp, ResultClass.detail]
  | calClose => simp [hc, ResultClass.detail]
  | calOpen _ _ p _ => cases p <;> simp [hc, ResultClass.detail, Pending.detail]

theorem endedResult_class {d : AbortDetail} {k : Nat} {s : State} {r : Result} (h : endedResult d k s = some r) :
    r.cls.code = 2 := by
  unfold endedResult presetAborted at h
  cases hm : (s.gap.get k).move <;> rw [hm] at h <;> simp at h <;> subst h <;> rfl

/-- What moves ended one after another leave in memory: STATE and RESULT of their own blocks, and nothing else. -/
theorem endMoves_memory (d : AbortDetail) : ∀ (ks : List Nat), ks.Nodup → (∀ k ∈ ks, 1 ≤ k ∧ k ≤ 8) → ∀ s t : State,
    s.exm.wf = true → t = ks.foldl (fun s k => endMove k d false s) s →
    (∀ a, (∀ k ∈ ks, ∀ q, (s.gap.get k).move.inFlight = true → s.orders.inFlight.get k = some q → ¬resultByte q a) →
      t.exm.read a = s.exm.read a) ∧
    ∀ k ∈ ks, ∀ q r, endedResult d k s = some r → s.orders.inFlight.get k = some q →
      (∀ j ∈ ks, j ≠ k → ∀ q', (s.gap.get j).move.inFlight = true → s.orders.inFlight.get j = some q' →
        q + 12 ≤ q' ∨ q' + 12 ≤ q) →
      t.exm.readWord (q + 2) = 3 ∧ t.exm.readWord (q + 6) = BitVec.ofNat 16 r.cls.code ∧
        t.exm.readWord (q + 8) = BitVec.ofNat 16 r.cls.detail ∧ t.exm.readWord (q + 10) = r.value := by
  intro ks
  induction ks with
  | nil => rintro - - s t - rfl; exact ⟨fun _ _ => rfl, fun _ h => absurd h (by simp)⟩
  | cons j ks ih =>
    intro hnd hks s t hm ht
    have hj := hks j (by simp)
    have hjn : j ∉ ks := (List.nodup_cons.mp hnd).1
    obtain ⟨u, hu⟩ : ∃ u, u = endMove j d false s := ⟨_, rfl⟩
    rw [List.foldl_cons, ← hu] at ht
    obtain ⟨o1, o2⟩ := endMove_orders j d s
    rw [← hu] at o1 o2
    have hum : u.exm.wf = true := by
      rw [o2]; split
      · exact wf_writeResult _ _ _ hm
      · exact hm
    obtain ⟨i1, i2⟩ := ih (List.nodup_cons.mp hnd).2 (fun k h => hks k (by simp [h])) u t hum ht
    have hg : ∀ k, k ≠ j → u.gap.get k = s.gap.get k := by
      intro k h; rw [hu, endMove_level_gap]; exact PerStand.get_set_other _ _ _ _ h
    have hf : ∀ k, k ≠ j → u.orders.inFlight.get k = s.orders.inFlight.get k := by
      intro k h; rw [o1]; split
      · exact PerStand.get_set_other _ _ _ _ h
      · rfl
    have he : u.est = s.est := by rw [hu]; simp
    have hs := endedResult_isSome d j s
    have hne : ∀ k ∈ ks, k ≠ j := fun k hk e => hjn (e ▸ hk)
    have hfirst : ∀ a, (∀ q, (s.gap.get j).move.inFlight = true → s.orders.inFlight.get j = some q → ¬resultByte q a) →
        u.exm.read a = s.exm.read a := by
      intro a h
      rw [o2]; split
      · next r q hr hq =>
        have := h q (by rw [← hs, hr]; rfl) hq
        unfold resultByte at this
        exact read_writeResult _ _ _ _ hm (by omega)
      · rfl
    refine ⟨fun a h => ?_, ?_⟩
    · rw [i1 a fun k hk q h1 h2 => h k (by simp [hk]) q (by rw [← hg k (hne k hk)]; exact h1)
        (by rw [← hf k (hne k hk)]; exact h2)]
      exact hfirst a (h j (by simp))
    · intro k hk q r hr hq hap
      by_cases hkj : k = j
      · subst hkj
        have hx : u.exm = writeResult s.exm q r := by rw [o2, hr, hq]
        have hw := words_writeResult s.exm q r hm
        have hrd : ∀ a, q ≤ a → a < q + 12 → t.exm.read a = u.exm.read a := by
          intro a h1 h2
          refine i1 a fun i hi q' h3 h4 => ?_
          have := hap i (by simp [hi]) (hne i hi) q' (by rw [← hg i (hne i hi)]; exact h3)
            (by rw [← hf i (hne i hi)]; exact h4)
          unfold resultByte; omega
        have hword : ∀ a, q ≤ a → a + 1 < q + 12 → t.exm.readWord a = u.exm.readWord a := by
          intro a h1 h2; unfold Memory.readWord; rw [hrd a h1 (by omega), hrd (a + 1) (by omega) h2]
        rw [hword _ (by omega) (by omega), hword _ (by omega) (by omega), hword _ (by omega) (by omega),
          hword _ (by omega) (by omega), hx]
        exact hw
      · have hkn : k ∈ ks := by simpa [hkj] using hk
        refine i2 k hkn q r (by rw [endedResult_eq d (hg k hkj) he]; exact hr) (by rw [hf k hkj]; exact hq) ?_
        intro i hi hik q' h1 h2
        exact hap i (by simp [hi]) hik q' (by rw [← hg i (hne i hi)]; exact h1) (by rw [← hf i (hne i hi)]; exact h2)

/-- Moves ended one after another have ended (R119, R121). -/
theorem endMoves_ended (d : AbortDetail) (ks : List Nat) (hn : ks.Nodup) (hks : ∀ k ∈ ks, 1 ≤ k ∧ k ≤ 8) (s u t : State)
    (hm : memoryOk s) (hu : u = ks.foldl (fun s k => endMove k d false s) s)
    (hg : ∀ k ∈ ks, (t.gap.get k).move = .none) (he : t.exm = u.exm) (ho : t.orders.inFlight = u.orders.inFlight) :
    MovesEnded ks d.code s t := by
  obtain ⟨-, i2, i3, -⟩ := endMoves_orders d ks hn hks s u hu
  obtain ⟨m1, m2⟩ := endMoves_memory d ks hn hks s u hm hu
  refine ⟨fun k hk => ⟨hg k hk, by rw [ho]; exact (i2 k hk).2⟩, fun h => by rw [he]; exact i3 h,
    fun a h => by rw [he]; exact m1 a h, ?_⟩
  intro k hk q detail value ha hq hap
  rw [abortedAs_eq] at ha
  cases hr : endedResult d k s with
  | none => rw [hr] at ha; cases ha
  | some r =>
    rw [hr] at ha
    simp only [Option.map_some, Option.some.injEq, Prod.mk.injEq] at ha
    rw [he, ← ha.1, ← ha.2, show (2 : Word) = BitVec.ofNat 16 r.cls.code by rw [endedResult_class hr]; rfl]
    exact m2 k hk q r hr hq hap

/-- The moves ended at a level change have ended (R121). -/
theorem endMovesLevel_ended (s t : State) (hm : memoryOk s) (hg : ∀ k ∈ standNumbers, (t.gap.get k).move = .none)
    (he : t.exm = (endMovesLevel s).exm) (ho : t.orders.inFlight = (endMovesLevel s).orders.inFlight) :
    MovesEnded standNumbers 5 s t :=
  endMoves_ended .level standNumbers (by decide) (by decide) s (endMovesLevel s) t hm rfl hg he ho

/-- The time that a command brings does not bear on how moves end. -/
theorem MovesEnded.of_tick {ks : List Nat} {d : Nat} {dt : Clock} {s t : State} (h : MovesEnded ks d (s.tick dt) t) :
    MovesEnded ks d s t := h

end Sys2Proof.Machine
end

