-- ==== Sys2Proof/Laws/Causes.lean ====
section
/-! SUPPORT. What a cause taken does to the journal (R132) and to the moves of its stand set (R119, R129). -/

namespace Sys2Proof.Machine

/-- A cause journals its one record, TRIP_FIRST or TRIP_ADDED, where an entry is written, and nothing else (R132). -/
theorem takeCause_journal (c : Cause) (k : Nat) (time : Clock) (s : State) :
    (takeCause c k time s).journal = (recordCause c k time s).journal := by
  unfold takeCause
  dsimp only
  rw [rewriteTripArea_journal]
  split
  · unfold applyEntry
    dsimp only
    rw [foldl_keeps (·.journal) (by simp)]
  · rfl

/-- How moves end depends on the moves, their orders, the memory and the estimates alone. -/
theorem MovesEnded.of_same {ks : List Nat} {d : Nat} {s u t : State} (h : MovesEnded ks d u t) (h1 : u.gap = s.gap)
    (h2 : u.orders.inFlight = s.orders.inFlight) (h3 : u.exm = s.exm) (h4 : u.est = s.est) : MovesEnded ks d s t := by
  have ha : ∀ k, abortedAs d k u = abortedAs d k s := by intro k; unfold abortedAs; rw [h1, h4]
  unfold MovesEnded at *
  simp only [h1, h2, h3, ha] at h
  exact h

theorem standSet_nodup (c : Cascade) (k n : Nat) : (standSet c k n).Nodup := by
  unfold standSet
  cases c <;> dsimp only <;> (try split) <;> first | exact standsTo_nodup _ | simp

theorem standSet_range {c : Cascade} {k n j : Nat} (hk : k ≤ 8) (h : j ∈ standSet c k n) : 1 ≤ j ∧ j ≤ 8 := by
  unfold standSet at h
  have hs : ∀ m, j ∈ standsTo m → 1 ≤ j ∧ j ≤ 8 := fun m hm => by have := (mem_standsTo _ _).mp hm; omega
  cases c <;> dsimp only at h <;> (try split at h) <;>
    first | exact hs _ h | (cases h; done) | (rw [List.mem_singleton] at h; omega)

/-- A cause that applies ends the moves of its stand set with TRIP, or the ABORTED detail pending (R119, R129, step 5). -/
theorem takeCause_ended (c : Cause) (k : Nat) (time : Clock) (s : State) (e : MatrixEntry) (hm : memoryOk s)
    (ha : applyingEntry s c = some e) (h8 : k ≤ 8) :
    MovesEnded (standSet e.cascade k s.n) 1 s (takeCause c k time s) := by
  have hk : ∀ j ∈ standSet e.cascade k s.n, 1 ≤ j ∧ j ≤ 8 := fun j hj => standSet_range h8 hj
  let r := recordCause c k time s
  let u : State := { r with trip := { r.trip with
    actions := addActions (standSet e.cascade k s.n) e.actions r.trip.actions,
    entryStop := r.trip.entryStop || e.entryStop } }
  have hr : r.exm = s.exm ∧ r.orders = s.orders ∧ r.gap = s.gap ∧ r.est = s.est := by simp [r]
  have hum : memoryOk u := by unfold memoryOk; show r.exm.wf = true; rw [hr.1]; exact hm
  have ht : takeCause c k time s =
      rewriteTripArea ((standSet e.cascade k s.n).foldl (fun s k => endMove k .trip false s) u) := by
    unfold takeCause
    rw [ha]
    rfl
  have hend := endMoves_ended .trip _ (standSet_nodup e.cascade k s.n) hk u _
    (rewriteTripArea ((standSet e.cascade k s.n).foldl (fun s k => endMove k .trip false s) u)) hum rfl
    (by
      intro j hj
      rw [rewriteTripArea_gap, ended_gap, if_pos ⟨hj, hk j hj⟩])
    (by rw [rewriteTripArea_exm]) (by rw [rewriteTripArea_orders])
  rw [ht]
  exact hend.of_same hr.2.2.1 (by show r.orders.inFlight = _; rw [hr.2.1]) hr.1 hr.2.2.2

end Sys2Proof.Machine
end

