-- ==== Sys2Proof/Laws/Store.lean ====
section
/-! SUPPORT. The laws of the Schedule Store (R96, R97) under the blocks' work: the tags of the marks, the switches and the freeing
of slots, the Tracker's work on a reply, loads and unloads, leaving RUN, trip resets and RUN entries. -/

namespace Sys2Proof.Machine

/-! ### Tags of the marks -/

/-- A mark of slot `x` is in the zones `z`. -/
def tagged (z : PerStand (List Mark)) (x : Slot) : Prop := ∃ k ∈ standNumbers, ∃ m ∈ z.get k, m.tag = some x

theorem tagsAMark_iff (s : State) (x : Slot) : tagsAMark s x ↔ tagged s.tracker.zones x := Iff.rfl

theorem stand_of {k : Nat} (h : k ∈ standNumbers) : 1 ≤ k ∧ k ≤ 8 := by
  simp [standNumbers] at h; omega

theorem of_stand {k : Nat} (h : 1 ≤ k ∧ k ≤ 8) : k ∈ standNumbers := by
  simp [standNumbers]; omega

/-- The tag count of a slot is above 0 exactly while a mark has its tag (R103). -/
theorem tagCount_pos (s : State) (x : Slot) : 0 < s.tagCount x ↔ tagsAMark s x := by
  have h1 : ∀ q : List Mark, 0 < (q.countP fun m => m.tag == some x) ↔ ∃ m ∈ q, m.tag = some x := by
    intro q; rw [List.countP_pos_iff]; simp
  have h2 : ∀ l : List (List Mark), 0 < (l.map fun q => q.countP fun m => m.tag == some x).sum ↔
      ∃ q ∈ l, ∃ m ∈ q, m.tag = some x := by
    intro l
    induction l with
    | nil => simp
    | cons q l ih =>
      rw [List.map_cons, List.sum_cons]
      have : 0 < (q.countP fun m => m.tag == some x) + (l.map fun q => q.countP fun m => m.tag == some x).sum ↔
          0 < (q.countP fun m => m.tag == some x) ∨ 0 < (l.map fun q => q.countP fun m => m.tag == some x).sum := by omega
      rw [this, h1, ih]; simp
  unfold State.tagCount
  rw [h2]
  simp [tagsAMark, standNumbers, PerStand.toList, PerStand.get, State.zone]

/-- Zones whose marks have the same tags, in the same zones. -/
theorem tagged_congr {z z' : PerStand (List Mark)} (h : ∀ k, 1 ≤ k ∧ k ≤ 8 → (z'.get k).map Mark.tag = (z.get k).map Mark.tag)
    (x : Slot) : tagged z' x ↔ tagged z x := by
  have : ∀ q : List Mark, (∃ m ∈ q, m.tag = some x) ↔ some x ∈ q.map Mark.tag := by simp
  unfold tagged
  constructor <;> rintro ⟨k, hk, hm⟩ <;> refine ⟨k, hk, ?_⟩ <;> rw [this] at hm ⊢
  · rw [← h k (stand_of hk)]; exact hm
  · rw [h k (stand_of hk)]; exact hm

/-- A queue replaced by one with the same tags. -/
theorem tagged_withZone (s : State) (k : Nat) (q : List Mark) (h : q.map Mark.tag = (s.zone k).map Mark.tag) (x : Slot) :
    tagged (s.withZone k q).tracker.zones x ↔ tagged s.tracker.zones x := by
  by_cases hk : 1 ≤ k ∧ k ≤ 8
  · refine tagged_congr (fun j hj => ?_) x
    show ((s.tracker.zones.set k q).get j).map _ = _
    rw [PerStand.get_set _ _ _ _ hk]
    split
    · subst_vars; exact h
    · rfl
  · have : (s.withZone k q).tracker.zones = s.tracker.zones := PerStand.set_outside _ _ _ hk
    rw [this]

theorem advanceBehind_tags (d : Nat) (q : List Mark) : ∀ p, (advanceBehind d p q).map Mark.tag = q.map Mark.tag := by
  induction q with
  | nil => exact fun _ => rfl
  | cons m q ih => intro p; unfold advanceBehind; simp [ih]

/-- A mark passes to the next zone with its tag. -/
theorem tagged_pass (k : Nat) (m m' : Mark) (q : List Mark) (z : PerStand (List Mark)) (hz : z.get k = m :: q)
    (hk : k + 1 ≤ 8) (ht : m'.tag = m.tag) (x : Slot) :
    tagged ((z.set k q).set (k + 1) (z.get (k + 1) ++ [m'])) x ↔ tagged z x := by
  have h1 : 1 ≤ k := by
    by_contra h
    rw [PerStand.get_outside _ _ (by omega)] at hz; cases hz
  have hg : ∀ j, ((z.set k q).set (k + 1) (z.get (k + 1) ++ [m'])).get j =
      if j = k + 1 then z.get (k + 1) ++ [m'] else if j = k then q else z.get j := by
    intro j
    rw [PerStand.get_set _ _ _ _ (by omega)]
    split
    · rfl
    · rw [PerStand.get_set _ _ _ _ (by omega)]
  unfold tagged
  constructor
  · rintro ⟨j, hj, a, ha, hx⟩
    rw [hg] at ha
    split at ha
    · rcases List.mem_append.1 ha with h | h
      · exact ⟨k + 1, of_stand (by omega), a, h, hx⟩
      · rw [List.mem_singleton] at h
        subst h
        exact ⟨k, of_stand (by omega), m, by rw [hz]; simp, by rw [← ht]; exact hx⟩
    · split at ha
      · subst_vars; exact ⟨j, hj, a, by rw [hz]; simp [ha], hx⟩
      · exact ⟨j, hj, a, ha, hx⟩
  · rintro ⟨j, hj, a, ha, hx⟩
    by_cases h2 : j = k + 1
    · subst h2; exact ⟨k + 1, hj, a, by rw [hg]; simp [ha], hx⟩
    · by_cases h3 : j = k
      · subst h3
        rw [hz] at ha
        rcases List.mem_cons.1 ha with h | h
        · subst h
          exact ⟨j + 1, of_stand (by omega), m', by rw [hg]; simp, by rw [ht]; exact hx⟩
        · exact ⟨j, hj, a, by rw [hg]; simp [h], hx⟩
      · exact ⟨j, hj, a, by rw [hg]; simp [h2, h3, ha], hx⟩

/-! ### The laws of the store -/

/-- The laws of the Schedule Store but for what each slot's state says, with a line of no more than eight stands. -/
structure Stands (s : State) : Prop where
  below : ∀ j k, 1 ≤ j → j ≤ k → k ≤ 8 → (s.slotAt k).isSome = true → (s.slotAt j).isSome = true
  newer : ∀ x, s.store.lastLoaded = some x → ∀ j k, 1 ≤ j → j ≤ k → k ≤ 8 → s.slotAt k = some x → s.slotAt j = some x
  drains : ∀ x : Slot, (s.store.slot x).state = .draining → s.store.lastLoaded = some x.other
  unloaded : s.store.lastLoaded = none → ∀ x, (s.store.slot x).state = .free
  line : ∀ l, s.line = some l → ∀ k, l.n < k → k ≤ 8 → s.slotAt k = none
  level : s.level ≠ .run → s.tracker.zones = PerStand.all []
  stands : s.n ≤ 8

/-- The laws of the Schedule Store. -/
structure Stock (s : State) : Prop extends Stands s where
  slots : ∀ x, slotOk s x

namespace Stock
variable {s t : State}

/-- Work that leaves the store, the line, the level and the tags leaves the laws. -/
theorem keep (h : Stock s) (h1 : t.store = s.store) (h2 : t.line = s.line) (h4 : ∀ x, tagsAMark t x ↔ tagsAMark s x)
    (h5 : t.level ≠ .run → t.tracker.zones = PerStand.all []) : Stock t := by
  have hs : ∀ k, t.slotAt k = s.slotAt k := fun k => by unfold State.slotAt; rw [h1]
  have hi : ∀ x, inForceSomewhere t x ↔ inForceSomewhere s x := fun x => by unfold inForceSomewhere; simp only [hs]
  refine ⟨⟨?_, ?_, ?_, ?_, ?_, h5, ?_⟩, fun x => ?_⟩
  rotate_left 6
  · have := h.slots x
    unfold slotOk at this ⊢
    rw [h1]
    cases hx : (s.store.slot x).state <;> rw [hx] at this <;> simp only [hi, h4] <;> exact this
  · simpa only [hs] using h.below
  · simpa only [hs, h1] using h.newer
  · simpa only [h1] using h.drains
  · simpa only [h1] using h.unloaded
  · simpa only [hs, h2] using h.line
  · unfold State.n State.lineCopy; rw [h2]; exact h.stands

/-- Work that leaves the store, the line, the level and the zones leaves the laws. -/
theorem same (h : Stock s) (h1 : t.store = s.store) (h2 : t.line = s.line) (h3 : t.level = s.level)
    (h4 : t.tracker.zones = s.tracker.zones) : Stock t :=
  h.keep h1 h2 (fun x => by rw [tagsAMark_iff, tagsAMark_iff, h4]) (fun hl => by rw [h4]; exact h.level (by rwa [h3] at hl))

/-- What a slot's state says, field by field of what it rests on. -/
theorem slotOk_congr {x : Slot} (h : slotOk s x) (h1 : t.store.slot x = s.store.slot x)
    (h2 : inForceSomewhere t x ↔ inForceSomewhere s x) (h3 : tagsAMark t x ↔ tagsAMark s x) : slotOk t x := by
  unfold slotOk at h ⊢
  rw [h1]
  cases hx : (s.store.slot x).state <;> rw [hx] at h <;> simp only [h2, h3] <;> exact h

/-- The slot last loaded is not draining. -/
theorem last_not_draining (h : Stock s) {x : Slot} (hx : s.store.lastLoaded = some x) : (s.store.slot x).state ≠ .draining := by
  intro hd
  have := (h.drains x hd).symm.trans hx
  cases x <;> cases this

end Stock

theorem nowhere_iff (s : State) (x : Slot) : s.store.inForceNowhere x = true ↔ ¬inForceSomewhere s x := by
  unfold Store.inForceNowhere inForceSomewhere State.slotAt
  rw [List.all_eq_true]
  simp [PerStand.toList, standNumbers, PerStand.get]

/-- What the settlement of a slot that a stand left makes of it (R102). -/
theorem settleLeft_slot (y : Slot) (f : FreeCause) (time : Clock) (s : State) :
    (¬inForceSomewhere s y → tagsAMark s y → (settleLeft y f time s).store.slot y = { s.store.slot y with state := .draining }) ∧
    (¬inForceSomewhere s y → ¬tagsAMark s y → (settleLeft y f time s).store.slot y = {}) ∧
    (inForceSomewhere s y → settleLeft y f time s = s) := by
  refine ⟨fun h1 h2 => ?_, fun h1 h2 => ?_, fun h1 => ?_⟩ <;> unfold settleLeft
  · rw [if_pos ((nowhere_iff _ _).2 h1), if_pos ((tagCount_pos _ _).2 h2)]; cases y <;> rfl
  · rw [if_pos ((nowhere_iff _ _).2 h1), if_neg (fun h => h2 ((tagCount_pos _ _).1 h)), freeSlot_slot, if_pos rfl]
  · rw [if_neg (fun h => (nowhere_iff _ _).1 h h1)]

/-- What a switch makes of the slot that the stand does not switch to (R100, R102). -/
theorem switch_other (k : Nat) (x y : Slot) (c : SwitchCause) (f : FreeCause) (time : Clock) (s : State) (hk : 1 ≤ k ∧ k ≤ 8)
    (hy : y ≠ x) :
    let t := switchStand k x c f time s
    (s.slotAt k ≠ some y ∨ inForceSomewhere t y → t.store.slot y = s.store.slot y) ∧
    (s.slotAt k = some y → ¬inForceSomewhere t y →
      (tagsAMark s y → t.store.slot y = { s.store.slot y with state := .draining }) ∧ (¬tagsAMark s y → t.store.slot y = {})) := by
  intro t
  let s1 : State := { s with store := { s.store with inForce := s.store.inForce.set k (some x) } }
  let s3 := note .scheduleSwitch k time ((endHold k (switchTerms k s1)).slotCoil x) (BitVec.ofNat 16 x.code)
    (BitVec.ofNat 16 (slotCode (s.slotAt k))) c.code (endHold k (switchTerms k s1))
  have e : t = takeInForce x (match s.slotAt k with
    | some y => settleLeft y f time s3
    | none => s3) := rfl
  have hst : s3.store = s1.store := by
    show (note _ _ _ _ _ _ _ _).store = _
    simp
  have htr : s3.tracker = s.tracker := by
    show (note _ _ _ _ _ _ _ _).tracker = _
    simp [s1]
  have hti : t.store.inForce = s1.store.inForce := (switch_spec k x c f time s hk).1
  have hi : inForceSomewhere t y ↔ inForceSomewhere s3 y := by
    unfold inForceSomewhere State.slotAt; rw [hti, hst]
  have ht3 : tagsAMark s3 y ↔ tagsAMark s y := by unfold tagsAMark State.zone; rw [htr]
  have hs3 : s3.store.slot y = s.store.slot y := by rw [hst]; cases y <;> rfl
  have htk : ∀ u, (takeInForce x u).store.slot y = u.store.slot y := fun u => by
    rw [(takeInForce_store x u).2.2, if_neg (fun h => hy h.1)]
  obtain ⟨g1, g2, g3⟩ := settleLeft_slot y f time s3
  refine ⟨?_, ?_⟩
  · intro h
    rw [e, htk]
    cases ho : s.slotAt k with
    | none => exact hs3
    | some z =>
      dsimp only
      by_cases hz : z = y
      · subst hz
        rw [g3 (hi.1 (h.resolve_left (fun g => g ho)))]; exact hs3
      · rw [(settleLeft_store z f time s3).2.2 y (.inl (Ne.symm hz))]; exact hs3
  · intro ho hn
    rw [e, htk, ho]
    dsimp only
    rw [hi] at hn
    exact ⟨fun h => by rw [g1 hn (ht3.2 h), hs3], fun h => g2 hn (fun g => h (ht3.1 g))⟩

namespace Stock
variable {s t : State}

/-- A switch to the slot last loaded, of the next stand after those on it, keeps the laws (R97, R100, R101). -/
theorem switch (h : Stock s) {k : Nat} {x : Slot} (c : SwitchCause) (f : FreeCause) (time : Clock) (hk : 1 ≤ k ∧ k ≤ 8)
    (hx : s.store.lastLoaded = some x) (hold : s.slotAt k ≠ some x) (hlive : (s.store.slot x).state ≠ .free)
    (hb : ∀ j, 1 ≤ j → j < k → s.slotAt j = some x) (hn : ∀ l, s.line = some l → k ≤ l.n) :
    Stock (switchStand k x c f time s) := by
  have hsp := switch_spec k x c f time s hk
  have hkeep : (switchStand k x c f time s).line = s.line ∧ (switchStand k x c f time s).level = s.level ∧
      (switchStand k x c f time s).tracker = s.tracker := by simp
  have hother := fun y (hy : y ≠ x) => switch_other k x y c f time s hk hy
  generalize switchStand k x c f time s = t at *
  have hs : ∀ j, 1 ≤ j ∧ j ≤ 8 → t.slotAt j = if j = k then some x else s.slotAt j := by
    intro j _
    show t.store.inForce.get j = _
    rw [hsp.1, PerStand.get_set _ _ _ _ hk]; rfl
  have ht : ∀ y, tagsAMark t y ↔ tagsAMark s y := fun y => by unfold tagsAMark State.zone; rw [hkeep.2.2]
  refine ⟨⟨?_, ?_, ?_, ?_, ?_, ?_, ?_⟩, fun y => ?_⟩
  rotate_left 7
  · by_cases hy : y = x
    · subst hy
      have hin : inForceSomewhere t y := ⟨k, of_stand hk, by rw [hs k hk, if_pos rfl]⟩
      unfold slotOk
      have hst : (t.store.slot y).state = .inForce := by
        rw [hsp.2.2.1]
        have := h.last_not_draining hx
        cases hst : (s.store.slot y).state <;> simp_all
      rw [hst]; exact hin
    · obtain ⟨o1, o2⟩ := hother y hy
      by_cases hki : s.slotAt k = some y
      · by_cases hi : inForceSomewhere t y
        · have hsl := o1 (.inr hi)
          have := h.slots y
          have hin : inForceSomewhere s y := ⟨k, of_stand hk, hki⟩
          unfold slotOk at this ⊢
          rw [hsl]
          cases hst : (s.store.slot y).state <;> rw [hst] at this <;> first
            | exact absurd hin this.2.1 | exact absurd hin this.1 | exact hi
        · obtain ⟨o3, o4⟩ := o2 hki hi
          by_cases htg : tagsAMark s y
          · unfold slotOk; rw [o3 htg]; exact ⟨hi, (ht y).2 htg⟩
          · unfold slotOk; rw [o4 htg]; exact ⟨rfl, hi, fun g => htg ((ht y).1 g)⟩
      · refine slotOk_congr (h.slots y) (o1 (.inl hki)) ?_ (ht y)
        constructor
        · rintro ⟨j, hj, hjy⟩
          rw [hs j (stand_of hj)] at hjy
          split at hjy
          · cases hjy; exact absurd rfl hy
          · exact ⟨j, hj, hjy⟩
        · rintro ⟨j, hj, hjy⟩
          refine ⟨j, hj, ?_⟩
          rw [hs j (stand_of hj), if_neg]
          · exact hjy
          · rintro rfl; exact hki hjy
  · intro j i h1 h2 h3 h4
    rw [hs j (by omega)]
    split
    · rfl
    · rw [hs i (by omega)] at h4
      split at h4
      · rw [hb j h1 (by omega)]; rfl
      · exact h.below j i h1 h2 h3 h4
  · intro y hy j i h1 h2 h3 h4
    rw [hsp.2.1, hx] at hy
    injection hy with hy; subst hy
    rw [hs j (by omega)]
    split
    · rfl
    · rw [hs i (by omega)] at h4
      split at h4
      · exact hb j h1 (by omega)
      · exact h.newer x hx j i h1 h2 h3 h4
  · intro y hd
    rw [hsp.2.1, hx]
    by_cases hy : y = x
    · subst hy
      exfalso
      rw [hsp.2.2.1] at hd
      have := h.last_not_draining hx
      split at hd
      · cases hd
      · exact this hd
    · cases x <;> cases y <;> first | rfl | exact absurd rfl hy
  · intro hl
    rw [hsp.2.1, hx] at hl; cases hl
  · intro l hl j h1 h2
    rw [hkeep.1] at hl
    by_cases hj : 1 ≤ j
    · rw [hs j ⟨hj, h2⟩, if_neg]
      · exact h.line l hl j h1 h2
      · rintro rfl; have := hn l hl; omega
    · exact PerStand.get_outside _ _ (by omega)
  · rw [hkeep.2.1, hkeep.2.2]; exact h.level
  · unfold State.n State.lineCopy; rw [hkeep.1]; exact h.stands

/-- The switches of several stands, in ascending order, to the slot last loaded, with no gap before any of them. -/
theorem switches {x : Slot} (c : SwitchCause) (f : FreeCause) (time : Clock) (ks : List Nat) : ∀ {s : State}, Stock s →
    (∀ k ∈ ks, 1 ≤ k ∧ k ≤ 8) → ks.Pairwise (· < ·) → s.store.lastLoaded = some x → (s.store.slot x).state ≠ .free →
    (∀ k ∈ ks, s.slotAt k ≠ some x) → (∀ k ∈ ks, ∀ j, 1 ≤ j → j < k → s.slotAt j = some x ∨ j ∈ ks) →
    (∀ l, s.line = some l → ∀ k ∈ ks, k ≤ l.n) → Stock (switchStands ks x c f time s) := by
  induction ks with
  | nil => exact fun h _ _ _ _ _ _ _ => h
  | cons k ks ih =>
    intro s h hks hp hx hlive hold hb hn
    have hk := hks k (by simp)
    have hp' := List.pairwise_cons.1 hp
    have hsp := switch_spec k x c f time s hk
    have hkl : (switchStand k x c f time s).line = s.line := by simp
    have hsw := h.switch c f time hk hx (hold k (by simp)) hlive (fun j h1 h2 => ?_) (fun l hl => hn l hl k (by simp))
    · refine ih hsw (fun j hj => hks j (by simp [hj])) hp'.2 (hsp.2.1.trans hx) ?_ ?_ ?_ ?_
      · rw [hsp.2.2.1]; split
        · simp
        · exact hlive
      · intro j hj
        have hne : j ≠ k := fun e => absurd (hp'.1 j hj) (by omega)
        show (switchStand k x c f time s).store.inForce.get j ≠ _
        rw [hsp.1, PerStand.get_set_other _ _ _ _ hne]; exact hold j (by simp [hj])
      · intro i hi j h1 h2
        by_cases hjk : j = k
        · left
          show (switchStand k x c f time s).store.inForce.get j = _
          rw [hsp.1, hjk, PerStand.get_set_same _ _ _ hk]
        · rcases hb i (by simp [hi]) j h1 h2 with g | g
          · left
            show (switchStand k x c f time s).store.inForce.get j = _
            rw [hsp.1, PerStand.get_set_other _ _ _ _ hjk]; exact g
          · right; simpa [hjk] using g
      · intro l hl i hi; rw [hkl] at hl; exact hn l hl i (by simp [hi])
    · rcases hb k (by simp) j h1 h2 with g | g
      · exact g
      · rcases List.mem_cons.1 g with g | g
        · omega
        · have := hp'.1 j g; omega

/-- A slot that is in force nowhere and tags no mark may be freed, whatever its state said. -/
theorem of_freed (h : Stands s) (x : Slot) (c : FreeCause) (time : Clock) (ho : ∀ y, y ≠ x → slotOk s y)
    (h1 : ¬inForceSomewhere s x) (h2 : ¬tagsAMark s x) :
    Stock (freeSlot x c time s) := by
  have hr := freeSlot_rest x c time s
  have hkeep : (freeSlot x c time s).line = s.line ∧ (freeSlot x c time s).level = s.level ∧
      (freeSlot x c time s).tracker = s.tracker := by simp
  have hslot := fun y => freeSlot_slot x y c time s
  generalize freeSlot x c time s = t at *
  have hs : ∀ j, t.slotAt j = s.slotAt j := fun j => by unfold State.slotAt; rw [hr.1]
  have hi : ∀ y, inForceSomewhere t y ↔ inForceSomewhere s y := fun y => by unfold inForceSomewhere; simp only [hs]
  have ht : ∀ y, tagsAMark t y ↔ tagsAMark s y := fun y => by unfold tagsAMark State.zone; rw [hkeep.2.2]
  refine ⟨⟨by simpa only [hs] using h.below, ?_, ?_, ?_, ?_, ?_, ?_⟩, fun y => ?_⟩
  · rw [hr.2]; simpa only [hs] using h.newer
  · intro y hd
    rw [hslot] at hd
    rw [hr.2]
    split at hd
    · cases hd
    · exact h.drains y hd
  · intro hl y
    rw [hslot]
    split
    · rfl
    · rw [hr.2] at hl; exact h.unloaded hl y
  · rw [hkeep.1]; simpa only [hs] using h.line
  · rw [hkeep.2.1, hkeep.2.2]; exact h.level
  · unfold State.n State.lineCopy; rw [hkeep.1]; exact h.stands
  · by_cases hy : y = x
    · subst hy
      unfold slotOk
      rw [hslot, if_pos rfl]
      exact ⟨rfl, fun g => h1 ((hi y).1 g), fun g => h2 ((ht y).1 g)⟩
    · exact slotOk_congr (ho y hy) (by rw [hslot, if_neg hy]) (hi y) (ht y)

/-- The Schedule Store's part of a release (R101). -/
theorem releaseSwitch (h : Stock s) (k : Nat) :
    Stock (releaseSwitch k s) := by
  unfold Machine.releaseSwitch
  split
  · exact h
  · rename_i x hx
    split
    · rename_i hc
      obtain ⟨hb, hk, hp⟩ := hc
      have hk8 : 1 ≤ k ∧ k ≤ 8 := by
        by_contra hn
        have : s.slotAt k = none := PerStand.get_outside _ _ hn
        rw [this] at hk; cases hk
      have hne : x.other ≠ x := by cases x <;> decide
      refine h.switch _ _ _ hk8 hx (by rw [hk]; exact fun g => hne (Option.some.inj g)) ?_ ?_ ?_
      · unfold Store.bothLive SlotRecord.live at hb
        simp only [Bool.and_eq_true, bne_iff_ne, ne_eq] at hb
        cases x <;> simp [Store.slot, hb]
      · intro j h1 h2
        rcases hp with g | g
        · omega
        · by_cases hj : j = k - 1
          · rw [hj]; exact g
          · exact h.newer x hx j (k - 1) h1 (by omega) (by omega) g
      · intro l hl
        by_contra hn
        have := h.line l hl k (by omega) hk8.2
        rw [this] at hk; cases hk
    · exact h

end Stock

/-- The laws of the Schedule Store at RUN. -/
def StockRun (s : State) : Prop := Stock s ∧ s.level = .run

theorem StockRun.same {s t : State} (h : StockRun s) (h1 : t.store = s.store) (h2 : t.line = s.line) (h3 : t.level = s.level)
    (h4 : t.tracker.zones = s.tracker.zones) : StockRun t := ⟨h.1.same h1 h2 h3 h4, h3.trans h.2⟩

theorem StockRun.keep {s t : State} (h : StockRun s) (h1 : t.store = s.store) (h2 : t.line = s.line) (h3 : t.level = s.level)
    (h4 : ∀ x, tagsAMark t x ↔ tagsAMark s x) : StockRun t :=
  ⟨h.1.keep h1 h2 h4 (fun g => absurd (h3.trans h.2) g), h3.trans h.2⟩

/-- The zones of marks after one is added to a queue, or is taken away: what slots the marks name. -/
theorem tagged_set (z : PerStand (List Mark)) (k : Nat) (q : List Mark) (hk : 1 ≤ k ∧ k ≤ 8) (x : Slot) :
    tagged (z.set k q) x ↔ (∃ m ∈ q, m.tag = some x) ∨ ∃ j ∈ standNumbers, j ≠ k ∧ ∃ m ∈ z.get j, m.tag = some x := by
  unfold tagged
  constructor
  · rintro ⟨j, hj, m, hm, hx⟩
    rw [PerStand.get_set _ _ _ _ hk] at hm
    split at hm
    · exact .inl ⟨m, hm, hx⟩
    · exact .inr ⟨j, hj, ‹_›, m, hm, hx⟩
  · rintro (⟨m, hm, hx⟩ | ⟨j, hj, hne, m, hm, hx⟩)
    · exact ⟨k, of_stand hk, m, by rw [PerStand.get_set_same _ _ _ hk]; exact hm, hx⟩
    · exact ⟨j, hj, m, by rw [PerStand.get_set_other _ _ _ _ hne]; exact hm, hx⟩

/-- Which slots are tagged after a mark of zone `k` is taken away. -/
theorem tagged_tail {z : PerStand (List Mark)} {k : Nat} {m : Mark} {q : List Mark} (hz : z.get k = m :: q) (x : Slot) :
    tagged z x ↔ m.tag = some x ∨ tagged (z.set k q) x := by
  have hk : 1 ≤ k ∧ k ≤ 8 := by
    by_contra h
    rw [PerStand.get_outside _ _ h] at hz; cases hz
  have hs : z.set k (m :: q) = z := by rw [← hz, PerStand.set_get]
  have h1 := tagged_set z k (m :: q) hk x
  rw [hs] at h1
  rw [h1, tagged_set z k q hk x]
  simp [or_assoc]

/-- A mark departs at the gauge; the slot whose last mark it was is freed if it is draining (R20, R103). -/
theorem Stock.depart {s : State} (h : Stock s) (hr : s.level = .run) {k : Nat} {m : Mark} {q : List Mark}
    (hz : s.zone k = m :: q) : Stock (departMark k m q s) := by
  unfold departMark
  extract_lets s1 t1
  have hk1 : s1.store = s.store ∧ s1.line = s.line ∧ s1.level = s.level ∧ s1.tracker = s.tracker := by
    simp [s1]
  have ht1 : t1.zones = s.tracker.zones := by rw [show t1 = s1.tracker from rfl, hk1.2.2.2]
  obtain ⟨u, hu⟩ : ∃ u, u = s1.withTracker { t1 with zones := t1.zones.set k q, emptySpell := false } := ⟨_, rfl⟩
  rw [← hu]
  have huz : u.tracker.zones = s.tracker.zones.set k q := by rw [hu]; show t1.zones.set k q = _; rw [ht1]
  have hus : u.store = s.store := by rw [hu]; exact hk1.1
  have hul : u.line = s.line := by rw [hu]; exact hk1.2.1
  have hur : u.level = .run := by rw [hu]; exact hk1.2.2.1.trans hr
  have htg : ∀ x, tagsAMark s x ↔ m.tag = some x ∨ tagsAMark u x := by
    intro x; rw [tagsAMark_iff, tagsAMark_iff, huz]; exact tagged_tail hz x
  have hsl : ∀ j, u.slotAt j = s.slotAt j := fun j => by unfold State.slotAt; rw [hus]
  have hi : ∀ x, inForceSomewhere u x ↔ inForceSomewhere s x := fun x => by unfold inForceSomewhere; simp only [hsl]
  have rest : Stands u := by
    refine ⟨?_, ?_, ?_, ?_, ?_, fun g => absurd hur g, ?_⟩
    · simpa only [hsl] using h.below
    · simpa only [hsl, hus] using h.newer
    · simpa only [hus] using h.drains
    · simpa only [hus] using h.unloaded
    · simpa only [hsl, hul] using h.line
    · unfold State.n State.lineCopy; rw [hul]; exact h.stands
  have slot : ∀ x, (m.tag = some x → (s.store.slot x).state = .draining → tagsAMark u x) → slotOk u x := by
    intro x hd
    have := h.slots x
    unfold slotOk at this ⊢
    rw [hus]
    cases hst : (s.store.slot x).state <;> rw [hst] at this
    · exact ⟨this.1, fun g => this.2.1 ((hi x).1 g), fun g => this.2.2 ((htg x).2 (.inr g))⟩
    · exact ⟨fun g => this.1 ((hi x).1 g), fun g => this.2 ((htg x).2 (.inr g))⟩
    · exact (hi x).2 this
    · refine ⟨fun g => this.1 ((hi x).1 g), ?_⟩
      rcases (htg x).1 this.2 with g | g
      · exact hd g hst
      · exact g
  unfold markDeparted
  cases hm : m.tag with
  | none => exact ⟨rest, fun x => slot x (fun hx => by rw [hm] at hx; cases hx)⟩
  | some x =>
    dsimp only
    split
    · rename_i hc
      rw [hus] at hc
      have hnt : ¬tagsAMark u x := fun g => by have := (tagCount_pos u x).2 g; omega
      have hx := h.slots x
      unfold slotOk at hx
      rw [hc.1] at hx
      exact Stock.of_freed rest x _ _ (fun y hy => slot y (fun g => by
        rw [hm] at g; exact absurd (Option.some.inj g).symm hy)) (fun g => hx.1 ((hi x).1 g)) hnt
    · rename_i hc
      rw [hus] at hc
      refine ⟨rest, fun y => slot y (fun hy hd => ?_)⟩
      have : y = x := by rw [hm] at hy; exact (Option.some.inj hy).symm
      subst this
      rw [← tagCount_pos]
      by_contra hn
      exact hc ⟨hd, by omega⟩

/-- A mark cut at stand 1 has the tag of the slot in force there (R10). -/
theorem Stock.cut {s : State} (h : Stock s) (hr : s.level = .run) (kd : MarkKind) (x : Nat) : Stock (cutMark kd x s) := by
  obtain ⟨u, hu⟩ : ∃ u, u = cutMark kd x s := ⟨_, rfl⟩
  rw [← hu]
  have hus : u.store = s.store := by rw [hu]; rfl
  have hul : u.line = s.line := by rw [hu]; rfl
  have hur : u.level = .run := by rw [hu]; exact hr
  have htg : ∀ y, tagsAMark u y ↔ tagsAMark s y ∨ s.slotAt 1 = some y := by
    intro y
    have hz : u.tracker.zones = s.tracker.zones.set 1 (s.tracker.zones.get 1 ++ [newMark s kd x]) := by rw [hu]; rfl
    rw [tagsAMark_iff, tagsAMark_iff, hz, tagged_set _ _ _ (by omega)]
    have h1 := tagged_set s.tracker.zones 1 (s.tracker.zones.get 1) (by omega) y
    rw [PerStand.set_get] at h1
    rw [h1]
    have h2 : (∃ m ∈ s.tracker.zones.get 1 ++ [newMark s kd x], m.tag = some y) ↔
        (∃ m ∈ s.tracker.zones.get 1, m.tag = some y) ∨ s.slotAt 1 = some y := by
      constructor
      · rintro ⟨m, hm, hy⟩
        rcases List.mem_append.1 hm with g | g
        · exact .inl ⟨m, g, hy⟩
        · rw [List.mem_singleton] at g; subst g; exact .inr hy
      · rintro (⟨m, hm, hy⟩ | g)
        · exact ⟨m, List.mem_append_left _ hm, hy⟩
        · exact ⟨newMark s kd x, by simp, g⟩
    rw [h2, or_right_comm]
  have hsl : ∀ j, u.slotAt j = s.slotAt j := fun j => by unfold State.slotAt; rw [hus]
  have hi : ∀ y, inForceSomewhere u y ↔ inForceSomewhere s y := fun y => by unfold inForceSomewhere; simp only [hsl]
  refine ⟨⟨?_, ?_, ?_, ?_, ?_, fun g => absurd hur g, ?_⟩, fun y => ?_⟩
  · simpa only [hsl] using h.below
  · simpa only [hsl, hus] using h.newer
  · simpa only [hus] using h.drains
  · simpa only [hus] using h.unloaded
  · simpa only [hsl, hul] using h.line
  · unfold State.n State.lineCopy; rw [hul]; exact h.stands
  · have := h.slots y
    have hin : s.slotAt 1 = some y → inForceSomewhere s y := fun g => ⟨1, by decide, g⟩
    unfold slotOk at this ⊢
    rw [hus]
    cases hst : (s.store.slot y).state <;> rw [hst] at this
    · exact ⟨this.1, fun g => this.2.1 ((hi y).1 g), fun g => ((htg y).1 g).elim this.2.2 (fun e => this.2.1 (hin e))⟩
    · exact ⟨fun g => this.1 ((hi y).1 g), fun g => ((htg y).1 g).elim this.2 (fun e => this.1 (hin e))⟩
    · exact (hi y).2 this
    · exact ⟨fun g => this.1 ((hi y).1 g), (htg y).2 (.inl this.2)⟩

/-- The Tracker's work keeps the laws of the Schedule Store. -/
theorem stockRun_track : TrackKeeps StockRun where
  thread _ _ _ h := h.same rfl rfl rfl rfl
  gen _ _ h := h.same rfl rfl rfl rfl
  carry _ _ h := h.same rfl rfl rfl rfl
  raise _ _ _ h := h.same rfl rfl rfl rfl
  note _ _ _ _ _ _ _ _ h := by apply h.same <;> simp
  skip _ _ h := by
    unfold skipCut
    split
    · exact h
    · apply h.same <;> simp
  cut t kd x h := ⟨h.1.cut h.2 kd x, h.2⟩
  depart t k m q hz h := ⟨h.1.depart h.2 hz, by simpa using h.2⟩
  pass t k m q hz hk h := by
    have hk8 : k + 1 ≤ 8 := by have := h.1.stands; omega
    refine h.keep (by simp) (by simp) (by simp) (fun x => ?_)
    have hzo : (passMark k m q t).tracker.zones =
        (t.tracker.zones.set k q).set (k + 1) (t.tracker.zones.get (k + 1) ++ [m.passed (t.hEst (k + 1))]) := by
      unfold passMark; dsimp only; split <;> rfl
    rw [tagsAMark_iff, tagsAMark_iff, hzo]
    exact tagged_pass k m (m.passed _) q _ hz hk8 rfl x
  hold t k m q e hz h := by
    refine h.keep (by simp) (by simp) (by simp) (fun x => ?_)
    obtain ⟨m', hm, ht⟩ : ∃ m' : Mark, m'.tag = m.tag ∧
        (holdMark k m q e t).tracker.zones = (t.withZone k (m' :: q)).tracker.zones := by
      unfold holdMark
      dsimp only
      refine ⟨{ m with pos := t.zoneLen k, hold := some (m.grownHold e), lateReported := m.lateReported || tailIsLate t k m e }, rfl, ?_⟩
      repeat' split
      all_goals first | rfl | simp
    rw [tagsAMark_iff, tagsAMark_iff, ht]
    exact tagged_withZone _ _ _ (by rw [hz]; simp [hm]) x
  behind t k h := by
    rcases arriveBehind_cases k t with e | ⟨q, x, hz, e | e⟩ <;> rw [e]
    · exact h
    all_goals exact h.keep rfl rfl rfl fun y => tagged_withZone t k _ (by rw [hz]; simp) y
  move t k q d p m x hz h := h.keep rfl rfl rfl (fun y =>
    tagged_withZone t k _ (by rw [hz]; simp [advanceBehind_tags]) y)
  mode _ _ _ h := h.same rfl rfl rfl rfl
  table _ _ h := by apply h.same <;> simp
  terms _ _ h := h.same rfl rfl rfl rfl
  lock _ _ h := h.same rfl rfl rfl rfl
  leave _ _ h := by apply h.same <;> simp
  switch t k h := ⟨h.1.releaseSwitch k, by simpa using h.2⟩
  summary _ h := h.same rfl rfl rfl rfl

/-! ### Loads, flushes and collapses -/

/-- The stands 1 to `n` stand in ascending order. -/
theorem standsTo_sorted (n : Nat) : (standsTo n).Pairwise (· < ·) :=
  (by decide : standNumbers.Pairwise (· < ·)).sublist (List.take_sublist _ _)

/-- A run at the front of an ascending list holds all that is below any of it. -/
theorem takeWhile_below (p : Nat → Bool) (l : List Nat) (hl : l.Pairwise (· < ·)) {j k : Nat} (hk : k ∈ l.takeWhile p)
    (hj : j ∈ l) (hjk : j < k) : j ∈ l.takeWhile p := by
  have he := List.takeWhile_append_dropWhile (p := p) (l := l)
  rw [← he] at hj hl
  rcases List.mem_append.1 hj with g | g
  · exact g
  · have := (List.pairwise_append.1 hl).2.2 k hk j g
    omega

/-- A load into a FREE slot keeps the laws (R98, R99). -/
theorem Stock.load {s : State} (h : Stock s) (x : Slot) (r : Schedule) (ks : List Nat) (time : Clock)
    (hx : (s.store.slot x).state = .free) (hs : ks.Pairwise (· < ·)) (hk : ∀ k ∈ ks, 1 ≤ k ∧ k ≤ 8)
    (hb : ∀ k ∈ ks, ∀ j, 1 ≤ j → j < k → j ∈ ks) (hn : ∀ l, s.line = some l → ∀ k ∈ ks, k ≤ l.n) :
    Stock (loadInto x r ks time s) := by
  obtain ⟨u, hu⟩ : ∃ u : State, u = { s with store := { (s.store.withSlot x { state := .waiting, coil := r.coil, schedule := some r }) with lastLoaded := some x } } := ⟨_, rfl⟩
  have e : loadInto x r ks time s = retireTaken { cls := .completed, value := BitVec.ofNat 16 x.code }
      (switchStands ks x .load .lastStand time u) := by rw [hu]; rfl
  have hxs := h.slots x
  unfold slotOk at hxs
  rw [hx] at hxs
  have husl : ∀ y, u.store.slot y = if y = x then { state := .waiting, coil := r.coil, schedule := some r } else s.store.slot y := by
    intro y; rw [hu]; cases x <;> cases y <;> rfl
  have hsl : ∀ j, u.slotAt j = s.slotAt j := by intro j; rw [hu]; cases x <;> rfl
  have hi : ∀ y, inForceSomewhere u y ↔ inForceSomewhere s y := fun y => by unfold inForceSomewhere; simp only [hsl]
  have ht : ∀ y, tagsAMark u y ↔ tagsAMark s y := by intro y; rw [hu]; rfl
  have hl : u.store.lastLoaded = some x := by rw [hu]
  have hline : u.line = s.line := by rw [hu]
  have hlev : u.level = s.level ∧ u.tracker = s.tracker := by rw [hu]; exact ⟨rfl, rfl⟩
  have hnx : ∀ k, 1 ≤ k ∧ k ≤ 8 → s.slotAt k ≠ some x := fun k hk8 g => hxs.2.1 ⟨k, of_stand hk8, g⟩
  have hU : Stock u := by
    refine ⟨⟨by simpa only [hsl] using h.below, ?_, ?_, ?_, ?_, ?_, ?_⟩, fun y => ?_⟩
    · intro y hy j k h1 h2 h3 h4
      rw [hl] at hy; injection hy with hy; subst hy
      rw [hsl] at h4
      exact absurd h4 (hnx k (by omega))
    · intro y hd
      rw [husl] at hd
      rw [hl]
      split at hd
      · cases hd
      · cases x <;> cases y <;> first | rfl | exact absurd rfl ‹_›
    · intro g; rw [hl] at g; cases g
    · rw [hline]; simpa only [hsl] using h.line
    · rw [hlev.1, hlev.2]; exact h.level
    · unfold State.n State.lineCopy; rw [hline]; exact h.stands
    · by_cases hy : y = x
      · subst hy
        unfold slotOk
        rw [husl, if_pos rfl]
        exact ⟨fun g => hxs.2.1 ((hi y).1 g), fun g => hxs.2.2 ((ht y).1 g)⟩
      · exact Stock.slotOk_congr (h.slots y) (by rw [husl, if_neg hy]) (hi y) (ht y)
  rw [e]
  have := hU.switches .load .lastStand time ks hk hs hl (by rw [husl, if_pos rfl]; simp)
    (fun k hk' => by rw [hsl]; exact hnx k (hk k hk')) (fun k hk' j h1 h2 => .inr (hb k hk' j h1 h2))
    (fun l hl' => by rw [hline] at hl'; exact hn l hl')
  exact this.same (by simp) (by simp) (by simp) (by simp)

/-- LOAD_SCHEDULE keeps the laws (R98, R99). -/
theorem Stock.loadSchedule {s : State} (h : Stock s) (take : ScheduleTake) (time : Clock) :
    Stock (loadScheduleWork take time s) := by
  have hr : ∀ r, Stock (retireTaken r s) := fun r => by apply h.same <;> simp
  have hreach : ∀ rec : Schedule, ∃ n, loadReach s rec = standsTo n ∧ ∀ l, s.line = some l → n = l.n := by
    intro rec
    unfold loadReach
    cases s.line with
    | none => exact ⟨_, rfl, fun l g => by cases g⟩
    | some l => exact ⟨_, rfl, fun l g => by cases g; rfl⟩
  unfold loadScheduleWork
  split
  · exact hr _
  · rename_i rec
    split
    · exact hr _
    · obtain ⟨n, hn, hnl⟩ := hreach rec
      have free : ∀ x : Slot, (s.store.slot x).live = false → (s.store.slot x).state = .free := by
        intro x; unfold SlotRecord.live; simp
      have all : ∀ x : Slot, (s.store.slot x).state = .free → Stock (loadInto x rec (loadReach s rec) time s) := by
        intro x hx
        rw [hn]
        refine h.load x rec _ time hx (standsTo_sorted n) (reach_ok n).2 ?_ ?_
        · intro k hk j h1 h2
          rw [mem_standsTo] at hk ⊢; omega
        · intro l hl k hk
          rw [mem_standsTo] at hk; have := hnl l hl; omega
      have run : ∀ x : Slot, (s.store.slot x).state = .free → Stock (loadInto x rec (leadingVacantRun s rec) time s) := by
        intro x hx
        unfold leadingVacantRun
        rw [hn]
        have sub := List.takeWhile_sublist s.clearOfStrip (l := standsTo n)
        refine h.load x rec _ time hx ((standsTo_sorted n).sublist sub) (fun k hk => (reach_ok n).2 k (sub.subset hk)) ?_ ?_
        · intro k hk j h1 h2
          have hk' := sub.subset hk
          refine takeWhile_below _ _ (standsTo_sorted n) hk ?_ h2
          rw [mem_standsTo] at hk' ⊢; omega
        · intro l hl k hk
          have hk' := sub.subset hk
          rw [mem_standsTo] at hk'; have := hnl l hl; omega
      split
      · rename_i ha hb
        refine all _ ?_
        split
        · exact free .a ha
        · rename_i y _
          cases y
          · exact free .b hb
          · exact free .a ha
      · rename_i hb; exact run .b (free .b hb)
      · rename_i ha _; exact run .a (free .a ha)
      · exact hr _

/-- UNLOAD_SCHEDULE keeps the laws (R104). -/
theorem Stock.unloadSchedule {s : State} (h : Stock s) (field : Nat) (time : Clock) :
    Stock (unloadScheduleWork field time s) := by
  unfold unloadScheduleWork
  split
  · apply h.same <;> simp
  · rename_i x _
    split
    · rename_i hw
      have hx := h.slots x
      unfold slotOk at hx
      rw [hw] at hx
      have := Stock.of_freed h.toStands x .unload time (fun y _ => h.slots y) hx.1 hx.2
      exact this.same (by simp) (by simp) (by simp) (by simp)
    · apply h.same <;> simp

/-- No mark is in empty zones. -/
theorem tagged_none (x : Slot) : ¬tagged (PerStand.all []) x := by
  rintro ⟨k, hk, m, hm, -⟩
  rw [PerStand.get_all _ _ (stand_of hk)] at hm; cases hm

/-- A flush keeps the laws, at whatever level it leaves the part (R23, R103). -/
theorem Stock.flush {s u : State} (h : Stock s) (time : Clock) (hs : u.store = s.store) (hl : u.line = s.line) :
    Stock (flush time u) := by
  obtain ⟨f1, -, f3, f4, f5, -⟩ := flush_parts time u
  have fl : (Machine.flush time u).line = u.line := by simp
  generalize Machine.flush time u = t at *
  have hz : t.tracker.zones = PerStand.all [] := by rw [f1]
  have hsl : ∀ j, t.slotAt j = s.slotAt j := fun j => by unfold State.slotAt; rw [f4, hs]
  have hi : ∀ y, inForceSomewhere t y ↔ inForceSomewhere s y := fun y => by unfold inForceSomewhere; simp only [hsl]
  have ht : ∀ y, ¬tagsAMark t y := fun y => by rw [tagsAMark_iff, hz]; exact tagged_none y
  refine ⟨⟨by simpa only [hsl] using h.below, ?_, ?_, ?_, ?_, fun _ => hz, ?_⟩, fun y => ?_⟩
  · rw [f5, hs]; simpa only [hsl] using h.newer
  · intro y hd
    rw [f3] at hd
    split at hd
    · cases hd
    · exact absurd hd ‹_›
  · intro g y
    rw [f5, hs] at g
    rw [f3, hs]
    split
    · rfl
    · exact h.unloaded g y
  · rw [fl, hl]; simpa only [hsl] using h.line
  · unfold State.n State.lineCopy; rw [fl, hl]; exact h.stands
  · have := h.slots y
    unfold slotOk at this ⊢
    rw [f3, hs]
    cases hst : (s.store.slot y).state <;> rw [hst] at this
    · rw [if_neg (by simp), hst]; exact ⟨this.1, fun g => this.2.1 ((hi y).1 g), ht y⟩
    · rw [if_neg (by simp), hst]; exact ⟨fun g => this.1 ((hi y).1 g), ht y⟩
    · rw [if_neg (by simp), hst]; exact (hi y).2 this
    · rw [if_pos rfl]; exact ⟨rfl, fun g => this.1 ((hi y).1 g), ht y⟩

/-- What the switches of several stands do to the store. -/
theorem switches_store (x : Slot) (c : SwitchCause) (f : FreeCause) (time : Clock) (ks : List Nat) : ∀ (s : State),
    (∀ k ∈ ks, 1 ≤ k ∧ k ≤ 8) →
    let t := switchStands ks x c f time s
    (∀ k, t.slotAt k = if k ∈ ks then some x else s.slotAt k) ∧ t.store.lastLoaded = s.store.lastLoaded ∧
    t.store.slot x = (if ks ≠ [] ∧ (s.store.slot x).state = .waiting then { s.store.slot x with state := .inForce }
      else s.store.slot x) ∧
    (∀ y, y ≠ x → (∀ z, ¬tagsAMark s z) → t.store.slot y = s.store.slot y ∨ t.store.slot y = {}) ∧
    (∀ y, y ≠ x → (∀ k ∈ ks, s.slotAt k ≠ some y) → t.store.slot y = s.store.slot y) ∧
    t.line = s.line ∧ t.level = s.level ∧ t.tracker = s.tracker := by
  induction ks with
  | nil => exact fun s _ => ⟨fun _ => by simp [switchStands], rfl, by simp [switchStands], fun _ _ _ => .inl rfl, fun _ _ _ => rfl, rfl, rfl, rfl⟩
  | cons k ks ih =>
    intro s hks t
    have hk := hks k (by simp)
    have hsp := switch_spec k x c f time s hk
    have hkeep : (switchStand k x c f time s).line = s.line ∧ (switchStand k x c f time s).level = s.level ∧
        (switchStand k x c f time s).tracker = s.tracker := by simp
    have hoth := fun y (hy : y ≠ x) => switch_other k x y c f time s hk hy
    obtain ⟨i1, i2, i3, i4, i5, i6, i7, i8⟩ := ih (switchStand k x c f time s) (fun j hj => hks j (by simp [hj]))
    have ht : t = switchStands ks x c f time (switchStand k x c f time s) := rfl
    rw [← ht] at i1 i2 i3 i4 i5 i6 i7 i8
    generalize switchStand k x c f time s = u at *
    have hu : ∀ j, u.slotAt j = if j = k then some x else s.slotAt j := by
      intro j
      show u.store.inForce.get j = _
      rw [hsp.1, PerStand.get_set _ _ _ _ hk]; rfl
    have hut : ∀ y, tagsAMark u y ↔ tagsAMark s y := fun y => by unfold tagsAMark State.zone; rw [hkeep.2.2]
    refine ⟨fun j => ?_, i2.trans hsp.2.1, ?_, ?_, ?_, i6.trans hkeep.1, i7.trans hkeep.2.1, i8.trans hkeep.2.2⟩
    · rw [i1, hu]
      by_cases h1 : j ∈ ks <;> by_cases h2 : j = k <;> simp [h1, h2]
    · rw [i3, hsp.2.2.1]
      cases hw : (s.store.slot x).state <;> simp [hw]
    · intro y hy hnt
      have h1 : u.store.slot y = s.store.slot y ∨ u.store.slot y = {} := by
        obtain ⟨o1, o2⟩ := hoth y hy
        by_cases hki : s.slotAt k = some y
        · by_cases hi : inForceSomewhere u y
          · exact .inl (o1 (.inr hi))
          · exact .inr ((o2 hki hi).2 (hnt y))
        · exact .inl (o1 (.inl hki))
      rcases i4 y hy (fun z g => hnt z ((hut z).1 g)) with g | g
      · rw [g]; exact h1
      · exact .inr g
    · intro y hy hno
      rw [i5 y hy (fun j hj => by
        rw [hu]; split
        · exact fun g => hy (Option.some.inj g).symm
        · exact hno j (by simp [hj]))]
      exact (hoth y hy).1 (.inl (hno k (by simp)))

/-- With no mark tracked, and no stand above N on a slot, the collapse keeps the laws (R105). -/
theorem Stock.collapse {s : State} (h : Stock s) (c : SwitchCause) (time : Clock) (hz : s.tracker.zones = PerStand.all [])
    (hn : ∀ k, s.n < k → k ≤ 8 → s.slotAt k = none) : Stock (collapseSlots c time s) := by
  unfold collapseSlots
  split
  · exact h
  · rename_i x hx
    split
    · rename_i hb
      have hlive : ∀ y, (s.store.slot y).state ≠ .free := by
        unfold Store.bothLive SlotRecord.live at hb
        simp only [Bool.and_eq_true, bne_iff_ne, ne_eq] at hb
        intro y; cases y <;> simp [Store.slot, hb]
      have hne : x.other ≠ x := by cases x <;> decide
      have hmem : ∀ k, k ∈ (standsTo s.n).filter (fun k => s.slotAt k == some x.other) ↔
          (1 ≤ k ∧ k ≤ 8 ∧ k ≤ s.n) ∧ s.slotAt k = some x.other := by
        intro k; simp [mem_standsTo]
      dsimp only
      generalize hks : (standsTo s.n).filter (fun k => s.slotAt k == some x.other) = ks at *
      have hk8 : ∀ k ∈ ks, 1 ≤ k ∧ k ≤ 8 := fun k hk => by have := ((hmem k).1 hk).1; omega
      have h1 : Stock (switchStands ks x c .collapse time s) := by
        refine h.switches c .collapse time ks hk8 ?_ hx (hlive x) ?_ ?_ ?_
        · rw [← hks]; exact (standsTo_sorted _).sublist List.filter_sublist
        · intro k hk g
          rw [((hmem k).1 hk).2] at g
          exact hne (Option.some.inj g)
        · intro k hk j h1 h2
          obtain ⟨hkn, hko⟩ := (hmem k).1 hk
          have := h.below j k h1 (by omega) (by omega) (by rw [hko]; rfl)
          cases hj : s.slotAt j with
          | none => rw [hj] at this; cases this
          | some y =>
            by_cases hy : y = x
            · left; rw [hy]
            · right
              rw [hmem]
              refine ⟨by omega, ?_⟩
              rw [hj]
              cases x <;> cases y <;> first | rfl | exact absurd rfl hy
        · intro l hl k hk
          have := ((hmem k).1 hk).1
          unfold State.n State.lineCopy at this
          rw [hl] at this; exact this.2.2
      obtain ⟨g1, -, -, -, -, -, -, g8⟩ := switches_store x c .collapse time ks s hk8
      split
      · refine Stock.of_freed h1.toStands x.other _ _ (fun y _ => h1.slots y) ?_ ?_
        · rintro ⟨k, hk, hkx⟩
          have hk' := stand_of hk
          rw [g1] at hkx
          split at hkx
          · exact hne (Option.some.inj hkx).symm
          · rename_i hnk
            by_cases hle : k ≤ s.n
            · exact hnk ((hmem k).2 ⟨by omega, hkx⟩)
            · rw [hn k (by omega) hk'.2] at hkx; cases hkx
        · rw [tagsAMark_iff, g8, hz]; exact tagged_none _
      · exact h1
    · exact h

/-- What a mismatch makes of the store (R106, step 1). -/
theorem dropMismatch_store (x : Slot) (s : State) :
    let drop := (s.store.slot x).live = true ∧ ((s.store.slot x).schedule.getD {}).count ≠ s.n
    let t := dropMismatch x s
    (∀ y, t.store.slot y = if y = x ∧ drop then {} else s.store.slot y) ∧
    (∀ k, t.slotAt k = if drop ∧ s.slotAt k = some x then none else s.slotAt k) ∧
    t.store.lastLoaded = s.store.lastLoaded ∧ t.line = s.line ∧ t.tracker = s.tracker := by
  intro drop t
  have e : t = (if drop then _ else s) := rfl
  by_cases hd : drop
  · rw [e, if_pos hd]
    obtain ⟨r1, r2⟩ := freeSlot_rest x .mismatch s.clock s
    refine ⟨fun y => ?_, fun k => ?_, r2, by simp, by simp⟩
    · have := freeSlot_slot x y .mismatch s.clock s
      cases y
      · show (freeSlot x .mismatch s.clock s).store.slot .a = _
        rw [this]; simp [hd]
      · show (freeSlot x .mismatch s.clock s).store.slot .b = _
        rw [this]; simp [hd]
    · show ((freeSlot x .mismatch s.clock s).store.inForce.map _).get k = _
      rw [r1]
      by_cases hk : 1 ≤ k ∧ k ≤ 8
      · rw [PerStand.get_map _ _ _ hk]
        show (if s.slotAt k = some x then none else s.slotAt k) = _
        simp [hd]
      · rw [PerStand.get_outside _ _ hk]
        have : s.slotAt k = none := PerStand.get_outside _ _ hk
        rw [this]; simp; rfl
  · rw [e, if_neg hd]
    exact ⟨fun y => by rw [if_neg (fun g => hd g.2)], fun k => by rw [if_neg (fun g => hd g.1)], rfl, rfl, rfl⟩

/-- The slots that a RUN entry drops for their stand count (R106, step 1). -/
theorem mismatches_store (s : State) (hs : ∀ x, slotOk s x) (hz : s.tracker.zones = PerStand.all []) (fits : Slot → Bool)
    (hf : ∀ x, fits x = decide ((s.store.slot x).state ≠ .free ∧ ((s.store.slot x).schedule.getD {}).count = s.n)) :
    let t := dropMismatch .b (dropMismatch .a s)
    (∀ x, t.store.slot x = if fits x = true then s.store.slot x else {}) ∧
    (∀ k x, t.slotAt k = some x ↔ s.slotAt k = some x ∧ fits x = true) ∧
    t.store.lastLoaded = s.store.lastLoaded ∧ t.line = s.line ∧ t.tracker = s.tracker ∧
    ∀ x, (s.store.slot x).state ≠ .draining ∧ ((s.store.slot x).state = .waiting → ∀ k, s.slotAt k ≠ some x) := by
  intro t
  have hin : ∀ k x, s.slotAt k = some x → (s.store.slot x).state = .inForce := by
    intro k x hk
    have hk8 : 1 ≤ k ∧ k ≤ 8 := by
      by_contra hn
      have : s.slotAt k = none := PerStand.get_outside _ _ hn
      rw [this] at hk; cases hk
    have := hs x
    have hi : inForceSomewhere s x := ⟨k, of_stand hk8, hk⟩
    unfold slotOk at this
    cases hst : (s.store.slot x).state <;> rw [hst] at this
    · exact absurd hi this.2.1
    · exact absurd hi this.1
    · exact absurd hi this.1
  have hfree : ∀ x, (s.store.slot x).state = .free → s.store.slot x = {} := by
    intro x h
    have := hs x
    unfold slotOk at this
    rw [h] at this; exact this.1
  have hlive : ∀ r : SlotRecord, r.live = true ↔ r.state ≠ .free := fun r => by unfold SlotRecord.live; simp
  obtain ⟨a1, a2, a3, a4, a5⟩ := dropMismatch_store .a s
  obtain ⟨b1, b2, b3, b4, b5⟩ := dropMismatch_store .b (dropMismatch .a s)
  have hna : (dropMismatch .a s).n = s.n := by unfold State.n State.lineCopy; rw [a4]
  have hbs : (dropMismatch .a s).store.slot .b = s.store.slot .b := by rw [a1, if_neg (by simp)]
  rw [hbs, hna] at b1 b2
  have drop : ∀ x, ((s.store.slot x).live = true ∧ ((s.store.slot x).schedule.getD {}).count ≠ s.n) ↔
      (s.store.slot x).state ≠ .free ∧ fits x = false := by
    intro x
    rw [hlive, hf]
    by_cases h : (s.store.slot x).state = .free <;> simp [h]
  have one : ∀ x, (if (s.store.slot x).state ≠ .free ∧ fits x = false then {} else s.store.slot x) =
      if fits x = true then s.store.slot x else ({} : SlotRecord) := by
    intro x
    by_cases h : (s.store.slot x).state = .free
    · rw [if_neg (fun g => g.1 h), hfree x h]; simp
    · cases hx : fits x <;> simp [h]
  refine ⟨fun x => ?_, fun k x => ?_, by rw [b3, a3], by rw [b4, a4], by rw [b5, a5], fun x => ⟨?_, ?_⟩⟩
  · rw [← one]
    cases x
    · rw [b1, if_neg (by simp), a1]
      simp only [drop, true_and]
    · rw [b1]
      simp only [drop, true_and, hbs]
  · rw [b2, a2]
    simp only [drop]
    cases hk : s.slotAt k with
    | none => simp
    | some y =>
      have := hin k y hk
      cases x <;> cases y <;> cases hfa : fits .a <;> cases hfb : fits .b <;> simp_all
  · intro hd
    have := hs x
    unfold slotOk at this
    rw [hd] at this
    exact tagged_none x (by rw [← hz]; exact this.2)
  · intro hw k hk
    rw [hin k x hk] at hw; cases hw

/-- The one live slot, where it is alone, is given to every stand 1 to N that has none (R106, step 3). -/
theorem fill_store (y : Slot) (s : State) (c : SwitchCause) (f : FreeCause) (time : Clock) (h1 : 1 ≤ s.n)
    (hy : (s.store.slot y).state = .inForce ∨ (s.store.slot y).state = .waiting ∧ s.slotAt 1 = none)
    (ho : s.store.slot y.other = {}) (hk : ∀ k, 1 ≤ k ∧ k ≤ 8 → k ≤ s.n → s.slotAt k = none ∨ s.slotAt k = some y) :
    let t := switchStands ((standsTo s.n).filter fun k => (s.slotAt k).isNone) y c f time s
    (∀ x, t.store.slot x = if x = y then { s.store.slot y with state := .inForce } else {}) ∧
    (∀ k, 1 ≤ k ∧ k ≤ 8 → k ≤ s.n → t.slotAt k = some y) ∧ t.store.lastLoaded = s.store.lastLoaded ∧ t.line = s.line := by
  intro t
  have hm : ∀ k, k ∈ (standsTo s.n).filter (fun k => (s.slotAt k).isNone) ↔ (1 ≤ k ∧ k ≤ 8 ∧ k ≤ s.n) ∧ s.slotAt k = none := by
    intro k; simp [mem_standsTo]
  obtain ⟨g1, g2, g3, -, g5, g6, -⟩ := switches_store y c f time _ s
    (fun k hk' => by have := ((hm k).1 hk').1; omega)
  refine ⟨fun x => ?_, fun k hk8 hkn => ?_, g2, g6⟩
  · by_cases hx : x = y
    · subst hx
      rw [if_pos rfl]
      refine g3.trans ?_
      rcases hy with hi | ⟨hw, hn⟩
      · rw [if_neg (by simp [hi]), ← hi]
      · have h1m : 1 ∈ (standsTo s.n).filter (fun k => (s.slotAt k).isNone) := (hm 1).2 ⟨by omega, hn⟩
        rw [if_pos ⟨List.ne_nil_of_mem h1m, hw⟩]
    · rw [if_neg hx]
      have hxo : x = y.other := by cases x <;> cases y <;> first | rfl | exact absurd rfl hx
      refine (g5 x hx (fun k hk' g => ?_)).trans (by rw [hxo]; exact ho)
      rw [((hm k).1 hk').2] at g; cases g
  · refine (g1 k).trans ?_
    by_cases h : s.slotAt k = none
    · rw [if_pos ((hm k).2 ⟨by omega, h⟩)]
    · rw [if_neg (fun g => h ((hm k).1 g).2)]
      exact (hk k hk8 hkn).resolve_left h

/-- The Schedule Store after a RUN entry (R106): of the live slots with the new N, the one last loaded if there are two, is the
one live slot, in force at every stand 1 to N. -/
theorem slotsRunEntry_store (s : State) (hs : ∀ x, slotOk s x) (hz : s.tracker.zones = PerStand.all [])
    (hu : s.store.lastLoaded = none → ∀ x, (s.store.slot x).state = .free) (h1 : 1 ≤ s.n) (fits : Slot → Bool)
    (hf : ∀ x, fits x = decide ((s.store.slot x).state ≠ .free ∧ ((s.store.slot x).schedule.getD {}).count = s.n))
    (c : Option Slot)
    (hc : c = (match fits .a, fits .b with
      | true, true => s.store.lastLoaded
      | true, false => some .a
      | false, true => some .b
      | false, false => none)) :
    let t := slotsRunEntry s
    (∀ x, t.store.slot x = if c = some x then { s.store.slot x with state := .inForce } else {}) ∧
    (∀ k, 1 ≤ k ∧ k ≤ 8 → t.slotAt k = if k ≤ s.n then c else none) ∧
    t.store.lastLoaded = s.store.lastLoaded ∧ (∀ x, c = some x → fits x = true) ∧ t.line = s.line := by
  intro t
  obtain ⟨e1, e2, e3, e4, e5, e6⟩ := mismatches_store s hs hz fits hf
  obtain ⟨s1, hs1⟩ : ∃ s1, s1 = dropMismatch .b (dropMismatch .a s) := ⟨_, rfl⟩
  rw [← hs1] at e1 e2 e3 e4 e5
  obtain ⟨s2, hs2⟩ : ∃ s2, s2 = collapseSlots .runEntry s1.clock s1 := ⟨_, rfl⟩
  obtain ⟨s3, hs3⟩ : ∃ s3, s3 = (match s2.store.oneLive with
    | some x => switchStands ((standsTo s2.n).filter fun k => (s2.slotAt k).isNone) x .runEntry .lastStand s2.clock s2
    | none => s2) := ⟨_, rfl⟩
  have ht : t = { s3 with store := { s3.store with
      inForce := PerStand.ofStand fun k => if k ≤ s3.n then s3.slotAt k else none } } := by
    rw [hs3, hs2, hs1]; rfl
  have l1 : ∀ x, (s1.store.slot x).live = fits x := by
    intro x
    rw [e1]
    cases hx : fits x
    · simp [SlotRecord.live]
    · rw [if_pos rfl]
      rw [hf] at hx
      unfold SlotRecord.live
      simpa using (of_decide_eq_true hx).1
  have la := l1 .a
  have lb := l1 .b
  have hfs : ∀ x, fits x = true → (s.store.slot x).state = .inForce ∨ (s.store.slot x).state = .waiting := by
    intro x hx
    rw [hf] at hx
    have h := (of_decide_eq_true hx).1
    have := (e6 x).1
    cases hst : (s.store.slot x).state <;> simp_all
  have fin : s3.line = s.line → s3.store.lastLoaded = s.store.lastLoaded →
      (∀ x, s3.store.slot x = if c = some x then { s.store.slot x with state := .inForce } else {}) →
      (∀ k, 1 ≤ k ∧ k ≤ 8 → k ≤ s.n → s3.slotAt k = c) → (∀ x, c = some x → fits x = true) →
      (∀ x, t.store.slot x = if c = some x then { s.store.slot x with state := .inForce } else {}) ∧
      (∀ k, 1 ≤ k ∧ k ≤ 8 → t.slotAt k = if k ≤ s.n then c else none) ∧
      t.store.lastLoaded = s.store.lastLoaded ∧ (∀ x, c = some x → fits x = true) ∧ t.line = s.line := by
    intro f1 f2 f3 f4 f5
    have hn3 : s3.n = s.n := by unfold State.n State.lineCopy; rw [f1]
    rw [ht]
    refine ⟨fun x => ?_, fun k hk => ?_, f2, f5, f1⟩
    · refine Eq.trans ?_ (f3 x); cases x <;> rfl
    · show (PerStand.ofStand fun k => if k ≤ s3.n then s3.slotAt k else none).get k = _
      rw [PerStand.get_ofStand _ _ hk, hn3]
      split
      · exact f4 k hk ‹_›
      · rfl
  -- one slot fits, or the collapse has left one
  have one : ∀ y, fits y = true → c = some y → s2.line = s.line → s2.store.lastLoaded = s.store.lastLoaded →
      s2.store.slot y.other = {} → (s2.store.slot y = s.store.slot y ∨ s2.store.slot y = { s.store.slot y with state := .inForce }) →
      ((s2.store.slot y).state = .waiting → s2.slotAt 1 = none) →
      (∀ k, 1 ≤ k ∧ k ≤ 8 → k ≤ s.n → s2.slotAt k = none ∨ s2.slotAt k = some y) →
      (∀ x, t.store.slot x = if c = some x then { s.store.slot x with state := .inForce } else {}) ∧
      (∀ k, 1 ≤ k ∧ k ≤ 8 → t.slotAt k = if k ≤ s.n then c else none) ∧
      t.store.lastLoaded = s.store.lastLoaded ∧ (∀ x, c = some x → fits x = true) ∧ t.line = s.line := by
    intro y hy hcy g1 g2 g3 g4 g5 g6
    have hn2 : s2.n = s.n := by unfold State.n State.lineCopy; rw [g1]
    have hst : (s2.store.slot y).state = .inForce ∨ (s2.store.slot y).state = .waiting := by
      rcases g4 with g | g <;> rw [g]
      · exact hfs y hy
      · exact .inl rfl
    have hone : s2.store.oneLive = some y := by
      have hly : (s2.store.slot y).live = true := by
        unfold SlotRecord.live; rcases hst with g | g <;> rw [g] <;> rfl
      have hlo : (s2.store.slot y.other).live = false := by rw [g3]; rfl
      unfold Store.oneLive
      cases y with
      | a => rw [show s2.store.slotA.live = true from hly, show s2.store.slotB.live = false from hlo]
      | b => rw [show s2.store.slotB.live = true from hly, show s2.store.slotA.live = false from hlo]
    rw [hone] at hs3
    obtain ⟨k1, k2, k3, k4⟩ := fill_store y s2 .runEntry .lastStand s2.clock (by rw [hn2]; exact h1)
      (by rcases hst with g | g
          · exact .inl g
          · exact .inr ⟨g, g5 g⟩) g3 (fun k hk hkn => g6 k hk (by rw [← hn2]; exact hkn))
    dsimp only at hs3
    rw [← hs3] at k1 k2 k3 k4
    refine fin (k4.trans g1) (k3.trans g2) (fun x => ?_) (fun k hk hkn => ?_) (fun x hx => ?_)
    · rw [k1, hcy]
      by_cases hx : x = y
      · subst hx
        rw [if_pos rfl, if_pos rfl]
        rcases g4 with g | g <;> rw [g]
      · rw [if_neg hx, if_neg (fun g => hx (Option.some.inj g).symm)]
    · rw [hcy]; exact k2 k hk (by rw [hn2]; exact hkn)
    · rw [hcy] at hx; injection hx with hx; rw [← hx]; exact hy
  have keep1 : s2 = s1 → ∀ y, fits y = true → fits y.other = false → c = some y →
      (∀ x, t.store.slot x = if c = some x then { s.store.slot x with state := .inForce } else {}) ∧
      (∀ k, 1 ≤ k ∧ k ≤ 8 → t.slotAt k = if k ≤ s.n then c else none) ∧
      t.store.lastLoaded = s.store.lastLoaded ∧ (∀ x, c = some x → fits x = true) ∧ t.line = s.line := by
    intro h21 y hy ho hcy
    have hyo : ∀ k, s1.slotAt k = none ∨ s1.slotAt k = some y := by
      intro k
      cases hk : s1.slotAt k with
      | none => exact .inl rfl
      | some z =>
        have := ((e2 k z).1 hk).2
        right
        by_cases hzy : z = y
        · rw [hzy]
        · rw [show z = y.other by cases z <;> cases y <;> first | rfl | exact absurd rfl hzy, ho] at this
          cases this
    rw [h21] at one
    refine one y hy hcy e4 e3 (by rw [e1, ho]; rfl) (.inl (by rw [e1, if_pos hy])) (fun hw => ?_) (fun k _ _ => hyo k)
    rw [e1, if_pos hy] at hw
    rcases hyo 1 with g | g
    · exact g
    · exact absurd ((e2 1 y).1 g).1 ((e6 y).2 hw 1)
  have nocol : ¬s1.store.bothLive = true → s2 = s1 := by
    intro h
    rw [hs2]; unfold collapseSlots
    split
    · rfl
    · rw [if_neg h]
  have hbl : s1.store.bothLive = (fits .a && fits .b) := by
    unfold Store.bothLive; rw [← la, ← lb]; rfl
  cases hfa : fits .a <;> cases hfb : fits .b <;> rw [hfa, hfb] at hc <;> dsimp only at hc
  · have h21 := nocol (by rw [hbl, hfa, hfb]; simp)
    have hone : s2.store.oneLive = none := by
      rw [h21]; unfold Store.oneLive
      rw [show s1.store.slotA.live = false from la.trans hfa, show s1.store.slotB.live = false from lb.trans hfb]
    rw [hone] at hs3
    dsimp only at hs3
    rw [hs3, h21] at fin
    refine fin e4 e3 (fun x => ?_) (fun k _ _ => ?_) (fun x hx => ?_)
    · rw [e1, hc, if_neg (by cases x <;> simp [hfa, hfb]), if_neg (by simp)]
    · rw [hc]
      cases hk : s1.slotAt k with
      | none => rfl
      | some z =>
        have := ((e2 k z).1 hk).2
        cases z
        · rw [hfa] at this; cases this
        · rw [hfb] at this; cases this
    · rw [hc] at hx; cases hx
  · exact keep1 (nocol (by rw [hbl, hfa, hfb]; simp)) .b hfb hfa hc
  · exact keep1 (nocol (by rw [hbl, hfa, hfb]; simp)) .a hfa hfb hc
  · have hall : ∀ x, fits x = true := by intro x; cases x <;> assumption
    have hlx : ∀ x, (s.store.slot x).state ≠ .free := fun x => by
      have := hall x; rw [hf] at this; exact (of_decide_eq_true this).1
    cases hx : s.store.lastLoaded with
    | none => exact absurd (hu hx .a) (hlx .a)
    | some x =>
      rw [← hx]
      have hn1 : s1.n = s.n := by unfold State.n State.lineCopy; rw [e4]
      have hne : x.other ≠ x := by cases x <;> decide
      have e1' : ∀ y, s1.store.slot y = s.store.slot y := fun y => by rw [e1, if_pos (hall y)]
      have e2' : ∀ k y, s1.slotAt k = some y ↔ s.slotAt k = some y := fun k y => by rw [e2]; simp [hall y]
      have hm : ∀ k, k ∈ (standsTo s1.n).filter (fun k => s1.slotAt k == some x.other) ↔
          (1 ≤ k ∧ k ≤ 8 ∧ k ≤ s.n) ∧ s1.slotAt k = some x.other := by
        intro k; simp [mem_standsTo, hn1]
      obtain ⟨u, hu'⟩ : ∃ u, u = switchStands ((standsTo s1.n).filter fun k => s1.slotAt k == some x.other) x .runEntry
        .collapse s1.clock s1 := ⟨_, rfl⟩
      have w := switches_store x .runEntry .collapse s1.clock
        ((standsTo s1.n).filter fun k => s1.slotAt k == some x.other) s1 (fun k hk => by have := ((hm k).1 hk).1; omega)
      rw [← hu'] at w
      have hs2u : s2 = if (u.store.slot x.other).live then freeSlot x.other .collapse s1.clock u else u := by
        rw [hs2]; unfold collapseSlots
        rw [e3, hx]; dsimp only
        rw [if_pos (by rw [hbl, hfa, hfb]; rfl), ← hu']
      clear hu'
      generalize (standsTo s1.n).filter (fun k => s1.slotAt k == some x.other) = ks at *
      obtain ⟨w1, w2, w3, w4, -, w6, -, -⟩ := w
      have hnt1 : ∀ z, ¬tagsAMark s1 z := fun z => by
        rw [tagsAMark_iff, e5, hz]; exact tagged_none z
      have wo := w4 x.other hne hnt1
      have hsl : ∀ y, s2.store.slot y = if y = x.other then {} else u.store.slot y := by
        intro y
        rw [hs2u]
        split
        · rw [freeSlot_slot]
        · rename_i hnl
          split
          · rename_i hy
            subst hy
            rcases wo with g | g
            · exfalso; apply hnl; rw [g, l1]; exact hall _
            · exact g
          · rfl
      have hrest : s2.store.inForce = u.store.inForce ∧ s2.store.lastLoaded = u.store.lastLoaded ∧ s2.line = u.line := by
        rw [hs2u]
        split
        · exact ⟨(freeSlot_rest _ _ _ _).1, (freeSlot_rest _ _ _ _).2, by simp⟩
        · exact ⟨rfl, rfl, rfl⟩
      have hat : ∀ k, s2.slotAt k = if k ∈ ks then some x else s1.slotAt k := by
        intro k; rw [← w1]; show s2.store.inForce.get k = _; rw [hrest.1]; rfl
      have hsx : s2.store.slot x = if ks ≠ [] ∧ (s.store.slot x).state = .waiting
          then { s.store.slot x with state := .inForce } else s.store.slot x := by
        rw [hsl, if_neg (Ne.symm hne), w3, e1']
      refine one x (hall x) (hc.trans hx) (hrest.2.2.trans (w6.trans e4)) (hrest.2.1.trans (w2.trans e3)) ?_ ?_ ?_ ?_
      · rw [hsl, if_pos rfl]
      · rw [hsx]; split
        · exact .inr rfl
        · exact .inl rfl
      · intro hw
        rw [hsx] at hw
        have hnw : ¬(ks ≠ [] ∧ (s.store.slot x).state = .waiting) := by
          intro g; rw [if_pos g] at hw; cases hw
        rw [if_neg hnw] at hw
        have hks : ks = [] := by
          by_contra g; exact hnw ⟨g, hw⟩
        rw [hat, hks, if_neg (by simp)]
        cases hk1 : s1.slotAt 1 with
        | none => rfl
        | some z =>
          exfalso
          have hz1 := (e2' 1 z).1 hk1
          by_cases hzx : z = x
          · subst hzx; exact (e6 z).2 hw 1 hz1
          · have hzo : z = x.other := by cases z <;> cases x <;> first | rfl | exact absurd rfl hzx
            have := (hm 1).2 ⟨by omega, by rw [hk1, hzo]⟩
            rw [hks] at this; cases this
      · intro k hk8 hkn
        rw [hat]
        split
        · exact .inr rfl
        · rename_i hnk
          cases hk1 : s1.slotAt k with
          | none => exact .inl rfl
          | some z =>
            right
            by_cases hzx : z = x
            · rw [hzx]
            · have hzo : z = x.other := by cases z <;> cases x <;> first | rfl | exact absurd rfl hzx
              exact absurd ((hm k).2 ⟨by omega, by rw [hk1, hzo]⟩) hnk

/-! ### The steps that change the Store as a whole -/

/-- A RUN entry's part in the Schedule Store leaves its laws, whatever the line description copy was before (R106). -/
theorem Stock.runEntry {s : State} (hs : ∀ x, slotOk s x) (hz : s.tracker.zones = PerStand.all [])
    (hu : s.store.lastLoaded = none → ∀ x, (s.store.slot x).state = .free) (h1 : 1 ≤ s.n)
    (h8 : s.n ≤ 8) : Stock (slotsRunEntry s) := by
  obtain ⟨fits, hf⟩ : ∃ fits : Slot → Bool, ∀ x, fits x =
      decide ((s.store.slot x).state ≠ .free ∧ ((s.store.slot x).schedule.getD {}).count = s.n) := ⟨_, fun _ => rfl⟩
  obtain ⟨c, hc⟩ : ∃ c, c = (match fits .a, fits .b with
      | true, true => s.store.lastLoaded
      | true, false => some .a
      | false, true => some .b
      | false, false => none) := ⟨_, rfl⟩
  obtain ⟨e1, e2, e3, e4, e5⟩ := slotsRunEntry_store s hs hz hu h1 fits hf c hc
  have ht : (slotsRunEntry s).tracker = s.tracker := by simp
  generalize slotsRunEntry s = t at *
  have hout : ∀ k x, t.slotAt k = some x → (1 ≤ k ∧ k ≤ 8) ∧ k ≤ s.n ∧ c = some x := by
    intro k x hk
    by_cases hk8 : 1 ≤ k ∧ k ≤ 8
    · rw [e2 k hk8] at hk
      split at hk
      · exact ⟨hk8, ‹_›, hk⟩
      · cases hk
    · rw [show t.slotAt k = none from PerStand.get_outside _ _ hk8] at hk; cases hk
  have hin : ∀ x, c = some x → inForceSomewhere t x := fun x hx => ⟨1, by decide, by rw [e2 1 (by omega), if_pos h1, hx]⟩
  have hst : ∀ x, (t.store.slot x).state = if c = some x then SlotState.inForce else .free := fun x => by
    rw [e1]; split <;> rfl
  refine ⟨⟨?_, ?_, ?_, ?_, ?_, fun _ => by rw [ht]; exact hz, ?_⟩, fun x => ?_⟩
  · intro j k hj hjk hk8 hsome
    obtain ⟨x, hx⟩ := Option.isSome_iff_exists.1 hsome
    obtain ⟨-, hkn, hcx⟩ := hout k x hx
    rw [e2 j (by omega), if_pos (by omega), hcx]; rfl
  · intro x _ j k hj hjk hk8 hx
    obtain ⟨-, hkn, hcx⟩ := hout k x hx
    rw [e2 j (by omega), if_pos (by omega), hcx]
  · intro x hd
    rw [hst] at hd; split at hd <;> cases hd
  · intro hnone x
    rw [e3] at hnone
    rw [hst, if_neg]
    intro hcx
    have hfx := e4 x hcx
    rw [hf] at hfx
    exact (of_decide_eq_true hfx).1 (hu hnone x)
  · intro l hl k hlk hk8
    rw [e5] at hl
    have hn : s.n = l.n := by unfold State.n State.lineCopy; rw [hl]; rfl
    by_cases hk1 : 1 ≤ k
    · rw [e2 k ⟨hk1, hk8⟩, if_neg (by omega)]
    · exact PerStand.get_outside _ _ (by omega)
  · have hn : t.n = s.n := by unfold State.n State.lineCopy; rw [e5]
    rw [hn]; exact h8
  · unfold slotOk
    rw [hst]
    by_cases hx : c = some x
    · rw [if_pos hx]; exact hin x hx
    · rw [if_neg hx]
      refine ⟨by rw [e1, if_neg hx], ?_, by rw [tagsAMark_iff, ht, hz]; exact tagged_none x⟩
      rintro ⟨k, -, hk⟩
      exact hx (hout k x hk).2.2

/-- Leaving RUN keeps the laws: the moves end, the link stops, and the flush empties the zones (R165, R103). -/
theorem Stock.leaveRun {s : State} (h : Stock s) (l : RunLevel) : Stock (leaveRun l s) := by
  refine h.flush _ ?_ ?_ <;> simp [stopLink, levelDrop] <;> split <;> simp

/-- An accepted trip reset at RUN keeps the laws: the flush, and then the collapse (R139, R103, R105). -/
theorem Stock.acceptReset {s : State} (h : Stock s) (hl : s.line.isSome = true) (time : Clock) :
    Stock (acceptReset time s) := by
  obtain ⟨u, hu⟩ : ∃ u, u = gapTripReset (gaugeTripReset (thicknessTripReset s.clock
    (resetThreading (Machine.flush s.clock (clearTrip s))))) := ⟨_, rfl⟩
  have hf : Stock (Machine.flush s.clock (clearTrip s)) := h.flush _ rfl rfl
  have hz := (flush_parts s.clock (clearTrip s)).1
  have hut : u.tracker.zones = (Machine.flush s.clock (clearTrip s)).tracker.zones := by rw [hu]; simp; rfl
  have hus : Stock u := hf.same (by rw [hu]; simp) (by rw [hu]; simp) (by rw [hu]; simp) hut
  have huz : u.tracker.zones = PerStand.all [] := by rw [hut, hz]
  have hul : u.line = s.line := by rw [hu]; simp [clearTrip]
  have hc : Stock (collapseSlots .tripReset s.clock u) := by
    refine hus.collapse _ _ huz fun k hk hk8 => ?_
    obtain ⟨l, hs⟩ := Option.isSome_iff_exists.1 hl
    have hn : u.n = l.n := by unfold State.n State.lineCopy; rw [hul, hs]; rfl
    exact hus.line l (hul.trans hs) k (by omega) hk8
  have e : Machine.acceptReset time s = rewriteTripArea (noteReset time (collapseSlots .tripReset s.clock u)) := by
    rw [hu]; rfl
  rw [e]
  apply hc.same <;> simp [noteReset]

/-- What is left of a state the invariant of the Store rests on is what `Stock` says of it. -/
theorem stock_of_storeOk {s : State} (h : storeOk s) (h8 : s.n ≤ 8) : Stock s :=
  ⟨⟨h.2.1, h.2.2.1, h.2.2.2.1, h.2.2.2.2.1, h.2.2.2.2.2.1, h.2.2.2.2.2.2.1, h8⟩, h.1⟩

end Sys2Proof.Machine
end

