-- ==== Sys2Proof/Laws/Collapse.lean ====
section
/-! SUPPORT. The records of a flush, of a trip reset's tables and of a collapse (R57, R103, R105, R107), and what a
collapse makes of the slots with no mark in the mill (R105). -/

namespace Sys2Proof.Machine

/-- The SLOT_FREED record of slot `x` (R107). -/
def freedRecord (s : State) (x : Slot) (cause : FreeCause) (time : Clock) : JournalRecord :=
  { kind := .slotFreed, stand := 0, time := time, coil := (s.store.slot x).coil, v1 := BitVec.ofNat 16 x.code,
    v2 := cause.code, v3 := 0 }

/-- The SCHEDULE_SWITCH record of a switch of stand `k` from slot `y` to slot `x` (R107). -/
def switchRecord (s : State) (k : Nat) (x y : Slot) (cause : SwitchCause) (time : Clock) : JournalRecord :=
  { kind := .scheduleSwitch, stand := k, time := time, coil := (s.store.slot x).coil, v1 := BitVec.ofNat 16 x.code,
    v2 := BitVec.ofNat 16 y.code, v3 := cause.code }

/-- The MODULUS_APPLIED record of table `table` at stand `k` (R57). -/
def appliedRecord (s : State) (k reason : Nat) (time : Clock) (table : ModulusTable) : JournalRecord :=
  let band := plainLookup table (s.est.get k).f
  { kind := .modulusApplied, stand := k, time := time, coil := (s.thread k).coil, v1 := BitVec.ofNat 16 reason,
    v2 := BitVec.ofNat 16 band, v3 := sat16 (stretchOf table band (s.est.get k).f) }

theorem freeSlot_journalled (x : Slot) (c : FreeCause) (time : Clock) (s : State) :
    (freeSlot x c time s).journal = journalled [freedRecord s x c time] s := by
  cases x <;> rfl

/-- A flush frees the DRAINING slots, A before B (R103). -/
theorem slotsFlushed_journalled (time : Clock) (s : State) :
    (slotsFlushed time s).journal = journalled
      (([Slot.a, .b].filter fun x => (s.store.slot x).state = .draining).map fun x => freedRecord s x .flush time) s := by
  unfold slotsFlushed
  simp only [List.foldl_cons, List.foldl_nil]
  by_cases ha : (s.store.slot .a).state = .draining
  · have hs : ∀ c, (freeSlot .a c time s).store.slot .b = s.store.slot .b := fun c => by
      rw [freeSlot_slot, if_neg (by decide)]
    rw [if_pos ha]
    by_cases hb : (s.store.slot .b).state = .draining
    · rw [if_pos (by rw [hs]; exact hb)]
      have := freeSlot_journalled .b .flush time (freeSlot .a .flush time s)
      rw [this, journalled_append _ _ _ _ (freeSlot_journalled .a .flush time s)]
      simp [ha, hb, freedRecord, hs]
    · rw [if_neg (by rw [hs]; exact hb), freeSlot_journalled]
      simp [ha, hb]
  · rw [if_neg ha]
    by_cases hb : (s.store.slot .b).state = .draining
    · rw [if_pos hb, freeSlot_journalled]; simp [ha, hb]
    · rw [if_neg hb]; simp [ha, hb, journalled]

theorem flush_journalled (time : Clock) (s : State) :
    (flush time s).journal = journalled
      (([Slot.a, .b].filter fun x => (s.store.slot x).state = .draining).map fun x => freedRecord s x .flush time) s := by
  unfold flush
  have h : (clearTally (clearPicture s)).journal = s.journal ∧ (clearTally (clearPicture s)).store = s.store :=
    ⟨by simp, by simp⟩
  have e : (rewriteSummary (slotsFlushed time (clearTally (clearPicture s)))).journal
      = (slotsFlushed time (clearTally (clearPicture s))).journal := by simp
  rw [e, slotsFlushed_journalled, journalled_congr _ h.1]
  simp only [freedRecord, h.2]

/-- A pending table applied at stand `k` (R57). -/
theorem applyPending_journalled (k reason : Nat) (time : Clock) (s : State) (hk : 1 ≤ k ∧ k ≤ 8) :
    (applyPending k reason time s).journal = journalled
      ((s.est.get k).pendingTable.map (appliedRecord s k reason time)).toList s := by
  unfold applyPending
  cases (s.est.get k).pendingTable with
  | none => rfl
  | some table =>
    have e : (s.withEst k { s.est.get k with pendingTable := none }).est.get k
        = { s.est.get k with pendingTable := none } := PerStand.get_set_same _ _ _ hk
    simp only [applyTable, e, Option.map_some, Option.toList_some]
    exact journal_congr _ rfl

/-- The pending tables of several stands applied, in the order given (R57). -/
theorem applied_journalled (ks : List Nat) (reason : Nat) (time : Clock) : ∀ (s : State), ks.Nodup →
    (∀ k ∈ ks, 1 ≤ k ∧ k ≤ 8) →
    (ks.foldl (fun s k => applyPending k reason time s) s).journal = journalled
      (ks.filterMap fun k => (s.est.get k).pendingTable.map (appliedRecord s k reason time)) s := by
  induction ks with
  | nil => exact fun _ _ _ => rfl
  | cons k ks ih =>
    intro s hn hks
    have hkn := List.nodup_cons.mp hn
    rw [List.foldl_cons, ih _ hkn.2 fun j hj => hks j (List.mem_cons_of_mem _ hj),
      journalled_append _ _ _ _ (applyPending_journalled k reason time s (hks k List.mem_cons_self))]
    have hthread : ∀ j, (applyPending k reason time s).thread j = s.thread j := fun j => by
      unfold State.thread; simp
    have hest : ∀ j ∈ ks, (applyPending k reason time s).est.get j = s.est.get j := fun j hj => by
      have hjk : j ≠ k := fun h => hkn.1 (h ▸ hj)
      rw [applyPending_est]
      cases (s.est.get k).pendingTable with
      | none => rfl
      | some _ => exact PerStand.get_set_other _ _ _ _ hjk
    have hrest : (ks.filterMap fun j => ((applyPending k reason time s).est.get j).pendingTable.map
        (appliedRecord (applyPending k reason time s) j reason time))
        = ks.filterMap fun j => (s.est.get j).pendingTable.map (appliedRecord s j reason time) :=
      List.filterMap_congr fun j hj => by
        unfold appliedRecord
        rw [hest j hj, hthread]
    rw [hrest, List.filterMap_cons]
    cases (s.est.get k).pendingTable <;> rfl

/-- A trip reset applies the pending tables of stands 1 to N (R48, R57). -/
theorem thicknessTripReset_journalled (time : Clock) (s : State) :
    (thicknessTripReset time s).journal = journalled
      ((standsTo s.n).filterMap fun k => (s.est.get k).pendingTable.map (appliedRecord s k 3 time)) s := by
  unfold thicknessTripReset
  rw [applied_journalled _ _ _ _ (reach_ok s.n).1 (reach_ok s.n).2]
  have : ∀ k, 1 ≤ k ∧ k ≤ 8 → (s.est.map fun e => { e with mode := .lookup }).get k
      = { s.est.get k with mode := BandMode.lookup } := fun k hk => PerStand.get_map _ _ _ hk
  rw [List.filterMap_congr (g := fun k => (s.est.get k).pendingTable.map (appliedRecord s k 3 time)) fun k hk => by
    unfold appliedRecord
    dsimp only
    rw [this k ((reach_ok s.n).2 k hk)]
    rfl]
  exact journalled_congr _ rfl

/-- A switch of a stand from slot `y`, with no mark in the mill (R100, R102). -/
theorem switchStand_journalled (k : Nat) (x y : Slot) (c : SwitchCause) (f : FreeCause) (time : Clock) (s : State)
    (hk : 1 ≤ k ∧ k ≤ 8) (hold : s.slotAt k = some y) (hxy : y ≠ x) (htag : ¬tagsAMark s y) :
    let t := switchStand k x c f time s
    (inForceSomewhere t y → t.store.slot y = s.store.slot y ∧ t.journal = journalled [switchRecord s k x y c time] s) ∧
    (¬inForceSomewhere t y → t.store.slot y = {} ∧
      t.journal = journalled [switchRecord s k x y c time, freedRecord s y f time] s) := by
  intro t
  obtain ⟨o1, o2⟩ := switch_other k x y c f time s hk hxy
  have hti : t.store.inForce = s.store.inForce.set k (some x) := (switch_spec k x c f time s hk).1
  let s1 : State := { s with store := { s.store with inForce := s.store.inForce.set k (some x) } }
  let s2 := endHold k (switchTerms k s1)
  let s3 := note .scheduleSwitch k time (s2.slotCoil x) (BitVec.ofNat 16 x.code) (BitVec.ofNat 16 (slotCode (some y)))
    c.code s2
  have e : t = takeInForce x (settleLeft y f time s3) := by
    show switchStand k x c f time s = _
    unfold switchStand; simp only [hold]; rfl
  have hst2 : s2.store = s1.store := by simp [s2]
  have hst : s3.store = s1.store := by simp [s3, hst2]
  have hj2 : s2.journal = s.journal := by simp [s2, s1]
  have hcoil : ∀ z, s1.store.slot z = s.store.slot z := fun z => by cases z <;> rfl
  have hj3 : s3.journal = journalled [switchRecord s k x y c time] s := by
    show (journal _ s2).journal = _
    have : s2.slotCoil x = (s.store.slot x).coil := by unfold State.slotCoil; rw [hst2, hcoil]
    rw [this]
    exact journal_congr _ hj2
  have hi : inForceSomewhere t y ↔ inForceSomewhere s3 y := by
    unfold inForceSomewhere State.slotAt; rw [hti, hst]
  have ht3 : ¬0 < s3.tagCount y := fun h => htag (by
    have : s3.tracker = s.tracker := by simp [s3, s2, s1]
    have h := (tagCount_pos _ _).1 h
    unfold tagsAMark State.zone at h ⊢
    rwa [this] at h)
  have htake : ∀ u : State, (takeInForce x u).journal = u.journal := fun u => by
    unfold takeInForce; split <;> rfl
  refine ⟨fun h => ⟨o1 (.inr h), ?_⟩, fun h => ⟨(o2 hold h).2 htag, ?_⟩⟩
  · rw [e, htake, (settleLeft_slot y f time s3).2.2 (hi.1 h), hj3]
  · rw [e, htake]
    unfold settleLeft
    rw [if_pos ((nowhere_iff _ _).2 fun g => h (hi.2 g)), if_neg ht3, freeSlot_journalled, journalled_append _ _ _ _ hj3]
    simp only [freedRecord, hst, hcoil, List.cons_append, List.nil_append]

/-- Switches from slot `y` of several stands, with no mark in the mill: the last of the stands on it frees it (R100,
R102). -/
theorem switchStands_journalled (x y : Slot) (c : SwitchCause) (f : FreeCause) (time : Clock) (ks : List Nat) :
    ∀ (s : State), ks ≠ [] → ks.Nodup → (∀ k ∈ ks, (1 ≤ k ∧ k ≤ 8) ∧ s.slotAt k = some y) → y ≠ x → ¬tagsAMark s y →
    let t := switchStands ks x c f time s
    let switched := ks.map fun k => switchRecord s k x y c time
    (inForceSomewhere t y → t.store.slot y = s.store.slot y ∧ t.journal = journalled switched s) ∧
    (¬inForceSomewhere t y → t.store.slot y = {} ∧ t.journal = journalled (switched ++ [freedRecord s y f time]) s) := by
  induction ks with
  | nil => exact fun _ h => absurd rfl h
  | cons k ks ih =>
    intro s _ hn hks hxy htag
    have hkn := List.nodup_cons.mp hn
    obtain ⟨hk, hold⟩ := hks k List.mem_cons_self
    have h1 := switchStand_journalled k x y c f time s hk hold hxy htag
    have hsp := switch_spec k x c f time s hk
    by_cases hnil : ks = []
    · subst hnil; exact h1
    · have hcons : switchStands (k :: ks) x c f time s = switchStands ks x c f time (switchStand k x c f time s) := rfl
      dsimp only
      rw [hcons]
      have hat : ∀ j ∈ ks, (switchStand k x c f time s).slotAt j = s.slotAt j := fun j hj => by
        unfold State.slotAt
        rw [hsp.1, PerStand.get_set_other _ j k _ fun h => hkn.1 (h ▸ hj)]
      obtain ⟨j, hj⟩ := List.exists_mem_of_ne_nil _ hnil
      obtain ⟨hj8, hjy⟩ := hks j (List.mem_cons_of_mem _ hj)
      obtain ⟨f1, f2⟩ := h1.1 ⟨j, by simp [standNumbers]; omega, by rw [hat j hj, hjy]⟩
      have htr : (switchStand k x c f time s).tracker = s.tracker := by simp
      have h2 := ih (switchStand k x c f time s) hnil hkn.2
        (fun j hj => ⟨(hks j (List.mem_cons_of_mem _ hj)).1, by rw [hat j hj]; exact (hks j (List.mem_cons_of_mem _ hj)).2⟩)
        hxy (by unfold tagsAMark State.zone; rw [htr]; exact htag)
      have hcx : ((switchStand k x c f time s).store.slot x).coil = (s.store.slot x).coil := by
        rw [hsp.2.2.1]; split <;> rfl
      have hrec : (ks.map fun j => switchRecord (switchStand k x c f time s) j x y c time)
          = ks.map fun j => switchRecord s j x y c time := by
        simp only [switchRecord, hcx]
      have hfree : freedRecord (switchStand k x c f time s) y f time = freedRecord s y f time := by
        simp only [freedRecord, f1]
      simp only [hrec, hfree, f1] at h2
      refine ⟨fun h => ⟨(h2.1 h).1, ?_⟩, fun h => ⟨(h2.2 h).1, ?_⟩⟩
      · rw [(h2.1 h).2, journalled_append _ _ _ _ f2]; rfl
      · rw [(h2.2 h).2, journalled_append _ _ _ _ f2]; rfl

/-- The slot that a collapse moves the stands to, with two slots live (R105). -/
def collapseTo (s : State) : Option Slot := if s.store.bothLive then s.store.lastLoaded else none

/-- The stands 1 to N that a collapse moves (R105). -/
def collapseFrom (s : State) : List Nat :=
  (standsTo s.n).filter fun k => ∃ x, collapseTo s = some x ∧ s.slotAt k = some x.other

/-- A collapse with no mark in the mill (R105): the stands 1 to N on the older slot go to the newer, which is IN_FORCE
once one has, and the older is FREE; each stand's record comes before the freeing's. -/
theorem collapseSlots_spec (c : SwitchCause) (time : Clock) (s : State) (htag : ∀ x, ¬tagsAMark s x)
    (hnd : ∀ x, (s.store.slot x).state ≠ .draining) :
    let t := collapseSlots c time s
    let moved := collapseTo s
    let onOlder := collapseFrom s
    (∀ k, t.slotAt k = if k ∈ onOlder then moved else s.slotAt k) ∧ t.store.lastLoaded = s.store.lastLoaded ∧
    (∀ x, t.store.slot x = if moved = some x.other then {}
      else { s.store.slot x with
        state := if moved = some x ∧ onOlder ≠ [] then .inForce else (s.store.slot x).state }) ∧
    t.journal = journalled
      (onOlder.map (fun k => switchRecord s k (moved.getD .a) (moved.getD .a).other c time) ++
        (moved.map fun x => freedRecord s x.other .collapse time).toList) s := by
  have hne : ∀ x : Slot, x.other ≠ x := fun x => by cases x <;> decide
  have hoo : ∀ x y : Slot, y = x.other ∨ y = x := fun x y => by cases x <;> cases y <;> simp [Slot.other]
  have hstay : ∀ r : SlotRecord, { r with state := r.state } = r := fun _ => rfl
  unfold collapseSlots
  cases hx : s.store.lastLoaded with
  | none => simp [collapseTo, collapseFrom, hx, journalled]
  | some x =>
    by_cases hb : s.store.bothLive = true
    swap
    · simp [collapseTo, collapseFrom, hx, hb, journalled]
    have hto : collapseTo s = some x := by simp [collapseTo, hb, hx]
    have hfrom : ((standsTo s.n).filter fun k => s.slotAt k == some x.other) = collapseFrom s := by
      unfold collapseFrom
      refine List.filter_congr fun k _ => ?_
      rw [Bool.eq_iff_iff]
      simp [hto]
    have hin : ∀ k ∈ collapseFrom s, (1 ≤ k ∧ k ≤ 8) ∧ s.slotAt k = some x.other := fun k hk => by
      rw [← hfrom] at hk
      exact ⟨(reach_ok s.n).2 k (List.mem_of_mem_filter hk), by simpa using List.of_mem_filter hk⟩
    have hlive : ∀ y, (s.store.slot y).live = true := fun y => by
      have : s.store.slotA.live = true ∧ s.store.slotB.live = true := by simpa [Store.bothLive] using hb
      cases y
      · exact this.1
      · exact this.2
    have hnodup : (collapseFrom s).Nodup := (reach_ok s.n).1.sublist (by rw [← hfrom]; exact List.filter_sublist)
    simp only [hb, if_true, hto, hfrom, Option.map_some, Option.toList_some, Option.getD_some, Option.some.injEq]
    obtain ⟨g1, g2, g3, -, g5, -⟩ := switches_store x c .collapse time (collapseFrom s) s fun k hk => (hin k hk).1
    have hj := switchStands_journalled x x.other c .collapse time (collapseFrom s) s
    generalize collapseFrom s = ks at *
    have hsame : (switchStands ks x c .collapse time s).store.slot x = { s.store.slot x with
        state := if ks ≠ [] then .inForce else (s.store.slot x).state } := by
      rw [g3]
      have h2 := hlive x
      have h3 := hnd x
      by_cases hk : ks = []
      · simp [hk]
      · unfold SlotRecord.live at h2
        rcases hs : (s.store.slot x) with ⟨st, coil, sc⟩
        rw [hs] at h2 h3
        cases st <;> simp_all
    have hcase : (switchStands ks x c .collapse time s).store.slot x.other = s.store.slot x.other ∧
          (switchStands ks x c .collapse time s).journal = journalled (ks.map fun k => switchRecord s k x x.other c time) s ∨
        (switchStands ks x c .collapse time s).store.slot x.other = {} ∧
          (switchStands ks x c .collapse time s).journal = journalled
            (ks.map (fun k => switchRecord s k x x.other c time) ++ [freedRecord s x.other .collapse time]) s := by
      by_cases hk : ks = []
      · subst hk; exact .inl ⟨rfl, rfl⟩
      · obtain ⟨h1, h2⟩ := hj hk hnodup hin (hne x) (htag _)
        by_cases hf : inForceSomewhere (switchStands ks x c .collapse time s) x.other
        · exact .inl (h1 hf)
        · exact .inr (h2 hf)
    clear hj
    generalize switchStands ks x c .collapse time s = t at *
    rcases hcase with ⟨c1, c2⟩ | ⟨c1, c2⟩
    · rw [if_pos (by rw [c1]; exact hlive _)]
      have hr := freeSlot_rest x.other .collapse time t
      refine ⟨fun k => ?_, (hr.2.trans g2).trans hx, fun y => ?_, ?_⟩
      · rw [← g1 k]; unfold State.slotAt; rw [hr.1]
      · rw [freeSlot_slot]
        rcases hoo x y with rfl | rfl
        · rw [if_pos rfl, if_pos (by cases x <;> rfl)]
        · rw [if_neg fun h => hne y h.symm, if_neg fun h => hne y h.symm, hsame]; simp
      · rw [freeSlot_journalled, journalled_append _ _ _ _ c2]
        simp only [freedRecord, c1]
    · rw [if_neg (by rw [c1]; decide)]
      refine ⟨g1, g2.trans hx, fun y => ?_, c2⟩
      rcases hoo x y with rfl | rfl
      · rw [c1, if_pos (by cases x <;> rfl)]
      · rw [if_neg fun h => hne y h.symm, hsame]; simp

end Sys2Proof.Machine
end

