-- ==== Sys2Proof/Laws/Link.lean ====
section
/-! SUPPORT. The stand link: the next exchange's position (R148, R149), the record a miss leaves and the image written at
one (R151, R152, R154, R177). -/

namespace Sys2Proof.Machine
variable {s : State}

/-- A poll list entry's own stand number is one of the part's. -/
def EntryOk (e : PollEntry) : Prop := ∀ k, e = .stand k → 1 ≤ k ∧ k ≤ 8

theorem withStation_link (e : PollEntry) (st : Station) : (s.withStation e st).link = { s.link with
    stations := (s.withStation e st).link.stations, gauge := (s.withStation e st).link.gauge } := by cases e <;> rfl

theorem station_withStation (e e' : PollEntry) (st : Station) (he : EntryOk e) : (s.withStation e st).station e' = if e' = e then st else s.station e' := by
  cases e with
  | stand k =>
    have hk := he k rfl
    cases e' with
    | stand j => show (s.link.stations.set k st).get j = _; rw [PerStand.get_set _ _ _ _ hk]; simp; rfl
    | gauge => simp; rfl
  | gauge => cases e' <;> simp <;> rfl

/-- Two links that differ in the station records alone. -/
def SameCycle (s t : State) : Prop := t.link.pollList = s.link.pollList ∧ t.link.cycle = s.link.cycle ∧ t.link.expiryWaiting = s.link.expiryWaiting ∧ t.cycleClock = s.cycleClock ∧ t.clock = s.clock

theorem NextPosition.before {c s u t} (h : NextPosition c u t) (hs : SameCycle s u) : NextPosition c s t := by
  obtain ⟨h1, h2, h3, h4⟩ := h
  obtain ⟨g1, g2, g3, g4, g5⟩ := hs
  refine ⟨h1.trans g1, ?_, ?_, ?_⟩
  · rw [← g1, ← g3, ← g4]; exact h2
  · rw [← g1, ← g3]; exact h3
  · rw [← g1, ← g3, ← g4]; exact h4

theorem NextPosition.after {c s u t} (h : NextPosition c s u) (hs : SameCycle u t) : NextPosition c s t := by
  obtain ⟨h1, h2, h3, h4⟩ := h
  obtain ⟨g1, g2, g3, g4, g5⟩ := hs
  refine ⟨g1.trans h1, ?_, ?_, ?_⟩
  · rw [g2, g3, g4]; exact h2
  · rw [g2, g3, g4, g5]; exact h3
  · rw [g2, g3, g4]; exact h4

theorem SameCycle.trans {a b c} (h : SameCycle a b) (g : SameCycle b c) : SameCycle a c :=
  ⟨g.1.trans h.1, g.2.1.trans h.2.1, g.2.2.1.trans h.2.2.1, g.2.2.2.1.trans h.2.2.2.1, g.2.2.2.2.trans h.2.2.2.2⟩

theorem SameCycle.refl (s) : SameCycle s s := ⟨rfl, rfl, rfl, rfl, rfl⟩

theorem SameCycle.of {s t : State} (h1 : t.link = s.link) (h2 : t.cycleClock = s.cycleClock) (h3 : t.clock = s.clock) : SameCycle s t := by
  refine ⟨?_, ?_, ?_, h2, h3⟩ <;> rw [h1]

theorem SameCycle.withStation (e st) : SameCycle s (s.withStation e st) := by
  cases e <;> exact ⟨rfl, rfl, rfl, rfl, rfl⟩

theorem beginExchange_link (i : Nat) (late : Bool) : (beginExchange i late s).link = { s.link with
    cycle := (if i < s.link.pollList.length then some { index := i, phase := .sending, late := late } else none), txFrame := (beginExchange i late s).link.txFrame } := by
  unfold beginExchange
  split
  · next h => rw [if_neg (by rw [List.getElem?_eq_none_iff] at h; omega)]; rfl
  · next e h =>
    have hl : i < s.link.pollList.length := by
      by_contra hc
      rw [List.getElem?_eq_none_iff.mpr (by omega)] at h; cases h
    rw [if_pos hl]
    have : (prepareEntry e s).link = s.link := by simp
    dsimp only
    show (Link.mk ..) = Link.mk ..
    rw [this]; rfl

theorem beginExchange_cycleClock (i late) : (beginExchange i late s).cycleClock = s.cycleClock := by simp

theorem nextExchange_spec (c : Cycle) (hc : s.link.cycle = some c) (hp : s.link.pollList ≠ []) :
   NextPosition c s (nextExchange s) ∧ (nextExchange s).link.stations = s.link.stations ∧ (nextExchange s).link.gauge = s.link.gauge := by
  have hpos : 0 < s.link.pollList.length := List.length_pos_iff.mpr hp
  unfold nextExchange
  rw [hc]; dsimp only
  split
  · next h =>
    have hb := beginExchange_link (s := s) (c.index + 1) c.late
    have hcc := beginExchange_cycleClock (s := s) (c.index + 1) c.late
    rw [if_pos h] at hb
    refine ⟨⟨by rw [hb], fun _ => ⟨by rw [hb], by rw [hb], hcc⟩, fun h' => ?_, fun h' => ?_⟩, by rw [hb], by rw [hb]⟩ <;> omega
  · next h =>
    split
    · next hw =>
      unfold startCycle
      generalize hs0 : ({ ({ s with link := { s.link with expiryWaiting := false } } : State) with cycleClock := s.clock } : State) = s0
      have hb := beginExchange_link (s := s0) 0 true
      have hcc := beginExchange_cycleClock (s := s0) 0 true
      have hck : (beginExchange 0 true s0).clock = s0.clock := by simp
      have hl0 : s0.link = { s.link with expiryWaiting := false } := by rw [← hs0]
      rw [if_pos (by rw [hl0]; exact hpos)] at hb
      have h0 : s0.cycleClock = s.clock ∧ s0.clock = s.clock := by rw [← hs0]; exact ⟨rfl, rfl⟩
      rw [hl0] at hb
      refine ⟨⟨by rw [hb], fun h' => absurd h' h, fun _ _ => ⟨by rw [hb], by rw [hb], by rw [hcc, hck, h0.1, h0.2]⟩, fun _ h' => ?_⟩, by rw [hb], by rw [hb]⟩
      rw [hw] at h'; cases h'
    · next hw =>
      refine ⟨⟨rfl, fun h' => absurd h' h, fun _ h' => absurd h' hw, fun _ h' => ⟨rfl, h', rfl⟩⟩, rfl, rfl⟩

theorem nextExchange_station (c : Cycle) (hc : s.link.cycle = some c) (hp : s.link.pollList ≠ []) (e : PollEntry) : (nextExchange s).station e = s.station e := by
  have := nextExchange_spec c hc hp
  cases e
  · show (nextExchange s).link.stations.get _ = _; rw [this.2.1]; rfl
  · exact this.2.2

/-- The next exchange begun at another time than the work around it (R148). -/
theorem nextExchangeAt_spec (now : Clock) (c : Cycle) (hc : s.link.cycle = some c) (hp : s.link.pollList ≠ []) :
    NextPosition c s ((nextExchangeAt now s).atTime now) ∧ (nextExchangeAt now s).link.stations = s.link.stations ∧
      (nextExchangeAt now s).link.gauge = s.link.gauge := by
  obtain ⟨h1, h2, h3⟩ := nextExchange_spec (s := s.atTime now) c hc hp
  have e : (nextExchangeAt now s).atTime now = nextExchange (s.atTime now) := by
    show (nextExchange (s.atTime now)).atTime now = _
    generalize hu : nextExchange (s.atTime now) = u
    have : u.clock = now := by rw [← hu]; simp
    rw [← this]; rfl
  exact ⟨e ▸ h1, h2, h3⟩

theorem nextExchangeAt_station (now : Clock) (c : Cycle) (hc : s.link.cycle = some c) (hp : s.link.pollList ≠ [])
    (e : PollEntry) : (nextExchangeAt now s).station e = s.station e :=
  nextExchange_station (s := s.atTime now) c hc hp e

/-- The time set leaves the cycle and the records of the link. -/
theorem SameCycle.atTime {s t} (h : SameCycle s t) (now : Clock) : SameCycle (s.atTime now) (t.atTime now) :=
  ⟨h.1, h.2.1, h.2.2.1, h.2.2.2.1, rfl⟩

theorem writeImage_written (k : Nat) (late : Bool) (hk : 1 ≤ k ∧ k ≤ 8) : ImageWritten k late s (writeImage k late s) := by
  unfold ImageWritten
  have h : ∃ i, (writeImage k late s).images = s.images.set k { count := (s.images.get k).count + 1, shown := some i } ∧ i.time = s.clock ∧
    i.late = late ∧ i.station = (s.link.stations.get k).state ∧ i.missRun = (s.link.stations.get k).missRun ∧
    i.goodRun = (s.link.stations.get k).goodRun ∧ i.flags = (s.link.stations.get k).flags ∧
    i.v = (s.link.stations.get k).vDelivered := ⟨_, rfl, rfl, rfl, rfl, rfl, rfl, rfl, rfl⟩
  obtain ⟨i, hi, h⟩ := h
  exact ⟨i, by rw [hi, PerStand.get_set_same _ _ _ hk], h⟩

theorem ImageWritten.before {k late s u t} (h : ImageWritten k late u t) (hs : u.images.get k = s.images.get k) : ImageWritten k late s t := by
  unfold ImageWritten at *
  rw [← hs]; exact h

theorem ImageWritten.after {k late s u t} (h : ImageWritten k late s u) (hs : t.images = u.images) (hc : t.clock = u.clock) (hst : t.link.stations.get k = u.link.stations.get k) : ImageWritten k late s t := by
  unfold ImageWritten at *
  rw [hs, hc, hst]; exact h

theorem writeImage_other (k j : Nat) (late : Bool) (h : j ≠ k) : (writeImage k late s).images.get j = s.images.get j :=
  PerStand.get_set_other _ _ _ _ h

/-- What becoming SILENT does to the link (R152). -/
theorem becomeSilent_link (e : PollEntry) : (becomeSilent e s).link = (s.withStation e { s.station e with state := .silent, silentSince := s.clock }).link := by
  unfold becomeSilent; dsimp only
  cases e with
  | stand k => dsimp only; split <;> simp
  | gauge => simp

theorem becomePresent_link (e : PollEntry) : (becomePresent e s).link = (s.withStation e { s.station e with state := .present }).link := by
  unfold becomePresent; dsimp only
  cases e with
  | stand k => dsimp only; (repeat' split) <;> simp
  | gauge => dsimp only; (repeat' split) <;> simp

/-- The station record a miss leaves (R151, R152, R154). -/
def missedRecord (s : State) (e : PollEntry) : Station :=
  let st := ((s.station e).missed).undelivered s.clock
  if st.state = .present ∧ stateMissed s.lineCopy.silentCount st = .silent then
    { st with state := .silent, silentSince := s.clock } else st

theorem station_of_link {s t : State} (h : t.link = s.link) (e) : t.station e = s.station e := by
  cases e <;> simp [State.station, h]

theorem missReply_spec (e : PollEntry) (late : Bool) (he : EntryOk e) :
  SameCycle s (missReply e late s) ∧ (∀ e', (missReply e late s).station e' = if e' = e then missedRecord s e else s.station e') ∧
  (∀ k, e = .stand k → ImageWritten k late s (missReply e late s)) ∧
  (∀ k, e ≠ .stand k → (missReply e late s).images.get k = s.images.get k) := by
  let st := ((s.station e).missed).undelivered s.clock
  let s1 := s.withStation e st
  let s2 := if st.state = .present ∧ stateMissed s.lineCopy.silentCount st = .silent then becomeSilent e s1 else s1
  have hs1 : ∀ e', s1.station e' = if e' = e then st else s.station e' := fun e' => station_withStation e e' st he
  have hc2 : SameCycle s s2 := by
    refine SameCycle.trans (SameCycle.withStation e st) ?_
    show SameCycle s1 s2
    by_cases hx : st.state = .present ∧ stateMissed s.lineCopy.silentCount st = .silent
    · have : s2 = becomeSilent e s1 := if_pos hx
      rw [this]
      have hl := becomeSilent_link (s := s1) e
      have := SameCycle.withStation (s := s1) e { s1.station e with state := .silent, silentSince := s1.clock }
      refine this.trans (SameCycle.of hl ?_ ?_) <;> simp
    · have : s2 = s1 := if_neg hx
      rw [this]; exact SameCycle.refl _
  have hst2 : ∀ e', s2.station e' = if e' = e then missedRecord s e else s.station e' := by
    intro e'
    unfold missedRecord
    show s2.station e' = if e' = e then (if st.state = .present ∧ stateMissed s.lineCopy.silentCount st = .silent then _ else _) else _
    by_cases hx : st.state = .present ∧ stateMissed s.lineCopy.silentCount st = .silent
    · have : s2 = becomeSilent e s1 := if_pos hx
      rw [this, if_pos hx, station_of_link (becomeSilent_link (s := s1) e), station_withStation _ _ _ he, hs1, hs1]
      by_cases h : e' = e
      · simp only [h, if_true]
        show _ = ({ st with state := .silent, silentSince := s.clock } : Station)
        have : s1.clock = s.clock := by simp [s1]
        rw [this]
      · simp [h]
    · have : s2 = s1 := if_neg hx
      rw [this, if_neg hx, hs1]
  have hi2 : s2.images = s.images := by
    by_cases hx : st.state = .present ∧ stateMissed s.lineCopy.silentCount st = .silent
    · have : s2 = becomeSilent e s1 := if_pos hx
      rw [this]; simp [s1]
    · have : s2 = s1 := if_neg hx
      rw [this]; simp [s1]
  have hm1 : ∀ k, e = .stand k → missReply e late s = writeImage k late s2 := by rintro k rfl; rfl
  have hm2 : e = .gauge → missReply e late s = expireSample s2 := by rintro rfl; rfl
  clear_value s2
  cases e with
  | stand k =>
    rw [hm1 k rfl]
    refine ⟨hc2.trans ⟨rfl, rfl, rfl, rfl, rfl⟩, hst2, ?_, ?_⟩
    · intro j hj; cases hj
      exact (writeImage_written k late (he k rfl)).before (by rw [hi2])
    · intro j hj
      rw [writeImage_other _ _ _ (fun h => hj (by rw [h])), hi2]
  | gauge =>
    rw [hm2 rfl]
    refine ⟨hc2.trans (SameCycle.of ?_ ?_ ?_), ?_, ?_, ?_⟩
    · simp
    · simp
    · simp
    · intro e'; rw [station_of_link (s := s2) (by simp)]; exact hst2 e'
    · intro k h; cases h
    · intro k _; simp [hi2]

end Sys2Proof.Machine
end

