-- ==== Sys2Proof/Laws/Replies.lean ====
section
/-! SUPPORT. Replies and misses at RUN: what the end of an exchange leaves, whatever the order of the work on it (R150 to
R154, R177). -/

namespace Sys2Proof.Machine

/-- The record a miss leaves, item by item (R151, R152). -/
theorem missedRecord_parts (s : State) (e : PollEntry) :
  (missedRecord s e).goodRun = 0 ∧ (missedRecord s e).missRun = min ((s.station e).missRun + 1) 7 ∧
  (missedRecord s e).state = (if (s.station e).state = .present ∧
          s.lineCopy.silentCount ≤ min ((s.station e).missRun + 1) 7 then .silent else (s.station e).state) ∧
  (missedRecord s e).prevTime = (s.station e).prevTime ∧ (missedRecord s e).p = (s.station e).p ∧
  (missedRecord s e).f = (s.station e).f ∧ (missedRecord s e).flags = (s.station e).flags ∧
  (missedRecord s e).silentSince = (if (s.station e).state = .present ∧
          s.lineCopy.silentCount ≤ min ((s.station e).missRun + 1) 7 then s.clock else (s.station e).silentSince) := by
  unfold missedRecord
  dsimp only
  have h : (stateMissed s.lineCopy.silentCount ((s.station e).missed.undelivered s.clock) = .silent ∧ ((s.station e).missed.undelivered s.clock).state = .present) ↔ ((s.station e).state = .present ∧
          s.lineCopy.silentCount ≤ min ((s.station e).missRun + 1) 7) := by
    unfold stateMissed Station.undelivered Station.missed
    dsimp only
    cases hx : (s.station e).state <;> simp
  by_cases hc : (s.station e).state = .present ∧ s.lineCopy.silentCount ≤ min ((s.station e).missRun + 1) 7
  · rw [if_pos (h.mpr hc).symm, if_pos hc, if_pos hc]; exact ⟨rfl, rfl, rfl, rfl, rfl, rfl, rfl, rfl⟩
  · rw [if_neg (fun g => hc (h.mp g.symm)), if_neg hc, if_neg hc]; exact ⟨rfl, rfl, rfl, rfl, rfl, rfl, rfl, rfl⟩

/-- A miss makes the station SILENT (R152). -/
def falls (s : State) (e : PollEntry) : Bool :=
  decide ((s.station e).state = .present ∧ s.lineCopy.silentCount ≤ min ((s.station e).missRun + 1) 7)

/-- The gauge record after a miss: a gauge that falls SILENT, else the expiry test, and at a stand's miss nothing (R63). -/
def missedGauge (s : State) (e : PollEntry) : GaugeRecord :=
  if e = .gauge then { s.gauge with
    silent := s.gauge.silent || falls s e,
    held := s.gauge.held && !falls s e && decide ((s.clock - s.gauge.time).toNat < 2 * s.lineCopy.period) }
  else s.gauge

theorem becomeSilent_gauge (e : PollEntry) (s : State) : (becomeSilent e s).gauge =
    if e = .gauge then { s.gauge with silent := true, held := false } else s.gauge := by
  unfold becomeSilent
  dsimp only
  cases e with
  | stand k => rw [if_neg (by simp)]; dsimp only; rw [apply_ite (endMove k .station true)]; split <;> simp
  | gauge =>
    rw [if_pos rfl]
    show { (note _ _ _ _ _ _ _ _ : State).gauge with silent := true, held := false } = _
    simp

theorem expireSample_gauge (s : State) : (expireSample s).gauge = { s.gauge with
    held := s.gauge.held && decide ((s.clock - s.gauge.time).toNat < 2 * s.lineCopy.period) } := by
  unfold expireSample ageLimit sampleAge
  split
  · next h =>
    show { s.gauge with held := false } = _
    rw [decide_eq_false (by omega), Bool.and_false]
  · next h =>
    have : (s.gauge.held && decide ((s.clock - s.gauge.time).toNat < 2 * s.lineCopy.period)) = s.gauge.held := by
      cases hh : s.gauge.held with
      | false => rfl
      | true =>
        rw [Bool.true_and]
        exact decide_eq_true (Nat.lt_of_not_le fun g => h ⟨hh, g⟩)
    rw [this]

theorem missReply_gauge (e : PollEntry) (late : Bool) (s : State) : (missReply e late s).gauge = missedGauge s e := by
  unfold missReply
  extract_lets st s1 s2
  have hf : (st.state = .present ∧ stateMissed s.lineCopy.silentCount st = .silent) ↔ falls s e = true := by
    unfold falls stateMissed
    rw [decide_eq_true_iff]
    show (s.station e).state = .present ∧ _ ↔ _
    have : st.state = (s.station e).state := rfl
    have hm : st.missRun = min ((s.station e).missRun + 1) 7 := rfl
    rw [this, hm]
    constructor
    · rintro ⟨h1, h2⟩
      rw [h1] at h2; dsimp only at h2
      refine ⟨h1, ?_⟩
      by_contra hc
      rw [if_neg hc] at h2; cases h2
    · rintro ⟨h1, h2⟩
      rw [h1]; exact ⟨rfl, if_pos h2⟩
  have h2 : s2.gauge = (if falls s e = true ∧ e = .gauge then { s.gauge with silent := true, held := false } else s.gauge) ∧
      s2.clock = s.clock ∧ s2.lineCopy = s.lineCopy := by
    show (if _ then _ else _ : State).gauge = _ ∧ (if _ then _ else _ : State).clock = _ ∧ (if _ then _ else _ : State).lineCopy = _
    by_cases h : falls s e = true
    · rw [if_pos (hf.mpr h), becomeSilent_gauge]
      have : s1.gauge = s.gauge := by simp [s1]
      rw [this]
      refine ⟨by simp [h], by simp [s1], by unfold State.lineCopy; simp [s1]⟩
    · rw [if_neg (fun g => h (hf.mp g)), if_neg (fun g => h g.1)]
      refine ⟨by simp [s1], by simp [s1], by unfold State.lineCopy; simp [s1]⟩
  clear_value s2
  obtain ⟨g1, g2, g3⟩ := h2
  unfold missedGauge
  cases e with
  | stand k =>
    rw [if_neg (by simp)]
    show s2.gauge = _
    rw [g1, if_neg (by simp)]
  | gauge =>
    rw [if_pos rfl]
    show (expireSample s2).gauge = _
    rw [expireSample_gauge, g1, g2, g3]
    cases hf : falls s .gauge <;> simp

/-- A poll list that has an entry is not empty. -/
theorem poll_ne {s : State} {c : Nat} {e : PollEntry} (h : s.link.pollList[c]? = some e) : s.link.pollList ≠ ([] : List PollEntry) := by
  intro hh; rw [hh] at h; cases h

/-- The end of an exchange with a miss (R148, R150, R151, R177). -/
theorem endWithMiss_spec (e : PollEntry) (late pf : Bool) (now : Clock) (s : State) (c : Cycle) (he : EntryOk e) (hc : s.link.cycle = some c) (hp : s.link.pollList[c.index]? = some e) :
  let t := endWithMiss e late pf now s
  t.clock = s.clock ∧ t.level = s.level ∧ t.est = s.est ∧ t.tracker = s.tracker ∧ t.store = s.store ∧ t.line = s.line ∧ NextPosition c s (t.atTime now) ∧
  (∀ e', t.station e' = if e' = e then missedRecord s e else s.station e') ∧
  (∀ k, e = .stand k → ImageWritten k late s t) ∧ (∀ k, e ≠ .stand k → t.images.get k = s.images.get k) ∧
  t.gauge = missedGauge s e := by
  intro t
  have hne := poll_ne hp
  show (endWithMiss e late pf now s).clock = _ ∧ (endWithMiss e late pf now s).level = _ ∧ (endWithMiss e late pf now s).est = _ ∧ (endWithMiss e late pf now s).tracker = _ ∧ (endWithMiss e late pf now s).store = _ ∧ (endWithMiss e late pf now s).line = _ ∧ NextPosition c s ((endWithMiss e late pf now s).atTime now) ∧ (∀ e', (endWithMiss e late pf now s).station e' = _) ∧ (∀ k, e = .stand k → ImageWritten k late s (endWithMiss e late pf now s)) ∧ (∀ k, e ≠ .stand k → (endWithMiss e late pf now s).images.get k = _) ∧ (endWithMiss e late pf now s).gauge = _
  unfold endWithMiss
  by_cases hf : pf = true
  · rw [if_pos hf]
    have h1 := nextExchangeAt_spec now c hc hne
    have h1s := nextExchangeAt_station now c hc hne
    have h2 := missReply_spec (s := nextExchangeAt now s) e late he
    have hmr : missedRecord (nextExchangeAt now s) e = missedRecord s e := by
      have hcl : (nextExchangeAt now s).clock = s.clock := by simp
      have hli : (nextExchangeAt now s).lineCopy = s.lineCopy := by unfold State.lineCopy; simp
      unfold missedRecord; rw [h1s, hcl, hli]
    refine ⟨by simp, by simp, by simp, by simp, by simp, by simp, h1.1.after (h2.1.atTime now), ?_, ?_, ?_, ?_⟩
    · intro e'; rw [h2.2.1, hmr, h1s]
    · intro k hk; exact (h2.2.2.1 k hk).before (by simp)
    · intro k hk; rw [h2.2.2.2 k hk]; simp
    · have hli : (nextExchangeAt now s).lineCopy = s.lineCopy := by unfold State.lineCopy; simp
      rw [missReply_gauge]; unfold missedGauge falls; rw [h1s, hli]; simp
  · rw [if_neg hf]
    have h2 := missReply_spec (s := s) e late he
    generalize hu : missReply e late s = u at *
    have hk : u.clock = s.clock ∧ u.level = s.level ∧ u.est = s.est ∧ u.tracker = s.tracker ∧ u.store = s.store ∧ u.line = s.line := by rw [← hu]; simp
    have hcu : u.link.cycle = some c := by rw [h2.1.2.1]; exact hc
    have hnu : u.link.pollList ≠ [] := by rw [h2.1.1]; exact hne
    have h1 := nextExchangeAt_spec now c hcu hnu
    have h1s := nextExchangeAt_station now c hcu hnu
    refine ⟨by simp [hk], by simp [hk], by simp [hk], by simp [hk], by simp [hk], by simp [hk], h1.1.before h2.1, ?_, ?_, ?_, ?_⟩
    · intro e'; rw [h1s, h2.2.1]
    · intro k hk; exact (h2.2.2.1 k hk).after (by simp) (by simp) (by rw [h1.2.1])
    · intro k hk; rw [← h2.2.2.2 k hk]; simp
    · simp only [nextExchangeAt_keeps]; rw [← hu, missReply_gauge]

/-- An open exchange is still open when time passes. -/
theorem open_tick {s : State} {c e} (dt : Clock) (ho : ExchangeOpen s c e) : openExchange (s.tick dt) = some (c, e) := by
  unfold openExchange
  rw [if_pos (show (s.tick dt).level = .run from ho.1)]
  show (match s.link.cycle with | none => none | some c => (s.link.pollList[c.index]?).map fun e => (c, e)) = _
  rw [ho.2.1]; simp [ho.2.2]

/-- An order of the work that the manual allows holds the next exchange once. -/
theorem plan_split (plan : List Work) (h : planOk plan = true) : ∃ a b, plan = a ++ .nextPoll :: b ∧ Work.nextPoll ∉ a ∧ Work.nextPoll ∉ b := by
  simp only [planOk, Bool.and_eq_true, beq_iff_eq, decide_eq_true_eq, List.contains_iff_mem] at h
  obtain ⟨⟨⟨⟨⟨⟨⟨hl, h1⟩, h2⟩, h3⟩, h4⟩, h5⟩, _⟩, _⟩ := h
  have hsub : [Work.tracker, .gap, .causes, .check, .nextPoll] ⊆ plan := by
    intro w hw; simp at hw; rcases hw with rfl | rfl | rfl | rfl | rfl <;> assumption
  have hp : [Work.tracker, .gap, .causes, .check, .nextPoll].Perm plan :=
    (List.subperm_of_subset (by decide) hsub).perm_of_length_le (by rw [hl]; decide)
  have hn : plan.Nodup := hp.nodup_iff.mp (by decide)
  obtain ⟨a, b, rfl⟩ := List.append_of_mem h5
  rw [List.nodup_append] at hn
  refine ⟨a, b, rfl, ?_, ?_⟩
  · intro hx; exact hn.2.2 _ hx _ (List.mem_cons_self ..) rfl
  · exact (List.nodup_cons.mp hn.2.1).1

/-- The pieces of work but the next exchange leave the link alone. -/
theorem works_beside (k p f v fl lb dt now) (l : List Work) (h : Work.nextPoll ∉ l) (s : State) : Beside s (l.foldl (fun s w => doWork k p f v fl lb dt now w s) s) := by
  induction l generalizing s with
  | nil => exact Beside.refl s
  | cons w l ih =>
    exact ((Beside.refl s).doWork (fun hw => h (hw ▸ List.mem_cons_self ..))).trans (ih (fun hh => h (List.mem_cons_of_mem _ hh)) _)

/-- What the delivery of a stand reply leaves, whatever the order of the work (R153, R154, R177). -/
theorem deliverStand_spec (k p f v : Nat) (flags : ReplyFlags) (plan : List Work) (late : Bool) (now : Clock) (s : State) (hk : 1 ≤ k ∧ k ≤ 8) (c : Cycle)
  (hcn : Work.nextPoll ∈ plan → s.link.cycle = some c ∧ s.link.pollList ≠ []) :
  let t := deliverStand k p f v flags plan late now s
  ((∃ a b, plan = a ++ .nextPoll :: b ∧ Work.nextPoll ∉ a ∧ Work.nextPoll ∉ b) → NextPosition c s (t.atTime now)) ∧
  (Work.nextPoll ∉ plan → t.link.cycle = s.link.cycle) ∧
  ((∃ a b, plan = a ++ .nextPoll :: b ∧ Work.nextPoll ∉ a ∧ Work.nextPoll ∉ b) ∨ Work.nextPoll ∉ plan →
    t.clock = s.clock ∧ t.level = s.level ∧ t.line = s.line ∧
    (∀ e', t.station e' = if e' = .stand k then { (s.station (.stand k)) with prevTime := some s.clock, saturated := false, vDelivered := min v 30000 } else s.station e') ∧
    ImageWritten k late s t ∧ (t.est.get k).figures = ((s.est.get k).atReply p f).figures ∧
    t.trip.ready = s.trip.ready) := by
  intro t
  let st := s.link.stations.get k
  let s1 := s.withStation (.stand k) { st.delivered s.clock with vDelivered := min v 30000 }
  let s0 := estimateReply k p f s1
  let W := fun (s : State) (w : Work) => doWork k p f (min v 30000) flags (s1.thread k).lockMade (st.elapsed s1.clock) now w s
  let W' := fun (s' : State) (w : Work) => doWork k p f (min v 30000) flags (s.thread k).lockMade (st.elapsed s1.clock) now w s'
  have ht : t = writeImage k late (plan.foldl W s0) := rfl
  have hst1 : ∀ e', s1.station e' = if e' = .stand k then { (s.station (.stand k)) with prevTime := some s.clock, saturated := false, vDelivered := min v 30000 } else s.station e' := by
    intro e'; exact station_withStation (.stand k) e' _ (fun j hj => by cases hj; exact hk)
  have hsc1 : SameCycle s s1 := SameCycle.withStation _ _
  have hsc0 : SameCycle s s0 := hsc1.trans (SameCycle.of rfl rfl rfl)
  have h0 : s0.link = s1.link ∧ s0.level = s.level ∧ s0.line = s.line ∧ s0.images = s.images ∧ s0.trip = s.trip ∧ s0.clock = s.clock := ⟨rfl, rfl, rfl, rfl, rfl, rfl⟩
  have hfig0 : (s0.est.get k).figures = ((s.est.get k).atReply p f).figures := by
    rw [show s0.est.get k = (s.est.get k).atReply p f from PerStand.get_set_same _ _ _ hk]
  have hb : ∀ (l : List Work), Work.nextPoll ∉ l → ∀ u, Beside u (l.foldl W u) := fun l hl u => works_beside _ _ _ _ _ _ _ _ l hl u
  have hW : ∀ u, W u .nextPoll = nextExchangeAt now u := fun _ => rfl
  clear_value W s0
  have hcyc : ∀ {u v : State}, Beside u v → SameCycle u v := fun h => SameCycle.of h.link h.cycleClock h.clock
  -- the state before the image
  have key : ∀ u : State, t = writeImage k late u → u.clock = s.clock → u.level = s.level → u.line = s.line → u.images = s.images →
     (∀ e', u.station e' = s1.station e') → u.link.stations.get k = s1.link.stations.get k → (u.est.get k).figures = ((s.est.get k).atReply p f).figures →
     u.trip.ready = s.trip.ready → 
    t.clock = s.clock ∧ t.level = s.level ∧ t.line = s.line ∧
    (∀ e', t.station e' = if e' = .stand k then { (s.station (.stand k)) with prevTime := some s.clock, saturated := false, vDelivered := min v 30000 } else s.station e') ∧
    ImageWritten k late s t ∧ (t.est.get k).figures = ((s.est.get k).atReply p f).figures ∧
    t.trip.ready = s.trip.ready := by
    intro u hu g1 g2 g3 g4 g5 g6 g7 g10
    rw [hu]
    refine ⟨g1, g2, g3, ?_, ?_, g7, g10⟩
    · intro e'; show u.station e' = _; rw [g5, hst1]
    · exact (writeImage_written k late hk).before (by rw [g4])
  refine ⟨?_, ?_, ?_⟩
  · rintro ⟨a, b, hpl, ha, hb'⟩
    obtain ⟨hc, hne⟩ := hcn (by rw [hpl]; simp)
    rw [ht, hpl, List.foldl_append, List.foldl_cons, hW]
    have B1 := hb a ha s0
    generalize a.foldl W s0 = u1 at *
    have hl1 : u1.link = s1.link := B1.link.trans h0.1
    have hn := (nextExchangeAt_spec now (s := u1) c (by rw [hl1]; exact hc) (by rw [hl1]; exact hne)).1
    have B2 := hb b hb' (nextExchangeAt now u1)
    generalize b.foldl W (nextExchangeAt now u1) = u3 at *
    have : NextPosition c s (u3.atTime now) :=
      (hn.before (hsc0.trans (hcyc B1))).after ((hcyc B2).atTime now)
    exact this.after ⟨rfl, rfl, rfl, rfl, rfl⟩
  · intro hn
    rw [ht]
    have B1 := hb plan hn s0
    show (plan.foldl W s0).link.cycle = _
    rw [B1.link, h0.1]; rfl
  · rintro (⟨a, b, hpl, ha, hb'⟩ | hn)
    · obtain ⟨hc, hne⟩ := hcn (by rw [hpl]; simp)
      have B1 := hb a ha s0
      rw [hpl, List.foldl_append, List.foldl_cons, hW] at ht
      generalize a.foldl W s0 = u1 at *
      have hl1 : u1.link = s1.link := B1.link.trans h0.1
      have hcu : u1.link.cycle = some c := by rw [hl1]; exact hc
      have hnu : u1.link.pollList ≠ [] := by rw [hl1]; exact hne
      have hn := nextExchangeAt_spec now (s := u1) c hcu hnu
      have hns := nextExchangeAt_station now (s := u1) c hcu hnu
      have hnk : (nextExchangeAt now u1).clock = u1.clock ∧ (nextExchangeAt now u1).level = u1.level ∧ (nextExchangeAt now u1).line = u1.line ∧ (nextExchangeAt now u1).images = u1.images ∧ (nextExchangeAt now u1).est = u1.est ∧ (nextExchangeAt now u1).trip = u1.trip := by simp
      have B2 := hb b hb' (nextExchangeAt now u1)
      generalize nextExchangeAt now u1 = u2 at *
      refine key _ ht ?_ ?_ ?_ ?_ ?_ ?_ ?_ ?_
      · rw [B2.clock, hnk.1, B1.clock, h0.2.2.2.2.2]
      · rw [B2.level, hnk.2.1, B1.level, h0.2.1]
      · rw [B2.line, hnk.2.2.1, B1.line, h0.2.2.1]
      · rw [B2.images, hnk.2.2.2.1, B1.images, h0.2.2.2.1]
      · intro e'; rw [station_of_link B2.link, hns, station_of_link hl1]
      · rw [B2.link, hn.2.1, hl1]
      · rw [B2.figs k, hnk.2.2.2.2.1, B1.figs k]; exact hfig0
      · rw [B2.ready, hnk.2.2.2.2.2, B1.ready, h0.2.2.2.2.1]
    · have B1 := hb plan hn s0
      refine key _ ht ?_ ?_ ?_ ?_ ?_ ?_ ?_ ?_
      · rw [B1.clock, h0.2.2.2.2.2]
      · rw [B1.level, h0.2.1]
      · rw [B1.line, h0.2.2.1]
      · rw [B1.images, h0.2.2.2.1]
      · intro e'; rw [station_of_link (B1.link.trans h0.1)]
      · rw [B1.link, h0.1]
      · rw [B1.figs k]; exact hfig0
      · rw [B1.ready, h0.2.2.2.2.1]

/-- A stand that becomes PRESENT at RUN is ready (R133). -/
theorem becomePresent_ready (k : Nat) (s : State) (hk : 1 ≤ k ∧ k ≤ 8) (hr : s.level = .run) : (becomePresent (.stand k) s).trip.ready.get k = true := by
  unfold becomePresent
  extract_lets st s1 s2
  have h2 : s2.level = .run := by
    show (if _ then _ else _ : State).level = _
    split <;> simp [s1, hr]
  clear_value s2
  dsimp only
  rw [if_pos hr]
  unfold becomeReady
  split
  · assumption
  · rw [rewriteTripArea_trip]; exact PerStand.get_set_same _ _ _ hk

/-- A gauge that becomes PRESENT is no longer silent (R63). -/
theorem becomePresent_gauge (s : State) : (becomePresent .gauge s).gauge = { s.gauge with silent := false } := by
  unfold becomePresent
  extract_lets st s1 s2
  have h2 : s2.gauge = s.gauge := by
    show (if _ then _ else _ : State).gauge = _
    split <;> simp [s1]
  clear_value s2
  show { s2.gauge with silent := false } = _
  rw [h2]

/-- A stand that becomes PRESENT leaves the gauge record. -/
theorem becomePresent_gauge_stand (k : Nat) (s : State) : (becomePresent (.stand k) s).gauge = s.gauge := by
  unfold becomePresent
  extract_lets st s1 s2
  have h2 : s2.gauge = s.gauge := by
    show (if _ then _ else _ : State).gauge = _
    split <;> simp [s1]
  clear_value s2
  dsimp only
  split
  · simp [h2]
  · exact h2

/-- A valid reply of a stand at RUN (R47, R133, R151 to R154, R177). -/
theorem standReply_spec (k p f v : Nat) (flags : ReplyFlags) (plan : List Work) (late : Bool) (now : Clock) (s : State) (hk : 1 ≤ k ∧ k ≤ 8) (c : Cycle)
  (hcn : Work.nextPoll ∈ plan → s.link.cycle = some c ∧ s.link.pollList ≠ []) (hr : s.level = .run)
  (hplan : (∃ a b, plan = a ++ .nextPoll :: b ∧ Work.nextPoll ∉ a ∧ Work.nextPoll ∉ b) ∨ Work.nextPoll ∉ plan) :
  let t := validReply (.stand k) (.stand p f v flags) plan late now s
  let e := PollEntry.stand k
  ((∃ a b, plan = a ++ .nextPoll :: b ∧ Work.nextPoll ∉ a ∧ Work.nextPoll ∉ b) → NextPosition c s (t.atTime now)) ∧
  (Work.nextPoll ∉ plan → t.link.cycle = s.link.cycle) ∧
  t.clock = s.clock ∧ t.level = s.level ∧ t.line = s.line ∧ (∀ e', e' ≠ e → t.station e' = s.station e') ∧
        (t.station e).goodRun = min ((s.station e).goodRun + 1) 7 ∧ (t.station e).missRun = 0 ∧
        (t.station e).p = p ∧ (t.station e).f = f ∧ (t.station e).v = v ∧ (t.station e).flags = flags ∧
        ImageWritten k late s t ∧
        ((s.station e).state = .silent → min ((s.station e).goodRun + 1) 7 < s.lineCopy.rejoinCount →
          (t.station e).state = .silent ∧ (t.station e).prevTime = (s.station e).prevTime ∧ t.est = s.est ∧
            t.tracker = s.tracker) ∧
        ((s.station e).state ≠ .silent ∨ s.lineCopy.rejoinCount ≤ min ((s.station e).goodRun + 1) 7 →
          (t.station e).state = .present ∧ (t.station e).prevTime = some s.clock ∧ (t.station e).saturated = false ∧
            (t.station e).vDelivered = min v 30000 ∧ (t.est.get k).figures = ((s.est.get k).atReply p f).figures ∧
            ((s.station e).state ≠ .present → t.trip.ready.get k = true)) := by
  intro t e
  have he : EntryOk e := by intro j hj; have : k = j := by injection hj
                            exact this ▸ hk
  let st := (s.station e).answered.withReply (.stand p f v flags)
  let s1 := s.withStation e st
  have hs1 : ∀ e', s1.station e' = if e' = e then st else s.station e' := fun e' => station_withStation e e' st he
  have hsc1 : SameCycle s s1 := SameCycle.withStation _ _
  by_cases hn : stateAnswered s.lineCopy.rejoinCount st = .present
  · let s2 := if st.state = .present then s1 else becomePresent e s1
    have hs2 : ∀ e', s2.station e' = if e' = e then { st with state := .present } else s.station e' := by
      intro e'
      show (if st.state = .present then s1 else becomePresent e s1).station e' = _
      split
      · next h =>
        rw [hs1]
        have : ({ st with state := .present } : Station) = st := by rw [← h]
        rw [this]
      · rw [station_of_link (becomePresent_link (s := s1) e), station_withStation _ _ _ he, hs1, hs1]
        by_cases h : e' = e <;> simp [h]
    have hsc2 : SameCycle s s2 := by
      show SameCycle s (if st.state = .present then s1 else becomePresent e s1)
      split
      · exact hsc1
      · have := SameCycle.withStation (s := s1) e { s1.station e with state := .present }
        refine hsc1.trans (this.trans (SameCycle.of (becomePresent_link (s := s1) e) ?_ ?_)) <;> simp
    have h2 : s2.clock = s.clock ∧ s2.level = s.level ∧ s2.line = s.line ∧ s2.images = s.images ∧ s2.est = s.est ∧ ((s.station e).state ≠ .present → s2.trip.ready.get k = true) := by
      show (if st.state = .present then s1 else becomePresent e s1).clock = _ ∧ (if st.state = .present then s1 else becomePresent e s1).level = _ ∧ (if st.state = .present then s1 else becomePresent e s1).line = _ ∧ (if st.state = .present then s1 else becomePresent e s1).images = _ ∧ (if st.state = .present then s1 else becomePresent e s1).est = _ ∧ (_ → (if st.state = .present then s1 else becomePresent e s1).trip.ready.get k = true)
      have hst : st.state = (s.station e).state := rfl
      split
      · next h => exact ⟨rfl, rfl, rfl, rfl, rfl, fun h' => absurd (hst ▸ h) h'⟩
      · refine ⟨?_, ?_, ?_, ?_, ?_, fun _ => becomePresent_ready k s1 hk hr⟩ <;> simp [s1]
    have ht : t = deliverStand k p f v flags plan late now s2 := by
      show validReply (.stand k) (.stand p f v flags) plan late now s = _
      unfold validReply
      exact if_pos hn
    clear_value s2
    obtain ⟨d1, d2, d3⟩ := deliverStand_spec k p f v flags plan late now s2 hk c (by rw [hsc2.2.1, hsc2.1]; exact hcn)
    obtain ⟨d3, d4, d5, d6, d7, d8, d11⟩ := d3 hplan
    rw [← ht] at d1 d2 d3 d4 d5 d6 d7 d8 d11
    have hste : t.station e = { st with state := .present, prevTime := some s.clock, saturated := false, vDelivered := min v 30000 } := by
      rw [d6, if_pos rfl, hs2, if_pos rfl, h2.1]
    refine ⟨fun h => (d1 h).before hsc2, fun h => (d2 h).trans hsc2.2.1, d3.trans h2.1, d4.trans h2.2.1, d5.trans h2.2.2.1, ?_, ?_, ?_, ?_, ?_, ?_, ?_, ?_, ?_, ?_⟩
    · intro e' hne'; rw [d6, if_neg hne', hs2, if_neg hne']
    · rw [hste]; rfl
    · rw [hste]; rfl
    · rw [hste]; rfl
    · rw [hste]; rfl
    · rw [hste]; rfl
    · rw [hste]; rfl
    · exact d7.before (by rw [h2.2.2.2.1])
    · intro hs hl
      exfalso
      unfold stateAnswered at hn
      have : st.state = .silent := hs
      rw [this] at hn
      dsimp only at hn
      rw [if_neg] at hn
      · cases hn
      · show ¬ _ ≤ min ((s.station e).goodRun + 1) 7; omega
    · intro _
      rw [hste]
      refine ⟨rfl, rfl, rfl, rfl, ?_, ?_⟩
      · rw [d8, h2.2.2.2.2.1]
      · intro h; rw [d11]; exact h2.2.2.2.2.2 h
  · have hsil : (s.station e).state = .silent ∧ min ((s.station e).goodRun + 1) 7 < s.lineCopy.rejoinCount := by
      unfold stateAnswered at hn
      have hst : st.state = (s.station e).state := rfl
      have hg : st.goodRun = min ((s.station e).goodRun + 1) 7 := rfl
      rw [hst, hg] at hn
      cases hx : (s.station e).state <;> rw [hx] at hn <;> dsimp only at hn
      · exact absurd rfl hn
      · exact absurd rfl hn
      · refine ⟨rfl, ?_⟩
        by_contra hc'
        rw [if_pos (by omega)] at hn
        exact hn rfl
    let s2 := s1.withStation e (st.undelivered s.clock)
    let s3 := writeImage k late s2
    have ht : t = onlyNextPoll plan now s3 := by
      show validReply (.stand k) (.stand p f v flags) plan late now s = _
      unfold validReply
      exact if_neg hn
    have hs2 : ∀ e', s2.station e' = if e' = e then st.undelivered s.clock else s.station e' := by
      intro e'
      show (s1.withStation e _).station e' = _
      rw [station_withStation _ _ _ he, hs1]
      by_cases h : e' = e <;> simp [h]
    have hs3 : ∀ e', s3.station e' = if e' = e then st.undelivered s.clock else s.station e' := hs2
    have hsc3 : SameCycle s s3 := hsc1.trans ((SameCycle.withStation _ _).trans ⟨rfl, rfl, rfl, rfl, rfl⟩)
    have h3 : s3.clock = s.clock ∧ s3.level = s.level ∧ s3.line = s.line ∧ s3.est = s.est ∧ s3.tracker = s.tracker := ⟨rfl, rfl, rfl, rfl, rfl⟩
    have hi3 : ImageWritten k late s s3 := (writeImage_written (s := s2) k late hk).before rfl
    clear_value s3
    have hcn3 : Work.nextPoll ∈ plan → s3.link.cycle = some c ∧ s3.link.pollList ≠ [] := by rw [hsc3.2.1, hsc3.1]; exact hcn
    have hnx := fun h => nextExchangeAt_spec now (s := s3) c (hcn3 h).1 (hcn3 h).2
    have hns := fun h => nextExchangeAt_station now (s := s3) c (hcn3 h).1 (hcn3 h).2
    have key : t.clock = s.clock ∧ t.level = s.level ∧ t.line = s.line ∧ t.est = s.est ∧ t.tracker = s.tracker ∧ (∀ e', t.station e' = if e' = e then st.undelivered s.clock else s.station e') ∧ ImageWritten k late s t := by
      rw [ht]; unfold onlyNextPoll
      split
      · refine ⟨by simp [h3], by simp [h3], by simp [h3], by simp [h3], by simp [h3], ?_, ?_⟩
        · intro e'; rw [hns (List.contains_iff_mem.mp ‹_›), hs3]
        · exact hi3.after (by simp) (by simp) (by rw [(hnx (List.contains_iff_mem.mp ‹_›)).2.1])
      · exact ⟨h3.1, h3.2.1, h3.2.2.1, h3.2.2.2.1, h3.2.2.2.2, hs3, hi3⟩
    obtain ⟨k1, k2, k3, k4, k5, k6, k7⟩ := key
    refine ⟨?_, ?_, k1, k2, k3, ?_, ?_, ?_, ?_, ?_, ?_, ?_, k7, ?_, ?_⟩
    · rintro ⟨a, b, rfl, _, _⟩
      rw [ht]; unfold onlyNextPoll
      rw [if_pos (by simp)]
      exact (hnx (by simp)).1.before hsc3
    · intro h
      rw [ht]; unfold onlyNextPoll
      rw [if_neg (by simpa using h)]
      exact hsc3.2.1
    · intro e' hne'; rw [k6, if_neg hne']
    · rw [k6, if_pos rfl]; rfl
    · rw [k6, if_pos rfl]; rfl
    · rw [k6, if_pos rfl]; rfl
    · rw [k6, if_pos rfl]; rfl
    · rw [k6, if_pos rfl]; rfl
    · rw [k6, if_pos rfl]; rfl
    · intro _ _
      rw [k6, if_pos rfl]
      exact ⟨hsil.1, rfl, k4, k5⟩
    · rintro (h | h)
      · exact absurd hsil.1 h
      · omega

/-- A valid reply of the gauge at RUN (R62, R63, R151 to R154). -/
theorem gaugeReply_spec (valid : Bool) (hx : Nat) (plan : List Work) (late : Bool) (now : Clock) (s : State) (c : Cycle)
  (hcn : Work.nextPoll ∈ plan → s.link.cycle = some c ∧ s.link.pollList ≠ [])
  (hplan : (∃ a b, plan = a ++ .nextPoll :: b ∧ Work.nextPoll ∉ a ∧ Work.nextPoll ∉ b) ∨ Work.nextPoll ∉ plan) :
  let t := validReply .gauge (.gauge valid hx) plan late now s
  let e := PollEntry.gauge
  ((∃ a b, plan = a ++ .nextPoll :: b ∧ Work.nextPoll ∉ a ∧ Work.nextPoll ∉ b) → NextPosition c s (t.atTime now)) ∧
  (Work.nextPoll ∉ plan → t.link.cycle = s.link.cycle) ∧
  t.clock = s.clock ∧ t.level = s.level ∧ t.line = s.line ∧ (∀ e', e' ≠ e → t.station e' = s.station e') ∧
        (t.station e).goodRun = min ((s.station e).goodRun + 1) 7 ∧ (t.station e).missRun = 0 ∧
        (t.station e).valid = valid ∧ (t.station e).hx = hx ∧ t.est = s.est ∧ t.tracker = s.tracker ∧
        ((s.station e).state = .present → valid = true → s.gauge.silent = false →
          t.gauge = { s.gauge with held := true, hx := hx, time := s.clock }) ∧
        ((s.station e).state ≠ .present → ((s.station e).state ≠ .silent ∨ s.lineCopy.rejoinCount ≤ min ((s.station e).goodRun + 1) 7) →
          t.gauge.silent = false ∧ (valid = true → t.gauge = { s.gauge with silent := false, held := true, hx := hx, time := s.clock })) ∧
        ((s.station e).state = .present → valid = false → t.gauge = { s.gauge with
          held := s.gauge.held && decide ((s.clock - s.gauge.time).toNat < 2 * s.lineCopy.period) }) ∧
        ((s.station e).state ≠ .present → ((s.station e).state ≠ .silent ∨ s.lineCopy.rejoinCount ≤ min ((s.station e).goodRun + 1) 7) →
          valid = false → t.gauge = { s.gauge with
            silent := false
            held := s.gauge.held && decide ((s.clock - s.gauge.time).toNat < 2 * s.lineCopy.period) }) ∧
        ((s.station e).state = .silent → min ((s.station e).goodRun + 1) 7 < s.lineCopy.rejoinCount →
          (t.station e).state = .silent ∧ (t.station e).prevTime = (s.station e).prevTime ∧ t.gauge = s.gauge) ∧
        ((s.station e).state ≠ .silent ∨ s.lineCopy.rejoinCount ≤ min ((s.station e).goodRun + 1) 7 →
          (t.station e).state = .present ∧ (t.station e).prevTime = some s.clock ∧ (t.station e).saturated = false) := by
  intro t e
  have he : EntryOk e := by intro j hj; exact PollEntry.noConfusion hj
  let st := (s.station e).answered.withReply (.gauge valid hx)
  let s1 := s.withStation e st
  have hs1 : ∀ e', s1.station e' = if e' = e then st else s.station e' := fun e' => station_withStation e e' st he
  have hsc1 : SameCycle s s1 := SameCycle.withStation _ _
  have hst : st.state = (s.station e).state := rfl
  have hg : st.goodRun = min ((s.station e).goodRun + 1) 7 := rfl
  by_cases hn : stateAnswered s.lineCopy.rejoinCount st = .present
  · let s2 := if st.state = .present then s1 else becomePresent e s1
    have hs2 : ∀ e', s2.station e' = if e' = e then { st with state := .present } else s.station e' := by
      intro e'
      show (if st.state = .present then s1 else becomePresent e s1).station e' = _
      split
      · next h =>
        rw [hs1]
        have : ({ st with state := .present } : Station) = st := by rw [← h]
        rw [this]
      · rw [station_of_link (becomePresent_link (s := s1) e), station_withStation _ _ _ he, hs1, hs1]
        by_cases h : e' = e <;> simp [h]
    have hsc2 : SameCycle s s2 := by
      show SameCycle s (if st.state = .present then s1 else becomePresent e s1)
      split
      · exact hsc1
      · have := SameCycle.withStation (s := s1) e { s1.station e with state := .present }
        refine hsc1.trans (this.trans (SameCycle.of (becomePresent_link (s := s1) e) ?_ ?_)) <;> simp
    have h2 : s2.clock = s.clock ∧ s2.level = s.level ∧ s2.line = s.line ∧ s2.est = s.est ∧ s2.tracker = s.tracker ∧ s2.gauge = if st.state = .present then s.gauge else { s.gauge with silent := false } := by
      show (if st.state = .present then s1 else becomePresent e s1).clock = _ ∧ (if st.state = .present then s1 else becomePresent e s1).level = _ ∧ (if st.state = .present then s1 else becomePresent e s1).line = _ ∧ (if st.state = .present then s1 else becomePresent e s1).est = _ ∧ (if st.state = .present then s1 else becomePresent e s1).tracker = _ ∧ (if st.state = .present then s1 else becomePresent e s1).gauge = _
      split
      · next h => exact ⟨rfl, rfl, rfl, rfl, rfl, rfl⟩
      · refine ⟨?_, ?_, ?_, ?_, ?_, becomePresent_gauge s1⟩ <;> simp [s1]
    let s3 := s2.withStation .gauge ((s2.station .gauge).delivered s.clock)
    let s4 := gaugeReply valid hx s3
    have ht : t = onlyNextPoll plan now s4 := by
      show validReply .gauge (.gauge valid hx) plan late now s = _
      unfold validReply
      exact if_pos hn
    have hs3 : ∀ e', s3.station e' = if e' = e then { st with state := .present, prevTime := some s.clock, saturated := false } else s.station e' := by
      intro e'
      show (s2.withStation e _).station e' = _
      rw [station_withStation _ _ _ he, hs2]
      by_cases h : e' = e
      · simp only [h, if_true]
        rw [if_pos rfl]; rfl
      · simp [h, hs2]
    have hs4 : ∀ e', s4.station e' = s3.station e' := fun e' => station_of_link (by simp [s4]) e'
    have h4 : s4.clock = s.clock ∧ s4.level = s.level ∧ s4.line = s.line ∧ s4.est = s.est ∧ s4.tracker = s.tracker := by
      have q : s4.clock = s3.clock ∧ s4.level = s3.level ∧ s4.line = s3.line ∧ s4.est = s3.est ∧ s4.tracker = s3.tracker := by simp [s4]
      exact ⟨q.1.trans h2.1, q.2.1.trans h2.2.1, q.2.2.1.trans h2.2.2.1, q.2.2.2.1.trans h2.2.2.2.1, q.2.2.2.2.trans h2.2.2.2.2.1⟩
    have hsc4 : SameCycle s s4 := hsc2.trans ((SameCycle.withStation .gauge _).trans (SameCycle.of (s := s3) (by simp [s4]) (by simp [s4]) (by simp [s4])))
    have hg3 : s3.gauge = s2.gauge ∧ s3.clock = s.clock := ⟨rfl, h2.1⟩
    have hg4 : (s2.gauge.silent = false → valid = true → s4.gauge = { s2.gauge with held := true, hx := hx, time := s.clock }) ∧ s4.gauge.silent = s2.gauge.silent := by
      constructor
      · intro h1 hv
        show (gaugeReply valid hx s3).gauge = _
        unfold gaugeReply
        rw [if_pos ⟨hv, by rw [hg3.1]; exact h1⟩]
        rw [← hg3.1, ← hg3.2]
      · show (gaugeReply valid hx s3).gauge.silent = _
        unfold gaugeReply expireSample
        (repeat' split) <;> rfl
    have hgf : valid = false → s4.gauge = { s2.gauge with
        held := s2.gauge.held && decide ((s.clock - s2.gauge.time).toNat < 2 * s.lineCopy.period) } := by
      intro hv
      show (gaugeReply valid hx s3).gauge = _
      unfold gaugeReply
      rw [if_neg (fun h => by rw [hv] at h; cases h.1), expireSample_gauge, hg3.1, hg3.2]
      have : s3.lineCopy = s.lineCopy := by
        unfold State.lineCopy
        rw [show s3.line = s2.line from rfl, h2.2.2.1]
      rw [this]
    clear_value s4
    have hcn4 : Work.nextPoll ∈ plan → s4.link.cycle = some c ∧ s4.link.pollList ≠ [] := by rw [hsc4.2.1, hsc4.1]; exact hcn
    have hnx := fun h => nextExchangeAt_spec now (s := s4) c (hcn4 h).1 (hcn4 h).2
    have hns := fun h => nextExchangeAt_station now (s := s4) c (hcn4 h).1 (hcn4 h).2
    have key : t.clock = s.clock ∧ t.level = s.level ∧ t.line = s.line ∧ t.est = s.est ∧ t.tracker = s.tracker ∧ (∀ e', t.station e' = s3.station e') ∧ t.gauge = s4.gauge := by
      rw [ht]; unfold onlyNextPoll
      split
      · refine ⟨by simp [h4], by simp [h4], by simp [h4], by simp [h4], by simp [h4], ?_, by simp⟩
        intro e'; rw [hns (List.contains_iff_mem.mp ‹_›), hs4]
      · exact ⟨h4.1, h4.2.1, h4.2.2.1, h4.2.2.2.1, h4.2.2.2.2, hs4, rfl⟩
    obtain ⟨k1, k2, k3, k4, k5, k6, k7⟩ := key
    refine ⟨?_, ?_, k1, k2, k3, ?_, ?_, ?_, ?_, ?_, k4, k5, ?_, ?_, ?_, ?_, ?_, ?_⟩
    · rintro ⟨a, b, rfl, _, _⟩
      rw [ht]; unfold onlyNextPoll
      rw [if_pos (by simp)]
      exact (hnx (by simp)).1.before hsc4
    · intro h
      rw [ht]; unfold onlyNextPoll
      rw [if_neg (by simpa using h)]
      exact hsc4.2.1
    · intro e' hne'; rw [k6, hs3, if_neg hne']
    · rw [k6, hs3, if_pos rfl]; rfl
    · rw [k6, hs3, if_pos rfl]; rfl
    · rw [k6, hs3, if_pos rfl]; rfl
    · rw [k6, hs3, if_pos rfl]; rfl
    · intro hp hv hs
      have : s2.gauge = s.gauge := by rw [h2.2.2.2.2.2, if_pos (c := st.state = .present) hp]
      rw [k7, hg4.1 (by rw [this]; exact hs) hv, this]
    · intro hp _
      have : s2.gauge = { s.gauge with silent := false } := by rw [h2.2.2.2.2.2, if_neg (c := st.state = .present) hp]
      rw [k7]
      exact ⟨by rw [hg4.2, this], fun hv => by rw [hg4.1 (by rw [this]) hv, this]⟩
    · intro hp hv
      have : s2.gauge = s.gauge := by rw [h2.2.2.2.2.2, if_pos (c := st.state = .present) hp]
      rw [k7, hgf hv, this]
    · intro hp _ hv
      have : s2.gauge = { s.gauge with silent := false } := by rw [h2.2.2.2.2.2, if_neg (c := st.state = .present) hp]
      rw [k7, hgf hv, this]
    · intro hs hl
      exfalso
      unfold stateAnswered at hn
      rw [hst, hs] at hn
      dsimp only at hn
      rw [hg, if_neg (by omega)] at hn
      cases hn
    · intro _
      rw [k6, hs3, if_pos rfl]
      exact ⟨rfl, rfl, rfl⟩
  · have hsil : (s.station e).state = .silent ∧ min ((s.station e).goodRun + 1) 7 < s.lineCopy.rejoinCount := by
      unfold stateAnswered at hn
      rw [hst, hg] at hn
      cases hx : (s.station e).state <;> rw [hx] at hn <;> dsimp only at hn
      · exact absurd rfl hn
      · exact absurd rfl hn
      · refine ⟨rfl, ?_⟩
        by_contra hc'
        rw [if_pos (by omega)] at hn
        exact hn rfl
    let s3 := s1.withStation e (st.undelivered s.clock)
    have ht : t = onlyNextPoll plan now s3 := by
      show validReply .gauge (.gauge valid hx) plan late now s = _
      unfold validReply
      exact if_neg hn
    have hs3 : ∀ e', s3.station e' = if e' = e then st.undelivered s.clock else s.station e' := by
      intro e'
      show (s1.withStation e _).station e' = _
      rw [station_withStation _ _ _ he, hs1]
      by_cases h : e' = e <;> simp [h]
    have hsc3 : SameCycle s s3 := hsc1.trans (SameCycle.withStation _ _)
    have h3 : s3.clock = s.clock ∧ s3.level = s.level ∧ s3.line = s.line ∧ s3.est = s.est ∧ s3.tracker = s.tracker := ⟨rfl, rfl, rfl, rfl, rfl⟩
    have hgs : s3.gauge = s.gauge := rfl
    clear_value s3
    have hcn3 : Work.nextPoll ∈ plan → s3.link.cycle = some c ∧ s3.link.pollList ≠ [] := by rw [hsc3.2.1, hsc3.1]; exact hcn
    have hnx := fun h => nextExchangeAt_spec now (s := s3) c (hcn3 h).1 (hcn3 h).2
    have hns := fun h => nextExchangeAt_station now (s := s3) c (hcn3 h).1 (hcn3 h).2
    have key : t.clock = s.clock ∧ t.level = s.level ∧ t.line = s.line ∧ t.est = s.est ∧ t.tracker = s.tracker ∧ (∀ e', t.station e' = if e' = e then st.undelivered s.clock else s.station e') ∧ t.gauge = s.gauge := by
      rw [ht]; unfold onlyNextPoll
      split
      · refine ⟨by simp [h3], by simp [h3], by simp [h3], by simp [h3], by simp [h3], ?_, by simp [hgs]⟩
        intro e'; rw [hns (List.contains_iff_mem.mp ‹_›), hs3]
      · exact ⟨h3.1, h3.2.1, h3.2.2.1, h3.2.2.2.1, h3.2.2.2.2, hs3, hgs⟩
    obtain ⟨k1, k2, k3, k4, k5, k6, k8⟩ := key
    refine ⟨?_, ?_, k1, k2, k3, ?_, ?_, ?_, ?_, ?_, k4, k5, ?_, ?_, ?_, ?_, ?_, ?_⟩
    · rintro ⟨a, b, rfl, _, _⟩
      rw [ht]; unfold onlyNextPoll
      rw [if_pos (by simp)]
      exact (hnx (by simp)).1.before hsc3
    · intro h
      rw [ht]; unfold onlyNextPoll
      rw [if_neg (by simpa using h)]
      exact hsc3.2.1
    · intro e' hne'; rw [k6, if_neg hne']
    · rw [k6, if_pos rfl]; rfl
    · rw [k6, if_pos rfl]; rfl
    · rw [k6, if_pos rfl]; rfl
    · rw [k6, if_pos rfl]; rfl
    · intro h; rw [hsil.1] at h; cases h
    · rintro _ (h | h)
      · exact absurd hsil.1 h
      · omega
    · intro h; rw [hsil.1] at h; cases h
    · rintro _ (h | h)
      · exact absurd hsil.1 h
      · omega
    · intro _ _
      rw [k6, if_pos rfl]
      exact ⟨hsil.1, rfl, k8⟩
    · rintro (h | h)
      · exact absurd hsil.1 h
      · omega

/-- A frame of a stand is judged a stand reply or a miss (R150). -/
theorem judge_stand (k addr fr still r) (h : judge (.stand k) addr fr still = some r) : ∃ p f v fl, r = .stand p f v fl := by
  unfold judge at h; dsimp only at h
  split at h
  · injection h with h; exact ⟨_, _, _, _, h.symm⟩
  · cases h

/-- A frame of the gauge is judged a gauge reply or a miss (R150). -/
theorem judge_gauge (addr fr still r) (h : judge .gauge addr fr still = some r) : ∃ v x, r = .gauge v x := by
  unfold judge at h; dsimp only at h
  split at h
  · injection h with h; exact ⟨_, _, h.symm⟩
  · cases h

end Sys2Proof.Machine
end

