-- ==== Sys2Proof/Laws/Entry.lean ====
section
/-! SUPPORT. What RUN entry and LOOPBACK entry do, block by block. -/

namespace Sys2Proof.Machine

/-- A listed station at the link entry (R147, R151): its address, and every record at its entry value. -/
theorem startLink_station (s : State) (l : LineDesc) (e : PollEntry) (he : e = .gauge ∨ ∃ k, e = .stand k ∧ 1 ≤ k ∧ k ≤ 8) :
   (startLink s l).station e = { s.station e with
        addr := (match e with | .stand k => (l.stands.get k).addr | .gauge => l.gaugeAddr),
        state := .unknown, missRun := 0, goodRun := 0, prevTime := none, saturated := false } := by
  rcases he with rfl | ⟨k, rfl, hk⟩
  · rfl
  · show (PerStand.ofStand _).get k = _
    rw [PerStand.get_ofStand _ _ hk]; rfl

/-- A preparation touches no other stand's references (R81). -/
theorem prepare_baseKnown (j k : Nat) (s : State) (h : k ≠ j) : ((prepare j s).gap.get k) = s.gap.get k := by
  have a1 : ∀ (s : State) r, ((s.withRef j r).gap.get k) = s.gap.get k := fun s r => PerStand.get_set_other _ _ _ _ h
  have a2 : ∀ (s : State) m, ((s.withMove j m).gap.get k) = s.gap.get k := fun s r => a1 _ _
  have a3 : ∀ (s : State) b x y, ((sendBase j b x y s).gap.get k) = s.gap.get k := fun s b x y => a1 _ _
  have a4 : ∀ (s : State) x, ((holdFrame j x s).gap.get k) = s.gap.get k := fun s x => a1 _ _
  have a5 : ∀ (s : State) d x, ((endMove j d x s).gap.get k) = s.gap.get k := by
    intro s d x; unfold endMove; (repeat' split) <;> simp only [a2] <;> try simp
  have a6 : ∀ (s : State), ((timeoutTest j s).gap.get k) = s.gap.get k := by
    intro s; unfold timeoutTest; split <;> simp only [a5]
  have a7 : ∀ (s : State), ((calOpenStep j s).gap.get k) = s.gap.get k := by
    intro s; unfold calOpenStep; dsimp only; simp only [a3]
  unfold prepare
  split
  · dsimp only; simp only [a1, a3]
  · split
    · split <;> simp only [a3, a4]
    · unfold prepareMove prepareByMove rampStep
      dsimp only
      (repeat' split) <;> try simp only [a4, a3, a7, a2, a6]
      unfold assemble; dsimp only; simp only [a1, a6]

theorem tripRunEntry_only (s : State) (k : Nat) : MoveOnly (s.gap.get k) ((tripRunEntry s).gap.get k) := by
  unfold tripRunEntry
  dsimp only
  split
  · refine MoveOnly.trans ?_ (takeCause_only _ _ k _ _)
    exact .refl _
  · exact .refl _

theorem switchStand_trim (k j : Nat) (x : Slot) (c : SwitchCause) (f : FreeCause) (time : Clock) (s : State) :
    ((switchStand j x c f time s).gap.get k).trim = (s.gap.get k).trim := by
  have h1 : ∀ s : State, ((switchTerms j s).gap.get k).trim = (s.gap.get k).trim := by
    intro s
    show ((s.gap.set j _).get k).trim = _
    by_cases hj : 1 ≤ j ∧ j ≤ 8
    · rw [PerStand.get_set _ _ _ _ hj]; split
      · subst_vars; rfl
      · rfl
    · rw [PerStand.set_outside _ _ _ hj]
  have h2 : ∀ s : State, ((endHold j s).gap.get k).trim = (s.gap.get k).trim := by
    intro s; unfold endHold; split
    · obtain ⟨m, h⟩ := withMove_only s j k .none; rw [h]
    · rfl
  unfold switchStand
  dsimp only
  rw [(takeInForce_keeps _ _).2.2.2.2.2.2.2.2.2.2.2.2.2.2.2.2.2.2.2.1]
  split
  · rw [(settleLeft_keeps _ _ _ _).2.2.2.2.2.2.2.2.2.2.2.2.2.2.2.2.2.1]
    rw [(note_keeps _ _ _ _ _ _ _ _).2.2.2.2.2.2.2.2.2.2.2.2.2.2.2.2.2.1, h2, h1]
  · rw [(note_keeps _ _ _ _ _ _ _ _).2.2.2.2.2.2.2.2.2.2.2.2.2.2.2.2.2.1, h2, h1]

theorem slots_trim (s : State) (k : Nat) : ((slotsRunEntry s).gap.get k).trim = (s.gap.get k).trim := by
  have hs : ∀ (ks : List Nat) x c f t (s : State), ((switchStands ks x c f t s).gap.get k).trim = (s.gap.get k).trim :=
    fun ks x c f t s => foldl_keeps (fun s => (s.gap.get k).trim) (fun t a => switchStand_trim k a x c f _ t) ks s
  have hc : ∀ c t (s : State), ((collapseSlots c t s).gap.get k).trim = (s.gap.get k).trim := by
    intro c t s; unfold collapseSlots; dsimp only
    (repeat' split) <;> simp [hs]
  unfold slotsRunEntry; dsimp only
  split <;> simp [hs, hc]

theorem takeLine_facts (l : LineDesc) (s : State) : (takeLine l s).level = .run ∧ (takeLine l s).line = some l ∧ (takeLine l s).configResult = 0 := by
  unfold takeLine; dsimp only
  split <;> simp

theorem beginExchange_zero (s : State) (late : Bool) (e : PollEntry) (tl : List PollEntry) (h : s.link.pollList = e :: tl) :
   (beginExchange 0 late s).link.cycle = some { index := 0, phase := .sending, late := late } ∧
   (beginExchange 0 late s).link.pollList = s.link.pollList ∧ (beginExchange 0 late s).link.expiryWaiting = s.link.expiryWaiting ∧
   (beginExchange 0 late s).link.nextExpiry = s.link.nextExpiry ∧ (∀ e', (beginExchange 0 late s).station e' = s.station e') ∧
   (beginExchange 0 late s).gap = (prepareEntry e s).gap := by
  unfold beginExchange
  rw [h]
  simp [State.station]
  rw [h]

theorem pollListOf_cons (l : LineDesc) : ∃ tl, pollListOf l = (if 1 ≤ l.n then PollEntry.stand 1 else .gauge) :: tl := by
  unfold pollListOf standsTo standNumbers
  rcases l.n with _ | n
  · exact ⟨_, rfl⟩
  · exact ⟨_, rfl⟩

theorem n_of_line {s : State} {l : LineDesc} (h : s.line = some l) : s.n = l.n ∧ s.lineCopy = l := by
  unfold State.n State.lineCopy; rw [h]; exact ⟨rfl, rfl⟩

/-- The blocks of RUN entry in order (R163): the line description, the blocks before the trip entry, and the link. -/
theorem enterRun_facts (l : LineDesc) (s : State) : ∃ a0 a4 a5, a0 = takeLine l (leaveLoopback s) ∧
   a4 = tripRunEntry (gapRunEntry (s.line.map LineDesc.n) (rewriteSummary (resetThreading (slotsRunEntry (gaugeRunEntry (thicknessRunEntry a0)))))) ∧
   a5 = startLink a4 a4.lineCopy ∧ enterRun l s = dropImages (startCycle false a5) := ⟨_, _, _, rfl, rfl, rfl, rfl⟩

/-- What RUN entry does before the first poll, block by block. -/
theorem enterRun_blocks (l : LineDesc) (s a0 a4 : State) (h0 : a0 = takeLine l (leaveLoopback s))
   (h4 : a4 = tripRunEntry (gapRunEntry (s.line.map LineDesc.n) (rewriteSummary (resetThreading (slotsRunEntry (gaugeRunEntry (thicknessRunEntry a0))))))) :
   a4.line = some l ∧ a4.level = .run ∧ a4.configResult = 0 ∧ a4.clock = s.clock ∧ a4.tracker = { s.tracker with threading := PerStand.all {} } ∧
   a4.gauge = { s.gauge with held := false, silent := false, out := false, paired := 0, unpaired := 0, outCount := 0 } ∧
   a4.est = (thicknessRunEntry a0).est ∧ a0.est = s.est ∧ a0.line = some l := by
  obtain ⟨k1, k2, k3⟩ := takeLine_facts l (leaveLoopback s)
  rw [← h0] at k1 k2 k3
  have c0 : a0.clock = s.clock := by rw [h0]; simp
  have t0 : a0.tracker = s.tracker := by rw [h0]; simp
  have g0 : a0.gauge = s.gauge := by rw [h0]; simp
  have e0 : a0.est = s.est := by rw [h0]; simp
  clear h0
  refine ⟨?_, ?_, ?_, ?_, ?_, ?_, ?_, e0, k2⟩
  · rw [h4]; simp [k2]
  · rw [h4]; simp [k1]
  · rw [h4]; simp [k3]
  · rw [h4]; simp [c0]
  · rw [h4]; simp; simp [resetThreading, t0]
  · rw [h4]; simp; simp [gaugeRunEntry, g0]
  · rw [h4]; simp

theorem takeCause_rest (c : Cause) (k : Nat) (time : Clock) (s : State) :
  (takeCause c k time s).trip.matrix = s.trip.matrix ∧ (takeCause c k time s).trip.ready = s.trip.ready ∧ (takeCause c k time s).trip.etrip = s.trip.etrip := by
  have hf : ∀ (l : List Nat) (u : State), (l.foldl (fun s k => endMove k .trip false s) u).trip = u.trip := fun l u => foldl_keeps (·.trip) (by simp) l u
  have hr : (recordCause c k time s).trip.matrix = s.trip.matrix ∧ (recordCause c k time s).trip.ready = s.trip.ready ∧ (recordCause c k time s).trip.etrip = s.trip.etrip := by
    rw [recordCause_trip]; (repeat' split) <;> exact ⟨rfl, rfl, rfl⟩
  unfold takeCause
  dsimp only
  split
  · unfold applyEntry; dsimp only
    rw [rewriteTripArea_trip, hf]
    exact hr
  · rw [rewriteTripArea_trip]
    exact hr

/-- The trip record at RUN entry (R126, R132, R163). -/
theorem enterRun_trip (l : LineDesc) (s a0 a4 : State) (h0 : a0 = takeLine l (leaveLoopback s))
   (h4 : a4 = tripRunEntry (gapRunEntry (s.line.map LineDesc.n) (rewriteSummary (resetThreading (slotsRunEntry (gaugeRunEntry (thicknessRunEntry a0))))))) :
   a4.trip.matrix = some (l.matrix.map MatrixBytes.decode) ∧ a4.trip.ready = PerStand.all false ∧
      a4.trip.etrip = s.etripPin ∧
      (s.etripPin = .healthy → a4.trip.latch = s.trip.latch ∧ a4.trip.actions = s.trip.actions ∧
        a4.trip.entryStop = s.trip.entryStop ∧ a4.trip.causes = s.trip.causes ∧ a4.trip.overflow = s.trip.overflow) ∧
      (s.etripPin = .trip → a4.trip.latch = true) := by
  obtain ⟨a3, h3⟩ : ∃ a3, a3 = gapRunEntry (s.line.map LineDesc.n) (rewriteSummary (resetThreading (slotsRunEntry (gaugeRunEntry (thicknessRunEntry a0))))) := ⟨_, rfl⟩
  obtain ⟨k1, k2, k3⟩ := takeLine_facts l (leaveLoopback s)
  rw [← h0] at k1 k2 k3
  have t0 : a0.trip = s.trip := by rw [h0]; simp
  have p0 : a0.etripPin = s.etripPin := by rw [h0]; simp
  have t3 : a3.trip = s.trip := by rw [h3]; simp; simp [t0]
  have p3 : a3.etripPin = s.etripPin := by rw [h3]; simp; simp [p0]
  have l3 : a3.lineCopy = l := by
    have : a3.line = some l := by rw [h3]; simp; simp [k2]
    unfold State.lineCopy; rw [this]; rfl
  rw [← h3] at h4
  clear h3 h0
  obtain ⟨b, hb⟩ : ∃ b, b = rewriteTripArea { a3 with trip := { a3.trip with matrix := some (a3.lineCopy.matrix.map MatrixBytes.decode), ready := PerStand.all false, etrip := a3.etripPin } } := ⟨_, rfl⟩
  have hbt : b.trip = { s.trip with matrix := some (l.matrix.map MatrixBytes.decode), ready := PerStand.all false, etrip := s.etripPin } := by
    rw [hb, rewriteTripArea_trip, l3, t3, p3]
  have h4' : a4 = if b.trip.etrip = .trip then takeCause .external 0 b.clock b else b := by rw [h4]; unfold tripRunEntry; dsimp only; rw [← hb]
  rw [h4', hbt]; dsimp only
  cases he : s.etripPin
  · rw [if_neg (by simp), hbt]; exact ⟨rfl, rfl, he, fun _ => ⟨rfl, rfl, rfl, rfl, rfl⟩, by simp⟩
  · rw [if_pos rfl]
    obtain ⟨r1, r2, r3⟩ := takeCause_rest .external 0 b.clock b
    rw [r1, r2, r3, hbt]
    exact ⟨rfl, rfl, he, by simp, fun _ => (takeCause_trip _ _ _ _).1⟩

/-- The link at RUN entry (R147, R163). -/
theorem enterRun_link (l : LineDesc) (s a0 a4 : State) (h0 : a0 = takeLine l (leaveLoopback s))
   (h4 : a4 = tripRunEntry (gapRunEntry (s.line.map LineDesc.n) (rewriteSummary (resetThreading (slotsRunEntry (gaugeRunEntry (thicknessRunEntry a0))))))) :
   a4.link.stations = s.link.stations ∧ a4.link.gauge = s.link.gauge := by
  have e : a4.link = a0.link := by rw [h4]; simp
  have e0 : a0.link = (leaveLoopback s).link := by rw [h0]; simp
  rw [e, e0]
  unfold leaveLoopback; split
  · unfold stopLink; simp
  · exact ⟨rfl, rfl⟩

theorem takeLine_gap (l : LineDesc) (s : State) : (takeLine l s).gap = s.gap := by simp

/-- The references and estimates at RUN entry (R53, R88, R163). -/
theorem enterRun_gap (l : LineDesc) (s a0 a4 : State) (h0 : a0 = takeLine l (leaveLoopback s))
   (h4 : a4 = tripRunEntry (gapRunEntry (s.line.map LineDesc.n) (rewriteSummary (resetThreading (slotsRunEntry (gaugeRunEntry (thicknessRunEntry a0))))))) (k : Nat) (hk : 1 ≤ k ∧ k ≤ 8) :
   (a4.gap.get k).ff = 0 ∧ (a4.gap.get k).agc = 0 ∧ (a4.gap.get k).hLock = 0 ∧
        (a4.gap.get k).trim = limit (s.gap.get k).trim l.trimLim ∧ ((a4.gap.get k).baseKnown = false) ∧
        (s.line.map LineDesc.n ≠ some l.n → (a4.gap.get k).mon = 0) := by
  obtain ⟨a2, h2⟩ : ∃ a2, a2 = rewriteSummary (resetThreading (slotsRunEntry (gaugeRunEntry (thicknessRunEntry a0)))) := ⟨_, rfl⟩
  obtain ⟨k1, k2, k3⟩ := takeLine_facts l (leaveLoopback s)
  rw [← h0] at k1 k2 k3
  have l2 : a2.n = l.n ∧ a2.lineCopy = l := by
    apply n_of_line; rw [h2]; simp; simp [k2]
  have tr : (a2.gap.get k).trim = (s.gap.get k).trim := by
    have e0 : ∀ x, (rewriteSummary (resetThreading x)).gap = x.gap := fun _ => rfl
    have e1 : a2.gap = (slotsRunEntry (gaugeRunEntry (thicknessRunEntry a0))).gap := by rw [h2]; exact e0 _
    rw [e1, slots_trim]
    have e2 : (gaugeRunEntry (thicknessRunEntry a0)).gap = a0.gap := by simp [gaugeRunEntry]
    rw [e2, h0, takeLine_gap]
    unfold leaveLoopback; split
    · show ((endMovesLevel s).gap.get k).trim = _; rw [endMovesLevel_gap _ _ hk]
    · rfl
  rw [← h2] at h4
  obtain ⟨m, hm⟩ := tripRunEntry_only (gapRunEntry (s.line.map LineDesc.n) a2) k
  rw [← h4] at hm
  have hg : (gapRunEntry (s.line.map LineDesc.n) a2).gap.get k = { a2.gap.get k with ff := 0, agc := 0, hLock := 0, baseKnown := false, mon := if (s.line.map LineDesc.n) ≠ some a2.n then 0 else (a2.gap.get k).mon, trim := limit (a2.gap.get k).trim a2.lineCopy.trimLim } := by
    unfold gapRunEntry; dsimp only; exact PerStand.get_map _ _ _ hk
  rw [hm, hg]; dsimp only
  rw [tr, l2.1, l2.2]
  refine ⟨rfl, rfl, rfl, rfl, rfl, fun h => by rw [if_pos h]⟩

/-- A preparation keeps the terms of its stand. -/
theorem prepare_terms (k : Nat) (s : State) : ((prepare k s).gap.get k).ff = (s.gap.get k).ff ∧ ((prepare k s).gap.get k).agc = (s.gap.get k).agc ∧ ((prepare k s).gap.get k).hLock = (s.gap.get k).hLock ∧ ((prepare k s).gap.get k).trim = (s.gap.get k).trim ∧ ((prepare k s).gap.get k).mon = (s.gap.get k).mon := by
  by_cases hk : 1 ≤ k ∧ k ≤ 8
  swap
  · have : ∀ t : State, t.gap.get k = default := fun t => PerStand.get_outside _ _ hk
    rw [this, this]; (refine ⟨?_, ?_, ?_, ?_, ?_⟩ <;> rfl)
  have a1 : ∀ (s : State) r, ((s.withRef k r).gap.get k) = r := fun s r => PerStand.get_set_same _ _ _ hk
  have a2 : ∀ (s : State) m, ((s.withMove k m).gap.get k) = { s.gap.get k with move := m } := fun s r => a1 _ _
  have a5 : ∀ (s : State) d x, MoveOnly (s.gap.get k) ((endMove k d x s).gap.get k) := fun s d x => endMove_only s k k d x
  have a6 : ∀ (s : State), MoveOnly (s.gap.get k) ((timeoutTest k s).gap.get k) := by
    intro s; unfold timeoutTest; split
    · exact a5 _ _ _
    · exact .refl _
  unfold prepare
  split
  · dsimp only; unfold sendBase Reference.sendBase; simp only [a1]; (refine ⟨?_, ?_, ?_, ?_, ?_⟩ <;> first | rfl | trivial)
  · split
    · split
      · unfold sendBase Reference.sendBase; simp only [a1]; (refine ⟨?_, ?_, ?_, ?_, ?_⟩ <;> first | rfl | trivial)
      · unfold holdFrame; simp only [a1]; (refine ⟨?_, ?_, ?_, ?_, ?_⟩ <;> first | rfl | trivial)
    · obtain ⟨m, hm⟩ := a6 s
      unfold prepareMove; dsimp only
      generalize timeoutTest k s = u at *
      have : ((prepareByMove k u).gap.get k).ff = (u.gap.get k).ff ∧ ((prepareByMove k u).gap.get k).agc = (u.gap.get k).agc ∧ ((prepareByMove k u).gap.get k).hLock = (u.gap.get k).hLock ∧ ((prepareByMove k u).gap.get k).trim = (u.gap.get k).trim ∧ ((prepareByMove k u).gap.get k).mon = (u.gap.get k).mon := by
        unfold prepareByMove; dsimp only
        (repeat' split) <;> simp only [holdFrame, assemble, sendBase, rampStep, calOpenStep, Reference.sendBase, a1, a2] <;> (refine ⟨?_, ?_, ?_, ?_, ?_⟩ <;> first | rfl | trivial)
      split
      · unfold rampStep sendBase Reference.sendBase; simp only [a1, hm]; (refine ⟨?_, ?_, ?_, ?_, ?_⟩ <;> first | rfl | trivial)
      · rw [this.1, this.2.1, this.2.2.1, this.2.2.2.1, this.2.2.2.2, hm]
        (refine ⟨?_, ?_, ?_, ?_, ?_⟩ <;> rfl)

theorem moveTest_other (j k p f g) (s : State) (h : k ≠ j) : (moveTest j p f g s).gap.get k = s.gap.get k := by
  have a1 : ∀ (s : State) r, ((s.withRef j r).gap.get k) = s.gap.get k := fun s r => PerStand.get_set_other _ _ _ _ h
  have a2 : ∀ (s : State) m, ((s.withMove j m).gap.get k) = s.gap.get k := fun s r => a1 _ _
  unfold moveTest; dsimp only
  (repeat' split) <;> (try simp only [a1, a2]) <;> (try simp [recordZero])

theorem moveTest_known (k p f g) (s : State) (hk : 1 ≤ k ∧ k ≤ 8) : ((moveTest k p f g s).gap.get k).baseKnown = (s.gap.get k).baseKnown := by
  have a1 : ∀ (s : State) r, ((s.withRef k r).gap.get k) = r := fun s r => PerStand.get_set_same _ _ _ hk
  have a2 : ∀ (s : State) m, ((s.withMove k m).gap.get k) = { s.gap.get k with move := m } := fun s r => a1 _ _
  unfold moveTest; dsimp only
  (repeat' split) <;> (try simp only [a1, a2]) <;> (try simp [recordZero])

theorem firstBase_known (k) (s : State) (hk : 1 ≤ k ∧ k ≤ 8) : ((firstBase k s).gap.get k).baseKnown = true := by
  unfold firstBase; dsimp only; split
  · assumption
  · show ((s.gap.set k _).get k).baseKnown = true; rw [PerStand.get_set_same _ _ _ hk]

theorem firstBase_other (j k) (s : State) (h : k ≠ j) : (firstBase j s).gap.get k = s.gap.get k := by
  unfold firstBase; dsimp only; split
  · rfl
  · exact PerStand.get_set_other _ _ _ _ h

/-- What one exchange at LOOPBACK leaves (R155). -/
theorem loopback_exchange (s : State) (e : PollEntry) (he : EntryOk e) (hl : s.level = .loopback) (hu : (s.station e).state = .unknown) (hg : (s.station e).goodRun = 0) :
    (loopbackExchange s e).level = .loopback ∧ (loopbackExchange s e).clock = s.clock ∧ (loopbackExchange s e).line = s.line ∧
    (loopbackExchange s e).tracker = s.tracker ∧ (loopbackExchange s e).trip = s.trip ∧ (loopbackExchange s e).store = s.store ∧
    (loopbackExchange s e).cycleClock = s.cycleClock ∧
    (loopbackExchange s e).link = (s.withStation e { s.station e with state := .present, missRun := 0, goodRun := 1, prevTime := some s.clock, saturated := false, vDelivered := 0, lastLocal := false }).link ∧
    (∀ k, e = .stand k → ((loopbackExchange s e).gap.get k).baseKnown = true ∧ ImageWritten k false s (loopbackExchange s e)) ∧
    (∀ k, e ≠ .stand k → (loopbackExchange s e).gap.get k = s.gap.get k ∧ (loopbackExchange s e).images.get k = s.images.get k) := by
  obtain ⟨s1, h1⟩ : ∃ s1, s1 = prepareEntry e s := ⟨_, rfl⟩
  have p1 : s1.level = .loopback ∧ s1.clock = s.clock ∧ s1.line = s.line ∧ s1.tracker = s.tracker ∧ s1.trip = s.trip ∧ s1.store = s.store ∧ s1.cycleClock = s.cycleClock ∧ s1.link = s.link ∧ s1.images = s.images := by
    rw [h1]; unfold prepareEntry; split <;> simp [hl]
  obtain ⟨st, hst⟩ : ∃ st, st = { (s1.station e).answered with lastLocal := false } := ⟨_, rfl⟩
  have hs1 : s1.station e = s.station e := station_of_link p1.2.2.2.2.2.2.2.1 e
  have hstu : st.state = .unknown := by rw [hst, hs1]; exact hu
  obtain ⟨s3, h3⟩ : ∃ s3, s3 = becomePresent e (s1.withStation e st) := ⟨_, rfl⟩
  have hse : (s1.withStation e st).station e = st := by rw [station_withStation _ _ _ he, if_pos rfl]
  have p3 : s3.level = .loopback ∧ s3.clock = s.clock ∧ s3.line = s.line ∧ s3.tracker = s.tracker ∧ s3.trip = s.trip ∧ s3.store = s.store ∧ s3.cycleClock = s.cycleClock ∧ s3.images = s.images ∧ s3.gap = s1.gap := by
    have ht : s3.trip = s1.trip := by
      rw [h3]; unfold becomePresent; rw [hse]; dsimp only; rw [hstu]
      cases e with
      | stand k => dsimp only; rw [if_neg (by rw [show ((s1.withStation (.stand k) st)).level = s1.level from rfl, p1.1]; simp)]; rfl
      | gauge => rfl
    refine ⟨?_, ?_, ?_, ?_, by rw [ht]; exact p1.2.2.2.2.1, ?_, ?_, ?_, ?_⟩
    · rw [h3]; cases e <;> simp [p1, State.withStation]
    · rw [h3]; cases e <;> simp [p1, State.withStation]
    · rw [h3]; cases e <;> simp [p1, State.withStation]
    · rw [h3]; cases e <;> simp [p1, State.withStation]
    · rw [h3]; cases e <;> simp [p1, State.withStation]
    · rw [h3]; cases e <;> simp [p1, State.withStation]
    · rw [h3]; cases e <;> simp [p1, State.withStation]
    · rw [h3]; cases e <;> simp [State.withStation]
  have l3 : s3.link = (s.withStation e { st with state := .present }).link := by
    rw [h3, becomePresent_link, hse]
    cases e with
    | stand k => simp [State.withStation, p1, PerStand.set_set]
    | gauge => simp [State.withStation, p1]
  obtain ⟨s4, h4⟩ : ∃ s4, s4 = s3.withStation e { (s3.station e).delivered s3.clock with vDelivered := 0 } := ⟨_, rfl⟩
  have hs3 : s3.station e = { st with state := .present } := by
    rw [station_of_link l3 e, station_withStation _ _ _ he, if_pos rfl]
  have l4 : s4.link = (s.withStation e { s.station e with state := .present, missRun := 0, goodRun := 1, prevTime := some s.clock, saturated := false, vDelivered := 0, lastLocal := false }).link := by
    have hgr : (s.station e).answered = { s.station e with missRun := 0, goodRun := 1 } := by unfold Station.answered; rw [hg]; rfl
    have hrec : ({ ({ st with state := .present } : Station).delivered s.clock with vDelivered := 0 } : Station) = { s.station e with state := .present, missRun := 0, goodRun := 1, prevTime := some s.clock, saturated := false, vDelivered := 0, lastLocal := false } := by
      rw [hst, hs1, hgr]; rfl
    rw [h4, hs3, p3.2.1, hrec]
    generalize ({ s.station e with state := .present, missRun := 0, goodRun := 1, prevTime := some s.clock, saturated := false, vDelivered := 0, lastLocal := false } : Station) = R
    cases e with
    | stand k =>
      show ({ s3.link with stations := s3.link.stations.set k R } : Link) = { s.link with stations := s.link.stations.set k R }
      rw [l3]
      show ({ s.link with stations := (s.link.stations.set k _).set k R } : Link) = _
      rw [PerStand.set_set]
    | gauge =>
      show ({ s3.link with gauge := R } : Link) = { s.link with gauge := R }
      rw [l3]; rfl
  have p4 : s4.level = .loopback ∧ s4.clock = s.clock ∧ s4.line = s.line ∧ s4.tracker = s.tracker ∧ s4.trip = s.trip ∧ s4.store = s.store ∧ s4.cycleClock = s.cycleClock ∧ s4.images = s.images ∧ s4.gap = s1.gap := by
    rw [h4]; cases e <;> exact p3
  have hx : loopbackExchange s e = (match e with
    | .stand k => writeImage k false (moveTest k (s4.gap.get k).pRef 0 ((firstBase k (recordReply k (s4.gap.get k).pRef 0 s4)).est.get k).gapAct (firstBase k (recordReply k (s4.gap.get k).pRef 0 s4)))
    | .gauge => gaugeReply false 0 s4) := by
    have hX : (if ({ ((prepareEntry e s).station e).answered with lastLocal := false } : Station).state = .present then (prepareEntry e s).withStation e { ((prepareEntry e s).station e).answered with lastLocal := false } else becomePresent e ((prepareEntry e s).withStation e { ((prepareEntry e s).station e).answered with lastLocal := false })) = s3 := by
      rw [← h1, ← hst, if_neg (by rw [hstu]; simp), h3]
    have hY : (s3.withStation e { (s3.station e).delivered s.clock with vDelivered := 0 }) = s4 := by rw [h4, p3.2.1]
    rw [← hY, ← hX]; rfl
  clear h4 h3 l3 p3 hs3
  cases e with
  | gauge =>
    rw [hx]; dsimp only
    have q : (gaugeReply false 0 s4) = expireSample s4 := by unfold gaugeReply; simp
    rw [q]
    have g : expireSample s4 = { s4 with gauge := (expireSample s4).gauge } := by unfold expireSample; split <;> rfl
    rw [g]; dsimp only
    refine ⟨p4.1, p4.2.1, p4.2.2.1, p4.2.2.2.1, p4.2.2.2.2.1, p4.2.2.2.2.2.1, p4.2.2.2.2.2.2.1, l4, fun k h => (nomatch h), fun k _ => ⟨?_, ?_⟩⟩
    · rw [p4.2.2.2.2.2.2.2.2, h1]; rfl
    · rw [p4.2.2.2.2.2.2.2.1]
  | stand k =>
    have hk := he k rfl
    rw [hx]; dsimp only
    obtain ⟨y, hy⟩ : ∃ y, y = firstBase k (recordReply k (s4.gap.get k).pRef 0 s4) := ⟨_, rfl⟩
    rw [← hy]
    have py : y.level = .loopback ∧ y.clock = s.clock ∧ y.line = s.line ∧ y.tracker = s.tracker ∧ y.trip = s.trip ∧ y.store = s.store ∧ y.cycleClock = s.cycleClock ∧ y.images = s.images ∧ y.link = s4.link := by
      rw [hy]; simp [recordReply, p4]
    obtain ⟨z, hz⟩ : ∃ z, z = moveTest k (s4.gap.get k).pRef 0 (y.est.get k).gapAct y := ⟨_, rfl⟩
    rw [← hz]
    have pz : z.level = .loopback ∧ z.clock = s.clock ∧ z.line = s.line ∧ z.tracker = s.tracker ∧ z.trip = s.trip ∧ z.store = s.store ∧ z.cycleClock = s.cycleClock ∧ z.images = s.images ∧ z.link = s4.link := by
      rw [hz]; simp [py]
    refine ⟨pz.1, pz.2.1, pz.2.2.1, pz.2.2.2.1, pz.2.2.2.2.1, pz.2.2.2.2.2.1, pz.2.2.2.2.2.2.1, ?_, ?_, ?_⟩
    · show z.link = _; rw [pz.2.2.2.2.2.2.2.2, l4]
    · intro k' hk'
      injection hk' with hk'; subst hk'
      refine ⟨?_, (writeImage_written k false hk).before (by rw [pz.2.2.2.2.2.2.2.1])⟩
      show (z.gap.get k).baseKnown = true
      rw [hz, moveTest_known _ _ _ _ _ hk, hy]; exact firstBase_known _ _ hk
    · intro k' hk'
      have hne : k' ≠ k := fun h => hk' (by rw [h])
      refine ⟨?_, ?_⟩
      · show z.gap.get k' = _
        rw [hz, moveTest_other _ _ _ _ _ _ hne, hy, firstBase_other _ _ _ hne]
        show s4.gap.get k' = _
        rw [p4.2.2.2.2.2.2.2.2, h1]; exact prepare_baseKnown k k' s hne
      · rw [writeImage_other _ _ _ hne, pz.2.2.2.2.2.2.2.1]

/-- A station answered inside once from UNKNOWN. -/
def loopbackEntered (s : State) (e : PollEntry) (clk : Clock) : Station := { s.station e with state := .present, missRun := 0, goodRun := 1, prevTime := some clk, saturated := false, vDelivered := 0, lastLocal := false }

/-- The cycle that LOOPBACK entry starts: every listed station answered inside. -/
theorem loopback_exchanges (l : List PollEntry) : ∀ s : State, l.Nodup → (∀ e ∈ l, EntryOk e) → s.level = .loopback → (∀ e ∈ l, (s.station e).state = .unknown ∧ (s.station e).goodRun = 0) →
    ∃ t, l.foldl loopbackExchange s = t ∧ t.level = .loopback ∧ t.clock = s.clock ∧ t.line = s.line ∧ t.tracker = s.tracker ∧ t.trip = s.trip ∧ t.store = s.store ∧ t.cycleClock = s.cycleClock ∧
      t.link = { s.link with stations := t.link.stations, gauge := t.link.gauge } ∧
      (∀ e, t.station e = if e ∈ l then loopbackEntered s e s.clock else s.station e) ∧
      (∀ k, .stand k ∈ l → (t.gap.get k).baseKnown = true ∧ ∃ i, t.images.get k = { count := (s.images.get k).count + 1, shown := some i } ∧ i.time = s.clock ∧ i.late = false ∧ i.v = 0 ∧ i.station = .present) ∧
      (∀ k, .stand k ∉ l → t.gap.get k = s.gap.get k ∧ t.images.get k = s.images.get k) := by
  induction l with
  | nil => intro s _ _ hl _; exact ⟨s, rfl, hl, rfl, rfl, rfl, rfl, rfl, rfl, rfl, fun e => by simp, fun k h => by simp at h, fun k _ => ⟨rfl, rfl⟩⟩
  | cons e l ih =>
    intro s hnd hok hl hun
    have he := hok e (by simp)
    obtain ⟨x1, x2, x3, x4, x5, x6, x7, x8, x9, x10⟩ := loopback_exchange s e he hl (hun e (by simp)).1 (hun e (by simp)).2
    obtain ⟨u, hu⟩ : ∃ u, u = loopbackExchange s e := ⟨_, rfl⟩
    rw [← hu] at x1 x2 x3 x4 x5 x6 x7 x8 x9 x10
    have hnl : e ∉ l := (List.nodup_cons.mp hnd).1
    have hus : ∀ e', u.station e' = if e' = e then loopbackEntered s e s.clock else s.station e' := by
      intro e'; rw [station_of_link x8 e', station_withStation _ _ _ he]; rfl
    obtain ⟨t, t0, t1, t2, t3, t4, t5, t6, t7, t8, t9, t10, t11⟩ := ih u hnd.of_cons (fun e' h => hok e' (List.mem_cons_of_mem _ h)) x1 (by
      intro e' h'
      have hne : e' ≠ e := by intro h; rw [h] at h'; exact hnl h'
      rw [hus, if_neg hne]
      exact hun e' (List.mem_cons_of_mem _ h'))
    refine ⟨t, by rw [List.foldl_cons, ← hu]; exact t0, t1, by rw [t2, x2], by rw [t3, x3], by rw [t4, x4], by rw [t5, x5], by rw [t6, x6], by rw [t7, x7], ?_, ?_, ?_, ?_⟩
    · rw [t8, x8]; cases e <;> rfl
    · intro e'
      rw [t9]
      by_cases h1 : e' = e
      · rw [if_neg (h1 ▸ hnl), hus, if_pos h1, if_pos (by simp [h1]), h1]
      · by_cases h2 : e' ∈ l
        · rw [if_pos h2, if_pos (by simp [h2])]; unfold loopbackEntered; rw [hus, if_neg h1, x2]
        · rw [if_neg h2, hus, if_neg h1, if_neg (by simp [h1, h2])]
    · intro k hk
      by_cases h1 : e = .stand k
      · have h2 : PollEntry.stand k ∉ l := h1 ▸ hnl
        obtain ⟨g1, g2⟩ := t11 k h2
        obtain ⟨g3, i, i1, i3, i4, i5, i6, i7, i8, i9⟩ := x9 k h1
        have hst := hus e
        rw [if_pos rfl, h1] at hst
        have hst' : u.link.stations.get k = loopbackEntered s (.stand k) s.clock := hst
        refine ⟨by rw [g1]; exact g3, i, by rw [g2]; exact i1, by rw [i3, x2], i4, ?_, ?_⟩
        · rw [i9, hst']; rfl
        · rw [i5, hst']; rfl
      · have h2 : PollEntry.stand k ∈ l := by
          rcases List.mem_cons.mp hk with h | h
          · exact absurd h.symm h1
          · exact h
        obtain ⟨g1, i, i1, i2, i3, i4, i5⟩ := t10 k h2
        exact ⟨g1, i, by rw [i1, (x10 k h1).2], by rw [i2, x2], i3, i4, i5⟩
    · intro k hk
      have h1 : e ≠ .stand k := fun h => hk (by simp [h])
      have h2 : PollEntry.stand k ∉ l := fun h => hk (by simp [h])
      exact ⟨by rw [(t11 k h2).1, (x10 k h1).1], by rw [(t11 k h2).2, (x10 k h1).2]⟩

end Sys2Proof.Machine
end

