-- ==== Sys2Proof/Laws/PerInstr.lean ====
section
/-! SUPPORT. The law of the well-formed commands, one lemma for each constructor: the stands a command names are stands of
the part, and its order of work has every piece once, the Tracker's before the Gap Unit's and before its causes'. -/

namespace Sys2Proof.Laws.WellFormedLaw

/-- The stands a command names. -/
def standsOf : Instr → List Nat
  | .loadOn _ k _ | .loadOff _ k _ | .lockOn _ k _ | .presetComplete _ k _ | .zeroFound _ k _ _
  | .calibrationRetire _ k _ | .moveTimeout _ k | .stationSilent _ (.stand k) | .stationRejoined _ (.stand k) _ _
  | .elapsedSaturated _ (.stand k) => [k]
  | _ => []

/-- The orders of work a command gives. -/
def plansOf : Instr → List (List Work)
  | .replyReceived _ _ _ p | .stationRejoined _ _ _ p => [p]
  | _ => []

/-- What holds of a well-formed command. -/
def Statement (i : Instr) : Prop :=
  i.wellFormed = true →
    (∀ k ∈ standsOf i, 1 ≤ k ∧ k ≤ 8) ∧
    ∀ p ∈ plansOf i, p.Perm [.tracker, .gap, .causes, .check, .nextPoll] ∧
      p.idxOf .tracker < p.idxOf .gap ∧ p.idxOf .tracker < p.idxOf .causes

theorem standOk_spec {k : Nat} (h : standOk k = true) : 1 ≤ k ∧ k ≤ 8 := by
  simpa [standOk] using h

theorem planOk_spec {p : List Work} (h : planOk p = true) :
    p.Perm [.tracker, .gap, .causes, .check, .nextPoll] ∧
      p.idxOf .tracker < p.idxOf .gap ∧ p.idxOf .tracker < p.idxOf .causes := by
  simp only [planOk, Bool.and_eq_true, beq_iff_eq, List.contains_iff_mem, decide_eq_true_eq] at h
  obtain ⟨⟨⟨⟨⟨⟨⟨hl, h1⟩, h2⟩, h3⟩, h4⟩, h5⟩, h6⟩, h7⟩ := h
  have hsub : [Work.tracker, .gap, .causes, .check, .nextPoll] ⊆ p := by
    intro w hw
    simp only [List.mem_cons, List.not_mem_nil, or_false] at hw
    rcases hw with rfl | rfl | rfl | rfl | rfl <;> assumption
  have hn : [Work.tracker, .gap, .causes, .check, .nextPoll].Nodup := by decide
  exact ⟨((hn.subperm hsub).perm_of_length_le (by simp [hl])).symm, h6, h7⟩

/-- A command that names no stand and gives no order of work meets the law. -/
theorem of_none {i : Instr} (h : standsOf i = []) (g : plansOf i = []) : Statement i := by
  intro _; rw [h, g]; simp

theorem powerOn (etrip : EtripLevel) : Statement (.powerOn etrip) := of_none rfl rfl

theorem runLevelHalt (dt : Clock) : Statement (.runLevelHalt dt) := of_none rfl rfl

theorem runLevelConfigure (dt : Clock) : Statement (.runLevelConfigure dt) := of_none rfl rfl

theorem runLevelLoopback (dt : Clock) : Statement (.runLevelLoopback dt) := of_none rfl rfl

theorem runLevelRun (dt : Clock) : Statement (.runLevelRun dt) := of_none rfl rfl

theorem attentionWrite (dt : Clock) (value : Word) : Statement (.attentionWrite dt value) := of_none rfl rfl

theorem attentionMaskWrite (dt : Clock) (value : Word) : Statement (.attentionMaskWrite dt value) := of_none rfl rfl

theorem registerWriteIgnored (dt : Clock) (offset : Word) (value : Word) :
    Statement (.registerWriteIgnored dt offset value) := of_none rfl rfl

theorem exmWrite (dt : Clock) (addr : Word) (value : Word) : Statement (.exmWrite dt addr value) := of_none rfl rfl

theorem watchedWordArrival (dt : Clock) (value : Word) : Statement (.watchedWordArrival dt value) := of_none rfl rfl

theorem announceHead (dt : Clock) : Statement (.announceHead dt) := of_none rfl rfl

theorem setModulus (dt : Clock) : Statement (.setModulus dt) := of_none rfl rfl

theorem setTrim (dt : Clock) : Statement (.setTrim dt) := of_none rfl rfl

theorem loadSchedule (dt : Clock) : Statement (.loadSchedule dt) := of_none rfl rfl

theorem unloadSchedule (dt : Clock) : Statement (.unloadSchedule dt) := of_none rfl rfl

theorem presetGap (dt : Clock) : Statement (.presetGap dt) := of_none rfl rfl

theorem calibrateZero (dt : Clock) : Statement (.calibrateZero dt) := of_none rfl rfl

theorem abortMove (dt : Clock) : Statement (.abortMove dt) := of_none rfl rfl

theorem tripStands (dt : Clock) : Statement (.tripStands dt) := of_none rfl rfl

theorem resetTrip (dt : Clock) : Statement (.resetTrip dt) := of_none rfl rfl

theorem etripChange (dt : Clock) (new : EtripLevel) : Statement (.etripChange dt new) := of_none rfl rfl

theorem pollTimerExpiry (dt : Clock) : Statement (.pollTimerExpiry dt) := of_none rfl rfl

theorem pollSent (dt : Clock) : Statement (.pollSent dt) := of_none rfl rfl

theorem replyWindowClose (dt : Clock) (prepFirst : Bool) : Statement (.replyWindowClose dt prepFirst) := of_none rfl rfl

theorem replyReceived (dt : Clock) (frame : List Byte) (fin : FrameEnd) (plan : List Work) :
    Statement (.replyReceived dt frame fin plan) := by
  intro h
  simp only [Instr.wellFormed, Bool.and_eq_true] at h
  simpa [standsOf, plansOf] using planOk_spec h.2

theorem bodyCut (dt : Clock) (dL : Nat) : Statement (.bodyCut dt dL) := of_none rfl rfl

theorem loadOn (dt : Clock) (k : Nat) (f : Nat) : Statement (.loadOn dt k f) := by
  intro h
  simp only [Instr.wellFormed, Bool.and_eq_true] at h
  simpa [standsOf, plansOf] using standOk_spec h.1

theorem loadOff (dt : Clock) (k : Nat) (f : Nat) : Statement (.loadOff dt k f) := by
  intro h
  simp only [Instr.wellFormed, Bool.and_eq_true] at h
  simpa [standsOf, plansOf] using standOk_spec h.1

theorem lockOn (dt : Clock) (k : Nat) (f : Nat) : Statement (.lockOn dt k f) := by
  intro h
  simp only [Instr.wellFormed, Bool.and_eq_true] at h
  simpa [standsOf, plansOf] using standOk_spec h.1

theorem presetComplete (dt : Clock) (k : Nat) (g : Int) : Statement (.presetComplete dt k g) := by
  intro h
  simpa [standsOf, plansOf] using standOk_spec h

theorem zeroFound (dt : Clock) (k : Nat) (p : Nat) (f : Nat) : Statement (.zeroFound dt k p f) := by
  intro h
  simp only [Instr.wellFormed, Bool.and_eq_true] at h
  simpa [standsOf, plansOf] using standOk_spec h.1.1

theorem calibrationRetire (dt : Clock) (k : Nat) (g : Int) : Statement (.calibrationRetire dt k g) := by
  intro h
  simpa [standsOf, plansOf] using standOk_spec h

theorem moveTimeout (dt : Clock) (k : Nat) : Statement (.moveTimeout dt k) := by
  intro h
  simpa [standsOf, plansOf] using standOk_spec h

theorem stationSilent (dt : Clock) (entry : PollEntry) : Statement (.stationSilent dt entry) := by
  intro h
  cases entry with
  | stand k => simpa [standsOf, plansOf] using standOk_spec h
  | gauge => simp [standsOf, plansOf]

theorem stationRejoined (dt : Clock) (entry : PollEntry) (reply : Reply) (plan : List Work) :
    Statement (.stationRejoined dt entry reply plan) := by
  intro h
  simp only [Instr.wellFormed, Bool.and_eq_true] at h
  refine ⟨?_, by simpa [plansOf] using planOk_spec h.2⟩
  cases entry with
  | stand k => simpa [standsOf] using standOk_spec h.1.1.1
  | gauge => simp [standsOf]

theorem sampleExpiry (dt : Clock) : Statement (.sampleExpiry dt) := of_none rfl rfl

theorem elapsedSaturated (dt : Clock) (entry : PollEntry) : Statement (.elapsedSaturated dt entry) := by
  intro h
  cases entry with
  | stand k => simpa [standsOf, plansOf] using standOk_spec h
  | gauge => simp [standsOf, plansOf]

theorem strayFrameDiscard (dt : Clock) (bytes : List Byte) : Statement (.strayFrameDiscard dt bytes) := of_none rfl rfl

theorem journalReadWrite (dt : Clock) (value : Word) : Statement (.journalReadWrite dt value) := of_none rfl rfl

theorem replyStart (dt : Clock) : Statement (.replyStart dt) := of_none rfl rfl

theorem resetAsserted (dt : Clock) : Statement (.resetAsserted dt) := of_none rfl rfl

end Sys2Proof.Laws.WellFormedLaw
end

