-- ==== Sys2Proof/Laws/Strip.lean ====
section
/-! SUPPORT. What the strip's shared operations do: a zone's advance, the notices and runs at a reply, when it confirms a bite
at stand 1, that bite, the segment generator, and the release. -/

namespace Sys2Proof.Machine

theorem note_tracker (kd k tm c a b d) (s : State) : (note kd k tm c a b d s).tracker = s.tracker := by simp

theorem monUpdate_tracker (m s) : (monUpdate m s).tracker = s.tracker := by unfold monUpdate; dsimp only; split <;> rfl

theorem toleranceVerdict_tracker (m s) : (toleranceVerdict m s).tracker = s.tracker := by unfold toleranceVerdict; dsimp only; split <;> simp

theorem pairMark_tracker (m s) : (pairMark m s).tracker = s.tracker := by simp

theorem markDeparted_tracker (x s) : (markDeparted x s).tracker = s.tracker := by
  unfold markDeparted; split; rfl
  split
  · simp [freeSlot]
  · rfl

theorem departMark_carry (k m r s) : (departMark k m r s).tracker.carry = s.tracker.carry := by
  unfold departMark; dsimp only; rw [markDeparted_tracker]; simp

theorem ffUpdate_tracker (k m s) : (ffUpdate k m s).tracker = s.tracker := rfl

theorem passMark_carry (k m r s) : (passMark k m r s).tracker.carry = s.tracker.carry := by
  unfold passMark; dsimp only; split <;> rfl

theorem holdMark_carry (k m r x s) : (holdMark k m r x s).tracker.carry = s.tracker.carry := by
  unfold holdMark; dsimp only
  split
  · rw [note_tracker]; split <;> split <;> rfl
  · split <;> split <;> rfl

theorem arriveBehind_carry (k s) : (arriveBehind k s).tracker.carry = s.tracker.carry := by
  rcases arriveBehind_cases k s with e | ⟨q, x, -, e | e⟩ <;> rw [e] <;> rfl

theorem arrive_carry : ∀ (fuel k extra : Nat) (s : State), (arrive fuel k extra s).1.tracker.carry = s.tracker.carry := by
  intro fuel
  induction fuel with
  | zero => intros; rfl
  | succ n ih =>
    intro k extra s
    unfold arrive
    split
    · rfl
    · split
      · exact departMark_carry ..
      · split
        · dsimp only; split
          · rw [ih]; exact passMark_carry ..
          · rw [arriveBehind_carry]; exact passMark_carry ..
        · exact holdMark_carry ..

theorem advanceWalk_carry : ∀ (fuel k dL : Nat) (s : State), (advanceWalk fuel k dL s).tracker.carry = s.tracker.carry := by
  intro fuel
  induction fuel with
  | zero => intros; rfl
  | succ n ih =>
    intro k dL s
    unfold advanceWalk
    split
    · rfl
    · split
      · rfl
      · dsimp only; split
        · rw [ih, arrive_carry]
        · split
          · exact arrive_carry ..
          · exact arrive_carry ..

/-- The marks behind a front mark: each moves by the strip length, limited by the mark ahead of it (R7), and only its position changes. -/
theorem advanceBehind_get (dL : Nat) : ∀ (q : List Mark) (ahead : Nat) (i : Nat) (a : Mark), q[i]? = some a →
    ∃ b, (advanceBehind dL ahead q)[i]? = some b ∧ b = { a with pos := b.pos } ∧ (i = 0 → b.pos = min (a.pos + dL) ahead) ∧
      ∀ j c, j + 1 = i → (advanceBehind dL ahead q)[j]? = some c → b.pos = min (a.pos + dL) c.pos := by
  intro q
  induction q with
  | nil => intro _ i a h; simp at h
  | cons m q ih =>
    intro ahead i a h
    cases i with
    | zero =>
      simp at h; subst h
      exact ⟨_, rfl, rfl, fun _ => rfl, by intro j c h; omega⟩
    | succ i =>
      have h' : q[i]? = some a := by simpa using h
      obtain ⟨b, h1, h2, h3, h4⟩ := ih (min (m.pos + dL) ahead) i a h'
      refine ⟨b, by simpa [advanceBehind] using h1, h2, by omega, ?_⟩
      intro j c hj hc
      cases j with
      | zero =>
        have hc' : c = { m with pos := min (m.pos + dL) ahead } := by
          have := hc; simp [advanceBehind] at this; exact this.symm
        have : i = 0 := by omega
        rw [h3 this, hc']
      | succ j =>
        exact h4 j c (by omega) (by simpa [advanceBehind] using hc)

theorem withThread_thread (s : State) (k : Nat) (t : Threading) (hk : 1 ≤ k ∧ k ≤ 8) : (s.withThread k t).thread k = t :=
  PerStand.get_set_same _ _ _ hk

theorem withThread_other (s : State) (j k : Nat) (t : Threading) (h : j ≠ k) : (s.withThread k t).thread j = s.thread j :=
  PerStand.get_set_other _ _ _ _ h

theorem withThread_withThread (s : State) (k : Nat) (a b : Threading) : (s.withThread k a).withThread k b = s.withThread k b := by
  show ({ s with tracker := { s.tracker with threading := (s.tracker.threading.set k a).set k b } } : State) = _
  rw [PerStand.set_set]; rfl

theorem summaryAfter_same (a b : State) (h1 : b.tracker.zones = a.tracker.zones) (h2 : b.tracker.gen = a.tracker.gen) : summaryAfter a b = b := by
  unfold summaryAfter; rw [if_pos ⟨h1, h2⟩]

/-- With nothing raised, no cause is taken. -/
theorem takeRaised_none (s : State) (h : s.tracker.raised = []) : takeRaised s = s := by
  unfold takeRaised; rw [h]
  show s.withTracker { s.tracker with raised := [] } = s
  unfold State.withTracker; rw [← h]

theorem trackerActive_tick (s : State) (dt : Clock) (hr : s.level = .run) (hl : s.trip.latch = false) : trackerActive (s.tick dt) = true := by
  unfold trackerActive
  rw [show (s.tick dt).level = .run from hr, show (s.tick dt).trip.latch = false from hl]; rfl

/-- Stations are polled at RUN and LOOPBACK (R156). -/
theorem polls_iff (s : State) : s.polls = true ↔ s.level = .run ∨ s.level = .loopback := by
  unfold State.polls; simp

/-- A stand's replies are delivered where it is polled and its station is PRESENT (R153). -/
theorem deliversAt_iff (s : State) (k : Nat) :
    s.deliversAt k = true ↔ (s.level = .run ∨ s.level = .loopback) ∧ (s.link.stations.get k).state = .present := by
  unfold State.deliversAt; simp [polls_iff]

/-- A stand whose station is SILENT or UNKNOWN gets no reply (R43, R152, R153). -/
theorem deliversAt_absent {s : State} {k : Nat} (h : (s.link.stations.get k).state ≠ .present) : s.deliversAt k = false :=
  Bool.eq_false_iff.mpr fun hd => h ((deliversAt_iff s k).mp hd).2

/-- What the threading work of a stand asks for (R22, R153). -/
theorem threadingActive_iff (s : State) (k : Nat) :
    threadingActive s k = true ↔
      (s.level = .run ∧ s.trip.latch = false) ∧ (1 ≤ k ∧ k ≤ s.n) ∧ (s.link.stations.get k).state = .present := by
  unfold threadingActive trackerActive
  simp only [Bool.and_eq_true, beq_iff_eq, Bool.not_eq_true', decide_eq_true_eq, deliversAt_iff]
  exact ⟨fun h => ⟨h.1, h.2.1, h.2.2.2⟩, fun h => ⟨h.1, h.2.1, .inl h.1.1, h.2.2⟩⟩

/-- A record falls due in the same way in two states with the same journal and ATTENTION. -/
theorem note_onto (kd k tm c a b d) (s u : State) (h1 : u.journal = s.journal) (h2 : u.attention = s.attention) :
    note kd k tm c a b d u = { u with journal := (note kd k tm c a b d s).journal, attention := (note kd k tm c a b d s).attention } := by
  unfold note journal
  rw [h1]
  split
  · unfold setAttention; dsimp only; rw [h2]
  · dsimp only; rw [← h2]

theorem takeRaised_raiseCause (s : State) (c : Cause) (k : Nat) (h : s.tracker.raised = []) : takeRaised (raiseCause c k s) = takeCause c k s.clock s := by
  unfold takeRaised raiseCause State.withTracker; dsimp only
  rw [h]; dsimp only [List.nil_append, takeCauses, List.foldl]
  rw [← h]

/-- The notices of a loaded stand. -/
theorem takeNotices_loaded (s : State) (k : Nat) (hk : 1 ≤ k ∧ k ≤ 8) (hl : (s.thread k).state ≠ .vacant) :
    takeNotices k s = s.withThread k { s.thread k with releaseNotice := false, headNotice := none, state := if (s.thread k).releaseNotice = true ∧ ((s.thread k).state = .biting ∨ (s.thread k).state = .rolling) then .tailing else (s.thread k).state } := by
  have hself : s.withThread k (s.thread k) = s := by
    unfold State.withThread State.withTracker State.thread; rw [PerStand.set_get]
  have h1 : takeReleaseNotice k s = s.withThread k { s.thread k with releaseNotice := false, state := if (s.thread k).releaseNotice = true ∧ ((s.thread k).state = .biting ∨ (s.thread k).state = .rolling) then .tailing else (s.thread k).state } := by
    unfold takeReleaseNotice; dsimp only
    cases hr : (s.thread k).releaseNotice
    · rw [if_neg (by simp)]
      simp only [Bool.false_eq_true, false_and, if_false]
      rw [← hr]; exact hself.symm
    · simp
  unfold takeNotices; rw [h1]
  unfold takeHeadNotice; dsimp only
  rw [withThread_thread _ _ _ hk]; dsimp only
  have hne : (if (s.thread k).releaseNotice = true ∧ ((s.thread k).state = .biting ∨ (s.thread k).state = .rolling) then ThreadState.tailing else (s.thread k).state) ≠ .vacant := by
    split
    · simp
    · exact hl
  generalize (if (s.thread k).releaseNotice = true ∧ ((s.thread k).state = .biting ∨ (s.thread k).state = .rolling) then ThreadState.tailing else (s.thread k).state) = x at *
  split
  · rename_i h; rw [← h]
  · rw [if_neg hne, withThread_withThread]

/-- The runs of R27 after the notices have been taken. -/
theorem countRuns_after_notices (s : State) (k f : Nat) (hk : 1 ≤ k ∧ k ≤ 8) (T : Threading) (h : takeNotices k s = s.withThread k T) :
    noticesAndRuns k f s = s.withThread k { T with onRun := if (s.slotAt k).isSome = true ∧ (s.sched k).fOn ≤ f then min (T.onRun + 1) 4 else 0, offRun := if (s.slotAt k).isSome = true ∧ f < (s.sched k).fOff then min (T.offRun + 1) 4 else 0 } := by
  unfold noticesAndRuns updateRuns; rw [h]; dsimp only
  rw [withThread_thread _ _ _ hk, withThread_withThread]; rfl

theorem withThread_self (s : State) (k : Nat) : s.withThread k (s.thread k) = s := by
  unfold State.withThread State.withTracker State.thread
  rw [PerStand.set_get]

/-- Notices change a stand's threading record alone, and moves where the stand leaves VACANT; they neither load the stand nor
unload it, and leave its runs. -/
theorem takeNotices_frame (s : State) (k : Nat) (hk : 1 ≤ k ∧ k ≤ 8) : ∃ T g, takeNotices k s = { s.withThread k T with gap := g } ∧
    T.state.loaded = (s.thread k).state.loaded ∧ T.onRun = (s.thread k).onRun := by
  have hl : ∀ (j : Nat) (t : State), ∃ g, leaveVacant j t = { t with gap := g } := by
    intro j t; unfold leaveVacant; dsimp only; rw [endHold_eq]; split
    · exact ⟨_, rfl⟩
    · exact ⟨_, rfl⟩
  have h1 : ∃ T, takeReleaseNotice k s = s.withThread k T ∧ T.state.loaded = (s.thread k).state.loaded ∧ T.onRun = (s.thread k).onRun := by
    unfold takeReleaseNotice; dsimp only
    split
    · refine ⟨_, rfl, ?_, rfl⟩
      dsimp only; split
      · next h => rcases h with h | h <;> rw [h] <;> rfl
      · rfl
    · exact ⟨_, (withThread_self s k).symm, rfl, rfl⟩
  obtain ⟨T, e, e1, e2⟩ := h1
  unfold takeNotices takeHeadNotice; dsimp only
  rw [e, withThread_thread _ _ _ hk]
  split
  · exact ⟨T, s.gap, rfl, e1, e2⟩
  · split
    · next c _ hv =>
      obtain ⟨g, hg⟩ := hl k ((s.withThread k T).withThread k { T with headNotice := none, state := .expecting, coil := c })
      rw [withThread_withThread] at hg
      rw [withThread_withThread]
      exact ⟨_, g, hg, by rw [← e1, hv]; rfl, e2⟩
    · rw [withThread_withThread]; exact ⟨_, s.gap, rfl, e1, e2⟩

/-- A load-on falls due at a stand that is not loaded, when its on run has come to N_db (R28). -/
theorem loadOnDue_iff (s : State) (k : Nat) : loadOnDue s k = true ↔ (s.thread k).state.loaded = false ∧ s.lineCopy.nDb ≤ (s.thread k).onRun := by
  unfold loadOnDue State.loadedAt; simp

/-- When a reply of stand 1 confirms a bite: the stand is not loaded, and its on run has come to N_db (R27, R28). -/
theorem confirmsBite1_eq (s : State) (f : Nat) : confirmsBite1 f s = decide ((s.thread 1).state.loaded = false ∧ s.lineCopy.nDb ≤
    if (s.slotAt 1).isSome = true ∧ (s.sched 1).fOn ≤ f then min ((s.thread 1).onRun + 1) 4 else 0) := by
  have hk : (1:Nat) ≤ 1 ∧ 1 ≤ 8 := by omega
  obtain ⟨T, g, e, e1, e2⟩ := takeNotices_frame s 1 hk
  obtain ⟨y, hy⟩ : ∃ y : State, y = { s.withThread 1 T with gap := g } := ⟨_, rfl⟩
  have ht : y.thread 1 = T := by rw [hy]; exact withThread_thread _ _ _ hk
  have hs : y.slotAt 1 = s.slotAt 1 ∧ y.sched 1 = s.sched 1 ∧ y.lineCopy = s.lineCopy := by rw [hy]; exact ⟨rfl, rfl, rfl⟩
  unfold confirmsBite1 noticesAndRuns
  rw [e, ← hy, Bool.eq_iff_iff, loadOnDue_iff, decide_eq_true_eq]
  have hu : (updateRuns 1 f y).thread 1 = _ := withThread_thread y 1 _ hk
  rw [hu, ht, e1, e2, hs.1, hs.2.1, show (updateRuns 1 f y).lineCopy = s.lineCopy from hs.2.2]

/-- The notices of a stand that is not loaded and has no coil to expect. -/
theorem takeNotices_plain (s : State) (k : Nat) (hk : 1 ≤ k ∧ k ≤ 8) (hst : (s.thread k).state = .expecting ∨ (s.thread k).state = .vacant ∧ (s.thread k).headNotice = none) :
    takeNotices k s = s.withThread k { s.thread k with releaseNotice := false, headNotice := none } := by
  have hself : s.withThread k (s.thread k) = s := by
    unfold State.withThread State.withTracker State.thread; rw [PerStand.set_get]
  have h1 : takeReleaseNotice k s = s.withThread k { s.thread k with releaseNotice := false } := by
    unfold takeReleaseNotice; dsimp only
    cases hr : (s.thread k).releaseNotice
    · rw [if_neg (by simp), ← hr]; exact hself.symm
    · rw [if_pos rfl, if_neg (by rcases hst with h | h <;> simp [h])]
  unfold takeNotices; rw [h1]
  unfold takeHeadNotice; dsimp only
  rw [withThread_thread _ _ _ hk]; dsimp only
  split
  · rename_i h; rw [← h]
  · rename_i c h
    rw [if_neg (by rcases hst with h' | h'; · simp [h']
                   · rw [h'.2] at h; cases h), withThread_withThread]

/-- Setting a head notice at a list of stands changes the threading records of those stands alone (R14). -/
theorem headNotices_fold (c : Word) (l : List Nat) : ∀ (s : State), l.Nodup → (∀ k ∈ l, 1 ≤ k ∧ k ≤ 8) → ∃ P, l.foldl (setHeadNotice c) s = s.withTracker { s.tracker with threading := P } ∧
    ∀ j, P.get j = if j ∈ l then { s.thread j with headNotice := some ((s.thread j).headNotice.getD c) } else s.thread j := by
  induction l with
  | nil => intro s _ _; exact ⟨s.tracker.threading, rfl, fun j => by simp [State.thread]⟩
  | cons x l ih =>
    intro s hnd hin
    obtain ⟨P, h1, h2⟩ := ih (setHeadNotice c s x) hnd.of_cons (fun k hk => hin k (List.mem_cons_of_mem _ hk))
    refine ⟨P, ?_, ?_⟩
    · rw [List.foldl_cons, h1]; rfl
    · intro j
      rw [h2]
      have hx : x ∉ l := (List.nodup_cons.mp hnd).1
      unfold setHeadNotice
      by_cases hj : j = x
      · subst hj
        rw [if_neg hx, withThread_thread _ _ _ (hin j (by simp)), if_pos (by simp)]
      · rw [withThread_other _ _ _ _ hj]
        by_cases hm : j ∈ l
        · rw [if_pos hm, if_pos (by simp [hm])]
        · rw [if_neg hm, if_neg (by simp [hj, hm])]

/-- What leaving VACANT at stand 1 does to the moves (R33). -/
theorem leaveVacant_one (s : State) : ∃ g, leaveVacant 1 s = { s with gap := g } ∧ ∀ j ∈ standNumbers, g.get j = { s.gap.get j with
    move := (match (s.gap.get j).move with
            | .hold x => if j = 1 then Move.none else .hold x
            | .calClose st sb _ z0 => .calOpen st sb (.aborted .equipment) z0
            | m => m) } := by
  unfold leaveVacant; dsimp only; rw [if_pos rfl]
  rw [endHold_eq]
  refine ⟨_, rfl, ?_⟩
  intro j hj
  have hj8 : 1 ≤ j ∧ j ≤ 8 := by simp [standNumbers] at hj; omega
  dsimp only
  rw [PerStand.get_map _ _ _ hj8, PerStand.get_set _ _ _ _ (by omega)]
  by_cases h1 : j = 1
  · subst h1; rw [if_pos rfl]
    cases hm : (s.gap.get 1).move <;> simp [Move.abandonClose, ← hm]
  · rw [if_neg h1]
    cases hm : (s.gap.get j).move <;> simp [Move.abandonClose, h1, ← hm]

/-- A bite at stand 1 (R33): everything it does, with and without a free record, and with a HEAD cut into a zone 1 of
length 0 (R11) on a line of two stands or more. -/
theorem bite_one (u : State) (coil : Word) (h0 : Nat) (free room ends : Bool) (hfree : free = decide ((u.thread 1).state = .vacant)) (hroom : room = decide (u.marksQueued < 256))
    (hz : ends = decide (room = true ∧ u.zoneLen 1 = 0 ∧ (u.zone 1 = [] ∨ 2 ≤ u.n)))
    (hz2 : ends = false ∨ 2 ≤ u.n)
    (hc : coil = (if free then 0 else (u.thread 1).coil)) (hh : h0 = (if free then 0 else (u.thread 1).h0))
    (h id : Word) (m0 m1 m2 : State) (hx : h = sat16 (u.est.get 1).hEst) (hid : id = (if room then u.tracker.nextId else 0))
    (hm0 : m0 = (if room = true ∨ u.tracker.emptySpell = true then u else note .poolEmpty 1 u.clock coil 1 0 0 u))
    (hm1 : m1 = note .bite 1 u.clock coil h id (sat16 h0) m0)
    (hm2 : m2 = (if free then note .unannouncedBite 1 u.clock 0 h id 0 m1 else m1)) :
    ∃ P g, bite1 u = { u with
      journal := m2.journal, attention := m2.attention, est := u.est.set 1 { u.est.get 1 with mode := .held }, gap := g,
      tracker := { u.tracker with
          gen := { running := true, base := u.lineCopy.segLen * 1000, count := (u.lineCopy.segLen * 1000 : Nat) },
          emptySpell := u.tracker.emptySpell || !room, nextId := if room then u.tracker.nextId + 1 else u.tracker.nextId,
          lastPassed := if room then u.tracker.lastPassed.set 1 (some id) else u.tracker.lastPassed,
          zones := if room then u.tracker.zones.set 1 (u.zone 1 ++
              [{ id := id, coil := coil, tag := u.slotAt 1, kind := .head, pos := 0, thick := [(u.est.get 1).hEst],
                 hold := if ends then some 0 else none }])
            else u.tracker.zones,
          raised := u.tracker.raised ++ if ends = true ∧ (u.thread 2).state.loaded = true then [(.coilOverlap, 2)] else [],
          threading := P } } ∧
      P.get 1 = { u.thread 1 with state := .biting, coil := coil, h0 := h0, lockCount := 0, lockMade := false } ∧
      (∀ j ∈ standNumbers, j ≠ 1 → P.get j = { u.thread j with
        headNotice := if room = true ∧ j ≤ u.n then some ((u.thread j).headNotice.getD coil) else (u.thread j).headNotice }) ∧
      ∀ j ∈ standNumbers, g.get j = { u.gap.get j with
        move := if free then (match (u.gap.get j).move with
            | .hold x => if j = 1 then Move.none else .hold x
            | .calClose st sb _ z0 => .calOpen st sb (.aborted .equipment) z0
            | m => m)
          else (u.gap.get j).move } := by
  have hk1 : (1:Nat) ≤ 1 ∧ 1 ≤ 8 := by omega
  have hun : u.vacant 1 = free := by unfold State.vacant; rw [hfree]; cases (u.thread 1).state <;> rfl
  have hro : u.hasRoom = room := by
    rw [hroom]; unfold State.hasRoom Tracker.freeRecords State.marksQueued
    apply decide_eq_decide.mpr; omega
  -- the record at the bite
  have hs1 : startBiting 1 (forgetAnnouncement u) = u.withThread 1 { u.thread 1 with state := .biting, coil := coil, h0 := h0, lockCount := 0, lockMade := false } := by
    unfold startBiting forgetAnnouncement; rw [hun]
    cases free
    · simp only [Bool.false_eq_true, if_false] at hc hh ⊢
      rw [hc, hh]
    · simp only [if_true] at hc hh ⊢
      rw [withThread_thread _ _ _ hk1, withThread_withThread, hc, hh]
  obtain ⟨T, hT⟩ : ∃ T : Threading, T = { u.thread 1 with state := .biting, coil := coil, h0 := h0, lockCount := 0, lockMade := false } := ⟨_, rfl⟩
  rw [← hT] at hs1
  have hTc : T.coil = coil := by rw [hT]
  have hTh : T.h0 = h0 := by rw [hT]
  -- after the cut
  have hcut : cutHead (u.withThread 1 T) = { u with
      journal := m0.journal, attention := m0.attention,
      tracker := { u.tracker with
          gen := { running := true, base := u.lineCopy.segLen * 1000, count := (u.lineCopy.segLen * 1000 : Nat) },
          emptySpell := u.tracker.emptySpell || !room, nextId := if room then u.tracker.nextId + 1 else u.tracker.nextId,
          lastPassed := if room then u.tracker.lastPassed.set 1 (some id) else u.tracker.lastPassed,
          zones := if room then u.tracker.zones.set 1 (u.zone 1 ++
              [{ id := id, coil := coil, tag := u.slotAt 1, kind := .head, pos := 0, thick := [(u.est.get 1).hEst],
                 hold := if ends then some 0 else none }])
            else u.tracker.zones,
          raised := u.tracker.raised ++ if ends = true ∧ (u.thread 2).state.loaded = true then [(.coilOverlap, 2)] else [],
          threading := u.tracker.threading.set 1 T } } := by
    unfold cutHead
    rw [show (u.withThread 1 T).hasRoom = u.hasRoom from rfl, hro]
    cases hrb : room
    · have he : ends = false := by rw [hz, hrb]; simp
      rw [hrb] at hm0
      rw [he]
      simp only [Bool.false_eq_true, if_false, false_and, List.append_nil]
      unfold skipCut
      rw [show (u.withThread 1 T).tracker.emptySpell = u.tracker.emptySpell from rfl]
      cases hes : u.tracker.emptySpell
      · rw [if_neg (by simp), withThread_thread _ _ _ hk1, hTc]
        rw [hes] at hm0; simp only [Bool.false_eq_true, or_self, if_false] at hm0
        have := note_onto .poolEmpty 1 u.clock coil 1 0 0 u ((u.withThread 1 T).withTracker { (u.withThread 1 T).tracker with emptySpell := true }) rfl rfl
        rw [← hm0] at this
        exact congrArg loadGenerator this
      · rw [if_pos rfl]
        rw [hes] at hm0; simp only [or_true, if_true] at hm0
        rw [hm0]
        unfold loadGenerator withGen State.withThread State.withTracker; dsimp only
        rw [hes]; rfl
    · rw [hrb] at hm0 hid
      simp only [true_or, if_true] at hm0 hid ⊢
      have hcm : cutMark .head 0 (u.withThread 1 T) = { u with tracker := { u.tracker with
          nextId := u.tracker.nextId + 1, lastPassed := u.tracker.lastPassed.set 1 (some id),
          zones := u.tracker.zones.set 1 (u.zone 1 ++ [{ id := id, coil := coil, tag := u.slotAt 1, kind := .head, pos := 0, thick := [(u.est.get 1).hEst] }]),
          threading := u.tracker.threading.set 1 T } } := by
        unfold cutMark newMark
        rw [withThread_thread _ _ _ hk1, hTc, hid]; rfl
      rw [hrb] at hz
      simp only [true_and] at hz
      rw [hcm]
      obtain ⟨x, hx'⟩ : ∃ x : Mark, x = { id := id, coil := coil, tag := u.slotAt 1, kind := .head, pos := 0, thick := [(u.est.get 1).hEst] } := ⟨_, rfl⟩
      rw [← hx']
      obtain ⟨y, hy⟩ : ∃ y : State, y = { u with tracker := { u.tracker with
        nextId := u.tracker.nextId + 1, lastPassed := u.tracker.lastPassed.set 1 (some id),
        zones := u.tracker.zones.set 1 (u.zone 1 ++ [x]),
        threading := u.tracker.threading.set 1 T } } := ⟨_, rfl⟩
      rw [← hy]
      have hyz : y.zone 1 = u.zone 1 ++ [x] := by rw [hy]; exact PerStand.get_set_same _ 1 _ ⟨by omega, by omega⟩
      have hyn : y.n = u.n := by rw [hy]; rfl
      have hyl : y.zoneLen 1 = u.zoneLen 1 := by rw [hy]; rfl
      have hyt : y.loadedAt 2 = (u.thread 2).state.loaded := by
        rw [hy]; unfold State.loadedAt
        exact congrArg (fun t : Threading => t.state.loaded) (PerStand.get_set_other u.tracker.threading 2 1 T (by omega))
      have hov : headOverlaps y 1 x = (u.thread 2).state.loaded := by unfold headOverlaps; rw [hyt, hx']; simp
      have hne : entryPasses y (1 + 1) x.kind = false := by unfold entryPasses; rw [hx']; simp
      cases hen : ends
      · rw [hen] at hz
        have hze := of_decide_eq_false hz.symm
        rw [if_neg (show ¬ _ from fun g => hze ⟨g.1, .inl g.2⟩)]
        rw [arriveBehind_snoc hyz, hyl, hyn, if_pos, hm0, hy, hx']
        · unfold loadGenerator withGen State.withTracker; dsimp only
          simp only [Bool.or_false, Bool.false_eq_true, false_and, if_false, List.append_nil, Bool.not_true]; rfl
        · by_cases h0 : u.zoneLen 1 = 0
          · exact .inr (.inl (Nat.le_of_not_lt fun g => hze ⟨h0, .inr g⟩))
          · exact .inl (Nat.pos_of_ne_zero h0)
      · rw [hen] at hz
        have hze := of_decide_eq_true hz.symm
        have hn2 : 2 ≤ u.n := by rcases hz2 with h | h; · rw [hen] at h; cases h
                                 · exact h
        have hhold : (if u.zoneLen 1 = 0 ∧ u.zone 1 = [] then (arrive zoneFuel 1 0 y).1 else arriveBehind 1 y) = { y with
            tracker := { y.tracker with
              zones := y.tracker.zones.set 1 (u.zone 1 ++ [{ x with hold := some 0 }]),
              raised := y.tracker.raised ++ if (u.thread 2).state.loaded = true then [(.coilOverlap, 2)] else [] } } := by
          by_cases hem : u.zone 1 = []
          · rw [if_pos ⟨hze.1, hem⟩, hem]
            have harr : arrive zoneFuel 1 0 y = (holdMark 1 x [] 0 y, false) := by
              show arrive (8 + 1) _ _ _ = _
              unfold arrive; rw [hyz, hem]; dsimp only [List.nil_append]
              rw [if_neg (by omega), if_neg (by rw [hne]; simp)]
            rw [harr]
            unfold holdMark
            have h1 : tailIsLate y 1 x 0 = false := by unfold tailIsLate; rw [hx']; rfl
            have h3 : headIsLate y 1 x 0 = false := by
              unfold headIsLate growsLate Mark.grownHold; rw [hx']; simp [holdMax]
            have h4 : ({ x with pos := y.zoneLen 1, hold := some (x.grownHold 0), lateReported := x.lateReported || false } : Mark) = { x with hold := some 0 } := by
              rw [hyl, hze.1, hx']; rfl
            dsimp only
            rw [h1, hov, h3, h4]
            cases (u.thread 2).state.loaded <;> simp [raiseCause, State.withTracker, State.withZone]
          · rw [if_neg (fun g => hem g.2), arriveBehind_snoc hyz, hyl, hyn, hne, hov,
              if_neg (by rw [hze.1]; simp; omega)]
            cases (u.thread 2).state.loaded <;> simp [raiseCause, State.withTracker, State.withZone]
        have hl : ∀ a, (if (u.withThread 1 T).zoneLen 1 = 0 ∧ (u.withThread 1 T).zone 1 = [] then (arrive zoneFuel 1 0 a).1 else arriveBehind 1 a) =
            if u.zoneLen 1 = 0 ∧ u.zone 1 = [] then (arrive zoneFuel 1 0 a).1 else arriveBehind 1 a := fun _ => rfl
        rw [hl, hhold, hy, hm0, hx']
        unfold loadGenerator withGen State.withTracker; dsimp only
        simp only [Bool.or_false, true_and, if_true, Bool.not_true]
        rw [PerStand.set_set]; rfl
  unfold bite1; dsimp only
  rw [hun, hro, hs1]
  obtain ⟨w, hw⟩ : ∃ w, w = cutHead (u.withThread 1 T) := ⟨_, rfl⟩
  rw [← hw] at hcut ⊢
  have hwt : ∀ j, w.thread j = if j = 1 then T else u.thread j := by
    intro j; rw [hcut]; exact PerStand.get_set _ _ _ _ hk1
  have hwc : (w.thread 1).coil = coil := by rw [hwt, if_pos rfl, hTc]
  have hwj : w.journal = m0.journal := by rw [hcut]
  have hwa : w.attention = m0.attention := by rw [hcut]
  -- the head notices
  have hheads : ∃ P, (if room = true then setHeadNotices (w.thread 1).coil w else w) = w.withTracker { w.tracker with threading := P } ∧ P.get 1 = T ∧
      ∀ j ∈ standNumbers, j ≠ 1 → P.get j = { u.thread j with
        headNotice := if room = true ∧ j ≤ u.n then some ((u.thread j).headNotice.getD coil) else (u.thread j).headNotice } := by
    cases hrb : room
    · refine ⟨w.tracker.threading, rfl, ?_, ?_⟩
      · show w.thread 1 = T; rw [hwt, if_pos rfl]
      · intro j hj hj1; show w.thread j = _; rw [hwt, if_neg hj1]; simp
    · have hsub : ((standsTo w.n).drop 1).Sublist (standsTo w.n) := List.drop_sublist _ _
      obtain ⟨P, h1, h2⟩ := headNotices_fold (w.thread 1).coil ((standsTo w.n).drop 1) w ((standsTo_nodup _).sublist hsub)
        (fun k hk => by have := (mem_standsTo _ _).mp (hsub.subset hk); omega)
      refine ⟨P, h1, ?_, ?_⟩
      · rw [h2, if_neg, hwt, if_pos rfl]
        intro hm
        unfold standsTo at hm; rw [List.drop_take] at hm
        have := List.mem_of_mem_take hm; simp [standNumbers] at this
      · intro j hj hj1
        have hmem : j ∈ (standsTo w.n).drop 1 ↔ j ≤ u.n := by
          have hwn : w.n = u.n := by rw [hcut]; rfl
          rw [hwn]
          constructor
          · intro hm; have := (mem_standsTo _ _).mp ((List.drop_sublist _ _).subset hm); omega
          · intro hm
            have h3 : j ∈ standsTo u.n := (mem_standsTo _ _).mpr (by simp [standNumbers] at hj; omega)
            have h4 : standsTo u.n = 1 :: (standsTo u.n).drop 1 := by
              unfold standsTo at h3 ⊢
              cases hn : u.n with
              | zero => rw [hn] at h3; simp at h3
              | succ n => rfl
            rw [h4] at h3
            rcases List.mem_cons.mp h3 with h | h
            · exact absurd h hj1
            · exact h
        rw [h2, hwt, if_neg hj1, hwc]
        by_cases hm : j ∈ (standsTo w.n).drop 1
        · rw [if_pos hm]; simp [hmem.mp hm]
        · rw [if_neg hm, if_neg (by rintro ⟨-, h⟩; exact hm (hmem.mpr h))]
  obtain ⟨P, hP1, hP2, hP3⟩ := hheads
  rw [hP1]
  obtain ⟨v, hv⟩ : ∃ v, v = w.withTracker { w.tracker with threading := P } := ⟨_, rfl⟩
  rw [← hv]
  have hvt : v.thread 1 = T := by rw [hv]; exact hP2
  have hve : v.est = u.est := by rw [hv, hcut]; rfl
  have hvc : v.clock = u.clock := by rw [hv, hcut]; rfl
  have hnote : noteBite1 free (if room = true then u.tracker.nextId else 0) v = { v with journal := m2.journal, attention := m2.attention } := by
    unfold noteBite1 State.hEst; dsimp only
    conv_lhs => rw [hvt, hTc, hTh, hve, hvc, ← hx, ← hid]
    have e1 : note .bite 1 u.clock coil h id (sat16 h0) v = { v with journal := m1.journal, attention := m1.attention } := by
      rw [hm1]; exact note_onto _ _ _ _ _ _ _ m0 v (by rw [hv]; exact hwj) (by rw [hv]; exact hwa)
    rw [e1]
    cases free
    · simp only [Bool.false_eq_true, if_false] at hm2 ⊢; rw [hm2]
    · simp only [if_true] at hm2 ⊢
      rw [hm2]
      exact note_onto _ _ _ _ _ _ _ m1 _ rfl rfl
  rw [hnote]
  have hmode : setMode 1 .held { v with journal := m2.journal, attention := m2.attention } = { u with
      journal := m2.journal, attention := m2.attention, est := u.est.set 1 { u.est.get 1 with mode := .held },
      tracker := { w.tracker with threading := P } } := by
    unfold setMode State.withEst; dsimp only
    rw [hve, hv, hcut]; rfl
  rw [hmode]
  cases hfr : free
  · refine ⟨P, u.gap, ?_, by rw [hP2, hT], hP3, fun j _ => rfl⟩
    rw [hcut]; rfl
  · obtain ⟨g, hg1, hg2⟩ := leaveVacant_one { u with
      journal := m2.journal, attention := m2.attention, est := u.est.set 1 { u.est.get 1 with mode := .held },
      tracker := { w.tracker with threading := P } }
    refine ⟨P, g, ?_, by rw [hP2, hT], hP3, hg2⟩
    simp only [if_true]
    rw [hg1, hcut]

/-- The bodies cut at one passage (R9): one mark for each segment ended, in order. -/
def cutsOf (s : State) (extra base cap n : Nat) : List Mark :=
  (List.range n).map fun i => { id := s.tracker.nextId + BitVec.ofNat 16 i, coil := (s.thread 1).coil, tag := s.slotAt 1, kind := .body, pos := min (extra - i * base) cap, thick := [(s.est.get 1).hEst] }

/-- Segments that end while the pool has room (R9, R12). -/
theorem cutBodies_room (base : Nat) (hb : 0 < base) (cap : Nat) : ∀ (n : Nat) (c : Int) (s : State), s.tracker.gen = { running := true, base := base, count := c } → c ≤ 0 →
    n = (-c).toNat / base + 1 → s.marksQueued + n ≤ 256 →
    ((∃ q b, s.zone 1 = q ++ [b] ∧ ∀ x ≤ (-c).toNat, min x b.pos = min x cap) ∨ s.zone 1 = [] ∧ cap = s.zoneLen 1 ∧ -c < cap) →
    cutLoop n s = s.withTracker { s.tracker with
      gen := { running := true, base := base, count := c + n * base }, nextId := s.tracker.nextId + BitVec.ofNat 16 n,
      lastPassed := s.tracker.lastPassed.set 1 (some (s.tracker.nextId + BitVec.ofNat 16 (n - 1))),
      zones := s.tracker.zones.set 1 (s.zone 1 ++ cutsOf s (-c).toNat base cap n) } := by
  intro n
  induction n with
  | zero => intro c s _ _ h; exact absurd h.symm (Nat.succ_ne_zero _)
  | succ n ih =>
    intro c s hg hc hn hm hz
    have hroom : s.hasRoom = true := by
      unfold State.hasRoom Tracker.freeRecords; unfold State.marksQueued at hm; simp; omega
    have hcut : cutBody (-c).toNat s = cutMark .body (min (-c).toNat cap) s := by
      unfold cutBody; rw [if_pos hroom]
      rcases hz with ⟨q, b, hq, hcap⟩ | ⟨hq, hcap, hlt⟩
      · rw [hq]; simp only [List.getLast?_append, List.getLast?_singleton, Option.or]
        rw [hcap _ (Nat.le_refl _)]
      · rw [hq]; simp only [List.getLast?_nil]
        rw [if_neg (by omega), show min (-c).toNat cap = (-c).toNat by omega]
    have hun : cutLoop (n + 1) s = cutLoop n (withGen { running := true, base := base, count := base + c } (cutMark .body (min (-c).toNat cap) s)) := by
      show (if s.tracker.gen.count ≤ 0 then _ else _) = _
      rw [hg]; dsimp only; rw [if_pos hc, hcut]
      have : (cutMark .body (min (-c).toNat cap) s).tracker.gen = { running := true, base := base, count := c } := hg
      rw [this]
    rw [hun]
    obtain ⟨u, hu⟩ : ∃ u, u = withGen { running := true, base := base, count := base + c } (cutMark .body (min (-c).toNat cap) s) := ⟨_, rfl⟩
    rw [← hu]
    have huz : u.zone 1 = s.zone 1 ++ [newMark s .body (min (-c).toNat cap)] := by rw [hu]; exact PerStand.get_set_same _ 1 _ ⟨by omega, by omega⟩
    have hzs : u.tracker.zones = s.tracker.zones.set 1 (s.zone 1 ++ [newMark s .body (min (-c).toNat cap)]) := by rw [hu]; rfl
    rcases Nat.eq_zero_or_pos n with h0 | h0
    · subst h0
      show u = _
      rw [hu]
      have : cutsOf s (-c).toNat base cap (0 + 1) = [newMark s .body (min (-c).toNat cap)] := by
        unfold cutsOf newMark State.hEst; simp
      rw [this]
      unfold withGen cutMark State.withTracker; dsimp only
      simp only [Nat.zero_add, Nat.sub_self]
      congr 2
      · simp; omega
      · simp
    · have hq : (-c).toNat / base = n := by omega
      have hge : base * n ≤ (-c).toNat := by rw [← hq]; exact Nat.mul_div_le _ _
      have hge1 : base ≤ (-c).toNat := by
        have : base * 1 ≤ base * n := Nat.mul_le_mul_left _ h0
        omega
      have hc' : (-(base + c)).toNat = (-c).toNat - base := by omega
      have hIH := ih (base + c) u (by rw [hu]; rfl) (by omega) ?_ ?_ ?_
      · rw [hIH, hc', huz]
        have hl : cutsOf s (-c).toNat base cap (n + 1) = newMark s .body (min (-c).toNat cap) :: cutsOf u ((-c).toNat - base) base cap n := by
          unfold cutsOf newMark
          rw [List.range_succ_eq_map, List.map_cons, List.map_map]
          congr 1
          · simp [State.hEst]
          · apply List.map_congr_left
            intro i hi
            simp only [Function.comp]
            have h1 : u.tracker.nextId = s.tracker.nextId + 1 := by rw [hu]; rfl
            have h2 : u.thread 1 = s.thread 1 := by rw [hu]; rfl
            have h3 : u.slotAt 1 = s.slotAt 1 := by rw [hu]; rfl
            have h4 : u.est = s.est := by rw [hu]; rfl
            rw [h1, h2, h3, h4]
            have h5 : (-c).toNat - (Nat.succ i) * base = (-c).toNat - base - i * base := by
              rw [Nat.succ_mul]; omega
            have h6 : s.tracker.nextId + BitVec.ofNat 16 i.succ = s.tracker.nextId + 1 + BitVec.ofNat 16 i := by
              rw [Nat.succ_eq_add_one, Nat.add_comm i 1, BitVec.ofNat_add, BitVec.add_assoc]; rfl
            rw [h5, h6]
        rw [hl]
        have hid : s.tracker.nextId + BitVec.ofNat 16 (n + 1) = s.tracker.nextId + 1 + BitVec.ofNat 16 n := by
          rw [Nat.add_comm n 1, BitVec.ofNat_add, BitVec.add_assoc]; rfl
        have hid2 : s.tracker.nextId + BitVec.ofNat 16 (n + 1 - 1) = s.tracker.nextId + 1 + BitVec.ofNat 16 (n - 1) := by
          obtain ⟨m, rfl⟩ : ∃ m, n = m + 1 := ⟨n - 1, by omega⟩
          rw [show m + 1 + 1 - 1 = 1 + m by omega, show m + 1 - 1 = m by omega, BitVec.ofNat_add, BitVec.add_assoc]; rfl
        have hcnt : c + ((n + 1 : Nat) : Int) * base = base + c + (n : Int) * base := by push_cast; ring
        rw [hid, hid2, hcnt, hu]
        unfold withGen cutMark State.withTracker; dsimp only
        rw [PerStand.set_set, PerStand.set_set, List.append_assoc]; rfl
      · rw [hc']
        have := Nat.sub_mul_div ((-c).toNat) base 1
        rw [Nat.mul_one] at this
        rw [this, hq]; omega
      · have := queued_set s.tracker.zones 1 (s.zone 1 ++ [newMark s .body (min (-c).toNat cap)]) (by decide)
        unfold queued at this
        unfold State.marksQueued at hm ⊢
        rw [hzs]
        unfold State.zone at this ⊢
        rw [List.length_append, List.length_singleton] at this
        omega
      · refine .inl ⟨s.zone 1, _, huz, ?_⟩
        intro x hx
        rw [hc'] at hx
        show min x (min (-c).toNat cap) = _
        omega

/-- Segments that end while the pool is empty (R14). -/
theorem cutBodies_empty (base : Nat) (hb : 0 < base) : ∀ (n : Nat) (c : Int) (s : State), s.tracker.gen = { running := true, base := base, count := c } → c ≤ 0 →
    n = (-c).toNat / base + 1 → s.marksQueued = 256 →
    cutLoop n s = withGen { running := true, base := base, count := c + n * base } (skipCut .body s) := by
  intro n
  induction n with
  | zero => intro c s _ _ h; exact absurd h.symm (Nat.succ_ne_zero _)
  | succ n ih =>
    intro c s hg hc hn hm
    have hroom : s.hasRoom = false := by
      unfold State.hasRoom Tracker.freeRecords; unfold State.marksQueued at hm; simp; omega
    have hgen : (skipCut .body s).tracker.gen = s.tracker.gen := by
      unfold skipCut; split
      · rfl
      · simp
    have hzz : (skipCut .body s).tracker.zones = s.tracker.zones := by
      unfold skipCut; split
      · rfl
      · simp
    have hun : cutLoop (n + 1) s = cutLoop n (withGen { running := true, base := base, count := base + c } (skipCut .body s)) := by
      show (if s.tracker.gen.count ≤ 0 then _ else _) = _
      rw [hg]; dsimp only; rw [if_pos hc]
      unfold cutBody; rw [hroom, if_neg (by simp), hgen, hg]
    rw [hun]
    rcases Nat.eq_zero_or_pos n with h0 | h0
    · subst h0
      show withGen _ _ = _
      congr 2; push_cast; ring
    · have hq : (-c).toNat / base = n := by omega
      have hge : base * n ≤ (-c).toNat := by rw [← hq]; exact Nat.mul_div_le _ _
      have hge1 : base ≤ (-c).toNat := by
        have : base * 1 ≤ base * n := Nat.mul_le_mul_left _ h0
        omega
      have hc' : (-(base + c)).toNat = (-c).toNat - base := by omega
      rw [ih (base + c) _ rfl (by omega) (by
        rw [hc']; have := Nat.sub_mul_div ((-c).toNat) base 1; rw [Nat.mul_one] at this; rw [this, hq]; omega) (by
        unfold State.marksQueued at hm ⊢
        show (((skipCut .body s).tracker.zones.toList).map List.length).sum = 256
        rw [hzz]; exact hm)]
      have hcnt : c + ((n + 1 : Nat) : Int) * base = base + c + (n : Int) * base := by push_cast; ring
      rw [hcnt]
      have hsk : ∀ g, skipCut .body (withGen g (skipCut .body s)) = withGen g (skipCut .body s) := by
        intro g
        have : (withGen g (skipCut .body s)).tracker.emptySpell = true := by
          show (skipCut .body s).tracker.emptySpell = true
          unfold skipCut; split
          · assumption
          · simp
        unfold skipCut at *; rw [if_pos this]
      rw [hsk]; rfl

/-- What a release changes outside the tracker: the journal, ATTENTION, the estimates, the references and the slots alone. -/
def ReleaseFrame (s t : State) : Prop := t = { s with journal := t.journal, attention := t.attention, est := t.est, gap := t.gap, store := t.store }

theorem ReleaseFrame.refl (s) : ReleaseFrame s s := rfl

theorem ReleaseFrame.trans {a b c : State} (h : ReleaseFrame a b) (g : ReleaseFrame b c) : ReleaseFrame a c := by
  unfold ReleaseFrame at *
  conv_lhs => rw [g]
  conv_lhs => rw [h]

theorem ReleaseFrame.note {kd k tm c a b d} (s : State) : ReleaseFrame s (note kd k tm c a b d s) := by
  unfold ReleaseFrame; exact (note_onto kd k tm c a b d s s rfl rfl).trans (by rw [note_onto kd k tm c a b d s s rfl rfl])

theorem ReleaseFrame.ref {k r} (s : State) : ReleaseFrame s (s.withRef k r) := rfl

theorem ReleaseFrame.wEst {k r} (s : State) : ReleaseFrame s (s.withEst k r) := rfl

theorem ReleaseFrame.wSlot {k r} (s : State) : ReleaseFrame s (s.withSlot k r) := rfl

theorem ReleaseFrame.free {x c t} (s : State) : ReleaseFrame s (freeSlot x c t s) := ReleaseFrame.trans (ReleaseFrame.note s) (ReleaseFrame.wSlot _)

theorem ReleaseFrame.settle {x c t} (s : State) : ReleaseFrame s (settleLeft x c t s) := by
  unfold settleLeft; split
  · split
    · exact ReleaseFrame.wSlot s
    · exact ReleaseFrame.free s
  · exact ReleaseFrame.refl s

theorem ReleaseFrame.tif (x) (s : State) : ReleaseFrame s (takeInForce x s) := by
  unfold takeInForce; split
  · exact ReleaseFrame.wSlot s
  · exact ReleaseFrame.refl s

theorem ReleaseFrame.sw (k x c f t) (s : State) : ReleaseFrame s (switchStand k x c f t s) := by
  unfold switchStand; dsimp only
  have h2 : ReleaseFrame s (endHold k (switchTerms k { s with store := { s.store with inForce := s.store.inForce.set k (some x) } })) := by
    rw [endHold_eq]; rfl
  have h3 : ReleaseFrame s (Sys2Proof.Machine.note .scheduleSwitch k t ((endHold k (switchTerms k { s with store := { s.store with inForce := s.store.inForce.set k (some x) } })).slotCoil x) (BitVec.ofNat 16 x.code) (BitVec.ofNat 16 (slotCode (s.slotAt k))) c.code (endHold k (switchTerms k { s with store := { s.store with inForce := s.store.inForce.set k (some x) } }))) := h2.trans (ReleaseFrame.note _)
  generalize (Sys2Proof.Machine.note .scheduleSwitch k t ((endHold k (switchTerms k { s with store := { s.store with inForce := s.store.inForce.set k (some x) } })).slotCoil x) (BitVec.ofNat 16 x.code) (BitVec.ofNat 16 (slotCode (s.slotAt k))) c.code (endHold k (switchTerms k { s with store := { s.store with inForce := s.store.inForce.set k (some x) } }))) = v at *
  have h4 : ReleaseFrame s (match s.slotAt k with | some y => settleLeft y f t v | none => v) := by
    split
    · exact h3.trans (ReleaseFrame.settle v)
    · exact h3
  exact ReleaseFrame.trans h4 (ReleaseFrame.tif x _)

theorem ReleaseFrame.rel (k) (s : State) : ReleaseFrame s (releaseSwitch k s) := by
  unfold releaseSwitch; split
  · exact ReleaseFrame.refl s
  · split
    · exact ReleaseFrame.sw ..
    · exact ReleaseFrame.refl s

theorem ReleaseFrame.thick (k) (s : State) : ReleaseFrame s (thicknessRelease k s) := by
  unfold thicknessRelease applyPending; split
  · unfold applyTable; dsimp only
    exact ReleaseFrame.trans (ReleaseFrame.wEst s) (ReleaseFrame.trans (ReleaseFrame.wEst _) (ReleaseFrame.trans (ReleaseFrame.wEst _) (ReleaseFrame.note _)))
  · exact ReleaseFrame.wEst s

theorem switchStand_est (k x c f t) (s : State) : (switchStand k x c f t s).est = s.est := by simp

theorem releaseSwitch_est (k) (s : State) : (releaseSwitch k s).est = s.est := by simp

theorem thicknessRelease_store (k) (s : State) : (thicknessRelease k s).store = s.store := by
  unfold thicknessRelease applyPending; split
  · simp [applyTable]
  · rfl

theorem thicknessRelease_gap (k) (s : State) : (thicknessRelease k s).gap = s.gap := by
  unfold thicknessRelease applyPending; split
  · simp [applyTable]
  · rfl

/-- The estimate of a stand at its release (R48, R56). -/
theorem thicknessRelease_est (k) (s : State) (hk : 1 ≤ k ∧ k ≤ 8) : (thicknessRelease k s).est = s.est.set k { s.est.get k with
          mode := .lookup, pendingTable := none, table := ((s.est.get k).pendingTable <|> (s.est.get k).table) } := by
  unfold thicknessRelease
  rw [applyPending_est]
  have : (setMode k .lookup s).est = s.est.set k { s.est.get k with mode := .lookup } := rfl
  rw [this, PerStand.get_set_same _ _ _ hk]; dsimp only
  cases hp : (s.est.get k).pendingTable
  · dsimp only; congr 1
  · dsimp only; rw [PerStand.set_set]; rfl

/-- What the release work of stand `k` leaves (R40). -/
theorem release_next (k : Nat) (coil id : Word) (v : State) (hk : 1 ≤ k ∧ k ≤ 8) (hn : v.n ≤ 8) :
    ∃ t, releaseWork k coil id v = t ∧
      t = { v with journal := t.journal, attention := t.attention, est := t.est, gap := t.gap, store := t.store, tracker := t.tracker } ∧
      (∃ w, t.journal = (note .release k v.clock coil (sat16 (v.est.get k).hEst) id (if (v.thread k).state = .vacant then 1 else 2) w).journal) ∧
      t.tracker = { v.tracker with threading := t.tracker.threading } ∧
      t.thread k = { v.thread k with lockCount := 0, lockMade := false } ∧
      (∀ j ∈ standNumbers, j ≠ k → t.thread j = { v.thread j with releaseNotice := (v.thread j).releaseNotice || decide (j = k + 1 ∧ j ≤ v.n) }) ∧
      t.est = v.est.set k { v.est.get k with
          mode := .lookup, pendingTable := none, table := ((v.est.get k).pendingTable <|> (v.est.get k).table) } ∧
      (t.gap.get k).ff = 0 ∧ (t.gap.get k).agc = 0 ∧ (t.gap.get k).hLock = 0 ∧
      (t.gap.get k).base = (v.gap.get k).base ∧ (∀ j ∈ standNumbers, j ≠ k → t.gap.get j = v.gap.get j) ∧
      (∀ j ∈ standNumbers, t.slotAt j = if j = k ∧ v.store.slotA.state ≠ .free ∧ v.store.slotB.state ≠ .free ∧
            v.slotAt k = v.store.lastLoaded.map Slot.other ∧ (k = 1 ∨ v.slotAt (k - 1) = v.store.lastLoaded)
          then v.store.lastLoaded else v.slotAt j) := by
  refine ⟨_, rfl, ?_⟩
  obtain ⟨a, ha⟩ : ∃ a, a = clearTerms k (v.withThread k { v.thread k with lockCount := 0, lockMade := false }) := ⟨_, rfl⟩
  obtain ⟨b, hb⟩ : ∃ b, b = thicknessRelease k a := ⟨_, rfl⟩
  obtain ⟨c, hc⟩ : ∃ c, c = releaseSwitch k b := ⟨_, rfl⟩
  have hac : ReleaseFrame a c := by rw [hc, hb]; exact (ReleaseFrame.thick k a).trans (ReleaseFrame.rel k _)
  have hwork : releaseWork k coil id v = note .release k (notifyRelease k c).clock coil (sat16 ((notifyRelease k c).hEst k)) id (stateAfterCode ((notifyRelease k c).thread k).state) (notifyRelease k c) := by
    unfold releaseWork; dsimp only; rw [← ha, ← hb, ← hc]
  have hct : c.tracker = a.tracker := by rw [hac]
  have hcn : c.n = v.n := by rw [hac, ha]; rfl
  have hcc : c.clock = v.clock := by rw [hac, ha]; rfl
  have hak : c.thread k = { v.thread k with lockCount := 0, lockMade := false } := by
    unfold State.thread; rw [hct, ha]; exact PerStand.get_set_same _ _ _ hk
  have haj : ∀ j, j ≠ k → c.thread j = v.thread j := by
    intro j hj; unfold State.thread; rw [hct, ha]; exact PerStand.get_set_other _ _ _ _ hj
  have hces : c.est = a.est.set k { a.est.get k with
          mode := .lookup, pendingTable := none, table := ((a.est.get k).pendingTable <|> (a.est.get k).table) } := by
    rw [hc, releaseSwitch_est, hb, thicknessRelease_est _ _ hk]
  have hae : a.est = v.est := by rw [ha]; rfl
  obtain ⟨d, hd⟩ : ∃ d, d = notifyRelease k c := ⟨_, rfl⟩
  rw [← hd] at hwork
  have hdc : d = { c with tracker := { c.tracker with threading := d.tracker.threading } } := by
    rw [hd]; unfold notifyRelease; split <;> rfl
  have hdk : d.thread k = c.thread k := by
    rw [hd]; unfold notifyRelease; split
    · exact withThread_other _ _ _ _ (by omega)
    · rfl
  have hdj : ∀ j ∈ standNumbers, j ≠ k → d.thread j = { v.thread j with releaseNotice := (v.thread j).releaseNotice || decide (j = k + 1 ∧ j ≤ v.n) } := by
    intro j hj hjk
    rw [hd]; unfold notifyRelease; rw [hcn]
    by_cases hj1 : j = k + 1
    · split <;> rename_i hlt
      · subst hj1
        rw [withThread_thread _ _ _ (by simp [standNumbers] at hj; omega), haj _ hjk]; simp [show k + 1 ≤ v.n by omega]
      · rw [haj _ hjk]; simp [hj1, show ¬ k + 1 ≤ v.n by omega]
    · split
      · rw [withThread_other _ _ _ _ hj1, haj _ hjk]; simp [hj1]
      · rw [haj _ hjk]; simp [hj1]
  have hde : d.est = c.est := by rw [hdc]
  have hdh : d.hEst k = (v.est.get k).hEst := by
    unfold State.hEst; rw [hde, hces, PerStand.get_set_same _ _ _ hk, hae]
  have hgap : (c.gap.get k).ff = 0 ∧ (c.gap.get k).agc = 0 ∧ (c.gap.get k).hLock = 0 ∧ (c.gap.get k).base = (v.gap.get k).base ∧ (∀ j ∈ standNumbers, j ≠ k → c.gap.get j = v.gap.get j) := by
    have hbg : b.gap = v.gap.set k { v.gap.get k with ff := 0, agc := 0, hLock := 0 } := by rw [hb, thicknessRelease_gap, ha]; rfl
    have hbk : b.gap.get k = { v.gap.get k with ff := 0, agc := 0, hLock := 0 } := by rw [hbg]; exact PerStand.get_set_same _ _ _ hk
    have hbj : ∀ j, j ≠ k → b.gap.get j = v.gap.get j := fun j hj => by rw [hbg]; exact PerStand.get_set_other _ _ _ _ hj
    have hsame : c = b → _ := fun h => (by rw [h, hbk]; exact ⟨rfl, rfl, rfl, rfl, fun j _ hj => hbj j hj⟩ : (c.gap.get k).ff = 0 ∧ (c.gap.get k).agc = 0 ∧ (c.gap.get k).hLock = 0 ∧ (c.gap.get k).base = (v.gap.get k).base ∧ (∀ j ∈ standNumbers, j ≠ k → c.gap.get j = v.gap.get j))
    unfold releaseSwitch at hc
    split at hc
    · exact hsame hc
    · split at hc
      · rename_i x hl hcond
        obtain ⟨h1, h2, h3, h4, mon, mv, h5, h6⟩ := switch_spec k x .release .lastStand b.clock b hk
        rw [← hc] at h4 h5
        have l0 : ∀ l, limit 0 l = 0 := by intro l; unfold limit clampInt; split; omega; split; omega; rfl
        rw [h5, hbk]
        refine ⟨l0 _, l0 _, rfl, rfl, fun j _ hj => by rw [h4 j hj, hbj j hj]⟩
      · exact hsame hc
  have hslot : ∀ j ∈ standNumbers, c.slotAt j = if j = k ∧ v.store.slotA.state ≠ .free ∧ v.store.slotB.state ≠ .free ∧
            v.slotAt k = v.store.lastLoaded.map Slot.other ∧ (k = 1 ∨ v.slotAt (k - 1) = v.store.lastLoaded)
          then v.store.lastLoaded else v.slotAt j := by
    have hbs : b.store = v.store := by rw [hb, thicknessRelease_store, ha]; rfl
    have hba : ∀ j, b.slotAt j = v.slotAt j := fun j => by unfold State.slotAt; rw [hbs]
    intro j hj
    unfold releaseSwitch at hc
    split at hc
    · rename_i hl
      rw [hbs] at hl
      rw [hc, hba]; split
      · rename_i hh; rw [hl] at hh ⊢; rw [hh.1, hh.2.2.2.1]; rfl
      · rfl
    · rename_i x hl
      rw [hbs] at hl
      have hlive : b.store.bothLive = true ↔ v.store.slotA.state ≠ .free ∧ v.store.slotB.state ≠ .free := by
        rw [hbs]; unfold Store.bothLive SlotRecord.live; simp
      split at hc
      · rename_i hcond
        obtain ⟨h1, h2, h3⟩ := hcond
        obtain ⟨i1, -⟩ := switch_spec k x .release .lastStand b.clock b hk
        rw [← hc] at i1
        unfold State.slotAt at *
        rw [i1, PerStand.get_set _ _ _ _ hk, hbs, hl]
        by_cases hjk : j = k
        · have hbl := hlive.mp (by assumption)
          rw [if_pos hjk, if_pos]
          refine ⟨hjk, hbl.1, hbl.2, ?_, ?_⟩
          · rw [← hba]; assumption
          · rw [← hba]; assumption
        · rw [if_neg hjk, if_neg (fun h => hjk h.1)]
      · rename_i hcond
        rw [hc, hba, if_neg]
        rintro ⟨h1, h2, h3, h4, h5⟩
        apply hcond
        refine ⟨hlive.mpr ⟨h2, h3⟩, by rw [hba, h4, hl]; rfl, ?_⟩
        rw [hba, ← hl]; exact h5
  obtain ⟨w, hw⟩ : ∃ w, w = releaseWork k coil id v := ⟨_, rfl⟩
  have hwd : w = { d with journal := w.journal, attention := w.attention } := by
    rw [hw, hwork]; exact (note_onto _ _ _ _ _ _ _ d d rfl rfl).trans (by rw [note_onto _ _ _ _ _ _ _ d d rfl rfl])
  rw [← hw]
  have hwt : w.tracker = d.tracker := by rw [hwd]
  refine ⟨?_, ⟨d, ?_⟩, ?_, ?_, ?_, ?_, ?_⟩
  · conv_lhs => rw [hwd]
    conv_lhs => rw [hdc]
    conv_lhs => rw [hac]
    have e1 : w.tracker = { c.tracker with threading := d.tracker.threading } := by rw [hwt, hdc]
    have e2 : w.est = c.est := by rw [hwd, hdc]
    have e3 : w.gap = c.gap := by rw [hwd, hdc]
    have e4 : w.store = c.store := by rw [hwd, hdc]
    rw [hct] at e1
    rw [e1, e2, e3, e4, ha]; rfl
  · rw [hw, hwork, hdk, hak]
    have : d.clock = v.clock := by rw [hdc]; exact hcc
    rw [this, hdh]; rfl
  · rw [hwt]
    have : d.tracker = { c.tracker with threading := d.tracker.threading } := by rw [hdc]
    rw [this, hct, ha]; rfl
  · show w.tracker.threading.get k = _; rw [hwt]; exact hdk.trans hak
  · intro j hj hjk; show w.tracker.threading.get j = _; rw [hwt]; exact hdj j hj hjk
  · have : w.est = c.est := by rw [hwd, hdc]
    rw [this, hces, hae]
  · have e3 : w.gap = c.gap := by rw [hwd, hdc]
    have e4 : w.store = c.store := by rw [hwd, hdc]
    rw [e3]
    refine ⟨hgap.1, hgap.2.1, hgap.2.2.1, hgap.2.2.2.1, hgap.2.2.2.2, ?_⟩
    intro j hj; unfold State.slotAt at *; rw [e4]; exact hslot j hj

theorem standsTo_succ (n : Nat) (h : n + 1 ≤ 8) : standsTo (n + 1) = standsTo n ++ [n + 1] := by
  have : n ≤ 7 := by omega
  interval_cases n <;> rfl

theorem find_no_head (z : List Mark) (h : ∀ y ∈ z, y.kind ≠ .head) : z.find? (fun m => m.kind == .head) = none := by
  rw [List.find?_eq_none]; intro y hy; simp [h y hy]

/-- The nearest HEAD upstream of a stand (R41). -/
theorem nearest_head (Z : Nat → List Mark) : ∀ n, n ≤ 8 →
    (∀ j q x r, 1 ≤ j → j ≤ n → Z j = q ++ x :: r → x.kind = .head → (∀ y ∈ q, y.kind ≠ .head) → (∀ i, j < i → i ≤ n → ∀ y ∈ Z i, y.kind ≠ .head) →
      ((standsTo n).reverse.flatMap Z).find? (fun m => m.kind == .head) = some x) ∧
    ((∀ i, 1 ≤ i → i ≤ n → ∀ y ∈ Z i, y.kind ≠ .head) → ((standsTo n).reverse.flatMap Z).find? (fun m => m.kind == .head) = none) := by
  intro n
  induction n with
  | zero => intro _; exact ⟨fun j q x r h1 h2 => by omega, fun _ => rfl⟩
  | succ n ih =>
    intro h
    obtain ⟨h1, h2⟩ := ih (by omega)
    rw [standsTo_succ n h, List.reverse_append, List.reverse_singleton, List.singleton_append, List.flatMap_cons, List.find?_append]
    constructor
    · intro j q x r hj1 hjn hz hx hq hup
      rcases Nat.lt_or_ge j (n + 1) with hlt | hge
      · rw [find_no_head (Z (n + 1)) (hup (n + 1) hlt (Nat.le_refl _))]
        simp only [Option.none_or]
        exact h1 j q x r hj1 (by omega) hz hx hq (fun i hi hin => hup i hi (by omega))
      · have : j = n + 1 := by omega
        subst this
        rw [hz, List.find?_append, find_no_head q hq]
        simp [hx]
    · intro hall
      rw [find_no_head (Z (n + 1)) (hall (n + 1) (by omega) (Nat.le_refl _)), h2 (fun i hi hin => hall i hi (by omega))]; rfl

end Sys2Proof.Machine
end

