-- ==== Sys2Proof/Tests/Slice0.lean ====
section
/-! SUPPORT. The model's own tests: the checks of the well-formed commands, the manual's worked examples, one step of
each command, and for every statement that has hypotheses a state and operands that meet them (`witness_…`, with a case
at a boundary for each clause; a hypothesis that gives a variable by an equation is met by taking that value). -/

namespace Sys2Proof.Tests

open Sys2Proof.Machine

/-! ### States to test on -/

/-- What a command leaves. -/
def after (i : Instr) (s : State) : State :=
  match exec i s with
  | .next t => t
  | .fault _ => s
  | .refused _ => s

/-- The modulus table of the manual's worked example (04, after R52). -/
def table : ModulusTable :=
  { th := 500, b := [4000, 8000, 12000, 16000, 20000, 24000, 28000],
    m := [3000, 3600, 4000, 4400, 4800, 5100, 5300, 5400] }

/-- A stand of a line of two: address, distance, and the worked example's zero and table. -/
def stand (addr d : Nat) : StandLine := { addr := addr, d := d, z := 102300, zst := 500, table := table }

/-- A stand above N, as an area of zeros holds it. -/
def noStand : StandLine := { table := { th := 0, b := List.replicate 7 0, m := List.replicate 8 0 } }

/-- A valid line description of two stands: EXTERNAL has both actions at every stand and the entry stop, UNEXPECTED_LOAD
has DRIVE_STOP upstream, and every other cause has no action. -/
def line2 : LineDesc :=
  { n := 2, gaugeAddr := 3, stands := { PerStand.all noStand with s1 := stand 1 1000, s2 := stand 2 0 },
    dG := 1000, segLen := 1000, period := 500, timeoutCode := 0, silentCount := 3, rejoinCount := 2, nDb := 2,
    wEarly := 10, wLate := 20, pLo := 0, pHi := 250000, fMax := 30000, trimLim := 100, fCal := 1500, rCal := 10,
    cMax := 100, rPreset := 100, sOpen := 50000, tMove := 1000000, options := 0,
    matrix := { actions := 3, cascade := 2, entryStop := 1 } :: (List.replicate 4 {} ++
      { actions := 1, cascade := 1, entryStop := 0 } :: List.replicate 5 {}) }

/-- Words written one after another. -/
def Memory.put (m : Memory) (ws : List (Nat × Word)) : Memory := ws.foldl (fun m w => m.writeWord w.1 w.2) m

/-- The words of a stand block of the line description, from the offset `a` of the area (R189). -/
def standWords (a : Nat) : List (Nat × Word) :=
  [(a, 36764), (a + 2, 1), (a + 4, 500), (a + 6, 500), (a + 8, 4000), (a + 10, 8000), (a + 12, 12000), (a + 14, 16000),
    (a + 16, 20000), (a + 18, 24000), (a + 20, 28000), (a + 22, 3000), (a + 24, 3600), (a + 26, 4000), (a + 28, 4400),
    (a + 30, 4800), (a + 32, 5100), (a + 34, 5300), (a + 36, 5400)]

/-- Exchange Memory with that line description written by the offsets of R189. -/
def lineMemory : Memory :=
  Memory.put [] ((([(0, 2), (2, 3), (4, 1), (6, 2), (20, 1000), (34, 1000), (36, 1000), (38, 500), (40, 0), (42, 3),
    (44, 2), (46, 2), (48, 10), (50, 20), (52, 0), (54, 0), (56, 53392), (58, 3), (60, 30000), (62, 100), (64, 1500),
    (66, 10), (68, 100), (70, 100), (72, 50000), (74, 0), (76, 16960), (78, 15), (80, 0), (84, 0x0203), (86, 1),
    (104, 0x0101)] : List (Nat × Word)) ++ standWords 128 ++ standWords 168).map fun w => (64 + w.1, w.2))

/-- A stand's schedule values, with those of the worked examples (05). -/
def standSchedule : StandSchedule :=
  { sSch := -900, sMin := -3000, sMax := 3000, r := 150, hTarget := 2400, agcMode := 0, kg := 96, agcLim := 500, db := 5,
    kff := 64, ffLim := 500, slip := 45, fOn := 2000, fOff := 1000, nLock := 2 }

/-- A schedule for a line of two stands. -/
def schedule : Schedule :=
  { coil := 7, count := 2, km := 128, monLim := 500, dbMon := 5, tol := 50,
    stands := { PerStand.all {} with s1 := standSchedule, s2 := standSchedule } }

/-- A listed station that has answered. -/
def answering (addr : Nat) : Station := { addr := addr, state := .present, goodRun := 7, prevTime := some 500, p := 103300 }

/-- The estimate of a stand whose table is loaded, before strip. -/
def idleEstimate : Estimate :=
  { loaded := true, table := some table, z := 102300, zst := 500, p := 103300, gapAct := 1000, hEst := 500 }

/-- The mill at RUN with the strip not yet in it: two stands, slot A in force at both, every station answering, the
controller between cycles, the intake at ORDER_ANCHOR. -/
def mill : State :=
  State.settled
    { clock := 1000, level := .run, line := some line2, orders := { watched := some 0 },
      link := { pollList := [.stand 1, .stand 2, .gauge], nextExpiry := some 1500,
                stations := { PerStand.all {} with s1 := answering 1, s2 := answering 2 },
                gauge := { addr := 3, state := .present, goodRun := 7, prevTime := some 500 } },
      est := { PerStand.all {} with s1 := idleEstimate, s2 := idleEstimate },
      gap := { PerStand.all {} with s1 := { baseKnown := true, base := 1000 }, s2 := { baseKnown := true, base := 1000 } },
      store := { slotA := { state := .inForce, coil := 7, schedule := some schedule },
                 inForce := { PerStand.all none with s1 := some .a, s2 := some .a }, lastLoaded := some .a },
      trip := { matrix := some (line2.matrix.map MatrixBytes.decode),
                ready := { PerStand.all false with s1 := true, s2 := true } } }

/-- The mill at another level. -/
def millAt (l : RunLevel) : State := { mill with level := l }

/-- The mill with the threading record of stand `k` replaced. -/
def threaded (k : Nat) (t : Threading) (s : State) : State := s.withThread k t

/-- The mill after the external trip input went to TRIP. -/
def tripped : State := after (.etripChange 1 .trip) mill

/-- The stations of stands 1 and 2 in the state given, with nothing else changed. -/
def quiet (x : StationState) (s : State) : State :=
  { s with link := { s.link with stations :=
      { s.link.stations with s1 := { answering 1 with state := x }, s2 := { answering 2 with state := x } } } }

/-- Coil 7 has bitten at stand 1. -/
def bitten : State := after (.loadOn 1 1 3000) (threaded 1 { state := .expecting, coil := 7, h0 := 3000, onRun := 1 } mill)

/-- The mill with an order standing taken at offset 4096. -/
def taken (o : Order) (s : State) : State :=
  { s with orders := { s.orders with copy := some { ptr := 4096, order := o, time := 900 } } }

/-- The mill with the exchange of entry `i` open in the phase given. -/
def exchange (i : Nat) (p : Phase) (s : State) : State :=
  { s with link := { s.link with cycle := some { index := i, phase := p, late := false } } }

/-- The mill with a move at stand 1 whose order is in flight. -/
def moving (m : Move) (s : State) : State :=
  { s with orders := { s.orders with inFlight := s.orders.inFlight.set 1 (some 8192) },
           gap := s.gap.set 1 { s.gap.get 1 with move := m } }

/-- A mark of coil 7 and slot A in zone `k`. -/
def markAt (kind : MarkKind) (k pos : Nat) (hold : Option Nat := none) : Mark :=
  { id := 5, coil := 7, tag := some .a, kind := kind, pos := pos, thick := List.replicate k 500, hold := hold }

/-- The slot in force at both stands in another state, its schedule kept. -/
def slotState (st : SlotState) (s : State) : State := s.withSlot .a { s.store.slotA with state := st }

/-- The order of the work of a reply as R153 lists it. -/
def plan : List Work := [.tracker, .gap, .causes, .check, .nextPoll]

/-! ### Ill-formed commands are refused -/

theorem test_ill_formed_ignored_writes :
    [Instr.registerWriteIgnored 0 4 3, .registerWriteIgnored 0 6 0, .registerWriteIgnored 0 8 1].all
      (fun i => !i.wellFormed) = true := by decide

theorem test_ill_formed_port_address : (Instr.exmWrite 0 65 0).wellFormed = false := by decide

theorem test_ill_formed_plans :
    [[], [Work.tracker, .gap, .causes, .check], [.gap, .tracker, .causes, .check, .nextPoll],
      [.causes, .tracker, .gap, .check, .nextPoll], [.tracker, .gap, .causes, .check, .check],
      [.tracker, .gap, .causes, .check, .nextPoll, .nextPoll]].all
      (fun p => !(Instr.replyReceived 0 [] (.idle 2) p).wellFormed) = true := by decide

theorem test_ill_formed_frame_end : (Instr.replyReceived 0 [] (.idle 3) plan).wellFormed = false := by decide

theorem test_ill_formed_stands :
    [Instr.loadOn 0 0 0, .loadOn 0 9 0, .loadOff 0 0 0, .lockOn 0 9 0, .presetComplete 0 0 0, .zeroFound 0 9 0 0,
      .calibrationRetire 0 0 0, .moveTimeout 0 9, .stationSilent 0 (.stand 9), .elapsedSaturated 0 (.stand 0),
      .stationRejoined 0 (.stand 9) (.stand 0 0 0 {}) plan].all (fun i => !i.wellFormed) = true := by decide

theorem test_ill_formed_fields :
    [Instr.loadOn 0 1 65536, .loadOff 0 1 65536, .lockOn 0 1 65536, .zeroFound 0 1 4294967296 0, .zeroFound 0 1 0 65536,
      .stationRejoined 0 (.stand 1) (.stand 4294967296 0 0 {}) plan, .stationRejoined 0 (.stand 1) (.stand 0 65536 0 {}) plan,
      .stationRejoined 0 (.stand 1) (.stand 0 0 65536 {}) plan, .stationRejoined 0 .gauge (.gauge true 65536) plan].all
      (fun i => !i.wellFormed) = true := by decide

theorem test_ill_formed_rejoins :
    [Instr.stationRejoined 0 .gauge (.stand 0 0 0 {}) plan, .stationRejoined 0 (.stand 1) (.gauge true 0) plan,
      .stationRejoined 0 .gauge (.gauge true 0) []].all (fun i => !i.wellFormed) = true := by decide

theorem test_well_formed_at_the_bounds :
    [Instr.loadOn 0 8 65535, .exmWrite 0 65534 1, .registerWriteIgnored 0 4 4, .registerWriteIgnored 0 0 0,
      .stationRejoined 0 (.stand 8) (.stand 4294967295 65535 65535 {}) plan, .replyReceived 0 [] .arriving plan, .replyReceived 0 [] (.idle 2) plan].all
      Instr.wellFormed = true := by decide

/-! ### Layouts and checks of the line description (R181, R182, R189) -/

theorem test_line_description_is_read_by_its_offsets : lineAt lineMemory = line2 := by decide +kernel

theorem test_line_description_is_valid : line2.failure = none := by decide +kernel

/-- The examples of R182. -/
theorem test_config_results :
    { line2 with gaugeAddr := 2 }.failure = some 0x3002 ∧
      { line2 with n := 3, timeoutCode := 3, stands := { line2.stands with s3 := stand 4 1000 } }.failure = some 0x5026 ∧
      { line2 with n := 0 }.failure = some 0x1000 ∧ { line2 with wEarly := 20 }.failure = some 0x2030 := by
  decide +kernel

/-! ### The worked examples -/

/-- The seven-stand line of the worked examples. -/
def line7 : LineDesc :=
  { line2 with
    n := 7, gaugeAddr := 20, stands := PerStand.ofStand fun k => stand (10 + k) 5800, segLen := 2000, period := 1000,
    timeoutCode := 1, wEarly := 300, wLate := 1500, rCal := 200, cMax := 3000, sOpen := 40000, tMove := 30000000,
    fMax := 45000 }

/-- The actions and cascades of the cobble example (08), by cause. -/
def matrix7 : List MatrixEntry :=
  let both : ActionSet := { driveStop := true, gapOpen := true }
  let up : MatrixEntry := { actions := both, cascade := .upstream, entryStop := true }
  let open1 : MatrixEntry := { actions := { gapOpen := true } }
  [{ actions := both, cascade := .all, entryStop := true }, { actions := { driveStop := true } }, up, up, up, up,
    { actions := { gapOpen := true }, cascade := .upstream, entryStop := true }, open1, open1,
    { actions := { driveStop := true }, cascade := .upstream, entryStop := true },
    { actions := both, cascade := .all, entryStop := true }]

/-- Slot A's schedule in the examples of 03 to 05. -/
def schedule7 : Schedule :=
  { coil := 4417, count := 7, km := 128, monLim := 600, dbMon := 10, tol := 40,
    stands := { PerStand.all { standSchedule with sMax := 8000, agcLim := 800, fOff := 1500, fOn := 3000 } with
      s5 := { standSchedule with hTarget := 3180 }, s7 := { standSchedule with hTarget := 2000 } } }

/-- The seven-stand line at RUN, coil 4417 ROLLING in every stand on slot A. -/
def mill7 : State :=
  { clock := 31004200, level := .run, line := some line7,
    link := { pollList := (standsTo 7).map .stand ++ [.gauge], nextExpiry := some 0,
              stations := PerStand.ofStand fun k => answering (10 + k), gauge := { addr := 20, state := .present } },
    est := PerStand.all idleEstimate, gap := PerStand.all { baseKnown := true },
    tracker := { threading := PerStand.all { state := .rolling, coil := 4417, lockMade := true },
                 lastPassed := { PerStand.all none with s5 := some 1036, s6 := some 1033, s7 := some 1031 } },
    store := { slotA := { state := .inForce, coil := 4417, schedule := some schedule7 },
               inForce := PerStand.all (some .a), lastLoaded := some .a },
    trip := { matrix := some matrix7, ready := PerStand.ofStand fun k => decide (k ≤ 7) } }

/-- 01, *Worked example: transport carry*: four replies at zone 6, with the carry each leaves. -/
theorem test_transport_carry :
    let go := fun (carry : Nat) =>
      advanceZone 6 9850 (some 1000) { mill7 with tracker := { mill7.tracker with carry := PerStand.all carry } }
    ([0, 250000, 500000, 750000].map fun c => ((go c).2, (go c).1.tracker.carry.get 6)) =
      [(10293, 250000), (10293, 500000), (10293, 750000), (10294, 0)] := by decide +kernel

/-- Zone 5 of 01, *Worked example: a head at stand 6*. -/
def zone5 (front : Nat) : State :=
  { threaded 6 { state := .expecting, coil := 4417, onRun := 1 } mill7 with
    tracker := { (threaded 6 { state := .expecting, coil := 4417, onRun := 1 } mill7).tracker with
      zones := PerStand.set (PerStand.all []) 5
        [{ id := 812, coil := 4417, tag := some .a, kind := .head, pos := front, thick := [1, 2, 3, 4, 3180] },
          { id := 813, coil := 4417, tag := some .a, kind := .body, pos := 3792100, thick := [1, 2, 3, 4, 3180] },
          { id := 814, coil := 4417, tag := some .a, kind := .body, pos := 1792100, thick := [1, 2, 3, 4, 3180] }] } }

theorem test_head_is_held_and_the_marks_behind_it_move :
    ((advanceZone 5 9850 (some 1000) (zone5 5792100)).1.zone 5).map (fun m => (m.id, m.pos, m.hold)) =
      [(812, 5800000, some 2393), (813, 3802393, none), (814, 1802393, none)] := by decide +kernel

theorem test_bite_passes_a_head_within_the_early_window :
    let t := after (.loadOn 0 6 3000) (zone5 5799000)
    (t.thread 6).state = .biting ∧ (t.zone 6).map (fun m => (m.id, m.pos, m.thick.length)) = [(812, 0, 6)] ∧
      (t.journal.slots[0]?).join.map (fun r => (r.kind, r.stand, r.v1, r.v2, r.v3)) =
        some (.trackCorrected, 6, 812, 1, 1000) := by decide +kernel

theorem test_bite_outside_the_early_window_trips :
    let t := after (.loadOn 0 6 3000) (zone5 5400000)
    (t.zone 6) = [] ∧ (t.trip.causes.map fun e => (e.cause, e.stand)) = [(.unexpectedLoad, 6)] := by decide +kernel

/-- The estimation record of stand 6 in 03, *One reply at stand 6*. -/
def stand6 (band : Nat) : Estimate := { idleEstimate with mode := .held, band := band }

/-- 03, *One reply at stand 6* and *A band change in ROLLING*. -/
theorem test_estimates_in_rolling :
    ([(4, 18450), (4, 20300), (4, 20600), (5, 20100), (5, 19950)].map fun x =>
      let e := (stand6 x.1).atReply 101420 x.2
      (e.gapAct, e.band, e.stretch, e.hEst, e.clamped)) =
      [(-880, 4, 3844, 2464, false), (-880, 4, 4229, 2849, false), (-880, 5, 4039, 2659, false),
        (-880, 5, 3941, 2561, false), (-880, 4, 4156, 2776, false)] := by decide +kernel

/-- 03, *A clamped estimate*. -/
theorem test_estimate_clamped_at_zero :
    let e := idleEstimate.atReply 95000 0
    e.gapAct = -7300 ∧ e.band = 0 ∧ e.hEst = 0 ∧ e.clamped = true := by decide +kernel

/-- Stand 6 in 05, *From reply to reference at stand 6*. -/
def gap6 (ff agc : Int) : State :=
  { mill7 with
    est := mill7.est.set 6 { idleEstimate with hEst := 2464 },
    gap := mill7.gap.set 6 { baseKnown := true, ff := ff, agc := agc, trim := 20, base := -960 } }

theorem test_agc_follows_the_example : ((agcUpdate 6 (gap6 (-4) (-110))).gap.get 6).agc = -134 := by decide +kernel

theorem test_feedforward_follows_the_example :
    ((ffUpdate 6 { id := 930, coil := 4417, tag := some .a, kind := .body, pos := 0, thick := [1, 2, 3, 4, 3215, 2464] }
      (gap6 (-4) (-134))).gap.get 6).ff = -9 := by decide +kernel

theorem test_assembly_follows_the_example :
    let r := (prepare 6 (gap6 (-9) (-134))).gap.get 6
    r.base = -1023 ∧ r.pRef = 101277 ∧ r.limit = false ∧ r.rate = false ∧ r.pClamp = false ∧
      pollStand 16 r = sealFrame [16, 1, 0, 0x9D, 0x8B, 1, 0] := by decide +kernel

/-- 04, *The end of coil 4417 at the gauge*: marks 960, 962 and the TAIL 964, each with the sample it meets. -/
theorem test_pairing_follows_the_example :
    let at7 := fun (mon : Int) (hx : Nat) (out : Bool) => { mill7 with
      gap := mill7.gap.set 7 { mon := mon },
      gauge := { held := true, hx := hx, time := 31003300, out := out, paired := 43, unpaired := 1, outCount := 1 } }
    let mark := fun (kind : MarkKind) =>
      ({ id := 964, coil := 4417, tag := some .a, kind := kind, pos := 0, thick := [1, 2, 3, 4, 5, 6, 7] } : Mark)
    ((pairMark (mark .body) (at7 (-40) 2031 false)).gap.get 7).mon = -56 ∧
      ((pairMark (mark .body) (at7 (-56) 2052 false)).gap.get 7).mon = -82 ∧
      (pairMark (mark .body) (at7 (-56) 2052 false)).gauge.out = true ∧
      ((pairMark (mark .tail) (at7 (-91) 2006 false)).gap.get 7).mon = -91 ∧
      ((pairMark (mark .tail) (at7 (-91) 2006 false)).journal.slots[0]?).join.map
        (fun r => (r.kind, r.coil, r.v1, r.v2, r.v3)) = some (.coilGauged, 4417, 44, 1, 1) := by decide +kernel

/-- The calibration of 07, *Calibrating stand 6*, at a move state. -/
def calibrating6 (m : Move) : State :=
  { mill7 with
    tracker := {}, gap := mill7.gap.set 6 { baseKnown := true, base := -400, move := m },
    orders := { inFlight := PerStand.set (PerStand.all none) 6 (some 4096) } }

theorem test_zero_is_found_at_the_second_reply_with_force :
    let t := after (.zeroFound 0 6 102350 2050) (calibrating6 (.calClose 31000000 600 1 102300))
    (t.est.get 6).z = 102350 ∧ (t.est.get 6).zst = 500 ∧ (t.gap.get 6).base = 0 ∧
      (t.gap.get 6).move = .calOpen 31000000 600 .completed 102300 := by decide +kernel

theorem test_calibration_retires_with_the_change_of_zero :
    let s := { calibrating6 (.calOpen 31000000 600 .completed 102300) with
      est := mill7.est.set 6 { idleEstimate with z := 102350 } }
    let t := after (.calibrationRetire 0 6 39800) s
    (t.gap.get 6).move = .none ∧ t.exm.readWord 4098 = 3 ∧ t.exm.readWord 4102 = 1 ∧ t.exm.readWord 4106 = 50 := by
  decide +kernel

/-- 07: with C_max at 800, preparation 5 does not lower but opens. -/
theorem test_calibration_gives_up_at_its_travel_limit :
    let s := { calibrating6 (.calClose 31000000 600 1 102300) with line := some { line7 with cMax := 800 } }
    let r := (prepare 6 { s with gap := s.gap.set 6 { s.gap.get 6 with base := -200 } }).gap.get 6
    r.move = .calOpen 31000000 600 (.aborted .equipment) 102300 ∧ r.base = 0 ∧ r.pRef = 102300 := by decide +kernel

/-- 08, *A cobble at stand 5*: event 1. -/
def cobble1 : State :=
  after (.loadOff 0 6 0) (threaded 6 { state := .rolling, coil := 4417, lockMade := true, offRun := 1 } mill7)

/-- The same after events 2 to 4. -/
def cobble4 : State :=
  let s := replyCheck 5 100000 46200 {} { cobble1 with clock := 31005150 }
  after (.etripChange 0 .trip) { replyCheck 5 100000 45800 {} { s with clock := 31006150 } with clock := 31240000 }

theorem test_cobble_trips_stands_one_to_six :
    cobble1.trip.entryStop = true ∧ cobble1.pins.dstop = PerStand.set (PerStand.all false) 7 true ∧
      cobble1.pins.mstop = false ∧ cobble4.pins.dstop = PerStand.all false := by decide +kernel

theorem test_cobble_causes_follow_the_example :
    (cobble4.trip.causes.map fun e => (e.cause, e.stand, e.time, e.coil, e.lastMark)) =
      [(.loadLoss, 6, 31004200, 4417, some 1033), (.forceOverload, 5, 31005150, 4417, some 1036),
        (.external, 0, 31240000, 0, none)] ∧
      ((List.range 3).map fun i => (cobble4.journal.slots[i]?).join.map fun r => (r.kind, r.v1, r.v2, r.v3)) =
        [some (.tripFirst, 4, 1, 6), some (.tripAdded, 9, 2, 0), some (.tripAdded, 1, 3, 1)] := by decide +kernel

/-- 09, *A station falls silent and rejoins*, at cycles c+2 and c+6. -/
theorem test_station_falls_silent_and_rejoins :
    let st := { answering 14 with missRun := 2, goodRun := 0, prevTime := some 50000090 }
    let s := { mill7 with clock := 50003130, link := { mill7.link with stations := mill7.link.stations.set 4 st } }
    let t := after (.stationSilent 0 (.stand 4)) s
    let back := { t.link.stations.get 4 with goodRun := 1 }
    let u := { t with clock := 50007090, link := { t.link with stations := t.link.stations.set 4 back } }
    let v := after (.stationRejoined 0 (.stand 4) (.stand 101420 18450 9850 {}) plan) u
    (t.link.stations.get 4).silentSince = 50003130 ∧ (t.trip.causes.map fun e => (e.cause, e.stand)) = [(.stationSilent, 4)] ∧
      (t.journal.slots[0]?).join.map (fun r => (r.kind, r.stand, r.coil, r.v1, r.v2, r.v3)) =
        some (.stationSilent, 4, 4417, 14, 3, 3) ∧
      (v.link.stations.get 4).state = .present ∧ (v.link.stations.get 4).prevTime = some 50007090 ∧
      (v.journal.slots[2]?).join.map (fun r => (r.kind, r.stand, r.v1, r.v2, r.v3)) =
        some (.stationRejoined, 4, 14, 2, 3) := by decide +kernel

/-! ### One step of each command -/

theorem test_step_takes_the_front_command :
    (match step { mill with pending := [.attentionMaskWrite 5 3, .pollSent 0] } with
      | .next t => decide (t.clock = 1005 ∧ t.mask = 3 ∧ t.pending = [.pollSent 0])
      | _ => false) = true := by decide +kernel

theorem test_power_on_clears_registers_and_memory :
    let t := after (.powerOn .trip) tripped
    t.level = .halt ∧ registerRead t 4 = 0 ∧ registerRead t 6 = 0 ∧ registerRead t 8 = 0 ∧ t.exm = [] ∧
      t.trip.latch = false ∧ t.trip.etrip = .trip := by decide +kernel

theorem test_halt_keeps_the_mask_and_clears_a_taken_block :
    let s := { taken .resetTrip { mill with mask := 5, attention := 3 } with exm := Memory.put [] [(4096, 8), (4098, 2), (4100, 10)] }
    let t := after (.runLevelHalt 1) s
    t.mask = 5 ∧ t.attention = 0 ∧ t.exm = [(4096, 8), (4100, 10)] ∧ t.line = none := by decide +kernel

theorem test_leaving_run_with_strip_drops_the_level :
    let t := after (.runLevelConfigure 1) bitten
    t.level = .configure ∧ (t.trip.causes.map fun e => (e.cause, e.stand)) = [(.levelDrop, 0)] ∧ t.zone 1 = [] ∧
      t.pins.mstop = false := by decide +kernel

theorem test_loopback_answers_its_own_polls :
    let t := after (.runLevelLoopback 1) { mill with level := .configure }
    t.level = .loopback ∧ (t.images.get 2).shown.map Image.station = some .present ∧ t.link.gauge.goodRun = 1 := by
  decide +kernel

theorem test_run_is_refused_by_an_area_of_zeros :
    let t := after (.runLevelRun 1) State.reset
    t.level = .halt ∧ t.configResult = 0x1000 ∧ t.attention = 8 := by decide +kernel

/-- R177, R178: RUN entry sets the image of a stand above N to 0 and keeps its update count. -/
theorem test_run_entry_keeps_the_count_of_a_cleared_image :
    let s := { millAt .configure with exm := lineMemory, images := PerStand.all { count := 5 } }
    let t := after (.runLevelRun 1) (writeImage 3 false s)
    t.level = .run ∧ (t.images.get 3).shown = none ∧ (t.images.get 3).count = 6 := by decide +kernel

theorem test_attention_bits_are_cleared_by_ones :
    (after (.attentionWrite 1 2) { mill with attention := 7 }).attention = 5 := by decide +kernel

theorem test_mask_takes_five_bits :
    (after (.attentionMaskWrite 1 0xFFFF) mill).mask = 31 ∧
      (after (.attentionMaskWrite 1 4) { mill with attention := 4 }).pins.attn = true := by decide +kernel

theorem test_ignored_write_sets_no_bit :
    let t := after (.registerWriteIgnored 1 4 7) mill
    t.level = .run ∧ t.attention = mill.attention := by decide +kernel

theorem test_port_write_to_a_part_word_sets_protect :
    let t := after (.exmWrite 1 1024 0xABCD) mill
    t.attention = 16 ∧ t.exm = mill.exm := by decide +kernel

theorem test_port_write_stores_the_low_byte_first :
    let t := after (.exmWrite 1 4096 0xABCD) mill
    exmByte t 4096 = 0xCD ∧ exmByte t 4097 = 0xAB := by decide +kernel

/-- CONFIGURE, with a SET_TRIM block for stand 1 posted at 4096. -/
def posted : State :=
  { State.reset with
    level := .configure, orders := { watched := some 0 },
    exm := Memory.put [] [(4098, 1), (4100, 3), (4108, 1), (4110, 0xFF9C)] }

theorem test_arrival_takes_a_posted_block :
    let t := after (.watchedWordArrival 5 4096) posted
    t.orders.watched = some 4096 ∧ t.exm.readWord 4098 = 2 ∧
      t.orders.copy = some { ptr := 4096, order := .setTrim 1 (-100), time := 5 } := by decide +kernel

theorem test_announced_stand_expects :
    let t := after (.announceHead 1) (taken (.announceHead 8 3000) mill)
    (t.thread 1).state = .expecting ∧ (t.thread 1).h0 = 3000 ∧ t.exm.readWord 4106 = 7 ∧
      (t.journal.slots[0]?).join.map (fun r => (r.kind, r.coil, r.v1, r.v2, r.v3)) = some (.coilMismatch, 8, 7, 1, 3000) := by
  decide +kernel

theorem test_modulus_table_waits_for_the_release :
    let t := after (.setModulus 1) (taken (.setModulus 1 { table with th := 600 }) bitten)
    (t.est.get 1).table = some table ∧ (t.est.get 1).pendingTable = some { table with th := 600 } ∧
      t.exm.readWord 4106 = 2 := by decide +kernel

theorem test_modulus_table_with_close_boundaries_is_invalid :
    let t := after (.setModulus 1) (taken (.setModulus 1 { table with b := [4000, 4500] }) mill)
    t.exm.readWord 4102 = 4 ∧ t.exm.readWord 4104 = 2 ∧ t.exm.readWord 4106 = 18 := by decide +kernel

theorem test_trim_is_clamped :
    let t := after (.setTrim 1) (taken (.setTrim 2 (-150)) mill)
    (t.gap.get 2).trim = -100 ∧ t.exm.readWord 4104 = 1 ∧ t.exm.readWord 4106 = 0xFF9C := by decide +kernel

theorem test_newer_schedule_waits_behind_the_strip :
    let t := after (.loadSchedule 1) (taken (.loadSchedule (.copied { schedule with coil := 9 })) bitten)
    t.store.slotB.state = .waiting ∧ t.slotAt 1 = some .a ∧ t.exm.readWord 4106 = 2 := by decide +kernel

theorem test_newer_schedule_reaches_the_vacant_stands :
    let t := after (.loadSchedule 1) (taken (.loadSchedule (.copied { schedule with coil := 9 })) mill)
    t.store.slotB.state = .inForce ∧ t.slotAt 2 = some .b ∧ t.store.slotA.state = .free := by decide +kernel

theorem test_slot_in_force_is_not_unloaded :
    (after (.unloadSchedule 1) (taken (.unloadSchedule 1) mill)).exm.readWord 4104 = 2 := by decide +kernel

theorem test_waiting_slot_is_unloaded :
    let s := after (.loadSchedule 1) (taken (.loadSchedule (.copied { schedule with coil := 9 })) bitten)
    let t := unloadScheduleWork 2 900 (taken (.unloadSchedule 2) s)
    t.store.slotB = {} ∧ t.store.lastLoaded = some .b ∧
      (t.journal.slots[1]?).join.map (fun r => (r.kind, r.coil, r.v1, r.v2)) = some (.slotFreed, 9, 2, 4) := by decide +kernel

theorem test_preset_moves_by_its_ramp :
    let t := after (.presetGap 1) (taken (.presetGap 1 3000 20) mill)
    (t.gap.get 1).move = .preset 3000 20 900 0 ∧ t.exm.readWord 4098 = 0 ∧
      ((prepare 1 t).gap.get 1).pRef = 103400 := by decide +kernel

theorem test_calibration_needs_the_stands_before_it_empty :
    (after (.calibrateZero 1) (taken (.calibrateZero 2) bitten)).exm.readWord 4104 = 2 ∧
      ((after (.calibrateZero 1) (taken (.calibrateZero 2) mill)).gap.get 2).move = .calClose 900 1000 0 102300 := by
  decide +kernel

theorem test_aborted_preset_holds_where_it_stands :
    let t := abortMoveWork 1 (taken (.abortMove 1) (moving (.preset 3000 20 900 1) mill))
    (t.gap.get 1).move = .hold 1000 ∧ t.orders.inFlight.get 1 = none := by decide +kernel

theorem test_ordered_trip_counts_its_entries :
    let t := after (.tripStands 1) (taken (.tripStands 0 3) mill)
    (t.trip.causes.map fun e => (e.cause, e.stand, e.time)) = [(.ordered, 1, 900), (.ordered, 2, 900)] ∧
      t.exm.readWord 4106 = 2 := by decide +kernel

theorem test_trip_is_reset_once_its_cause_is_gone :
    let s := after (.etripChange 1 .healthy) tripped
    let t := after (.resetTrip 1) (taken .resetTrip s)
    t.trip.latch = false ∧ t.exm.readWord 4106 = 1 ∧ t.pins.mstop = true ∧ t.trip.causes.length = 1 := by decide +kernel

theorem test_active_cause_keeps_the_trip :
    let t := after (.resetTrip 1) (taken .resetTrip tripped)
    t.trip.latch = true ∧ t.exm.readWord 4104 = 7 ∧ t.exm.readWord 4106 = 0x0100 := by decide +kernel

/-- R107: the records of a trip reset have the moment of the reset, and not that of the take. -/
theorem test_trip_reset_records_carry_its_moment :
    let gone := slotState .draining (after (.etripChange 1 .healthy) tripped)
    let t := after (.resetTrip 7) (taken .resetTrip gone)
    gone.clock = 1002 ∧ (t.journal.slots[1]?).join.map (fun r => (r.kind, r.v1, r.v2, r.time)) =
      some (.slotFreed, 1, 3, 1009) := by decide +kernel

theorem test_external_input_trips_every_stand :
    tripped.pins.dstop = PerStand.all false ∧ tripped.pins.mstop = false ∧ tripped.attention = 6 := by decide +kernel

/-- R179: the level of the input is an item of the trip record area. -/
theorem test_input_level_is_published :
    let t := after (.etripChange 1 .trip) (millAt .configure)
    t.trip.latch = false ∧ t.tripArea.map (fun a => (a.count, a.etrip)) = some (1, .trip) := by decide +kernel

theorem test_expiry_starts_a_cycle :
    let t := after (.pollTimerExpiry 500) mill
    t.link.cycle = some { index := 0, phase := .sending, late := false } ∧ t.link.nextExpiry = some 2000 ∧
      t.pins.linkDe = true ∧ t.cycleClock = 1500 := by decide +kernel

theorem test_expiry_in_a_cycle_makes_the_next_one_late :
    let s := after (.pollTimerExpiry 500) (exchange 2 (.window 1480) mill)
    let t := after (.replyWindowClose 10 false) s
    s.link.expiryWaiting = true ∧ t.link.cycle = some { index := 0, phase := .sending, late := true } := by
  decide +kernel

theorem test_window_opens_when_the_poll_is_sent :
    let t := after (.pollSent 9) (exchange 0 .sending mill)
    t.link.cycle = some { index := 0, phase := .window 1009, late := false } ∧ t.pins.linkDe = false := by decide +kernel

theorem test_reply_starts_up_to_the_close :
    (after (.replyStart 30) (exchange 0 (.window 1000) mill)).link.cycle =
        some { index := 0, phase := .receiving 1030, late := false } ∧
      (after (.replyStart 31) (exchange 0 (.window 1000) mill)).link.cycle =
        some { index := 0, phase := .window 1000, late := false } := by decide +kernel

theorem test_missed_window_counts :
    let t := after (.replyWindowClose 30 true) (exchange 0 (.window 1000) mill)
    (t.link.stations.get 1).missRun = 1 ∧ (t.link.stations.get 1).goodRun = 0 ∧
      t.link.cycle = some { index := 1, phase := .sending, late := false } := by decide +kernel

theorem test_reply_is_delivered :
    let t := after (.replyReceived 13 (replyFrame 1 0 (.stand 101420 18450 9850 {})) (.idle 2) plan)
      (exchange 0 (.receiving bitten.clock) bitten)
    (t.est.get 1).gapAct = -880 ∧ (t.link.stations.get 1).prevTime = some (bitten.clock + 11) ∧
      (t.images.get 1).shown.map (fun i => (i.time, i.p, i.f, i.v)) = some (bitten.clock + 11, 101420, 18450, 9850) ∧
      t.clock = bitten.clock + 13 ∧ t.link.cycle = some { index := 1, phase := .sending, late := false } := by decide +kernel

/-- R147, R148, R149: with the frame ended at 1013, an expiry at 1014 comes before the exchange ends at 1015, so the cycle
that follows is late, and its clock is that of the exchange's end. -/
theorem test_expiry_in_the_idle_time_makes_the_next_cycle_late :
    let s := exchange 2 (.receiving 1000) { mill with link := { mill.link with nextExpiry := some 1014 } }
    let t := after (.replyReceived 1 (replyFrame 3 0 (.gauge true 2031)) (.idle 2) plan) (after (.pollTimerExpiry 14) s)
    t.link.cycle = some { index := 0, phase := .sending, late := true } ∧ t.cycleClock = 1015 ∧ t.gauge.time = 1013 := by
  decide +kernel

theorem test_damaged_reply_is_a_miss :
    let fr := (replyFrame 1 0 (.stand 101420 18450 9850 {})).set 5 0
    let t := after (.replyReceived 13 fr (.idle 2) plan) (exchange 0 (.receiving 1000) mill)
    (t.est.get 1).p = 103300 ∧ (t.link.stations.get 1).missRun = 1 := by decide +kernel

/-- R148: the exchange of a reply that began at 1000 ends once the line has been idle for 2 µs, and at 16 µs in any case; a
frame that had ended by then is judged by its bytes, and one still arriving is too long. -/
theorem test_exchange_ends_after_idle_line_or_at_its_limit :
    let left := fun (dt : Clock) (fin : FrameEnd) =>
      let t := after (.replyReceived dt (replyFrame 1 0 (.stand 101420 18450 9850 {})) fin plan)
        (exchange 0 (.receiving 1000) mill)
      (t.link.cycle.map Cycle.index, (t.link.stations.get 1).missRun, (t.link.stations.get 1).prevTime)
    left 2 (.idle 2) = (some 1, 0, some 1000) ∧ left 1 (.idle 2) = (some 0, 0, some 500) ∧
      left 15 (.idle 1) = (some 0, 0, some 500) ∧ left 16 (.idle 1) = (some 1, 0, some 1015) ∧
      left 16 (.idle 0) = (some 1, 0, some 1016) ∧ left 15 .arriving = (some 0, 0, some 500) ∧
      left 16 .arriving = (some 1, 1, some 500) ∧ left 18 (.idle 2) = (some 1, 0, some 1016) ∧
      left 19 (.idle 2) = (some 1, 1, some 500) := by decide +kernel

theorem test_body_is_cut_at_its_overshoot :
    let t := after (.bodyCut 1 1000300) bitten
    (t.zone 1).map (fun m => (m.id, m.kind, m.pos)) = [(0, .head, 0), (1, .body, 0)] ∧
      t.tracker.gen.count = 999700 := by decide +kernel

theorem test_bite_at_stand_one_cuts_a_head :
    (bitten.zone 1).map (fun m => (m.kind, m.coil, m.thick)) = [(.head, 7, [500])] ∧
      (bitten.thread 1).state = .biting ∧ (bitten.thread 2).headNotice = some 7 ∧
      bitten.tracker.gen = { running := true, base := 1000000, count := 1000000 } := by decide +kernel

/-- R43, R152: at a stand whose station is SILENT or UNKNOWN, forces that confirm a load-on, a load-off or a lock-on with the
station PRESENT change nothing. -/
theorem test_a_stand_not_answering_keeps_its_record :
    ∀ x ∈ [StationState.silent, .unknown],
      let e := quiet x (threaded 1 { state := .expecting, coil := 7, h0 := 3000, onRun := 1 } mill)
      let r := quiet x (threaded 1 { bitten.thread 1 with state := .rolling, offRun := 1 } bitten)
      let b := quiet x (threaded 1 { bitten.thread 1 with lockCount := 1 } bitten)
      (after (.loadOn 0 1 3000) e).thread 1 = e.thread 1 ∧ (after (.loadOff 0 1 0) r).thread 1 = r.thread 1 ∧
        (after (.lockOn 0 1 3000) b).thread 1 = b.thread 1 := by decide +kernel

/-- R153: neither does a move at such a stand end by a reply, nor the generator count down. -/
theorem test_nothing_is_cut_or_completed_without_a_delivered_reply :
    let p := quiet .silent (moving (.preset 3000 20 900 2) mill)
    let b := quiet .silent bitten
    ((after (.presetComplete 0 1 3020) p).gap.get 1).move = .preset 3000 20 900 2 ∧
      (after (.bodyCut 0 1000300) b).tracker.gen = b.tracker.gen := by decide +kernel

theorem test_release_at_stand_one_cuts_a_tail :
    let t := after (.loadOff 1 1 0) (threaded 1 { bitten.thread 1 with state := .rolling, offRun := 1 } bitten)
    (t.thread 1).state = .vacant ∧ (t.zone 1).map Mark.kind = [.head, .tail] ∧ t.tracker.gen.running = false ∧
      (t.thread 2).releaseNotice = true := by decide +kernel

theorem test_lock_is_made_at_the_second_reply :
    let t := after (.lockOn 1 1 3000) (threaded 1 { bitten.thread 1 with lockCount := 1 } bitten)
    (t.thread 1).state = .rolling ∧ (t.thread 1).lockMade = true ∧ (t.gap.get 1).hLock = 500 := by decide +kernel

theorem test_preset_completes_at_the_third_reply :
    let t := after (.presetComplete 1 1 3020) (moving (.preset 3000 20 900 2) mill)
    (t.gap.get 1).move = .hold 3000 ∧ t.exm.readWord 8194 = 3 ∧ t.exm.readWord 8202 = 3020 := by decide +kernel

theorem test_move_ends_at_its_time_limit :
    ((after (.moveTimeout 999899 1) (moving (.preset 3000 20 900 2) mill)).gap.get 1).move = .preset 3000 20 900 2 ∧
      ((after (.moveTimeout 999900 1) (moving (.preset 3000 20 900 2) mill)).gap.get 1).move = .hold 1000 := by decide +kernel

theorem test_sample_expires_at_twice_the_period :
    let s := { mill with gauge := { held := true, hx := 2000, time := 1000 } }
    (after (.sampleExpiry 999) s).gauge.held = true ∧ (after (.sampleExpiry 1000) s).gauge.held = false := by
  decide +kernel

/-- R63, R71: the age is tested at RUN and LOOPBACK alone. -/
theorem test_sample_stands_at_configure :
    let s := fun l => { millAt l with gauge := { held := true, hx := 2000, time := 1000 } }
    (after (.sampleExpiry 1000) (s .loopback)).gauge.held = false ∧
      (after (.sampleExpiry 1000) (s .configure)).gauge.held = true := by decide +kernel

theorem test_elapsed_time_saturates :
    ((after (.elapsedSaturated 99499 (.stand 1)) mill).link.stations.get 1).saturated = false ∧
      ((after (.elapsedSaturated 99500 (.stand 1)) mill).link.stations.get 1).saturated = true := by decide +kernel

theorem test_stray_bytes_do_nothing : after (.strayFrameDiscard 1 [1, 3]) mill = mill.tick 1 := by decide +kernel

theorem test_journal_read_moves_and_a_bad_value_does_not :
    (after (.journalReadWrite 1 1) bitten).journal.r = 1 ∧ (after (.journalReadWrite 1 2) bitten).journal.r = 0 := by
  decide +kernel

theorem test_reset_line_drops_the_lines :
    let t := after (.resetAsserted 1) mill
    t.pins.mstop = false ∧ t.pins.dstop = PerStand.all false ∧ mill.pins.mstop = true := by decide +kernel

/-! ### Witnesses: the machine and the levels -/

/-- A command at the front of the queue. -/
def waiting (i : Instr) (s : State) : State := { s with pending := [i] }

theorem witness_IdleStepsAndCommandsOutOfTurnOnlyPassTime :
    State.reset.pending = [] ∧ mill.orders.copy = none ∧ mill.link.cycle = none := by decide +kernel

theorem witness_StepKeepsMemoryForm :
    let s := waiting (.setTrim 1) (taken (.setTrim 1 5) posted)
    memoryOk s ∧ ∃ t, step s = .next t := ⟨(by decide +kernel : Memory.wf _ = true), _, rfl⟩

theorem witness_StepKeepsJournalBounds :
    let s := waiting (.attentionWrite 1 2) bitten
    journalOk s ∧ 0 < s.journal.unread ∧ ∃ t, step s = .next t :=
  ⟨by unfold journalOk; decide +kernel, by decide +kernel, _, rfl⟩

theorem witness_StepKeepsTripRecord :
    let s := waiting (.etripChange 1 .healthy) tripped
    tripOk s ∧ s.trip.latch = true ∧ ∃ t, step s = .next t :=
  ⟨by unfold tripOk; decide +kernel, by decide +kernel, _, rfl⟩

theorem witness_StepKeepsPinsOnConditions :
    let s := waiting (.resetAsserted 1) mill
    pinsOk s ∧ s.pins.mstop = true ∧ ∃ t, step s = .next t :=
  ⟨pinsOk_of_pinsOf _ (by decide +kernel), by decide +kernel, _, rfl⟩

theorem witness_StepKeepsZoneQueues :
    let s := waiting (.attentionWrite 1 2) bitten
    zonesOk s ∧ s.zone 1 ≠ [] ∧ ∃ t, step s = .next t :=
  ⟨by unfold zonesOk queueOk; decide +kernel, by decide +kernel, _, rfl⟩

/-- The line description copy of `mill` passed its validation. -/
theorem mill_copy (l : LineDesc) (h : some line2 = some l) : l.failure = none :=
  Option.some.inj h ▸ test_line_description_is_valid

theorem witness_StepKeepsValidCopy :
    let s := waiting (.runLevelHalt 1) mill
    copyOk s ∧ s.line = some line2 ∧ ∃ t, step s = .next t := ⟨⟨fun _ => rfl, mill_copy⟩, rfl, _, rfl⟩

/-- The Schedule Store of the mill keeps its laws: slot A in force at both stands. -/
theorem mill_store : storeOk mill := by
  have num : ∀ k, 1 ≤ k → k ≤ 8 → k ∈ standNumbers := fun k h g => by simp [standNumbers]; omega
  refine ⟨?_, ?_, ?_, ?_, fun h => (by cases h), ?_, fun h => absurd rfl h, fun c h => by cases h⟩
  · rintro (_ | _)
    · exact ⟨1, by decide, rfl⟩
    · exact ⟨rfl, by unfold inForceSomewhere; decide, by unfold tagsAMark; decide⟩
  · have h : ∀ k ∈ standNumbers, ∀ j ∈ standNumbers, j ≤ k → (mill.slotAt k).isSome = true →
      (mill.slotAt j).isSome = true := by decide
    exact fun j k h1 h2 h3 => h k (num k (h1.trans h2) h3) j (num j h1 (h2.trans h3)) h2
  · have h : ∀ x ∈ [Slot.a, .b], mill.store.lastLoaded = some x → ∀ k ∈ standNumbers, ∀ j ∈ standNumbers, j ≤ k →
      mill.slotAt k = some x → mill.slotAt j = some x := by decide
    exact fun x hx j k h1 h2 h3 =>
      h x (by cases x <;> decide) hx k (num k (h1.trans h2) h3) j (num j h1 (h2.trans h3)) h2
  · rintro (_ | _) h <;> cases h
  · intro l hl k h1 h2
    cases hl
    have h : ∀ k ∈ standNumbers, 2 < k → mill.slotAt k = none := by decide
    exact h k (num k (by omega) h2) h1

theorem witness_StepKeepsScheduleStore :
    let s := waiting (.attentionWrite 1 2) mill
    copyOk s ∧ storeOk s ∧ ∃ t, step s = .next t := ⟨⟨fun _ => rfl, mill_copy⟩, mill_store, _, rfl⟩

/-- A preset in flight at stand 1, its block the one place the processor uses, next to the anchor. -/
theorem witness_StepKeepsLongOrders :
    let blocks := fun p : Nat => p = 8192
    let s := waiting (.attentionWrite 1 2)
      { moving (.preset 3000 20 900 0) mill with exm := Memory.put [] [(8194, 2), (8196, 5)] }
    blocksApart blocks ∧ longOrdersOk blocks s ∧
      (∀ c ∈ s.pending.head?, linksAmong blocks (processorMemory c s)) ∧ ∃ t, step s = .next t := by
  have hl : linksAmong (fun p : Nat => p = 8192) (Memory.put [] [(8194, 2), (8196, 5)]) := by
    rintro a (rfl | rfl) <;> exact .inl (by decide +kernel)
  refine ⟨⟨fun p h => ?_, fun p q hp hq h => ?_⟩, ⟨by decide, ?_, ?_, fun w h => ?_, hl, fun h => ?_, ?_⟩,
    fun c h => ?_, _, rfl⟩
  · cases h; decide
  · cases hp; cases hq; omega
  · have h : ∀ k ∈ standNumbers, (PerStand.set (PerStand.all none) 1 (some 8192)).get k = if k = 1 then some 8192 else none := by
      decide
    intro k hk q hq
    have := (h k hk).symm.trans hq
    split at this <;> cases this
    subst_vars
    exact ⟨rfl, by decide +kernel, by decide +kernel⟩
  · intro c h; cases h
  · cases h; exact .inl rfl
  · cases h
  · exact (by decide +kernel : Memory.wf (Memory.put [] [(8194, 2), (8196, 5)]) = true)
  · cases h; exact hl

theorem witness_CommandsKeepQueueClockAndInputs :
    (∃ t, exec (.setTrim 5) mill = .next t) ∧ (∀ e, Instr.setTrim 5 ≠ .powerOn e) ∧
      (∀ dt, Instr.setTrim 5 ≠ .resetAsserted dt) ∧ (∀ dt v, Instr.setTrim 5 ≠ .attentionMaskWrite dt v) ∧
      ∀ dt l, Instr.setTrim 5 ≠ .etripChange dt l := ⟨⟨_, rfl⟩, by simp, by simp, by simp, by simp⟩

theorem witness_BitsLevelAndCopyChangeAtTheirCommandsAlone :
    ((Instr.attentionMaskWrite 1 0).resets = false ∧ (∀ dt v, Instr.attentionMaskWrite 1 0 ≠ .attentionWrite dt v) ∧
      (∃ t, exec (.attentionMaskWrite 1 0) tripped = .next t) ∧ tripped.attention.getLsbD 2 = true) ∧
      (Instr.setTrim 5).requestsLevel = false ∧ (Instr.runLevelConfigure 5).resets = false ∧
      ∀ dt, Instr.runLevelConfigure 5 ≠ .runLevelRun dt :=
  ⟨⟨rfl, by simp, ⟨_, rfl⟩, by decide +kernel⟩, rfl, rfl, by simp⟩

theorem witness_UnreadRecordsAreNeverOverwritten :
    journalOk bitten ∧ (Instr.attentionWrite 1 2).resets = false ∧
      (Instr.attentionWrite 1 2).writesJournalRead bitten = false ∧
      (∃ t, exec (.attentionWrite 1 2) bitten = .next t) ∧ 0 < bitten.journal.unread :=
  ⟨by unfold journalOk; decide +kernel, rfl, rfl, ⟨_, rfl⟩, by decide +kernel⟩

/-- A level request with no order standing taken, and with one that is no RESET_TRIP. -/
theorem witness_TripGrowsUntilReset :
    (Instr.runLevelConfigure 1).resets = false ∧ (∀ dt, Instr.runLevelConfigure 1 ≠ .resetTrip dt) ∧
      tripped.orders.copy = none ∧ (∃ t, exec (.runLevelConfigure 1) tripped = .next t) ∧ tripped.trip.latch = true ∧
      tripped.trip.entryStop = true ∧ (tripped.trip.actions.get 2).driveStop = true ∧
      (tripped.trip.actions.get 2).gapOpen = true ∧
      (∀ c, (taken (.setTrim 1 0) tripped).orders.copy = some c → c.order ≠ .resetTrip) ∧
      (∃ t, exec (.runLevelConfigure 1) (taken (.setTrim 1 0) tripped) = .next t) :=
  ⟨rfl, by simp, by decide +kernel, ⟨_, rfl⟩, by decide +kernel, by decide +kernel, by decide +kernel, by decide +kernel,
    fun c h => by cases h; decide, ⟨_, rfl⟩⟩

theorem witness_HaltIsTheSoftReset :
    let s := taken .resetTrip posted
    memoryOk s ∧ 4096 ∈ s.takenBlocks ∧ s.exm.read 4098 ≠ 0 ∧ s.exm.read 4108 ≠ 0 :=
  ⟨(by decide +kernel : Memory.wf _ = true), by decide +kernel, by decide +kernel, by decide +kernel⟩

theorem witness_RequestsThatLeaveTheLevelAsItIs :
    (millAt .configure).level = .configure ∧ (millAt .loopback).level = .loopback ∧ mill.level = .run ∧
      (millAt .loopback).level ≠ .run ∧ (lineAt (millAt .loopback).exm).failure = some 0x1000 := by decide +kernel

/-- From HALT with and without a pointer at the anchor; from LOOPBACK with a move in flight; from RUN with every stand VACANT,
with one that is not, and with a slot DRAINING. -/
theorem witness_ConfigureIsEnteredFromEachLevel :
    let m := moving (.preset 3000 20 900 0) (millAt .loopback)
    (State.reset.level = .halt ∧ State.reset.exm.readWord 0 = 0 ∧
      { State.reset with exm := Memory.put [] [(0, 4096)] }.exm.readWord 0 = 4096) ∧
      (Memory.wf m.exm = true ∧ m.level = .loopback ∧ m.orders.copy = none ∧ abortedAs 5 1 m = some (5, 1000) ∧
        m.orders.inFlight.get 1 = some 8192 ∧ ∀ j ∈ standNumbers, j ≠ 1 → (m.gap.get j).move.inFlight = false) ∧
      (Memory.wf mill.exm = true ∧ mill.level = .run ∧ mill.orders.copy = none ∧
        ∀ k ∈ standsTo mill.n, (mill.thread k).state = .vacant) ∧
      (bitten.level = .run ∧ bitten.orders.copy = none ∧ ∃ k ∈ standsTo bitten.n, (bitten.thread k).state ≠ .vacant) ∧
      ((slotState .draining mill).store.slot .a).state = .draining := by
  decide +kernel

theorem witness_LoopbackEntryBuildsTheListAndAnswersInside :
    (State.reset.level = .halt ∧ State.reset.line = none) ∧
      (Memory.wf mill.exm = true ∧ (millAt .configure).level = .configure ∧ (millAt .configure).orders.copy = none ∧
        (millAt .configure).line = some line2) ∧
      (mill.level = .run ∧ mill.orders.copy = none ∧ mill.line = some line2 ∧
        ∀ k ∈ standsTo mill.n, (mill.thread k).state = .vacant) ∧
      Memory.wf bitten.exm = true ∧ bitten.level = .run ∧ bitten.line = some line2 ∧
      ∃ k ∈ standsTo bitten.n, (bitten.thread k).state ≠ .vacant := by decide +kernel

/-- From HALT, no table loaded, the external trip input HEALTHY, no slot live; and from CONFIGURE and LOOPBACK, tables loaded,
the input at TRIP, slot A live with the stand count of the new line. -/
theorem witness_RunEntryBringsEveryBlockToItsEntryState :
    let s := { State.reset with exm := lineMemory }
    let u := fun l => { millAt l with exm := lineMemory, etripPin := .trip }
    lineAt lineMemory = line2 ∧ line2.failure = none ∧ Memory.wf lineMemory = true ∧
      (s.level ≠ .run ∧ s.exm = lineMemory ∧ s.orders.copy = none ∧ s.etripPin = .healthy ∧ (s.est.get 1).loaded = false ∧
        s.line.map LineDesc.n ≠ some line2.n) ∧
      (∀ l ∈ [RunLevel.configure, .loopback], (u l).level ≠ .run) ∧ (u .loopback).exm = lineMemory ∧
      (u .loopback).orders.copy = none ∧ (u .loopback).etripPin = .trip ∧ ((u .loopback).est.get 1).loaded = true ∧
      (u .loopback).line.map LineDesc.n = some line2.n ∧ (u .loopback).store.slotA.state ≠ .free ∧
      ((u .loopback).store.slotA.schedule.getD {}).count = line2.n := by
  refine ⟨test_line_description_is_read_by_its_offsets, test_line_description_is_valid, by decide +kernel, ?_⟩
  refine ⟨⟨by decide, rfl, rfl, rfl, rfl, by decide⟩, by decide, rfl, rfl, rfl, rfl, rfl, by decide, rfl⟩

/-- The Schedule Store of such a state keeps its laws. -/
theorem witness_RunEntryBringsEveryBlockToItsEntryState_store :
    storeOk { millAt .loopback with exm := lineMemory, etripPin := .trip } :=
  ⟨mill_store.1, mill_store.2.1, mill_store.2.2.1, mill_store.2.2.2.1, mill_store.2.2.2.2.1, mill_store.2.2.2.2.2.1,
    fun _ => rfl, fun c h => by cases h⟩

/-! ### Witnesses: the port and the journal -/

theorem witness_RegisterWritesAndStrayFrames :
    registerWriteIsIgnored 4 4 = true ∧ registerWriteIsIgnored 0 0xFFFF = true ∧ openExchange mill = none := by
  decide +kernel

/-- Both owners, at both sides of each bound of the part-written areas. -/
theorem witness_PortWritesFollowTheWordsOwner :
    memoryOk State.reset ∧
      ([4, 62, 1024, 4094].all fun w => partOwned State.reset w) = true ∧ partOwned (taken .resetTrip mill) 4098 = true ∧
      ([0, 64, 1022, 4096, 65534].all fun w => !partOwned State.reset w) = true ∧ State.reset.orders.watched ≠ some 64 :=
  ⟨rfl, by decide, by decide +kernel, by decide, by decide⟩

/-- CONFIGURE with the watched word ORDER_ANCHOR and a word at an offset. -/
def anchored (ws : List (Nat × Word)) : State :=
  { State.reset with level := .configure, orders := { watched := some 0 }, exm := Memory.put [] ws }

theorem witness_ArrivalsThatTakeNothing :
    let s := anchored [(4098, 2)]
    let u := fun v : Word => { s with exm := s.exm.writeWord 0 v }
    (memoryOk s ∧ s.orders.watched = some 0 ∧ s.orders.copy = none ∧ 0 % 8 = 0 ∧ partOwned s 0 = false) ∧
      2 * ((1 : Word).toNat / 2) = 0 ∧
      ([0xFFFF, 4097, 4088].all fun v : Word => decide (v ≠ 0 ∧ (v.toNat % 8 ≠ 0 ∨ v.toNat < 4096))) = true ∧
      (4096 : Word).toNat % 8 = 0 ∧ ((s.orders.inFlight.set 1 (some 4096)).get 1 = some 4096) ∧
      (u 4096).exm.readWord 4098 = 2 ∧ (∀ k ∈ standNumbers, s.orders.inFlight.get k ≠ some 4096) ∧
      (65520 : Word).toNat < 65528 ∧ (u 65520).exm.readWord 65522 ≠ 1 ∧ (u 65520).exm.readWord 65522 ≠ 2 :=
  ⟨⟨(by decide +kernel : Memory.wf _ = true), by decide +kernel⟩, by decide +kernel⟩

/-- A block of the kind given, POSTED at `p` and pointed to. -/
def postedOk (p : Nat) (kind : Word) : Bool :=
  let m := (anchored [(0, BitVec.ofNat 16 p), (p + 2, 1), (p + 4, kind)]).exm
  decide (p % 8 = 0 ∧ 4096 ≤ p ∧ p < 65528 ∧ m.readWord (p + 2) = 1 ∧ m.readWord (p + 4) = kind)

/-- A block that is taken up to the last byte of memory; and each check that ends a take. -/
theorem witness_PostedBlocksAreTaken :
    memoryOk (anchored []) ∧
      (postedOk 65520 9 = true ∧ blockSize 9 = some 16 ∧ 65520 + 16 ≤ 65536 ∧ levelAccepts 9 .configure = true) ∧
      (postedOk 4096 0 = true ∧ postedOk 4096 11 = true) ∧
      (postedOk 65520 2 = true ∧ blockSize 2 = some 46 ∧ 65536 < 65520 + 46) ∧
      postedOk 4096 10 = true ∧ blockSize 10 = some 12 ∧ levelAccepts 10 .configure = false :=
  ⟨rfl, by decide +kernel⟩

theorem witness_JournalReadWriteMovesTheIndex :
    memoryOk mill ∧ partOwned mill 2 = false ∧ mill.orders.watched ≠ some 2 ∧ 2 * ((3 : Word).toNat / 2) = 2 ∧
      255 < (256 : Word).toNat ∧ 128 < ((0 : BitVec 8) - 127).toNat ∧ ((0 : BitVec 8) - 128).toNat = 128 ∧
      bitten.journal.lost = 0 ∧ (bitten.journal.w - 1).toNat < 128 ∧
      ({ mill with journal := { mill.journal with lost := 1 } } : State).journal.lost = 1 := by
  refine ⟨(by decide +kernel : Memory.wf _ = true), by decide +kernel⟩

theorem witness_RecordsAreAppendedOrCounted :
    let j := fun (w : BitVec 8) (lost : Nat) => { mill.journal with w := w, lost := lost }
    ((j 127 0).lost = 0 ∧ (j 127 0).unread = 127) ∧ journalOk mill ∧ (j 128 0).unread = 128 ∧ 0 < (j 0 65535).lost :=
  ⟨by decide +kernel, by unfold journalOk; decide +kernel, by decide +kernel⟩

/-! ### Witnesses: the orders (the copy and the memory by `orders_memory`) -/

/-- Stand 1 in a calibration. -/
def calibrating : State := moving (.calClose 900 1000 0 102300) mill

/-- An order stands taken in any of these states, and each meets the memory's invariant. -/
theorem orders_memory (o : Order) : ∀ s ∈ [State.reset, mill, bitten, tripped, calibrating],
    (taken o s).orders.copy = some { ptr := 4096, order := o, time := 900 } ∧ memoryOk (taken o s) := by
  have h : ∀ s ∈ [State.reset, mill, bitten, tripped, calibrating], Memory.wf s.exm = true := by decide +kernel
  exact fun s hs => ⟨rfl, h s hs⟩

theorem witness_AnnounceHeadMakesStandOneExpecting :
    let checks := fun (coil : Word) (s : State) => [(decide (coil ≠ 0), 4, 2, (12 : Word)), (!s.trip.latch, 3, 2, 0),
      (decide ((s.thread 1).state = .vacant), 3, 1, 0), (standNumbers.all fun k => !(s.gap.get k).move.calibrating, 3, 6, 0)]
    firstFailure (checks 0 mill) = some (4, 2, 12) ∧ firstFailure (checks 7 tripped) = some (3, 2, 0) ∧
      firstFailure (checks 7 bitten) = some (3, 1, 0) ∧ firstFailure (checks 7 calibrating) = some (3, 6, 0) ∧
      mill.trip.latch = false ∧ (mill.thread 1).state = .vacant ∧
      (∀ k ∈ standNumbers, (mill.gap.get k).move.calibrating = false) ∧ (mill.slotAt 1).isSome = true ∧
      (mill.slotAt 1).elim 0 (fun x => (mill.store.slot x).coil) = 7 := by decide +kernel

theorem witness_SetModulusAppliesOrHoldsTheTable :
    ¬standNamed mill 0 ∧ ¬standNamed mill 3 ∧ standNamed mill 2 ∧ { table with th := 2001 }.failure = some 0 ∧
      table.failure = none ∧ (calibrating.gap.get 1).move.calibrating = true ∧
      ((mill.est.get 1).loaded = true ∧ (mill.thread 1).state = .vacant ∧ (mill.gap.get 1).move.calibrating = false) ∧
      ¬((bitten.est.get 1).loaded = true ∧ (bitten.thread 1).state = .vacant) ∧
      (bitten.est.get 1).pendingTable = none ∧ standNamed State.reset 8 ∧ (State.reset.est.get 8).loaded = false := by
  decide +kernel

theorem witness_SetModulusAppliesOrHoldsTheTable_replaces :
    let s := { bitten with est := bitten.est.set 1 { bitten.est.get 1 with pendingTable := some table } }
    (s.thread 1).state ≠ .vacant ∧ (s.est.get 1).pendingTable ≠ none ∧ (s.gap.get 1).move.calibrating = false := by
  decide +kernel

theorem witness_SetTrimLimitsTheTrim :
    (taken (.setTrim 3 101) mill).orders.copy = some { ptr := 4096, order := .setTrim 3 101, time := 900 } ∧
      ¬standNamed mill 3 ∧ ¬standNamed mill 0 ∧ standNamed mill 1 ∧ standNamed mill 2 ∧
      max (-100) (min 100 (101 : Int)) = 100 ∧ mill.line.elim 0 LineDesc.trimLim = 100 := by decide +kernel

theorem witness_LoadScheduleFillsASlotAndSwitches :
    let bad := { schedule with coil := 0 }
    let two := { mill with store := { mill.store with slotB := { state := .waiting, coil := 9, schedule := some schedule } } }
    (firstFailure (bad.checks (countAgrees mill bad.count)) = some 0 ∧
      firstFailure (schedule.checks (countAgrees mill schedule.count)) = none) ∧
      (two.store.slotA.state ≠ .free ∧ two.store.slotB.state ≠ .free) ∧
      ((State.reset.store.slot .a).state = .free ∧ (State.reset.store.slot Slot.a.other).state = .free ∧
        .a = State.reset.store.lastLoaded.elim .a Slot.other ∧
        firstFailure (schedule.checks (countAgrees State.reset schedule.count)) = none) ∧
      (mill.store.slot .b).state = .free ∧ (mill.store.slot Slot.b.other).state ≠ .free ∧
      (standsTo 2).takeWhile (fun k => (mill.thread k).state == .vacant && (mill.thread k).headNotice.isNone) = [1, 2] ∧
      (standsTo 2).takeWhile (fun k => (bitten.thread k).state == .vacant && (bitten.thread k).headNotice.isNone) = [] := by
  decide +kernel

theorem witness_LoadScheduleFillsASlotAndSwitches_take :
    takeSchedule mill 4095 = .failed (.plain (.invalid .pointer)) := by decide +kernel

theorem witness_UnloadScheduleFreesAWaitingSlot :
    let s := { mill with store := { mill.store with slotB := { state := .waiting, coil := 9, schedule := some schedule } } }
    (2 < 3 ∧ 1 = Slot.code .a ∧ (s.store.slot .a).state ≠ .waiting) ∧ 2 = Slot.code .b ∧
      (s.store.slot .b).state = .waiting := by decide +kernel

/-- The checks of PRESET_GAP, as the statement has them. -/
def presetChecks (s : State) (k tol : Nat) (target : Int) : List (Bool × Nat × Nat × Word) :=
  [(s.line.isSome, 3, 2, 0), (decide (standNamed s k), 4, 2, 12), (decide (tol ≤ 5000), 4, 2, 18),
    (!(s.gap.get k).move.inFlight, 3, 1, 0), (decide ((s.thread k).state = .vacant ∧ s.trip.actions.get k = {}), 3, 2, 0),
    (decide ((s.link.stations.get k).state = .present ∧ (s.gap.get k).baseKnown = true), 3, 5, 0),
    (!(s.link.stations.get k).lastLocal, 3, 4, 0),
    (decide ((s.lineCopy.pLo : Int) - (s.est.get k).z ≤ target ∧ target ≤ (s.lineCopy.pHi : Int) - (s.est.get k).z),
      4, 2, 14)]

theorem witness_PresetGapStartsAPreset :
    firstFailure (presetChecks State.reset 1 0 0) = some (3, 2, 0) ∧
      firstFailure (presetChecks mill 3 0 0) = some (4, 2, 12) ∧
      firstFailure (presetChecks mill 1 5001 0) = some (4, 2, 18) ∧
      firstFailure (presetChecks calibrating 1 0 0) = some (3, 1, 0) ∧
      firstFailure (presetChecks mill 1 5000 147701) = some (4, 2, 14) ∧
      firstFailure (presetChecks mill 2 5000 147700) = none ∧ firstFailure (presetChecks mill 1 0 (-102300)) = none := by
  decide +kernel

/-- The checks of CALIBRATE_ZERO, as the statement has them. -/
def calibrateChecks (s : State) (k : Nat) : List (Bool × Nat × Nat × Word) :=
  [(decide (standNamed s k), 4, 2, 12), (!(s.gap.get k).move.inFlight, 3, 1, 0),
    (decide ((∀ j ∈ standNumbers, j ≤ k → (s.thread j).state = .vacant ∧ (s.thread j).headNotice = none) ∧
      s.trip.actions.get k = {}), 3, 2, 0),
    (decide ((s.link.stations.get k).state = .present ∧ (s.gap.get k).baseKnown = true), 3, 5, 0),
    (!(s.link.stations.get k).lastLocal, 3, 4, 0)]

theorem witness_CalibrateZeroStartsClosing :
    mill.line.isSome = true ∧ firstFailure (calibrateChecks mill 3) = some (4, 2, 12) ∧
      firstFailure (calibrateChecks bitten 2) = some (3, 2, 0) ∧ firstFailure (calibrateChecks mill 2) = none := by
  decide +kernel

/-- Each move, with its order in flight; and each check that fails. -/
theorem witness_AbortMoveEndsOrOpensTheMove :
    let checks := fun (s : State) (k : Nat) => [(s.line.isSome, 3, 2, (0 : Word)), (decide (standNamed s k), 4, 2, 12),
      ((s.gap.get k).move.inFlight, 3, 2, 0)]
    (firstFailure (checks State.reset 1) = some (3, 2, 0) ∧ firstFailure (checks mill 3) = some (4, 2, 12) ∧
      firstFailure (checks mill 1) = some (3, 2, 0)) ∧ mill.line.isSome = true ∧ standNamed mill 1 ∧
      (let s := moving (.preset 3000 20 900 1) mill
       (s.gap.get 1).move = .preset 3000 20 900 1 ∧ s.orders.inFlight.get 1 = some 8192) ∧
      (calibrating.gap.get 1).move = .calClose 900 1000 0 102300 ∧
      ((moving (.calOpen 900 1000 .completed 102300) mill).gap.get 1).move = .calOpen 900 1000 .completed 102300 := by
  decide +kernel

/-- Stand 16, the highest a set names, is not of the line; stands 1 and 2 are. -/
theorem witness_TripStandsRaisesOrdered :
    (65535 < 65536 ∧ ¬(1 = 1 ∧ 1 = 0 ∨ 1 = 0 ∧ 1 ≠ 0) ∧ ¬(0 = 1 ∧ 0 = 0 ∨ 0 = 0 ∧ 0 ≠ 0)) ∧
      (∃ k ∈ ((List.range 16).filter fun i => Nat.testBit 32768 i).map (· + 1), ¬standNamed mill k) ∧
      (∀ k ∈ ((List.range 16).filter fun i => Nat.testBit 3 i).map (· + 1), standNamed mill k) := by decide +kernel

/-- The checks of RESET_TRIP, as the statement has them. -/
def resetTripChecks (s : State) : List (Bool × Nat) :=
  [(decide (s.trip.etrip = .healthy), 256)]
    ++ (standsTo s.n).map (fun k => (decide ((s.link.stations.get k).state ≠ .silent), 7 * 256 + k))
    ++ [(decide (s.link.gauge.state ≠ .silent), 7 * 256 + (s.n + 1))]
    ++ (standsTo s.n).map (fun k => (decide (∀ x, s.slotAt k = some x → (s.link.stations.get k).f < (s.sched k).fOff), 6 * 256 + k))
    ++ (standsTo s.n).map (fun k => (decide ((s.link.stations.get k).flags.overtravel = false ∧
      s.lineCopy.pLo ≤ (s.link.stations.get k).p ∧ (s.link.stations.get k).p ≤ s.lineCopy.pHi), 8 * 256 + k))
    ++ (standsTo s.n).map (fun k => (!(s.link.stations.get k).flags.hydFault, 10 * 256 + k))

/-- The trip's cause gone, stand 1 on slot B and stand 2 on slot A, B the newer, with the states given; a table pending at
stand 2. -/
def collapsing (a b : SlotState) : State :=
  let s := after (.etripChange 1 .healthy) tripped
  taken .resetTrip { s with
    store := { slotA := { s.store.slotA with state := a }, slotB := { state := b, coil := 8, schedule := some schedule },
               inForce := { PerStand.all none with s1 := some .b, s2 := some .a }, lastLoaded := some .b },
    est := s.est.set 2 { s.est.get 2 with pendingTable := some table } }

/-- With the latch clear; with the cause still there; with it gone, both slots live, the older in force at no stand, and a slot
DRAINING. -/
theorem witness_ResetTripClearsTheTrip :
    let gone := after (.etripChange 1 .healthy) tripped
    mill.n ≤ 8 ∧ mill.trip.latch = false ∧ (tripped.trip.latch = true ∧ firstFailure (resetTripChecks tripped) = some 256) ∧
      gone.trip.latch = true ∧ firstFailure (resetTripChecks gone) = none ∧
      (∀ s ∈ [collapsing .inForce .inForce, collapsing .draining .inForce],
        Memory.wf s.exm = true ∧ s.n ≤ 8 ∧ s.orders.copy = some { ptr := 4096, order := .resetTrip, time := 900 } ∧
          s.trip.latch = true ∧ firstFailure (resetTripChecks s) = none) ∧
      (((collapsing .inForce .inForce).store.slot .a).state ≠ .free ∧ ((collapsing .inForce .inForce).store.slot .b).state ≠ .free ∧
        (collapsing .inForce .inForce).slotAt 2 = some Slot.b.other) ∧
      ((collapsing .draining .inForce).store.slot .a).state = .draining ∧
      ((collapsing .inForce .inForce).est.get 2).pendingTable = some table := by decide +kernel

/-- R105, R139: stand 2 goes to the newer slot, the older is FREE, and the records come in the order of the steps. -/
theorem test_trip_reset_collapses_the_slots :
    let t := after (.resetTrip 1) (collapsing .inForce .inForce)
    t.slotAt 2 = some .b ∧ t.store.slotA = {} ∧ t.store.slotB.state = .inForce ∧
      (collapsing .inForce .inForce).journal.unread = 1 ∧
      (((t.journal.slots.drop 1).take 4).filterMap id).map (fun r => (r.kind, r.stand, r.v1, r.v2, r.v3)) =
        [(.modulusApplied, 2, 3, 0, 0), (.scheduleSwitch, 2, 2, 1, 3), (.slotFreed, 0, 1, 5, 0), (.tripReset, 0, 1, 0, 1)] ∧
      t.store.lastLoaded = some .b := by decide +kernel

/-! ### Witnesses: trip causes -/

/-- A latched trip whose list holds `n` causes, the last of them FORCE_OVERLOAD at stand 8. -/
def causes (n : Nat) : List CauseEntry :=
  (List.range n).map fun i =>
    { cause := if i < 8 then .gapOvertravel else .forceOverload, stand := i % 8 + 1, time := 0, coil := 0, lastMark := none }

/-- The mill with that list. -/
def latched (n : Nat) : State := { mill with trip := { mill.trip with latch := true, causes := causes n } }

/-- With the latch clear; with it set, a duplicate, a new cause while there is room, and one with the list full; at RUN
with a matrix, with no move and with each in flight at a stand of the set, and at a level that only records. -/
theorem witness_CausesAreRecordedAndApplied :
    (tripOk mill ∧ tripOk (latched 15) ∧ tripOk (latched 16)) ∧ mill.n ≤ 8 ∧ mill.trip.latch = false ∧
      (latched 16).trip.latch = true ∧
      (∃ x ∈ (latched 16).trip.causes, x.cause = .forceOverload ∧ x.stand = 8) ∧
      (∀ x ∈ (latched 16).trip.causes, ¬(x.cause = .external ∧ x.stand = 0)) ∧ (latched 15).trip.causes.length = 15 ∧
      (latched 16).trip.causes.length = 16 ∧
      (mill.level = .run ∧ mill.trip.matrix.isSome = true) ∧ (millAt .configure).level ≠ .run ∧
      (∀ s ∈ [moving (.preset 3000 20 900 1) mill, calibrating, moving (.calOpen 900 1000 (.aborted .order) 102300) mill],
        tripOk s ∧ Memory.wf s.exm = true ∧ (abortedAs 1 1 s).isSome = true ∧ s.orders.inFlight.get 1 = some 8192 ∧
          1 ∈ standsTo s.n ∧ (s.gap.get 2).move.inFlight = false) := by
  unfold tripOk; decide +kernel

/-- R119, R132: a cause whose matrix entry has actions at stand 1 ends its preset ABORTED with TRIP, and TRIP_FIRST gives
the cause code, the index and the number of stands. -/
theorem test_cause_ends_the_moves_of_its_stands :
    let t := takeCause .external 0 1000 (moving (.preset 3000 20 900 1) mill)
    (t.gap.get 1).move = .none ∧ t.exm.readWord 8194 = 3 ∧ t.exm.readWord 8198 = 2 ∧ t.exm.readWord 8200 = 1 ∧
      t.exm.readWord 8202 = 1000 ∧
      (t.journal.slots[0]?).join.map (fun r => (r.kind, r.stand, r.v1, r.v2, r.v3)) = some (.tripFirst, 0, 1, 1, 2) := by
  decide +kernel

/-- The level that stands; a change to HEALTHY, a change below RUN, and one to TRIP at RUN. A reply at the bounds of P, F and
the flags and one past them, LOCAL at a VACANT stand and at one that is not. -/
theorem witness_TheInputAndTheReplyCheckRaiseTheirCauses :
    (tripped.trip.etrip = .trip ∧ (millAt .configure).level ≠ .run ∧ (millAt .configure).trip.etrip ≠ .trip ∧
      mill.level = .run ∧ mill.trip.etrip ≠ .trip) ∧
      (mill.lineCopy.pHi < 250001 ∧ ¬mill.lineCopy.pHi < 250000) ∧ (mill.lineCopy.fMax < 30001 ∧ ¬mill.lineCopy.fMax < 30000) ∧
      (mill.thread 1).state = .vacant ∧ (bitten.thread 1).state ≠ .vacant := by decide +kernel

/-- At its bounds a reply raises nothing; past them it takes the causes in order, whether or not the latch is set. -/
theorem test_reply_check_takes_its_causes_in_order :
    replyCheck 1 250000 30000 { localMode := true } mill = mill ∧
      ((replyCheck 1 250001 30001 { localMode := true } bitten).trip.causes.map fun e => (e.cause, e.stand)) =
        [(.gapOvertravel, 1), (.forceOverload, 1), (.terminalFault, 1)] := by decide +kernel

/-! ### Witnesses: the stand link -/

/-- The exchange at the head of the cycle is open. -/
theorem open_stand (p : Phase) : ExchangeOpen (exchange 0 p mill) { index := 0, phase := p, late := false } (.stand 1) :=
  ⟨rfl, rfl, rfl⟩

/-- The gauge's exchange, the last of the cycle, is open. -/
theorem open_gauge (p : Phase) : ExchangeOpen (exchange 2 p mill) { index := 2, phase := p, late := false } .gauge :=
  ⟨rfl, rfl, rfl⟩

/-- A station that the exchange names is a stand of the part. -/
theorem entry_stand (k : Nat) (h : PollEntry.stand 1 = .stand k) : 1 ≤ k ∧ k ≤ 8 := by cases h; decide

/-- At the expiry, one microsecond before it, and as far after it as the clock tells the two apart; at RUN and at LOOPBACK; at
the close of the window, and one microsecond after it. -/
theorem witness_TheCycleFollowsTheTimerAndTheLine :
    mill.link.nextExpiry = some 1500 ∧ 2147483648 ≤ (mill.clock + 499 - 1500).toNat ∧
      (mill.clock + 500 - 1500).toNat < 2147483648 ∧ (exchange 0 .sending mill).link.cycle ≠ none ∧
      mill.link.cycle = none ∧ mill.level = .run ∧ (millAt .loopback).level = .loopback ∧
      mill.link.pollList = [.stand 1, .stand 2, .gauge] ∧
      (mill.clock + 30 - 1000).toNat ≤ 30 * (mill.lineCopy.timeoutCode + 1) ∧
      30 * (mill.lineCopy.timeoutCode + 1) < (mill.clock + 31 - 1000).toNat := by decide +kernel

/-- The mill with a sample taken at the time given. -/
def sampled (time : Clock) (s : State) : State := { s with gauge := { s.gauge with held := true, hx := 2031, time := time } }

/-- A stand and the gauge, one microsecond before the close and at it; a miss that completes the silent count and one that does
not; a sample at the age limit at the close, and one microsecond younger. -/
theorem witness_WindowCloseIsAMiss :
    ExchangeOpen (exchange 0 (.window 1000) mill) { index := 0, phase := .window 1000, late := false } (.stand 1) ∧
      (∀ k, PollEntry.stand 1 = .stand k → 1 ≤ k ∧ k ≤ 8) ∧
      (mill.clock + 29 - 1000).toNat < 30 * (mill.lineCopy.timeoutCode + 1) ∧
      30 * (mill.lineCopy.timeoutCode + 1) ≤ (mill.clock + 30 - 1000).toNat ∧
      ExchangeOpen (exchange 2 (.window 1000) (sampled 30 mill)) { index := 2, phase := .window 1000, late := false } .gauge ∧
      (mill.link.gauge.state = .present ∧ ¬mill.lineCopy.silentCount ≤ min (mill.link.gauge.missRun + 1) 7 ∧
        mill.lineCopy.silentCount ≤ min (2 + 1) 7) ∧
      (¬(mill.clock + 30 - (sampled 30 mill).gauge.time).toNat < 2 * mill.lineCopy.period ∧
        (mill.clock + 30 - (sampled 31 mill).gauge.time).toNat < 2 * mill.lineCopy.period) :=
  ⟨open_stand _, entry_stand, by decide +kernel, by decide +kernel, ⟨rfl, rfl, rfl⟩, by decide +kernel⟩

/-- R63: at a miss of the gauge, and at its reply with VALID clear, a sample at the age limit is held no more; the reply's time
is its frame's end. -/
theorem test_sample_expires_at_a_miss_and_at_an_invalid_reply :
    let miss := fun time => after (.replyWindowClose 30 false) (exchange 2 (.window 1000) (sampled time mill))
    let invalid := fun time => after (.replyReceived 9 (replyFrame 3 0 (.gauge false 0)) (.idle 2) plan)
      (exchange 2 (.receiving 1000) (sampled time mill))
    (miss 30).gauge.held = false ∧ (miss 31).gauge.held = true ∧ (invalid 7).gauge.held = false ∧
      (invalid 8).gauge.held = true ∧ (invalid 8).gauge.time = 8 := by decide +kernel

/-- A valid stand reply and a valid gauge reply, from stations that are PRESENT, UNKNOWN or SILENT, before and at the rejoin
count; a gauge reply with VALID clear; a frame that is none, and one cut short at the limit. The exchange at its end and one
microsecond before it, with the line idle and not; the frame's length at its limit and past it. -/
theorem witness_RepliesAreJudgedRecordedAndDelivered :
    ExchangeOpen (exchange 0 (.receiving 1000) mill) { index := 0, phase := .receiving 1000, late := false } (.stand 1) ∧
      ExchangeOpen (exchange 2 (.receiving 1000) mill) { index := 2, phase := .receiving 1000, late := false } .gauge ∧
      (∀ k, PollEntry.stand 1 = .stand k → 1 ≤ k ∧ k ≤ 8) ∧ planOk plan = true ∧
      judge (.stand 1) 1 (replyFrame 1 31 (.stand 101420 18450 9850 {})) false = some (.stand 101420 18450 9850 {}) ∧
      judge (.stand 1) 1 [] false = none ∧
      judge .gauge 3 (replyFrame 3 0 (.gauge true 2031)) false = some (.gauge true 2031) ∧
      (min ((answering 1).goodRun + 1) 7 = 7 ∧ mill.lineCopy.rejoinCount = 2 ∧ min (0 + 1) 7 < 2 ∧ 2 ≤ min (1 + 1) 7) ∧
      (mill.link.gauge.state = .present ∧ mill.gauge.silent = false) ∧
      judge .gauge 3 (replyFrame 3 0 (.gauge false 0)) false = some (.gauge false 0) ∧
      judge (.stand 1) 1 (replyFrame 1 31 (.stand 101420 18450 9850 {})) true = none ∧
      (∀ fin ∈ [FrameEnd.idle 0, .idle 1, .idle 2, .arriving], fin.ok = true) ∧
      (∀ x ∈ [(FrameEnd.idle 2, 1), (.idle 1, 15), (.arriving, 15)], ¬(x.1 = .idle 2 ∧ 2 ≤ x.2 ∨ 16 ≤ x.2)) ∧
      (∀ x ∈ [(FrameEnd.idle 2, 2), (.idle 0, 16), (.arriving, 16)], x.1 = .idle 2 ∧ 2 ≤ x.2 ∨ 16 ≤ x.2) ∧
      (¬(FrameEnd.idle 2 = .arriving ∨ 16 < 18 - 2) ∧ (FrameEnd.idle 2 = .arriving ∨ 16 < 19 - 2)) ∧
      (mill.link.gauge.state = .present ∧ mill.lineCopy.silentCount ≤ min (2 + 1) 7 ∧ ¬mill.lineCopy.silentCount ≤ min (1 + 1) 7) ∧
      ((1013 - (sampled 13 mill).gauge.time).toNat = 2 * mill.lineCopy.period ∧
        (1013 - (sampled 14 mill).gauge.time).toNat < 2 * mill.lineCopy.period) :=
  ⟨open_stand _, open_gauge _, entry_stand, by decide +kernel⟩

/-- A valid stand reply from a station that is PRESENT, with the base known and unknown, the latch clear and set; the Tracker's
work first, alone and with its causes; a value past each bound of the check; stand 1 as it was, and at a reply that confirms a
bite; a running generator met by strip lengths that leave 1 and 0. -/
theorem witness_DeliveredRepliesDoTheBlocksWork :
    let s := exchange 0 (.receiving mill.clock) mill
    let e := fun s : State => { s with link := { s.link with
      cycle := some { index := 0, phase := .receiving s.clock, late := false } } }
    (∀ x ∈ [s, e { mill with gap := mill.gap.set 1 {} }, e tripped, e bitten, e (threaded 1 { onRun := 1 } mill)],
      x.level = .run ∧ x.link.cycle = some { index := 0, phase := .receiving x.clock, late := false } ∧
        x.link.pollList[0]? = some (.stand 1) ∧ x.tracker.raised = [] ∧ x.link.pollList.Nodup ∧
        0 + 1 < x.link.pollList.length ∧ (x.gap.get 1).move = .none ∧ (x.station (.stand 1)).state = .present) ∧
      planOk plan = true ∧ plan = [.tracker] ++ .gap :: [.causes, .check, .nextPoll] ∧
      planOk [.tracker, .causes, .gap, .check, .nextPoll] = true ∧
      (∀ x ∈ [(2, 2), (2, 18), (0, 16), (1, 16), (1, 17)], x.1 = 2 ∧ 2 ≤ x.2 ∧ x.2 ≤ 18 ∨ x.1 < 2 ∧ 16 ≤ x.2 ∧ x.2 ≤ 16 + x.1) ∧
      judge (.stand 1) (mill.station (.stand 1)).addr (replyFrame 1 0 (.stand 250001 30001 9850 { hydFault := true })) false =
        some (.stand 250001 30001 9850 { hydFault := true }) ∧
      (mill.lineCopy.pHi < 250001 ∧ mill.lineCopy.fMax < 30001) ∧
      ([mill, bitten, threaded 1 { onRun := 1 } mill].map (confirmsBite1 30001) = [false, false, true]) ∧ ((e tripped).trip.latch = true ∧ mill.trip.latch = false) ∧
      (bitten.tracker.gen.running = true ∧ 0 < bitten.tracker.gen.base ∧
        0 < bitten.tracker.gen.count - ((999999 : Nat) : Int) ∧ bitten.tracker.gen.count - ((1000000 : Nat) : Int) ≤ 0) := by
  decide +kernel

/-- R12, R22, R80: the reply's strip length leaves the generator's count, a first reply gives the base, and with the latch set
the Tracker stands. -/
theorem test_reply_does_the_work_of_the_blocks :
    let e := fun s : State => after (.replyReceived 13 (replyFrame 1 0 (.stand 101420 18450 9850 {})) (.idle 2) plan)
      { s with link := { s.link with
        stations := s.link.stations.set 1 { answering 1 with prevTime := some (s.clock - 989) },
        cycle := some { index := 0, phase := .receiving s.clock, late := false } } }
    (e bitten).tracker.gen.count = 1000000 - 10293 ∧ ((e bitten).zone 1).map Mark.pos = [10293] ∧
      ((e { mill with gap := mill.gap.set 1 {} }).gap.get 1).base = -880 ∧ ((e mill).gap.get 1).base = 1000 ∧
      (e tripped).tracker = tripped.tracker := by decide +kernel

theorem witness_StationsFallSilent :
    let st := fun e : PollEntry => mill.withStation e { mill.station e with missRun := 2 }
    mill.level = .run ∧ (.stand 1 ∈ mill.link.pollList ∧ .gauge ∈ mill.link.pollList) ∧
      ((st (.stand 1)).station (.stand 1)).state = .present ∧ ((st .gauge).station .gauge).state = .present ∧
      mill.lineCopy.silentCount ≤ min (((st (.stand 1)).station (.stand 1)).missRun + 1) 7 ∧
      ((mill.thread 1).state = .vacant ∧ (bitten.thread 1).state ≠ .vacant) ∧
      (1 ≤ bitten.n ∧ bitten.trip.matrix.isSome = true ∧ Memory.wf bitten.exm = true) ∧
      (∀ s ∈ [moving (.preset 3000 20 900 1) mill, calibrating, moving (.calOpen 900 1000 (.aborted .order) 102300) mill],
        (s.thread 1).state = .vacant ∧ (s.gap.get 1).move.inFlight = true ∧ Memory.wf s.exm = true ∧
          s.orders.inFlight.get 1 = some 8192 ∧ (abortedAs 6 1 s).isSome = true) ∧
      ((moving (.hold 3000) mill).gap.get 1).move.inFlight = false := by decide +kernel

/-- R119, R152: a preset at a VACANT stand whose station falls silent ends with STATION, into HOLD at the base; the record
gives the address, the miss run and the milliseconds since the previous time; no cause is taken. -/
theorem test_silence_ends_the_move_of_a_vacant_stand :
    let s := (moving (.preset 3000 20 900 1) mill).withStation (.stand 1) { answering 1 with missRun := 2 }
    let t := after (.stationSilent 3500 (.stand 1)) s
    (t.gap.get 1).move = .hold 1000 ∧ t.exm.readWord 8198 = 2 ∧ t.exm.readWord 8200 = 6 ∧ t.exm.readWord 8202 = 1000 ∧
      (t.journal.slots[0]?).join.map (fun r => (r.kind, r.stand, r.time, r.v1, r.v2, r.v3)) =
        some (.stationSilent, 1, 4500, 1, 3, 4) ∧ t.trip.latch = false := by decide +kernel

theorem witness_StationsFallSilent_entry : ∀ k, PollEntry.stand 1 = .stand k → 1 ≤ k ∧ k ≤ 8 := entry_stand

theorem witness_SilentStationsRejoin :
    let s := mill.withStation (.stand 1) { answering 1 with state := .silent, goodRun := 1 }
    let u := mill.withStation .gauge { answering 3 with state := .silent, goodRun := 1 }
    (s.level = .run ∧ .stand 1 ∈ s.link.pollList ∧ .gauge ∈ u.link.pollList) ∧
      replyFits (.stand 1) (.stand 101420 18450 9850 {}) = true ∧ replyFits .gauge (.gauge true 2031) = true ∧
      (s.station (.stand 1)).state = .silent ∧ (u.station .gauge).state = .silent ∧
      s.lineCopy.rejoinCount ≤ min ((s.station (.stand 1)).goodRun + 1) 7 ∧ planOk plan = true := by decide +kernel

theorem witness_SamplesExpireAtTheAgeLimit :
    let s := fun l => { millAt l with gauge := { held := true, hx := 2000, time := 1000 } }
    ((s .run).level = .run ∧ (s .loopback).level = .loopback ∧ (s .run).gauge.held = true ∧
      2 * (s .run).lineCopy.period ≤ ((s .run).clock + 1000 - (s .run).gauge.time).toNat) ∧
      ((s .run).clock + 999 - (s .run).gauge.time).toNat < 2 * (s .run).lineCopy.period ∧ mill.gauge.held = false ∧
      (s .configure).level = .configure := by decide +kernel

theorem witness_ReplyFramesAreReadAsSent :
    255 < 256 ∧ (Reply.stand 4294967295 65535 65535 ⟨true, true, true⟩).ok = true ∧ (Reply.gauge true 65535).ok = true ∧
      254 ≠ 255 := by decide

/-! ### Witnesses: the strip -/

/-- Zone 1 of the mill with a mark of a kind at a position, a BODY behind it, and the carry 250,000. -/
def zone1 (kind : MarkKind) (pos : Nat) : State :=
  (mill.withTracker { mill.tracker with carry := PerStand.all 250000 }).withZone 1
    [{ id := 0, coil := 7, tag := some .a, kind := kind, pos := pos, thick := [500] },
      { id := 1, coil := 7, tag := some .a, kind := .body, pos := 0, thick := [500] }]

/-- A front mark that stays 1 µm short of the end of the zone, and one that reaches it: a BODY and a HEAD at a stand 2 that is
not loaded, the HEAD past the late window; with stand 2 loaded a BODY with and without one behind it, a HEAD, and a TAIL past
the late window. -/
theorem witness_MarksAreCarriedWithTheStrip :
    let q := 9850 * (1000 + ((zone1 .body 0).slotAt 1).elim 0 (fun _ => ((zone1 .body 0).sched 1).slip)) * min 1000 100000 +
      (zone1 .body 0).tracker.carry.get 1
    let on := fun ms : List Mark => (threaded 2 { state := .rolling, coil := 7 } (zone1 .body 0)).withZone 1 ms
    let z := { on [markAt .body 1 989707] with line := some { line2 with n := 3 } }
    q / 1000000 = 10293 ∧
      ((zone1 .body 989706).zone 1 ≠ [] ∧ (zone1 .body 989706).zoneLen 1 = 1000000 ∧ 989706 + 10293 < 1000000) ∧
      (1000000 ≤ 989707 + 10293 ∧ 1 < (zone1 .body 989707).n ∧ (zone1 .body 989707).loadedAt 2 = false) ∧
      ((on [markAt .body 1 989707]).loadedAt 2 = true ∧ (on [markAt .body 1 989707]).zone 1 = [markAt .body 1 989707] ∧
        (markAt .body 1 989707).thick.length = 1 ∧ (on []).zone 2 = [] ∧ 0 < (on []).zoneLen 2) ∧
      (z.zone 1 = [markAt .body 1 989707] ∧ z.loadedAt 2 = true ∧ z.zoneLen 2 = 0 ∧ 1 + 1 < z.n ∧ z.loadedAt 3 = false) ∧
      mill.lineCopy.wLate = 20 ∧ 15000 ≤ 20 * 1000 ∧ 20 * 1000 < min (15000 + (1000000 + 10293 - 1000000)) 4294967295 := by
  decide +kernel

/-- R16, R17: what a held HEAD and a late TAIL leave. -/
theorem test_held_marks_are_reported :
    let at1 := fun (loaded : Bool) (m : Mark) =>
      (advanceZone 1 9850 (some 1000) ((threaded 2 { state := if loaded then .rolling else .vacant, coil := 7 }
        (zone1 .body 0)).withZone 1 [m])).1
    (at1 true (markAt .head 1 989707)).tracker.raised = [(.coilOverlap, 2)] ∧
      (at1 false (markAt .head 1 989707)).tracker.raised = [] ∧
      (at1 false (markAt .head 1 1000000 (some 15000))).tracker.raised = [(.missedBite, 2)] ∧
      ((at1 true (markAt .tail 1 1000000 (some 15000))).journal.slots[0]?).join.map (fun r => (r.kind, r.stand, r.v1, r.v2)) =
        some (.tailLate, 2, 5, 25) := by decide +kernel

/-- Stand 2 is the last: a mark at the end of its zone, with a fresh sample, a stale one, and none; slot A in force, and
DRAINING with and without another mark of it in the zone. -/
theorem witness_DepartingMarksArePairedAndCounted :
    let s := fun (st : SlotState) (ms : List Mark) => slotState st (mill.withZone 2 (markAt .head 2 1000000 :: ms))
    let paired := fun g : GaugeRecord => decide (g.silent = false ∧ g.held = true ∧
      ((mill.clock - g.time).toNat < 2 * mill.lineCopy.period))
    (2 = (s .inForce []).n ∧ (s .inForce []).zone 2 = markAt .head 2 1000000 :: [] ∧ (s .inForce []).zoneLen 2 ≤ 1000000) ∧
      paired { held := true, time := 1 } = true ∧ paired { held := true, time := 0 } = false ∧ paired {} = false ∧
      ((s .inForce []).store.slot .a).state ≠ .draining ∧ ((s .draining []).store.slot .a).state = .draining ∧
      (∀ j ∈ standNumbers, ∀ y ∈ ((s .draining []).withZone 2 []).zone j, y.tag ≠ some .a) ∧
      ∃ j ∈ standNumbers, ∃ y ∈ ((s .draining [markAt .tail 2 0]).withZone 2 [markAt .tail 2 0]).zone j, y.tag = some .a := by
  decide +kernel

/-- The generator at a count of 10,294, met by a passage that leaves 1 and by passages that leave 0 and less; with the pool
taken up but for one record, and full. -/
theorem witness_BodyCutsFollowTheGenerator :
    let s := { bitten with tracker := { bitten.tracker with gen := { bitten.tracker.gen with count := 10294 } } }
    let empty := s.withZone 1 []
    let g := s.tracker.gen
    (s.level = .run ∧ s.trip.latch = false ∧ (s.link.stations.get 1).state = .present ∧ s.tracker.raised = [] ∧
      g.running = true ∧ 0 < g.base) ∧
      ((quiet .silent bitten).link.stations.get 1).state ≠ .present ∧
      0 < g.count - ((10293 : Nat) : Int) ∧ g.count - ((10294 : Nat) : Int) ≤ 0 ∧
      s.marksQueued + 1 ≤ 256 ∧ (s.zone 1 ≠ [] ∧ s.zone 1 = (s.zone 1).dropLast ++ (s.zone 1).getLast?.toList) ∧
      empty.zone 1 = [] ∧ -(g.count - ((10294 : Nat) : Int)) < (empty.zoneLen 1 : Int) := by decide +kernel

/-- A pool of which every record is queued. -/
def fullPool : State :=
  bitten.withZone 2
    (List.replicate 255 { id := 0, coil := 7, tag := some .a, kind := .body, pos := 0, thick := [500, 500] })

theorem witness_BodyCutsFollowTheGenerator_empty_pool :
    fullPool.marksQueued = 256 ∧ fullPool.tracker.gen.running = true ∧ fullPool.level = .run ∧
      (fullPool.link.stations.get 1).state = .present := by decide +kernel

/-- An announced and an unannounced bite, the force at F_on exactly; one that finds no free record; and one into an empty zone 1
of no length, with stand 2 VACANT and loaded. -/
theorem witness_LoadOnBitesAtStandOne :
    let e := threaded 1 { state := .expecting, coil := 7, h0 := 3000, onRun := 1 } mill
    let v := threaded 1 { onRun := 1 } mill
    let f := e.withTracker { e.tracker with zones := fullPool.tracker.zones }
    let z := { e with line := some { line2 with stands := line2.stands.set 1 (stand 1 0) } }
    let one := { e with line := some { line2 with n := 1, dG := 0 } }
    let p := z.withZone 1 [markAt .head 1 0 (some 5)]
    (∀ s ∈ [e, v, f, z, threaded 2 { state := .rolling, coil := 6 } z, p, one],
      s.level = .run ∧ s.trip.latch = false ∧ (s.link.stations.get 1).state = .present ∧ s.tracker.raised = [] ∧ 1 ≤ s.n ∧
      ((s.thread 1).state = .vacant ∨ (s.thread 1).state = .expecting) ∧ (s.thread 1).headNotice = none ∧
      (s.thread 1).releaseNotice = false ∧ (s.slotAt 1).isSome = true ∧ (s.sched 1).fOn ≤ 2000 ∧
      s.lineCopy.nDb ≤ min ((s.thread 1).onRun + 1) 4) ∧
      (e.thread 1).state = .expecting ∧ (v.thread 1).state = .vacant ∧ e.marksQueued < 256 ∧ ¬f.marksQueued < 256 ∧
      0 < e.zoneLen 1 ∧ (z.zone 1 = [] ∧ z.zoneLen 1 = 0 ∧ z.marksQueued < 256 ∧ 2 ≤ z.n) ∧
      (p.zone 1 ≠ [] ∧ p.zoneLen 1 = 0 ∧ p.marksQueued < 256 ∧ 2 ≤ p.n) ∧
      (one.zone 1 = [] ∧ one.zoneLen 1 = 0 ∧ one.n = 1) := by
  decide +kernel

/-- R11: a HEAD cut into a zone 1 of no length is at the entry of stand 2 at once, also behind a mark held there. -/
theorem test_head_arrives_at_once_in_a_zone_of_no_length :
    let z := { threaded 1 { state := .expecting, coil := 7, onRun := 1 } mill with
      line := some { line2 with stands := line2.stands.set 1 (stand 1 0) } }
    let t := fun s => after (.loadOn 0 1 2000) s
    ((t z).zone 1).map (fun m => (m.kind, m.pos, m.hold)) = [(.head, 0, some 0)] ∧ (t z).trip.latch = false ∧
      ((t (z.withZone 1 [markAt .body 1 0 (some 5)])).zone 1).map (fun m => (m.kind, m.hold)) =
        [(.body, some 5), (.head, some 0)] ∧
      ((t (threaded 2 { state := .rolling, coil := 6 } z)).trip.causes.map fun e => (e.cause, e.stand)) =
        [(.coilOverlap, 2)] := by decide +kernel

/-- R11: the reply that confirms a bite at stand 1 does not count a running generator down: it is loaded afresh, and no BODY
is cut before the HEAD. -/
theorem test_the_biting_reply_counts_nothing_down :
    let s := { threaded 1 { state := .expecting, coil := 8, onRun := 1 } bitten with
      tracker := { (threaded 1 { state := .expecting, coil := 8, onRun := 1 } bitten).tracker with
        gen := { running := true, base := 1000000, count := 1 } } }
    let t := trackerWork 1 2000 9850 (some 1000) s
    (t.zone 1).map (fun m => (m.kind, m.coil)) = [(.head, 7), (.head, 8)] ∧ t.tracker.gen.count = 1000000 ∧
      ((trackerWork 1 0 9850 (some 1000) s).zone 1).map Mark.kind = [.head, .body] := by decide +kernel

/-- The mill with a third stand, at no distance after stand 2. -/
def short : State := { mill with line := some { line2 with n := 3 } }

/-- A HEAD at the front of zone 1, held, W_early short of the end, and 1 µm farther off, with nothing behind it, with a BODY, a
TAIL or a HEAD piled at the end, and with a TAIL that is not; stand 2 EXPECTING, or VACANT with and without a head notice. -/
theorem witness_LoadOnBitesOrTripsDownstream :
    let s := fun (ms : List Mark) (t : Threading) => (threaded 2 t mill).withZone 1 ms
    let e : Threading := { state := .expecting, coil := 7, onRun := 1 }
    let head := markAt .head 1 1000000 (some 5)
    let body := markAt .body 1 1000000
    (∀ x ∈ [s [head] e, s [markAt .head 1 990000] e, s [head, body, markAt .tail 1 1000000] e,
        s [head, body, markAt .head 1 1000000] e, s [head, body, markAt .tail 1 999999] e,
        s [head] { onRun := 1, headNotice := some 7 }, s [markAt .head 1 989999] e, s [body] e,
        s [markAt .head 1 0] { onRun := 1 }, (threaded 2 e short).withZone 1 [head, body]],
      x.level = .run ∧ x.trip.latch = false ∧ (x.link.stations.get 2).state = .present ∧ x.tracker.raised = [] ∧ x.n ≤ 8 ∧
        2 ≤ x.n ∧ (x.slotAt 2).isSome = true ∧
        (x.sched 2).fOn ≤ 2000 ∧ x.lineCopy.nDb ≤ min ((x.thread 2).onRun + 1) 4 ∧ (2 < x.n ∨ x.zone 2 ≠ [] ∨ 0 < x.zoneLen 2) ∧
        x.zoneLen 1 = 1000000) ∧
      (2 < short.n ∧ short.zoneLen 2 = 0 ∧ short.zone 2 = []) ∧
      (head.thick.length = 2 - 1 ∧ body.kind = .body ∧ body.thick.length = 2 - 1 ∧ body.pos = 1000000) ∧
      mill.lineCopy.wEarly = 10 ∧ 1000000 - 990000 ≤ 10 * 1000 ∧ 10 * 1000 < 1000000 - 989999 := by decide +kernel

/-- R18, R34: the BODY piled behind a HEAD passes with it, a TAIL behind them is held and the stand is TAILING at once, and a
VACANT stand with a head notice bites. -/
theorem test_bite_takes_what_is_piled_behind_the_head :
    let s := fun (ms : List Mark) (t : Threading) => after (.loadOn 0 2 2000) ((threaded 2 t mill).withZone 1 ms)
    let head := markAt .head 1 1000000 (some 5)
    let t := s [head, markAt .body 1 1000000, markAt .tail 1 1000000] { state := .expecting, coil := 7, onRun := 1 }
    (t.thread 2).state = .tailing ∧ (t.zone 2).map (fun m => (m.kind, m.pos)) = [(.head, 0), (.body, 0)] ∧
      (t.zone 1).map (fun m => (m.kind, m.hold)) = [(.tail, some 0)] ∧
      ((s [head] { onRun := 1, headNotice := some 7 }).thread 2).state = .biting := by decide +kernel

/-- R15, R16: what passes stand 2 at a bite into a zone of no length is at stand 3 at once, and a BODY that could go on there
waits behind its HEAD. -/
theorem test_bite_before_a_zone_of_no_length :
    let s := fun third : Threading => after (.loadOn 0 2 2000) ((threaded 3 third (threaded 2
      { state := .expecting, coil := 7, onRun := 1 } short)).withZone 1 [markAt .head 1 1000000 (some 5), markAt .body 1 1000000])
    ((s {}).zone 2).map (fun m => (m.kind, m.hold)) = [(.head, some 0), (.body, some 0)] ∧ (s {}).trip.latch = false ∧
      ((s { state := .rolling, coil := 6 }).trip.causes.map fun e => (e.cause, e.stand)) = [(.coilOverlap, 3)] := by
  decide +kernel

/-- Stand 1 ROLLING, with room and with the pool full. Stand 2 TAILING with a TAIL at the front of zone 1, held, W_early short
of the end, and 1 µm farther off; ROLLING with and without a release notice; a HEAD piled behind the TAIL. Upstream, a HEAD at
stand 3 of a longer line, or a busy or a vacant stand 1. -/
theorem witness_LoadOffReleasesOrTrips :
    let r := threaded 1 { bitten.thread 1 with state := .rolling, offRun := 1 } bitten
    let p := threaded 1 { bitten.thread 1 with state := .rolling, offRun := 1 } fullPool
    let s := fun (ms : List Mark) (st : ThreadState) (notice : Bool) =>
      (threaded 2 { state := st, coil := 7, offRun := 1, releaseNotice := notice } mill).withZone 1 ms
    let tail := markAt .tail 1 1000000 (some 5)
    (∀ x ∈ [r, p], x.level = .run ∧ x.trip.latch = false ∧ (x.link.stations.get 1).state = .present ∧ x.tracker.raised = [] ∧ (x.thread 1).state.loaded = true ∧
        (x.slotAt 1).isSome = true ∧ 999 < (x.sched 1).fOff ∧ x.lineCopy.nDb ≤ min ((x.thread 1).offRun + 1) 4) ∧
      (r.marksQueued < 256 ∧ 256 ≤ p.marksQueued) ∧
      (∀ x ∈ [s [tail] .tailing false, s [markAt .tail 1 990000] .tailing false, s [tail] .rolling true,
          s [tail, markAt .head 1 1000000] .tailing false, s [markAt .tail 1 989999] .tailing false,
          s [tail] .rolling false, threaded 1 { state := .rolling, coil := 8 } (s [tail] .tailing false),
          (threaded 2 { state := .tailing, coil := 7, offRun := 1 } short).withZone 1 [tail]],
        x.level = .run ∧ x.trip.latch = false ∧ (x.link.stations.get 2).state = .present ∧ x.tracker.raised = [] ∧ x.n ≤ 8 ∧
          (x.slotAt 2).isSome = true ∧
          999 < (x.sched 2).fOff ∧ x.lineCopy.nDb ≤ min ((x.thread 2).offRun + 1) 4 ∧
          (2 < x.n ∨ x.zone 2 ≠ [] ∨ 0 < x.zoneLen 2) ∧ x.zoneLen 1 = 1000000) ∧
      mill.lineCopy.wEarly = 10 ∧ 1000000 - 990000 ≤ 10 * 1000 ∧ 10 * 1000 < 1000000 - 989999 ∧
      ((s [tail] .tailing false).thread 1).state ∉ [ThreadState.expecting, .biting, .rolling] := by decide +kernel

/-- R19, R39: after a release the stand expects the coil of the HEAD that stood behind the TAIL, which is held at its entry. -/
theorem test_release_leaves_the_head_behind_the_tail :
    let s := (threaded 2 { state := .rolling, coil := 7, offRun := 1, releaseNotice := true } mill).withZone 1
      [markAt .tail 1 1000000 (some 5), { markAt .head 1 1000000 with coil := 8 }]
    let t := after (.loadOff 0 2 999) s
    (t.thread 2).state = .expecting ∧ (t.thread 2).coil = 8 ∧ (t.zone 2).map Mark.kind = [.tail] ∧
      (t.zone 1).map (fun m => (m.kind, m.hold)) = [(.head, some 0)] := by decide +kernel

/-- A release at stand 3 with a HEAD in zone 1. -/
theorem witness_LoadOffReleasesOrTrips_head_upstream :
    let s := ((threaded 3 { state := .tailing, coil := 4417, lockMade := true, offRun := 1 } mill7).withZone 1
      [{ id := 9, coil := 4418, tag := some .a, kind := .head, pos := 0, thick := [500] }]).withZone 2
      [{ id := 8, coil := 4417, tag := some .a, kind := .tail, pos := 5800000, thick := [500, 500], hold := some 0 }]
    (s.level = .run ∧ s.trip.latch = false ∧ (s.link.stations.get 3).state = .present ∧ s.n ≤ 8 ∧ (s.slotAt 3).isSome = true ∧ 0 < (s.sched 3).fOff ∧
      s.lineCopy.nDb ≤ min ((s.thread 3).offRun + 1) 4) ∧ (s.zone 1).map Mark.kind = [.head] ∧ 1 < 3 - 1 ∧
      (s.zone 2).map Mark.kind = [.tail] ∧ 0 < s.zoneLen 3 := by decide +kernel

/-- A BITING stand at its second reply, with and without a release notice, and a TAILING one. -/
theorem witness_LockOnCapturesTheThickness :
    let b := threaded 1 { bitten.thread 1 with lockCount := 1 } bitten
    let n := threaded 2 { state := .biting, coil := 7, lockCount := 1, releaseNotice := true } bitten
    let t := threaded 2 { state := .tailing, coil := 7, lockCount := 1, offRun := 3 } bitten
    (∀ x ∈ [(b, 1), (n, 2), (t, 2)],
      x.1.level = .run ∧ x.1.trip.latch = false ∧ (x.1.link.stations.get x.2).state = .present ∧ x.1.tracker.raised = [] ∧
        x.1.n ≤ 8 ∧ x.2 ≤ x.1.n ∧
        ((x.1.thread x.2).state = .biting ∨ (x.1.thread x.2).state = .tailing) ∧ (x.1.thread x.2).lockMade = false ∧
        (x.1.sched x.2).nLock ≤ (x.1.thread x.2).lockCount + 1 ∧ ¬1000 < (x.1.sched x.2).fOff ∧ 0 < x.1.lineCopy.nDb) := by
  decide +kernel

/-! ### Witnesses: thickness, references and moves -/

/-- Each move with its order in flight, at the bound of its test: the tolerance and the second good reply, the calibration
force, 200 µm below S_open, and T_move. -/
theorem witness_MovesEndAsTheirRulesSay :
    let preset := moving (.preset 3000 20 900 2) mill
    let opening := fun p => moving (.calOpen 900 1000 p 102300) mill
    (∀ s ∈ [preset, calibrating, opening .completed, opening (.aborted .order)],
      Memory.wf s.exm = true ∧ s.orders.inFlight.get 1 = some 8192 ∧ s.level = .run ∧
        (s.link.stations.get 1).state = .present) ∧
      ((quiet .unknown preset).link.stations.get 1).state ≠ .present ∧
      ((millAt .configure).level ≠ .run ∧ (millAt .configure).level ≠ .loopback) ∧
      ((3020 : Int) - 3000).natAbs ≤ 20 ∧ 2 ≤ 2 ∧ ((preset.gap.get 1).move = .preset 3000 20 900 2) ∧
      (calibrating.lineCopy.fCal = 1500 ∧ ((moving (.calClose 900 1000 1 102300) mill).gap.get 1).move = .calClose 900 1000 1 102300) ∧
      ((opening .completed).gap.get 1).move = .calOpen 900 1000 .completed 102300 ∧
      (mill.lineCopy.sOpen : Int) - 200 ≤ 49800 ∧ mill.lineCopy.tMove ≤ (mill.clock + 999900 - 900).toNat := by
  decide +kernel

/-- LOOKUP at a boundary; HELD at the boundary plus TH of the band above, below the band's own, and between; a modulus above
0. -/
theorem witness_EstimatesFollowBandAndStretch :
    let held : Estimate := { idleEstimate with mode := .held, band := 4 }
    (mill.est.get 1).table = some table ∧ (mill.est.get 1).mode = .lookup ∧ table.failure = none ∧
      (held.mode = .held ∧ held.band ≤ 7 ∧ held.table = some table) ∧
      table.boundary 5 + table.th ≤ 20500 ∧ 15999 < table.boundary held.band ∧
      ((∀ j ≤ 7, held.band < j → 20499 < table.boundary j + table.th) ∧ table.boundary held.band ≤ 20499) ∧
      0 < table.modulus 4 := by decide +kernel

/-- GAP_OPEN; DRIVE_STOP with the base known and unknown; no move with the base unknown, without a slot, and with both; and a
preset before its time limit. -/
theorem witness_ReferencesFollowTheFirstCase :
    let stop := { mill with trip := { mill.trip with actions := PerStand.all { driveStop := true } } }
    let unknown := fun s : State => { s with gap := s.gap.set 1 {} }
    let preset := moving (.preset 3000 20 900 2) mill
    (tripped.trip.actions.get 1).gapOpen = true ∧
      ((stop.trip.actions.get 1).gapOpen = false ∧ (stop.trip.actions.get 1).driveStop = true ∧
        (stop.gap.get 1).baseKnown = true ∧ ((unknown stop).gap.get 1).baseKnown = false) ∧
      (mill.trip.actions.get 1 = {} ∧ (mill.gap.get 1).move = .none ∧ (mill.gap.get 1).baseKnown = true ∧
        (mill.slotAt 1).isSome = true ∧ (mill.sched 1).sMin ≤ (mill.sched 1).sMax) ∧
      (((unknown mill).gap.get 1).baseKnown = false ∧ mill.slotAt 3 = none) ∧
      (preset.gap.get 1).move = .preset 3000 20 900 2 ∧ (preset.clock - 900).toNat < preset.lineCopy.tMove := by
  decide +kernel

/-- R112, R113, R117: at the preparation at which a preset times out the base stands, also at a stand that is ROLLING, whose
terms are then assembled from the next preparation on. -/
theorem test_a_preset_timed_out_is_prepared_for_as_hold :
    let s := { moving (.preset 3000 20 900 0) (threaded 1 { state := .rolling, coil := 7 } mill) with clock := 1000900 }
    let t := prepare 1 s
    (t.gap.get 1).move = .none ∧ (t.gap.get 1).base = 1000 ∧ (t.gap.get 1).pRef = 103300 ∧ (t.gap.get 1).holdFlag = false ∧
      ((prepare 1 t).gap.get 1).base ≠ 1000 := by decide +kernel

/-- R25, R191: the distinct coil count of a zone entry is its byte at offset 5. -/
theorem test_coil_count_is_a_byte :
    (ZoneSummary.bytes (zoneSummary [markAt .head 1 7, { markAt .tail 1 3 with coil := 6 }])).getD 5 0 = 2 := by decide +kernel

/-- HOLD; CAL_CLOSE with its travel at C_max and past it; CAL_OPEN short of S_open by R_cal and by more; each move, 1 µs before
its time limit and at it, with its order in flight, and with an ABORTED detail pending; the preset also at a ROLLING stand. -/
theorem witness_MovePreparationsRampAndTimeOut :
    let m := fun (base : Int) (mv : Move) => moving mv { mill with gap := mill.gap.set 1 { baseKnown := true, base := base } }
    let close := fun base => m base (.calClose 900 1000 0 102300)
    let late := fun mv : Move => { m 0 mv with clock := 1000900 }
    (mill.trip.actions.get 1 = {} ∧ ((m 0 (.hold 3000)).gap.get 1).move = .hold 3000) ∧
      (1000 - (((close 910).gap.get 1).base - mill.lineCopy.rCal) ≤ mill.lineCopy.cMax ∧
        (mill.lineCopy.cMax : Int) < 1000 - (((close 909).gap.get 1).base - mill.lineCopy.rCal)) ∧
      (mill.lineCopy.sOpen : Int) - 49990 ≤ mill.lineCopy.rCal ∧ ¬(mill.lineCopy.sOpen : Int) - 49989 ≤ mill.lineCopy.rCal ∧
      ((1000899 : Clock) - 900).toNat < mill.lineCopy.tMove ∧
      (late (.preset 3000 20 900 0)).thread 1 = {} ∧
      (∀ s ∈ [late (.preset 3000 20 900 0), threaded 1 { state := .rolling, coil := 7 } (late (.preset 3000 20 900 0)),
          late (.calClose 900 0 0 102300), late (.calOpen 900 0 .completed 102300)],
        Memory.wf s.exm = true ∧ s.orders.inFlight.get 1 = some 8192 ∧ s.lineCopy.tMove ≤ (s.clock - 900).toNat) ∧
      abortedAs 3 1 (late (.preset 3000 20 900 0)) = some (3, 1000) ∧
      abortedAs 3 1 (late (.calOpen 900 0 (.aborted .equipment) 102300)) ≠ abortedAs 3 1 (late (.calOpen 900 0 .completed 102300)) := by
  decide +kernel

/-- An error at DB and one past it, in both modes; a mark of slot A at stand N with its sample within and past DB_mon. -/
theorem witness_CorrectionTermsIntegrateTheirError :
    let s := fun (mode h hx : Nat) =>
      { mill with
        est := mill.est.set 2 { idleEstimate with hEst := h }, gauge := { held := true, hx := hx },
        store := { mill.store with slotA := { mill.store.slotA with schedule := some { schedule with
          stands := schedule.stands.set 2 { standSchedule with agcMode := mode } } } } }
    ((s 0 2395 0).sched 2).agcMode ≤ 1 ∧ ((s 1 5 0).sched 2).agcMode ≤ 1 ∧
      (agcError (s 0 2395 0) 2).natAbs ≤ ((s 0 2395 0).sched 2).db ∧
      ((s 0 2394 0).sched 2).db < (agcError (s 0 2394 0) 2).natAbs ∧
      (agcError (s 1 5 0) 2).natAbs ≤ ((s 1 5 0).sched 2).db ∧ ((s 1 6 0).sched 2).db < (agcError (s 1 6 0) 2).natAbs ∧
      2 = mill.n ∧ (mill.store.slot .a).schedule = some schedule ∧
      ((schedule.stands.get 2).hTarget : Int) - (s 0 0 2405).gauge.hx = -5 ∧
      ((schedule.stands.get 2).hTarget : Int) - (s 0 0 2406).gauge.hx = -6 ∧ schedule.dbMon = 5 := by decide +kernel

end Sys2Proof.Tests
end

/-! Proofs for the thickness estimation: the band (R49, R50), the stretch (R51), and the estimate with its clamp (R52). -/

namespace Sys2Proof.Machine

/-! ### Valid modulus tables (R46) -/

theorem firstFailure_eq_none {α : Type} (checks : List (Bool × α)) :
    firstFailure checks = none ↔ ∀ c ∈ checks, c.1 = true := by
  induction checks with
  | nil => simp [firstFailure]
  | cons c rest ih =>
    obtain ⟨ok, x⟩ := c
    cases ok <;> simp [firstFailure, ih]

/-- Check 2 of R46: each band of a valid table is wider than TH. -/
theorem ModulusTable.boundary_add_th_lt_succ {t : ModulusTable} (valid : t.failure = none) {j : Nat} (hj : j < 7) :
    t.boundary j + t.th < t.boundary (j + 1) := by
  have hcheck := (firstFailure_eq_none t.checks).mp valid
    (inRange (t.boundary (j + 1)) 1 50000 && decide (t.boundary j + t.th < t.boundary (j + 1)), j + 1)
    (List.mem_append_left _ (List.mem_append_right _ (List.mem_map.mpr ⟨j + 1, by simp; omega, rfl⟩)))
  simp only [Bool.and_eq_true, decide_eq_true_eq] at hcheck
  exact hcheck.2

/-- The boundaries of a valid table do not fall. -/
theorem ModulusTable.boundary_le_boundary {t : ModulusTable} (valid : t.failure = none) {i j : Nat} (hij : i ≤ j)
    (hj : j ≤ 7) : t.boundary i ≤ t.boundary j := by
  induction j, hij using Nat.le_induction with
  | base => exact le_rfl
  | succ j _ ih =>
    have hstep := boundary_add_th_lt_succ valid (j := j) (by omega)
    have := ih (by omega)
    omega

/-! ### Plain lookup (R49) -/

theorem lookupFrom_eq_findGreatest (t : ModulusTable) (f n : Nat) :
    lookupFrom t f n = Nat.findGreatest (fun j => t.boundary j ≤ f) n := by
  induction n with
  | zero => rfl
  | succ n ih => rw [lookupFrom, ih, Nat.findGreatest_succ]

/-- Step 2 of R50 ends where a lookup downward from the same band does. -/
theorem bandDown_eq_lookupFrom (t : ModulusTable) (f b : Nat) : bandDown t f b = lookupFrom t f b := by
  induction b with
  | zero => rfl
  | succ b ih =>
    rw [bandDown, lookupFrom, ih]
    by_cases h : t.boundary (b + 1) ≤ f
    · rw [if_neg (by omega), if_pos h]
    · rw [if_pos (by omega), if_neg h]

theorem lookupFrom_le (t : ModulusTable) (f n : Nat) : lookupFrom t f n ≤ n :=
  lookupFrom_eq_findGreatest t f n ▸ Nat.findGreatest_le n

/-- Band 0 is always a candidate, so the band that a lookup gives is always reached. -/
theorem boundary_lookupFrom_le (t : ModulusTable) (f n : Nat) : t.boundary (lookupFrom t f n) ≤ f :=
  lookupFrom_eq_findGreatest t f n ▸
    Nat.findGreatest_spec (P := fun j => t.boundary j ≤ f) (Nat.zero_le n) (Nat.zero_le f)

theorem le_lookupFrom {t : ModulusTable} {f n j : Nat} (hj : j ≤ n) (reached : t.boundary j ≤ f) :
    j ≤ lookupFrom t f n :=
  lookupFrom_eq_findGreatest t f n ▸ Nat.le_findGreatest hj reached

/-! ### The band in HELD (R50) -/

theorem bandDown_of_reached {t : ModulusTable} {f b : Nat} (reached : t.boundary b ≤ f) : bandDown t f b = b := by
  rw [bandDown_eq_lookupFrom]
  exact (lookupFrom_le t f b).antisymm (le_lookupFrom le_rfl reached)

/-- Step 1 of R50, given steps enough to reach band 7: the band does not fall, a band newly entered is passed by TH, and the
next is not. -/
theorem bandUp_spec (t : ModulusTable) (f steps b : Nat) (hb : b ≤ 7) (enough : 7 ≤ b + steps) :
    b ≤ bandUp t f steps b ∧ bandUp t f steps b ≤ 7 ∧
      (b < bandUp t f steps b → t.boundary (bandUp t f steps b) + t.th ≤ f) ∧
      (bandUp t f steps b < 7 → f < t.boundary (bandUp t f steps b + 1) + t.th) := by
  induction steps generalizing b with
  | zero => simp only [bandUp]; omega
  | succ steps ih =>
    by_cases hup : b < 7 ∧ t.boundary (b + 1) + t.th ≤ f
    · rw [bandUp, if_pos hup]
      obtain ⟨hle, h7, hentered, hnext⟩ := ih (b + 1) (by omega) (by omega)
      refine ⟨by omega, h7, fun _ => ?_, hnext⟩
      rcases hle.eq_or_lt with heq | hlt
      · rw [← heq]; exact hup.2
      · exact hentered hlt
    · rw [bandUp, if_neg hup]; omega

theorem bandUp_le_seven (t : ModulusTable) (f : Nat) {b : Nat} (hb : b ≤ 7) : bandUp t f 7 b ≤ 7 :=
  (bandUp_spec t f 7 b hb (by omega)).2.1

/-- Where the force passes no higher boundary by TH, step 1 moves nothing. -/
theorem bandUp_eq_self {t : ModulusTable} {f b : Nat} (hb : b ≤ 7)
    (below : ∀ j, b < j → j ≤ 7 → f < t.boundary j + t.th) : bandUp t f 7 b = b := by
  obtain ⟨hle, h7, hentered, -⟩ := bandUp_spec t f 7 b hb (by omega)
  rcases hle.eq_or_lt with heq | hlt
  · exact heq.symm
  · have := hentered hlt
    have := below _ hlt h7
    omega

theorem heldBand_le_seven (t : ModulusTable) (f : Nat) {b : Nat} (hb : b ≤ 7) : heldBand t f b ≤ 7 := by
  rw [heldBand, bandDown_eq_lookupFrom]
  exact (lookupFrom_le t f _).trans (bandUp_le_seven t f hb)

/-- A force that passes a higher boundary by TH moves the band to the largest one that it passes so. -/
theorem heldBand_of_rise {t : ModulusTable} {f b : Nat} (valid : t.failure = none) (hb : b ≤ 7)
    (rise : ∃ j, b < j ∧ j ≤ 7 ∧ t.boundary j + t.th ≤ f) :
    t.boundary (heldBand t f b) + t.th ≤ f ∧ ∀ j ≤ 7, t.boundary j + t.th ≤ f → j ≤ heldBand t f b := by
  obtain ⟨-, h7, hentered, hnext⟩ := bandUp_spec t f 7 b hb (by omega)
  have hlargest : ∀ j ≤ 7, t.boundary j + t.th ≤ f → j ≤ bandUp t f 7 b := by
    intro j hj hpassed
    by_contra hlt
    have hmono := ModulusTable.boundary_le_boundary valid (i := bandUp t f 7 b + 1) (j := j) (by omega) hj
    have := hnext (by omega)
    omega
  obtain ⟨j, hbj, hj, hpassed⟩ := rise
  have hup := hentered (hbj.trans_le (hlargest j hj hpassed))
  have hheld : heldBand t f b = bandUp t f 7 b := bandDown_of_reached (by omega)
  rw [hheld]
  exact ⟨hup, hlargest⟩

/-- A force below the band's own boundary moves the band to the largest one that it reaches. -/
theorem heldBand_of_fall {t : ModulusTable} {f b : Nat} (valid : t.failure = none) (hb : b ≤ 7)
    (fall : f < t.boundary b) :
    t.boundary (heldBand t f b) ≤ f ∧ ∀ j ≤ 7, t.boundary j ≤ f → j ≤ heldBand t f b := by
  have hmono : ∀ j, b ≤ j → j ≤ 7 → t.boundary b ≤ t.boundary j := fun j =>
    ModulusTable.boundary_le_boundary valid
  have hup : bandUp t f 7 b = b := bandUp_eq_self hb fun j hbj hj => by
    have := hmono j hbj.le hj
    omega
  rw [heldBand, hup, bandDown_eq_lookupFrom]
  refine ⟨boundary_lookupFrom_le t f b, fun j hj reached => le_lookupFrom ?_ reached⟩
  by_contra hbj
  have := hmono j (by omega) hj
  omega

/-- Between its own boundary and the next one plus TH the force keeps the band. -/
theorem heldBand_of_between {t : ModulusTable} {f b : Nat} (hb : b ≤ 7)
    (below : ∀ j, b < j → j ≤ 7 → f < t.boundary j + t.th) (reached : t.boundary b ≤ f) : heldBand t f b = b := by
  rw [heldBand, bandUp_eq_self hb below, bandDown_of_reached reached]

/-! ### The stretch (R51) and the clamp (R52) -/

/-- Rounding to nearest with ties up, without division. -/
theorem stretchOf_bounds (t : ModulusTable) (b f : Nat) (hm : 0 < t.modulus b) :
    stretchOf t b f * t.modulus b ≤ f * 1000 + t.modulus b / 2 ∧
      f * 1000 + t.modulus b / 2 < (stretchOf t b f + 1) * t.modulus b :=
  ⟨Nat.div_mul_le_self _ _, (Nat.lt_mul_div_succ _ hm).trans_eq (mul_comm ..)⟩

theorem clampInt_eq_max_min {x lo hi : Int} (h : lo ≤ hi) : clampInt x lo hi = max lo (min hi x) := by
  unfold clampInt
  split
  · omega
  · split <;> omega

/-! ### The estimate at a reply (R47) -/

section
variable {e : Estimate} {t : ModulusTable}

theorem Estimate.inUse_of_table (h : e.table = some t) : e.inUse = t := by rw [inUse, h]; rfl

theorem Estimate.chooseBand_lookup (f : Nat) (h : e.mode = .lookup) : e.chooseBand f = plainLookup e.inUse f := by
  rw [chooseBand, h]

theorem Estimate.chooseBand_held (f : Nat) (h : e.mode = .held) : e.chooseBand f = heldBand e.inUse f e.band := by
  rw [chooseBand, h]

/-- The fields that a reply leaves, and the three it records. -/
theorem Estimate.atReply_frame (e : Estimate) (p f : Nat) :
    e.atReply p f = { e with
      p := p, f := f, gapAct := (p : Int) - e.z, band := (e.atReply p f).band, stretch := (e.atReply p f).stretch,
      hEst := (e.atReply p f).hEst, clamped := (e.atReply p f).clamped } := rfl

theorem Estimate.atReply_band (p f : Nat) : (e.atReply p f).band = e.chooseBand f := rfl

theorem Estimate.atReply_stretch (p f : Nat) :
    (e.atReply p f).stretch = stretchOf e.inUse (e.atReply p f).band f := rfl

theorem Estimate.atReply_hEst (p f : Nat) :
    ((e.atReply p f).hEst : Int) = max 0 (min 65535 ((e.atReply p f).gapAct + (e.atReply p f).stretch - e.zst)) := by
  rw [← clampInt_eq_max_min (by omega)]
  refine Int.toNat_of_nonneg ?_
  rw [clampInt_eq_max_min (by omega)]
  exact le_max_left ..

theorem Estimate.atReply_clamped (p f : Nat) :
    (e.atReply p f).clamped = true ↔
      (e.atReply p f).gapAct + (e.atReply p f).stretch - e.zst < 0 ∨
        65535 < (e.atReply p f).gapAct + (e.atReply p f).stretch - e.zst :=
  decide_eq_true_iff

end

theorem estimateReply_est_same {k : Nat} (p f : Nat) (s : State) (hk : 1 ≤ k ∧ k ≤ 8) :
    (estimateReply k p f s).est.get k = (s.est.get k).atReply p f :=
  PerStand.get_set_same _ _ _ hk

/-- The image of a stand publishes its estimation record (R177). -/
theorem writeImage_publishes_estimate {k : Nat} (late : Bool) (s : State) (hk : 1 ≤ k ∧ k ≤ 8) :
    ∃ i, ((writeImage k late s).images.get k).shown = some i ∧ i.band = (s.est.get k).band ∧
      i.stretch = (s.est.get k).stretch ∧ i.hEst = (s.est.get k).hEst ∧ i.clamped = (s.est.get k).clamped ∧
      i.gapAct = (s.est.get k).gapAct :=
  ⟨_, congrArg ImageArea.shown (PerStand.get_set_same _ _ _ hk), rfl, rfl, rfl, rfl, rfl⟩

/-- Settles O56: the estimate is `Estimate.atReply`, whose band is a lookup in LOOKUP and, in HELD, rises, falls or stays. -/
theorem estimatesFollowBandAndStretch : Obligations.EstimatesFollowBandAndStretch := by
  unfold Obligations.EstimatesFollowBandAndStretch
  intro k p f s tab e r hk he htab hr
  have hat : r = e.atReply p f := by rw [hr, he, estimateReply_est_same p f s hk]
  have hinUse : e.inUse = tab := Estimate.inUse_of_table htab
  have hest : estimateReply k p f s = { s with est := s.est.set k r } := by rw [hat, he]; rfl
  have hlookup : e.mode = .lookup → r.band = lookupFrom tab f 7 := fun hmode => by
    rw [hat, Estimate.atReply_band, Estimate.chooseBand_lookup f hmode, hinUse, plainLookup]
  have hheld : e.mode = .held → r.band = heldBand tab f e.band := fun hmode => by
    rw [hat, Estimate.atReply_band, Estimate.chooseBand_held f hmode, hinUse]
  have hstretch : r.stretch = stretchOf tab r.band f := by rw [hat, Estimate.atReply_stretch, hinUse]
  refine ⟨hest, hat ▸ e.atReply_frame p f, fun hmode => ?lookup, fun hmode valid hb => ?held, fun hm => ?stretch,
    hat ▸ Estimate.atReply_hEst p f, hat ▸ Estimate.atReply_clamped p f, fun late => ?image⟩
  case lookup =>
    rw [hlookup hmode]
    exact ⟨lookupFrom_le tab f 7, boundary_lookupFrom_le tab f 7, fun _ => le_lookupFrom⟩
  case held =>
    rw [hheld hmode]
    exact ⟨heldBand_le_seven tab f hb, heldBand_of_rise valid hb, heldBand_of_fall valid hb, heldBand_of_between hb⟩
  case stretch =>
    rw [hstretch]
    exact stretchOf_bounds tab r.band f hm
  case image =>
    rw [hr]
    exact writeImage_publishes_estimate late _ hk

end Sys2Proof.Machine

/-! Proofs for the gap reference's correction terms: rounding (R2), AGC (R76) and MON (R66). -/

namespace Sys2Proof.Machine

/-! ### Rounding and limiting (R2) -/

/-- round256 without division: `n` is the magnitude rounded, and the sign is that of `x`. -/
theorem round256_eq_of_quotient {x : Int} {n : Nat} (lower : 256 * n ≤ x.natAbs + 128)
    (upper : x.natAbs + 128 < 256 * (n + 1)) : round256 x = if x < 0 then -(n : Int) else n := by
  have hn : (x.natAbs + 128) / 256 = n := by omega
  rw [round256, hn]
  rcases lt_trichotomy x 0 with neg | rfl | pos
  · rw [Int.sign_eq_neg_one_of_neg neg, if_pos neg, neg_one_mul]
  · have hzero : n = 0 := by simpa using hn.symm
    simp [hzero]
  · rw [Int.sign_eq_one_of_pos pos, if_neg pos.not_gt, one_mul]

/-- A gain is not negative, so the rounded correction has the sign of the error; with gain 0 it is 0. -/
theorem round256_mul_gain {err : Int} {gain n : Nat} (lower : 256 * n ≤ (err * gain).natAbs + 128)
    (upper : (err * gain).natAbs + 128 < 256 * (n + 1)) :
    round256 (err * gain) = if err < 0 then -(n : Int) else n := by
  rw [round256_eq_of_quotient lower upper]
  rcases gain.eq_zero_or_pos with rfl | pos
  · have hzero : n = 0 := by rw [Nat.cast_zero, mul_zero] at lower; omega
    simp [hzero]
  · have hsign : err * gain < 0 ↔ err < 0 := by rw [mul_neg_iff]; omega
    simp only [hsign]

theorem limit_eq_max_min (x : Int) (l : Nat) : limit x l = max (-(l : Int)) (min (l : Int) x) :=
  clampInt_eq_max_min (by omega)

/-! ### The update of AGC (R76) -/

section
variable {k : Nat} {s : State}

theorem agcUpdate_within_deadBand (h : (agcError s k).natAbs ≤ (s.sched k).db) : agcUpdate k s = s :=
  if_pos h

theorem agcUpdate_past_deadBand (h : (s.sched k).db < (agcError s k).natAbs) :
    agcUpdate k s = s.withRef k { s.gap.get k with
      agc := limit ((s.gap.get k).agc + round256 (agcError s k * (s.sched k).kg)) (s.sched k).agcLim } :=
  if_neg h.not_ge

end

/-! ### The update of MON (R66) -/

theorem State.scheduleOf_some {s : State} {x : Slot} {sc : Schedule} (h : (s.store.slot x).schedule = some sc) :
    s.scheduleOf (some x) = sc := by
  rw [scheduleOf, h, Option.getD_some]

/-- The error of a MON update: the target of stand N in the mark's slot less the sample (R66). -/
def monError (m : Mark) (s : State) : Int := (((s.scheduleOf m.tag).stands.get s.n).hTarget : Int) - s.gauge.hx

section
variable {m : Mark} {s : State}

theorem monUpdate_within_deadBand (h : (monError m s).natAbs ≤ (s.scheduleOf m.tag).dbMon) : monUpdate m s = s :=
  if_pos h

theorem monUpdate_past_deadBand (h : (s.scheduleOf m.tag).dbMon < (monError m s).natAbs) :
    monUpdate m s = s.withRef s.n { s.gap.get s.n with
      mon := limit ((s.gap.get s.n).mon + round256 (monError m s * (s.scheduleOf m.tag).km))
        (s.scheduleOf (s.slotAt s.n)).monLim } :=
  if_neg h.not_ge

end

/-- Settles O60: each update is its dead band test and one write of the term, whose rounding and limit are those of R2. -/
theorem correctionTermsIntegrateTheirError : Obligations.CorrectionTermsIntegrateTheirError := by
  unfold Obligations.CorrectionTermsIntegrateTheirError
  intro k s _
  refine ⟨fun err _ herr => ?agc, fun m x sc err hk htag hslot herr => ?mon⟩
  case agc =>
    obtain rfl : err = agcError s k := herr
    refine ⟨agcUpdate_within_deadBand, ?_⟩
    rintro _ past ⟨n, lower, upper, rfl⟩
    rw [agcUpdate_past_deadBand past, round256_mul_gain lower upper, limit_eq_max_min]
    rfl
  case mon =>
    have hsc : s.scheduleOf m.tag = sc := by rw [htag, State.scheduleOf_some hslot]
    subst hk hsc
    obtain rfl : err = monError m s := herr
    refine ⟨monUpdate_within_deadBand, ?_⟩
    rintro _ past ⟨n, lower, upper, rfl⟩
    rw [monUpdate_past_deadBand past, round256_mul_gain lower upper, limit_eq_max_min]
    rfl

end Sys2Proof.Machine

/-! Proofs for the journal: a processor write to JOURNAL_READ at the port and at the Journal Writer (R158, R175). -/

namespace Sys2Proof.Machine

section
variable {s : State} {v : Word}

/-! ### The report of a loss (R175) -/

/-- No LOST record falls due where none was lost, or where all 128 slots hold unread records. -/
theorem reportLoss_of_not_due (h : s.journal.lost = 0 ∨ 128 ≤ s.journal.unread) : reportLoss s = s :=
  if_neg (by omega)

theorem reportLoss_of_due (hlost : 0 < s.journal.lost) (hroom : s.journal.unread < 128) :
    reportLoss s =
      setAttention attnJournal { s with journal := { s.journal.append (lostRecord s) with lost := 0 } } :=
  if_pos ⟨hlost, hroom⟩

/-! ### The event of a write to JOURNAL_READ (R175) -/

theorem journalValueGood_iff : journalValueGood s v = true ↔ v.toNat < 256 ∧ (s.journal.w - v.setWidth 8).toNat ≤ 128 :=
  decide_eq_true_iff

theorem journalReadEvent_bad (h : 255 < v.toNat ∨ 128 < (s.journal.w - v.setWidth 8).toNat) :
    journalReadEvent v s = s :=
  if_neg (by rw [journalValueGood_iff]; omega)

theorem journalReadEvent_good (hv : v.toNat ≤ 255) (hroom : (s.journal.w - v.setWidth 8).toNat ≤ 128) :
    journalReadEvent v s = reportLoss { s with journal := { s.journal with r := v.setWidth 8 } } :=
  if_pos (journalValueGood_iff.mpr ⟨by omega, hroom⟩)

theorem journalReadEvent_moves (hv : v.toNat ≤ 255) (hroom : (s.journal.w - v.setWidth 8).toNat ≤ 128)
    (hquiet : s.journal.lost = 0 ∨ (s.journal.w - v.setWidth 8).toNat = 128) :
    journalReadEvent v s = { s with journal := { s.journal with r := v.setWidth 8 } } :=
  (journalReadEvent_good hv hroom).trans (reportLoss_of_not_due (hquiet.imp_right Eq.ge))

theorem journalReadEvent_reports (hv : v.toNat ≤ 255) (hroom : (s.journal.w - v.setWidth 8).toNat < 128)
    (hlost : 0 < s.journal.lost) :
    journalReadEvent v s = setAttention attnJournal { s with journal := {
      r := v.setWidth 8, w := s.journal.w + 1, lost := 0,
      slots := s.journal.slots.set (s.journal.w.toNat % 128) (some (lostRecord s)) } } :=
  (journalReadEvent_good hv hroom.le).trans (reportLoss_of_due hlost hroom)

theorem journalReadEvent_orders (v : Word) (s : State) : (journalReadEvent v s).orders = s.orders := by
  unfold journalReadEvent
  split
  · obtain ⟨j, a, hrest⟩ := reportLoss_rest { s with journal := { s.journal with r := v.setWidth 8 } }
    rw [hrest]
  · rfl

/-! ### The write at the port (R158) -/

/-- A write to a word that is not watched is no arrival (R166). -/
theorem arrivalEvent_of_not_watched {a : Nat} (h : s.orders.watched ≠ some a) : arrivalEvent a s = s :=
  if_neg fun watched => h watched.1

theorem portWrite_journalRead (hown : partOwned s journalReadAt = false) (hw : s.orders.watched ≠ some journalReadAt) :
    portWrite journalReadAt v s = journalReadEvent v { s with exm := s.exm.writeWord journalReadAt v } := by
  have hquiet := arrivalEvent_of_not_watched (a := journalReadAt)
    (s := journalReadEvent v { s with exm := s.exm.writeWord journalReadAt v }) (by rwa [journalReadEvent_orders])
  rw [portWrite, if_neg (by simp [hown])]
  simpa only [if_true] using hquiet

/-- JOURNAL_READ_WRITE is the write and its event at the Journal Writer, at the command's time. -/
theorem exec_journalReadWrite {dt : Clock} {t : State} (hown : partOwned s journalReadAt = false)
    (hw : s.orders.watched ≠ some journalReadAt)
    (hevent : journalReadEvent v { s with clock := s.clock + dt, exm := s.exm.writeWord journalReadAt v } = t) :
    exec (.journalReadWrite dt v) s = .next t.settled :=
  congrArg finish ((portWrite_journalRead (s := s.tick dt) hown hw).trans hevent)

/-- Either address of the word, odd or even, selects it at the port. -/
theorem exec_exmWrite_journalRead (dt : Clock) {a : Word} (ha : wordOffset a = journalReadAt) :
    exec (.exmWrite dt a v) s = exec (.journalReadWrite dt v) s := by
  change execExmWrite dt a v s = execJournalReadWrite dt v s
  rw [execExmWrite, execJournalReadWrite, ha]

end

/-- Settles O26: the command is the event at the Journal Writer on the state with the word written; a bad value leaves that
state, a good one moves the index and reports a loss where the new index leaves room. -/
theorem journalReadWriteMovesTheIndex : Obligations.JournalReadWriteMovesTheIndex := by
  unfold Obligations.JournalReadWriteMovesTheIndex
  rintro dt v s u room hmem hown hwatched rfl rfl
  exact ⟨Memory.readWord_writeWord _ _ _ hmem,
    fun _ => exec_exmWrite_journalRead dt,
    fun hbad => exec_journalReadWrite hown hwatched (journalReadEvent_bad hbad),
    fun hv hroom hquiet => exec_journalReadWrite hown hwatched (journalReadEvent_moves hv hroom hquiet),
    fun hv hroom hlost => exec_journalReadWrite hown hwatched (journalReadEvent_reports hv hroom hlost)⟩

end Sys2Proof.Machine

/-! Proofs for the machine's invariants that single records carry: the memory's form (R157), the journal's bounds (R172, R174),
the trip record (R130, R131), the pins (R134, R135, R143, R161), the zone queues (R4, R5, R24) and the copy (R163, R183). -/

namespace Sys2Proof.Machine

/-! ### Commands by what they request -/

/-- A request for a level answers the state its request leaves, the pins following. -/
theorem exec_levelRequest {P : State → Prop} {i : Instr} {s t : State} (h : exec i s = .next t)
    (requests : i.requestsLevel = true)
    (power : ∀ e, P (State.settled { State.reset with
      etripPin := e, trip := { etrip := e }, freeIndex := s.freeIndex, pending := s.pending }))
    (halt : ∀ dt, P (haltState (s.tick dt)).settled)
    (configure : ∀ dt, P (requestConfigure (s.tick dt)).settled)
    (loopback : ∀ dt, P (requestLoopback (s.tick dt)).settled)
    (run : ∀ dt, P (requestRun (s.tick dt)).settled) : P t := by
  cases i with
  | powerOn e => rw [exec_powerOn h]; exact power e
  | runLevelHalt dt => rw [exec_halt h]; exact halt dt
  | runLevelConfigure dt => rw [finish_next h]; exact configure dt
  | runLevelLoopback dt => rw [finish_next h]; exact loopback dt
  | runLevelRun dt => rw [finish_next h]; exact run dt
  | _ => cases requests

/-- A command that requests no level does elementary changes to a state that differs from the one before it in the clock, the
inputs, ATTENTION and ATTENTION_MASK alone. -/
theorem exec_work {i : Instr} {s t : State} (h : exec i s = .next t) (other : i.requestsLevel = false) :
    ∃ c low pin etrip a m v, v.settled = t ∧ Evolves (permitOf i s) { s with
      clock := c, resetLow := low, etripPin := pin, trip := { s.trip with etrip := etrip }, attention := a, mask := m } v := by
  by_cases direct : setsDirectly i = false
  · obtain ⟨v, hv, rfl⟩ := exec_done i s t direct h
    exact ⟨_, _, _, s.trip.etrip, _, _, v, rfl, hv⟩
  · cases i with
    | etripChange dt l =>
      obtain ⟨v, hv, rfl⟩ := exec_etripChange h (permitOf _ s)
      exact ⟨_, _, _, _, _, _, v, rfl, hv⟩
    | resetAsserted dt => exact ⟨_, _, _, s.trip.etrip, _, _, _, (exec_resetAsserted h).symm, .refl⟩
    | attentionWrite dt v => exact ⟨_, _, _, s.trip.etrip, _, _, _, (exec_attentionWrite h).symm, .refl⟩
    | attentionMaskWrite dt v => exact ⟨_, _, _, s.trip.etrip, _, _, _, (exec_maskWrite h).symm, .refl⟩
    | powerOn _ => cases other
    | runLevelHalt _ => cases other
    | _ => exact absurd rfl direct

/-- An invariant that elementary changes keep, whatever the permit, and that holds after power-on and HALT, every command keeps,
where the inputs, the enables and the pins do not bear on it. -/
theorem exec_keeps {P : State → Prop}
    (evolves : ∀ {p : Permit} {s t : State}, Evolves p s t → P s → P t)
    (inputs : ∀ (s : State) c low pin etrip a m, P s → P { s with
      clock := c, resetLow := low, etripPin := pin, trip := { s.trip with etrip := etrip }, attention := a, mask := m })
    (pins : ∀ s : State, P s → P s.settled)
    (power : ∀ e (s : State), P { State.reset with
      etripPin := e, trip := { etrip := e }, freeIndex := s.freeIndex, pending := s.pending })
    (halt : ∀ s : State, P s → P (haltState s))
    (i : Instr) (s t : State) (hs : P s) (h : exec i s = .next t) : P t := by
  by_cases requests : i.requestsLevel = true
  · have ticked : ∀ dt, P (s.tick dt) := fun dt => inputs s _ _ _ s.trip.etrip _ _ hs
    cases i with
    | powerOn e => rw [exec_powerOn h]; exact pins _ (power e s)
    | runLevelHalt dt => rw [exec_halt h]; exact pins _ (halt _ (ticked dt))
    | runLevelConfigure dt | runLevelLoopback dt | runLevelRun dt =>
      obtain ⟨v, hv, rfl⟩ := exec_done _ s t rfl h
      exact pins v (evolves hv (ticked dt))
    | _ => cases requests
  · obtain ⟨_, _, _, _, _, _, v, rfl, hv⟩ := exec_work h (by simpa using requests)
    exact pins v (evolves hv (inputs s _ _ _ _ _ _ hs))

/-- Settles O4: every elementary change of memory is a word written, and a word written keeps the form. -/
theorem stepKeepsMemoryForm : Obligations.StepKeepsMemoryForm :=
  step_keeps (P := memoryOk) (fun _ h => h) (fun _ _ h => h) <|
    exec_keeps Evolves.memory (fun _ _ _ _ _ _ _ h => h) (fun _ h => h) (fun _ _ => wf_reset) wf_haltMemory

theorem journalOk_new : (({} : Journal).unread ≤ 128 ∧ ({} : Journal).slots.length = 128 ∧ ({} : Journal).lost ≤ 65535) :=
  ⟨by decide, List.length_replicate, by decide⟩

/-- Settles O5: a record is appended below the bound alone, and the lost count stops at its own (R173, R174). -/
theorem stepKeepsJournalBounds : Obligations.StepKeepsJournalBounds :=
  step_keeps (P := journalOk) (fun _ h => h) (fun _ _ h => h) <|
    exec_keeps Evolves.journalOk (fun _ _ _ _ _ _ _ h => h) (fun _ h => h) (fun _ _ => journalOk_new) fun _ _ => journalOk_new

/-- A trip record with the latch clear and no cause. -/
theorem tripOk_of_no_causes {s : State} (hl : s.trip.latch = false) (hc : s.trip.causes = []) : tripOk s := by
  simp [tripOk, hl, hc]

/-- Settles O6: a cause is entered with the latch, once for its stand, while there is room (R130, R131). -/
theorem stepKeepsTripRecord : Obligations.StepKeepsTripRecord :=
  step_keeps (P := tripOk) (fun _ h => h) (fun _ _ h => h) <|
    exec_keeps Evolves.tripOk (fun _ _ _ _ _ _ _ h => h) (fun _ h => h)
      (fun _ _ => tripOk_of_no_causes rfl rfl) fun _ _ => tripOk_of_no_causes rfl rfl

theorem pinsOk_settled (s : State) : pinsOk s.settled := pinsOk_of_pinsOf _ rfl

/-- Settles O7: every command ends with the pins of the state it leaves; an idle step touches nothing they depend on. -/
theorem stepKeepsPinsOnConditions : Obligations.StepKeepsPinsOnConditions := by
  refine step_keeps (P := pinsOk) (fun _ h => h) (fun _ _ h => h) fun i s t _ h => ?_
  by_cases requests : i.requestsLevel = true
  · exact exec_levelRequest h requests (fun _ => pinsOk_settled _) (fun _ => pinsOk_settled _) (fun _ => pinsOk_settled _)
      (fun _ => pinsOk_settled _) fun _ => pinsOk_settled _
  · obtain ⟨_, _, _, _, _, _, v, rfl, -⟩ := exec_work h (by simpa using requests)
    exact pinsOk_settled v

/-! ### The zone queues (R4, R5, R24) -/

theorem requestsRun_of_other {i : Instr} (other : i.requestsLevel = false) : i.requestsRun = false := by
  cases i with
  | runLevelRun _ => cases other
  | _ => rfl

theorem permit_track_of_not_run {i : Instr} {s : State} (level : s.level ≠ .run) : (permitOf i s).track = false := by
  simp [permitOf, level]

/-- The work of a command that requests no level keeps the zone queues: it moves marks at RUN alone. -/
theorem Evolves.zonesOk {p : Permit} {s t : State} (h : Evolves p s t) (hl : p.level = false) (hline : p.line = false)
    (htrack : s.level ≠ .run → p.track = false) (hs : zonesOk s) : zonesOk t := by
  obtain ⟨queues, pool, empty⟩ := hs
  obtain ⟨queues', pool'⟩ := h.zones hline (fun k hk => queues k (of_stand hk)) pool
  refine ⟨fun k hk => ?_, pool', fun level => ?_⟩
  · rw [zoneLen_of_line (h.line_eq hline).1]; exact queues' k (stand_of hk)
  · rw [h.level_eq hl] at level
    exact h.stays_empty (htrack level) (empty level)

/-- Settles O8: level requests empty the queues, or leave them with the level; all other work moves marks at RUN alone. -/
theorem stepKeepsZoneQueues : Obligations.StepKeepsZoneQueues := by
  refine step_keeps (P := zonesOk) (fun _ h => h) (fun _ _ h => h) fun i s t hs h => ?_
  by_cases requests : i.requestsLevel = true
  · refine exec_levelRequest h requests (fun _ => zonesOk_empty _ rfl) (fun _ => zonesOk_empty _ rfl) (fun dt => ?_)
      (fun dt => ?_) (fun dt => ?_)
    · exact zonesOk_empty _ (requestConfigure_zones (s.tick dt) hs.2.2)
    · exact zonesOk_empty _ (requestLoopback_zones (s.tick dt) hs.2.2)
    · rcases requestRun_zones (s.tick dt) hs.2.2 with same | empty
      · rw [same]; exact hs
      · exact zonesOk_empty _ empty
  · have other : i.requestsLevel = false := by simpa using requests
    obtain ⟨_, _, _, _, _, _, v, rfl, hv⟩ := exec_work h other
    exact hv.zonesOk other (requestsRun_of_other other) (fun level => permit_track_of_not_run (s := s) level) hs

/-! ### The line description copy (R163, R183, R184) -/

theorem copyOk_new {s : State} (line : s.line = none) (level : s.level ≠ .run) : copyOk s :=
  ⟨fun h => absurd h level, fun l hl => by rw [line] at hl; cases hl⟩

/-- Outside RUN a copy that stays stays valid. -/
theorem copyOk_of_line {s t : State} (line : t.line = s.line) (level : t.level ≠ .run) (hs : copyOk s) : copyOk t :=
  ⟨fun h => absurd h level, fun l hl => hs.2 l (line.symm.trans hl)⟩

/-- What a request for a level other than RUN may change. -/
def Permit.levels : Permit := { level := true, line := false, entry := false, reset := true, port := false, track := false }

theorem requestConfigure_evolves (s : State) : Evolves .levels s (requestConfigure s) :=
  Evolves.refl.requestConfigure rfl fun _ => rfl

theorem requestLoopback_evolves (s : State) : Evolves .levels s (requestLoopback s) :=
  Evolves.refl.requestLoopback rfl fun _ => rfl

theorem requestConfigure_line (s : State) : (requestConfigure s).line = s.line :=
  ((requestConfigure_evolves s).line_eq rfl).1

theorem requestLoopback_line (s : State) : (requestLoopback s).line = s.line :=
  ((requestLoopback_evolves s).line_eq rfl).1

/-- Settles O9: the copy changes at a request for RUN alone, which takes none that fails a check. -/
theorem stepKeepsValidCopy : Obligations.StepKeepsValidCopy := by
  refine step_keeps (P := copyOk) (fun _ h => h) (fun _ _ h => h) fun i s t hs h => ?_
  by_cases requests : i.requestsLevel = true
  · refine exec_levelRequest h requests (fun _ => copyOk_new rfl nofun) (fun _ => copyOk_new rfl nofun) (fun dt => ?_)
      (fun dt => ?_) (fun dt => ?_)
    · exact copyOk_of_line (requestConfigure_line _) (by simp [State.settled, requestConfigure_level]) hs
    · exact copyOk_of_line (requestLoopback_line _) (by simp [State.settled, requestLoopback_level]) hs
    · exact requestRun_copy (s.tick dt) hs
  · have other : i.requestsLevel = false := by simpa using requests
    obtain ⟨_, _, _, _, _, _, v, rfl, hv⟩ := exec_work h other
    have line : v.line = s.line := (hv.line_eq (requestsRun_of_other other)).1
    have level := hv.level_eq other
    refine ⟨fun run => ?_, fun l hl => hs.2 l (line.symm.trans hl)⟩
    show v.line.isSome = true
    rw [line]
    exact hs.1 (level.symm.trans run)

end Sys2Proof.Machine

/-! Proofs for the machine as a whole: steps and commands answer (R1), the state after reset, and what no command but its own
touches (R161, R162, R173, R182). -/

namespace Sys2Proof.Machine

/-- Settles O1: `step` is defined so. -/
theorem stepRunsTheFrontCommand : Obligations.StepRunsTheFrontCommand := fun _ _ _ => rfl

/-! ### Every command answers -/

/-- A command's outcome is a next state. -/
def Answers (o : Host.Outcome State Fault Refusal) : Prop := ∃ t, o = .next t

theorem answers_finish (s : State) : Answers (finish s) := ⟨s.settled, rfl⟩

theorem answers_ite {c : Prop} [Decidable c] {s t : State} : Answers (if c then finish s else finish t) := by
  split
  · exact answers_finish s
  · exact answers_finish t

/-- Settles O2: each arm of `exec` ends with `finish`, whatever its branch. -/
theorem everyCommandAnswers : Obligations.EveryCommandAnswers := by
  intro i s
  cases i with
  | announceHead dt | setModulus dt | setTrim dt | loadSchedule dt | unloadSchedule dt | presetGap dt | calibrateZero dt
  | abortMove dt | tripStands dt | resetTrip dt =>
    simp only [exec, execAnnounceHead, execSetModulus, execSetTrim, execLoadSchedule, execUnloadSchedule, execPresetGap,
      execCalibrateZero, execAbortMove, execTripStands, execResetTrip]
    split
    · exact answers_finish _
    · exact answers_finish _
  | pollSent dt | replyStart dt | replyWindowClose dt b | replyReceived dt fr fin plan =>
    simp only [exec, execPollSent, execReplyStart, execReplyWindowClose, execReplyReceived]
    split
    · exact answers_ite
    · exact answers_finish _
  | watchedWordArrival dt v =>
    simp only [exec, execWatchedWordArrival]
    split
    · exact answers_finish _
    · exact answers_finish _
  | pollTimerExpiry _ | bodyCut _ _ | loadOn _ _ _ | loadOff _ _ _ | lockOn _ _ _ | presetComplete _ _ _ | zeroFound _ _ _ _
  | calibrationRetire _ _ _ | moveTimeout _ _ | stationSilent _ _ | stationRejoined _ _ _ _ | sampleExpiry _
  | elapsedSaturated _ _ => exact answers_ite
  | _ => exact answers_finish _

/-! ### The state after reset -/

theorem pinsOf_reset : State.reset.pins = pinsOf State.reset := by decide

theorem not_inForce_reset (x : Slot) : ¬inForceSomewhere State.reset x := by
  rintro ⟨k, hk, h⟩
  rw [State.slotAt, State.reset, PerStand.get_all _ _ (stand_of hk)] at h
  cases h

theorem slotOk_reset (x : Slot) : slotOk State.reset x := by
  cases x with
  | a => exact ⟨rfl, not_inForce_reset .a, tagged_none .a⟩
  | b => exact ⟨rfl, not_inForce_reset .b, tagged_none .b⟩

theorem storeOk_reset : storeOk State.reset := by
  have nowhere (k : Nat) : State.reset.slotAt k = none := by
    by_cases hk : 1 ≤ k ∧ k ≤ 8
    · exact PerStand.get_all _ _ hk
    · exact PerStand.get_outside _ _ hk
  have free (x : Slot) : (State.reset.store.slot x).state = .free := by cases x <;> rfl
  refine ⟨slotOk_reset, fun j k _ _ _ h => ?_, fun x h => ?_, fun x h => ?_, fun _ => free, fun l h => ?_, fun _ => rfl,
    fun c h => ?_⟩
  · rw [nowhere] at h; cases h
  · simp [State.reset] at h
  · rw [free] at h; cases h
  · simp [State.reset] at h
  · simp [State.reset] at h

theorem readWord_nil (a : Nat) : Memory.readWord [] a = 0 := by
  show (0#8 ++ 0#8) = (0 : Word)
  decide

theorem longOrdersOk_reset (blocks : Nat → Prop) : longOrdersOk blocks State.reset := by
  have noOrder {k : Nat} (hk : k ∈ standNumbers) : State.reset.orders.inFlight.get k = none :=
    PerStand.get_all _ _ (stand_of hk)
  have noMove {k : Nat} (hk : k ∈ standNumbers) : State.reset.gap.get k = {} := PerStand.get_all _ _ (stand_of hk)
  refine ⟨fun k hk => ?_, fun k hk q h => ?_, fun c h => ?_, fun w h => ?_, fun a _ => .inl (congrArg BitVec.toNat (readWord_nil a)), fun _ => rfl,
    wf_reset⟩
  · rw [noOrder hk, noMove hk]; rfl
  · rw [noOrder hk] at h; cases h
  · simp [State.reset] at h
  · simp [State.reset] at h

/-- Settles O3: at reset every record is at its default. -/
theorem resetMeetsTheInvariants : Obligations.ResetMeetsTheInvariants :=
  ⟨wf_reset, journalOk_new, tripOk_of_no_causes rfl rfl, pinsOk_of_pinsOf _ pinsOf_reset, zonesOk_empty _ rfl,
    copyOk_new rfl nofun, storeOk_reset, longOrdersOk_reset⟩

/-! ### What changes at its own commands alone -/

/-- From `s` to `t` the command `i` has kept the queue, the clock but for its own time, the enables and the inputs, unless they
are its own to set. -/
def KeepsInputs (i : Instr) (s t : State) : Prop :=
  t.pending = s.pending ∧
    ((∀ e, i ≠ .powerOn e) → t.clock = s.clock + i.elapsed ∧
      ((∀ dt, i ≠ .resetAsserted dt) → t.resetLow = s.resetLow) ∧
      ((∀ dt v, i ≠ .attentionMaskWrite dt v) → t.mask = s.mask) ∧
      ((∀ dt l, i ≠ .etripChange dt l) → t.etripPin = s.etripPin))

/-- Settles O12: elementary changes leave the queue, the clock, the enables and the inputs, and the commands that set registers
and pins directly set their own. -/
theorem commandsKeepQueueClockAndInputs : Obligations.CommandsKeepQueueClockAndInputs := by
  intro i s t h
  refine exec_cases (P := KeepsInputs i s) h (fun _ => ?_) ?_ ?_ ?_ ?_ ?_ ?_
  · rintro _ ⟨v, hv, rfl⟩
    obtain ⟨clock, low, pin, mask, -, pending⟩ := hv.untouched
    exact ⟨pending, fun _ => ⟨clock, fun _ => low, fun _ => mask, fun _ => pin⟩⟩
  · rintro dt l rfl _ ⟨v, hv, rfl⟩
    obtain ⟨clock, low, -, mask, -, pending⟩ := hv.untouched
    exact ⟨pending, fun _ => ⟨clock, fun _ => low, fun _ => mask, fun own => absurd rfl (own dt l)⟩⟩
  · rintro e rfl
    exact ⟨rfl, fun own => absurd rfl (own e)⟩
  · rintro dt rfl
    exact ⟨rfl, fun _ => ⟨rfl, fun _ => rfl, fun _ => rfl, fun _ => rfl⟩⟩
  · rintro dt rfl
    exact ⟨rfl, fun _ => ⟨rfl, fun own => absurd rfl (own dt), fun _ => rfl, fun _ => rfl⟩⟩
  · rintro dt v rfl
    exact ⟨rfl, fun _ => ⟨rfl, fun _ => rfl, fun _ => rfl, fun _ => rfl⟩⟩
  · rintro dt v rfl
    exact ⟨rfl, fun _ => ⟨rfl, fun _ => rfl, fun own => absurd rfl (own dt v), fun _ => rfl⟩⟩

/-- From `s` to `t` the command `i` has cleared no bit of ATTENTION and changed neither the level nor the line description copy
and CONFIG_RESULT, unless it is one of those that do. -/
def KeepsBitsLevelAndCopy (i : Instr) (s t : State) : Prop :=
  (∀ b : Nat, i.resets = false → (∀ dt v, i ≠ .attentionWrite dt v) → s.attention.getLsbD b = true →
    t.attention.getLsbD b = true) ∧
  (i.requestsLevel = false → t.level = s.level) ∧
  (i.resets = false → (∀ dt, i ≠ .runLevelRun dt) → t.line = s.line ∧ t.configResult = s.configResult)

/-- Settles O13: elementary changes set bits of ATTENTION and clear none; the level and the copy need their permits. -/
theorem bitsLevelAndCopyChangeAtTheirCommandsAlone : Obligations.BitsLevelAndCopyChangeAtTheirCommandsAlone := by
  intro i s t h
  have not_run : (∀ dt, i ≠ .runLevelRun dt) → i.requestsRun = false := fun own => by
    cases i with
    | runLevelRun dt => exact absurd rfl (own dt)
    | _ => rfl
  refine exec_cases (P := KeepsBitsLevelAndCopy i s) h (fun _ => ?_) ?_ ?_ ?_ ?_ ?_ ?_
  · rintro _ ⟨v, hv, rfl⟩
    have bits := hv.attention
    exact ⟨fun b _ _ set => bits b set, fun other => (hv.level_eq other :), fun _ own => (hv.line_eq (not_run own) :)⟩
  · rintro dt l rfl _ ⟨v, hv, rfl⟩
    have bits := hv.attention
    exact ⟨fun b _ _ set => bits b set, fun _ => (hv.level_eq rfl :), fun _ _ => (hv.line_eq rfl :)⟩
  · rintro e rfl
    exact ⟨nofun, nofun, nofun⟩
  · rintro dt rfl
    exact ⟨nofun, nofun, nofun⟩
  · rintro dt rfl
    exact ⟨fun _ _ _ set => set, fun _ => rfl, fun _ _ => ⟨rfl, rfl⟩⟩
  · rintro dt v rfl
    exact ⟨fun _ _ own => absurd rfl (own dt v), fun _ => rfl, fun _ _ => ⟨rfl, rfl⟩⟩
  · rintro dt v rfl
    exact ⟨fun _ _ _ set => set, fun _ => rfl, fun _ _ => ⟨rfl, rfl⟩⟩

/-- Settles O14: without a write to JOURNAL_READ a record is appended past the unread ones, or dropped and counted. -/
theorem unreadRecordsAreNeverOverwritten : Obligations.UnreadRecordsAreNeverOverwritten := by
  intro i s t _ resets port h
  suffices kept : UnreadKept s.journal t.journal from ⟨kept.1, kept.2.1, kept.2.2.2⟩
  have same := UnreadKept.refl s.journal
  refine exec_cases (P := fun t => UnreadKept s.journal t.journal) h (fun _ => ?_) ?_ ?_ ?_
    (fun _ _ => same) (fun _ _ _ => same) (fun _ _ _ => same)
  · rintro _ ⟨v, hv, rfl⟩
    exact (hv.unread port :)
  · rintro dt l rfl _ ⟨v, hv, rfl⟩
    exact (hv.unread rfl :)
  · rintro e rfl; cases resets
  · rintro dt rfl; cases resets

theorem TripGrows.of_trip {s t : State} (latch : t.trip.latch = s.trip.latch) (stop : t.trip.entryStop = s.trip.entryStop)
    (actions : t.trip.actions = s.trip.actions) : TripGrows s t :=
  ⟨latch.trans, stop.trans, fun j => by rw [actions]; exact ⟨id, id⟩⟩

/-- Settles O15: without the permit of a trip reset every elementary change lets the trip grow alone. -/
theorem tripGrowsUntilReset : Obligations.TripGrowsUntilReset := by
  intro i s t resets own standing h
  suffices grown : TripGrows s t from ⟨grown.latch, grown.entryStop, grown.actions⟩
  have permit : (permitOf i s).reset = false := by
    have notAsked : (i.requestsLevel && (s.orders.copy.map OrderCopy.order == some .resetTrip)) = false := by
      rw [Bool.and_eq_false_imp]
      intro requests
      cases hc : s.orders.copy with
      | none => rfl
      | some c => simpa using standing requests c hc
    cases i with
    | resetTrip dt => exact absurd rfl (own dt)
    | _ => exact notAsked
  refine exec_cases (P := TripGrows s) h (fun _ => ?_) ?_ ?_ ?_
    (fun _ _ => .of_trip rfl rfl rfl) (fun _ _ _ => .of_trip rfl rfl rfl) (fun _ _ _ => .of_trip rfl rfl rfl)
  · rintro _ ⟨v, hv, rfl⟩
    obtain ⟨latch, entryStop, actions⟩ := hv.tripGrows permit
    exact ⟨latch, entryStop, actions⟩
  · rintro dt l rfl _ ⟨v, hv, rfl⟩
    obtain ⟨latch, entryStop, actions⟩ := hv.tripGrows rfl
    exact ⟨latch, entryStop, actions⟩
  · rintro e rfl; cases resets
  · rintro dt rfl; cases resets

end Sys2Proof.Machine

/-! Proofs for the table of long orders in flight (R110, R169), first part: what the blocks' work can do to it. Work ends moves with
their orders and leaves the rest of the Order Unit and of Exchange Memory; only the owner's work on an order that stands taken,
and the intake, do more. -/

namespace Sys2Proof.Machine

/-- From `s` to `t` nothing has changed that the table of long orders rests on: the Order Unit's records, Exchange Memory, which
stands have a move in flight; and HALT has not been entered. -/
structure Calm (s t : State) : Prop where
  orders : t.orders = s.orders
  exm : t.exm = s.exm
  halt : t.level = .halt → s.level = .halt
  moves : ∀ k, (t.gap.get k).move.inFlight = (s.gap.get k).move.inFlight

/-- `t` comes from `s` by work that leaves the table alone, and by ends of moves in flight, each with its order retired. -/
inductive Worked (s : State) : State → Prop
  | refl : Worked s s
  | calm {t u} : Worked s t → Calm t u → Worked s u
  | ended {t} (k : Nat) (r : Result) (m : Move) : (t.gap.get k).move.inFlight = true → m.inFlight = false → Worked s t →
      Worked s ((retireLong k r t).withMove k m)

namespace Worked
variable {s t u : State}

theorem trans (h : Worked s t) (g : Worked t u) : Worked s u := by
  induction g with
  | refl => exact h
  | calm _ c ih => exact ih.calm c
  | ended k r m hf hm _ ih => exact ih.ended k r m hf hm

/-- A change that leaves the moves of the Gap Unit altogether. -/
theorem keep (h : Worked s t) (orders : u.orders = t.orders) (exm : u.exm = t.exm) (level : u.level = t.level)
    (gap : u.gap = t.gap) : Worked s u :=
  h.calm ⟨orders, exm, fun halt => level ▸ halt, fun k => by rw [gap]⟩

theorem ite {c : Prop} [Decidable c] {a b : State} (h : Worked s a) (g : Worked s b) : Worked s (if c then a else b) := by
  split
  · exact h
  · exact g

theorem foldl {α : Type} {f : State → α → State} (hf : ∀ t a, Worked s t → Worked s (f t a)) (l : List α) :
    ∀ t, Worked s t → Worked s (l.foldl f t) := by
  induction l with
  | nil => exact fun _ h => h
  | cons a l ih => exact fun t h => ih _ (hf t a h)

/-- A reference record written whose move is in flight as it was. -/
theorem withRef {k r} (h : Worked s t) (same : r.move.inFlight = (t.gap.get k).move.inFlight) : Worked s (t.withRef k r) := by
  refine h.calm ⟨rfl, rfl, id, fun j => ?_⟩
  show ((t.gap.set k r).get j).move.inFlight = _
  by_cases hk : 1 ≤ k ∧ k ≤ 8
  · rw [PerStand.get_set _ _ _ _ hk]
    split
    · subst_vars; exact same
    · rfl
  · rw [PerStand.set_outside _ _ _ hk]

theorem withMove {k m} (h : Worked s t) (same : m.inFlight = (t.gap.get k).move.inFlight) : Worked s (t.withMove k m) :=
  h.withRef same

/-- Every reference record passed through a map that keeps what is in flight. -/
theorem mapRef {f : Reference → Reference} (h : Worked s t) (same : ∀ r, (f r).move.inFlight = r.move.inFlight) :
    Worked s { t with gap := t.gap.map f } := by
  refine h.calm ⟨rfl, rfl, id, fun j => ?_⟩
  show ((t.gap.map f).get j).move.inFlight = _
  by_cases hj : 1 ≤ j ∧ j ≤ 8
  · rw [PerStand.get_map _ _ _ hj]; exact same _
  · rw [PerStand.get_outside _ _ hj, PerStand.get_outside _ _ hj]

/-! ### Records that the table does not rest on -/

theorem withTracker {x} (h : Worked s t) : Worked s (t.withTracker x) := h.keep rfl rfl rfl rfl
theorem withEst {k e} (h : Worked s t) : Worked s (t.withEst k e) := h.keep rfl rfl rfl rfl
theorem withStation {e x} (h : Worked s t) : Worked s (t.withStation e x) := by cases e <;> exact h.keep rfl rfl rfl rfl
theorem withCycle {c} (h : Worked s t) : Worked s (withCycle c t) := h.keep rfl rfl rfl rfl
theorem rewriteTripArea (h : Worked s t) : Worked s (rewriteTripArea t) := h.keep rfl rfl rfl rfl
theorem writeImage {k late} (h : Worked s t) : Worked s (writeImage k late t) := h.keep rfl rfl rfl rfl
theorem note {kd k tm c v1 v2 v3} (h : Worked s t) : Worked s (note kd k tm c v1 v2 v3 t) := by apply h.keep <;> simp
theorem applyPending {k r tm} (h : Worked s t) : Worked s (applyPending k r tm t) := by apply h.keep <;> simp
theorem thicknessRelease {k} (h : Worked s t) : Worked s (thicknessRelease k t) := h.withEst.applyPending
theorem recordCause {c k tm} (h : Worked s t) : Worked s (recordCause c k tm t) := by apply h.keep <;> simp
theorem freeSlot {x c tm} (h : Worked s t) : Worked s (freeSlot x c tm t) := by apply h.keep <;> simp
theorem markDeparted {tag} (h : Worked s t) : Worked s (markDeparted tag t) := by apply h.keep <;> simp
theorem flush {tm} (h : Worked s t) : Worked s (flush tm t) := by apply h.keep <;> simp
theorem checkCoil {c x tm} (h : Worked s t) : Worked s (checkCoil c x tm t) := by apply h.keep <;> simp
theorem becomeReady {k} (h : Worked s t) : Worked s (becomeReady k t) := by apply h.keep <;> simp
theorem expireSample (h : Worked s t) : Worked s (expireSample t) := by apply h.keep <;> simp
theorem gaugeReply {v x} (h : Worked s t) : Worked s (gaugeReply v x t) := by apply h.keep <;> simp

/-! ### Terms, references and moves of the Gap Unit -/

theorem ffUpdate {k m} (h : Worked s t) : Worked s (ffUpdate k m t) := h.withRef rfl
theorem monUpdate {m} (h : Worked s t) : Worked s (monUpdate m t) := h.ite (h.withRef rfl)
theorem agcUpdate {k} (h : Worked s t) : Worked s (agcUpdate k t) := h.ite (h.withRef rfl)
theorem captureLock {k} (h : Worked s t) : Worked s (captureLock k t) := h.withRef rfl
theorem clearTerms {k} (h : Worked s t) : Worked s (clearTerms k t) := h.withRef rfl
theorem switchTerms {k} (h : Worked s t) : Worked s (switchTerms k t) := h.withRef rfl
theorem firstBase {k} (h : Worked s t) : Worked s (firstBase k t) := h.ite (h.withRef rfl)
theorem sendBase {k b x y} (h : Worked s t) : Worked s (sendBase k b x y t) := h.withRef rfl
theorem holdFrame {k x} (h : Worked s t) : Worked s (holdFrame k x t) := h.withRef rfl
theorem assemble {k} (h : Worked s t) : Worked s (assemble k t) := h.withRef rfl
theorem rampStep {k x} (h : Worked s t) : Worked s (rampStep k x t) := h.sendBase
theorem calOpenStep {k} (h : Worked s t) : Worked s (calOpenStep k t) := h.sendBase

theorem endHold {k} (h : Worked s t) : Worked s (endHold k t) := by
  unfold Machine.endHold
  split
  case h_1 x hm => exact h.withMove (by rw [hm]; rfl)
  case h_2 => exact h

theorem leaveVacant {k} (h : Worked s t) : Worked s (leaveVacant k t) := by
  have turned (r : Reference) : (r.move.abandonClose .equipment).inFlight = r.move.inFlight := by cases r.move <;> rfl
  exact ite (h.endHold.mapRef turned) h.endHold

theorem holdAtBase_quick (x : State) (k : Nat) : (holdAtBase x k).inFlight = false := by
  unfold holdAtBase; split <;> rfl

theorem endMove {k d b} (h : Worked s t) : Worked s (endMove k d b t) := by
  unfold Machine.endMove
  split
  case h_1 => exact h
  case h_2 hm =>
    refine h.ended k _ _ (by rw [hm]; rfl) ?_
    cases b
    · rfl
    · exact holdAtBase_quick t k
  case h_3 x hm => exact h.ite (h.withMove (by rw [hm]; rfl))
  case h_4 hm => exact h.ended k _ _ (by rw [hm]; rfl) rfl
  case h_5 hm => exact h.ended k _ _ (by rw [hm]; rfl) rfl

theorem endMoves {ks : List Nat} {d b} (h : Worked s t) : Worked s (ks.foldl (fun s k => Machine.endMove k d b s) t) :=
  foldl (fun _ _ h => h.endMove) ks t h

theorem moveTest {k p f g} (h : Worked s t) : Worked s (moveTest k p f g t) := by
  unfold Machine.moveTest
  split
  case h_1 => exact h
  case h_2 => exact h
  case h_3 hm =>
    refine ite (h.ended k _ _ (by rw [hm]; rfl) ?_) (h.withMove (by rw [hm]; rfl))
    split <;> rfl
  case h_4 hm =>
    refine ite (withRef h.withEst ?_) (h.withMove (by rw [hm]; rfl))
    show true = (t.gap.get k).move.inFlight
    rw [hm]; rfl
  case h_5 hm => exact ite (h.ended k _ _ (by rw [hm]; rfl) rfl) h

theorem timeoutTest {k} (h : Worked s t) : Worked s (timeoutTest k t) := ite h.endMove h

theorem prepareByMove {k} (h : Worked s t) : Worked s (prepareByMove k t) := by
  unfold Machine.prepareByMove
  split
  case h_1 => exact ite h.holdFrame h.assemble
  case h_2 => exact h.rampStep
  case h_3 => exact h.rampStep
  case h_4 hm => exact ite h.sendBase (calOpenStep (h.withMove (by rw [hm]; rfl)))
  case h_5 => exact h.calOpenStep

theorem prepare {k} (h : Worked s t) : Worked s (prepare k t) :=
  ite (withRef h.sendBase rfl) (ite (ite h.sendBase h.holdFrame) (ite h.timeoutTest.rampStep h.timeoutTest.prepareByMove))

theorem gapReply {k p f lm lb} (h : Worked s t) : Worked s (gapReply k p f lm lb t) := by
  have aborted : Worked s (if lm then Machine.endMove k .station true (Machine.firstBase k t) else Machine.firstBase k t) :=
    ite h.firstBase.endMove h.firstBase
  exact moveTest (ite aborted.agcUpdate aborted)

theorem abortMove {k} (h : Worked s t) : Worked s (abortMove k t) := by
  unfold Machine.abortMove
  split
  case h_1 => exact h
  case h_2 => exact h
  case h_3 => exact h.endMove
  case h_4 hm => exact h.withMove (by rw [hm]; rfl)
  case h_5 hm => exact h.withMove (by rw [hm]; rfl)

/-! ### Slots, causes, the gauge and the Tracker -/

theorem settleLeft {x c tm} (h : Worked s t) : Worked s (settleLeft x c tm t) := by
  have draining : Worked s (t.withSlot x { t.store.slot x with state := .draining }) := h.keep rfl rfl rfl rfl
  exact ite (ite draining h.freeSlot) h

theorem takeInForce {x} (h : Worked s t) : Worked s (takeInForce x t) := ite (h.keep rfl rfl rfl rfl) h

theorem switchStand {k x c f tm} (h : Worked s t) : Worked s (switchStand k x c f tm t) := by
  have inForce : Worked s { t with store := { t.store with inForce := t.store.inForce.set k (some x) } } := h.keep rfl rfl rfl rfl
  refine takeInForce ?_
  split
  · exact inForce.switchTerms.endHold.note.settleLeft
  · exact inForce.switchTerms.endHold.note

theorem switchStands {ks x c f tm} (h : Worked s t) : Worked s (switchStands ks x c f tm t) :=
  foldl (fun _ _ h => h.switchStand) ks t h

theorem releaseSwitch {k} (h : Worked s t) : Worked s (releaseSwitch k t) := by
  unfold Machine.releaseSwitch
  split
  · exact h
  · exact ite h.switchStand h

theorem collapseSlots {c tm} (h : Worked s t) : Worked s (collapseSlots c tm t) := by
  unfold Machine.collapseSlots
  split
  · exact h
  · exact ite (ite h.switchStands.freeSlot h.switchStands) h

theorem slotsRunEntry (h : Worked s t) : Worked s (slotsRunEntry t) := by
  have dropMismatch {x u} (h : Worked s u) : Worked s (dropMismatch x u) := ite (h.freeSlot.keep rfl rfl rfl rfl) h
  unfold Machine.slotsRunEntry
  extract_lets s1 s2 s3 kept
  have h2 : Worked s s2 := (dropMismatch (dropMismatch h)).collapseSlots
  have h3 : Worked s s3 := by
    unfold s3
    split
    · exact h2.switchStands
    · exact h2
  exact h3.keep rfl rfl rfl rfl

theorem takeCause {c k tm} (h : Worked s t) : Worked s (takeCause c k tm t) := by
  refine rewriteTripArea ?_
  split
  · exact endMoves (h.recordCause.keep rfl rfl rfl rfl)
  · exact h.recordCause

theorem takeCauses {cs tm} (h : Worked s t) : Worked s (takeCauses cs tm t) := foldl (fun _ _ h => h.takeCause) cs t h
theorem takeRaised (h : Worked s t) : Worked s (takeRaised t) := h.withTracker.takeCauses
theorem replyCheck {k p f fl} (h : Worked s t) : Worked s (replyCheck k p f fl t) := h.takeCauses


theorem toleranceVerdict {m} (h : Worked s t) : Worked s (toleranceVerdict m t) := ite h (note (h.keep rfl rfl rfl rfl))

theorem pairMark {m} (h : Worked s t) : Worked s (pairMark m t) := by
  unfold Machine.pairMark
  extract_lets paired tally s1 s2 s3 s4 g s5 s6
  have h1 : Worked s s1 := ite (h.keep rfl rfl rfl rfl) h
  have h2 : Worked s s2 := ite h1.monUpdate h1
  have h3 : Worked s s3 := ite h2.toleranceVerdict h2
  have h4 : Worked s s4 := ite h3.note h3
  have h5 : Worked s s5 := h4.keep rfl rfl rfl rfl
  exact ite (h5.note.keep rfl rfl rfl rfl) h5

theorem departMark {k m q} (h : Worked s t) : Worked s (departMark k m q t) := h.pairMark.withTracker.markDeparted

theorem passMark {k m q} (h : Worked s t) : Worked s (passMark k m q t) := ite h.withTracker h.withTracker.ffUpdate

/-- The Tracker's work on a reply (R21): what it does to moves is the end of HOLDs and the turning of calibrations. -/
theorem track (s : State) : TrackKeeps (Worked s) where
  thread _ _ _ h := h.withTracker
  gen _ _ h := h.withTracker
  carry _ _ h := h.withTracker
  raise _ _ _ h := h.withTracker
  note _ _ _ _ _ _ _ _ h := h.note
  skip _ _ h := by apply h.keep <;> simp
  cut _ _ _ h := h.withTracker
  depart _ _ _ _ _ h := h.departMark
  pass _ _ _ _ _ _ h := h.passMark
  hold _ _ _ _ _ _ h := by apply h.keep <;> simp
  behind t k h := by
    rcases arriveBehind_cases k t with e | ⟨q, x, -, e | e⟩ <;> rw [e]
    · exact h
    · exact h.withTracker
    · exact withTracker h.withTracker
  move _ _ _ _ _ _ _ _ h := h.withTracker
  mode _ _ _ h := h.withEst
  table _ _ h := h.thicknessRelease
  terms _ _ h := h.clearTerms
  lock _ _ h := h.captureLock
  leave _ _ h := h.leaveVacant
  switch _ _ h := h.releaseSwitch
  summary _ h := h.keep rfl rfl rfl rfl

theorem trackerWork {k f v dt} (h : Worked s t) : Worked s (trackerWork k f v dt t) := (track s).trackerWork h
theorem threadingWork {k f} (h : Worked s t) : Worked s (threadingWork k f t) := (track s).threadingWork h
theorem summaryAfter {b} (h : Worked s t) : Worked s (summaryAfter b t) := (track s).summaryAfter h

/-! ### The stand link -/

theorem beginExchange {i late} (h : Worked s t) : Worked s (beginExchange i late t) := by
  unfold Machine.beginExchange
  split
  · exact h.withCycle
  case h_2 e _ =>
    have prepared : Worked s (Machine.prepareEntry e t) := by
      cases e with
      | stand k => exact h.prepare
      | gauge => exact h
    exact withCycle (prepared.keep rfl rfl rfl rfl)

theorem startCycle {late} (h : Worked s t) : Worked s (startCycle late t) := beginExchange (h.keep rfl rfl rfl rfl)

theorem nextExchange (h : Worked s t) : Worked s (nextExchange t) := by
  unfold Machine.nextExchange
  split
  · exact h
  · exact ite h.beginExchange (ite (startCycle (h.keep rfl rfl rfl rfl)) h.withCycle)

theorem atTime {c} (h : Worked s t) : Worked s (t.atTime c) := h.keep rfl rfl rfl rfl

theorem nextExchangeAt {now} (h : Worked s t) : Worked s (nextExchangeAt now t) := h.atTime.nextExchange.atTime

theorem doWork {k p f v fl lb dt now w} (h : Worked s t) : Worked s (doWork k p f v fl lb dt now w t) := by
  cases w with
  | tracker => exact h.trackerWork
  | gap => exact h.gapReply
  | causes => exact h.takeRaised
  | check => exact h.replyCheck
  | nextPoll => exact h.nextExchangeAt

theorem deliverStand {k p f v fl plan late now} (h : Worked s t) : Worked s (deliverStand k p f v fl plan late now t) :=
  writeImage (foldl (fun _ _ h => h.doWork) plan _ h.withStation.withEst)

theorem onlyNextPoll {plan now} (h : Worked s t) : Worked s (onlyNextPoll plan now t) := ite h.nextExchangeAt h

theorem becomePresent {e} (h : Worked s t) : Worked s (becomePresent e t) := by
  unfold Machine.becomePresent
  extract_lets st s1 s2
  have h2 : Worked s s2 := ite h.withStation.note h.withStation
  cases e with
  | stand k => exact ite h2.becomeReady h2
  | gauge => exact h2.keep rfl rfl rfl rfl

theorem becomeSilent {e} (h : Worked s t) : Worked s (becomeSilent e t) := by
  unfold Machine.becomeSilent
  extract_lets st s1 s2
  have h2 : Worked s s2 := h.withStation.note
  cases e with
  | stand k => exact endMove (ite h2.takeCause h2)
  | gauge => exact h2.keep rfl rfl rfl rfl

theorem validReply {e r plan late now} (h : Worked s t) : Worked s (validReply e r plan late now t) := by
  unfold Machine.validReply
  extract_lets st next s1 s2 s3
  have h1 : Worked s s1 := h.withStation
  have h2 : Worked s s2 := ite h1 h1.becomePresent
  have h3 : Worked s s3 := h1.withStation
  split
  · split
    · exact h2.deliverStand
    · exact h2.withStation.gaugeReply.onlyNextPoll
    · exact h2
    · exact h2
  · cases e with
    | stand k => exact h3.writeImage.onlyNextPoll
    | gauge => exact h3.onlyNextPoll

theorem missReply {e late} (h : Worked s t) : Worked s (missReply e late t) := by
  unfold Machine.missReply
  extract_lets st s1 s2
  have h2 : Worked s s2 := ite h.withStation.becomeSilent h.withStation
  cases e with
  | stand k => exact h2.writeImage
  | gauge => exact h2.expireSample

theorem endWithMiss {e late b now} (h : Worked s t) : Worked s (endWithMiss e late b now t) :=
  ite h.nextExchangeAt.missReply h.missReply.nextExchangeAt

theorem frameEnded {c e fr still plan now} (h : Worked s t) : Worked s (frameEnded c e fr still plan now t) := by
  unfold Machine.frameEnded
  split
  · exact h.validReply
  · exact h.endWithMiss

theorem loopbackExchange {e} (h : Worked s t) : Worked s (loopbackExchange t e) := by
  unfold Machine.loopbackExchange
  extract_lets s1 st st' s2 s3 st'' s4
  have h1 : Worked s s1 := by
    cases e with
    | stand k => exact h.prepare
    | gauge => exact h
  have h3 : Worked s s3 := ite h1.withStation h1.withStation.becomePresent
  have h4 : Worked s s4 := h3.withStation
  cases e with
  | stand k => exact h4.withEst.firstBase.moveTest.writeImage
  | gauge => exact h4.gaugeReply

theorem loopbackCycle (h : Worked s t) : Worked s (loopbackCycle t) :=
  foldl (fun _ _ h => h.loopbackExchange) _ _ (h.keep rfl rfl rfl rfl)

theorem timerExpiry (h : Worked s t) : Worked s (timerExpiry t) := by
  have armed : Worked s (rearm t) := h.keep rfl rfl rfl rfl
  refine ite (armed.keep rfl rfl rfl rfl) ?_
  unfold cycleOnExpiry
  split
  · exact armed.startCycle
  · exact ite armed armed.loopbackCycle
  · exact armed
  · exact armed

/-! ### Levels -/

theorem endMovesLevel (h : Worked s t) : Worked s (endMovesLevel t) := h.endMoves

/-- A level other than HALT entered. -/
theorem leveled {l : RunLevel} (hl : l ≠ .halt) (h : Worked s t) : Worked s { t with level := l } :=
  h.calm ⟨rfl, rfl, fun halt => absurd halt hl, fun _ => rfl⟩

theorem leaveRun {l} (hl : l ≠ .halt) (h : Worked s t) : Worked s (leaveRun l t) := by
  have dropped : Worked s (levelDrop (Machine.endMovesLevel t)) := ite h.endMovesLevel.takeCause h.endMovesLevel
  exact flush ((dropped.leveled hl).keep rfl rfl rfl rfl)

theorem enterLoopback (h : Worked s t) : Worked s (enterLoopback t) := by
  have forgot : Worked s (forgetBases { t with level := .loopback }) := mapRef (h.leveled nofun) fun _ => rfl
  unfold Machine.enterLoopback
  dsimp only
  split
  · exact loopbackCycle (forgot.keep rfl rfl rfl rfl)
  · exact forgot.keep rfl rfl rfl rfl

theorem tripRunEntry (h : Worked s t) : Worked s (tripRunEntry t) := by
  have entered : Worked s (Machine.rewriteTripArea { t with trip := { t.trip with
      matrix := some (t.lineCopy.matrix.map MatrixBytes.decode), ready := PerStand.all false, etrip := t.etripPin } }) :=
    rewriteTripArea (h.keep rfl rfl rfl rfl)
  exact ite entered.takeCause entered

theorem gapRunEntry {n} (h : Worked s t) : Worked s (gapRunEntry n t) := h.mapRef fun _ => rfl

theorem thicknessRunEntry (h : Worked s t) : Worked s (thicknessRunEntry t) := by apply h.keep <;> simp

theorem gaugeRunEntry (h : Worked s t) : Worked s (gaugeRunEntry t) := h.keep rfl rfl rfl rfl

theorem rewriteSummary (h : Worked s t) : Worked s (rewriteSummary t) := h.keep rfl rfl rfl rfl

theorem resetThreading (h : Worked s t) : Worked s (resetThreading t) := h.withTracker

theorem linkRunEntry (h : Worked s t) : Worked s (linkRunEntry t) :=
  startCycle (h.keep (u := startLink t t.lineCopy) rfl rfl rfl rfl)

theorem dropImages (h : Worked s t) : Worked s (dropImages t) := h.keep rfl rfl rfl rfl

/-- RUN entry but for its steps 2 to 4, which leave LOOPBACK, take the copy and start the intake (R163). -/
theorem runEntry {n} (h : Worked s t) :
    Worked s (Machine.dropImages (Machine.linkRunEntry (Machine.tripRunEntry (Machine.gapRunEntry n (Machine.rewriteSummary
      (Machine.resetThreading (Machine.slotsRunEntry (Machine.gaugeRunEntry (Machine.thicknessRunEntry t))))))))) :=
  h.thicknessRunEntry.gaugeRunEntry.slotsRunEntry.resetThreading.rewriteSummary.gapRunEntry.tripRunEntry.linkRunEntry.dropImages

/-! ### What work leaves of the order being taken -/

theorem copy (h : Worked s t) : t.orders.copy = s.orders.copy := by
  induction h with
  | refl => rfl
  | calm _ c ih => rw [c.orders, ih]
  | @ended t k r m _ _ _ ih =>
    rw [← ih]
    show (retireLong k r t).orders.copy = t.orders.copy
    unfold retireLong
    split <;> rfl

theorem halt (h : Worked s t) (level : t.level = .halt) : s.level = .halt := by
  induction h with
  | refl => exact level
  | calm _ c ih => exact ih (c.halt level)
  | ended k r m _ _ _ ih => exact ih ((retireLong_keeps _ k r).2.2.2.1.symm.trans level)

end Worked
end Sys2Proof.Machine

/-! Proofs for the table of long orders in flight (R110, R169), second part: the laws of the table under the blocks' work, under
the owner's work on an order, under the intake, under the port, and over the changes of level. -/

namespace Sys2Proof.Machine

section
variable {blocks : Nat → Prop} {s t : State}

/-! ### Memory outside one block's STATE and RESULT -/

/-- A write inside STATE and RESULT of the block at `v` leaves the STATE of every other block, the anchor and the links. -/
theorem words_kept_outside_block {m m' : Memory} {v : Nat} (apart : blocksApart blocks) (hv : blocks v)
    (frame : ∀ a, ¬(v + 2 ≤ a ∧ a < v + 12) → m'.read a = m.read a) :
    (∀ q, blocks q → q ≠ v → m'.readWord (q + 2) = m.readWord (q + 2)) ∧
      ∀ a, a = 0 ∨ blocks a → m'.readWord a = m.readWord a := by
  obtain ⟨place, gap⟩ := apart
  have word {a : Nat} (h : ¬(v + 2 ≤ a ∧ a < v + 12)) (h1 : ¬(v + 2 ≤ a + 1 ∧ a + 1 < v + 12)) :
      m'.readWord a = m.readWord a := by
    unfold Memory.readWord
    rw [frame a h, frame (a + 1) h1]
  have distance {q : Nat} (hq : blocks q) (hne : q ≠ v) : q + 16 ≤ v ∨ v + 16 ≤ q := by
    rcases Nat.lt_or_gt_of_ne hne with h | h
    · exact .inl (gap q v hq hv h)
    · exact .inr (gap v q hv hq h)
  refine ⟨fun q hq hne => ?_, ?_⟩
  · have := distance hq hne
    exact word (by omega) (by omega)
  · rintro a (rfl | ha)
    · have := place v hv
      exact word (by omega) (by omega)
    · by_cases hne : a = v
      · exact word (by omega) (by omega)
      · have := distance ha hne
        exact word (by omega) (by omega)

theorem read_writeResult_outside {m : Memory} {v : Nat} {r : Result} (form : m.wf = true) (a : Nat)
    (h : ¬(v + 2 ≤ a ∧ a < v + 12)) : (writeResult m v r).read a = m.read a :=
  read_writeResult m v a r form (by omega)

/-! ### The laws under single changes -/

theorem Calm.longOrdersOk (calm : Calm s t) (ok : longOrdersOk blocks s) : longOrdersOk blocks t := by
  obtain ⟨occupied, taken, standing, watched, links, halt, form⟩ := ok
  unfold Machine.longOrdersOk memoryOk
  rw [calm.orders, calm.exm]
  exact ⟨fun k hk => (occupied k hk).trans (calm.moves k).symm, taken, standing, watched, links, fun h => halt (calm.halt h), form⟩

/-- A write inside STATE and RESULT of a block that is not in flight keeps the laws, where the order that stands taken, if one
does, is that of another block or stands taken with this one. -/
theorem longOrdersOk_of_block_written {v : Nat} (apart : blocksApart blocks) (ok : longOrdersOk blocks s) (hv : blocks v)
    (quick : ∀ k ∈ standNumbers, s.orders.inFlight.get k ≠ some v)
    (frame : ∀ a, ¬(v + 2 ≤ a ∧ a < v + 12) → t.exm.read a = s.exm.read a) (form : memoryOk t)
    (inFlight : t.orders.inFlight = s.orders.inFlight) (gap : t.gap = s.gap)
    (standing : ∀ c, t.orders.copy = some c →
      s.orders.copy = some c ∧ c.ptr ≠ v ∨ c.ptr = v ∧ t.exm.readWord (v + 2) = 2)
    (watched : ∀ w, t.orders.watched = some w → w = 0 ∨ blocks w)
    (halt : t.level = .halt → t.orders.copy = none) : longOrdersOk blocks t := by
  obtain ⟨occupied, taken, standing', -, links, -, -⟩ := ok
  obtain ⟨states, chain⟩ := words_kept_outside_block apart hv frame
  refine ⟨?_, fun k hk q h => ?_, fun c hc => ?_, watched, fun a ha => ?_, halt, form⟩
  · rw [inFlight, gap]; exact occupied
  · rw [inFlight] at h ⊢
    obtain ⟨hq, state, alone⟩ := taken k hk q h
    exact ⟨hq, (states q hq fun e => quick k hk (e ▸ h)).trans state, alone⟩
  · rw [inFlight]
    rcases standing c hc with ⟨hs, hne⟩ | ⟨rfl, state⟩
    · obtain ⟨hq, state, alone⟩ := standing' c hs
      exact ⟨hq, (states _ hq hne).trans state, alone⟩
    · exact ⟨hv, state, quick⟩
  · rw [chain a ha]; exact links a ha

/-- The end of a move in flight: its entry goes, and then its block is written. -/
theorem longOrdersOk_ended {k : Nat} {r : Result} {m : Move} (apart : blocksApart blocks) (ok : longOrdersOk blocks s)
    (flying : (s.gap.get k).move.inFlight = true) (ended : m.inFlight = false) :
    longOrdersOk blocks ((retireLong k r s).withMove k m) := by
  obtain ⟨occupied, taken, standing, watched, links, halt, form⟩ := ok
  have hk : k ∈ standNumbers := by
    by_contra out
    rw [move_outside s k fun h => out (of_stand h)] at flying
    cases flying
  obtain ⟨q, hq⟩ := Option.isSome_iff_exists.mp ((occupied k hk).trans flying)
  obtain ⟨block, -, alone⟩ := taken k hk q hq
  let u := ({ s with orders := { s.orders with inFlight := s.orders.inFlight.set k none } }).withMove k m
  have entry (j : Nat) : u.orders.inFlight.get j = if j = k then none else s.orders.inFlight.get j :=
    PerStand.get_set _ _ _ _ (stand_of hk)
  have move (j : Nat) : u.gap.get j = if j = k then { s.gap.get k with move := m } else s.gap.get j :=
    PerStand.get_set _ _ _ _ (stand_of hk)
  have removed : longOrdersOk blocks u := by
    refine ⟨fun j hj => ?_, fun j hj p h => ?_, fun c hc => ?_, watched, links, halt, form⟩
    · rw [entry, move]
      split
      · exact ended.symm
      · exact occupied j hj
    · rw [entry] at h
      split at h
      · cases h
      · obtain ⟨hp, state, others⟩ := taken j hj p h
        refine ⟨hp, state, fun i hi hne => ?_⟩
        rw [entry]
        split
        · exact nofun
        · exact others i hi hne
    · obtain ⟨hp, state, others⟩ := standing c hc
      refine ⟨hp, state, fun i hi => ?_⟩
      rw [entry]
      split
      · exact nofun
      · exact others i hi
  have result : (retireLong k r s).withMove k m = { u with
      exm := writeResult s.exm q r, attention := s.attention ||| attnOrder } := by
    unfold retireLong
    rw [hq]
    rfl
  rw [result]
  refine longOrdersOk_of_block_written apart removed block (fun j hj => ?_) (read_writeResult_outside form)
    (wf_writeResult _ _ _ form) rfl rfl (fun c hc => .inl ⟨hc, fun e => ?_⟩) watched halt
  · rw [entry]
    split
    · exact nofun
    · exact alone j hj ‹_›
  · exact (standing c hc).2.2 k hk (e ▸ hq)

theorem Worked.longOrdersOk (apart : blocksApart blocks) (h : Worked s t) (ok : longOrdersOk blocks s) : longOrdersOk blocks t := by
  induction h with
  | refl => exact ok
  | calm _ c ih => exact c.longOrdersOk ih
  | ended k r m flying ended _ ih => exact longOrdersOk_ended apart ih flying ended

/-- A quick order's end, or a long order's refusal: its block is written and its copy dropped. -/
theorem longOrdersOk_retireTaken (r : Result) (apart : blocksApart blocks) (ok : longOrdersOk blocks s) :
    longOrdersOk blocks (retireTaken r s) := by
  unfold retireTaken
  split
  case h_1 c hc =>
    have ⟨_, _, standing, watched, _, _, form⟩ := ok
    obtain ⟨hp, -, alone⟩ := standing c hc
    exact longOrdersOk_of_block_written apart ok hp alone (read_writeResult_outside form) (wf_writeResult _ _ _ form) rfl rfl
      (fun _ (h : none = some _) => nomatch h) watched fun _ => rfl
  case h_2 => exact ok

theorem retireTaken_copy (r : Result) (s : State) : (retireTaken r s).orders.copy = none := by
  unfold retireTaken
  split
  · rfl
  · assumption

/-- A long order accepted: its block, which is TAKEN, is entered for its stand's move. -/
theorem longOrdersOk_acceptLong {c : OrderCopy} {k : Nat} {m : Move} (ok : longOrdersOk blocks s) (hc : s.orders.copy = some c)
    (flying : m.inFlight = true) :
    longOrdersOk blocks (acceptLong k c.ptr m s) := by
  obtain ⟨occupied, taken, standing, watched, links, halt, form⟩ := ok
  obtain ⟨hp, state, alone⟩ := standing c hc
  by_cases hk : 1 ≤ k ∧ k ≤ 8
  · have entry (j : Nat) : (acceptLong k c.ptr m s).orders.inFlight.get j =
        if j = k then some c.ptr else s.orders.inFlight.get j := PerStand.get_set _ _ _ _ hk
    have move (j : Nat) : (acceptLong k c.ptr m s).gap.get j =
        if j = k then { s.gap.get k with move := m } else s.gap.get j := PerStand.get_set _ _ _ _ hk
    refine ⟨fun j hj => ?_, fun j hj p h => ?_, (fun _ (h : none = some _) => nomatch h), watched, links, fun _ => rfl, form⟩
    · rw [entry, move]
      split
      · exact flying.symm
      · exact occupied j hj
    · rw [entry] at h
      split at h
      · cases h
        refine ⟨hp, state, fun i hi hne => ?_⟩
        rw [entry, if_neg (by omega)]
        exact alone i hi
      · obtain ⟨hq, st, others⟩ := taken j hj p h
        refine ⟨hq, st, fun i hi hne => ?_⟩
        rw [entry]
        split
        · rintro ⟨⟩
          exact alone j hj h
        · exact others i hi hne
  · have same : acceptLong k c.ptr m s = { s with orders := { s.orders with copy := none } } := by
      unfold acceptLong State.withMove State.withRef
      rw [PerStand.set_outside _ _ _ hk, PerStand.set_outside _ _ _ hk]
    rw [same]
    exact ⟨occupied, taken, (fun _ (h : none = some _) => nomatch h), watched, links, fun _ => rfl, form⟩

/-! ### The intake -/

theorem word_of_link (links : linksAmong blocks s.exm) {w : Nat} (hw : w = 0 ∨ blocks w) (hv : s.exm.wordAt w ≠ 0)
    (good : pointerFault (s.exm.wordAt w) = none) : blocks (s.exm.wordAt w) := by
  rcases links w hw with zero | block | fault
  · exact absurd zero hv
  · exact block
  · rw [show pointerFault (s.exm.readWord w).toNat = none from good] at fault
    cases fault

/-- At HALT no kind of order is accepted (R168). -/
theorem levelAccepts_halt (kind : Nat) : levelAccepts kind .halt = false := by
  unfold levelAccepts acceptingLevels
  split <;> rfl

theorem level_of_commonCheck {v : Nat} (h : commonCheck s v = none) : s.level ≠ .halt := by
  intro halt
  unfold commonCheck at h
  rw [halt] at h
  dsimp only at h
  split at h
  · cases h
  · rw [levelAccepts_halt] at h
    split at h <;> cases h

theorem longOrdersOk_markTaken {v : Nat} (apart : blocksApart blocks) (ok : longOrdersOk blocks s) (hv : blocks v)
    (quick : ∀ k ∈ standNumbers, s.orders.inFlight.get k ≠ some v) (free : s.orders.copy = none) :
    longOrdersOk blocks (markTaken v s) ∧ (markTaken v s).exm.readWord (v + 2) = 2 := by
  have form : s.exm.wf = true := ok.2.2.2.2.2.2
  refine ⟨longOrdersOk_of_block_written apart ok hv quick (fun a ha => ?_) (Memory.wf_writeWord _ _ _ form) rfl rfl
    (fun c (hc : s.orders.copy = some c) => ?_) (fun w hw => ?_) fun _ => free, Memory.readWord_writeWord _ _ _ form⟩
  · exact (Memory.read_writeWord _ _ _ _ form).trans (by rw [if_neg (by omega), if_neg (by omega)])
  · rw [free] at hc; cases hc
  · cases hw; exact .inr hv

/-- A block that is not in flight retired, nothing else being taken. -/
theorem longOrdersOk_retire {v : Nat} (r : Result) (apart : blocksApart blocks) (ok : longOrdersOk blocks s) (hv : blocks v)
    (quick : ∀ k ∈ standNumbers, s.orders.inFlight.get k ≠ some v) (free : s.orders.copy = none) :
    longOrdersOk blocks (retire v r s) := by
  have ⟨_, _, _, watched, _, _, form⟩ := ok
  refine longOrdersOk_of_block_written apart ok hv quick (read_writeResult_outside form) (wf_writeResult _ _ _ form) rfl rfl
    (fun c (hc : s.orders.copy = some c) => ?_) watched fun _ => free
  rw [free] at hc; cases hc

theorem longOrdersOk_copyOrder {v : Nat} (ok : longOrdersOk blocks s) (hv : blocks v)
    (quick : ∀ k ∈ standNumbers, s.orders.inFlight.get k ≠ some v) (state : s.exm.readWord (v + 2) = 2)
    (level : s.level ≠ .halt) : longOrdersOk blocks (copyOrder v s) := by
  obtain ⟨occupied, taken, -, watched, links, -, form⟩ := ok
  refine ⟨occupied, taken, fun c hc => ?_, watched, links, fun halt => absurd halt level, form⟩
  obtain ⟨o, -, rfl⟩ := Option.map_eq_some_iff.mp hc
  exact ⟨hv, state, quick⟩

/-- What the intake does with a block keeps the laws: it writes STATE and RESULT of a block that is not in flight. -/
theorem longOrdersOk_intake (apart : blocksApart blocks) : ∀ (fuel : Nat) (s : State), longOrdersOk blocks s →
    s.orders.copy = none → longOrdersOk blocks (intake fuel s)
  | 0, _, ok, _ => ok
  | fuel + 1, s, ok, free => by
    have ⟨_, taken, _, watched, links, _, form⟩ := ok
    unfold intake
    split
    case h_1 => exact ok
    case h_2 w hw =>
      extract_lets v
      split
      · exact ok
      case isFalse nonzero =>
        split
        · exact Worked.longOrdersOk apart Worked.refl.note ok
        case h_2 good =>
          have hv : blocks v := word_of_link links (watched w hw) nonzero good
          split
          · exact Worked.longOrdersOk apart Worked.refl.note ok
          case isFalse notFlying =>
            have quick : ∀ k ∈ standNumbers, s.orders.inFlight.get k ≠ some v := fun k hk h =>
              notFlying ⟨congrArg BitVec.toNat (taken k hk v h).2.1, (inflight_iff s v).mpr ⟨k, hk, h⟩⟩
            split
            · exact longOrdersOk_retire _ apart ok hv quick free
            · obtain ⟨marked, state⟩ := longOrdersOk_markTaken apart ok hv quick free
              split
              · exact longOrdersOk_intake apart fuel _ (longOrdersOk_retire _ apart marked hv quick free) free
              case h_2 passes => exact longOrdersOk_copyOrder marked hv quick state (level_of_commonCheck passes)

theorem longOrdersOk_freeToTake (apart : blocksApart blocks) (ok : longOrdersOk blocks s) (free : s.orders.copy = none) :
    longOrdersOk blocks (freeToTake s) := longOrdersOk_intake apart _ s ok free

theorem longOrdersOk_startIntake (apart : blocksApart blocks) (ok : longOrdersOk blocks s) (free : s.orders.copy = none) :
    longOrdersOk blocks (startIntake s) := by
  obtain ⟨occupied, taken, standing, -, links, halt, form⟩ := ok
  exact longOrdersOk_freeToTake apart
    ⟨occupied, taken, standing, fun w (hw : some 0 = some w) => .inl (Option.some.inj hw).symm, links, halt, form⟩ free

end

/-! ### The owner's work on an order -/

/-- From `s`, where the order `c` stands taken, to `t` the order was ended, or accepted as a long one with its move. -/
def OrderDone (c : OrderCopy) (s t : State) : Prop :=
  (∃ u r, Worked s u ∧ t = retireTaken r u) ∨
    ∃ k m, m.inFlight = true ∧ t = acceptLong k c.ptr m s

section
variable {c : OrderCopy} {s u : State}

theorem OrderDone.retired (h : Worked s u) (r : Result) : OrderDone c s (retireTaken r u) := .inl ⟨u, r, h, rfl⟩

theorem OrderDone.refused (r : Result) : OrderDone c s (retireTaken r s) := .retired .refl r

theorem OrderDone.ite {p : Prop} [Decidable p] {a b : State} (h : p → OrderDone c s a) (g : ¬p → OrderDone c s b) :
    OrderDone c s (if p then a else b) := by
  split
  · exact h ‹_›
  · exact g ‹_›

theorem OrderDone.copy {t : State} (h : OrderDone c s t) : t.orders.copy = none := by
  rcases h with ⟨u, r, -, rfl⟩ | ⟨k, m, -, rfl⟩
  · exact retireTaken_copy r u
  · rfl

theorem OrderDone.retiredFree (h : Worked s u) : OrderDone c s (retireFree u) :=
  .retired (h.keep (u := useFree u) rfl rfl rfl rfl) _

theorem announceHeadWork_done {coil h0 tm} : OrderDone c s (announceHeadWork coil h0 tm s) := by
  unfold announceHeadWork
  exact .ite (fun _ => .refused _) fun _ => .ite (fun _ => .refused _) fun _ => .ite (fun _ => .refused _) fun _ =>
    .ite (fun _ => .refused _) fun _ => .retired Worked.refl.withTracker.leaveVacant.checkCoil _

theorem setModulusWork_done {k t tm} : OrderDone c s (setModulusWork k t tm s) := by
  unfold setModulusWork
  refine .ite (fun _ => .refused _) fun _ => ?_
  split
  · exact .refused _
  · refine .ite (fun _ => .refused _) fun _ => .ite (fun _ => .retired ?_ _) fun _ => .retired Worked.refl.withEst _
    exact Worked.refl.withEst.note

theorem setTrimWork_done {k trim} : OrderDone c s (setTrimWork k trim s) := by
  unfold setTrimWork
  have trimmed : Worked s (s.withRef k { s.gap.get k with trim := limit trim s.lineCopy.trimLim }) := Worked.refl.withRef rfl
  exact .ite (fun _ => .refused _) fun _ => .retired trimmed _

theorem loadInto_done {x r ks tm} : OrderDone c s (loadInto x r ks tm s) := by
  have stored : Worked s { s with store := { s.store.withSlot x { state := .waiting, coil := r.coil, schedule := some r } with
      lastLoaded := some x } } := Worked.refl.keep rfl rfl rfl rfl
  exact .retired stored.switchStands _

theorem loadScheduleWork_done {take tm} : OrderDone c s (loadScheduleWork take tm s) := by
  unfold loadScheduleWork
  split
  · exact .refused _
  · split
    · exact .refused _
    · split
      · exact loadInto_done
      · exact loadInto_done
      · exact loadInto_done
      · exact .refused _

theorem unloadScheduleWork_done {field tm} : OrderDone c s (unloadScheduleWork field tm s) := by
  unfold unloadScheduleWork
  split
  · exact .refused _
  · exact .ite (fun _ => .retiredFree Worked.refl.freeSlot) fun _ => .refused _

theorem presetGapWork_done {k target tol tm} : OrderDone c s (presetGapWork c.ptr k target tol tm s) := by
  unfold presetGapWork
  refine .ite (fun _ => .refused _) fun _ => .ite (fun _ => .refused _) fun _ => .ite (fun _ => .refused _) fun _ =>
    .ite (fun _ => .refused _) fun _ => .ite (fun _ => .refused _) fun _ => .ite (fun _ => .refused _) fun _ =>
    .ite (fun _ => .refused _) fun _ => .ite (fun _ => .refused _) fun _ => ?_
  exact .inr ⟨k, _, rfl, rfl⟩

theorem calibrateZeroWork_done {k tm} : OrderDone c s (calibrateZeroWork c.ptr k tm s) := by
  unfold calibrateZeroWork
  refine .ite (fun _ => .refused _) fun _ => .ite (fun _ => .refused _) fun _ => .ite (fun _ => .refused _) fun _ =>
    .ite (fun _ => .refused _) fun _ => .ite (fun _ => .refused _) fun _ => ?_
  exact .inr ⟨k, _, rfl, rfl⟩

theorem abortMoveWork_done {k} : OrderDone c s (abortMoveWork k s) := by
  unfold abortMoveWork
  exact .ite (fun _ => .refused _) fun _ => .ite (fun _ => .refused _) fun _ => .ite (fun _ => .refused _) fun _ =>
    .retiredFree Worked.refl.abortMove

/-- ORDERED taken for each of the stands, whatever is counted. -/
theorem Worked.raiseOrdered {ks : List Nat} {tm : Clock} : Worked s (raiseOrdered ks tm s).1 := by
  obtain ⟨m, raised, -⟩ := raise_count ks tm s 0
  unfold Machine.raiseOrdered
  rw [raised]
  exact foldl (fun _ _ h => h.takeCause) ks s .refl

theorem tripStandsWork_done {mill set tm} : OrderDone c s (tripStandsWork mill set tm s) :=
  .ite (fun _ => .refused _) fun _ => .ite (fun _ => .refused _) fun _ => .retired Worked.raiseOrdered _

theorem Worked.thicknessTripReset {tm : Clock} {t : State} (h : Worked s t) : Worked s (thicknessTripReset tm t) := by
  apply h.keep <;> simp

theorem Worked.acceptReset {tm : Clock} : Worked s (acceptReset tm s) := by
  have cleared : Worked s (clearTrip s) := refl.keep rfl rfl rfl rfl
  have thickness := cleared.flush (tm := s.clock) |>.resetThreading.thicknessTripReset (tm := s.clock)
  have terms := (thickness.keep (u := gaugeTripReset _) rfl rfl rfl rfl).mapRef (f := fun r => { r with
    ff := 0, agc := 0, mon := 0, hLock := 0 }) fun _ => rfl
  exact terms.collapseSlots.note.rewriteTripArea

theorem resetTripWork_done {tm} : OrderDone c s (resetTripWork tm s) := by
  unfold resetTripWork
  refine .ite (fun _ => .refused _) fun _ => ?_
  split
  · exact .refused _
  · exact .retired Worked.acceptReset _

/-- Every owner ends the order that stands taken, or accepts it as a long one (R168, R169). -/
theorem ownerWork_done (c : OrderCopy) (s : State) : OrderDone c s (ownerWork c s) := by
  unfold ownerWork
  split
  · exact announceHeadWork_done
  · exact setModulusWork_done
  · exact setTrimWork_done
  · exact loadScheduleWork_done
  · exact unloadScheduleWork_done
  · exact presetGapWork_done
  · exact calibrateZeroWork_done
  · exact abortMoveWork_done
  · exact tripStandsWork_done
  · exact resetTripWork_done

theorem OrderDone.longOrdersOk {blocks : Nat → Prop} {t : State} (apart : blocksApart blocks) (h : OrderDone c s t)
    (hc : s.orders.copy = some c) (ok : longOrdersOk blocks s) : longOrdersOk blocks t := by
  rcases h with ⟨u, r, worked, rfl⟩ | ⟨k, m, flying, rfl⟩
  · exact longOrdersOk_retireTaken r apart (worked.longOrdersOk apart ok)
  · exact longOrdersOk_acceptLong ok hc flying

end
end Sys2Proof.Machine

/-! Proofs for the table of long orders in flight (R110, R169), third part: the port, HALT, the requests for a level, and every
command. -/

namespace Sys2Proof.Machine

/-! ### What a command that requests no level does to the orders -/

/-- What a command that requests no level does: work of the blocks; or the owner's work on the order that stands taken, and the
next read; or a processor write. -/
inductive Does (i : Instr) (s u : State) : Prop
  | works : Worked s u → Does i s u
  | owns (dt : Clock) (c : OrderCopy) : s.orders.copy = some c → u = freeToTake (ownerWork c (s.tick dt)) → Does i s u
  | writes (dt : Clock) (a : Nat) (v : Word) : a % 2 = 0 ∨ s.orders.watched = some a →
      processorMemory i s = s.exm.writeWord a v → u = portWrite a v (s.tick dt) → Does i s u

section
variable {i : Instr} {s t : State}

theorem Worked.tick (s : State) (dt : Clock) : Worked s (s.tick dt) := refl.keep rfl rfl rfl rfl

/-- A command that works where its condition holds, and only passes time elsewhere. -/
theorem Does.of_ite {p : Prop} [Decidable p] {dt : Clock} {x : State} (h : Worked (s.tick dt) x)
    (e : (if p then finish x else finish (s.tick dt)) = .next t) : ∃ u, t = u.settled ∧ Does i s u := by
  split at e
  · exact ⟨_, finish_next e, .works ((Worked.tick s dt).trans h)⟩
  · exact ⟨_, finish_next e, .works (Worked.tick s dt)⟩

theorem Does.idle {dt : Clock} (e : finish (s.tick dt) = .next t) : ∃ u, t = u.settled ∧ Does i s u :=
  ⟨_, finish_next e, .works (Worked.tick s dt)⟩

theorem Worked.etripTaken {lvl : EtripLevel} (h : Worked s t) : Worked s (etripTaken lvl t) := by
  have level : Worked s { t with etripPin := lvl, trip := { t.trip with etrip := lvl } } := h.keep rfl rfl rfl rfl
  exact ite level (ite level.takeCause level.rewriteTripArea)

theorem exec_does (h : exec i s = .next t) (other : i.requestsLevel = false) : ∃ u, t = u.settled ∧ Does i s u := by
  have r {dt : Clock} : Worked (s.tick dt) (s.tick dt) := .refl
  cases i with
  | powerOn _ | runLevelHalt _ | runLevelConfigure _ | runLevelLoopback _ | runLevelRun _ => cases other
  | attentionWrite dt v | attentionMaskWrite dt v | resetAsserted dt =>
    exact ⟨_, finish_next h, .works (Worked.refl.keep rfl rfl rfl rfl)⟩
  | registerWriteIgnored dt o v | strayFrameDiscard dt b => exact Does.idle h
  | etripChange dt l => exact ⟨_, finish_next h, .works (Worked.tick s dt).etripTaken⟩
  | exmWrite dt a v => exact ⟨_, finish_next h, .writes dt _ v (.inl (Nat.mul_mod_right 2 _)) rfl rfl⟩
  | journalReadWrite dt v => exact ⟨_, finish_next h, .writes dt _ v (.inl rfl) rfl rfl⟩
  | watchedWordArrival dt v =>
    simp only [exec, execWatchedWordArrival] at h
    split at h
    case h_1 w hw =>
      have hw' : s.orders.watched = some w := hw
      exact ⟨_, finish_next h, .writes dt w v (.inr hw') (by simp [processorMemory, hw']) rfl⟩
    case h_2 => exact Does.idle h
  | announceHead dt | setModulus dt | setTrim dt | loadSchedule dt | unloadSchedule dt | presetGap dt | calibrateZero dt
  | abortMove dt | tripStands dt | resetTrip dt =>
    simp only [exec, execAnnounceHead, execSetModulus, execSetTrim, execLoadSchedule, execUnloadSchedule, execPresetGap,
      execCalibrateZero, execAbortMove, execTripStands, execResetTrip] at h
    split at h
    case h_1 hc => exact ⟨_, finish_next h, .owns dt _ hc rfl⟩
    case h_2 => exact Does.idle h
  | pollTimerExpiry dt => exact Does.of_ite r.timerExpiry h
  | pollSent dt =>
    simp only [exec, execPollSent] at h
    split at h
    · exact Does.of_ite r.withCycle h
    · exact Does.idle h
  | replyStart dt =>
    simp only [exec, execReplyStart] at h
    split at h
    · exact Does.of_ite r.withCycle h
    · exact Does.idle h
  | replyWindowClose dt b =>
    simp only [exec, execReplyWindowClose] at h
    split at h
    · exact Does.of_ite r.endWithMiss h
    · exact Does.idle h
  | replyReceived dt fr fin plan =>
    simp only [exec, execReplyReceived] at h
    split at h
    · exact Does.of_ite r.atTime.frameEnded.atTime h
    · exact Does.idle h
  | bodyCut dt dL => exact Does.of_ite (Worked.takeRaised (Worked.summaryAfter ((Worked.track _).countDown r))) h
  | loadOn dt k f | loadOff dt k f | lockOn dt k f => exact Does.of_ite r.threadingWork.summaryAfter.takeRaised h
  | presetComplete dt k g | zeroFound dt k p f | calibrationRetire dt k g => exact Does.of_ite r.moveTest h
  | moveTimeout dt k => exact Does.of_ite r.timeoutTest h
  | stationSilent dt e => exact Does.of_ite r.missReply h
  | stationRejoined dt e rep plan => exact Does.of_ite r.validReply h
  | sampleExpiry dt => exact Does.of_ite r.expireSample h
  | elapsedSaturated dt e => exact Does.of_ite r.withStation h

end

/-! ### The port -/

section
variable {blocks : Nat → Prop} {s : State}

theorem partOwned_state {p : Nat} (h : p ∈ s.takenBlocks) : partOwned s (p + 2) = true := by
  have : (s.takenBlocks.any fun q => p + 2 == q + 2 || p + 2 == q + 3 || decide (q + 6 ≤ p + 2 ∧ p + 2 < q + 12)) = true :=
    List.any_eq_true.mpr ⟨p, h, by simp⟩
  unfold partOwned
  rw [this, Bool.or_true]

theorem takenBlocks_of_copy {c : OrderCopy} (h : s.orders.copy = some c) : c.ptr ∈ s.takenBlocks := by
  simp [State.takenBlocks, h]

theorem takenBlocks_of_inFlight {k q : Nat} (hk : k ∈ standNumbers) (h : s.orders.inFlight.get k = some q) :
    q ∈ s.takenBlocks := by
  have entry : some q ∈ s.orders.inFlight.toList := by
    have := (inflight_iff s q).mpr ⟨k, hk, h⟩
    simpa [State.blockInFlight] using this
  exact List.mem_append_right _ (List.mem_filterMap.mpr ⟨_, entry, rfl⟩)

/-- A processor write to a word that is not the part's leaves the STATE of every block taken. -/
theorem longOrdersOk_writeWord {a : Nat} {v : Word} (apart : blocksApart blocks) (ok : longOrdersOk blocks s) (even : a % 2 = 0)
    (landed : partOwned s a = false) (links : linksAmong blocks (s.exm.writeWord a v)) :
    longOrdersOk blocks { s with exm := s.exm.writeWord a v } := by
  obtain ⟨occupied, taken, standing, watched, -, halt, form⟩ := ok
  have state {q : Nat} (hq : blocks q) (mem : q ∈ s.takenBlocks) :
      (s.exm.writeWord a v).readWord (q + 2) = s.exm.readWord (q + 2) := by
    have place := (apart.1 q hq).1
    have other : a ≠ q + 2 := fun e => by rw [e, partOwned_state mem] at landed; cases landed
    exact Memory.readWord_writeWord_apart _ _ _ _ form (by omega)
  refine ⟨occupied, fun k hk q h => ?_, fun c hc => ?_, watched, links, halt, Memory.wf_writeWord _ _ _ form⟩
  · obtain ⟨hq, taken, alone⟩ := taken k hk q h
    exact ⟨hq, (state hq (takenBlocks_of_inFlight hk h)).trans taken, alone⟩
  · obtain ⟨hq, taken, alone⟩ := standing c hc
    exact ⟨hq, (state hq (takenBlocks_of_copy hc)).trans taken, alone⟩

theorem Worked.journalReadEvent {t : State} {v : Word} (h : Worked s t) : Worked s (journalReadEvent v t) := by
  refine ite ?_ h
  obtain ⟨j, a, rest⟩ := reportLoss_rest { t with journal := { t.journal with r := v.setWidth 8 } }
  rw [rest]
  exact h.keep rfl rfl rfl rfl

theorem longOrdersOk_arrivalEvent {a : Nat} (apart : blocksApart blocks) (ok : longOrdersOk blocks s) :
    longOrdersOk blocks (arrivalEvent a s) := by
  unfold arrivalEvent
  split
  case isTrue watches => exact longOrdersOk_freeToTake apart ok watches.2
  case isFalse => exact ok

theorem longOrdersOk_portWrite {a : Nat} {v : Word} (apart : blocksApart blocks) (ok : longOrdersOk blocks s) (even : a % 2 = 0)
    (links : linksAmong blocks (s.exm.writeWord a v)) : longOrdersOk blocks (portWrite a v s) := by
  unfold portWrite
  split
  · exact Worked.longOrdersOk apart (Worked.refl.keep rfl rfl rfl rfl) ok
  case isFalse landed =>
    have written := longOrdersOk_writeWord apart ok even (by simpa using landed) links
    have read := Worked.longOrdersOk apart (Worked.ite (c := a = journalReadAt) (Worked.refl.journalReadEvent (v := v)) .refl) written
    exact longOrdersOk_arrivalEvent apart read

/-! ### HALT and the requests for a level -/

/-- A byte after STATE and RESULT of a block were set to 0 (R159). -/
theorem read_zeroBlock {m : Memory} (p a : Nat) (form : m.wf = true) :
    (zeroBlock m p).read a = if (p + 2 ≤ a ∧ a < p + 4) ∨ (p + 6 ≤ a ∧ a < p + 12) then 0 else m.read a := by
  have f1 := Memory.wf_writeWord m (p + 2) 0 form
  have f2 := Memory.wf_writeWord _ (p + 6) 0 f1
  have f3 := Memory.wf_writeWord _ (p + 8) 0 f2
  have zero : (0 : Word).setWidth 8 = 0#8 ∧ ((0 : Word) >>> 8).setWidth 8 = 0#8 := by decide
  rw [zeroBlock, Memory.read_writeWord _ _ _ _ f3, Memory.read_writeWord _ _ _ _ f2, Memory.read_writeWord _ _ _ _ f1,
    Memory.read_writeWord _ _ _ _ form, zero.1, zero.2]
  by_cases zeroed : (p + 2 ≤ a ∧ a < p + 4) ∨ (p + 6 ≤ a ∧ a < p + 12)
  · rw [if_pos zeroed]
    repeat' split
    any_goals rfl
    omega
  · rw [if_neg zeroed]
    repeat' rw [if_neg (by omega)]

theorem read_zeroBlocks (ps : List Nat) (a : Nat) : ∀ m : Memory, m.wf = true → (ps.foldl zeroBlock m).read a =
    if ∃ p ∈ ps, (p + 2 ≤ a ∧ a < p + 4) ∨ (p + 6 ≤ a ∧ a < p + 12) then 0 else m.read a := by
  induction ps with
  | nil => intro m _; simp
  | cons p ps ih =>
    intro m form
    rw [List.foldl_cons, ih _ (wf_zeroBlock m p form), read_zeroBlock p a form, ← ite_or]
    exact if_congr (by rw [List.exists_mem_cons_iff, or_comm]) rfl rfl

theorem read_haltMemory (a : Nat) (form : memoryOk s) : (haltMemory s).read a =
    if a = 3 ∨ a = 2 ∨ ∃ p ∈ s.takenBlocks, (p + 2 ≤ a ∧ a < p + 4) ∨ (p + 6 ≤ a ∧ a < p + 12) then 0 else s.exm.read a := by
  have zero : (0 : Word).setWidth 8 = 0#8 ∧ ((0 : Word) >>> 8).setWidth 8 = 0#8 := by decide
  rw [haltMemory, Memory.read_writeWord _ _ _ _ (wf_zeroBlocks _ _ form), read_zeroBlocks _ _ _ form, zero.1, zero.2, ite_or, ite_or]
  rfl

theorem takenBlocks_blocks (ok : longOrdersOk blocks s) {p : Nat} (h : p ∈ s.takenBlocks) : blocks p := by
  obtain ⟨-, taken, standing, -⟩ := ok
  rcases List.mem_append.mp h with h | h
  · simp only [Option.mem_toList, Option.map_eq_some_iff] at h
    obtain ⟨c, hc, rfl⟩ := h
    exact (standing c hc).1
  · obtain ⟨_, entry, rfl⟩ := List.mem_filterMap.mp h
    obtain ⟨k, hk, e⟩ := (inflight_iff s p).mp (by simpa [State.blockInFlight] using entry)
    exact (taken k hk p e).1

theorem longOrdersOk_haltState (apart : blocksApart blocks) (ok : longOrdersOk blocks s) : longOrdersOk blocks (haltState s) := by
  have ⟨_, _, _, _, links, _, form⟩ := ok
  obtain ⟨occupied, taken, standing, watched, -, halt, -⟩ := longOrdersOk_reset blocks
  refine ⟨occupied, fun k hk q h => ?_, fun c hc => ?_, watched, fun a ha => ?_, halt, wf_haltMemory s form⟩
  · have none : State.reset.orders.inFlight.get k = none := PerStand.get_all _ _ (stand_of hk)
    rw [show (haltState s).orders = State.reset.orders from rfl, none] at h
    cases h
  · rw [show (haltState s).orders.copy = none from rfl] at hc
    cases hc
  · have kept {b : Nat} (low : a ≤ b) (high : b ≤ a + 1) : (haltMemory s).read b = s.exm.read b := by
      rw [read_haltMemory _ form, if_neg]
      have place : a = 0 ∨ 4096 ≤ a := ha.imp_right fun h => (apart.1 a h).2.1
      rintro (h | h | ⟨p, hp, h⟩)
      · omega
      · omega
      · have hb := takenBlocks_blocks ok hp
        have := apart.1 p hb
        rcases ha with rfl | ha
        · omega
        · rcases Nat.lt_trichotomy a p with lt | rfl | gt
          · have := apart.2 a p ha hb lt; omega
          · omega
          · have := apart.2 p a hb ha gt; omega
    have word : (haltMemory s).readWord a = s.exm.readWord a := by
      unfold Memory.readWord
      rw [kept (Nat.le_refl a) (Nat.le_succ a), kept (Nat.le_succ a) (Nat.le_refl _)]
    rw [show (haltState s).exm = haltMemory s from rfl, word]
    exact links a ha

/-! ### The requests for a level -/

theorem OrderDone.halt {c : OrderCopy} {t : State} (h : OrderDone c s t) (level : t.level = .halt) : s.level = .halt := by
  rcases h with ⟨u, r, worked, rfl⟩ | ⟨k, m, -, rfl⟩
  · rw [(retireTaken_keeps u r).2.2.2.1] at level
    exact worked.halt level
  · exact level

/-- The order that stands taken carried out before a change of level: none stands taken then (R162, log 5). -/
theorem finishTaken_done (s : State) : (finishTaken s).orders.copy = none ∧
    ((finishTaken s).level = .halt → s.level = .halt) := by
  unfold finishTaken
  split
  · exact ⟨(ownerWork_done _ s).copy, (ownerWork_done _ s).halt⟩
  · exact ⟨‹_›, id⟩

theorem longOrdersOk_finishTaken (apart : blocksApart blocks) (ok : longOrdersOk blocks s) :
    longOrdersOk blocks (finishTaken s) := by
  unfold finishTaken
  split
  · exact (ownerWork_done _ s).longOrdersOk apart ‹_› ok
  · exact ok

/-- A change of level that is work after the order that stood taken was carried out. -/
theorem longOrdersOk_resumeIntake {u : State} (apart : blocksApart blocks) (ok : longOrdersOk blocks s)
    (h : Worked (finishTaken s) u) : longOrdersOk blocks (resumeIntake s u) := by
  have worked := h.longOrdersOk apart (longOrdersOk_finishTaken apart ok)
  unfold resumeIntake
  split
  · exact longOrdersOk_freeToTake apart worked (h.copy.trans (finishTaken_done s).1)
  · exact worked

theorem resumeIntake_free {u : State} (free : s.orders.copy = none) : resumeIntake s u = u := by simp [resumeIntake, free]

theorem Worked.stopLink {t : State} (h : Worked s t) : Worked s (stopLink t) := h.keep rfl rfl rfl rfl

theorem longOrdersOk_requestConfigure (apart : blocksApart blocks) (ok : longOrdersOk blocks s) :
    longOrdersOk blocks (requestConfigure s) := by
  unfold requestConfigure
  split
  case h_1 halt =>
    exact longOrdersOk_startIntake apart (Worked.longOrdersOk apart (Worked.refl.leveled nofun) ok) (ok.2.2.2.2.2.1 halt)
  case h_2 => exact ok
  case h_3 => exact longOrdersOk_resumeIntake apart ok (Worked.refl.endMovesLevel.leveled (l := .configure) nofun).stopLink
  case h_4 => exact longOrdersOk_resumeIntake apart ok (Worked.refl.leaveRun (l := .configure) nofun)

theorem longOrdersOk_requestLoopback (apart : blocksApart blocks) (ok : longOrdersOk blocks s) :
    longOrdersOk blocks (requestLoopback s) := by
  unfold requestLoopback
  split
  case h_1 halt =>
    have entered : Worked s (enterLoopback s) := Worked.refl.enterLoopback
    exact longOrdersOk_startIntake apart (entered.longOrdersOk apart ok) (entered.copy.trans (ok.2.2.2.2.2.1 halt))
  case h_2 => exact longOrdersOk_resumeIntake apart ok Worked.refl.enterLoopback
  case h_3 => exact ok
  case h_4 => exact longOrdersOk_resumeIntake apart ok (Worked.refl.leaveRun (l := .loopback) nofun).enterLoopback

/-- Step 2 of R163. -/
theorem Worked.leaveLoopback {t : State} (h : Worked s t) : Worked s (leaveLoopback t) := ite h.endMovesLevel.stopLink h

/-- Steps 3 and 4 of R163 but for the intake's start. -/
theorem Worked.takeCopy {t : State} {l : LineDesc} (h : Worked s t) :
    Worked s { t with line := some l, configResult := 0, level := .run } :=
  (h.leveled (l := .run) nofun).keep rfl rfl rfl rfl

theorem longOrdersOk_enterRun {l : LineDesc} (apart : blocksApart blocks) (ok : longOrdersOk blocks s) :
    longOrdersOk blocks (resumeIntake s (enterRun l (finishTaken s))) := by
  by_cases halt : (leaveLoopback (finishTaken s)).level = .halt
  · have atHalt : s.level = .halt := (finishTaken_done s).2 (Worked.refl.leaveLoopback.halt halt)
    have free : s.orders.copy = none := ok.2.2.2.2.2.1 atHalt
    have left : Worked (finishTaken s) _ := Worked.refl.leaveLoopback.takeCopy (l := l)
    have started := longOrdersOk_startIntake apart (left.longOrdersOk apart (longOrdersOk_finishTaken apart ok))
      (left.copy.trans (finishTaken_done s).1)
    have entered := (Worked.refl.runEntry (n := (finishTaken s).line.map LineDesc.n)).longOrdersOk apart started
    rw [resumeIntake_free free]
    unfold enterRun takeLine
    simpa only [if_pos halt] using entered
  · refine longOrdersOk_resumeIntake apart ok ?_
    unfold enterRun takeLine
    simp only [if_neg halt]
    exact Worked.refl.leaveLoopback.takeCopy.runEntry

theorem longOrdersOk_requestRun (apart : blocksApart blocks) (ok : longOrdersOk blocks s) :
    longOrdersOk blocks (requestRun s) := by
  have validated : longOrdersOk blocks (validateAndEnter s) := by
    unfold validateAndEnter
    split
    · exact Worked.longOrdersOk apart (Worked.refl.keep rfl rfl rfl rfl) ok
    · exact longOrdersOk_enterRun apart ok
  unfold requestRun
  split
  · exact ok
  · exact validated
  · exact validated
  · exact validated

/-- Every command keeps the table of long orders, where the processor writes into the anchor and the links what it may. -/
theorem exec_keeps_longOrders {i : Instr} {t : State} (apart : blocksApart blocks) (ok : longOrdersOk blocks s)
    (links : linksAmong blocks (processorMemory i s)) (h : exec i s = .next t) : longOrdersOk blocks t := by
  have ticked (dt : Clock) : longOrdersOk blocks (s.tick dt) := (Worked.tick s dt).longOrdersOk apart ok
  by_cases requests : i.requestsLevel = true
  · refine exec_levelRequest h requests (fun e => longOrdersOk_reset blocks) (fun dt => ?_) (fun dt => ?_) (fun dt => ?_) fun dt => ?_
    · exact longOrdersOk_haltState apart (ticked dt)
    · exact longOrdersOk_requestConfigure apart (ticked dt)
    · exact longOrdersOk_requestLoopback apart (ticked dt)
    · exact longOrdersOk_requestRun apart (ticked dt)
  · obtain ⟨u, rfl, does⟩ := exec_does h (by simpa using requests)
    show longOrdersOk blocks u
    cases does with
    | works worked => exact worked.longOrdersOk apart ok
    | owns dt c hc e =>
      have done := ownerWork_done c (s.tick dt)
      rw [e]
      exact longOrdersOk_freeToTake apart (done.longOrdersOk apart hc (ticked dt)) done.copy
    | writes dt a v even memory e =>
      rw [memory] at links
      rw [e]
      refine longOrdersOk_portWrite apart (ticked dt) (even.elim id fun watched => ?_) links
      rcases ok.2.2.2.1 a watched with rfl | block
      · rfl
      · have := (apart.1 a block).1; omega

/-- Settles O11: an entry goes with its move, a block of the table is written with its entry's end alone, and what the processor
links is another block (R169). -/
theorem stepKeepsLongOrders : Obligations.StepKeepsLongOrders := by
  intro blocks s t apart ok premise h
  unfold step at h
  split at h
  case h_1 => cases h; exact ok
  case h_2 c rest hp =>
    have links := premise c (by rw [hp]; rfl)
    have same : processorMemory c { s with pending := rest } = processorMemory c s := by cases c <;> rfl
    exact exec_keeps_longOrders apart (s := { s with pending := rest }) ok (same ▸ links) h

end
end Sys2Proof.Machine

/-! Proofs for the laws of the Schedule Store (R96, R97). -/

namespace Sys2Proof.Machine

/-! ### The line's stands -/

/-- A valid description is of 2 to 8 stands (R181, check 1). -/
theorem LineDesc.n_of_valid {l : LineDesc} (valid : l.failure = none) : 2 ≤ l.n ∧ l.n ≤ 8 := by
  by_contra wrong
  have first : inRange l.n 2 8 = false := by simp [inRange]; omega
  have : l.failure = some (BitVec.ofNat 16 (4096 * ConfigCode.range.code + 0)) := by
    unfold LineDesc.failure LineDesc.checks LineDesc.stationChecks
    simp [firstFailure, first]
  rw [valid] at this
  cases this

/-- A validated copy is of 8 stands at most; without a copy there is none. -/
theorem n_le_of_copyOk {s : State} (ok : copyOk s) : s.n ≤ 8 := by
  unfold State.n State.lineCopy
  cases line : s.line with
  | none => decide
  | some l => exact (LineDesc.n_of_valid (ok.2 l line)).2

/-! ### A RESET_TRIP is taken at RUN -/

/-- A RESET_TRIP that stands taken was taken at RUN (R168). -/
def resetTakenAtRun (s : State) : Prop := ∀ c, s.orders.copy = some c → c.order = .resetTrip → s.level = .run

theorem resetTakenAtRun_of_free {s : State} (free : s.orders.copy = none) : resetTakenAtRun s := by
  intro c hc
  rw [free] at hc
  cases hc

theorem resetTakenAtRun_of_same {s t : State} (h : resetTakenAtRun s) (copy : t.orders.copy = s.orders.copy)
    (level : t.level = s.level) : resetTakenAtRun t := fun c hc reset => level.trans (h c (copy.symm.trans hc) reset)

/-- A block that holds a RESET_TRIP has its kind, 10. -/
theorem kind_of_orderAt_resetTrip {s : State} {v : Nat} (h : orderAt s v = some .resetTrip) : s.exm.wordAt (v + 4) = 10 := by
  unfold orderAt at h
  dsimp only at h
  split at h
  case h_10 kind => exact kind
  all_goals cases h

theorem level_of_accepted {s : State} {v : Nat} (h : commonCheck s v = none) :
    levelAccepts (s.exm.wordAt (v + 4)) s.level = true := by
  unfold commonCheck at h
  dsimp only at h
  split at h
  · cases h
  · split at h
    · cases h
    · split at h
      · cases h
      · simpa using ‹¬(!levelAccepts _ _) = true›

theorem run_of_accepts_resetTrip {l : RunLevel} (h : levelAccepts 10 l = true) : l = .run := by
  cases l <;> revert h <;> decide

theorem resetTakenAtRun_intake : ∀ (fuel : Nat) (s : State), resetTakenAtRun s → resetTakenAtRun (intake fuel s)
  | 0, _, h => h
  | fuel + 1, s, h => by
    unfold intake
    split
    · exact h
    · extract_lets v
      split
      · exact h
      · split
        · exact resetTakenAtRun_of_same h (by simp [chainFault]) (by simp)
        · split
          · exact resetTakenAtRun_of_same h (by simp [chainFault]) (by simp)
          · split
            · exact h
            · split
              · exact resetTakenAtRun_intake fuel _ h
              case h_2 passes =>
                intro c hc reset
                obtain ⟨o, order, rfl⟩ := Option.map_eq_some_iff.mp hc
                have accepted := level_of_accepted passes
                rw [kind_of_orderAt_resetTrip (order.trans (congrArg some reset))] at accepted
                exact run_of_accepts_resetTrip accepted

theorem resetTakenAtRun_freeToTake {s : State} (h : resetTakenAtRun s) : resetTakenAtRun (freeToTake s) :=
  resetTakenAtRun_intake _ s h

theorem resetTakenAtRun_startIntake {s : State} (h : resetTakenAtRun s) : resetTakenAtRun (startIntake s) :=
  resetTakenAtRun_freeToTake (s := { s with orders := { s.orders with watched := some 0 } }) h

theorem journalReadEvent_level {s : State} {v : Word} : (journalReadEvent v s).level = s.level := by
  unfold journalReadEvent
  split
  · obtain ⟨j, a, rest⟩ := reportLoss_rest { s with journal := { s.journal with r := v.setWidth 8 } }
    rw [rest]
  · rfl

theorem resetTakenAtRun_arrivalEvent {s : State} {a : Nat} (h : resetTakenAtRun s) : resetTakenAtRun (arrivalEvent a s) := by
  unfold arrivalEvent
  split
  · exact resetTakenAtRun_freeToTake h
  · exact h

theorem resetTakenAtRun_portWrite {s : State} {a : Nat} {v : Word} (h : resetTakenAtRun s) : resetTakenAtRun (portWrite a v s) := by
  have written : resetTakenAtRun { s with exm := s.exm.writeWord a v } := h
  unfold portWrite
  split
  · exact h
  · refine resetTakenAtRun_arrivalEvent ?_
    split
    · exact resetTakenAtRun_of_same written (Worked.copy Worked.refl.journalReadEvent) journalReadEvent_level
    · exact written

/-! ### Work of the blocks -/

section
variable {s : State}

theorem takeRaised_zones : (takeRaised s).tracker.zones = s.tracker.zones := by simp [takeRaised]

theorem Stock.takeRaised (h : StockRun s) : StockRun (takeRaised s) := h.same (by simp) (by simp) (by simp) takeRaised_zones

/-- A piece of work that is not the Tracker's leaves the Store, the line, the level and the zones. -/
theorem Stock.doWork {k p f v : Nat} {fl : ReplyFlags} {lock : Bool} {dt : Option Nat} {now : Clock} {w : Work}
    (h : StockRun s) : StockRun (doWork k p f v fl lock dt now w s) := by
  cases w with
  | tracker => exact stockRun_track.trackerWork h
  | causes => exact Stock.takeRaised h
  | gap | check | nextPoll => apply h.same <;> simp [Machine.doWork]

theorem Stock.plan {k p f v : Nat} {fl : ReplyFlags} {lock : Bool} {dt : Option Nat} {now : Clock} (plan : List Work)
    (s : State) (h : StockRun s) : StockRun (plan.foldl (fun s w => Machine.doWork k p f v fl lock dt now w s) s) := by
  induction plan generalizing s with
  | nil => exact h
  | cons w plan ih => exact ih _ (Stock.doWork h)

theorem Stock.withStation {e : PollEntry} {x : Station} (h : StockRun s) : StockRun (s.withStation e x) := by
  apply h.same <;> simp

theorem Stock.deliverStand {k p f v : Nat} {fl : ReplyFlags} {plan : List Work} {late : Bool} {now : Clock}
    (h : StockRun s) : StockRun (deliverStand k p f v fl plan late now s) := by
  unfold Machine.deliverStand
  extract_lets st v' src s1 lock s2
  have h1 : StockRun s1 := Stock.withStation h
  have h2 : StockRun s2 := Stock.plan plan _ (h1.same rfl rfl rfl rfl)
  exact h2.same rfl rfl rfl rfl

theorem Stock.onlyNextPoll {plan : List Work} {now : Clock} (h : StockRun s) : StockRun (onlyNextPoll plan now s) := by
  unfold Machine.onlyNextPoll
  split
  · apply h.same <;> simp
  · exact h

theorem Stock.validReply {e : PollEntry} {r : Reply} {plan : List Work} {late : Bool} {now : Clock} (h : StockRun s) :
    StockRun (validReply e r plan late now s) := by
  unfold Machine.validReply
  extract_lets st next s1 s2 s3
  have h1 : StockRun s1 := Stock.withStation h
  have h2 : StockRun s2 := by
    refine prop_ite h1 ?_
    apply h1.same <;> simp
  have h3 : StockRun s3 := Stock.withStation h1
  split
  · split
    · exact Stock.deliverStand h2
    · exact Stock.onlyNextPoll (h2.same (by simp) (by simp) (by simp) (by simp))
    · exact h2
    · exact h2
  · cases e with
    | stand k => exact Stock.onlyNextPoll (h3.same rfl rfl rfl rfl)
    | gauge => exact Stock.onlyNextPoll h3

theorem Stock.frameEnded {c : Cycle} {e : PollEntry} {fr : List Byte} {still : Bool} {plan : List Work} {now : Clock}
    (h : StockRun s) : StockRun (frameEnded c e fr still plan now s) := by
  unfold Machine.frameEnded
  split
  · exact Stock.validReply h
  · unfold endWithMiss
    refine prop_ite ?_ ?_ <;> apply h.same <;> simp

theorem Stock.timerExpiry (h : Stock s) : Stock (timerExpiry s) := by
  unfold Machine.timerExpiry cycleOnExpiry
  refine prop_ite (h.same (by simp) (by simp) (by simp) (by simp)) ?_
  split
  · apply h.same <;> simp
  · exact prop_ite (h.same (by simp) (by simp) (by simp) (by simp)) (h.same (by simp) (by simp) (by simp) (by simp))
  all_goals apply h.same <;> simp

theorem Stock.etripTaken {lvl : EtripLevel} (h : Stock s) : Stock (etripTaken lvl s) := by
  unfold Machine.etripTaken
  refine prop_ite ?_ (prop_ite ?_ ?_) <;> apply h.same <;> simp

theorem Stock.portWrite {a : Nat} {v : Word} (h : Stock s) : Stock (portWrite a v s) := by
  have read : Stock (journalReadEvent v { s with exm := s.exm.writeWord a v }) := by
    unfold journalReadEvent
    obtain ⟨j, x, rest⟩ := reportLoss_rest
      { s with exm := s.exm.writeWord a v, journal := { s.journal with r := v.setWidth 8 } }
    refine prop_ite ?_ (h.same rfl rfl rfl rfl)
    rw [rest]
    exact h.same rfl rfl rfl rfl
  have arrived : Stock (if a = journalReadAt then journalReadEvent v { s with exm := s.exm.writeWord a v }
      else { s with exm := s.exm.writeWord a v }) := prop_ite read (h.same rfl rfl rfl rfl)
  unfold Machine.portWrite arrivalEvent
  refine prop_ite (h.same rfl rfl rfl rfl) ?_
  refine prop_ite ?_ arrived
  apply arrived.same <;> simp

/-! ### Orders -/

theorem Stock.retired {r : Result} (h : Stock s) : Stock (retireTaken r s) := by apply h.same <;> simp

theorem Stock.accepted {k ptr : Nat} {m : Move} (h : Stock s) : Stock (acceptLong k ptr m s) := by apply h.same <;> simp

theorem Stock.takeCause {c : Cause} {k : Nat} {tm : Clock} (h : Stock s) : Stock (takeCause c k tm s) := by
  apply h.same <;> simp

theorem Stock.announceHead {coil : Word} {h0 : Nat} {tm : Clock} (h : Stock s) : Stock (announceHeadWork coil h0 tm s) := by
  unfold announceHeadWork
  iterate 4 refine prop_ite h.retired ?_
  exact Stock.retired (h.same (by simp) (by simp) (by simp) (by simp))

theorem Stock.setModulus {k : Nat} {t : ModulusTable} {tm : Clock} (h : Stock s) : Stock (setModulusWork k t tm s) := by
  unfold setModulusWork
  refine prop_ite h.retired ?_
  split
  · exact h.retired
  · refine prop_ite h.retired (prop_ite ?_ ?_)
    · exact Stock.retired (h.same (by simp) (by simp) (by simp) (by simp))
    · exact Stock.retired (h.same rfl rfl rfl rfl)

theorem Stock.setTrim {k : Nat} {trim : Int} (h : Stock s) : Stock (setTrimWork k trim s) :=
  prop_ite h.retired (Stock.retired (h.same rfl rfl rfl rfl))

theorem Stock.presetGap {ptr k : Nat} {target : Int} {tol : Nat} {tm : Clock} (h : Stock s) :
    Stock (presetGapWork ptr k target tol tm s) := by
  unfold presetGapWork
  iterate 8 refine prop_ite h.retired ?_
  exact h.accepted

theorem Stock.calibrateZero {ptr k : Nat} {tm : Clock} (h : Stock s) : Stock (calibrateZeroWork ptr k tm s) := by
  unfold calibrateZeroWork
  iterate 5 refine prop_ite h.retired ?_
  exact h.accepted

theorem Stock.abortMove {k : Nat} (h : Stock s) : Stock (abortMoveWork k s) := by
  unfold abortMoveWork
  iterate 3 refine prop_ite h.retired ?_
  apply h.same <;> simp

theorem Stock.tripStands {mill set : Nat} {tm : Clock} (h : Stock s) : Stock (tripStandsWork mill set tm s) := by
  have raised : ∀ (ks : List Nat) (a : State × Nat), Stock a.1 → Stock (ks.foldl (fun a k =>
      (Machine.takeCause .ordered k tm a.1, a.2 + bit (isRecorded a.1 .ordered k))) a).1 := by
    intro ks
    induction ks with
    | nil => exact fun _ h => h
    | cons k ks ih => exact fun a h => ih _ (Stock.takeCause h)
  exact prop_ite h.retired (prop_ite h.retired (Stock.retired (raised _ (s, 0) h)))

theorem Stock.resetTrip {tm : Clock} (h : Stock s) (line : s.line.isSome = true) : Stock (resetTripWork tm s) := by
  unfold resetTripWork
  refine prop_ite h.retired ?_
  split
  · exact h.retired
  · exact Stock.retired (h.acceptReset line tm)

/-- The owner's work on the order that stands taken keeps the laws (R94 to R106, R139). -/
theorem Stock.ownerWork {c : OrderCopy} (h : Stock s) (line : c.order = .resetTrip → s.line.isSome = true) :
    Stock (ownerWork c s) := by
  unfold Machine.ownerWork
  split
  case h_1 => exact h.announceHead
  case h_2 => exact h.setModulus
  case h_3 => exact h.setTrim
  case h_4 => exact h.loadSchedule _ _
  case h_5 => exact h.unloadSchedule _ _
  case h_6 => exact h.presetGap
  case h_7 => exact h.calibrateZero
  case h_8 => exact h.abortMove
  case h_9 => exact h.tripStands
  case h_10 order => exact h.resetTrip (line order)

theorem Stock.finishTaken (h : Stock s) (copy : copyOk s) (reset : resetTakenAtRun s) : Stock (finishTaken s) := by
  unfold Machine.finishTaken
  split
  case h_1 c hc => exact h.ownerWork fun order => copy.1 (reset c hc order)
  case h_2 => exact h

theorem Stock.freeToTake (h : Stock s) : Stock (freeToTake s) := by apply h.same <;> simp

theorem Stock.startIntake (h : Stock s) : Stock (startIntake s) := by apply h.same <;> simp

theorem Stock.resumeIntake {b : State} (h : Stock s) : Stock (resumeIntake b s) := by apply h.same <;> simp

/-! ### The requests for a level -/

/-- A change of level between levels that track no mark keeps the laws. -/
theorem Stock.relevel {t : State} (h : Stock s) (off : s.level ≠ .run) (store : t.store = s.store) (line : t.line = s.line)
    (zones : t.tracker.zones = s.tracker.zones) : Stock t := by
  have empty : t.tracker.zones = PerStand.all [] := zones.trans (h.level off)
  exact h.keep store line (fun x => by rw [tagsAMark_iff, tagsAMark_iff, zones]) fun _ => empty

theorem Stock.reset : Stock State.reset := stock_of_storeOk storeOk_reset (by decide)

theorem finishTaken_level (s : State) : (finishTaken s).level = s.level :=
  (Evolves.finishTaken (p := { Permit.none with reset := true }) (fun _ => rfl) .refl).level_eq rfl

theorem takeLine_line (l : LineDesc) : (takeLine l s).line = some l := by
  unfold takeLine
  split <;> simp

theorem leaveRun_level (l : RunLevel) : (leaveRun l s).level = l := by simp [leaveRun, stopLink]

theorem Stock.requestConfigure (h : Stock s) (copy : copyOk s) (reset : resetTakenAtRun s) : Stock (requestConfigure s) := by
  have finished := h.finishTaken copy reset
  unfold Machine.requestConfigure
  split
  case h_1 level =>
    exact Stock.startIntake (h.relevel (by simp [level]) rfl rfl rfl)
  case h_2 => exact h
  case h_3 level =>
    refine Stock.resumeIntake (finished.relevel (by simp [finishTaken_level, level]) ?_ ?_ ?_) <;> simp [stopLink]
  case h_4 => exact Stock.resumeIntake (finished.leaveRun _)

theorem Stock.requestLoopback (h : Stock s) (copy : copyOk s) (reset : resetTakenAtRun s) : Stock (requestLoopback s) := by
  have finished := h.finishTaken copy reset
  unfold Machine.requestLoopback
  split
  case h_1 level => refine Stock.startIntake (h.relevel (by simp [level]) ?_ ?_ ?_) <;> simp
  case h_2 level => refine Stock.resumeIntake (finished.relevel (by simp [finishTaken_level, level]) ?_ ?_ ?_) <;> simp
  case h_3 => exact h
  case h_4 => exact Stock.resumeIntake ((finished.leaveRun .loopback).relevel (by simp [leaveRun_level]) (by simp) (by simp) (by simp))

/-- The slots at RUN entry with a description of 1 to 8 stands, from a state that tracks no mark. -/
theorem Stock.runEntrySlots {u : State} {l : LineDesc} (h : Stock s) (empty : s.tracker.zones = PerStand.all [])
    (store : u.store = s.store) (zones : u.tracker.zones = s.tracker.zones) (line : u.line = some l) (one : 1 ≤ l.n)
    (eight : l.n ≤ 8) : Stock (slotsRunEntry u) := by
  have n : u.n = l.n := by
    unfold State.n State.lineCopy
    rw [line]
    rfl
  refine Stock.runEntry (fun x => ?_) (zones.trans empty) (by rw [store]; exact h.unloaded) (by omega) (by omega)
  exact Stock.slotOk_congr (h.slots x) (by rw [store]) (by unfold inForceSomewhere State.slotAt; rw [store])
    (by rw [tagsAMark_iff, tagsAMark_iff, zones])

/-- RUN entry from a state that tracks no mark (R163). -/
theorem Stock.enterRun {l : LineDesc} (h : Stock s) (empty : s.tracker.zones = PerStand.all []) (valid : l.failure = none) :
    Stock (enterRun l s) := by
  obtain ⟨two, eight⟩ := LineDesc.n_of_valid valid
  obtain ⟨u, hu⟩ : ∃ u, u = takeLine l (leaveLoopback s) := ⟨_, rfl⟩
  have taken : Machine.enterRun l s = dropImages (linkRunEntry (tripRunEntry (gapRunEntry (s.line.map LineDesc.n)
      (rewriteSummary (resetThreading (slotsRunEntry (gaugeRunEntry (thicknessRunEntry u)))))))) := by rw [hu]; rfl
  have store : u.store = s.store := by rw [hu]; simp
  have zones : u.tracker.zones = s.tracker.zones := by rw [hu]; simp
  have line : u.line = some l := by rw [hu]; exact takeLine_line l
  obtain ⟨w, hw⟩ : ∃ w, w = slotsRunEntry (gaugeRunEntry (thicknessRunEntry u)) := ⟨_, rfl⟩
  have shelved : Stock w := hw ▸ h.runEntrySlots empty (by simp [store]) (by simp [zones]) (by simp [line]) (by omega) eight
  rw [taken, ← hw]
  refine shelved.same ?_ ?_ ?_ ?_ <;> simp
  rfl

theorem Stock.requestRun (h : Stock s) (copy : copyOk s) (reset : resetTakenAtRun s) : Stock (requestRun s) := by
  have finished := h.finishTaken copy reset
  have entered (off : s.level ≠ .run) : Stock (validateAndEnter s) := by
    have empty : (Machine.finishTaken s).tracker.zones = PerStand.all [] := finished.level (by rwa [finishTaken_level])
    unfold validateAndEnter
    split
    · exact h.same rfl rfl rfl rfl
    case h_2 valid => exact Stock.resumeIntake (finished.enterRun empty valid)
  unfold Machine.requestRun
  split
  case h_1 => exact h
  case h_2 level | h_3 level | h_4 level => exact entered (by rw [level]; nofun)

/-! ### Every command -/

theorem storeOk_of_stock (h : Stock s) (reset : resetTakenAtRun s) : storeOk s :=
  ⟨h.slots, h.below, h.newer, h.drains, h.unloaded, h.line, h.level, reset⟩

/-- Every request for a level keeps the laws. -/
theorem exec_levelRequest_stock {i : Instr} {t : State} (h : Stock s) (copy : copyOk s) (reset : resetTakenAtRun s)
    (requests : i.requestsLevel = true) (e : exec i s = .next t) : Stock t := by
  have ticked (dt : Clock) : Stock (s.tick dt) := h.same rfl rfl rfl rfl
  refine exec_levelRequest e requests (fun e => ?_) (fun dt => ?_) (fun dt => ?_) (fun dt => ?_) fun dt => ?_
  · exact Stock.reset.same rfl rfl rfl rfl
  · exact Stock.reset.same rfl rfl rfl rfl
  · exact Stock.same ((ticked dt).requestConfigure copy reset) rfl rfl rfl rfl
  · exact Stock.same ((ticked dt).requestLoopback copy reset) rfl rfl rfl rfl
  · exact Stock.same ((ticked dt).requestRun copy reset) rfl rfl rfl rfl

theorem stock_ite {p : Prop} [Decidable p] {x t : State} {dt : Clock} (h : Stock s)
    (active : p → Stock (s.tick dt) → Stock x) (e : (if p then finish x else finish (s.tick dt)) = .next t) : Stock t := by
  have ticked : Stock (s.tick dt) := h.same rfl rfl rfl rfl
  split at e
  · rw [finish_next e]; exact (active ‹_› ticked).same rfl rfl rfl rfl
  · rw [finish_next e]; exact ticked.same rfl rfl rfl rfl

theorem receiving_run {x : Cycle × PollEntry × Nat} (h : receivingAge s = some x) : s.level = .run := by
  unfold receivingAge at h
  split at h
  case h_1 o => exact open_run o
  case h_2 => cases h

theorem served_run {e : PollEntry} (h : servedAtRun s e = true) : s.level = .run := by
  unfold servedAtRun at h
  simp only [Bool.and_eq_true, beq_iff_eq] at h
  exact h.1

theorem rejoin_run {e : PollEntry} (h : rejoinDue s e = true) : s.level = .run := by
  unfold rejoinDue at h
  simp only [Bool.and_eq_true] at h
  exact served_run h.1.1

/-- Every other command keeps the laws. -/
theorem exec_stock {i : Instr} {t : State} (h : Stock s) (copy : copyOk s) (reset : resetTakenAtRun s)
    (other : i.requestsLevel = false) (e : exec i s = .next t) : Stock t := by
  have ticked (dt : Clock) : Stock (s.tick dt) := h.same rfl rfl rfl rfl
  have idle {u : State} (x : finish u = .next t) (hu : Stock u) : Stock t := by
    rw [finish_next x]; exact hu.same rfl rfl rfl rfl
  cases i with
  | powerOn _ | runLevelHalt _ | runLevelConfigure _ | runLevelLoopback _ | runLevelRun _ => cases other
  | attentionWrite dt v | attentionMaskWrite dt v | resetAsserted dt | registerWriteIgnored dt o v | strayFrameDiscard dt b =>
    exact idle e (h.same rfl rfl rfl rfl)
  | etripChange dt l => exact idle e (ticked dt).etripTaken
  | exmWrite dt a v | journalReadWrite dt v => exact idle e (ticked dt).portWrite
  | watchedWordArrival dt v =>
    simp only [exec, execWatchedWordArrival] at e
    split at e
    · exact idle e (ticked dt).portWrite
    · exact idle e (ticked dt)
  | announceHead dt | setModulus dt | setTrim dt | loadSchedule dt | unloadSchedule dt | presetGap dt | calibrateZero dt
  | abortMove dt | tripStands dt | resetTrip dt =>
    simp only [exec, execAnnounceHead, execSetModulus, execSetTrim, execLoadSchedule, execUnloadSchedule, execPresetGap,
      execCalibrateZero, execAbortMove, execTripStands, execResetTrip] at e
    split at e
    case h_1 hc =>
      have worked := (ticked dt).ownerWork (c := ⟨_, _, _⟩) fun order => copy.1 (reset _ hc order)
      exact idle e worked.freeToTake
    case h_2 => exact idle e (ticked dt)
  | pollTimerExpiry dt => exact stock_ite h (fun _ h => h.timerExpiry) e
  | pollSent dt | replyStart dt =>
    simp only [exec, execPollSent, execReplyStart] at e
    split at e
    · refine stock_ite h (fun _ h => ?_) e
      exact h.same rfl rfl rfl rfl
    · exact idle e (ticked dt)
  | replyWindowClose dt b =>
    simp only [exec, execReplyWindowClose] at e
    split at e
    · refine stock_ite h (fun _ h => ?_) e
      unfold endWithMiss
      exact prop_ite (h.same (by simp) (by simp) (by simp) (by simp)) (h.same (by simp) (by simp) (by simp) (by simp))
    · exact idle e (ticked dt)
  | replyReceived dt fr fin plan =>
    simp only [exec, execReplyReceived] at e
    split at e
    case h_1 receiving =>
      refine stock_ite h (fun _ h => ?_) e
      have run : StockRun ((s.tick dt).atTime (frameTime (s.tick dt).clock fin)) :=
        ⟨h.same rfl rfl rfl rfl, receiving_run (s := s.tick dt) receiving⟩
      exact (Stock.frameEnded run).1.same rfl rfl rfl rfl
    · exact idle e (ticked dt)
  | bodyCut dt dL =>
    refine stock_ite h (fun c h => ?_) e
    have run : StockRun (s.tick dt) := ⟨h, active_run c.1⟩
    exact (Stock.takeRaised (stockRun_track.summaryAfter (stockRun_track.countDown run))).1
  | loadOn dt k f | loadOff dt k f | lockOn dt k f =>
    refine stock_ite h (fun c h => ?_) e
    have run : StockRun (s.tick dt) := ⟨h, threading_run c.1⟩
    exact (Stock.takeRaised (stockRun_track.summaryAfter (stockRun_track.threadingWork run))).1
  | presetComplete dt k g | zeroFound dt k p f | calibrationRetire dt k g | moveTimeout dt k | stationSilent dt e'
  | sampleExpiry dt | elapsedSaturated dt e' =>
    exact stock_ite h (fun _ h => h.same (by simp) (by simp) (by simp) (by simp)) e
  | stationRejoined dt x rep plan =>
    refine stock_ite h (fun c h => ?_) e
    exact (Stock.validReply ⟨h, rejoin_run c.1⟩).1

theorem resetTakenAtRun_of_off {t : State} (reset : resetTakenAtRun s) (off : s.level ≠ .run)
    (copy : t.orders.copy = s.orders.copy) : resetTakenAtRun t :=
  fun c hc order => absurd (reset c (copy.symm.trans hc) order) off

theorem resetTakenAtRun_resumeIntake {u : State} (h : Worked (finishTaken s) u) : resetTakenAtRun (resumeIntake s u) := by
  have free : resetTakenAtRun u := resetTakenAtRun_of_free (h.copy.trans (finishTaken_done s).1)
  unfold resumeIntake
  split
  · exact resetTakenAtRun_freeToTake free
  · exact free

theorem resetTakenAtRun_requestConfigure (reset : resetTakenAtRun s) : resetTakenAtRun (requestConfigure s) := by
  unfold requestConfigure
  split
  case h_1 level => exact resetTakenAtRun_startIntake (resetTakenAtRun_of_off reset (by rw [level]; nofun) rfl)
  case h_2 => exact reset
  case h_3 => exact resetTakenAtRun_resumeIntake (Worked.refl.endMovesLevel.leveled (l := .configure) nofun).stopLink
  case h_4 => exact resetTakenAtRun_resumeIntake (Worked.refl.leaveRun (l := .configure) nofun)

theorem resetTakenAtRun_requestLoopback (reset : resetTakenAtRun s) : resetTakenAtRun (requestLoopback s) := by
  unfold requestLoopback
  split
  case h_1 level =>
    exact resetTakenAtRun_startIntake (resetTakenAtRun_of_off reset (by rw [level]; nofun) (Worked.copy Worked.refl.enterLoopback))
  case h_2 => exact resetTakenAtRun_resumeIntake Worked.refl.enterLoopback
  case h_3 => exact reset
  case h_4 => exact resetTakenAtRun_resumeIntake (Worked.refl.leaveRun (l := .loopback) nofun).enterLoopback

theorem resetTakenAtRun_requestRun (reset : resetTakenAtRun s) : resetTakenAtRun (requestRun s) := by
  have entered : resetTakenAtRun (validateAndEnter s) := by
    unfold validateAndEnter
    split
    · exact reset
    · refine fun _ _ _ => ?_
      have level : ∀ u, (resumeIntake s u).level = u.level := fun u => by simp
      exact (level _).trans (enterRun_line (lineAt s.exm) (finishTaken s)).2
  unfold requestRun
  split
  case h_1 => exact reset
  all_goals exact entered

/-- A RESET_TRIP that stands taken after a command was taken at RUN. -/
theorem exec_resetTaken {i : Instr} {t : State} (reset : resetTakenAtRun s) (e : exec i s = .next t) : resetTakenAtRun t := by
  by_cases requests : i.requestsLevel = true
  · refine exec_levelRequest e requests (fun e => ?_) (fun dt => ?_) (fun dt => ?_) (fun dt => ?_) fun dt => ?_
    · exact fun _ (h : none = some _) => nomatch h
    · exact fun _ (h : none = some _) => nomatch h
    · exact resetTakenAtRun_requestConfigure (s := s.tick dt) reset
    · exact resetTakenAtRun_requestLoopback (s := s.tick dt) reset
    · exact resetTakenAtRun_requestRun (s := s.tick dt) reset
  · have other : i.requestsLevel = false := by simpa using requests
    have level := (bitsLevelAndCopyChangeAtTheirCommandsAlone i s t e).2.1 other
    obtain ⟨u, rfl, does⟩ := exec_does e other
    show resetTakenAtRun u
    cases does with
    | works worked => exact resetTakenAtRun_of_same reset worked.copy level
    | owns dt c hc eq => rw [eq]; exact resetTakenAtRun_freeToTake (resetTakenAtRun_of_free (ownerWork_done _ _).copy)
    | writes dt a v even memory eq => rw [eq]; exact resetTakenAtRun_portWrite (s := s.tick dt) reset

theorem exec_keeps_stock {i : Instr} {t : State} (copy : copyOk s) (ok : storeOk s) (e : exec i s = .next t) : storeOk t := by
  obtain ⟨slots, below, newer, drains, unloaded, line, level, reset⟩ := ok
  have stock : Stock s := ⟨⟨below, newer, drains, unloaded, line, level, n_le_of_copyOk copy⟩, slots⟩
  refine storeOk_of_stock ?_ (exec_resetTaken reset e)
  by_cases requests : i.requestsLevel = true
  · exact exec_levelRequest_stock stock copy reset requests e
  · exact exec_stock stock copy reset (by simpa using requests) e

end

/-- Settles O10: a slot changes hands at a load, a switch, a mark's passing and the ends of the strip, each of which keeps the
laws; the owners of the other orders, the link and the trip leave the Store alone. -/
theorem stepKeepsScheduleStore : Obligations.StepKeepsScheduleStore := by
  intro s t copy ok h
  unfold step at h
  split at h
  case h_1 => cases h; exact ok
  case h_2 c rest hp => exact exec_keeps_stock (s := { s with pending := rest }) copy ok h

end Sys2Proof.Machine

/-! Proofs for power-on, HALT, CONFIGURE and the registers (R159 to R165). -/

namespace Sys2Proof.Machine

/-! ### What the processor reads of a part just reset -/

theorem getD_replicate_zero (n i : Nat) : (List.replicate n (0 : Byte)).getD i 0 = 0 := by
  rw [List.getD_eq_getElem?_getD, List.getElem?_replicate]
  split <;> rfl

/-- The part-written areas of a part whose registers and areas are as after power-on read 0 (R159). -/
theorem exmByte_part_zero {t : State} {a : Nat} (journal : t.journal = {}) (result : t.configResult = 0)
    (cycle : t.cycleClock = 0) (images : t.images = PerStand.all {}) (trip : t.tripArea = none) (summary : t.summary = none)
    (place : (4 ≤ a ∧ a < 64) ∨ (1024 ≤ a ∧ a < 4096)) : exmByte t a = 0 := by
  have header : headerBytes t = List.replicate 8 0 := by
    unfold headerBytes
    rw [journal, result, cycle]
    decide
  have image (k : Nat) : (t.images.get k).bytes = none := by
    rw [images]
    by_cases h : 1 ≤ k ∧ k ≤ 8
    · rw [PerStand.get_all _ _ h]; rfl
    · rw [PerStand.get_outside _ _ h]; rfl
  have slot (n : Nat) : (t.journal.slots.getD n none) = none := by
    rw [journal, show ({} : Journal).slots = List.replicate 128 none from rfl, List.getD_eq_getElem?_getD,
      List.getElem?_replicate]
    split <;> rfl
  unfold exmByte
  rw [if_neg (by omega)]
  split
  · rw [header, getD_replicate_zero]
  · rw [if_neg (by omega)]
    split
    · rw [image]; rfl
    · split
      · rw [trip]; rfl
      · split
        · rw [summary]; rfl
        · rw [if_pos (by omega), slot]; rfl

/-- Off RUN with ATTENTION clear no line is energized. -/
theorem pinsOf_off {s : State} (level : s.level ≠ .run) (attention : s.attention = 0) : pinsOf s = {} := by
  have dstop : PerStand.ofStand (dstopOn s) = PerStand.all false := ofStand_false _ fun k => by simp [dstopOn, level]
  have gopen : PerStand.ofStand (gopenOn s) = PerStand.all false := ofStand_false _ fun k => by simp [gopenOn, level]
  have mstop : mstopOn s = false := by simp [mstopOn, level]
  have attn : attnActive s = false := by simp [attnActive, attention]
  have link : linkDriven s = false := by
    unfold linkDriven
    split <;> simp [level]
  unfold pinsOf
  rw [dstop, gopen, mstop, attn, link]

/-- The offsets outside the part's areas read as the processor's memory. -/
theorem exmByte_processor {t : State} {a : Nat} (place : ¬((4 ≤ a ∧ a < 64) ∨ (1024 ≤ a ∧ a < 4096))) :
    exmByte t a = t.exm.read a := by
  unfold exmByte
  split
  · rfl
  · rw [if_neg (by omega)]
    split
    · rfl
    · iterate 4 rw [if_neg (by omega)]

/-- Settles O16. -/
theorem powerOnClearsThePartAndResetDropsItsLines : Obligations.PowerOnClearsThePartAndResetDropsItsLines := by
  refine ⟨fun e s => ⟨_, rfl, rfl, pinsOf_off nofun rfl, fun a => ?_, rfl, rfl, rfl, rfl⟩, fun dt s => ⟨_, rfl, ?_, rfl⟩⟩
  · by_cases place : (4 ≤ a ∧ a < 64) ∨ (1024 ≤ a ∧ a < 4096)
    · exact exmByte_part_zero rfl rfl rfl rfl rfl rfl place
    · exact exmByte_processor place
  · exact linesDown_settled { s with clock := s.clock + dt, resetLow := true } (.inl rfl)

/-- Settles O17: HALT's memory reads 0 in JOURNAL_READ and in the results of the blocks taken, and as before elsewhere. -/
theorem haltIsTheSoftReset : Obligations.HaltIsTheSoftReset := by
  intro dt s form
  have read (a : Nat) := read_haltMemory (s := s.tick dt) a form
  refine ⟨_, rfl, rfl, pinsOf_off nofun rfl, rfl, fun a place => ?_, fun p hp a ha => ?_, fun a index apart => ?_⟩
  · by_cases part : (4 ≤ a ∧ a < 64) ∨ (1024 ≤ a ∧ a < 4096)
    · exact exmByte_part_zero rfl rfl rfl rfl rfl rfl part
    · rw [exmByte_processor part]
      exact (read a).trans (if_pos (by omega))
  · exact (read a).trans (if_pos (.inr (.inr ⟨p, hp, ha⟩)))
  · refine (read a).trans (if_neg ?_)
    rintro (e | e | ⟨p, hp, ha⟩)
    · omega
    · omega
    · exact apart p hp ha

/-- Settles O18. -/
theorem requestsThatLeaveTheLevelAsItIs : Obligations.RequestsThatLeaveTheLevelAsItIs := by
  intro dt s
  have requested {request : State → State} (h : request (s.tick dt) = s.tick dt) :
      finish (request (s.tick dt)) = .next (s.tick dt).settled := by rw [h]; rfl
  refine ⟨fun level => requested ?_, fun level => requested ?_, fun level => requested ?_, fun code off fails => ?_⟩
  · simp [requestConfigure, level]
  · simp [requestLoopback, level]
  · simp [requestRun, level]
  · have refused : requestRun (s.tick dt) = rejectRun code (s.tick dt) := by
      have validated : validateAndEnter (s.tick dt) = rejectRun code (s.tick dt) := by
        unfold validateAndEnter
        rw [show (lineAt (s.tick dt).exm).failure = some code from fails]
      unfold requestRun
      split
      · exact absurd ‹_› off
      all_goals exact validated
    show finish (requestRun (s.tick dt)) = _
    rw [refused]
    rfl

/-- Settles O22. -/
theorem registerWritesAndStrayFrames : Obligations.RegisterWritesAndStrayFrames := by
  refine fun dt s => ⟨fun v => ⟨_, rfl, rfl, fun b => ?_⟩, fun v => ⟨_, rfl, rfl, ?_⟩, fun _ _ _ => rfl, fun _ _ => rfl⟩
  · show (s.attention &&& ~~~(v.setWidth 5)).getLsbD b = _
    by_cases h : b < 5
    · simp [h]
    · simp [BitVec.getLsbD_of_ge s.attention b (by omega)]
  · show (v.setWidth 5).setWidth 16 = v &&& 31
    apply BitVec.eq_of_toNat_eq
    rw [BitVec.toNat_and, show (31 : Word).toNat = 2 ^ 5 - 1 from rfl, Nat.and_two_pow_sub_one_eq_mod]
    simp
    omega

/-! ### Leaving a level (R165) -/

section
variable {s : State}

/-- No move is left when every move was ended (R121). -/
theorem endMovesLevel_noMoves (s : State) (k : Nat) : ((endMovesLevel s).gap.get k).move = .none := by
  by_cases h : 1 ≤ k ∧ k ≤ 8
  · rw [endMovesLevel_gap s k h]
  · exact move_outside _ k h

/-- What leaving RUN makes of the moves, and of memory and the orders, is what the end of the moves makes of them: LEVEL_DROP
finds none. -/
theorem levelDrop_noMoves (h : ∀ k, (s.gap.get k).move = .none) :
    (levelDrop s).exm = s.exm ∧ (levelDrop s).orders = s.orders ∧ (levelDrop s).gap = s.gap := by
  unfold levelDrop
  split
  · exact takeCause_noMoves _ _ _ _ h
  · exact ⟨rfl, rfl, rfl⟩

/-- What leaving RUN for the level `l` leaves (R165, R23, R103, R121). -/
structure LeftRun (l : RunLevel) (s t : State) : Prop where
  level : t.level = l
  link : t.link = { s.link with cycle := none, expiryWaiting := false, nextExpiry := none }
  tracker : t.tracker = { s.tracker with
    zones := PerStand.all [], carry := PerStand.all 0, emptySpell := false, gen := { s.tracker.gen with running := false } }
  gauge : t.gauge = { s.gauge with paired := 0, unpaired := 0, outCount := 0 }
  slots : ∀ x, t.store.slot x = if (s.store.slot x).state = .draining then {} else s.store.slot x
  inForce : t.store.inForce = s.store.inForce
  lastLoaded : t.store.lastLoaded = s.store.lastLoaded
  summary : t.summary.map Summary.count = some ((s.summary.map Summary.count).getD 0 + 1)
  exm : t.exm = (endMovesLevel s).exm
  orders : t.orders = (endMovesLevel s).orders
  gap : t.gap = (endMovesLevel s).gap
  trip : t.trip = (levelDrop (endMovesLevel s)).trip
  tripArea : t.tripArea = (levelDrop (endMovesLevel s)).tripArea

theorem leaveRun_left (l : RunLevel) (s : State) : LeftRun l s (leaveRun l s) := by
  obtain ⟨u, hu⟩ : ∃ u, u = stopLink { levelDrop (endMovesLevel s) with level := l } := ⟨_, rfl⟩
  have left : leaveRun l s = flush s.clock u := by rw [hu]; rfl
  obtain ⟨exm, orders, gap⟩ := levelDrop_noMoves (endMovesLevel_noMoves s)
  obtain ⟨tracker, gauge, slots, inForce, lastLoaded, summary⟩ := flush_parts s.clock u
  have store : u.store = s.store := by rw [hu]; simp
  have tracked : u.tracker = s.tracker := by rw [hu]; simp
  have gauged : u.gauge = s.gauge := by rw [hu]; simp
  have shown : u.summary = s.summary := by rw [hu]; simp
  rw [store] at slots inForce lastLoaded
  rw [left]
  refine ⟨?_, ?_, ?_, ?_, slots, inForce, lastLoaded, ?_, ?_, ?_, ?_, ?_, ?_⟩
  · simp [hu, stopLink]
  · simp [hu, stopLink]
  · rw [tracker, tracked]
  · rw [gauge, gauged]
  · rw [summary, shown]
  · simp [hu, exm]
  · simp [hu, orders]
  · simp [hu, gap]
  · simp [hu]
  · simp [hu]

/-- The moves at every stand have ended. -/
theorem LeftRun.ended {l : RunLevel} {t u : State} (h : LeftRun l s t) (form : memoryOk s) (exm : u.exm = t.exm)
    (inFlight : u.orders.inFlight = t.orders.inFlight) (gap : ∀ k ∈ standNumbers, (u.gap.get k).move = .none) :
    MovesEnded standNumbers 5 s u :=
  endMovesLevel_ended s u form gap (exm.trans h.exm) (inFlight.trans (by rw [h.orders]))

/-- LEVEL_DROP is raised exactly where a stand of the line is not VACANT. -/
theorem LeftRun.dropped {l : RunLevel} {t : State} (h : LeftRun l s t) :
    ((∀ k ∈ standsTo s.n, (s.thread k).state = .vacant) → t.trip = s.trip ∧ t.tripArea = s.tripArea) ∧
    ((∃ k ∈ standsTo s.n, (s.thread k).state ≠ .vacant) →
      t.trip.latch = true ∧ (t.trip.overflow = true ∨ ∃ e ∈ t.trip.causes, e.cause = .levelDrop ∧ e.stand = 0)) := by
  obtain ⟨-, vacant, occupied⟩ := levelDrop_spec (endMovesLevel s) (endMovesLevel_noMoves s)
  have n : (endMovesLevel s).n = s.n := by simp [State.n, State.lineCopy]
  have thread (k : Nat) : (endMovesLevel s).thread k = s.thread k := by simp [State.thread]
  simp only [n, thread] at vacant occupied
  refine ⟨fun v => ?_, fun o => ?_⟩
  · rw [h.trip, h.tripArea, vacant v]
    simp
  · rw [h.trip]
    exact occupied o

theorem finishTaken_free (free : s.orders.copy = none) : finishTaken s = s := by
  unfold finishTaken
  rw [free]

end

/-- Settles O19. -/
theorem configureIsEnteredFromEachLevel : Obligations.ConfigureIsEnteredFromEachLevel := by
  intro dt s
  refine ⟨fun u level hu => ?_, fun form level free => ?_, fun form level free => ?_⟩
  · have started : requestConfigure (s.tick dt) = freeToTake u := by
      rw [hu]
      unfold requestConfigure
      rw [show (s.tick dt).level = .halt from level]
      rfl
    have entered : exec (.runLevelConfigure dt) s = .next (freeToTake u).settled := by
      show finish (requestConfigure (s.tick dt)) = _
      rw [started]
      rfl
    refine ⟨entered, fun anchor => ?_⟩
    rw [entered, freeToTake_waits u 0 (by rw [hu]) (by rw [hu]; exact anchor)]
  · obtain ⟨m, a, f, g, shape⟩ := endMoves_shape .level standNumbers (s.tick dt)
    have left : requestConfigure (s.tick dt) = stopLink { endMovesLevel (s.tick dt) with level := .configure } := by
      unfold requestConfigure
      rw [show (s.tick dt).level = .loopback from level]
      dsimp only
      rw [finishTaken_free (s := s.tick dt) free, resumeIntake_free (s := s.tick dt) free]
    have gap (k : Nat) (hk : k ∈ standNumbers) := endMovesLevel_gap (s.tick dt) k (stand_of hk)
    refine ⟨(requestConfigure (s.tick dt)).settled, rfl, ?_, ?_, ?_⟩
    · rw [left]
      exact endMovesLevel_ended (s.tick dt) _ form (fun k _ => endMovesLevel_noMoves _ k) rfl rfl
    · rw [left, show endMovesLevel (s.tick dt) = _ from shape]
      rfl
    · rw [left]
      exact gap
  · have left : requestConfigure (s.tick dt) = leaveRun .configure (s.tick dt) := by
      unfold requestConfigure
      rw [show (s.tick dt).level = .run from level]
      dsimp only
      rw [finishTaken_free (s := s.tick dt) free, resumeIntake_free (s := s.tick dt) free]
    have h := leaveRun_left .configure (s.tick dt)
    refine ⟨(requestConfigure (s.tick dt)).settled, rfl, ?_⟩
    rw [left]
    obtain ⟨vacant, occupied⟩ := h.dropped
    have keeps := leaveRun_keeps (s := s.tick dt) .configure
    generalize leaveRun .configure (s.tick dt) = t at h vacant occupied keeps ⊢
    have moves (k : Nat) (hk : k ∈ standNumbers) : t.gap.get k = { s.gap.get k with move := .none } := by
      rw [h.gap]; exact endMovesLevel_gap (s.tick dt) k (stand_of hk)
    obtain ⟨clock, -, -, -, result, -, images, line, est, -⟩ := keeps
    refine ⟨h.level, clock, linesDown_settled t (.inr (by rw [h.level]; nofun)),
      h.ended form rfl rfl fun k hk => by rw [show t.settled.gap = t.gap from rfl, moves k hk],
      h.link, h.tracker, h.gauge, moves, h.slots, h.inForce, h.lastLoaded, est, line, result, images, fun n => ?_, vacant,
      occupied⟩
    rw [show t.settled.summary = t.summary from rfl, h.summary, Option.some.injEq]
    exact eq_comm

end Sys2Proof.Machine

/-! Proofs for LOOPBACK entry and RUN entry (R146, R155, R163, R165). -/

namespace Sys2Proof.Machine

/-! ### Entry work where no move is left -/

/-- No stand has a move or a HOLD. -/
def NoMoves (s : State) : Prop := ∀ k, (s.gap.get k).move = .none

namespace NoMoves
variable {s t : State}

theorem keep (h : NoMoves s) (gap : t.gap = s.gap) : NoMoves t := fun k => by rw [gap]; exact h k

theorem ite {c : Prop} [Decidable c] {a b : State} (h : NoMoves a) (g : NoMoves b) : NoMoves (if c then a else b) := by
  split
  · exact h
  · exact g

theorem foldl {α : Type} {f : State → α → State} (hf : ∀ t a, NoMoves t → NoMoves (f t a)) (l : List α) :
    ∀ t, NoMoves t → NoMoves (l.foldl f t) := by
  induction l with
  | nil => exact fun _ h => h
  | cons a l ih => exact fun t h => ih _ (hf t a h)

theorem withRef {k : Nat} {r : Reference} (h : NoMoves s) (none : r.move = .none) : NoMoves (s.withRef k r) := by
  intro j
  show ((s.gap.set k r).get j).move = _
  by_cases hk : 1 ≤ k ∧ k ≤ 8
  · rw [PerStand.get_set _ _ _ _ hk]
    split
    · exact none
    · exact h j
  · rw [PerStand.set_outside _ _ _ hk]
    exact h j

/-- A preparation finds no move to ramp or to end. -/
theorem prepare {k : Nat} (h : NoMoves s) : NoMoves (prepare k s) := by
  have noTimeout : timeoutTest k s = s := by
    unfold timeoutTest
    split
    · exact endMove_none _ _ _ _ (h k)
    · rfl
  have byMove : NoMoves (prepareByMove k s) := by
    unfold prepareByMove
    rw [h k]
    exact ite (h.withRef (h k)) (h.withRef (h k))
  have sent {b : Int} {x y : Bool} : NoMoves (sendBase k b x y s) := h.withRef (h k)
  unfold Machine.prepare prepareMove
  rw [noTimeout, h k]
  exact ite (sent.withRef (sent k)) (ite (ite sent (h.withRef (h k))) byMove)

theorem prepareEntry {e : PollEntry} (h : NoMoves s) : NoMoves (prepareEntry e s) := by
  cases e with
  | stand k => exact h.prepare
  | gauge => exact h

theorem moveTest {k p f : Nat} {g : Int} (h : NoMoves s) : NoMoves (moveTest k p f g s) := by
  unfold Machine.moveTest
  rw [h k]
  exact h

theorem becomePresent {e : PollEntry} (h : NoMoves s) : NoMoves (becomePresent e s) := h.keep (by simp)

theorem loopbackExchange {e : PollEntry} (h : NoMoves s) : NoMoves (loopbackExchange s e) := by
  unfold Machine.loopbackExchange
  extract_lets s1 st st' s2 s3 st'' s4
  have h1 : NoMoves s1 := h.prepareEntry
  have h2 : NoMoves s2 := h1.keep (by simp [s2])
  have h3 : NoMoves s3 := ite h2 h2.becomePresent
  have h4 : NoMoves s4 := h3.keep (by simp [s4])
  cases e with
  | stand k =>
    have recorded {p : Nat} : NoMoves (recordReply k p 0 s4) := h4.keep (by simp)
    have based {p : Nat} : NoMoves (firstBase k (recordReply k p 0 s4)) := ite recorded (recorded.withRef (recorded k))
    exact (based.moveTest).keep rfl
  | gauge => exact h4.keep (by simp)

theorem endHold {k : Nat} (h : NoMoves s) : NoMoves (endHold k s) := by
  unfold Machine.endHold
  rw [h k]
  exact h

theorem switchStand {k : Nat} {x : Slot} {c : SwitchCause} {f : FreeCause} {tm : Clock} (h : NoMoves s) :
    NoMoves (switchStand k x c f tm s) := by
  have switched : NoMoves (Machine.endHold k (switchTerms k { s with
      store := { s.store with inForce := s.store.inForce.set k (some x) } })) := endHold (h.withRef (h k))
  unfold Machine.switchStand
  dsimp only
  split <;> exact switched.keep (by simp)

theorem switchStands {ks : List Nat} {x : Slot} {c : SwitchCause} {f : FreeCause} {tm : Clock} (h : NoMoves s) :
    NoMoves (switchStands ks x c f tm s) := foldl (fun _ _ h => h.switchStand) ks s h

theorem freeSlot {x : Slot} {c : FreeCause} {tm : Clock} (h : NoMoves s) : NoMoves (freeSlot x c tm s) := h.keep (by simp)

theorem collapseSlots {c : SwitchCause} {tm : Clock} (h : NoMoves s) : NoMoves (collapseSlots c tm s) := by
  unfold Machine.collapseSlots
  split
  · exact h
  · exact ite (ite h.switchStands.freeSlot h.switchStands) h

theorem slotsRunEntry (h : NoMoves s) : NoMoves (slotsRunEntry s) := by
  unfold Machine.slotsRunEntry
  extract_lets s1 s2 s3 kept
  have h2 : NoMoves s2 := (h.keep (by simp [s1]) : NoMoves s1).collapseSlots
  have h3 : NoMoves s3 := by
    unfold s3
    split
    · exact h2.switchStands
    · exact h2
  exact h3.keep rfl

theorem takeCause {c : Cause} {k : Nat} {tm : Clock} (h : NoMoves s) : NoMoves (takeCause c k tm s) :=
  h.keep (takeCause_noMoves c k tm s h).2.2

theorem beginExchange {i : Nat} {late : Bool} (h : NoMoves s) : NoMoves (beginExchange i late s) := by
  unfold Machine.beginExchange
  split
  case h_1 => exact h.keep rfl
  case h_2 => exact h.prepareEntry.keep rfl

end NoMoves

/-- Work where no stand has a move in flight leaves memory and the orders. -/
theorem Worked.quick {s t : State} (h : Worked s t) (quick : ∀ k, (s.gap.get k).move.inFlight = false) :
    t.exm = s.exm ∧ t.orders = s.orders ∧ ∀ k, (t.gap.get k).move.inFlight = false := by
  induction h with
  | refl => exact ⟨rfl, rfl, quick⟩
  | calm _ c ih =>
    obtain ⟨exm, orders, moves⟩ := ih
    exact ⟨c.exm.trans exm, c.orders.trans orders, fun k => (c.moves k).trans (moves k)⟩
  | ended k r m flying _ _ ih =>
    rw [ih.2.2 k] at flying
    cases flying

theorem Worked.noMoves {s t : State} (h : Worked s t) (none : NoMoves s) : t.exm = s.exm ∧ t.orders = s.orders := by
  obtain ⟨exm, orders, -⟩ := h.quick fun k => by rw [none k]; rfl
  exact ⟨exm, orders⟩

theorem LeftRun.noMoves {l : RunLevel} {s t : State} (h : LeftRun l s t) : NoMoves t :=
  fun k => by rw [h.gap]; exact endMovesLevel_noMoves s k

/-! ### LOOPBACK entry -/

theorem mem_pollListOf {l : LineDesc} {e : PollEntry} : e ∈ pollListOf l ↔ e = .gauge ∨ ∃ k ∈ standsTo l.n, e = .stand k := by
  unfold pollListOf
  simp only [List.mem_append, List.mem_map, List.mem_singleton]
  constructor
  · rintro (⟨k, hk, rfl⟩ | rfl)
    · exact .inr ⟨k, hk, rfl⟩
    · exact .inl rfl
  · rintro (rfl | ⟨k, hk, rfl⟩)
    · exact .inr rfl
    · exact .inl ⟨k, hk, rfl⟩

theorem pollListOf_nodup (l : LineDesc) : (pollListOf l).Nodup := by
  unfold pollListOf
  refine List.Nodup.append ((standsTo_nodup _).map fun _ _ h => PollEntry.stand.inj h) (List.nodup_singleton _) ?_
  simp [List.disjoint_singleton]

theorem pollListOf_entryOk {l : LineDesc} {e : PollEntry} (h : e ∈ pollListOf l) : EntryOk e := by
  intro k hk
  subst hk
  rcases mem_pollListOf.mp h with h | ⟨j, hj, h⟩
  · cases h
  · cases h
    exact (reach_ok l.n).2 k hj

/-- The address the description gives an entry (R146). -/
def LineDesc.addressOf (l : LineDesc) : PollEntry → Nat
  | .stand k => (l.stands.get k).addr
  | .gauge => l.gaugeAddr

/-- A listed station at the entry. -/
theorem startLink_listed {s : State} {l : LineDesc} {e : PollEntry} (h : e ∈ pollListOf l) :
    (startLink s l).station e = (s.station e).entered (l.addressOf e) := by
  rcases mem_pollListOf.mp h with rfl | ⟨k, hk, rfl⟩
  · rfl
  · exact startLink_station s l (.stand k) (.inr ⟨k, rfl, (reach_ok l.n).2 k hk⟩)

/-- What LOOPBACK entry with a copy leaves (R155): every listed station has answered inside the part. -/
structure Looped (l : LineDesc) (s t : State) : Prop where
  level : t.level = .loopback
  line : t.line = s.line
  clock : t.clock = s.clock
  cycleClock : t.cycleClock = s.clock
  tracker : t.tracker = s.tracker
  trip : t.trip = s.trip
  store : t.store = s.store
  pollList : t.link.pollList = pollListOf l
  cycle : t.link.cycle = none
  waiting : t.link.expiryWaiting = false
  expiry : t.link.nextExpiry = some (s.clock + BitVec.ofNat 32 l.period)
  stations : ∀ e ∈ pollListOf l, t.station e = { s.station e with
    addr := l.addressOf e, state := .present, missRun := 0, goodRun := 1, prevTime := some s.clock, saturated := false,
    vDelivered := 0, lastLocal := false }
  stands : ∀ k ∈ standsTo l.n, (t.gap.get k).baseKnown = true ∧
    ∃ i, t.images.get k = { count := (s.images.get k).count + 1, shown := some i } ∧ i.time = s.clock ∧
      i.late = false ∧ i.v = 0 ∧ i.station = .present

theorem enterLoopback_looped {s : State} {l : LineDesc} (line : s.line = some l) : Looped l s (enterLoopback s) := by
  obtain ⟨u, hu⟩ : ∃ u, u = { startLink (forgetBases { s with level := .loopback }) l with cycleClock := s.clock } := ⟨_, rfl⟩
  have entered : enterLoopback s = (pollListOf l).foldl loopbackExchange u := by
    rw [hu]
    unfold enterLoopback
    dsimp only
    rw [show (forgetBases { s with level := .loopback }).line = some l from line]
    rfl
  have listed {e : PollEntry} (h : e ∈ pollListOf l) : u.station e = (s.station e).entered (l.addressOf e) := by
    rw [hu]
    exact startLink_listed (s := forgetBases { s with level := .loopback }) h
  obtain ⟨t, answered, level, clock, lined, tracker, trip, store, cycleClock, link, stations, stands, -⟩ :=
    loopback_exchanges (pollListOf l) u (pollListOf_nodup l) (fun e => pollListOf_entryOk) (by rw [hu]; rfl)
      fun e he => by rw [listed he]; exact ⟨rfl, rfl⟩
  have uClock : u.clock = s.clock := by rw [hu]; rfl
  have uImages : u.images = s.images := by rw [hu]; rfl
  rw [entered, answered]
  refine ⟨level, by rw [lined, hu]; rfl, clock.trans uClock, by rw [cycleClock, hu], by rw [tracker, hu]; rfl,
    by rw [trip, hu]; rfl, by rw [store, hu]; rfl, by rw [link, hu]; rfl, by rw [link, hu]; rfl, by rw [link, hu]; rfl,
    by rw [link, hu]; rfl, fun e he => ?_, fun k hk => ?_⟩
  · rw [stations, if_pos he, loopbackEntered, listed he, uClock]
    rfl
  · have := stands k (mem_pollListOf.mpr (.inr ⟨k, hk, rfl⟩))
    rwa [uImages, uClock] at this

theorem NoMoves.enterLoopback {s : State} (h : NoMoves s) : NoMoves (enterLoopback s) := by
  have forgot : NoMoves (forgetBases { s with level := .loopback }) := fun k => by
    by_cases hk : 1 ≤ k ∧ k ≤ 8
    · exact (congrArg Reference.move (PerStand.get_map _ _ _ hk)).trans (h k)
    · exact move_outside _ k hk
  unfold Machine.enterLoopback
  dsimp only
  split
  · exact foldl (fun _ _ h => h.loopbackExchange) _ _ (forgot.keep rfl)
  · exact forgot.keep rfl

/-- Off RUN a station that becomes PRESENT leaves the trip record area. -/
theorem becomePresent_tripArea {s : State} {e : PollEntry} (off : s.level ≠ .run) :
    (becomePresent e s).tripArea = s.tripArea := by
  unfold becomePresent
  dsimp only
  split
  · rw [if_neg off]
    split <;> simp
  · split <;> simp

theorem loopbackExchange_tripArea {s : State} {e : PollEntry} (off : s.level ≠ .run) :
    (loopbackExchange s e).tripArea = s.tripArea := by
  unfold loopbackExchange
  extract_lets s1 st st' s2 s3 st'' s4
  have h1 : s1.tripArea = s.tripArea ∧ s1.level = s.level := by cases e <;> simp [s1, prepareEntry]
  have h2 : s2.tripArea = s.tripArea ∧ s2.level = s.level := by simpa [s2] using h1
  have h3 : s3.tripArea = s.tripArea := by
    unfold s3
    split
    · exact h2.1
    · exact (becomePresent_tripArea (by rwa [h2.2])).trans h2.1
  have h4 : s4.tripArea = s.tripArea := by simpa [s4] using h3
  cases e <;> simp [h4]

theorem enterLoopback_tripArea (s : State) : (enterLoopback s).tripArea = s.tripArea := by
  have answered (l : List PollEntry) : ∀ t : State, t.level ≠ .run → (l.foldl loopbackExchange t).tripArea = t.tripArea := by
    induction l with
    | nil => exact fun _ _ => rfl
    | cons e l ih => exact fun t off => (ih _ (by simpa using off)).trans (loopbackExchange_tripArea off)
  unfold enterLoopback
  dsimp only
  split
  · exact answered _ _ nofun
  · rfl

/-- What both entries with a copy have in common; `x` is the part as LOOPBACK is entered. -/
theorem Looped.entry {l : LineDesc} {s x t : State} {now : Clock} (h : Looped l x t) (clock : x.clock = now)
    (images : x.images = s.images) (station : ∀ e, x.station e = s.station e) :
    t.level = .loopback ∧ t.clock = now ∧ t.cycleClock = now ∧ t.link.pollList = pollListOf l ∧ t.link.cycle = none ∧
      t.link.expiryWaiting = false ∧ t.link.nextExpiry = some (now + BitVec.ofNat 32 l.period) ∧
      (∀ e ∈ t.link.pollList, t.station e = { s.station e with
        addr := l.addressOf e, state := .present, missRun := 0, goodRun := 1, prevTime := some now, saturated := false,
        vDelivered := 0, lastLocal := false }) ∧
      ∀ k ∈ standsTo l.n, (t.gap.get k).baseKnown = true ∧
        ∃ i, t.images.get k = { count := (s.images.get k).count + 1, shown := some i } ∧ i.time = now ∧
          i.late = false ∧ i.v = 0 ∧ i.station = .present := by
  subst clock
  refine ⟨h.level, h.clock, h.cycleClock, h.pollList, h.cycle, h.waiting, h.expiry, fun e he => ?_, fun k hk => ?_⟩
  · rw [h.stations e (by rwa [h.pollList] at he), station]
  · rw [← images]
    exact h.stands k hk

/-- Settles O20. -/
theorem loopbackEntryBuildsTheListAndAnswersInside : Obligations.LoopbackEntryBuildsTheListAndAnswersInside := by
  refine fun dt s u => ⟨fun line hu => ?_, fun l form level free line => ?_⟩
  · have entered : enterLoopback (s.tick dt) = u := by
      rw [hu]
      unfold enterLoopback
      dsimp only
      rw [show (forgetBases { s.tick dt with level := .loopback }).line = none from line]
      rfl
    refine ⟨fun halt => ?_, fun configure free => ?_⟩
    · have requested : requestLoopback (s.tick dt) = startIntake u := by
        unfold requestLoopback
        rw [show (s.tick dt).level = .halt from halt]
        exact congrArg startIntake entered
      show finish (requestLoopback (s.tick dt)) = _
      rw [requested, startIntake, show u.orders = s.orders by rw [hu]]
      rfl
    · have requested : requestLoopback (s.tick dt) = u := by
        unfold requestLoopback
        rw [show (s.tick dt).level = .configure from configure]
        dsimp only
        rw [finishTaken_free (s := s.tick dt) free, resumeIntake_free (s := s.tick dt) free, entered]
      show finish (requestLoopback (s.tick dt)) = _
      rw [requested]
      rfl
  · have known {x : State} (lined : x.line = s.line) : Looped l x (enterLoopback x) := enterLoopback_looped (lined.trans line)
    have down {t : State} (off : t.level = .loopback) : t.settled.linesDown := linesDown_settled t (.inr (by rw [off]; nofun))
    rcases level with level | level
    · have requested : requestLoopback (s.tick dt) = enterLoopback (s.tick dt) := by
        unfold requestLoopback
        rw [show (s.tick dt).level = .configure from level]
        dsimp only
        rw [finishTaken_free (s := s.tick dt) free, resumeIntake_free (s := s.tick dt) free]
      have h : Looped l (s.tick dt) (enterLoopback (s.tick dt)) := known rfl
      have result : (enterLoopback (s.tick dt)).configResult = s.configResult := by simp
      obtain ⟨off, clock, cycleClock, pollList, cycle, waiting, expiry, stations, stands⟩ := h.entry rfl rfl fun _ => rfl
      refine ⟨(requestLoopback (s.tick dt)).settled, rfl, ?_⟩
      rw [requested]
      refine ⟨off, down off, h.line, result, clock, cycleClock, pollList, cycle, waiting, expiry, fun e he => ?_, stands,
        fun _ => ⟨h.tracker, h.trip, h.store⟩, fun run => ?_⟩
      · cases e <;> exact stations _ he
      · rw [level] at run; cases run
    · have requested : requestLoopback (s.tick dt) = enterLoopback (leaveRun .loopback (s.tick dt)) := by
        unfold requestLoopback
        rw [show (s.tick dt).level = .run from level]
        dsimp only
        rw [finishTaken_free (s := s.tick dt) free, resumeIntake_free (s := s.tick dt) free]
      have left := leaveRun_left .loopback (s.tick dt)
      obtain ⟨vacant, occupied⟩ := left.dropped
      have ⟨xClock, _, _, _, xResult, _, xImages, xLine, _⟩ := leaveRun_keeps (s := s.tick dt) .loopback
      generalize leaveRun .loopback (s.tick dt) = x at *
      have h : Looped l x (enterLoopback x) := known xLine
      have quiet : NoMoves x := left.noMoves
      have result : (enterLoopback x).configResult = s.configResult := by simp [xResult]
      obtain ⟨exm, orders⟩ := (Worked.refl (s := x)).enterLoopback.noMoves quiet
      have station (e : PollEntry) : x.station e = s.station e := by
        cases e <;> (unfold State.station; rw [left.link]; rfl)
      obtain ⟨off, clock, cycleClock, pollList, cycle, waiting, expiry, stations, stands⟩ := h.entry xClock xImages station
      refine ⟨(requestLoopback (s.tick dt)).settled, rfl, ?_⟩
      rw [requested]
      refine ⟨off, down off, h.line.trans xLine, result, clock, cycleClock, pollList, cycle, waiting, expiry,
        fun e he => ?_, stands, fun configure => ?_, fun _ => ⟨?_, ?_, ?_, ?_, ?_, ?_, ?_⟩⟩
      · cases e <;> exact stations _ he
      · rw [level] at configure; cases configure
      · exact left.ended form exm (congrArg OrderUnit.inFlight orders) fun k _ => quiet.enterLoopback k
      · exact h.tracker.trans left.tracker
      · exact fun x => (congrArg (fun st : Store => st.slot x) h.store).trans (left.slots x)
      · exact (congrArg Store.inForce h.store).trans left.inForce
      · exact (congrArg Store.lastLoaded h.store).trans left.lastLoaded
      · exact fun v => ⟨h.trip.trans (vacant v).1, (enterLoopback_tripArea x).trans (vacant v).2⟩
      · intro o
        rw [show (enterLoopback x).settled.trip = x.trip from h.trip]
        exact occupied o

end Sys2Proof.Machine

/-! Proofs for RUN entry (R106, R163). -/

namespace Sys2Proof.Machine

/-! ### MON over the switches of a RUN entry (R79, R92, R106) -/

section
variable {s : State}

/-- A switch of a stand that is not stand N keeps its MON. -/
theorem switchStand_mon {j k : Nat} {x : Slot} {c : SwitchCause} {f : FreeCause} {tm : Clock} (other : k ≠ s.n) :
    ((switchStand j x c f tm s).gap.get k).mon = (s.gap.get k).mon := by
  obtain ⟨u, hu⟩ : ∃ u : State, u = { s with store := { s.store with inForce := s.store.inForce.set j (some x) } } := ⟨_, rfl⟩
  have gap : (switchStand j x c f tm s).gap = (endHold j (switchTerms j u)).gap := by
    rw [hu]
    unfold switchStand
    dsimp only
    split <;> simp
  have terms : ((switchTerms j u).gap.get k).mon = (s.gap.get k).mon := by
    have n : u.n = s.n := by rw [hu]; rfl
    have same : u.gap = s.gap := by rw [hu]
    show ((u.gap.set j _).get k).mon = _
    by_cases hk : 1 ≤ k ∧ k ≤ 8
    · by_cases hj : k = j
      · subst hj
        rw [PerStand.get_set_same _ _ _ hk]
        show (if k = u.n then _ else _) = _
        rw [n, if_neg other, same]
      · rw [PerStand.get_set_other _ _ _ _ hj, same]
    · rw [PerStand.get_outside _ _ hk, PerStand.get_outside _ _ hk]
  rw [gap]
  obtain ⟨m, hm⟩ : MoveOnly ((switchTerms j u).gap.get k) ((endHold j (switchTerms j u)).gap.get k) := by
    unfold endHold
    split
    · exact withMove_only _ _ _ _
    · exact .refl _
  rw [hm]
  exact terms

/-- A switch of another stand leaves a stand's slot and references. -/
theorem switchStand_other {j k : Nat} {x : Slot} {c : SwitchCause} {f : FreeCause} {tm : Clock} (hj : 1 ≤ j ∧ j ≤ 8)
    (other : k ≠ j) : (switchStand j x c f tm s).gap.get k = s.gap.get k ∧
      (switchStand j x c f tm s).slotAt k = s.slotAt k := by
  obtain ⟨inForce, -, -, gap, -⟩ := switch_spec j x c f tm s hj
  refine ⟨gap k other, ?_⟩
  unfold State.slotAt
  rw [inForce, PerStand.get_set_other _ _ _ _ other]

theorem switchStand_slotAt {k : Nat} {x : Slot} {c : SwitchCause} {f : FreeCause} {tm : Clock} (hk : 1 ≤ k ∧ k ≤ 8) :
    (switchStand k x c f tm s).slotAt k = some x := by
  obtain ⟨inForce, -⟩ := switch_spec k x c f tm s hk
  unfold State.slotAt
  rw [inForce, PerStand.get_set_same _ _ _ hk]

/-- Switches of several stands: a stand that is none of them keeps its slot and references, each of them takes the slot, and
MON changes at stand N alone. -/
theorem switchStands_stand {k : Nat} {x : Slot} {c : SwitchCause} {f : FreeCause} {tm : Clock}
    (ks : List Nat) (hks : ∀ j ∈ ks, 1 ≤ j ∧ j ≤ 8) : ∀ s : State,
    (k ∉ ks → (switchStands ks x c f tm s).gap.get k = s.gap.get k ∧ (switchStands ks x c f tm s).slotAt k = s.slotAt k) ∧
    (k ∈ ks → (switchStands ks x c f tm s).slotAt k = some x) ∧
    (k ≠ s.n → ((switchStands ks x c f tm s).gap.get k).mon = (s.gap.get k).mon) := by
  induction ks with
  | nil => exact fun s => ⟨fun _ => ⟨rfl, rfl⟩, nofun, fun _ => rfl⟩
  | cons j ks ih =>
    intro s
    obtain ⟨out, inside, mon⟩ := ih (fun i hi => hks i (by simp [hi])) (switchStand j x c f tm s)
    have hj := hks j (by simp)
    have n : (switchStand j x c f tm s).n = s.n := by simp [State.n, State.lineCopy]
    show (k ∉ j :: ks → (switchStands ks x c f tm (switchStand j x c f tm s)).gap.get k = _ ∧ _ = _) ∧ (_ → _ = _) ∧
      (_ → ((switchStands ks x c f tm (switchStand j x c f tm s)).gap.get k).mon = _)
    refine ⟨fun h => ?_, fun h => ?_, fun h => (mon (by rwa [n])).trans (switchStand_mon h)⟩
    · obtain ⟨hkj, hks⟩ := not_or.mp (mt List.mem_cons.mpr h)
      obtain ⟨gap, slot⟩ := switchStand_other (x := x) (c := c) (f := f) (tm := tm) (s := s) hj hkj
      exact ⟨(out hks).1.trans gap, (out hks).2.trans slot⟩
    · by_cases later : k ∈ ks
      · exact inside later
      · have : k = j := by simpa [later] using h
        subst this
        exact (out later).2.trans (switchStand_slotAt hj)

/-- The collapse of a RUN entry: a stand keeps its slot and references, or goes from one live slot to the other. -/
theorem collapseSlots_stand {k : Nat} {c : SwitchCause} {tm : Clock} :
    (k ≠ s.n → ((collapseSlots c tm s).gap.get k).mon = (s.gap.get k).mon) ∧
    (((collapseSlots c tm s).gap.get k = s.gap.get k ∧ (collapseSlots c tm s).slotAt k = s.slotAt k) ∨
      ∃ x : Slot, s.slotAt k = some x.other ∧ (collapseSlots c tm s).slotAt k = some x) := by
  unfold collapseSlots
  split
  · exact ⟨fun _ => rfl, .inl ⟨rfl, rfl⟩⟩
  case h_2 x _ =>
    split
    · extract_lets u
      have hks : ∀ j ∈ (standsTo s.n).filter (fun k => s.slotAt k == some x.other), 1 ≤ j ∧ j ≤ 8 :=
        fun j hj => (reach_ok s.n).2 j (List.mem_of_mem_filter hj)
      obtain ⟨out, inside, mon⟩ := switchStands_stand (x := x) (c := c) (f := .collapse) (tm := tm) _ hks s
      have freed {v : State} (hv : v = freeSlot x.other .collapse tm u ∨ v = u) : v.gap = u.gap ∧ v.slotAt k = u.slotAt k := by
        rcases hv with rfl | rfl
        · refine ⟨by simp, ?_⟩
          unfold State.slotAt
          rw [(freeSlot_rest _ _ _ _).1]
        · exact ⟨rfl, rfl⟩
      have either : (if (u.store.slot x.other).live = true then freeSlot x.other .collapse tm u else u) =
          freeSlot x.other .collapse tm u ∨ (if (u.store.slot x.other).live = true then freeSlot x.other .collapse tm u else u) = u := by
        split
        · exact .inl rfl
        · exact .inr rfl
      obtain ⟨gap, slot⟩ := freed either
      rw [gap, slot]
      refine ⟨mon, ?_⟩
      by_cases member : k ∈ (standsTo s.n).filter (fun k => s.slotAt k == some x.other)
      · exact .inr ⟨x, by simpa using (List.mem_filter.mp member).2, inside member⟩
      · exact .inl (out member)
    · exact ⟨fun _ => rfl, .inl ⟨rfl, rfl⟩⟩

theorem collapseSlots_free {c : SwitchCause} {tm : Clock} {x : Slot} (free : s.store.slot x = {}) : collapseSlots c tm s = s := by
  have one : s.store.bothLive = false := by
    unfold Store.bothLive
    cases x with
    | a => rw [show s.store.slotA = {} from free]; rfl
    | b => rw [show s.store.slotB = {} from free]; exact Bool.and_false _
  unfold collapseSlots
  split
  · rfl
  · rw [one]; rfl

theorem oneLive_not_free {st : Store} {x : Slot} (one : st.oneLive = some x) : st.slot x ≠ {} := by
  intro free
  unfold Store.oneLive at one
  split at one
  · cases one; rw [show st.slotA = {} from free] at *; simp_all [SlotRecord.live]
  · cases one; rw [show st.slotB = {} from free] at *; simp_all [SlotRecord.live]
  · cases one

/-- The drop of the mismatching slots leaves a stand its slot, or, where that becomes free, none. -/
theorem dropMismatches_stand (k : Nat) :
    (dropMismatch .b (dropMismatch .a s)).gap = s.gap ∧
    ((dropMismatch .b (dropMismatch .a s)).slotAt k = s.slotAt k ∨
      ∃ x, s.slotAt k = some x ∧ (dropMismatch .b (dropMismatch .a s)).slotAt k = none ∧
        (dropMismatch .b (dropMismatch .a s)).store.slot x = {}) := by
  obtain ⟨slotA, atA, -⟩ := dropMismatch_store .a s
  obtain ⟨slotB, atB, -⟩ := dropMismatch_store .b (dropMismatch .a s)
  refine ⟨by simp, ?_⟩
  rw [atB, atA]
  by_cases inA : ((s.store.slot .a).live = true ∧ ((s.store.slot .a).schedule.getD {}).count ≠ s.n) ∧ s.slotAt k = some .a
  · refine .inr ⟨.a, inA.2, ?_, ?_⟩
    · rw [if_pos inA, if_neg (by simp)]
    · rw [slotB, if_neg (by simp), slotA, if_pos ⟨rfl, inA.1⟩]
  · rw [if_neg inA]
    split
    case isTrue inB => exact .inr ⟨.b, inB.2, rfl, by rw [slotB, if_pos ⟨rfl, inB.1⟩]⟩
    case isFalse => exact .inl rfl

/-- MON of a stand over the slots' part of RUN entry: kept but at a stand N that switches. -/
theorem slotsRunEntry_mon {k : Nat} (hk : 1 ≤ k ∧ k ≤ 8) (kept : k ≠ s.n ∨ (slotsRunEntry s).slotAt k = s.slotAt k) :
    ((slotsRunEntry s).gap.get k).mon = (s.gap.get k).mon := by
  obtain ⟨s1, h1⟩ : ∃ s1, s1 = dropMismatch .b (dropMismatch .a s) := ⟨_, rfl⟩
  obtain ⟨s2, h2⟩ : ∃ s2, s2 = collapseSlots .runEntry s1.clock s1 := ⟨_, rfl⟩
  obtain ⟨s3, h3⟩ : ∃ s3, s3 = match s2.store.oneLive with
    | some x => switchStands ((standsTo s2.n).filter fun k => (s2.slotAt k).isNone) x .runEntry .lastStand s2.clock s2
    | none => s2 := ⟨_, rfl⟩
  have entered : slotsRunEntry s = { s3 with store := { s3.store with
      inForce := PerStand.ofStand fun k => if k ≤ s3.n then s3.slotAt k else none } } := by rw [h3, h2, h1]; rfl
  have n1 : s1.n = s.n := by rw [h1]; simp [State.n, State.lineCopy]
  have n2 : s2.n = s.n := by rw [h2, ← n1]; simp [State.n, State.lineCopy]
  have n3 : s3.n = s.n := by
    rw [h3, ← n2]
    split <;> simp [State.n, State.lineCopy]
  obtain ⟨gap1, at1⟩ := dropMismatches_stand (s := s) k
  rw [← h1] at gap1 at1
  obtain ⟨mon2, at2⟩ := collapseSlots_stand (s := s1) (k := k) (c := .runEntry) (tm := s1.clock)
  rw [← h2] at mon2 at2
  have after3 : (k ≠ s.n → (s3.gap.get k).mon = (s2.gap.get k).mon) ∧ (s3.gap.get k = s2.gap.get k ∧ s3.slotAt k = s2.slotAt k ∨
      ∃ x, s2.store.slot x ≠ {} ∧ s2.slotAt k = none ∧ s3.slotAt k = some x) := by
    rw [h3]
    split
    case h_1 x one =>
      have hks : ∀ j ∈ (standsTo s2.n).filter (fun k => (s2.slotAt k).isNone), 1 ≤ j ∧ j ≤ 8 :=
        fun j hj => (reach_ok s2.n).2 j (List.mem_of_mem_filter hj)
      obtain ⟨out, inside, mon⟩ := switchStands_stand (x := x) (c := .runEntry) (f := .lastStand) (tm := s2.clock) _ hks s2
      refine ⟨fun h => mon (by rwa [n2]), ?_⟩
      by_cases member : k ∈ (standsTo s2.n).filter (fun k => (s2.slotAt k).isNone)
      · exact .inr ⟨x, oneLive_not_free one, by simpa using (List.mem_filter.mp member).2, inside member⟩
      · exact .inl (out member)
    · exact ⟨fun _ => rfl, .inl ⟨rfl, rfl⟩⟩
  obtain ⟨mon3, at3⟩ := after3
  have final : (slotsRunEntry s).slotAt k = if k ≤ s.n then s3.slotAt k else none := by
    rw [entered, ← n3]
    exact PerStand.get_ofStand _ _ hk
  rw [entered]
  show (s3.gap.get k).mon = _
  by_cases last : k = s.n
  · have same : s3.slotAt k = s.slotAt k := by
      rw [← kept.resolve_left (not_not.mpr last), final, if_pos (by omega)]
    have gap2 : s2.gap.get k = s1.gap.get k ∧ s2.slotAt k = s1.slotAt k := by
      rcases at2 with at2 | ⟨x, before, after⟩
      · exact at2
      · have held : s.slotAt k = some x.other := by
          rcases at1 with at1 | ⟨_, _, gone, _⟩
          · rw [← at1, before]
          · rw [gone] at before; cases before
        have went : s3.slotAt k = some x := by
          rcases at3 with at3 | ⟨_, _, gone, _⟩
          · rw [at3.2, after]
          · rw [gone] at after; cases after
        rw [went, held] at same
        cases x <;> cases same
    rcases at3 with at3 | ⟨x, live, gone, went⟩
    · rw [at3.1, gap2.1, gap1]
    · rcases at1 with at1 | ⟨y, before, _, free⟩
      · rw [went, ← at1, ← gap2.2, gone] at same
        cases same
      · rw [went, before] at same
        cases same
        rw [h2, collapseSlots_free free] at live
        exact absurd free live
  · rw [mon3 last, mon2 (by rwa [n1]), gap1]

end

/-! ### RUN entry, whole (R163) -/

/-- RUN entry up to the link's start (R163, steps 2 to 9). -/
@[irreducible] def beforeLink (l : LineDesc) (s : State) : State :=
  tripRunEntry (gapRunEntry (s.line.map LineDesc.n) (rewriteSummary (resetThreading (slotsRunEntry (gaugeRunEntry
    (thicknessRunEntry (takeLine l (leaveLoopback s))))))))

/-- The same with the state as the slots' part of RUN entry finds it named. -/
theorem beforeLink_of {l : LineDesc} {s x : State} (hx : x = gaugeRunEntry (thicknessRunEntry (takeLine l (leaveLoopback s)))) :
    beforeLink l s = tripRunEntry (gapRunEntry (s.line.map LineDesc.n) (rewriteSummary (resetThreading (slotsRunEntry x)))) := by
  rw [hx]
  unfold beforeLink
  rfl

theorem enterRun_eq (l : LineDesc) (s : State) : enterRun l s = dropImages (linkRunEntry (beforeLink l s)) := by
  unfold enterRun beforeLink
  rfl

theorem beforeLink_line (l : LineDesc) (s : State) : (beforeLink l s).line = some l := by
  unfold beforeLink
  exact (enterRun_blocks l s _ _ rfl rfl).1

/-- What the first cycle's start leaves: the first entry, stand 1, has been prepared and its poll is being sent. -/
structure Started (l : LineDesc) (a t : State) : Prop where
  pollList : t.link.pollList = pollListOf l
  cycle : t.link.cycle = some { index := 0, phase := .sending, late := false }
  waiting : t.link.expiryWaiting = false
  expiry : t.link.nextExpiry = some (a.clock + BitVec.ofNat 32 l.period)
  cycleClock : t.cycleClock = a.clock
  stations : ∀ e ∈ pollListOf l, t.station e = (a.station e).entered (l.addressOf e)
  gap : ∃ u, t.gap = (prepare 1 u).gap ∧ u.gap = a.gap

theorem linkRunEntry_started {l : LineDesc} {a : State} (one : 1 ≤ l.n) (line : a.line = some l) :
    Started l a (linkRunEntry a) := by
  have copy : a.lineCopy = l := (n_of_line line).2
  obtain ⟨u, hu⟩ : ∃ u, u = { startLink a l with cycleClock := a.clock } := ⟨_, rfl⟩
  have started : linkRunEntry a = beginExchange 0 false u := by rw [hu, ← copy]; rfl
  obtain ⟨rest, head⟩ := pollListOf_cons l
  rw [if_pos one] at head
  have list : u.link.pollList = PollEntry.stand 1 :: rest := by rw [hu]; exact head
  obtain ⟨cycle, pollList, waiting, expiry, stations, gap⟩ := beginExchange_zero u false _ _ list
  rw [started]
  refine ⟨?_, cycle, ?_, ?_, ?_, fun e he => ?_, u, gap, by rw [hu]; rfl⟩
  · rw [pollList, hu]; rfl
  · rw [waiting, hu]; rfl
  · rw [expiry, hu]; rfl
  · rw [show (beginExchange 0 false u).cycleClock = u.cycleClock by simp, hu]
  · rw [stations, hu]
    exact startLink_listed (s := a) he

/-- MON over RUN entry up to the link's start: kept where N is unchanged, but at a stand N that switches (R79, R92). -/
theorem beforeLink_mon {l : LineDesc} {s : State} {k : Nat} (hk : 1 ≤ k ∧ k ≤ 8) (same : s.line.map LineDesc.n = some l.n)
    (kept : k ≠ l.n ∨ (beforeLink l s).slotAt k = s.slotAt k) : ((beforeLink l s).gap.get k).mon = (s.gap.get k).mon := by
  obtain ⟨x, hx⟩ : ∃ x, x = gaugeRunEntry (thicknessRunEntry (takeLine l (leaveLoopback s))) := ⟨_, rfl⟩
  obtain ⟨y, hy⟩ : ∃ y, y = rewriteSummary (resetThreading (slotsRunEntry x)) := ⟨_, rfl⟩
  have before : beforeLink l s = tripRunEntry (gapRunEntry (s.line.map LineDesc.n) y) := by
    rw [hy]
    exact beforeLink_of hx
  have lineX : x.line = some l := by rw [hx]; simp [takeLine_line]
  have storeX : x.store = s.store := by rw [hx]; simp
  have gapX : (x.gap.get k).mon = (s.gap.get k).mon := by
    have gap : x.gap = (leaveLoopback s).gap := by rw [hx]; simp
    rw [gap]
    unfold leaveLoopback
    split
    · show ((endMovesLevel s).gap.get k).mon = _
      rw [endMovesLevel_gap s k hk]
    · rfl
  have gapY : y.gap = (slotsRunEntry x).gap := by rw [hy]; rfl
  have nY : y.n = l.n := (n_of_line (by rw [hy]; simp [lineX])).1
  have storeY : (beforeLink l s).store = (slotsRunEntry x).store := by rw [before, hy]; simp
  have slots : ((slotsRunEntry x).gap.get k).mon = (x.gap.get k).mon := by
    refine slotsRunEntry_mon hk ?_
    rw [(n_of_line lineX).1]
    refine kept.imp_right fun slot => ?_
    unfold State.slotAt at slot ⊢
    rw [← storeY, slot, storeX]
  obtain ⟨m, hm⟩ := tripRunEntry_only (gapRunEntry (s.line.map LineDesc.n) y) k
  have gapped : ((gapRunEntry (s.line.map LineDesc.n) y).gap.get k).mon =
      if s.line.map LineDesc.n ≠ some y.n then 0 else (y.gap.get k).mon := congrArg Reference.mon (PerStand.get_map _ _ _ hk)
  rw [before, hm]
  refine gapped.trans ?_
  rw [nY, if_neg (not_not.mpr same), gapY, slots, gapX]

theorem NoMoves.resetThreading {s : State} (h : NoMoves s) : NoMoves (rewriteSummary (resetThreading s)) := h.keep rfl

theorem NoMoves.dropImages {s : State} (h : NoMoves s) : NoMoves (dropImages s) := h.keep rfl

theorem NoMoves.gapRunEntry {n : Option Nat} {s : State} (h : NoMoves s) : NoMoves (gapRunEntry n s) := fun k => by
  by_cases hk : 1 ≤ k ∧ k ≤ 8
  · exact (congrArg Reference.move (PerStand.get_map _ _ _ hk)).trans (h k)
  · exact move_outside _ k hk

theorem NoMoves.tripRunEntry {s : State} (h : NoMoves s) : NoMoves (tripRunEntry s) := by
  unfold Machine.tripRunEntry
  extract_lets matrix trip entered
  have quiet : NoMoves entered := h.keep rfl
  exact ite quiet.takeCause quiet

theorem NoMoves.linkRunEntry {s : State} (h : NoMoves s) : NoMoves (linkRunEntry s) := by
  have started : NoMoves { startLink s s.lineCopy with cycleClock := s.clock } := h.keep rfl
  exact started.beginExchange

/-- At LOOPBACK, RUN entry ends every move first, and no later step of it makes one (R163, step 2). -/
theorem enterRun_ended {l : LineDesc} {s : State} (form : memoryOk s) (level : s.level = .loopback) :
    MovesEnded standNumbers 5 s (enterRun l s) := by
  obtain ⟨a, ha⟩ : ∃ a, a = stopLink (endMovesLevel s) := ⟨_, rfl⟩
  have left : leaveLoopback s = a := by rw [ha, leaveLoopback, if_pos level]
  have off : a.level ≠ .halt := by rw [ha]; simp [level]
  obtain ⟨b, hb⟩ : ∃ b, b = { a with line := some l, configResult := 0, level := .run } := ⟨_, rfl⟩
  have taken : takeLine l (leaveLoopback s) = b := by
    rw [left, hb]
    unfold takeLine
    dsimp only
    rw [if_neg off]
  have entered : enterRun l s = dropImages (linkRunEntry (tripRunEntry (gapRunEntry (s.line.map LineDesc.n) (rewriteSummary
      (resetThreading (slotsRunEntry (gaugeRunEntry (thicknessRunEntry b)))))))) := by rw [← taken]; rfl
  have none : NoMoves b := fun k => by rw [hb, ha]; exact endMovesLevel_noMoves s k
  have worked : Worked b (enterRun l s) := by
    rw [entered]
    exact Worked.refl.runEntry
  obtain ⟨exm, orders⟩ := worked.noMoves none
  have quiet : NoMoves (enterRun l s) := by
    have slots : NoMoves (slotsRunEntry (gaugeRunEntry (thicknessRunEntry b))) := (none.keep (by simp)).slotsRunEntry
    rw [entered]
    exact slots.resetThreading.gapRunEntry.tripRunEntry.linkRunEntry.dropImages
  refine endMovesLevel_ended s _ form (fun k _ => quiet k) ?_ ?_
  · rw [exm, hb, ha]; rfl
  · rw [orders, hb, ha]; rfl

/-- The records that the link's start leaves as they are. -/
theorem enterRun_keeps (l : LineDesc) (s : State) :
    (enterRun l s).tracker = (beforeLink l s).tracker ∧ (enterRun l s).gauge = (beforeLink l s).gauge ∧
      (enterRun l s).est = (beforeLink l s).est ∧ (enterRun l s).trip = (beforeLink l s).trip ∧
      (enterRun l s).store = (beforeLink l s).store ∧ (enterRun l s).configResult = (beforeLink l s).configResult := by
  rw [enterRun_eq]
  generalize beforeLink l s = a
  simp

/-- The references after RUN entry: those of the entry, the first poll's preparation at stand 1 excepted (R81, R88). -/
theorem enterRun_ref {l : LineDesc} {s : State} {k : Nat} (one : 1 ≤ l.n) (hk : 1 ≤ k ∧ k ≤ 8) :
    ∃ r r', (enterRun l s).gap.get k = r ∧ (beforeLink l s).gap.get k = r' ∧
      r.ff = r'.ff ∧ r.agc = r'.agc ∧ r.hLock = r'.hLock ∧ r.trim = r'.trim ∧ r.mon = r'.mon ∧
        (k ≠ 1 → r.baseKnown = r'.baseKnown) := by
  have started := linkRunEntry_started one (beforeLink_line l s)
  rw [enterRun_eq]
  generalize beforeLink l s = a at *
  obtain ⟨u, gap, same⟩ := started.gap
  have entered : (dropImages (linkRunEntry a)).gap = (prepare 1 u).gap := gap
  refine ⟨_, _, rfl, rfl, ?_⟩
  rw [entered, ← same]
  by_cases h1 : k = 1
  · subst h1
    obtain ⟨ff, agc, hLock, trim, mon⟩ := prepare_terms 1 u
    exact ⟨ff, agc, hLock, trim, mon, fun h => absurd rfl h⟩
  · rw [prepare_baseKnown 1 k u h1]
    exact ⟨rfl, rfl, rfl, rfl, rfl, fun _ => rfl⟩

theorem beforeLink_station (l : LineDesc) (s : State) (e : PollEntry) : (beforeLink l s).station e = s.station e := by
  have link : (beforeLink l s).link.stations = s.link.stations ∧ (beforeLink l s).link.gauge = s.link.gauge := by
    unfold beforeLink
    exact enterRun_link l s _ _ rfl rfl
  generalize beforeLink l s = a at *
  cases e with
  | stand k => exact congrArg (fun p : PerStand Station => p.get k) link.1
  | gauge => exact link.2

theorem beforeLink_images (l : LineDesc) (s : State) : (beforeLink l s).images = s.images := by
  unfold beforeLink
  simp

theorem enterRun_images {l : LineDesc} {s : State} {k : Nat} (hk : 1 ≤ k ∧ k ≤ 8) :
    (enterRun l s).images.get k = if l.n < k then { s.images.get k with shown := none } else s.images.get k := by
  have images : (linkRunEntry (beforeLink l s)).images = s.images := by simp [beforeLink_images]
  have n : (linkRunEntry (beforeLink l s)).n = l.n := (n_of_line (by simp [beforeLink_line])).1
  rw [enterRun_eq]
  generalize linkRunEntry (beforeLink l s) = a at *
  refine (PerStand.get_ofStand _ _ hk).trans ?_
  rw [images, n]
  split
  · rw [if_neg (by omega)]
  · rw [if_pos (by omega)]

/-- The slots after RUN entry (R106). -/
theorem enterRun_store {l : LineDesc} {s : State} (h : storeOk s) (off : s.level ≠ .run) (valid : l.failure = none) (fits : Slot → Bool)
    (hf : ∀ x, fits x = decide ((s.store.slot x).state ≠ .free ∧ ((s.store.slot x).schedule.getD {}).count = l.n))
    (c : Option Slot) (hc : c = (match fits .a, fits .b with
      | true, true => s.store.lastLoaded
      | true, false => some .a
      | false, true => some .b
      | false, false => none)) :
    (∀ x, (enterRun l s).store.slot x = if c = some x then { s.store.slot x with state := .inForce } else {}) ∧
      ∀ k ∈ standNumbers, (enterRun l s).slotAt k = if k ≤ l.n then c else none := by
  obtain ⟨x, hx⟩ : ∃ x, x = gaugeRunEntry (thicknessRunEntry (takeLine l (leaveLoopback s))) := ⟨_, rfl⟩
  have store : x.store = s.store := by rw [hx]; simp
  have zones : x.tracker.zones = s.tracker.zones := by rw [hx]; simp
  have n : x.n = l.n := (n_of_line (by rw [hx]; simp [takeLine_line])).1
  have entered : (enterRun l s).store = (slotsRunEntry x).store := by
    obtain ⟨-, -, -, -, store, -⟩ := enterRun_keeps l s
    rw [store, beforeLink_of hx]
    simp
  obtain ⟨held, -, -, -, unloaded, -, empty, -⟩ := h
  have slots (y : Slot) : slotOk x y := Stock.slotOk_congr (held y) (by rw [store])
    (by unfold inForceSomewhere State.slotAt; rw [store]) (by rw [tagsAMark_iff, tagsAMark_iff, zones])
  obtain ⟨one, -⟩ := LineDesc.n_of_valid valid
  obtain ⟨slot, inForce, -⟩ := slotsRunEntry_store x slots (zones.trans (empty off)) (by rw [store]; exact unloaded)
    (by omega) fits (by rw [store, n]; exact hf) c (by rw [store]; exact hc)
  rw [store] at slot
  rw [n] at inForce
  refine ⟨fun y => ?_, fun k hk => ?_⟩
  · rw [entered, slot]
  · rw [← inForce k (stand_of hk)]
    unfold State.slotAt
    rw [entered]

/-- The blocks as RUN entry leaves them before the link's start (R163, steps 2 to 9). -/
structure Entered (l : LineDesc) (s a : State) : Prop where
  result : a.configResult = 0
  clock : a.clock = s.clock
  tracker : a.tracker = { s.tracker with threading := PerStand.all {} }
  gauge : a.gauge = { s.gauge with held := false, silent := false, out := false, paired := 0, unpaired := 0, outCount := 0 }
  est : ∀ k, 1 ≤ k ∧ k ≤ 8 → (a.est.get k).pendingTable = none ∧ (a.est.get k).mode = .lookup ∧
    (k ≤ l.n → (a.est.get k).loaded = true ∧
      ((s.est.get k).loaded = false → (a.est.get k).z = (l.stands.get k).z ∧ (a.est.get k).zst = (l.stands.get k).zst ∧
        (a.est.get k).table = some ((s.est.get k).pendingTable.getD (l.stands.get k).table)) ∧
      ((s.est.get k).loaded = true → (a.est.get k).z = (s.est.get k).z ∧ (a.est.get k).zst = (s.est.get k).zst))
  matrix : a.trip.matrix = some (l.matrix.map MatrixBytes.decode)
  ready : a.trip.ready = PerStand.all false
  etrip : a.trip.etrip = s.etripPin
  healthy : s.etripPin = .healthy → a.trip.latch = s.trip.latch ∧ a.trip.actions = s.trip.actions ∧
    a.trip.entryStop = s.trip.entryStop ∧ a.trip.causes = s.trip.causes ∧ a.trip.overflow = s.trip.overflow
  tripped : s.etripPin = .trip → a.trip.latch = true
  gap : ∀ k, 1 ≤ k ∧ k ≤ 8 → (a.gap.get k).ff = 0 ∧ (a.gap.get k).agc = 0 ∧ (a.gap.get k).hLock = 0 ∧
    (a.gap.get k).trim = limit (s.gap.get k).trim l.trimLim ∧ (a.gap.get k).baseKnown = false ∧
    (s.line.map LineDesc.n ≠ some l.n → (a.gap.get k).mon = 0)

theorem beforeLink_entered (l : LineDesc) (s : State) : Entered l s (beforeLink l s) := by
  unfold beforeLink
  obtain ⟨-, -, result, clock, tracker, gauge, est, estTaken, line⟩ := enterRun_blocks l s _ _ rfl rfl
  obtain ⟨matrix, ready, etrip, healthy, tripped⟩ := enterRun_trip l s _ _ rfl rfl
  refine ⟨result, clock, tracker, gauge, fun k hk => ?_, matrix, ready, etrip, healthy, tripped,
    fun k hk => enterRun_gap l s _ _ rfl rfl k hk⟩
  have loaded := thicknessRunEntry_est (takeLine l (leaveLoopback s)) k hk l line
  rw [estTaken] at loaded
  rw [est]
  exact loaded

/-- With a valid description and no order standing taken, a request for RUN from another level enters it. -/
theorem requestRun_enters {s : State} {l : LineDesc} (off : s.level ≠ .run) (read : lineAt s.exm = l) (valid : l.failure = none)
    (free : s.orders.copy = none) : requestRun s = enterRun l s := by
  have validated : validateAndEnter s = enterRun l s := by
    unfold validateAndEnter
    rw [read, valid]
    dsimp only
    rw [finishTaken_free free, resumeIntake_free free]
  unfold requestRun
  split
  · exact absurd ‹_› off
  all_goals exact validated

/-- Settles O21. -/
theorem runEntryBringsEveryBlockToItsEntryState : Obligations.RunEntryBringsEveryBlockToItsEntryState := by
  intro dt s l off read valid free
  have ⟨two, eight⟩ := LineDesc.n_of_valid valid
  obtain ⟨t, ht⟩ : ∃ t, t = enterRun l (s.tick dt) := ⟨_, rfl⟩
  have requested : requestRun (s.tick dt) = t := ht ▸ requestRun_enters (s := s.tick dt) off read valid free
  obtain ⟨line, level⟩ := enterRun_line l (s.tick dt)
  obtain ⟨tracker, gauge, est, trip, store, result⟩ := enterRun_keeps l (s.tick dt)
  have started := linkRunEntry_started (by omega) (beforeLink_line l (s.tick dt))
  have entered := beforeLink_entered l (s.tick dt)
  have refs (k : Nat) (hk : 1 ≤ k ∧ k ≤ 8) := enterRun_ref (l := l) (s := s.tick dt) (k := k) (by omega) hk
  have mon (k : Nat) (hk : 1 ≤ k ∧ k ≤ 8) := beforeLink_mon (l := l) (s := s.tick dt) hk
  have stations := beforeLink_station l (s.tick dt)
  have images (k : Nat) (hk : 1 ≤ k ∧ k ≤ 8) := enterRun_images (l := l) (s := s.tick dt) hk
  have link : t.link = (linkRunEntry (beforeLink l (s.tick dt))).link ∧
      t.cycleClock = (linkRunEntry (beforeLink l (s.tick dt))).cycleClock := by rw [ht, enterRun_eq]; exact ⟨rfl, rfl⟩
  have ended (loopback : s.level = .loopback) (form : memoryOk s) : MovesEnded standNumbers 5 s t := by
    rw [ht]
    exact enterRun_ended (s := s.tick dt) form loopback
  have slots (ok : storeOk s) := enterRun_store (s := s.tick dt) ok off valid
  rw [← ht] at line level tracker gauge est trip store result
  simp only [← ht] at refs images slots
  clear ht
  generalize beforeLink l (s.tick dt) = a at *
  have down (f : Nat → Bool) (h : ∀ k, f k = false) : PerStand.ofStand f = PerStand.all false := ofStand_false f h
  have unready (k : Nat) : t.trip.ready.get k = false := by
    rw [trip, entered.ready]
    by_cases hk : 1 ≤ k ∧ k ≤ 8
    · exact PerStand.get_all _ _ hk
    · exact PerStand.get_outside _ _ hk
  refine ⟨t.settled, by rw [← requested]; rfl, level, line, ?_, ?_, ?_, fun k hk => ?_, fun k hk => ?_, ?_, ?_, ?_, ?_, ?_,
    ?_, ?_, ?_, ?_, ?_, fun e he => ?_, fun k hk => images k (stand_of hk), ?_, ?_, ended, fun ok fits c hf hc => slots ok fits hf c hc⟩
  · exact result.trans entered.result
  · exact tracker.trans entered.tracker
  · exact gauge.trans entered.gauge
  · obtain ⟨r, r', hr, hr', ff, agc, hLock, trim, same, known⟩ := refs k (stand_of hk)
    obtain ⟨ff0, agc0, hLock0, trim0, known0, mon0⟩ := entered.gap k (stand_of hk)
    rw [show t.settled.gap = t.gap from rfl, hr]
    rw [hr'] at ff0 agc0 hLock0 trim0 known0 mon0
    refine ⟨ff.trans ff0, agc.trans agc0, hLock.trans hLock0, trim.trans trim0, fun h => (known h).trans known0,
      fun h => same.trans (mon0 h), fun n kept => ?_⟩
    have kept' : k ≠ l.n ∨ a.slotAt k = s.slotAt k := kept.imp_right fun slot => by
      unfold State.slotAt at slot ⊢
      rw [← store]
      exact slot
    rw [same, ← hr']
    exact mon k (stand_of hk) n kept'
  · rw [show t.settled.est = t.est from rfl, est]
    exact entered.est k (stand_of hk)
  · rw [← entered.matrix, ← trip]; rfl
  · rw [← entered.ready, ← trip]; rfl
  · exact (congrArg TripUnit.etrip trip).trans entered.etrip
  · rw [show t.settled.trip = a.trip from trip]
    exact entered.healthy
  · rw [show t.settled.trip = a.trip from trip]
    exact entered.tripped
  · exact (congrArg Link.pollList link.1).trans started.pollList
  · exact (congrArg Link.cycle link.1).trans started.cycle
  · exact (congrArg Link.expiryWaiting link.1).trans started.waiting
  · rw [show t.settled.link = _ from link.1, started.expiry, entered.clock]; rfl
  · rw [show t.settled.cycleClock = _ from link.2, started.cycleClock, entered.clock]; rfl
  · have listed : e ∈ pollListOf l := by
      rw [show t.settled.link = _ from link.1, started.pollList] at he
      exact he
    have answer := (station_of_link (t := t.settled) link.1 e).trans (started.stations e listed)
    rw [stations] at answer
    cases e <;> exact answer
  · exact down _ fun k => by simp [dstopOn, unready]
  · exact down _ fun k => by simp [gopenOn, unready]

end Sys2Proof.Machine

/-! Proofs for the processor port, the intake and the journal (R158, R166 to R168, R173, R174). -/

namespace Sys2Proof.Machine

/-! ### A write at the port (R158) -/

section
variable {s t : State}

/-- What the processor reads rests on the areas and on the processor's bytes. -/
theorem exmByte_congr {b : Nat} (read : t.exm.read b = s.exm.read b) (header : headerBytes t = headerBytes s)
    (images : t.images = s.images) (trip : t.tripArea = s.tripArea) (summary : t.summary = s.summary)
    (journal : t.journal = s.journal) : exmByte t b = exmByte s b := by
  unfold exmByte
  rw [read, header, images, trip, summary, journal]

theorem partOwned_area {w : Nat} (free : partOwned s w = false) : ¬((4 ≤ w ∧ w < 64) ∨ (1024 ≤ w ∧ w < 4096)) := by
  unfold partOwned at free
  simp only [Bool.or_eq_false_iff, decide_eq_false_iff_not] at free
  obtain ⟨⟨header, areas⟩, -⟩ := free
  omega

/-- The word of an even offset outside the part's areas is the processor's. -/
theorem exmWord_processor {w : Nat} (even : w % 2 = 0) (place : ¬((4 ≤ w ∧ w < 64) ∨ (1024 ≤ w ∧ w < 4096))) :
    exmWord t w = t.exm.readWord w := by
  unfold exmWord Memory.readWord
  rw [exmByte_processor place, exmByte_processor (by omega)]

theorem portWrite_owned {a : Nat} {v : Word} (owned : partOwned s a = true) : portWrite a v s = setAttention attnProtect s :=
  if_pos owned

theorem portWrite_plain {a : Nat} {v : Word} (free : partOwned s a = false) (index : a ≠ journalReadAt)
    (unwatched : s.orders.watched ≠ some a) : portWrite a v s = { s with exm := s.exm.writeWord a v } := by
  unfold portWrite
  rw [if_neg (by simp [free])]
  dsimp only
  rw [if_neg index]
  exact arrivalEvent_of_not_watched (s := { s with exm := s.exm.writeWord a v }) unwatched

end

/-- Settles O23. -/
theorem portWritesFollowTheWordsOwner : Obligations.PortWritesFollowTheWordsOwner := by
  intro dt a v s w form hw
  refine ⟨(portWrite w v (s.tick dt)).settled, by rw [hw]; rfl, fun owned => ?_, fun free index unwatched => ?_⟩
  · rw [portWrite_owned (s := s.tick dt) owned]
    exact ⟨rfl, fun b => exmByte_congr rfl rfl rfl rfl rfl rfl⟩
  · rw [portWrite_plain (s := s.tick dt) free index unwatched]
    refine ⟨rfl, ?_, fun b low high => ?_⟩
    · rw [exmWord_processor (by omega) (partOwned_area free)]
      exact Memory.readWord_writeWord _ _ _ form
    · refine exmByte_congr ?_ rfl rfl rfl rfl rfl
      exact (Memory.read_writeWord _ _ _ _ form).trans (by rw [if_neg high, if_neg low])

/-! ### The journal (R173, R174) -/

section
variable {s : State} {r : JournalRecord}

theorem journal_appended (quiet : s.journal.lost = 0) (room : s.journal.unread < 128) :
    journal r s = { s with attention := s.attention ||| 2, journal := { s.journal with
      w := s.journal.w + 1, slots := s.journal.slots.set (s.journal.w.toNat % 128) (some r) } } := if_pos ⟨quiet, room⟩

theorem journal_dropped (full : 0 < s.journal.lost ∨ s.journal.unread = 128) :
    journal r s = { s with journal := { s.journal with lost := min (s.journal.lost + 1) 65535 } } :=
  if_neg fun h => by obtain ⟨quiet, room⟩ := h; omega

/-- A byte of the journal area is a byte of the record in its slot (R192). -/
theorem exmByte_slot {n i : Nat} (hn : n < 128) (hi : i < 16) (slot : s.journal.slots[n]? = some (some r)) :
    exmByte s (2048 + 16 * n + i) = r.bytes.getD i 0 := by
  unfold exmByte
  iterate 6 rw [if_neg (by omega)]
  rw [if_pos (by omega), show (2048 + 16 * n + i - 2048) / 16 = n by omega, show (2048 + 16 * n + i - 2048) % 16 = i by omega,
    List.getD_eq_getElem?_getD, slot]
  rfl

end

/-- Settles O27. -/
theorem recordsAreAppendedOrCounted : Obligations.RecordsAreAppendedOrCounted := by
  refine fun r s => ⟨fun quiet room => ⟨journal_appended quiet room, fun ok i hi => ?_⟩, journal_dropped⟩
  obtain ⟨-, length, -⟩ := ok
  refine exmByte_slot (Nat.mod_lt _ (by decide)) hi ?_
  rw [journal_appended quiet room]
  exact List.getElem?_set_self (by omega)

/-! ### The intake's read, case by case (R166, R167) -/

section
variable {u : State} {w p : Nat}

theorem freeToTake_fault {reason : Nat} (watched : u.orders.watched = some w) (read : u.exm.wordAt w = p) (nonzero : p ≠ 0)
    (fault : pointerFault p = some reason) : freeToTake u = chainFault w p reason u := by
  show intake (8191 + 1) u = _
  unfold intake
  rw [watched]
  dsimp only
  rw [read, if_neg nonzero, fault]

theorem freeToTake_inFlight (watched : u.orders.watched = some w) (read : u.exm.wordAt w = p) (nonzero : p ≠ 0)
    (good : pointerFault p = none) (taken : u.exm.wordAt (p + 2) = 2) (flying : u.blockInFlight p = true) :
    freeToTake u = chainFault w p 3 u := by
  show intake (8191 + 1) u = _
  unfold intake
  rw [watched]
  dsimp only
  rw [read, if_neg nonzero, good]
  exact if_pos ⟨taken, flying⟩

theorem freeToTake_unposted (watched : u.orders.watched = some w) (read : u.exm.wordAt w = p) (nonzero : p ≠ 0)
    (good : pointerFault p = none) (quick : ¬(u.exm.wordAt (p + 2) = 2 ∧ u.blockInFlight p = true))
    (unposted : u.exm.wordAt (p + 2) ≠ 1) : freeToTake u = retire p (.plain (.invalid .state)) u := by
  show intake (8191 + 1) u = _
  unfold intake
  rw [watched]
  dsimp only
  rw [read, if_neg nonzero, good]
  dsimp only
  rw [if_neg quick, if_pos unposted]

/-- A POSTED block that fails a common check is retired, and the next read follows. -/
theorem freeToTake_refused {r : Result} (form : memoryOk u) (watched : u.orders.watched = some w) (read : u.exm.wordAt w = p)
    (nonzero : p ≠ 0) (good : pointerFault p = none) (posted : u.exm.readWord (p + 2) = 1)
    (check : commonCheck (markTaken p u) p = some r) : freeToTake u = freeToTake (retire p r (markTaken p u)) := by
  have state : u.exm.wordAt (p + 2) = 1 := congrArg BitVec.toNat posted
  rw [← intake_after_check u p r form good posted check]
  show intake (8191 + 1) u = _
  conv_lhs => unfold intake
  rw [watched]
  dsimp only
  rw [read, if_neg nonzero, good]
  dsimp only
  rw [if_neg (by rw [state]; simp), if_neg (by rw [state]; simp), check]

/-- A POSTED block that passes the common checks is taken. -/
theorem freeToTake_taken (watched : u.orders.watched = some w) (read : u.exm.wordAt w = p) (nonzero : p ≠ 0)
    (good : pointerFault p = none) (posted : u.exm.readWord (p + 2) = 1) (check : commonCheck (markTaken p u) p = none) :
    freeToTake u = copyOrder p (markTaken p u) := by
  have state : u.exm.wordAt (p + 2) = 1 := congrArg BitVec.toNat posted
  show intake (8191 + 1) u = _
  unfold intake
  rw [watched]
  dsimp only
  rw [read, if_neg nonzero, good]
  dsimp only
  rw [if_neg (by rw [state]; simp), if_neg (by rw [state]; simp), check]

end

theorem pointerFault_misplaced {p : Nat} (h : p % 8 ≠ 0 ∨ p < 4096) : pointerFault p = some 1 := if_pos (by omega)

theorem pointerFault_header {p : Nat} (aligned : p % 8 = 0) (low : 4096 ≤ p) (high : p < 65528) : pointerFault p = none := by
  unfold pointerFault
  rw [if_neg (by omega), if_neg (by omega)]

theorem pointerFault_last : pointerFault 65528 = some 2 := by decide

/-- A chain fault as it is journalled, with the value read as the word it was (R167). -/
theorem chainFault_word {w reason : Nat} {v : Word} {u : State} :
    chainFault w v.toNat reason u = note .chainFault 0 u.clock 0 (BitVec.ofNat 16 w) v (BitVec.ofNat 16 reason) u := by
  unfold chainFault
  rw [BitVec.ofNat_toNat, BitVec.setWidth_eq]

/-- Settles O24: one read of the watched word, and the case its value falls in. -/
theorem arrivalsThatTakeNothing : Obligations.ArrivalsThatTakeNothing := by
  intro dt v s u w form watched free h8 high owned hu
  have watchedU : u.orders.watched = some w := by rw [hu]; exact watched
  have word : u.exm.readWord w = v := by rw [hu]; exact Memory.readWord_writeWord _ _ _ form
  have read : u.exm.wordAt w = v.toNat := word_eq _ _ _ word
  have arrives : exec (.watchedWordArrival dt v) s = .next (freeToTake u).settled :=
    arrival_is_read s u w dt v watched free h8 owned hu
  have formU : memoryOk u := by rw [hu]; exact Memory.wf_writeWord _ _ _ form
  have nonzero {p : Nat} (h : 4096 ≤ p) : p ≠ 0 := by omega
  rw [arrives]
  refine ⟨fun a ha => ?_, word, fun a low high => ?_, fun zero => ?_, fun hv misplaced => ?_, fun last => ?_,
    fun aligned low high taken flying => ?_, fun aligned low high unposted quick => ?_⟩
  · rw [← arrives]
    show finish (portWrite (wordOffset a) v (s.tick dt)) = execWatchedWordArrival dt v s
    unfold execWatchedWordArrival
    dsimp only
    rw [show (s.tick dt).orders.watched = some w from watched, show wordOffset a = w from ha]
  · rw [hu]
    exact (Memory.read_writeWord _ _ _ _ form).trans (by rw [if_neg high, if_neg low])
  · rw [freeToTake_waits u w watchedU (word.trans zero)]
  · rw [freeToTake_fault watchedU read (fun h => hv (BitVec.eq_of_toNat_eq h)) (pointerFault_misplaced misplaced),
      chainFault_word]
    rfl
  · rw [freeToTake_fault (p := 65528) watchedU (by rw [read, last]; rfl) (by decide) pointerFault_last]
    rw [last]
    rfl
  · obtain ⟨k, hk, h⟩ := flying
    rw [freeToTake_inFlight watchedU read (nonzero low) (pointerFault_header aligned low high) (word_eq _ _ _ taken)
      ((inflight_iff u _).mpr ⟨k, hk, by rw [hu]; exact h⟩), chainFault_word]
    rfl
  · refine ⟨_, retired_of v.toNat (.plain (.invalid .state)) u formU, ?_⟩
    rw [freeToTake_unposted watchedU read (nonzero low) (pointerFault_header aligned low high) ?_ ?_]
    · rw [hu]
      rfl
    · rintro ⟨taken, flying⟩
      obtain ⟨k, hk, h⟩ := (inflight_iff u _).mp flying
      rw [hu] at h
      exact quick (BitVec.eq_of_toNat_eq taken) k hk h
    · exact fun posted => unposted (BitVec.eq_of_toNat_eq posted)

/-! ### The take (R167, R168) -/

theorem blockSize_none {kind : Nat} (h : kind = 0 ∨ 10 < kind) : blockSize kind = none := by
  unfold blockSize
  split
  case h_11 => rfl
  all_goals omega

theorem orderAt_of_blockSize {s : State} {p size : Nat} (h : blockSize (s.exm.wordAt (p + 4)) = some size) :
    ∃ o, orderAt s p = some o := by
  unfold orderAt
  dsimp only
  unfold blockSize at h
  split at h
  case h_11 => cases h
  all_goals exact ⟨_, rfl⟩

/-- The kind of a block that has just been marked TAKEN is read as before. -/
theorem markTaken_kind {p : Nat} {u : State} (form : memoryOk u) :
    (markTaken p u).exm.wordAt (p + 4) = u.exm.wordAt (p + 4) :=
  congrArg BitVec.toNat (Memory.readWord_writeWord_apart _ _ _ _ form (by omega))

theorem commonCheck_passes {s : State} {p size : Nat} (kind : blockSize (s.exm.wordAt (p + 4)) = some size)
    (fits : p + size ≤ 65536) (level : levelAccepts (s.exm.wordAt (p + 4)) s.level = true) : commonCheck s p = none := by
  unfold commonCheck
  dsimp only
  rw [kind]
  dsimp only
  rw [if_neg (by omega), level]
  rfl

/-- Settles O25: one read of the watched word, the common checks, and the take or the retirement. -/
theorem postedBlocksAreTaken : Obligations.PostedBlocksAreTaken := by
  intro dt v s u w p kind form watched free h8 high owned hp aligned low below hu posted hkind
  have watchedU : u.orders.watched = some w := by rw [hu]; exact watched
  have read : u.exm.wordAt w = p := by
    rw [hu, hp]
    exact word_eq _ _ _ (Memory.readWord_writeWord _ _ _ form)
  have arrives : exec (.watchedWordArrival dt v) s = .next (freeToTake u).settled :=
    arrival_is_read s u w dt v watched free h8 owned hu
  have formU : memoryOk u := by rw [hu]; exact Memory.wf_writeWord _ _ _ form
  have levelU : (markTaken p u).level = s.level := by rw [hu]; rfl
  have good := pointerFault_header aligned low below
  have kindU : (markTaken p u).exm.wordAt (p + 4) = kind := (markTaken_kind formU).trans hkind.symm
  have marked (a : Nat) (h2 : a ≠ p + 2) (h3 : a ≠ p + 3) : (markTaken p u).exm.read a = u.exm.read a :=
    (Memory.read_writeWord _ _ _ _ formU).trans (by rw [if_neg h3, if_neg h2])
  rw [arrives]
  refine ⟨fun size hsize fits accepts => ?_, fun cls detail h => ?_⟩
  · obtain ⟨o, order⟩ := orderAt_of_blockSize (s := markTaken p u) (p := p) (by rw [kindU]; exact hsize)
    have passes : commonCheck (markTaken p u) p = none :=
      commonCheck_passes (by rw [kindU]; exact hsize) fits (by rw [kindU, levelU]; exact accepts)
    refine ⟨(markTaken p u).exm, o, ?_, Memory.readWord_writeWord _ _ _ formU, marked, order⟩
    rw [freeToTake_taken watchedU read (by omega) good posted passes]
    unfold copyOrder
    rw [order, hu]
    rfl
  · have failed {r : Result} (check : commonCheck (markTaken p u) p = some r) (cls' : r.cls.code = cls)
        (detail' : r.cls.detail = detail) (value : r.value = 0) : ∃ m, Retired p cls detail 0 u { u with exm := m } ∧
        Host.Outcome.next (ρ := Refusal) (φ := Fault) (freeToTake u).settled = .next (freeToTake { u with
          exm := m, attention := s.attention ||| 1, orders := { s.orders with watched := some p } }).settled := by
      obtain ⟨state, hcls, hdetail, hvalue, others⟩ := retired_of p r (markTaken p u) (Memory.wf_writeWord _ _ _ formU)
      refine ⟨writeResult (markTaken p u).exm p r, ⟨state, cls' ▸ hcls, detail' ▸ hdetail, value ▸ hvalue, fun a h2 h6 => ?_⟩, ?_⟩
      · exact (others a h2 h6).trans (marked a (by omega) (by omega))
      · rw [freeToTake_refused formU watchedU read (by omega) good posted check, hu]
        rfl
    rcases h with ⟨none, rfl, rfl⟩ | ⟨size, hsize, ⟨past, rfl, rfl⟩ | ⟨fits, refuses, rfl, rfl⟩⟩
    · refine failed (r := .plain (.invalid .kind)) ?_ rfl rfl rfl
      unfold commonCheck
      dsimp only
      rw [kindU, blockSize_none none]
    · refine failed (r := .plain (.invalid .pointer)) ?_ rfl rfl rfl
      unfold commonCheck
      dsimp only
      rw [kindU, hsize]
      exact if_pos past
    · refine failed (r := .plain (.refused .level)) ?_ rfl rfl rfl
      unfold commonCheck
      dsimp only
      rw [kindU, hsize, levelU, refuses]
      exact if_neg (by omega)

end Sys2Proof.Machine

/-! Proofs for the ten orders, first part: the checks of an order, the announcement, the table, the trim and the moves (R31, R55,
R89, R104, R111, R114, R118, R137). -/

namespace Sys2Proof.Machine

/-! ### The checks of an order, in order -/

/-- A result as the class, the detail and the value that a retirement writes. -/
def Result.fields (r : Result) : Nat × Nat × Word := (r.cls.code, r.cls.detail, r.value)

/-- An order's work: the first check that fails ends it, and with none the work is `done`. -/
def afterChecks (checks : List (Bool × Result)) (s done : State) : State :=
  match firstFailure checks with
  | some r => retireTaken r s
  | none => done

theorem afterChecks_nil (s done : State) : afterChecks [] s done = done := rfl

theorem afterChecks_cons (ok : Bool) (r : Result) (rest : List (Bool × Result)) (s done : State) :
    afterChecks ((ok, r) :: rest) s done = if !ok then retireTaken r s else afterChecks rest s done := by
  cases ok <;> rfl

theorem firstFailure_map {α β : Type} (f : α → β) (l : List (Bool × α)) :
    firstFailure (l.map fun c => (c.1, f c.2)) = (firstFailure l).map f := by
  induction l with
  | nil => rfl
  | cons c l ih =>
    obtain ⟨ok, x⟩ := c
    cases ok
    · rfl
    · exact ih

/-- The checks of an order's work are those of a list of classes, details and values. -/
def SameChecks (checks : List (Bool × Nat × Nat × Word)) (own : List (Bool × Result)) : Prop :=
  checks = own.map fun c => (c.1, c.2.fields)

section
variable {s done : State} {c : OrderCopy} {checks : List (Bool × Nat × Nat × Word)} {own : List (Bool × Result)}

theorem afterChecks_ends (form : memoryOk s) (copy : s.orders.copy = some c) (same : SameChecks checks own) {cls detail : Nat}
    {value : Word} (fails : firstFailure checks = some (cls, detail, value)) :
    OrderEnds c.ptr cls detail value s (freeToTake (afterChecks own s done)).settled := by
  rw [same, firstFailure_map, Option.map_eq_some_iff] at fails
  obtain ⟨r, failed, fields⟩ := fails
  unfold afterChecks
  rw [failed]
  cases fields
  exact ends_of s c r form copy

theorem afterChecks_passes (same : SameChecks checks own) (passes : firstFailure checks = none) : afterChecks own s done = done := by
  rw [same, firstFailure_map, Option.map_eq_none_iff] at passes
  unfold afterChecks
  rw [passes]

/-- The retirement of the order that stands taken ends it with the fields of its result (R169, R171). -/
theorem retires (form : memoryOk s) (copy : s.orders.copy = some c) {r : Result} {cls detail : Nat} {value : Word}
    (fields : r.fields = (cls, detail, value)) : OrderEnds c.ptr cls detail value s (freeToTake (retireTaken r s)).settled := by
  cases fields
  exact ends_of s c r form copy

/-- The same after a record that falls due before it. -/
theorem retires_noted (form : memoryOk s) (copy : s.orders.copy = some c) {r : Result} {cls detail stand : Nat}
    {kind : RecordKind} {time : Clock} {value coil v1 v2 v3 : Word} (fields : r.fields = (cls, detail, value)) :
    OrderEnds c.ptr cls detail value (note kind stand time coil v1 v2 v3 s)
      (freeToTake (retireTaken r (note kind stand time coil v1 v2 v3 s))).settled :=
  retires (s := note kind stand time coil v1 v2 v3 s) (by simpa [memoryOk] using form) (by simpa using copy) fields

end

/-! ### ANNOUNCE_HEAD (R31, R32) -/

section
variable {s : State} {dt τ : Clock} {p k : Nat}

theorem exec_announceHead {coil : Word} {h0 : Nat}
    (copy : s.orders.copy = some { ptr := p, order := .announceHead coil h0, time := τ }) :
    exec (.announceHead dt) s = .next (freeToTake (announceHeadWork coil h0 τ (s.tick dt))).settled := by
  show execAnnounceHead dt s = _
  unfold execAnnounceHead
  simp only [show (s.tick dt).orders.copy = _ from copy]
  rfl

/-- Stand 1 as ANNOUNCE_HEAD leaves it. -/
def announced (coil : Word) (h0 : Nat) (s : State) : State :=
  leaveVacant 1 (s.withThread 1 { s.thread 1 with state := .expecting, coil := coil, h0 := h0 })

def announceChecks (coil : Word) (s : State) : List (Bool × Result) :=
  [(decide (coil ≠ 0), .invalidField 12), (!s.trip.latch, .plain (.refused .state)), (s.vacant 1, .plain (.refused .busy)),
   (!s.gap.toList.any (fun r => r.move.calibrating), .plain (.refused .move))]

theorem announceHeadWork_eq (coil : Word) (h0 : Nat) (time : Clock) (s : State) :
    announceHeadWork coil h0 time s = afterChecks (announceChecks coil s) s
      (retireTaken { cls := .completed, value := slotCoilAt1 s } (checkCoil coil h0 time (announced coil h0 s))) := by
  unfold announceHeadWork announceChecks
  simp only [afterChecks_cons, afterChecks_nil]
  simp [announced]

theorem notCalibrating_iff (s : State) : (!s.gap.toList.any fun r => r.move.calibrating) =
    standNumbers.all fun k => !(s.gap.get k).move.calibrating := by
  simp [PerStand.toList, standNumbers, PerStand.get]

theorem announceChecks_same (coil : Word) (s : State) : SameChecks
    [(decide (coil ≠ 0), 4, 2, (12 : Word)), (!s.trip.latch, 3, 2, 0), (decide ((s.thread 1).state = .vacant), 3, 1, 0),
      (standNumbers.all fun k => !(s.gap.get k).move.calibrating, 3, 6, 0)] (announceChecks coil s) := by
  unfold SameChecks announceChecks
  rw [← notCalibrating_iff]
  rfl

/-- A move that is no calibration is not abandoned. -/
theorem Move.abandonClose_quick {m : Move} {d : AbortDetail} (quick : m.calibrating = false) : m.abandonClose d = m := by
  cases m with
  | calClose => cases quick
  | _ => rfl

/-- With no calibration in flight the announcement ends HOLD at stand 1 and changes no other move. -/
theorem announced_eq {coil : Word} {h0 : Nat} (quick : ∀ k ∈ standNumbers, (s.gap.get k).move.calibrating = false) :
    announced coil h0 s = { s with
      tracker := { s.tracker with
        threading := s.tracker.threading.set 1 { s.thread 1 with state := .expecting, coil := coil, h0 := h0 } },
      gap := s.gap.set 1 { s.gap.get 1 with
        move := (match (s.gap.get 1).move with | .hold _ => Move.none | m => m) } } := by
  obtain ⟨u, hu⟩ : ∃ u, u = endHold 1 (s.withThread 1 { s.thread 1 with state := .expecting, coil := coil, h0 := h0 }) :=
    ⟨_, rfl⟩
  have still : u.gap.map (fun r => { r with move := r.move.abandonClose .equipment }) = u.gap := by
    refine PerStand.ext_get _ _ fun k hk => ?_
    have calm : (u.gap.get k).move.calibrating = false := by
      rw [hu, endHold_eq]
      show ((s.gap.set 1 _).get k).move.calibrating = false
      by_cases h1 : k = 1
      · subst h1
        rw [PerStand.get_set_same _ _ _ hk]
        have before := quick 1 (of_stand hk)
        show (match (s.gap.get 1).move with | .hold _ => Move.none | m => m).calibrating = false
        split
        · rfl
        · exact before
      · rw [PerStand.get_set_other _ _ _ _ h1]
        exact quick k (of_stand hk)
    rw [PerStand.get_map _ _ _ hk, Move.abandonClose_quick calm]
  unfold announced leaveVacant
  rw [if_pos rfl, ← hu]
  dsimp only
  rw [still, hu, endHold_eq]
  rfl

end

/-- Settles O28: the checks of R31 in order, then stand 1 EXPECTING, the check of R32 and the retirement. -/
theorem announceHeadMakesStandOneExpecting : Obligations.AnnounceHeadMakesStandOneExpecting := by
  intro dt τ p h0 coil slotCoil s u form copy hcoil hu
  refine ⟨_, exec_announceHead copy, fun cls detail value fails => ?_, fun nonzero clear vacant quick => ?_⟩
  · rw [announceHeadWork_eq]
    exact afterChecks_ends (s := s.tick dt) form copy (announceChecks_same coil (s.tick dt)) fails
  · have same := announceChecks_same coil (s.tick dt)
    have effect : announced coil h0 (s.tick dt) = u := (announced_eq (s := s.tick dt) quick).trans hu.symm
    have still : (standNumbers.all fun k => !(s.gap.get k).move.calibrating) = true :=
      List.all_eq_true.mpr fun k hk => by rw [quick k hk]; rfl
    have none : firstFailure [(decide (coil ≠ 0), 4, 2, (12 : Word)), (!(s.tick dt).trip.latch, 3, 2, 0),
        (decide (((s.tick dt).thread 1).state = .vacant), 3, 1, 0),
        (standNumbers.all fun k => !((s.tick dt).gap.get k).move.calibrating, 3, 6, 0)] = none := by
      show firstFailure [_, (!s.trip.latch, _), (decide ((s.thread 1).state = .vacant), _),
        (standNumbers.all fun k => !(s.gap.get k).move.calibrating, _)] = _
      rw [still, clear, vacant, decide_eq_true nonzero]
      rfl
    have copyU : u.orders.copy = some { ptr := p, order := .announceHead coil h0, time := τ } := by rw [hu]; exact copy
    have formU : memoryOk u := by rw [hu]; exact form
    have slotU : u.slotAt 1 = s.slotAt 1 ∧ slotCoilAt1 u = slotCoil := by rw [hu, hcoil]; exact ⟨rfl, rfl⟩
    have value : slotCoilAt1 (s.tick dt) = slotCoil := hcoil.symm
    rw [announceHeadWork_eq, afterChecks_passes same none, effect, value]
    unfold checkCoil
    rw [slotU.1, slotU.2]
    constructor
    · intro match_
      rw [if_pos match_]
      exact retires formU copyU rfl
    · intro mismatch
      rw [if_neg mismatch]
      exact retires_noted formU copyU rfl

/-! ### SET_MODULUS and SET_TRIM (R55, R56, R89) -/

theorem decide_named (s : State) (k : Nat) : decide (standNamed s k) = s.namesStand k := by
  cases named : s.namesStand k
  · exact decide_eq_false fun h => by rw [(named_iff s k).mpr h] at named; cases named
  · exact decide_eq_true ((named_iff s k).mp named)

section
variable {s : State} {dt τ : Clock} {p k : Nat}

theorem exec_setModulus {tab : ModulusTable} (copy : s.orders.copy = some { ptr := p, order := .setModulus k tab, time := τ }) :
    exec (.setModulus dt) s = .next (freeToTake (setModulusWork k tab τ (s.tick dt))).settled := by
  show execSetModulus dt s = _
  unfold execSetModulus
  simp only [show (s.tick dt).orders.copy = _ from copy]
  rfl

theorem exec_setTrim {x : Int} (copy : s.orders.copy = some { ptr := p, order := .setTrim k x, time := τ }) :
    exec (.setTrim dt) s = .next (freeToTake (setTrimWork k x (s.tick dt))).settled := by
  show execSetTrim dt s = _
  unfold execSetTrim
  simp only [show (s.tick dt).orders.copy = _ from copy]
  rfl

theorem setModulusWork_unnamed {tab : ModulusTable} (unnamed : ¬standNamed s k) :
    setModulusWork k tab τ s = retireTaken (.invalidField 12) s := by
  unfold setModulusWork
  rw [if_pos (by rw [Bool.eq_false_iff.mpr (mt (named_iff s k).mp unnamed)]; rfl)]

theorem setModulusWork_invalid {tab : ModulusTable} {i : Nat} (named : standNamed s k) (fails : tab.failure = some i) :
    setModulusWork k tab τ s = retireTaken (.invalidField (14 + 2 * i)) s := by
  unfold setModulusWork
  rw [if_neg (by rw [(named_iff s k).mpr named]; nofun), fails]

theorem setModulusWork_moving {tab : ModulusTable} (named : standNamed s k) (valid : tab.failure = none)
    (moving : (s.gap.get k).move.calibrating = true) :
    setModulusWork k tab τ s = retireTaken (.plain (.refused .move)) s := by
  unfold setModulusWork
  rw [if_neg (by rw [(named_iff s k).mpr named]; nofun), valid]
  exact if_pos moving

theorem setModulusWork_applied {tab : ModulusTable} (named : standNamed s k) (valid : tab.failure = none)
    (quick : (s.gap.get k).move.calibrating = false) (now : (s.est.get k).loaded = true ∧ (s.thread k).state = .vacant) :
    setModulusWork k tab τ s = retireTaken { cls := .completed, value := 1 } (applyTable k tab 1 τ s) := by
  unfold setModulusWork
  rw [if_neg (by rw [(named_iff s k).mpr named]; nofun), valid]
  dsimp only
  rw [if_neg (by rw [quick]; nofun)]
  exact if_pos now

theorem setModulusWork_held {tab : ModulusTable} (named : standNamed s k) (valid : tab.failure = none)
    (quick : (s.gap.get k).move.calibrating = false)
    (later : ¬((s.est.get k).loaded = true ∧ (s.thread k).state = .vacant)) :
    setModulusWork k tab τ s =
      retireTaken { cls := .completed, value := if (s.est.get k).pendingTable.isNone then 2 else 3 }
        (s.withEst k { s.est.get k with pendingTable := some tab }) := by
  unfold setModulusWork
  rw [if_neg (by rw [(named_iff s k).mpr named]; nofun), valid]
  dsimp only
  rw [if_neg (by rw [quick]; nofun)]
  exact if_neg later

theorem setTrimWork_unnamed {x : Int} (unnamed : ¬standNamed s k) : setTrimWork k x s = retireTaken (.invalidField 12) s := by
  unfold setTrimWork
  rw [if_pos (by rw [Bool.eq_false_iff.mpr (mt (named_iff s k).mp unnamed)]; rfl)]

theorem setTrimWork_named {x : Int} (named : standNamed s k) :
    setTrimWork k x s = retireTaken
      { cls := if limit x s.lineCopy.trimLim = x then .completed else .completedClamped,
        value := BitVec.ofInt 16 (limit x s.lineCopy.trimLim) }
      (s.withRef k { s.gap.get k with trim := limit x s.lineCopy.trimLim }) := by
  unfold setTrimWork
  rw [if_neg (by rw [(named_iff s k).mpr named]; nofun)]

end

/-- Settles O29: the checks of R55 in order, then the table applied or held pending (R56). -/
theorem setModulusAppliesOrHoldsTheTable : Obligations.SetModulusAppliesOrHoldsTheTable := by
  intro dt τ p k tab s u v form copy hu hv
  refine ⟨_, exec_setModulus copy, fun unnamed => ?_, fun named => ?_⟩
  · rw [setModulusWork_unnamed (s := s.tick dt) unnamed]
    exact retires (s := s.tick dt) form copy rfl
  refine ⟨fun i fails => ?_, fun valid moving => ?_, fun valid quick => ⟨fun now => ?_, fun later fresh => ?_, fun later held => ?_⟩⟩
  · rw [setModulusWork_invalid (s := s.tick dt) named fails]
    exact retires (s := s.tick dt) form copy rfl
  · rw [setModulusWork_moving (s := s.tick dt) named valid moving]
    exact retires (s := s.tick dt) form copy rfl
  · rw [setModulusWork_applied (s := s.tick dt) named valid quick now, hu]
    exact retires_noted (s := { s with clock := s.clock + dt, est := _ }) form copy rfl
  · rw [setModulusWork_held (s := s.tick dt) named valid quick later, hv]
    refine retires (s := { s with clock := s.clock + dt, est := _ }) form copy ?_
    show (_, _, if (s.est.get k).pendingTable.isNone then (2 : Word) else 3) = _
    rw [fresh]
    rfl
  · rw [setModulusWork_held (s := s.tick dt) named valid quick later, hv]
    refine retires (s := { s with clock := s.clock + dt, est := _ }) form copy ?_
    have replaced : (s.est.get k).pendingTable.isNone = false := Option.isNone_eq_false_iff.mpr (Option.isSome_iff_ne_none.mpr held)
    show (_, _, if (s.est.get k).pendingTable.isNone then (2 : Word) else 3) = _
    rw [replaced]
    rfl

/-- Settles O30, by the two branches of R89. -/
theorem setTrimLimitsTheTrim : Obligations.SetTrimLimitsTheTrim := by
  intro dt τ p k x y s form copy hy
  refine ⟨_, exec_setTrim copy, fun unnamed => ?_, fun named => ?_⟩
  · rw [setTrimWork_unnamed (s := s.tick dt) unnamed]
    exact retires (s := s.tick dt) form copy rfl
  · have limited : limit x (s.tick dt).lineCopy.trimLim = y := by
      rw [hy]
      show limit x (s.line.getD default).trimLim = _
      unfold limit
      rw [clampInt_eq_max_min (by omega)]
      cases s.line <;> rfl
    rw [setTrimWork_named (s := s.tick dt) named, limited]
    refine retires (s := { s with clock := s.clock + dt, gap := s.gap.set k { s.gap.get k with trim := y } }) form copy ?_
    unfold Result.fields
    dsimp only
    split <;> rfl

/-! ### UNLOAD_SCHEDULE (R104) -/

section
variable {s : State} {dt τ : Clock} {p : Nat}

theorem exec_unloadSchedule {field : Nat}
    (copy : s.orders.copy = some { ptr := p, order := .unloadSchedule field, time := τ }) :
    exec (.unloadSchedule dt) s = .next (freeToTake (unloadScheduleWork field τ (s.tick dt))).settled := by
  show execUnloadSchedule dt s = _
  unfold execUnloadSchedule
  simp only [show (s.tick dt).orders.copy = _ from copy]
  rfl

theorem slotOfField_none {field : Nat} (outside : field = 0 ∨ 2 < field) : slotOfField field = none := by
  unfold slotOfField
  split
  · omega
  · omega
  · rfl

theorem slotOfField_code (x : Slot) : slotOfField x.code = some x := by cases x <;> rfl

theorem unloadScheduleWork_unnamed {field : Nat} (outside : field = 0 ∨ 2 < field) :
    unloadScheduleWork field τ s = retireTaken (.invalidField 12) s := by
  unfold unloadScheduleWork
  rw [slotOfField_none outside]

theorem unloadScheduleWork_refused {x : Slot} (other : (s.store.slot x).state ≠ .waiting) :
    unloadScheduleWork x.code τ s = retireTaken (.plain (.refused .state)) s := by
  unfold unloadScheduleWork
  rw [slotOfField_code]
  exact if_neg other

theorem unloadScheduleWork_freed {x : Slot} (waiting : (s.store.slot x).state = .waiting) :
    unloadScheduleWork x.code τ s = retireFree (freeSlot x .unload τ s) := by
  unfold unloadScheduleWork
  rw [slotOfField_code]
  exact if_pos waiting

/-- A record that falls due reads and changes the journal and ATTENTION alone. -/
theorem note_tick {kind : RecordKind} {stand : Nat} {time : Clock} {coil v1 v2 v3 : Word} :
    note kind stand time coil v1 v2 v3 (s.tick dt) = (note kind stand time coil v1 v2 v3 s).tick dt := by
  unfold note journal
  show (if s.journal.lost = 0 ∧ s.journal.unread < 128 then _ else _) = _
  split <;> rfl

end

/-- Settles O32, by the slot's state. -/
theorem unloadScheduleFreesAWaitingSlot : Obligations.UnloadScheduleFreesAWaitingSlot := by
  intro dt τ p field s form copy
  refine ⟨_, exec_unloadSchedule copy, fun outside => ?_, fun x hx => ⟨fun other => ?_, fun waiting => ?_⟩⟩
  · rw [unloadScheduleWork_unnamed (s := s.tick dt) outside]
    exact retires (s := s.tick dt) form copy rfl
  · rw [hx, unloadScheduleWork_refused (s := s.tick dt) other]
    exact retires (s := s.tick dt) form copy rfl
  · obtain ⟨n, hn⟩ : ∃ n, n = note .slotFreed 0 τ (s.store.slot x).coil (BitVec.ofNat 16 x.code) 4 0 s := ⟨_, rfl⟩
    obtain ⟨u, hu⟩ : ∃ u, u = { n with
        clock := s.clock + dt, store := s.store.withSlot x {}, freeIndex := s.freeIndex + 1 } := ⟨_, rfl⟩
    have keeps : n.clock = s.clock ∧ n.store = s.store ∧ n.freeIndex = s.freeIndex ∧ n.exm = s.exm ∧ n.orders = s.orders := by
      rw [hn]; simp
    obtain ⟨clock, store, free, exm, orders⟩ := keeps
    have freed : useFree (freeSlot x .unload τ (s.tick dt)) = u := by
      unfold freeSlot
      rw [note_tick, show (s.tick dt).slotCoil x = (s.store.slot x).coil from rfl, show FreeCause.unload.code = 4 from rfl,
        ← hn, hu, ← clock, ← store, ← free]
      rfl
    rw [hx, unloadScheduleWork_freed (s := s.tick dt) waiting]
    unfold retireFree
    rw [freed]
    refine ⟨freshWord (freeSlot x .unload τ (s.tick dt)), n, hn, ?_⟩
    rw [← hu]
    have formU : memoryOk u := by rw [hu]; exact (congrArg Memory.wf exm).trans form
    have copyU : u.orders.copy = some { ptr := p, order := .unloadSchedule field, time := τ } := by
      rw [hu]; exact (congrArg OrderUnit.copy orders).trans copy
    exact retires formU copyU rfl

/-! ### PRESET_GAP and CALIBRATE_ZERO (R111, R114) -/

section
variable {s : State} {dt τ : Clock} {p k : Nat}

theorem exec_presetGap {target : Int} {tol : Nat}
    (copy : s.orders.copy = some { ptr := p, order := .presetGap k target tol, time := τ }) :
    exec (.presetGap dt) s = .next (freeToTake (presetGapWork p k target tol τ (s.tick dt))).settled := by
  show execPresetGap dt s = _
  unfold execPresetGap
  simp only [show (s.tick dt).orders.copy = _ from copy]
  rfl

theorem exec_calibrateZero (copy : s.orders.copy = some { ptr := p, order := .calibrateZero k, time := τ }) :
    exec (.calibrateZero dt) s = .next (freeToTake (calibrateZeroWork p k τ (s.tick dt))).settled := by
  show execCalibrateZero dt s = _
  unfold execCalibrateZero
  simp only [show (s.tick dt).orders.copy = _ from copy]
  rfl

/-- The station of stand `k` is PRESENT and its base is known. -/
def State.standsReady (s : State) (k : Nat) : Bool :=
  (s.station (.stand k)).state == .present && (s.gap.get k).baseKnown

def presetChecks (k : Nat) (target : Int) (tol : Nat) (s : State) : List (Bool × Result) :=
  [(s.line.isSome, .plain (.refused .state)), (s.namesStand k, .invalidField 12), (decide (tol ≤ 5000), .invalidField 18),
    (!(s.gap.get k).move.inFlight, .plain (.refused .busy)),
    (s.vacant k && (s.trip.actions.get k).isEmpty, .plain (.refused .state)),
    (s.standsReady k, .plain (.refused .station)), (!(s.station (.stand k)).lastLocal, .plain (.refused .localMode)),
    (inRangeInt target (s.lineCopy.pLo - (s.est.get k).z) (s.lineCopy.pHi - (s.est.get k).z), .invalidField 14)]

def calibrateChecks (k : Nat) (s : State) : List (Bool × Result) :=
  [(s.line.isSome && s.namesStand k, .invalidField 12), (!(s.gap.get k).move.inFlight, .plain (.refused .busy)),
    ((standsTo k).all s.clearOfStrip && (s.trip.actions.get k).isEmpty, .plain (.refused .state)),
    (s.standsReady k, .plain (.refused .station)), (!(s.station (.stand k)).lastLocal, .plain (.refused .localMode))]

theorem presetGapWork_eq {target : Int} {tol : Nat} :
    presetGapWork p k target tol τ s =
      afterChecks (presetChecks k target tol s) s (acceptLong k p (.preset target tol τ 0) s) := by
  unfold presetGapWork presetChecks State.standsReady
  simp only [afterChecks_cons, afterChecks_nil]
  simp

theorem calibrateZeroWork_eq :
    calibrateZeroWork p k τ s = afterChecks (calibrateChecks k s) s
      (acceptLong k p (.calClose τ (s.gap.get k).base 0 (s.est.get k).z) s) := by
  unfold calibrateZeroWork calibrateChecks State.standsReady
  simp only [afterChecks_cons, afterChecks_nil]
  simp

theorem decide_actionsEmpty (a : ActionSet) : decide (a = {}) = a.isEmpty := by
  obtain ⟨stop, opened⟩ := a
  cases stop <;> cases opened <;> rfl

theorem decide_standsReady (s : State) (k : Nat) :
    decide ((s.link.stations.get k).state = .present ∧ (s.gap.get k).baseKnown = true) = s.standsReady k := by
  unfold State.standsReady
  rw [Bool.decide_and, Bool.decide_eq_true]
  rfl

theorem presetChecks_same {target : Int} {tol : Nat} : SameChecks
    [(s.line.isSome, 3, 2, 0), (decide (standNamed s k), 4, 2, 12), (decide (tol ≤ 5000), 4, 2, 18),
      (!(s.gap.get k).move.inFlight, 3, 1, 0),
      (decide ((s.thread k).state = .vacant ∧ s.trip.actions.get k = {}), 3, 2, 0),
      (decide ((s.link.stations.get k).state = .present ∧ (s.gap.get k).baseKnown = true), 3, 5, 0),
      (!(s.link.stations.get k).lastLocal, 3, 4, 0),
      (decide ((s.lineCopy.pLo : Int) - (s.est.get k).z ≤ target ∧ target ≤ (s.lineCopy.pHi : Int) - (s.est.get k).z),
        4, 2, 14)] (presetChecks k target tol s) := by
  rw [decide_named, Bool.decide_and, decide_actionsEmpty, decide_standsReady]
  rfl

theorem decide_clearTo (s : State) (k : Nat) : decide (∀ j ∈ standNumbers, j ≤ k →
    (s.thread j).state = .vacant ∧ (s.thread j).headNotice = none) = (standsTo k).all s.clearOfStrip := by
  have clear (j : Nat) : s.clearOfStrip j = true ↔ (s.thread j).state = .vacant ∧ (s.thread j).headNotice = none := by
    simp [State.clearOfStrip, State.vacant]
  rw [Bool.eq_iff_iff, decide_eq_true_iff, List.all_eq_true]
  constructor
  · intro h j hj
    obtain ⟨low, high, upTo⟩ := (mem_standsTo k j).mp hj
    exact (clear j).mpr (h j (of_stand ⟨low, high⟩) upTo)
  · intro h j hj upTo
    obtain ⟨low, high⟩ := stand_of hj
    exact (clear j).mp (h j ((mem_standsTo k j).mpr ⟨low, high, upTo⟩))

theorem calibrateChecks_same (configured : s.line.isSome) : SameChecks
    [(decide (standNamed s k), 4, 2, 12), (!(s.gap.get k).move.inFlight, 3, 1, 0),
      (decide ((∀ j ∈ standNumbers, j ≤ k → (s.thread j).state = .vacant ∧ (s.thread j).headNotice = none) ∧
        s.trip.actions.get k = {}), 3, 2, 0),
      (decide ((s.link.stations.get k).state = .present ∧ (s.gap.get k).baseKnown = true), 3, 5, 0),
      (!(s.link.stations.get k).lastLocal, 3, 4, 0)] (calibrateChecks k s) := by
  unfold calibrateChecks
  rw [decide_named, Bool.decide_and, decide_clearTo, decide_actionsEmpty, decide_standsReady, configured]
  rfl

end

/-- Settles O33: the checks of R111 in order, then the order entered and the preset begun. -/
theorem presetGapStartsAPreset : Obligations.PresetGapStartsAPreset := by
  intro dt τ p k tol target s checks form copy hchecks
  have same : SameChecks checks (presetChecks k target tol (s.tick dt)) := hchecks ▸ presetChecks_same (s := s.tick dt)
  refine ⟨_, exec_presetGap copy, fun cls detail value fails => ?_, fun passes => ?_⟩
  · rw [presetGapWork_eq]
    exact afterChecks_ends (s := s.tick dt) form copy same fails
  · rw [presetGapWork_eq, afterChecks_passes same passes]
    rfl

/-- Settles O34: the checks of R114 in order, then the order entered and the stand closing. -/
theorem calibrateZeroStartsClosing : Obligations.CalibrateZeroStartsClosing := by
  intro dt τ p k s checks form configured copy hchecks
  have same : SameChecks checks (calibrateChecks k (s.tick dt)) :=
    hchecks ▸ calibrateChecks_same (s := s.tick dt) configured
  refine ⟨_, exec_calibrateZero copy, fun cls detail value fails => ?_, fun passes => ?_⟩
  · rw [calibrateZeroWork_eq]
    exact afterChecks_ends (s := s.tick dt) form copy same fails
  · rw [calibrateZeroWork_eq, afterChecks_passes same passes]
    rfl

/-! ### ABORT_MOVE (R118) -/

section
variable {s : State} {dt τ : Clock} {p k : Nat}

theorem exec_abortMove (copy : s.orders.copy = some { ptr := p, order := .abortMove k, time := τ }) :
    exec (.abortMove dt) s = .next (freeToTake (abortMoveWork k (s.tick dt))).settled := by
  show execAbortMove dt s = _
  unfold execAbortMove
  simp only [show (s.tick dt).orders.copy = _ from copy]
  rfl

def abortChecks (k : Nat) (s : State) : List (Bool × Result) :=
  [(s.line.isSome, .plain (.refused .state)), (s.namesStand k, .invalidField 12),
    ((s.gap.get k).move.inFlight, .plain (.refused .state))]

theorem abortMoveWork_eq : abortMoveWork k s = afterChecks (abortChecks k s) s (retireFree (abortMove k s)) := by
  unfold abortMoveWork abortChecks
  simp only [afterChecks_cons, afterChecks_nil]
  simp

theorem abortChecks_same : SameChecks [(s.line.isSome, 3, 2, (0 : Word)), (decide (standNamed s k), 4, 2, 12),
    ((s.gap.get k).move.inFlight, 3, 2, 0)] (abortChecks k s) := by
  rw [decide_named]
  rfl

theorem abortMoveWork_moving (configured : s.line.isSome) (named : standNamed s k) (moving : (s.gap.get k).move.inFlight = true) :
    abortMoveWork k s = retireFree (abortMove k s) := by
  have none : firstFailure [(s.line.isSome, 3, 2, (0 : Word)), (decide (standNamed s k), 4, 2, 12),
      ((s.gap.get k).move.inFlight, 3, 2, 0)] = none := by
    rw [configured, decide_eq_true named, moving]
    rfl
  rw [abortMoveWork_eq, afterChecks_passes abortChecks_same none]

theorem abortMove_preset {target : Int} {tol run q : Nat} {st : Clock} (move : (s.gap.get k).move = .preset target tol st run)
    (entered : s.orders.inFlight.get k = some q) :
    abortMove k s = { s with
      exm := writeResult s.exm q (presetAborted s k .order), attention := s.attention ||| 1,
      orders := { s.orders with inFlight := s.orders.inFlight.set k none },
      gap := s.gap.set k { s.gap.get k with
        move := if (s.thread k).state = .vacant then .hold (s.gap.get k).base else .none } } := by
  unfold abortMove endMove retireLong holdAtBase State.vacant
  rw [move, entered]
  simp only [beq_iff_eq]
  rfl

theorem abortMove_calClose {st : Clock} {sb : Int} {run z0 : Nat} (move : (s.gap.get k).move = .calClose st sb run z0) :
    abortMove k s = s.withMove k (.calOpen st sb (.aborted .order) z0) := by
  unfold abortMove
  rw [move]

theorem abortMove_calOpen {st : Clock} {sb : Int} {z0 : Nat} {pending : Pending}
    (move : (s.gap.get k).move = .calOpen st sb pending z0) :
    abortMove k s = s.withMove k (.calOpen st sb (.aborted (pending.detail .order)) z0) := by
  unfold abortMove
  rw [move]

/-- The order retires with a free word, whatever its effect was (log 9). -/
theorem retires_free {c : OrderCopy} (form : memoryOk s) (copy : s.orders.copy = some c) :
    OrderEnds c.ptr 1 0 (freshWord s) (useFree s) (freeToTake (retireFree s)).settled :=
  retires (s := useFree s) form copy rfl

end

/-- Settles O35: the checks of R118 in order, then the move ended or turned by its kind. -/
theorem abortMoveEndsOrOpensTheMove : Obligations.AbortMoveEndsOrOpensTheMove := by
  intro dt τ p k s form copy
  refine ⟨_, exec_abortMove copy, fun cls detail value fails => ?_, fun configured named =>
    ⟨fun target tol st run q move entered => ?_, fun st sb run z0 move => ?_, fun st sb z0 pending move => ?_⟩⟩
  · rw [abortMoveWork_eq]
    exact afterChecks_ends (s := s.tick dt) form copy abortChecks_same fails
  all_goals rw [abortMoveWork_moving (s := s.tick dt) configured named (by
    show (s.gap.get k).move.inFlight = true
    rw [move]
    rfl)]
  · rw [abortMove_preset (s := s.tick dt) move entered]
    refine ⟨_, freshWord s, retired_of q (presetAborted s k .order) s form, ?_⟩
    exact retires_free (s := { s with
      clock := s.clock + dt, exm := _, attention := _, orders := { s.orders with inFlight := s.orders.inFlight.set k none },
      gap := _ }) (wf_writeResult _ _ _ form) copy
  · rw [abortMove_calClose (s := s.tick dt) move]
    exact ⟨freshWord s, retires_free (s := { s with clock := s.clock + dt, gap := _ }) form copy⟩
  · rw [abortMove_calOpen (s := s.tick dt) move]
    refine ⟨freshWord s, ?_⟩
    cases pending <;> exact retires_free (s := { s with clock := s.clock + dt, gap := _ }) form copy

/-! ### TRIP_STANDS (R137) -/

section
variable {s : State} {dt τ : Clock} {p mill set : Nat}

theorem exec_tripStands (copy : s.orders.copy = some { ptr := p, order := .tripStands mill set, time := τ }) :
    exec (.tripStands dt) s = .next (freeToTake (tripStandsWork mill set τ (s.tick dt))).settled := by
  show execTripStands dt s = _
  unfold execTripStands
  simp only [show (s.tick dt).orders.copy = _ from copy]
  rfl

theorem tripTargetOk_iff : tripTargetOk mill set = true ↔ (mill = 1 ∧ set = 0 ∨ mill = 0 ∧ set ≠ 0) := by
  simp [tripTargetOk]

theorem tripStandsWork_untargeted (neither : ¬(mill = 1 ∧ set = 0 ∨ mill = 0 ∧ set ≠ 0)) :
    tripStandsWork mill set τ s = retireTaken (.invalidField 12) s := by
  unfold tripStandsWork
  rw [if_pos (by rw [Bool.eq_false_iff.mpr (mt tripTargetOk_iff.mp neither)]; rfl)]

theorem tripStandsWork_unnamed (targeted : mill = 0 ∧ set ≠ 0) (unnamed : ∃ k ∈ namedStands set, ¬standNamed s k) :
    tripStandsWork mill set τ s = retireTaken (.invalidField 14) s := by
  obtain ⟨k, member, outside⟩ := unnamed
  have some_ : (namedStands set).all s.namesStand = false :=
    List.all_eq_false.mpr ⟨k, member, mt (named_iff s k).mp outside⟩
  unfold tripStandsWork
  rw [if_neg (by rw [tripTargetOk_iff.mpr (.inr targeted)]; nofun), some_]
  rfl

theorem tripStandsWork_raises (targeted : mill = 1 ∧ set = 0 ∨ mill = 0 ∧ set ≠ 0)
    (named : ∀ k ∈ namedStands set, standNamed s k) {ks : List Nat} (hks : ks = if mill = 1 then [0] else namedStands set) :
    tripStandsWork mill set τ s =
      retireTaken { cls := .completed, value := BitVec.ofNat 16 (raiseOrdered ks τ s).2 } (raiseOrdered ks τ s).1 := by
  unfold tripStandsWork
  rw [if_neg (by rw [tripTargetOk_iff.mpr targeted]; nofun),
    if_neg (by rw [List.all_eq_true.mpr fun k hk => (named_iff s k).mpr (named k hk)]; nofun), hks]

end

/-- A set of stands that is not empty names one. -/
theorem namedStands_ne_nil {set : Nat} (word : set < 65536) (some_ : set ≠ 0) : namedStands set ≠ [] := by
  intro empty
  refine some_ (Nat.eq_of_testBit_eq fun i => ?_)
  rw [Nat.zero_testBit]
  by_cases low : i < 16
  · have unnamed := List.filter_eq_nil_iff.mp (List.map_eq_nil_iff.mp empty) i (List.mem_range.mpr low)
    exact Bool.eq_false_iff.mpr unnamed
  · refine Nat.testBit_lt_two_pow (word.trans_le (?_ : 2 ^ 16 ≤ 2 ^ i))
    exact Nat.pow_le_pow_right (by decide) (Nat.le_of_not_lt low)

/-- Raising ORDERED stand by stand counts the entries that the list gains (R130, R137). -/
theorem raiseOrdered_counts {ks : List Nat} {τ : Clock} {s : State} (some_ : ks ≠ []) {u : State}
    (hu : u = ks.foldl (fun s k => takeCause .ordered k τ s) s) :
    raiseOrdered ks τ s = (u, u.trip.causes.length - if s.trip.latch then s.trip.causes.length else 0) := by
  obtain ⟨m, raised, counted⟩ := raise_count ks τ s 0
  obtain ⟨-, grown⟩ := counted some_
  unfold raiseOrdered
  rw [raised, hu, grown]
  congr 1
  omega

theorem raised_taken {ks : List Nat} {τ : Clock} {s u : State} {c : OrderCopy} (form : memoryOk s) (copy : s.orders.copy = some c)
    (hu : u = ks.foldl (fun s k => takeCause .ordered k τ s) s) : memoryOk u ∧ u.orders.copy = some c := by
  have walk : Evolves ⟨false, false, false, false, false, false⟩ s (ks.foldl (fun s k => takeCause .ordered k τ s) s) :=
    Evolves.foldl (fun _ _ h => h.takeCause) ks s .refl
  rw [hu]
  exact ⟨walk.memory form, (foldl_copy _ (fun s k => takeCause_copy .ordered k τ s) ks s).trans copy⟩

/-- Settles O36: the two checks of R137, then ORDERED raised stand by stand, which `raise_count` counts. -/
theorem tripStandsRaisesOrdered : Obligations.TripStandsRaisesOrdered := by
  intro dt τ p mill set s u ks form word copy hks hu
  refine ⟨_, exec_tripStands copy, fun neither => ?_, fun noMill stands unnamed => ?_, fun accepted => ?_⟩
  · rw [tripStandsWork_untargeted neither]
    exact retires (s := s.tick dt) form copy rfl
  · rw [if_neg (by omega)] at hks
    rw [tripStandsWork_unnamed (s := s.tick dt) ⟨noMill, stands⟩ (by rw [hks] at unnamed; exact unnamed)]
    exact retires (s := s.tick dt) form copy rfl
  · have targeted : mill = 1 ∧ set = 0 ∨ mill = 0 ∧ set ≠ 0 := accepted.imp_right fun ⟨noMill, stands, _⟩ => ⟨noMill, stands⟩
    have own : ks = if mill = 1 then [0] else namedStands set := hks
    have named : ∀ k ∈ namedStands set, standNamed (s.tick dt) k := by
      rcases accepted with ⟨-, none⟩ | ⟨noMill, -, named⟩
      · rw [none]
        nofun
      · rw [if_neg (by omega)] at own
        rw [← own]
        exact named
    have some_ : ks ≠ [] := by
      rw [own]
      split
      · nofun
      · exact namedStands_ne_nil word (by omega)
    obtain ⟨formU, copyU⟩ := raised_taken (s := s.tick dt) form copy hu
    rw [tripStandsWork_raises targeted named own, raiseOrdered_counts some_ hu]
    exact retires formU copyU rfl

end Sys2Proof.Machine

/-! Proofs for the orders of the Schedule Store and the trip reset: LOAD_SCHEDULE (R94 to R99) and RESET_TRIP (R138, R139). -/

namespace Sys2Proof.Machine

/-! ### LOAD_SCHEDULE (R94, R95, R98, R99) -/

section
variable {s : State} {dt τ : Clock} {p : Nat} {x : Slot} {rec : Schedule} {ks : List Nat}

theorem exec_loadSchedule {take : ScheduleTake}
    (copy : s.orders.copy = some { ptr := p, order := .loadSchedule take, time := τ }) :
    exec (.loadSchedule dt) s = .next (freeToTake (loadScheduleWork take τ (s.tick dt))).settled := by
  show execLoadSchedule dt s = _
  unfold execLoadSchedule
  simp only [show (s.tick dt).orders.copy = _ from copy]
  rfl

theorem loadScheduleWork_invalid {off : Nat} (fails : firstFailure (rec.checks (countAgrees s rec.count)) = some off) :
    loadScheduleWork (.copied rec) τ s = retireTaken (.invalidField off) s := by
  unfold loadScheduleWork
  dsimp only
  rw [fails]

theorem SlotRecord.live_iff (r : SlotRecord) : r.live = true ↔ r.state ≠ .free := by
  simp [SlotRecord.live]

/-- An accepted record goes by which slots are live (R98). -/
theorem loadScheduleWork_valid (valid : firstFailure (rec.checks (countAgrees s rec.count)) = none) :
    loadScheduleWork (.copied rec) τ s =
      if s.store.slotA.live then
        if s.store.slotB.live then retireTaken (.plain (.refused .busy)) s else loadInto .b rec (leadingVacantRun s rec) τ s
      else if s.store.slotB.live then loadInto .a rec (leadingVacantRun s rec) τ s
      else loadInto (s.store.lastLoaded.elim .a Slot.other) rec (loadReach s rec) τ s := by
  unfold loadScheduleWork
  dsimp only
  rw [valid]
  dsimp only
  cases s.store.slotA.live <;> cases s.store.slotB.live
  case false.false => cases s.store.lastLoaded <;> rfl
  all_goals rfl

theorem loadReach_eq : loadReach s rec = standsTo (s.line.elim rec.count LineDesc.n) := by
  unfold loadReach
  cases s.line <;> rfl

/-- The slot that a load takes, and the stands that switch to it, by the table of R98. -/
theorem loadScheduleWork_into {reach : List Nat} (valid : firstFailure (rec.checks (countAgrees s rec.count)) = none)
    (free : (s.store.slot x).state = .free) (hreach : reach = standsTo (s.line.elim rec.count LineDesc.n))
    (hks : (s.store.slot x.other).state = .free ∧ x = s.store.lastLoaded.elim .a Slot.other ∧ ks = reach ∨
      (s.store.slot x.other).state ≠ .free ∧ ks = reach.takeWhile (fun k =>
        (s.thread k).state == .vacant && (s.thread k).headNotice.isNone)) :
    loadScheduleWork (.copied rec) τ s = loadInto x rec ks τ s := by
  have dead : (s.store.slot x).live = false := Bool.eq_false_iff.mpr fun h => (SlotRecord.live_iff _).mp h free
  rw [loadScheduleWork_valid valid]
  rcases hks with ⟨both, hx, rfl⟩ | ⟨other, rfl⟩
  · have dead2 : (s.store.slot x.other).live = false := Bool.eq_false_iff.mpr fun h => (SlotRecord.live_iff _).mp h both
    rw [← loadReach_eq] at hreach
    rw [hreach, ← hx]
    have deadBoth : s.store.slotA.live = false ∧ s.store.slotB.live = false := by
      cases x
      · exact ⟨dead, dead2⟩
      · exact ⟨dead2, dead⟩
    rw [deadBoth.1, deadBoth.2]
    rfl
  · have live : (s.store.slot x.other).live = true := (SlotRecord.live_iff _).mpr other
    rw [← loadReach_eq] at hreach
    rw [hreach]
    cases x
    · rw [if_neg (by rw [show s.store.slotA.live = false from dead]; nofun),
        if_pos (show s.store.slotB.live = true from live)]
      rfl
    · rw [if_pos (show s.store.slotA.live = true from live),
        if_neg (by rw [show s.store.slotB.live = false from dead]; nofun)]
      rfl

theorem loadScheduleWork_busy (valid : firstFailure (rec.checks (countAgrees s rec.count)) = none)
    (a : s.store.slotA.state ≠ .free) (b : s.store.slotB.state ≠ .free) :
    loadScheduleWork (.copied rec) τ s = retireTaken (.plain (.refused .busy)) s := by
  rw [loadScheduleWork_valid valid, if_pos ((SlotRecord.live_iff _).mpr a), if_pos ((SlotRecord.live_iff _).mpr b)]

/-- The copy in slot `x`, WAITING and last loaded. -/
def filled (x : Slot) (rec : Schedule) (s : State) : State :=
  { s with store := { s.store.withSlot x { state := .waiting, coil := rec.coil, schedule := some rec } with lastLoaded := some x } }

theorem filled_slot : (filled x rec s).store.slot x = { state := .waiting, coil := rec.coil, schedule := some rec } := by
  cases x <;> rfl

theorem filled_slotAt {k : Nat} : (filled x rec s).slotAt k = s.slotAt k := by
  cases x <;> rfl

theorem switchStands_rest {cause : SwitchCause} {free : FreeCause} {w : State} (hw : w = switchStands ks x cause free τ s) :
    w = { s with store := w.store, gap := w.gap, journal := w.journal, attention := w.attention } := by
  have keeps := switchStands_keeps (s := s) ks x cause free τ
  rw [← hw] at keeps
  cases w
  cases s
  simp_all

end

/-- Settles O31: the outcome of the take, the record's checks, then the slot by the table of R98 and the switches by R100. -/
theorem loadScheduleFillsASlotAndSwitches : Obligations.LoadScheduleFillsASlotAndSwitches := by
  intro dt τ p take s form copy
  refine ⟨_, exec_loadSchedule copy, fun r failed => ?_, fun rec copied => ⟨fun off fails => ?_, fun valid =>
    ⟨fun a b => ?_, fun x reach ks free hreach hks => ?_⟩⟩⟩
  · rw [failed]
    exact retires (s := s.tick dt) form copy rfl
  · rw [copied, loadScheduleWork_invalid (s := s.tick dt) fails]
    exact retires (s := s.tick dt) form copy rfl
  · rw [copied, loadScheduleWork_busy (s := s.tick dt) valid a b]
    exact retires (s := s.tick dt) form copy rfl
  · rw [copied, loadScheduleWork_into (s := s.tick dt) valid free hreach hks]
    obtain ⟨w, hw⟩ : ∃ w, w = switchStands ks x .load .lastStand τ (filled x rec (s.tick dt)) := ⟨_, rfl⟩
    have rest := switchStands_rest hw
    have sub : ks.Sublist (standsTo (s.line.elim rec.count LineDesc.n)) := by
      rcases hks with ⟨-, -, rfl⟩ | ⟨-, rfl⟩
      · rw [hreach]
      · rw [hreach]
        exact List.takeWhile_sublist _
    have inside : ∀ k ∈ ks, 1 ≤ k ∧ k ≤ 8 := fun k hk => (reach_ok _).2 k (sub.subset hk)
    obtain ⟨last, coil, schedule, state, slots, others, terms⟩ :=
      switches_spec ks x .load .lastStand τ (filled x rec (s.tick dt)) rec inside ((standsTo_nodup _).sublist sub)
        (by rw [filled_slot])
    rw [← hw] at last coil schedule state slots others terms
    rw [filled_slot] at coil state
    refine ⟨w, ?_, rest, last, coil, schedule, ?_, fun k hk => ?_, fun k _ => others k, terms⟩
    · have formW : memoryOk w := by rw [rest]; exact form
      have copyW : w.orders.copy = some { ptr := p, order := .loadSchedule take, time := τ } := by rw [rest]; exact copy
      unfold loadInto
      show OrderEnds _ _ _ _ _ (freeToTake (retireTaken _ (switchStands ks x .load .lastStand τ (filled x rec (s.tick dt))))).settled
      rw [← hw]
      exact retires formW copyW rfl
    · rw [state]
      cases ks <;> rfl
    · rw [slots k (stand_of hk), filled_slotAt]
      rfl

/-! ### RESET_TRIP: the conditions (R138) -/

section
variable {s : State} {dt τ : Clock} {p k : Nat}

theorem exec_resetTrip (copy : s.orders.copy = some { ptr := p, order := .resetTrip, time := τ }) :
    exec (.resetTrip dt) s = .next (freeToTake (resetTripWork τ (s.tick dt))).settled := by
  show execResetTrip dt s = _
  unfold execResetTrip
  simp only [show (s.tick dt).orders.copy = _ from copy]
  rfl

theorem unloadedAt_eq (s : State) (k : Nat) :
    unloadedAt s k = decide (∀ x, s.slotAt k = some x → (s.link.stations.get k).f < (s.sched k).fOff) := by
  unfold unloadedAt
  rw [Bool.eq_iff_iff, decide_eq_true_iff]
  cases s.slotAt k <;> simp

theorem travelOk_eq (s : State) (k : Nat) :
    travelOk s k = decide ((s.link.stations.get k).flags.overtravel = false ∧
      s.lineCopy.pLo ≤ (s.link.stations.get k).p ∧ (s.link.stations.get k).p ≤ s.lineCopy.pHi) := by
  unfold travelOk
  rw [Bool.eq_iff_iff, decide_eq_true_iff]
  simp

theorem resetChecks_eq (s : State) :
    resetChecks s = [(decide (s.trip.etrip = .healthy), 256)]
      ++ (standsTo s.n).map (fun k => (decide ((s.link.stations.get k).state ≠ .silent), 7 * 256 + k))
      ++ [(decide (s.link.gauge.state ≠ .silent), 7 * 256 + (s.n + 1))]
      ++ (standsTo s.n).map (fun k =>
        (decide (∀ x, s.slotAt k = some x → (s.link.stations.get k).f < (s.sched k).fOff), 6 * 256 + k))
      ++ (standsTo s.n).map (fun k => (decide ((s.link.stations.get k).flags.overtravel = false ∧
        s.lineCopy.pLo ≤ (s.link.stations.get k).p ∧ (s.link.stations.get k).p ≤ s.lineCopy.pHi), 8 * 256 + k))
      ++ (standsTo s.n).map (fun k => (!(s.link.stations.get k).flags.hydFault, 10 * 256 + k)) := by
  have silent (x : StationState) : (x != .silent) = decide (x ≠ .silent) := by cases x <;> rfl
  have healthy (x : EtripLevel) : (x == .healthy) = decide (x = .healthy) := by cases x <;> rfl
  unfold resetChecks
  simp only [unloadedAt_eq, travelOk_eq, silent, healthy]
  rfl

theorem resetTripWork_clear (clear : s.trip.latch = false) : resetTripWork τ s = retireTaken (.plain .completed) s := by
  unfold resetTripWork
  rw [clear]
  rfl

theorem resetTripWork_refused {v : Nat} (set : s.trip.latch = true) (fails : firstFailure (resetChecks s) = some v) :
    resetTripWork τ s = retireTaken { cls := .refused .activeCause, value := BitVec.ofNat 16 v } s := by
  unfold resetTripWork
  rw [set, fails]
  rfl

theorem resetTripWork_accepted (set : s.trip.latch = true) (passes : firstFailure (resetChecks s) = none) :
    resetTripWork τ s =
      retireTaken { cls := .completed, value := BitVec.ofNat 16 s.trip.causes.length } (acceptReset τ s) := by
  unfold resetTripWork
  rw [set, passes]
  rfl

end

/-! ### RESET_TRIP: what is cleared before the slots collapse (R139, steps 1 to 4) -/

/-- The records of the DRAINING slots that a reset frees and of the pending tables that it applies. -/
def wipeRecords (s : State) : List JournalRecord :=
  ([Slot.a, .b].filter fun x => (s.store.slot x).state = .draining).map (fun x => freedRecord s x .flush s.clock) ++
    (standsTo s.n).filterMap fun k =>
      (s.est.get k).pendingTable.map fun table => { appliedRecord s k 3 s.clock table with coil := 0 }

/-- An accepted reset before the slots collapse. -/
def wiped (s : State) : State :=
  gapTripReset (gaugeTripReset (thicknessTripReset s.clock (resetThreading (flush s.clock (clearTrip s)))))

/-- `r` with FF, AGC, MON and h_lock 0, and any move state and poll fields. -/
structure TermsGone (r r' : Reference) : Prop where
  ff : r'.ff = 0
  agc : r'.agc = 0
  mon : r'.mon = 0
  hLock : r'.hLock = 0
  base : r'.base = r.base
  baseKnown : r'.baseKnown = r.baseKnown
  trim : r'.trim = r.trim

section
variable {s : State} {k : Nat}

theorem wiped_frame : (wiped s).clock = s.clock ∧ (wiped s).level = s.level ∧ (wiped s).link = s.link ∧ (wiped s).line = s.line ∧
    (wiped s).exm = s.exm ∧ (wiped s).orders = s.orders ∧
    (wiped s).trip = { s.trip with latch := false, actions := PerStand.all {}, entryStop := false } := by
  unfold wiped
  simp [clearTrip]

theorem wiped_tracker : (wiped s).tracker = { s.tracker with
    zones := PerStand.all [], carry := PerStand.all 0, emptySpell := false, threading := PerStand.all {},
    gen := { s.tracker.gen with running := false } } := by
  have flushed := (flush_parts s.clock (clearTrip s)).1
  have kept : (wiped s).tracker = (resetThreading (flush s.clock (clearTrip s))).tracker := by unfold wiped; simp
  rw [kept]
  unfold resetThreading
  rw [flushed]
  rfl

theorem wiped_gauge : (wiped s).gauge = { s.gauge with out := false, paired := 0, unpaired := 0, outCount := 0 } := by
  have flushed := (flush_parts s.clock (clearTrip s)).2.1
  have kept : (thicknessTripReset s.clock (resetThreading (flush s.clock (clearTrip s)))).gauge =
      (flush s.clock (clearTrip s)).gauge := by simp
  show { Machine.State.gauge _ with out := false, paired := 0, unpaired := 0, outCount := 0 } = _
  rw [kept, flushed]
  rfl

theorem wiped_store : (∀ x, (wiped s).store.slot x = if (s.store.slot x).state = .draining then {} else s.store.slot x) ∧
    (wiped s).store.inForce = s.store.inForce ∧ (wiped s).store.lastLoaded = s.store.lastLoaded := by
  obtain ⟨-, -, slots, inForce, last, -⟩ := flush_parts s.clock (clearTrip s)
  have kept : (wiped s).store = (flush s.clock (clearTrip s)).store := by unfold wiped; simp
  rw [kept]
  exact ⟨slots, inForce, last⟩

theorem wiped_gap (inside : 1 ≤ k ∧ k ≤ 8) : TermsGone (s.gap.get k) ((wiped s).gap.get k) := by
  have kept : (gaugeTripReset (thicknessTripReset s.clock (resetThreading (flush s.clock (clearTrip s))))).gap = s.gap := by
    simp [clearTrip]
  unfold wiped gapTripReset
  rw [kept, PerStand.get_map _ _ _ inside]
  exact ⟨rfl, rfl, rfl, rfl, rfl, rfl, rfl⟩

theorem wiped_est (inside : 1 ≤ k ∧ k ≤ 8) : ((wiped s).est.get k).mode = .lookup ∧
    ((wiped s).est.get k).z = (s.est.get k).z ∧ ((wiped s).est.get k).zst = (s.est.get k).zst ∧
    (k ≤ s.n → ((wiped s).est.get k).pendingTable = none ∧
      ((wiped s).est.get k).table = ((s.est.get k).pendingTable <|> (s.est.get k).table)) := by
  obtain ⟨f, hf⟩ : ∃ f, f = resetThreading (flush s.clock (clearTrip s)) := ⟨_, rfl⟩
  have before : f.est = s.est ∧ f.n = s.n := by
    rw [hf]
    unfold State.n State.lineCopy
    simp [clearTrip]
  have kept : (wiped s).est = (thicknessTripReset s.clock f).est := by unfold wiped; rw [← hf]; simp
  have applied := applied_est (standsTo f.n) 3 (fun _ => s.clock)
    { f with est := f.est.map fun e => { e with mode := .lookup } } (standsTo_nodup _) (reach_ok _).2 k
  rw [kept]
  unfold thicknessTripReset
  rw [applied, PerStand.get_map _ _ _ inside, before.1, before.2]
  have member : k ≤ s.n → k ∈ standsTo s.n := fun h => (mem_standsTo _ _).mpr ⟨inside.1, inside.2, h⟩
  cases (s.est.get k).pendingTable with
  | none =>
    dsimp only
    rw [ite_self]
    exact ⟨rfl, rfl, rfl, fun _ => ⟨rfl, rfl⟩⟩
  | some t =>
    dsimp only
    refine ⟨?_, ?_, ?_, fun upTo => ?_⟩
    · split <;> rfl
    · split <;> rfl
    · split <;> rfl
    · rw [if_pos (member upTo)]
      exact ⟨rfl, rfl⟩

theorem wiped_journal : (wiped s).journal = journalled (wipeRecords s) s := by
  obtain ⟨f, hf⟩ : ∃ f, f = resetThreading (flush s.clock (clearTrip s)) := ⟨_, rfl⟩
  have before : f.est = s.est ∧ f.n = s.n ∧ f.tracker.threading = PerStand.all {} := by
    rw [hf]
    unfold State.n State.lineCopy
    refine ⟨?_, ?_, rfl⟩ <;> simp [clearTrip]
  have flushed : f.journal = journalled
      (([Slot.a, .b].filter fun x => (s.store.slot x).state = .draining).map fun x => freedRecord s x .flush s.clock) s := by
    rw [hf]
    exact (flush_journalled s.clock (clearTrip s)).trans (journalled_congr _ rfl)
  have kept : (wiped s).journal = (thicknessTripReset s.clock f).journal := by unfold wiped; rw [← hf]; simp
  rw [kept, thicknessTripReset_journalled, journalled_append _ _ _ _ flushed]
  unfold wipeRecords appliedRecord State.thread
  rw [before.1, before.2.1, before.2.2]
  congr 2
  refine List.filterMap_congr fun k hk => ?_
  rw [PerStand.get_all _ _ ((reach_ok _).2 k hk)]

end

/-! ### RESET_TRIP: the collapse, the record and the order's end (R105, R139) -/

theorem limit_zero (l : Nat) : limit 0 l = 0 := by
  unfold limit
  rw [clampInt_eq_max_min (by omega)]
  omega

/-- A switch keeps terms that are 0 at 0, with the base and TRIM (R100). -/
theorem TermsGone.switchStand {s : State} {r : Reference} {j k : Nat} {x : Slot} {c : SwitchCause} {f : FreeCause} {time : Clock}
    (gone : TermsGone r (s.gap.get k)) (inside : 1 ≤ j ∧ j ≤ 8) : TermsGone r ((switchStand j x c f time s).gap.get k) := by
  obtain ⟨-, -, -, others, mon, mv, own, limited⟩ := switch_spec j x c f time s inside
  by_cases same : k = j
  · subst same
    rw [own]
    refine ⟨?_, ?_, ?_, gone.hLock, gone.base, gone.baseKnown, gone.trim⟩
    · exact (congrArg (limit · _) gone.ff).trans (limit_zero _)
    · exact (congrArg (limit · _) gone.agc).trans (limit_zero _)
    · rcases limited with kept | ⟨l, cut⟩
      · exact kept.trans gone.mon
      · exact cut.trans ((congrArg (limit · l) gone.mon).trans (limit_zero l))
  · rw [others k same]
    exact gone

theorem TermsGone.switchStands {r : Reference} {k : Nat} {x : Slot} {c : SwitchCause} {f : FreeCause} {time : Clock}
    (ks : List Nat) : ∀ {s : State}, TermsGone r (s.gap.get k) → (∀ j ∈ ks, 1 ≤ j ∧ j ≤ 8) →
      TermsGone r ((switchStands ks x c f time s).gap.get k) := by
  induction ks with
  | nil => exact fun gone _ => gone
  | cons j ks ih =>
    exact fun gone inside => ih (gone.switchStand (inside j List.mem_cons_self)) fun i hi => inside i (List.mem_cons_of_mem _ hi)

theorem freeSlot_gap (x : Slot) (c : FreeCause) (time : Clock) (s : State) : (freeSlot x c time s).gap = s.gap := by simp

theorem TermsGone.collapseSlots {s : State} {r : Reference} {k : Nat} {c : SwitchCause} {time : Clock}
    (gone : TermsGone r (s.gap.get k)) : TermsGone r ((collapseSlots c time s).gap.get k) := by
  unfold Machine.collapseSlots
  split
  · exact gone
  · split
    · have switched := gone.switchStands (x := ‹Slot›) (c := c) (f := .collapse) (time := time)
        ((standsTo s.n).filter fun k => s.slotAt k == some (‹Slot›).other)
        fun j hj => (reach_ok _).2 j (List.mem_of_mem_filter hj)
      dsimp only
      split
      · rw [freeSlot_gap]
        exact switched
      · exact switched
    · exact gone

/-- What an accepted reset leaves, said of what was cleared before the slots collapse. -/
theorem acceptReset_wiped (τ : Clock) (s : State) :
    acceptReset τ s = rewriteTripArea (noteReset τ (collapseSlots .tripReset s.clock (wiped s))) := rfl

section
variable {s : State} {τ : Clock}

/-- What the reset clears stays cleared in the collapse, and its records change nothing else. -/
theorem acceptReset_frame : (acceptReset τ s).clock = (wiped s).clock ∧ (acceptReset τ s).level = (wiped s).level ∧
    (acceptReset τ s).link = (wiped s).link ∧ (acceptReset τ s).line = (wiped s).line ∧ (acceptReset τ s).exm = (wiped s).exm ∧
    (acceptReset τ s).orders = (wiped s).orders ∧ (acceptReset τ s).trip = (wiped s).trip ∧
    (acceptReset τ s).tracker = (wiped s).tracker ∧ (acceptReset τ s).gauge = (wiped s).gauge ∧
    (acceptReset τ s).est = (wiped s).est ∧
    (acceptReset τ s).gap = (collapseSlots .tripReset s.clock (wiped s)).gap ∧
    (acceptReset τ s).store = (collapseSlots .tripReset s.clock (wiped s)).store := by
  rw [acceptReset_wiped]
  simp

theorem wiped_untagged (x : Slot) : ¬tagsAMark (wiped s) x := by
  rintro ⟨k, hk, m, member, -⟩
  unfold State.zone at member
  rw [wiped_tracker] at member
  rw [PerStand.get_all _ _ (stand_of hk)] at member
  cases member

theorem wiped_settled (x : Slot) : ((wiped s).store.slot x).state ≠ .draining := by
  rw [wiped_store.1]
  split
  · decide
  · assumption

/-- The slot that the collapse moves the stands to: the last loaded, where both slots are live (R105). -/
theorem wiped_collapseTo {kept : Slot → SlotRecord} (hkept : ∀ x, kept x = (wiped s).store.slot x) :
    collapseTo (wiped s) = if (kept .a).state ≠ .free ∧ (kept .b).state ≠ .free then s.store.lastLoaded else none := by
  have both : (wiped s).store.bothLive = true ↔ (kept .a).state ≠ .free ∧ (kept .b).state ≠ .free := by
    rw [hkept, hkept]
    unfold Store.bothLive
    rw [Bool.and_eq_true, SlotRecord.live_iff, SlotRecord.live_iff]
    rfl
  unfold collapseTo
  rw [wiped_store.2.2]
  simp only [both]

/-- Two live slots hold what they held before the reset. -/
theorem wiped_live {x : Slot} (moved : collapseTo (wiped s) = some x) (y : Slot) : (wiped s).store.slot y = s.store.slot y := by
  have live : ((wiped s).store.slot y).state ≠ .free := by
    rw [wiped_collapseTo fun _ => rfl] at moved
    split at moved
    · rename_i both
      cases y
      · exact both.1
      · exact both.2
    · cases moved
  rw [wiped_store.1] at live ⊢
  split
  · rename_i draining
    rw [if_pos draining] at live
    exact absurd rfl live
  · rfl

theorem wiped_slotAt (k : Nat) : (wiped s).slotAt k = s.slotAt k := by
  unfold State.slotAt
  rw [wiped_store.2.1]

theorem wiped_n : (wiped s).n = s.n := by
  unfold State.n State.lineCopy
  rw [wiped_frame.2.2.2.1]

theorem noteReset_journal (u : State) : (noteReset τ u).journal = journalled
    [{ kind := .tripReset, stand := 0, time := τ, coil := 0, v1 := BitVec.ofNat 16 u.trip.causes.length,
       v2 := BitVec.ofNat 16 (bit u.trip.overflow),
       v3 := BitVec.ofNat 16 ((u.trip.causes.head?.map fun e => e.cause.code).getD 0) }] u := rfl

end

/-- The records of the collapse, said of the slots as they were before the reset (R107). -/
theorem collapseRecords_eq {s : State} {time : Clock} :
    (collapseFrom (wiped s)).map (fun k =>
        switchRecord (wiped s) k ((collapseTo (wiped s)).getD .a) ((collapseTo (wiped s)).getD .a).other .tripReset time) ++
      ((collapseTo (wiped s)).map fun x => freedRecord (wiped s) x.other .collapse time).toList =
    (collapseFrom (wiped s)).map (fun k =>
        { kind := .scheduleSwitch, stand := k, time := time,
          coil := (collapseTo (wiped s)).elim 0 fun x => (s.store.slot x).coil,
          v1 := (collapseTo (wiped s)).elim 0 fun x => BitVec.ofNat 16 x.code,
          v2 := (collapseTo (wiped s)).elim 0 fun x => BitVec.ofNat 16 x.other.code, v3 := 3 }) ++
      ((collapseTo (wiped s)).map fun x =>
        { kind := .slotFreed, stand := 0, time := time, coil := (s.store.slot x.other).coil,
          v1 := BitVec.ofNat 16 x.other.code, v2 := 5, v3 := 0 }).toList := by
  cases moved : collapseTo (wiped s) with
  | none =>
    have onNone : collapseFrom (wiped s) = [] := by
      unfold collapseFrom
      rw [moved]
      exact List.filter_eq_nil_iff.mpr fun k _ => by simp
    rw [onNone]
    rfl
  | some x =>
    have live := wiped_live moved
    unfold switchRecord freedRecord
    rw [Option.getD_some, live x]
    simp only [Option.map_some, live x.other]
    rfl

/-- The records of an accepted reset in order (R139). -/
theorem acceptReset_journal {s : State} {τ : Clock} : (acceptReset τ s).journal = journalled
    (wipeRecords s ++
      ((collapseFrom (wiped s)).map (fun k =>
          switchRecord (wiped s) k ((collapseTo (wiped s)).getD .a) ((collapseTo (wiped s)).getD .a).other .tripReset s.clock) ++
        ((collapseTo (wiped s)).map fun x => freedRecord (wiped s) x.other .collapse s.clock).toList) ++
      [{ kind := .tripReset, stand := 0, time := τ, coil := 0, v1 := BitVec.ofNat 16 s.trip.causes.length,
         v2 := BitVec.ofNat 16 (bit s.trip.overflow),
         v3 := BitVec.ofNat 16 ((s.trip.causes.head?.map fun e => e.cause.code).getD 0) }]) s := by
  obtain ⟨-, -, -, collapsed⟩ := collapseSlots_spec .tripReset s.clock (wiped s) wiped_untagged wiped_settled
  have trip : (collapseSlots .tripReset s.clock (wiped s)).trip = (wiped s).trip := by simp
  rw [acceptReset_wiped]
  rw [wiped_frame.2.2.2.2.2.2] at trip
  generalize collapseSlots .tripReset s.clock (wiped s) = c at collapsed trip ⊢
  rw [journalled_append _ _ _ _ wiped_journal] at collapsed
  rw [rewriteTripArea_journal, noteReset_journal, journalled_append _ _ _ _ collapsed, trip]

/-- Settles O37: the conditions of R138 in order, then the reset of R139 read off what was cleared and the collapse. -/
theorem resetTripClearsTheTrip : Obligations.ResetTripClearsTheTrip := by
  intro dt τ now p s checks form _ hnow copy hchecks
  rw [show checks = resetChecks (s.tick dt) from hchecks.trans (resetChecks_eq (s.tick dt)).symm]
  refine ⟨_, exec_resetTrip copy, fun clear => ?_, fun set => ⟨fun v fails => ?_, fun passes => ?_⟩⟩
  · rw [resetTripWork_clear (s := s.tick dt) clear]
    exact retires (s := s.tick dt) form copy rfl
  · rw [resetTripWork_refused (s := s.tick dt) set fails]
    exact retires (s := s.tick dt) form copy rfl
  · rw [resetTripWork_accepted (s := s.tick dt) set passes]
    obtain ⟨w, hw⟩ : ∃ w, w = acceptReset τ (s.tick dt) := ⟨_, rfl⟩
    obtain ⟨clock, level, link, line, exm, orders, trip, tracker, gauge, est, gap, store⟩ :=
      acceptReset_frame (s := s.tick dt) (τ := τ)
    obtain ⟨clock', level', link', line', exm', orders', trip'⟩ := wiped_frame (s := s.tick dt)
    have journal := acceptReset_journal (s := s.tick dt) (τ := τ)
    rw [← hw] at clock level link line exm orders trip tracker gauge est gap store journal ⊢
    refine ⟨w, ?_, exm.trans exm', (clock.trans clock').trans hnow.symm, level.trans level', link.trans link', line.trans line',
      trip.trans trip', tracker.trans wiped_tracker, gauge.trans wiped_gauge, fun k hk => ?_, fun k hk => ?_, ?_⟩
    · have formW : memoryOk w := (congrArg Memory.wf (exm.trans exm')).trans form
      have copyW : w.orders.copy = some { ptr := p, order := .resetTrip, time := τ } :=
        (congrArg OrderUnit.copy (orders.trans orders')).trans copy
      exact retires formW copyW rfl
    · rw [est]
      exact wiped_est (s := s.tick dt) (stand_of hk)
    · rw [gap]
      obtain ⟨ff, agc, mon, hLock, base, baseKnown, trim⟩ :=
        (wiped_gap (s := s.tick dt) (stand_of hk)).collapseSlots (c := .tripReset) (time := (s.tick dt).clock)
      exact ⟨ff, agc, mon, hLock, base, baseKnown, trim⟩
    · obtain ⟨slotsAt, last, slots, -⟩ := collapseSlots_spec .tripReset (s.tick dt).clock (wiped (s.tick dt)) wiped_untagged wiped_settled
      unfold State.slotAt at slotsAt
      rw [← store] at slotsAt last slots
      refine ⟨last.trans wiped_store.2.2, fun kept moved onOlder hkept hmoved holder => ?_⟩
      have keptEq (x : Slot) : kept x = (wiped (s.tick dt)).store.slot x := (hkept x).trans ((wiped_store (s := s.tick dt)).1 x).symm
      have movedEq : moved = collapseTo (wiped (s.tick dt)) := hmoved.trans (wiped_collapseTo keptEq).symm
      have olderEq : onOlder = collapseFrom (wiped (s.tick dt)) := by
        rw [holder, movedEq]
        unfold collapseFrom
        simp only [wiped_n, wiped_slotAt]
        rfl
      rw [← movedEq, ← olderEq] at slotsAt slots
      refine ⟨fun k _ => ?_, fun x => ?_, ?_⟩
      · exact (slotsAt k).trans (if_congr Iff.rfl rfl (wiped_slotAt k))
      · rw [slots, keptEq]
      · rw [journal, collapseRecords_eq, ← movedEq, ← olderEq, hnow]
        simp only [List.append_assoc]
        rw [show BitVec.ofNat 16 (bit (s.tick dt).trip.overflow) = if s.trip.overflow then 1 else 0 by
          show BitVec.ofNat 16 (bit s.trip.overflow) = _
          cases s.trip.overflow <;> rfl]
        unfold wipeRecords
        rw [List.append_assoc]
        exact journalled_congr _ (s := s.tick dt) (t := s) rfl

end Sys2Proof.Machine

/-! Proofs for the trip causes (R124, R125, R128 to R132, R136, R141), idle steps and commands out of turn (logs 2 and 3). -/

namespace Sys2Proof.Machine

/-! ### Idle steps and commands out of turn (logs 2 and 3) -/

theorem openExchange_none {dt : Clock} {s : State} (closed : s.link.cycle = none) : openExchange (s.tick dt) = none := by
  unfold openExchange
  rw [show (s.tick dt).link.cycle = none from closed]
  exact ite_self none

/-- An order's command with no order standing taken. -/
theorem exec_order_idle {dt : Clock} {s : State} (standing : s.orders.copy = none) :
    ∀ i ∈ [Instr.announceHead dt, .setModulus dt, .setTrim dt, .loadSchedule dt, .unloadSchedule dt, .presetGap dt,
      .calibrateZero dt, .abortMove dt, .tripStands dt, .resetTrip dt], exec i s = .next (s.tick dt).settled := by
  have none : (s.tick dt).orders.copy = none := standing
  intro i member
  simp only [List.mem_cons, List.not_mem_nil, or_false] at member
  rcases member with rfl | rfl | rfl | rfl | rfl | rfl | rfl | rfl | rfl | rfl
  all_goals
    simp only [exec, execAnnounceHead, execSetModulus, execSetTrim, execLoadSchedule, execUnloadSchedule, execPresetGap,
      execCalibrateZero, execAbortMove, execTripStands, execResetTrip, none]
    rfl

/-- Settles O38: with no command waiting `step` ticks, and a command out of turn finds nothing to work on. -/
theorem idleStepsAndCommandsOutOfTurnOnlyPassTime : Obligations.IdleStepsAndCommandsOutOfTurnOnlyPassTime := by
  refine ⟨fun s idle => ?_, fun dt s => ⟨fun standing => ?_, fun closed => ⟨fun b => ?_, fun fr fin plan => ?_, ?_, ?_⟩⟩⟩
  · unfold step
    rw [idle]
  · exact exec_order_idle standing
  · show execReplyWindowClose dt b s = _
    unfold execReplyWindowClose windowAge
    simp only [openExchange_none closed]
    rfl
  · show execReplyReceived dt fr fin plan s = _
    unfold execReplyReceived receivingAge
    simp only [openExchange_none closed]
    rfl
  · show execPollSent dt s = _
    unfold execPollSent
    simp only [openExchange_none closed]
    rfl
  · show execReplyStart dt s = _
    unfold execReplyStart windowAge
    simp only [openExchange_none closed]
    rfl

/-! ### A cause taken (R128 to R132, R136) -/

section
variable {s : State} {c : Cause} {k : Nat} {time : Clock} {e : MatrixEntry}

theorem standSet_eq (l : Cascade) (k n : Nat) : standSet l k n = (match l, k with
    | .none, 0 => []
    | .none, k => [k]
    | .upstream, 0 => standsTo n
    | .upstream, k => standsTo k
    | .all, _ => standsTo n) := by
  cases l <;> cases k <;> rfl

/-- The actions of the stands of a set grow by those of the entry, and no other stand's do (R129, step 3). -/
theorem addActions_get {ks : List Nat} {a : ActionSet} {j : Nat} (inside : 1 ≤ j ∧ j ≤ 8) : ∀ p : PerStand ActionSet,
    (addActions ks a p).get j = if j ∈ ks then (p.get j).union a else p.get j := by
  have again (x : ActionSet) : (x.union a).union a = x.union a := by
    unfold ActionSet.union
    simp
  unfold addActions
  induction ks with
  | nil => exact fun _ => rfl
  | cons i ks ih =>
    intro p
    rw [List.foldl_cons, ih]
    by_cases same : j = i
    · subst same
      rw [PerStand.get_set_same _ _ _ inside, again, if_pos List.mem_cons_self, ite_self]
    · rw [PerStand.get_set_other _ _ _ _ same]
      simp [same]

/-- A cause enlarges the actions of a stand of the set where the entry has one that the stand has not (R132). -/
theorem standsGrown_eq (applies : applyingEntry s c = some e) :
    standsGrown s c k = (standSet e.cascade k s.n).countP fun j => (e.actions.driveStop && !(s.trip.actions.get j).driveStop) ||
      (e.actions.gapOpen && !(s.trip.actions.get j).gapOpen) := by
  have grows (a b : ActionSet) : (a.union b != a) = ((b.driveStop && !a.driveStop) || (b.gapOpen && !a.gapOpen)) := by
    obtain ⟨x, y⟩ := a
    obtain ⟨z, w⟩ := b
    revert x y z w
    decide
  unfold standsGrown
  rw [applies]
  simp only [grows]

theorem applyingEntry_run {m : List MatrixEntry} (run : s.level = .run) (matrix : s.trip.matrix = some m) :
    applyingEntry s c = some (m.getD (c.code - 1) {}) := by
  unfold applyingEntry
  rw [if_pos run, matrix]
  rfl

theorem applyingEntry_none (idle : s.level ≠ .run ∨ s.trip.matrix = none) : applyingEntry s c = none := by
  unfold applyingEntry
  split
  case isFalse => rfl
  case isTrue run =>
    rcases idle with other | none
    · exact absurd run other
    · rw [none]
      rfl

/-- Recording a cause changes the list, overflow and the latch alone of the Trip Unit's items (R130, R131). -/
theorem recordCause_items : (recordCause c k time s).trip.actions = s.trip.actions ∧
    (recordCause c k time s).trip.entryStop = s.trip.entryStop := by
  rw [recordCause_trip]
  (repeat' split) <;> exact ⟨rfl, rfl⟩

theorem takeCause_applied (applies : applyingEntry s c = some e) :
    (takeCause c k time s).trip.entryStop = (s.trip.entryStop || e.entryStop) ∧
    (takeCause c k time s).trip.actions = addActions (standSet e.cascade k s.n) e.actions s.trip.actions := by
  obtain ⟨actions, entryStop⟩ := recordCause_items (s := s) (c := c) (k := k) (time := time)
  unfold takeCause
  rw [applies]
  dsimp only
  rw [rewriteTripArea_trip]
  unfold applyEntry
  dsimp only
  rw [foldl_keeps (·.trip) (by simp), actions, entryStop]
  exact ⟨rfl, rfl⟩

theorem takeCause_gap (applies : applyingEntry s c = some e) {j : Nat} (inside : 1 ≤ j ∧ j ≤ 8) :
    (takeCause c k time s).gap.get j =
      { s.gap.get j with move := if j ∈ standSet e.cascade k s.n then .none else (s.gap.get j).move } := by
  unfold takeCause
  rw [applies]
  dsimp only
  rw [rewriteTripArea_gap]
  unfold applyEntry
  dsimp only
  rw [ended_gap]
  have kept : (recordCause c k time s).gap = s.gap := by simp
  rw [kept]
  split
  · rename_i ends
    rw [if_pos ends.1]
  · rename_i stays
    rw [if_neg fun member => stays ⟨member, inside⟩]

theorem takeCause_recorded (idle : applyingEntry s c = none) :
    takeCause c k time s = rewriteTripArea (recordCause c k time s) := by
  unfold takeCause
  rw [idle]

theorem isDuplicate_iff : isDuplicate s c k = true ↔ ∃ x ∈ s.trip.causes, x.cause = c ∧ x.stand = k := by
  unfold isDuplicate
  rw [List.any_eq_true]
  simp

/-- The record that a cause journals, where it writes an entry (R132). -/
theorem takeCause_journalled (ok : tripOk s) : (takeCause c k time s).journal = journalled
    (if s.trip.latch = false then
      [{ kind := .tripFirst, stand := k, time := time, coil := (causeEntry s c k time).coil, v1 := BitVec.ofNat 16 c.code,
         v2 := 1, v3 := BitVec.ofNat 16 (standsGrown s c k) }]
    else if (∃ x ∈ s.trip.causes, x.cause = c ∧ x.stand = k) ∨ s.trip.causes.length = 16 then []
    else
      [{ kind := .tripAdded, stand := k, time := time, coil := (causeEntry s c k time).coil, v1 := BitVec.ofNat 16 c.code,
         v2 := BitVec.ofNat 16 (s.trip.causes.length + 1), v3 := BitVec.ofNat 16 (standsGrown s c k) }]) s := by
  obtain ⟨-, bounded, -⟩ := ok
  rw [takeCause_journal, recordCause_journalled]
  congr 1
  split
  · rfl
  · simp only [isDuplicate_iff]
    by_cases listed : ∃ x ∈ s.trip.causes, x.cause = c ∧ x.stand = k
    · rw [if_pos listed, if_pos (.inl listed)]
    · rw [if_neg listed]
      by_cases full : s.trip.causes.length = 16
      · rw [if_neg (by omega), if_pos (.inr full)]
      · rw [if_pos (by omega), if_neg (not_or.mpr ⟨listed, full⟩)]

/-- A cause taken ends with the trip record area rewritten (R141). -/
theorem takeCause_rewrites : ∃ u, takeCause c k time s = rewriteTripArea u ∧ u.tripArea = s.tripArea := by
  unfold takeCause
  dsimp only
  split
  · exact ⟨_, rfl, by simp⟩
  · exact ⟨_, rfl, by simp⟩

/-- The trip record area shows the Trip Unit's items, counted once more (R141, R178). -/
theorem takeCause_area : ∃ free, (takeCause c k time s).tripArea = some
    (tripAreaOf (takeCause c k time s).trip ((s.tripArea.map TripArea.count).getD 0 + 1) free) := by
  obtain ⟨u, taken, area⟩ := takeCause_rewrites (s := s) (c := c) (k := k) (time := time)
  rw [taken, ← area]
  exact ⟨tripAreaFree u, rfl⟩

/-- The first cause under a clear latch sets ATTENTION.TRIP (R130). -/
theorem takeCause_attention (first : s.trip.latch = false) : (takeCause c k time s).attention.getLsbD 2 = true := by
  have work : Evolves ⟨false, false, false, false, false, false⟩ (recordCause c k time s) (takeCause c k time s) := by
    unfold takeCause
    dsimp only
    split
    · exact Evolves.refl.applyEntry.rewriteTripArea
    · exact Evolves.refl.rewriteTripArea
  refine work.attention 2 ?_
  unfold recordCause
  dsimp only
  rw [if_pos first]
  generalize note _ _ _ _ _ _ _ _ = u
  show (u.attention ||| attnTrip).getLsbD 2 = true
  rw [BitVec.getLsbD_or]
  exact Bool.or_true _

end

/-- Settles O39: the entry by R130 and R131, the record by R132, and the matrix entry where one applies (R129, R136). -/
theorem causesAreRecordedAndApplied : Obligations.CausesAreRecordedAndApplied := by
  intro c k time s t en ok _ ht hen journals
  obtain ⟨latch, causes, overflow⟩ := takeCause_trip c k time s
  rw [← ht] at latch causes overflow
  rw [recordCause_trip] at causes overflow
  have entry : causeEntry s c k time = en := hen.symm
  rw [entry] at causes overflow
  have coil : (causeEntry s c k time).coil = en.coil := by rw [entry]
  have journal := takeCause_journalled (c := c) (k := k) (time := time) ok
  rw [coil, ← ht] at journal
  have ended : tripOk t := ht ▸ (Evolves.refl (p := ⟨false, false, false, false, false, false⟩)).takeCause.tripOk ok
  refine ⟨latch, ended, fun first => ?_, fun set => ⟨fun listed => ?_, fun unlisted => ⟨fun room => ?_, fun full => ?_⟩⟩,
    fun m e ks run matrix he hks => ?_, fun idle => ?_, ?_, ?_⟩
  · rw [if_pos first] at causes overflow
    exact ⟨causes, overflow, ht ▸ takeCause_attention first⟩
  · rw [if_neg (by rw [set]; nofun), if_pos (isDuplicate_iff.mpr listed)] at causes overflow
    exact ⟨causes, overflow⟩
  · rw [if_neg (by rw [set]; nofun), if_neg (mt isDuplicate_iff.mp (by simpa using unlisted)), if_pos room] at causes overflow
    exact ⟨causes, overflow⟩
  · rw [if_neg (by rw [set]; nofun), if_neg (mt isDuplicate_iff.mp (by simpa using unlisted)), if_neg (by omega)] at causes overflow
    exact ⟨causes, overflow⟩
  · have applies : applyingEntry s c = some e := he ▸ applyingEntry_run run matrix
    have set : standSet e.cascade k s.n = ks := (standSet_eq _ _ _).trans hks.symm
    obtain ⟨entryStop, actions⟩ := takeCause_applied (k := k) (time := time) applies
    rw [← ht, set] at actions
    rw [standsGrown_eq applies, set] at journal
    refine ⟨ht ▸ entryStop, journal, fun form high => ?_, fun j hj => ⟨?_, ?_⟩⟩
    · rw [ht, ← set]
      exact takeCause_ended c k time s e form applies high
    · rw [actions, addActions_get (stand_of hj)]
      rfl
    · rw [ht, takeCause_gap applies (stand_of hj), set]
  · have none : applyingEntry s c = none := applyingEntry_none idle
    have recorded := takeCause_recorded (k := k) (time := time) none
    have grown : standsGrown s c k = 0 := by unfold standsGrown; rw [none]
    rw [grown] at journal
    obtain ⟨actions, entryStop⟩ := recordCause_items (s := s) (c := c) (k := k) (time := time)
    have alone : t = rewriteTripArea (recordCause c k time s) := ht.trans recorded
    have gap : t.gap = s.gap := by rw [alone]; simp
    have exm : t.exm = s.exm := by rw [alone]; simp
    exact ⟨(congrArg (·.trip.actions) alone).trans actions, (congrArg (·.trip.entryStop) alone).trans entryStop, gap, exm, journal⟩
  · obtain ⟨free, area⟩ := takeCause_area (s := s) (c := c) (k := k) (time := time)
    rw [← ht] at area
    exact ⟨_, area, rfl, latch, rfl, rfl, rfl⟩
  · rw [ht]
    simp

/-! ### The external input and the reply check (R124, R125) -/

/-- A cause taken where its condition holds. -/
theorem takeCauses_ite {p : Prop} [Decidable p] {c : Cause} {k : Nat} {time : Clock} {s : State} :
    takeCauses (if p then [(c, k)] else []) time s = if p then takeCause c k time s else s := by
  split <;> rfl

theorem takeCauses_append {a b : List (Cause × Nat)} {time : Clock} {s : State} :
    takeCauses (a ++ b) time s = takeCauses b time (takeCauses a time s) := List.foldl_append

/-- Settles O40: the input's branches by its level and the run level, and the reply check cause by cause. -/
theorem theInputAndTheReplyCheckRaiseTheirCauses : Obligations.TheInputAndTheReplyCheckRaiseTheirCauses := by
  refine ⟨fun dt lvl s u hu => ⟨fun same => ?_, fun other quiet => ?_, fun other trip run => ?_⟩,
    fun k p f flags s s1 s2 s3 h1 h2 h3 => ?_⟩
  · show finish (etripTaken lvl (s.tick dt)) = _
    unfold etripTaken
    rw [if_pos (show (s.tick dt).trip.etrip = lvl from same), hu]
    rfl
  · have taken : etripTaken lvl (s.tick dt) = rewriteTripArea u := by
      unfold etripTaken
      rw [if_neg (show ¬(s.tick dt).trip.etrip = lvl from other), if_neg, hu]
      · rfl
      · rintro ⟨tripped, run⟩
        rcases quiet with healthy | idle
        · rw [healthy] at tripped
          cases tripped
        · exact idle run
    have area : u.tripArea = s.tripArea := by rw [hu]
    have trip : u.trip = { s.trip with etrip := lvl } := by rw [hu]
    refine ⟨(rewriteTripArea u).settled, tripAreaOf u.trip ((u.tripArea.map TripArea.count).getD 0 + 1) (tripAreaFree u), ?_, rfl,
      ?_⟩
    · show finish (etripTaken lvl (s.tick dt)) = _
      rw [taken]
      rfl
    · rw [area, trip]
      exact ⟨rfl, rfl, rfl, rfl, rfl, rfl, rfl, rfl⟩
  · show finish (etripTaken lvl (s.tick dt)) = _
    unfold etripTaken
    rw [if_neg (show ¬(s.tick dt).trip.etrip = lvl from other), if_pos ⟨trip, run⟩, hu]
    rfl
  · unfold replyCheck replyCauses State.vacant
    rw [takeCauses_append, takeCauses_append, takeCauses_ite, takeCauses_ite, takeCauses_ite, ← h1, ← h2, h3]
    simp only [beq_eq_false_iff_ne, ne_eq]

end Sys2Proof.Machine

/-! Proofs for the stand link: the exchange's end with a miss or a reply (R148 to R154), and the sample's expiry (R63). -/

namespace Sys2Proof.Machine

/-! ### The sample's expiry (R63) -/

/-- Settles O46, by the level and the sample's age. -/
theorem samplesExpireAtTheAgeLimit : Obligations.SamplesExpireAtTheAgeLimit := by
  intro dt s
  have tested : exec (.sampleExpiry dt) s =
      if s.polls then finish (expireSample (s.tick dt)) else finish (s.tick dt) := rfl
  have expiry : expireSample (s.tick dt) =
      if s.gauge.held = true ∧ 2 * s.lineCopy.period ≤ (s.clock + dt - s.gauge.time).toNat then
        { s with clock := s.clock + dt, gauge := { s.gauge with held := false } } else s.tick dt := rfl
  have polled : s.polls = true ↔ s.level = .run ∨ s.level = .loopback := by simp [State.polls]
  rw [tested, expiry]
  refine ⟨fun level held old => ?_, fun kept => ?_⟩
  · rw [if_pos (polled.mpr level), if_pos ⟨held, old⟩]
    rfl
  · split
    · rename_i polls
      rw [if_neg]
      · rfl
      · rintro ⟨held, old⟩
        rcases kept with level | level | lost | young
        · simp [State.polls, level] at polls
        · simp [State.polls, level] at polls
        · rw [lost] at held
          cases held
        · omega
    · rfl

/-! ### The open exchange -/

section
variable {s : State} {dt opened began : Clock} {c : Cycle} {e : PollEntry}

theorem windowAge_open (held : ExchangeOpen s c e) (phase : c.phase = .window opened) :
    windowAge (s.tick dt) = some (c, e, (s.clock + dt - opened).toNat) := by
  unfold windowAge
  rw [open_tick dt held]
  dsimp only
  rw [phase]
  rfl

theorem receivingAge_open (held : ExchangeOpen s c e) (phase : c.phase = .receiving began) :
    receivingAge (s.tick dt) = some (c, e, (s.clock + dt - began).toNat) := by
  unfold receivingAge
  rw [open_tick dt held]
  dsimp only
  rw [phase]
  rfl

end

/-- Settles O42: before the close nothing happens, and at it the exchange ends with a miss. -/
theorem windowCloseIsAMiss : Obligations.WindowCloseIsAMiss := by
  intro dt opened prepFirst fall s c e held hfall inside phase
  have run : exec (.replyWindowClose dt prepFirst) s = if s.lineCopy.timeout ≤ (s.clock + dt - opened).toNat then
      finish (endWithMiss e c.late prepFirst (s.tick dt).clock (s.tick dt)) else finish (s.tick dt) := by
    show execReplyWindowClose dt prepFirst s = _
    unfold execReplyWindowClose
    simp only [windowAge_open (dt := dt) held phase]
    rfl
  refine ⟨fun early => ?_, fun due => ?_⟩
  · rw [run, if_neg (show ¬s.lineCopy.timeout ≤ _ from Nat.not_le.mpr early)]
    rfl
  · rw [run, if_pos (show s.lineCopy.timeout ≤ _ from due)]
    obtain ⟨level, cycle, entry⟩ := held
    obtain ⟨clock, level', est, tracker, store, line, position, stations, written, others, gauge⟩ :=
      endWithMiss_spec e c.late prepFirst (s.tick dt).clock (s.tick dt) c inside cycle entry
    obtain ⟨goodRun, missRun, state, prevTime, p, f, flags, since⟩ := missedRecord_parts (s.tick dt) e
    generalize endWithMiss e c.late prepFirst (s.tick dt).clock (s.tick dt) = t at *
    have own : t.settled.station e = missedRecord (s.tick dt) e := (stations e).trans (if_pos rfl)
    rw [← own] at goodRun missRun state prevTime p f flags since
    have fallsSame : falls (s.tick dt) e = fall := hfall.symm
    have stateIf : (t.settled.station e).state = if fall then .silent else (s.station e).state := by
      rw [state, hfall]
      simp only [decide_eq_true_eq]
      rfl
    have sinceIf : (t.settled.station e).silentSince = if fall then s.clock + dt else (s.station e).silentSince := by
      rw [since, hfall]
      simp only [decide_eq_true_eq]
      rfl
    have gaugeIf : t.settled.gauge = _ := gauge.trans (by unfold missedGauge; rw [fallsSame])
    exact ⟨t.settled, rfl, clock, level'.trans level, est, tracker, store, line, position.after ⟨rfl, rfl, rfl, rfl, clock⟩, goodRun, missRun, stateIf, sinceIf, gaugeIf,
      prevTime, p, f, flags, fun e' other => (stations e').trans (if_neg other), written, others⟩

/-! ### The end of an exchange with a received frame (R148, R150) -/

section
variable {s b : State} {now : Clock} {age : Nat} {fin : FrameEnd} {c : Cycle} {e : PollEntry} {fr : List Byte} {cut : Bool}
  {plan : List Work}

theorem exchangeEnds_iff (sound : fin.ok = true) : exchangeEnds age fin = true ↔ (fin = .idle 2 ∧ 2 ≤ age ∨ 16 ≤ age) := by
  cases fin with
  | idle n =>
    have short : n ≤ 2 := of_decide_eq_true sound
    show (decide (n ≤ age) && (decide (2 ≤ n) || decide (16 ≤ age))) = true ↔ _
    simp only [Bool.and_eq_true, Bool.or_eq_true, decide_eq_true_iff, FrameEnd.idle.injEq]
    omega
  | arriving =>
    show (decide (0 ≤ age) && (decide (2 ≤ 0) || decide (16 ≤ age))) = true ↔ _
    simp

theorem tooLong_eq : tooLong age fin = decide (fin = .arriving ∨ 16 < age - idleFor fin) := by
  unfold tooLong replyLimit
  rw [Bool.eq_iff_iff]
  simp only [Bool.or_eq_true, beq_iff_eq, decide_eq_true_iff]
  exact or_congr Iff.rfl (by omega)

theorem workOrder_ok (allowed : planOk plan = true) : workOrder plan = plan := if_pos allowed

theorem frameEnded_miss (allowed : planOk plan = true) (judged : judge e (b.station e).addr fr cut = none) :
    frameEnded c e fr cut plan now b = endWithMiss e c.late (plan.head? == some .nextPoll) now b := by
  unfold frameEnded
  rw [judged, workOrder_ok allowed]

theorem frameEnded_reply {r : Reply} (allowed : planOk plan = true) (judged : judge e (b.station e).addr fr cut = some r) :
    frameEnded c e fr cut plan now b = validReply e r plan c.late now b := by
  unfold frameEnded
  rw [judged, workOrder_ok allowed]

/-- What every end of an exchange leaves, whatever the frame is judged to be. -/
structure ExchangeEnded (c : Cycle) (e : PollEntry) (now : Clock) (b f : State) : Prop where
  clock : f.clock = b.clock
  level : f.level = b.level
  line : f.line = b.line
  position : NextPosition c b (f.atTime now)
  others : ∀ e', e' ≠ e → f.station e' = b.station e'
  written : ∀ k, e = .stand k → ImageWritten k c.late b f

theorem frameEnded_ends (held : ExchangeOpen b c e) (inside : EntryOk e) (allowed : planOk plan = true) :
    ExchangeEnded c e now b (frameEnded c e fr cut plan now b) := by
  obtain ⟨level, cycle, entry⟩ := held
  cases judged : judge e (b.station e).addr fr cut with
  | none =>
    rw [frameEnded_miss allowed judged]
    obtain ⟨clock, level', -, -, -, line, position, stations, written, -, -⟩ :=
      endWithMiss_spec e c.late (plan.head? == some .nextPoll) now b c inside cycle entry
    exact ⟨clock, level', line, position, fun e' other => (stations e').trans (if_neg other), written⟩
  | some r =>
    rw [frameEnded_reply allowed judged]
    have split := plan_split plan allowed
    have next (_ : Work.nextPoll ∈ plan) : b.link.cycle = some c ∧ b.link.pollList ≠ [] := ⟨cycle, poll_ne entry⟩
    cases e with
    | stand k =>
      obtain ⟨p, f, v, flags, rfl⟩ := judge_stand _ _ _ _ _ judged
      obtain ⟨position, -, clock, level', line, others, -, -, -, -, -, -, written, -⟩ :=
        standReply_spec k p f v flags plan c.late now b (inside k rfl) c next level (.inl split)
      exact ⟨clock, level', line, position split, others, fun j hj => by cases hj; exact written⟩
    | gauge =>
      obtain ⟨valid, hx, rfl⟩ := judge_gauge _ _ _ _ judged
      obtain ⟨position, -, clock, level', line, others, -⟩ :=
        gaugeReply_spec valid hx plan c.late now b c next (.inl split)
      exact ⟨clock, level', line, position split, others, fun j hj => nomatch hj⟩

theorem estimateFormed_of {k p f : Nat} {u : State} (inside : 1 ≤ k ∧ k ≤ 8)
    (figures : (u.est.get k).figures = ((s.est.get k).atReply p f).figures) : EstimateFormed k p f s u := by
  unfold EstimateFormed
  rw [show (estimateReply k p f s).est.get k = (s.est.get k).atReply p f from PerStand.get_set_same _ _ _ inside]
  exact Estimate.eq_of_figures figures

end

/-- Settles O43: the time limits, what every end leaves, and then the frame as it is judged. -/
theorem repliesAreJudgedRecordedAndDelivered : Obligations.RepliesAreJudgedRecordedAndDelivered := by
  intro dt began now ended age idle fr fin cut plan s c e held inside phase allowed sound hnow hage hidle hended hcut
  have run : exec (.replyReceived dt fr fin plan) s = if exchangeEnds age fin = true then
      finish ((frameEnded c e fr cut plan now ((s.tick dt).atTime ended)).atTime now) else finish (s.tick dt) := by
    have idleSame : idle = idleFor fin := by rw [hidle]; cases fin <;> rfl
    have endedSame : frameTime (s.tick dt).clock fin = ended := by rw [hended, hnow, idleSame]; rfl
    have cutSame : tooLong age fin = cut := by rw [tooLong_eq, hcut, idleSame]
    show execReplyReceived dt fr fin plan s = _
    unfold execReplyReceived
    simp only [receivingAge_open (dt := dt) held phase]
    rw [endedSame, ← hnow, ← hage, cutSame, hnow]
    rfl
  refine ⟨fun early => ?_, fun due => ?_⟩
  · rw [run, if_neg (mt (exchangeEnds_iff sound).mp early)]
    rfl
  · rw [run, if_pos ((exchangeEnds_iff sound).mpr due)]
    dsimp only
    obtain ⟨b, hb⟩ : ∃ b, b = (s.tick dt).atTime ended := ⟨_, rfl⟩
    have heldB : ExchangeOpen b c e := hb ▸ held
    obtain ⟨clock, level, line, position, others, written⟩ :=
      frameEnded_ends (now := now) (fr := fr) (cut := cut) heldB inside allowed
    have next (_ : Work.nextPoll ∈ plan) : b.link.cycle = some c ∧ b.link.pollList ≠ [] := ⟨heldB.2.1, poll_ne heldB.2.2⟩
    have split := plan_split plan allowed
    obtain ⟨f, hf⟩ : ∃ f, f = frameEnded c e fr cut plan now b := ⟨_, rfl⟩
    have missed := frameEnded_miss (now := now) (fr := fr) (c := c) (e := e) (cut := cut) (b := b) allowed
    have replied := fun r => frameEnded_reply (now := now) (fr := fr) (c := c) (e := e) (cut := cut) (b := b) (r := r) allowed
    rw [← hf] at clock level line position others written missed replied
    rw [← hb, ← hf]
    clear hf
    subst hb
    refine ⟨(f.atTime now).settled, rfl, rfl, level.trans heldB.1, line, position, others, fun k hk => ?_,
      fun judged falls hfalls => ?_, fun k p F v flags hk judged => ?_, fun valid hx hk judged => ?_⟩
    · exact (written k hk).after (t := (f.atTime now).settled.atTime ended) rfl clock.symm rfl
    · obtain ⟨-, -, est, tracker, -, -, -, stations, -, -, gauge⟩ :=
        endWithMiss_spec e c.late (plan.head? == some .nextPoll) now ((s.tick dt).atTime ended) c inside heldB.2.1 heldB.2.2
      obtain ⟨goodRun, missRun, state, prevTime, P, F, flags, since⟩ := missedRecord_parts ((s.tick dt).atTime ended) e
      rw [← missed judged] at est tracker stations gauge
      have own : (f.atTime now).settled.station e = missedRecord ((s.tick dt).atTime ended) e := (stations e).trans (if_pos rfl)
      rw [← own] at goodRun missRun state prevTime P F flags since
      have stateIf : ((f.atTime now).settled.station e).state = if falls then .silent else (s.station e).state := by
        rw [state, hfalls]
        simp only [decide_eq_true_eq]
        rfl
      have sinceIf : ((f.atTime now).settled.station e).silentSince = if falls then ended else (s.station e).silentSince := by
        rw [since, hfalls]
        simp only [decide_eq_true_eq]
        rfl
      have fallsSame : Machine.falls ((s.tick dt).atTime ended) e = falls := hfalls.symm
      refine ⟨goodRun, missRun, stateIf, sinceIf, prevTime, P, F, flags, est, tracker, ?_⟩
      rw [Bool.and_right_comm]
      exact gauge.trans (by unfold missedGauge; rw [fallsSame]; rfl)
    · subst hk
      obtain ⟨-, -, -, -, -, -, goodRun, missRun, P, F', V, Flags, -, waits, delivers⟩ :=
        standReply_spec k p F v flags plan c.late now ((s.tick dt).atTime ended) (inside k rfl) c next heldB.1 (.inl split)
      rw [← replied _ judged] at goodRun missRun P F' V Flags waits delivers
      refine ⟨goodRun, missRun, P, F', V, Flags, waits, fun enough => ?_⟩
      obtain ⟨present, prevTime, -, vDelivered, figures, ready⟩ := delivers enough
      exact ⟨present, prevTime, vDelivered, estimateFormed_of (inside k rfl) figures, ready⟩
    · subst hk
      obtain ⟨-, -, -, -, -, -, goodRun, missRun, V, H, est, tracker, sampled, joined, tested, joinedTested, waits, delivers⟩ :=
        gaugeReply_spec valid hx plan c.late now ((s.tick dt).atTime ended) c next (.inl split)
      rw [← replied _ judged] at goodRun missRun V H est tracker sampled joined tested joinedTested waits delivers
      refine ⟨goodRun, missRun, V, H, est, tracker, waits, fun enough => ?_⟩
      obtain ⟨present, prevTime, -⟩ := delivers enough
      refine ⟨present, prevTime, fun was quiet => ?_, fun was => ?_⟩
      · cases valid
        · exact tested was rfl
        · exact sampled was rfl quiet
      · cases valid
        · exact joinedTested was enough rfl
        · exact (joined was enough).2 rfl

end Sys2Proof.Machine

/-! Proofs for the stations that fall silent and that rejoin (R119, R152, R154). -/

namespace Sys2Proof.Machine

/-! ### What a cause makes of the Trip Unit and the journal -/

section
variable {s u : State} {c : Cause} {k : Nat} {time : Clock}

/-- What taking a cause reads: the Trip Unit's items, the level, N, the Tracker's records and the journal. -/
structure SameCauses (s u : State) : Prop where
  trip : u.trip = s.trip
  level : u.level = s.level
  line : u.line = s.line
  tracker : u.tracker = s.tracker
  journal : u.journal = s.journal

theorem SameCauses.applies (same : SameCauses s u) : applyingEntry u c = applyingEntry s c := by
  unfold applyingEntry
  rw [same.trip, same.level]

theorem SameCauses.n (same : SameCauses s u) : u.n = s.n := by
  unfold State.n State.lineCopy
  rw [same.line]

theorem SameCauses.entry (same : SameCauses s u) : causeEntry u c k time = causeEntry s c k time := by
  unfold causeEntry State.thread
  rw [same.tracker]

theorem SameCauses.recorded (same : SameCauses s u) : (recordCause c k time u).trip = (recordCause c k time s).trip := by
  rw [recordCause_trip, recordCause_trip, same.entry]
  unfold isDuplicate
  rw [same.trip]

theorem takeCause_trip_none (idle : applyingEntry s c = none) : (takeCause c k time s).trip = (recordCause c k time s).trip := by
  rw [takeCause_recorded idle]
  rfl

theorem takeCause_trip_some {e : MatrixEntry} (applies : applyingEntry s c = some e) :
    (takeCause c k time s).trip = { (recordCause c k time s).trip with
      actions := addActions (standSet e.cascade k s.n) e.actions (recordCause c k time s).trip.actions
      entryStop := (recordCause c k time s).trip.entryStop || e.entryStop } := by
  unfold takeCause
  rw [applies]
  dsimp only
  rw [rewriteTripArea_trip]
  unfold applyEntry
  dsimp only
  rw [foldl_keeps (·.trip) (by simp)]

/-- A cause taken leaves the same trip record and the same journal in states that agree on what it reads. -/
theorem SameCauses.taken (same : SameCauses s u) : (takeCause c k time u).trip = (takeCause c k time s).trip ∧
    (takeCause c k time u).journal = (takeCause c k time s).journal := by
  constructor
  · cases applies : applyingEntry s c with
    | none => rw [takeCause_trip_none applies, takeCause_trip_none (same.applies.trans applies), same.recorded]
    | some e =>
      rw [takeCause_trip_some applies, takeCause_trip_some (same.applies.trans applies), same.recorded, same.n]
  · have grown : standsGrown u c k = standsGrown s c k := by
      unfold standsGrown
      rw [same.applies, same.n, same.trip]
    rw [takeCause_journal, takeCause_journal, recordCause_journalled, recordCause_journalled, same.entry, grown]
    unfold isDuplicate
    rw [same.trip]
    exact journalled_congr _ same.journal

end

/-! ### A station falls silent (R152) -/

section
variable {s : State} {k : Nat} {late : Bool} {e : PollEntry}

/-- The record of the silence, and the station's record, before what becomes of the stand or of the sample. -/
def silenced (e : PollEntry) (s : State) : State :=
  note .stationSilent (entryStand s e) s.clock (entryCoil s e) (BitVec.ofNat 16 (s.station e).addr)
    (BitVec.ofNat 16 (s.station e).missRun) ((s.station e).prevTime.elim 65535 (msSince s))
    (s.withStation e { s.station e with state := .silent, silentSince := s.clock })

/-- The station's record at the miss, but for its state. -/
def missedAt (e : PollEntry) (s : State) : State := s.withStation e (((s.station e).missed).undelivered s.clock)

theorem falls_iff : falls s e = true ↔ (((s.station e).missed).undelivered s.clock).state = .present ∧
    stateMissed s.lineCopy.silentCount (((s.station e).missed).undelivered s.clock) = .silent := by
  unfold falls stateMissed
  rw [decide_eq_true_iff]
  show (s.station e).state = .present ∧ _ ↔ (s.station e).state = .present ∧ _
  refine and_congr_right fun present => ?_
  rw [show (((s.station e).missed).undelivered s.clock).state = .present from present]
  show _ ↔ (if _ then StationState.silent else .present) = .silent
  split
  · exact iff_of_true ‹_› rfl
  · exact iff_of_false ‹_› nofun

theorem missReply_stand_falls (fall : falls s (.stand k) = true) :
    missReply (.stand k) late s = writeImage k late (becomeSilent (.stand k) (missedAt (.stand k) s)) := by
  unfold missReply missedAt
  dsimp only
  rw [if_pos (falls_iff.mp fall)]

theorem missReply_gauge_falls (fall : falls s .gauge = true) :
    missReply .gauge late s = expireSample (gaugeSilent (silenced .gauge (missedAt .gauge s))) := by
  unfold missReply missedAt
  dsimp only
  rw [if_pos (falls_iff.mp fall)]
  rfl

theorem becomeSilent_stand : becomeSilent (.stand k) s = endMove k .station true
    (if s.level = .run ∧ s.vacant k = false then takeCause .stationSilent k s.clock (silenced (.stand k) s)
      else silenced (.stand k) s) := rfl

theorem entryOk_stand (inside : 1 ≤ k ∧ k ≤ 8) : EntryOk (.stand k) := fun j hj => by cases hj; exact inside

/-- The record of the miss that silences a station (R152, log 22). -/
def silentRecord (e : PollEntry) (s : State) : JournalRecord :=
  { kind := .stationSilent, stand := entryStand s e, time := s.clock, coil := entryCoil s e,
    v1 := BitVec.ofNat 16 (s.station e).addr, v2 := BitVec.ofNat 16 (min ((s.station e).missRun + 1) 7),
    v3 := (s.station e).prevTime.elim 65535 (msSince s) }

theorem missedAt_station (inside : EntryOk e) : (missedAt e s).station e = ((s.station e).missed).undelivered s.clock :=
  (station_withStation e e _ inside).trans (if_pos rfl)

/-- The silence's record is the only one that falls due, and the other blocks stand as they were. -/
theorem silenced_frame (inside : EntryOk e) : ∃ x, silenced e (missedAt e s) = x ∧ x.clock = s.clock ∧ x.level = s.level ∧
    x.trip = s.trip ∧ x.gap = s.gap ∧ x.est = s.est ∧ x.exm = s.exm ∧ x.orders = s.orders ∧ x.tracker = s.tracker ∧
    x.line = s.line ∧ x.gauge = s.gauge ∧ x.images = s.images ∧ x.journal = journalled [silentRecord e s] s := by
  refine ⟨_, rfl, ?_, ?_, ?_, ?_, ?_, ?_, ?_, ?_, ?_, ?_, ?_, ?_⟩
  case refine_12 =>
    unfold silenced note
    rw [missedAt_station inside]
    have record (x : JournalRecord) (same : x = silentRecord e s) (u : State) (before : u.journal = s.journal) :
        (journal x u).journal = journalled [silentRecord e s] s := by
      rw [same]
      exact journal_congr _ before
    refine record _ ?_ _ ?_
    · cases e <;> rfl
    · cases e <;> rfl
  all_goals
    unfold silenced missedAt
    simp

theorem sameCauses_silenced (inside : EntryOk e) {u : State} (hu : u = { s with journal := journalled [silentRecord e s] s }) :
    SameCauses u (silenced e (missedAt e s)) := by
  obtain ⟨x, hx, -, level, trip, -, -, -, -, tracker, line, -, -, journal⟩ := silenced_frame (s := s) inside
  rw [hx, hu]
  exact ⟨trip, level, line, tracker, journal⟩

theorem retired_exm {p cls detail : Nat} {value : Word} {s' t u : State} (retired : Retired p cls detail value s t)
    (before : s'.exm = s.exm) (same : u.exm = t.exm) : Retired p cls detail value s' u := by
  obtain ⟨state, class_, det, val, others⟩ := retired
  rw [← same] at state class_ det val others
  rw [← before] at others
  exact ⟨state, class_, det, val, others⟩

theorem retireLong_gap {r : Result} : (retireLong k r s).gap = s.gap := by simp

theorem standSet_stand {l : Cascade} {n : Nat} (inside : 1 ≤ k ∧ k ≤ 8) : standSet l k n = (match l with
    | .none => [k]
    | .upstream => standsTo k
    | .all => standsTo n) := by
  cases l with
  | none => exact if_neg (show ¬k = 0 by omega)
  | upstream => exact if_neg (show ¬k = 0 by omega)
  | all => rfl

theorem own_mem_standSet {l : Cascade} {n : Nat} (inside : 1 ≤ k ∧ k ≤ 8) (upTo : k ≤ n) : k ∈ standSet l k n := by
  rw [standSet_stand inside]
  cases l
  · exact List.mem_singleton.mpr rfl
  · exact (mem_standsTo _ _).mpr ⟨inside.1, inside.2, le_rfl⟩
  · exact (mem_standsTo _ _).mpr ⟨inside.1, inside.2, upTo⟩

/-- What the silencing of a stand that is not VACANT leaves: the cause taken, and with a matrix its moves ended (R119, R152). -/
theorem missReply_loaded {u : State} (inside : 1 ≤ k ∧ k ≤ 8) (run : s.level = .run) (fall : falls s (.stand k) = true)
    (loaded : (s.thread k).state ≠ .vacant) (hu : u = { s with journal := journalled [silentRecord (.stand k) s] s }) :
    (missReply (.stand k) late s).trip = (takeCause .stationSilent k s.clock u).trip ∧
    (missReply (.stand k) late s).journal = (takeCause .stationSilent k s.clock u).journal ∧
    ∀ m, s.trip.matrix = some m → k ≤ s.n → memoryOk s → ∀ e, e = m.getD (Cause.stationSilent.code - 1) {} →
      MovesEnded (standSet e.cascade k s.n) 1 s (missReply (.stand k) late s) ∧
      ∀ j, j ∉ standSet e.cascade k s.n → (missReply (.stand k) late s).gap.get j = s.gap.get j := by
  obtain ⟨x, hx, clock, level, trip, gap, est, exm, orders, tracker, line, -⟩ :=
    silenced_frame (s := s) (entryOk_stand inside)
  have same := (sameCauses_silenced (entryOk_stand inside) hu).taken (c := .stationSilent) (k := k) (time := s.clock)
  rw [hx] at same
  have before : (missedAt (.stand k) s).clock = s.clock ∧ (missedAt (.stand k) s).level = s.level ∧
      (missedAt (.stand k) s).vacant k = false := by
    have vacancy : s.vacant k = false := by simpa [State.vacant] using loaded
    exact ⟨rfl, rfl, vacancy⟩
  rw [missReply_stand_falls fall, becomeSilent_stand, before.1, hx, if_pos ⟨before.2.1.trans run, before.2.2⟩]
  refine ⟨?_, ?_, fun m matrix upTo form e he => ?_⟩
  · rw [← same.1]
    simp
  · rw [← same.2]
    simp
  · have applies : applyingEntry x .stationSilent = some e := by
      rw [he]
      exact applyingEntry_run (level.trans run) (trip ▸ matrix)
    have n : x.n = s.n := by unfold State.n State.lineCopy; rw [line]
    have formX : memoryOk x := by unfold memoryOk; rw [exm]; exact form
    have ended := takeCause_ended .stationSilent k s.clock x e formX applies inside.2
    have terms := fun {j} => takeCause_gap (s := x) (k := k) (time := s.clock) applies (j := j)
    rw [n] at ended terms
    have gone : ((takeCause .stationSilent k s.clock x).gap.get k).move = .none := by
      rw [terms inside, if_pos (own_mem_standSet inside upTo)]
    rw [endMove_none _ _ _ _ gone]
    refine ⟨ended.of_same gap (congrArg _ orders) exm est, fun j other => ?_⟩
    show (takeCause .stationSilent k s.clock x).gap.get j = _
    by_cases stand : 1 ≤ j ∧ j ≤ 8
    · rw [terms stand, if_neg other, gap]
    · rw [PerStand.get_outside _ _ stand, PerStand.get_outside _ _ stand]

/-- What the silencing of a VACANT stand leaves: the trip record, and its move ended, a preset into HOLD (R119, R152). -/
theorem missReply_vacant (inside : 1 ≤ k ∧ k ≤ 8) (fall : falls s (.stand k) = true) (vacant : (s.thread k).state = .vacant) :
    (missReply (.stand k) late s).trip = s.trip ∧
    (missReply (.stand k) late s).journal = journalled [silentRecord (.stand k) s] s ∧
    ((s.gap.get k).move.inFlight = false → (missReply (.stand k) late s).gap = s.gap ∧
      (missReply (.stand k) late s).exm = s.exm ∧ (missReply (.stand k) late s).orders = s.orders) ∧
    ((s.gap.get k).move.inFlight = true →
      (missReply (.stand k) late s).gap = s.gap.set k { s.gap.get k with
        move := match (s.gap.get k).move with | .preset .. => .hold (s.gap.get k).base | _ => .none } ∧
      ∀ q detail value, memoryOk s → s.orders.inFlight.get k = some q → abortedAs 6 k s = some (detail, value) →
        Retired q 2 detail value s (missReply (.stand k) late s) ∧
        (missReply (.stand k) late s).attention.getLsbD 0 = true ∧
        (missReply (.stand k) late s).orders = { s.orders with inFlight := s.orders.inFlight.set k none }) := by
  obtain ⟨x, hx, clock, level, trip, gap, est, exm, orders, tracker, line, -, -, journal⟩ :=
    silenced_frame (s := s) (entryOk_stand inside)
  have vacancy : s.vacant k = true := by simpa [State.vacant] using vacant
  have vacant' : (missedAt (.stand k) s).vacant k = true := vacancy
  rw [missReply_stand_falls fall, becomeSilent_stand, hx, if_neg (by rw [vacant']; rintro ⟨-, h⟩; cases h)]
  refine ⟨?_, ?_, fun quiet => ?_, fun moving => ?_⟩
  · rw [← trip]
    simp
  · rw [← journal]
    simp
  · have none : endedResult .station k x = none := by
      rw [endedResult_eq (s := s) .station (by rw [gap]) est]
      have some_ := endedResult_isSome .station k s
      rw [quiet] at some_
      exact Option.isSome_eq_false_iff.mp some_ |> Option.isNone_iff_eq_none.mp
    rw [endMove_stays, none]
    exact ⟨gap, exm, orders⟩
  · have atEnd := endedResult_eq (s := s) (t := x) (k := k) .station (by rw [gap]) est
    obtain ⟨r, hr⟩ := Option.isSome_iff_exists.mp ((endedResult_isSome .station k s).trans moving)
    rw [endMove_stays, atEnd, hr]
    dsimp only
    refine ⟨?_, fun q detail value form entered aborted => ?_⟩
    · have vacantX : x.vacant k = true := by
        rw [← vacancy]
        unfold State.vacant State.thread
        rw [tracker]
      rw [writeImage_gap, withMove_gap, retireLong_gap]
      unfold holdAtBase
      rw [gap, vacantX]
      cases (s.gap.get k).move <;> rfl
    · rw [show (6 : Nat) = AbortDetail.station.code from rfl, abortedAs_eq, hr] at aborted
      cases aborted
      have retired := retired_of q r s form
      rw [endedResult_class hr] at retired
      have long : retireLong k r x = retire q r { x with orders := { x.orders with inFlight := x.orders.inFlight.set k none } } := by
        unfold retireLong
        rw [orders, entered]
      rw [long]
      refine ⟨retired_exm retired rfl ?_, ?_, ?_⟩
      · show writeResult x.exm q r = _
        rw [exm]
      · show (x.attention ||| attnOrder).getLsbD 0 = true
        rw [BitVec.getLsbD_or]
        exact Bool.or_true _
      · show { x.orders with inFlight := x.orders.inFlight.set k none } = _
        rw [orders]

/-- What the silencing of the gauge leaves: its sample gone, the record, and nothing of the other blocks (R152). -/
theorem missReply_gauge_frame (fall : falls s .gauge = true) :
    (missReply .gauge late s).trip = s.trip ∧ (missReply .gauge late s).gap = s.gap ∧ (missReply .gauge late s).exm = s.exm ∧
    (missReply .gauge late s).orders = s.orders ∧ (missReply .gauge late s).images = s.images ∧
    (missReply .gauge late s).journal = journalled [silentRecord .gauge s] s := by
  obtain ⟨x, hx, -, -, trip, gap, -, exm, orders, -, -, -, images, journal⟩ :=
    silenced_frame (s := s) (e := .gauge) fun _ h => nomatch h
  rw [missReply_gauge_falls fall, hx, ← trip, ← gap, ← exm, ← orders, ← images, ← journal]
  simp

theorem missedRecord_falls (fall : falls s e = true) : missedRecord s e = { s.station e with
    state := .silent, silentSince := s.clock, goodRun := 0, missRun := min ((s.station e).missRun + 1) 7,
    saturated := (missedRecord s e).saturated } := by
  unfold missedRecord
  dsimp only
  rw [if_pos (falls_iff.mp fall)]
  rfl

end

/-- Settles O44: the miss that silences the station by its kind and thread state, and the long gap. -/
theorem stationsFallSilent : Obligations.StationsFallSilent := by
  intro dt now e s u run listed inside hnow hu
  subst hnow
  have served : servedAtRun (s.tick dt) e = true := by
    unfold servedAtRun
    rw [show (s.tick dt).level = .run from run]
    exact List.contains_iff_mem.mpr listed
  refine ⟨fun present reached => ?_, ?_⟩
  · have fall : falls (s.tick dt) e = true := decide_eq_true ⟨present, reached⟩
    have due : silenceDue (s.tick dt) e = true := by
      have silent : stateMissed (s.tick dt).lineCopy.silentCount ((s.tick dt).station e).missed = .silent := (falls_iff.mp fall).2
      have state : ((s.tick dt).station e).state = .present := present
      unfold silenceDue
      rw [served, silent, state]
      rfl
    have silent : exec (.stationSilent dt e) s = finish (missReply e (lateNow (s.tick dt)) (s.tick dt)) := by
      show execStationSilent dt e s = _
      unfold execStationSilent
      exact if_pos due
    have journal : journalled [silentRecord e (s.tick dt)] (s.tick dt) = u.journal := by
      rw [hu]
      exact (journalled_congr _ (s := s.tick dt) (t := s) rfl).trans (by cases e <;> rfl)
    have same : SameCauses u { s.tick dt with journal := journalled [silentRecord e (s.tick dt)] (s.tick dt) } := by
      rw [journal, hu]
      exact ⟨rfl, rfl, rfl, rfl, rfl⟩
    obtain ⟨cycle, stations, written, images⟩ := missReply_spec (s := s.tick dt) e (lateNow (s.tick dt)) inside
    have gauge := missReply_gauge e (lateNow (s.tick dt)) (s.tick dt)
    have record := missedRecord_falls fall
    have kept : (missReply e (lateNow (s.tick dt)) (s.tick dt)).clock = s.clock + dt ∧
        (missReply e (lateNow (s.tick dt)) (s.tick dt)).level = s.level ∧
        (missReply e (lateNow (s.tick dt)) (s.tick dt)).est = s.est ∧
        (missReply e (lateNow (s.tick dt)) (s.tick dt)).tracker = s.tracker ∧
        (missReply e (lateNow (s.tick dt)) (s.tick dt)).store = s.store ∧
        (missReply e (lateNow (s.tick dt)) (s.tick dt)).line = s.line := by
      simp
    obtain ⟨clock, level, est, tracker, store, line⟩ := kept
    have own : (missReply e (lateNow (s.tick dt)) (s.tick dt)).station e = missedRecord (s.tick dt) e :=
      (stations e).trans (if_pos rfl)
    rw [← own] at record
    rw [silent]
    refine ⟨_, rfl, clock, est, tracker, cycle.2.1, level.trans run, store, line, ?_, fun e' other => (stations e').trans (if_neg other),
      fun he => ?_, fun k hk => ⟨?_, ?_, fun loaded => ?_, fun vacant => ?_⟩⟩
    · exact record
    · subst he
      obtain ⟨trip, gap, exm, orders, areas, record'⟩ := missReply_gauge_frame (late := lateNow (s.tick dt)) fall
      refine ⟨?_, trip, gap, exm, orders, areas, record'.trans journal⟩
      refine gauge.trans ?_
      unfold missedGauge
      rw [if_pos rfl, fall, Bool.or_true, Bool.not_true, Bool.and_false, Bool.false_and]
      rfl
    · subst hk
      exact gauge
    · exact written k hk
    · subst hk
      have taken := same.taken (c := .stationSilent) (k := k) (time := (s.tick dt).clock)
      obtain ⟨trip, record', ends⟩ := missReply_loaded (s := s.tick dt) (late := lateNow (s.tick dt)) (inside k rfl) run fall loaded rfl
      refine ⟨trip.trans taken.1, record'.trans taken.2, fun m ks matrix upTo form hks => ?_⟩
      obtain ⟨ended, others⟩ := ends m matrix upTo form _ rfl
      rw [show standSet _ k (s.tick dt).n = ks from (standSet_stand (inside k rfl)).trans hks.symm] at ended others
      exact ⟨ended, others⟩
    · subst hk
      obtain ⟨trip, record', quiet, moving⟩ :=
        missReply_vacant (s := s.tick dt) (late := lateNow (s.tick dt)) (inside k rfl) fall vacant
      refine ⟨trip, record'.trans journal, quiet, fun inFlight => ?_⟩
      obtain ⟨gap, ends⟩ := moving inFlight
      refine ⟨gap, fun q detail value form entered aborted => ?_⟩
      obtain ⟨retired, attention, orders⟩ := ends q detail value form entered aborted
      exact ⟨retired_exm retired rfl rfl, attention, orders⟩
  · have saturates : exec (.elapsedSaturated dt e) s =
        finish ((s.tick dt).withStation e (((s.tick dt).station e).undelivered (s.tick dt).clock)) := by
      show execElapsedSaturated dt e s = _
      unfold execElapsedSaturated
      exact if_pos served
    rw [saturates]
    have long : ((s.tick dt).station e).undelivered (s.tick dt).clock = { s.station e with
        saturated := (s.station e).saturated ||
          (s.station e).prevTime.elim false fun t => decide (100000 ≤ (s.clock + dt - t).toNat) } := by
      show { s.station e with saturated := (s.station e).saturated || (s.station e).longSince (s.clock + dt) } = _
      unfold Station.longSince
      cases (s.station e).prevTime <;> rfl
    rw [long]
    rfl

/-! ### A station rejoins (R152) -/

section
variable {s : State} {k : Nat} {e : PollEntry} {r : Reply} {plan : List Work} {late : Bool} {now : Clock}

/-- The station's record at a valid reply, but for its state. -/
def answeredAt (e : PollEntry) (r : Reply) (s : State) : State := s.withStation e ((s.station e).answered.withReply r)

/-- The record of the valid reply that makes a silent station PRESENT (R152, log 45). -/
def rejoinRecord (e : PollEntry) (s : State) : JournalRecord :=
  { kind := .stationRejoined, stand := entryStand s e, time := s.clock, coil := entryCoil s e,
    v1 := BitVec.ofNat 16 (s.station e).addr, v2 := BitVec.ofNat 16 (min ((s.station e).goodRun + 1) 7),
    v3 := msSince s (s.station e).silentSince }

theorem answeredAt_station (inside : EntryOk e) : (answeredAt e r s).station e = (s.station e).answered.withReply r :=
  (station_withStation e e _ inside).trans (if_pos rfl)

/-- The record of the rejoin is the only one that falls due before the delivery. -/
theorem becomePresent_journal (inside : EntryOk e) (silent : (s.station e).state = .silent) :
    (becomePresent e (answeredAt e r s)).journal = journalled [rejoinRecord e s] s := by
  have state : ((answeredAt e r s).station e).state = .silent := by
    rw [answeredAt_station inside]
    cases r <;> exact silent
  have record (x : JournalRecord) (same : x = rejoinRecord e s) (u : State) (before : u.journal = s.journal) :
      (journal x u).journal = journalled [rejoinRecord e s] s := by
    rw [same]
    exact journal_congr _ before
  have noted : (becomePresent e (answeredAt e r s)).journal =
      (note .stationRejoined (entryStand (answeredAt e r s) e) (answeredAt e r s).clock (entryCoil (answeredAt e r s) e)
        (BitVec.ofNat 16 ((answeredAt e r s).station e).addr) (BitVec.ofNat 16 ((answeredAt e r s).station e).goodRun)
        (msSince (answeredAt e r s) ((answeredAt e r s).station e).silentSince)
        ((answeredAt e r s).withStation e { (answeredAt e r s).station e with state := .present })).journal := by
    unfold becomePresent
    dsimp only
    rw [if_pos state]
    cases e with
    | stand k => dsimp only; split <;> simp
    | gauge => dsimp only; simp
  rw [noted, answeredAt_station inside]
  unfold note
  refine record _ ?_ _ ?_
  · cases e <;> cases r <;> rfl
  · cases e <;> rfl

theorem validReply_rejoins (silent : (s.station e).state = .silent)
    (enough : s.lineCopy.rejoinCount ≤ min ((s.station e).goodRun + 1) 7) :
    stateAnswered s.lineCopy.rejoinCount ((s.station e).answered.withReply r) = .present ∧
      ((s.station e).answered.withReply r).state = .silent := by
  have state : ((s.station e).answered.withReply r).state = .silent := by cases r <;> exact silent
  have run : ((s.station e).answered.withReply r).goodRun = min ((s.station e).goodRun + 1) 7 := by cases r <;> rfl
  refine ⟨?_, state⟩
  unfold stateAnswered
  rw [state, run]
  exact if_pos enough

theorem validReply_stand {p f v : Nat} {flags : ReplyFlags} (silent : (s.station (.stand k)).state = .silent)
    (enough : s.lineCopy.rejoinCount ≤ min ((s.station (.stand k)).goodRun + 1) 7) :
    validReply (.stand k) (.stand p f v flags) plan late now s =
      deliverStand k p f v flags plan late now (becomePresent (.stand k) (answeredAt (.stand k) (.stand p f v flags) s)) := by
  obtain ⟨present, state⟩ := validReply_rejoins (r := .stand p f v flags) silent enough
  unfold validReply answeredAt
  dsimp only
  rw [if_pos present, if_neg (by rw [state]; nofun)]

theorem validReply_gauge {valid : Bool} {hx : Nat} (silent : (s.station .gauge).state = .silent)
    (enough : s.lineCopy.rejoinCount ≤ min ((s.station .gauge).goodRun + 1) 7) (quiet : Work.nextPoll ∉ plan) :
    (validReply .gauge (.gauge valid hx) plan late now s).journal = journalled [rejoinRecord .gauge s] s := by
  obtain ⟨present, state⟩ := validReply_rejoins (r := .gauge valid hx) silent enough
  rw [← becomePresent_journal (e := .gauge) (r := .gauge valid hx) (fun _ h => nomatch h) silent]
  unfold validReply answeredAt onlyNextPoll
  dsimp only
  rw [if_pos present, if_neg (by simpa using quiet), if_neg (by rw [state]; nofun)]
  simp

/-- The delivery adds records to the journal and takes none away. -/
theorem deliverStand_journalled {p f v : Nat} {flags : ReplyFlags} :
    ∃ rs, (deliverStand k p f v flags plan late now s).journal = journalled rs s := by
  have working : Evolves.Working { Permit.none with track := true } s := ⟨rfl, rfl, fun _ => rfl⟩
  exact (Evolves.refl.deliverStand working).journalled rfl

end

/-- Settles O45: the record of the rejoin first, and then the delivery of the reply by the station's kind. -/
theorem silentStationsRejoin : Obligations.SilentStationsRejoin := by
  intro dt now e r plan s rejoined run listed inside fits silent enough allowed hnow hrejoined
  subst hnow
  have served : servedAtRun (s.tick dt) e = true := by
    unfold servedAtRun
    rw [show (s.tick dt).level = .run from run]
    exact List.contains_iff_mem.mpr listed
  have due : rejoinDue (s.tick dt) e = true := by
    have answers : stateAnswered (s.tick dt).lineCopy.rejoinCount ((s.tick dt).station e).answered = .present := by
      unfold stateAnswered
      rw [show (((s.tick dt).station e).answered).state = .silent from silent]
      exact if_pos enough
    unfold rejoinDue
    rw [served, answers, show ((s.tick dt).station e).state = .silent from silent]
    rfl
  have rejoins : exec (.stationRejoined dt e r plan) s =
      finish (validReply e r (plan.filter (· != .nextPoll)) (lateNow (s.tick dt)) (s.tick dt).clock (s.tick dt)) := by
    show execStationRejoined dt e r plan s = _
    unfold execStationRejoined
    rw [workOrder_ok allowed]
    exact if_pos ⟨due, fits⟩
  have quiet : Work.nextPoll ∉ plan.filter (· != .nextPoll) := by simp
  have record : journalled [rejoinRecord e (s.tick dt)] (s.tick dt) = journalled [rejoined] s :=
    (journalled_congr _ (s := s.tick dt) (t := s) rfl).trans (by rw [hrejoined]; cases e <;> rfl)
  rw [rejoins]
  cases e with
  | stand k =>
    obtain ⟨p, f, v, flags, rfl⟩ : ∃ p f v flags, r = .stand p f v flags := by
      cases r with
      | stand p f v flags => exact ⟨p, f, v, flags, rfl⟩
      | gauge => cases fits
    obtain ⟨-, cycle, clock, level, -, others, goodRun, missRun, -, -, -, -, written, -, delivers⟩ :=
      standReply_spec k p f v flags (plan.filter (· != .nextPoll)) (lateNow (s.tick dt)) (s.tick dt).clock (s.tick dt)
        (inside k rfl) default (fun h => absurd h quiet) run (.inr quiet)
    obtain ⟨present, prevTime, saturated, -, figures, ready⟩ := delivers (.inr enough)
    have taken := validReply_stand (s := s.tick dt) (k := k) (p := p) (f := f) (v := v) (flags := flags)
      (plan := plan.filter (· != .nextPoll)) (late := lateNow (s.tick dt)) (now := (s.tick dt).clock) silent enough
    obtain ⟨rs, delivered⟩ := deliverStand_journalled (k := k) (p := p) (f := f) (v := v) (flags := flags)
      (plan := plan.filter (· != .nextPoll)) (late := lateNow (s.tick dt)) (now := (s.tick dt).clock)
      (s := becomePresent (.stand k) (answeredAt (.stand k) (.stand p f v flags) (s.tick dt)))
    have first := becomePresent_journal (s := s.tick dt) (e := .stand k) (r := .stand p f v flags) inside silent
    rw [journalled_append _ _ _ _ (first.trans record), ← taken] at delivered
    refine ⟨_, rfl, clock, cycle quiet, present, goodRun, missRun, prevTime, saturated, others, ⟨rs, delivered, nofun⟩,
      fun j p' f' v' flags' hj hr => ?_, fun _ _ he => nomatch he⟩
    cases hj
    cases hr
    refine ⟨ready ?_, estimateFormed_of (s := s) (inside k rfl) figures, written⟩
    rw [show ((s.tick dt).station (.stand k)).state = .silent from silent]
    nofun
  | gauge =>
    obtain ⟨valid, hx, rfl⟩ : ∃ valid hx, r = .gauge valid hx := by
      cases r with
      | stand => cases fits
      | gauge valid hx => exact ⟨valid, hx, rfl⟩
    obtain ⟨-, cycle, clock, level, -, others, goodRun, missRun, -, -, est, tracker, -, joined, -, -, -, delivers⟩ :=
      gaugeReply_spec valid hx (plan.filter (· != .nextPoll)) (lateNow (s.tick dt)) (s.tick dt).clock (s.tick dt) default
        (fun h => absurd h quiet) (.inr quiet)
    obtain ⟨present, prevTime, saturated⟩ := delivers (.inr enough)
    have journal := validReply_gauge (s := s.tick dt) (valid := valid) (hx := hx) (late := lateNow (s.tick dt))
      (now := (s.tick dt).clock) silent enough quiet
    refine ⟨_, rfl, clock, cycle quiet, present, goodRun, missRun, prevTime, saturated, others,
      ⟨[], journal.trans record, fun _ => rfl⟩, ?_, fun valid' hx' _ hr => ?_⟩
    · exact fun _ _ _ _ _ he _ => PollEntry.noConfusion he
    cases hr
    obtain ⟨heard, sampled⟩ := joined (by rw [show ((s.tick dt).station .gauge).state = .silent from silent]; nofun) (.inr enough)
    exact ⟨heard, est, tracker, sampled⟩

end Sys2Proof.Machine

/-! Proofs for the cycle of the stand link (R147 to R149) and for the frames of its replies (R144, R145, R150, R193). -/

namespace Sys2Proof.Machine

/-! ### The timer and the cycle (R147, R149) -/

section
variable {s u : State} {dt next : Clock}

/-- The timer set to the first grid point that lies ahead. -/
def rearmed (dt next : Clock) (s : State) : State := { s with
  clock := s.clock + dt,
  link := { s.link with
    nextExpiry := some (next +
      BitVec.ofNat 32 (((s.clock + dt - next).toNat / s.lineCopy.period + 1) * s.lineCopy.period)) } }

theorem rearm_tick (armed : s.link.nextExpiry = some next) : rearm (s.tick dt) = rearmed dt next s := by
  unfold rearm rearmed
  rw [show (s.tick dt).link.nextExpiry = some next from armed]
  rfl

theorem expiryDue_tick (armed : s.link.nextExpiry = some next) :
    expiryDue (s.tick dt) = decide ((s.clock + dt - next).toNat < 2147483648) := by
  unfold expiryDue
  rw [show (s.tick dt).link.nextExpiry = some next from armed]
  rfl

theorem exec_timer (armed : s.link.nextExpiry = some next) : exec (.pollTimerExpiry dt) s =
    if (s.clock + dt - next).toNat < 2147483648 then finish (timerExpiry (s.tick dt)) else finish (s.tick dt) := by
  show execPollTimerExpiry dt s = _
  unfold execPollTimerExpiry
  simp only [expiryDue_tick armed, decide_eq_true_eq]

theorem timerExpiry_idle (armed : s.link.nextExpiry = some next) (idle : s.link.cycle = none) :
    timerExpiry (s.tick dt) = cycleOnExpiry (rearmed dt next s) := by
  unfold timerExpiry
  rw [rearm_tick armed]
  exact if_neg (by rw [show (rearmed dt next s).link.cycle = none from idle]; nofun)

theorem timerExpiry_busy (armed : s.link.nextExpiry = some next) (busy : s.link.cycle ≠ none) :
    timerExpiry (s.tick dt) =
      { rearmed dt next s with link := { (rearmed dt next s).link with expiryWaiting := true } } := by
  unfold timerExpiry
  rw [rearm_tick armed]
  exact if_pos (Option.isSome_iff_ne_none.mpr busy)

/-- The two bytes of a word make the word. -/
theorem word_of_bytes (w : Word) : (w >>> 8).setWidth 8 ++ w.setWidth 8 = w := by
  refine BitVec.eq_of_getLsbD_eq fun i hi => ?_
  rw [BitVec.getLsbD_append]
  by_cases low : i < 8
  · simp [low]
  · have high : i - 8 < 8 := by omega
    have back : 8 + (i - 8) = i := by omega
    simp [low, high, back]

/-- The line clock at the cycle's start, as the processor reads it. -/
theorem exmWord_cycleClock : exmWord s 8 = s.cycleClock.setWidth 16 ∧ exmWord s 10 = (s.cycleClock >>> 16).setWidth 16 :=
  ⟨word_of_bytes (s.cycleClock.setWidth 16), word_of_bytes ((s.cycleClock >>> 16).setWidth 16)⟩

/-- The first entry's exchange begins with its preparation and its poll. -/
theorem beginExchange_first {e : PollEntry} {rest : List PollEntry} (polled : s.link.pollList = e :: rest) :
    beginExchange 0 false s = withCycle (some { index := 0, phase := .sending, late := false })
      { prepareEntry e s with link := { (prepareEntry e s).link with txFrame := pollFrame (prepareEntry e s) e } } := by
  unfold beginExchange
  rw [polled]
  rfl

end

/-- Settles O41: the timer by the cycle and the level, and then the two events of the line by the phase. -/
theorem theCycleFollowsTheTimerAndTheLine : Obligations.TheCycleFollowsTheTimerAndTheLine := by
  refine ⟨fun dt d next s u armed hd hu => ⟨fun early => ?_, fun due busy => ?_, fun due idle run e rest polled => ?_,
    fun due idle loop entries => ?_⟩, fun dt s c e held => ⟨fun sending => ?_, fun opened window => ⟨fun inside => ?_, fun past => ?_⟩⟩⟩
  · subst hd
    rw [exec_timer armed, if_neg (by omega)]
    rfl
  · subst hd
    rw [exec_timer armed, if_pos due, timerExpiry_busy armed busy, hu]
    rfl
  · subst hd
    have begins : cycleOnExpiry (rearmed dt next s) = beginExchange 0 false { u with cycleClock := s.clock + dt } := by
      unfold cycleOnExpiry
      rw [show (rearmed dt next s).level = .run from run, hu]
      rfl
    obtain ⟨v, hv⟩ : ∃ v, v = { u with cycleClock := s.clock + dt } := ⟨_, rfl⟩
    have links : v.link = u.link ∧ v.cycleClock = s.clock + dt ∧ v.gap = s.gap ∧ v.level = .run ∧
        v.link.stations = s.link.stations ∧ v.link.gauge = s.link.gauge := by
      rw [hv, hu]
      exact ⟨rfl, rfl, rfl, run, rfl, rfl⟩
    obtain ⟨link, cycleClock, gap, level, stations, gauge⟩ := links
    have list : v.link.pollList = e :: rest := by rw [hv, hu]; exact polled
    have first := beginExchange_first list
    have cycle := beginExchange_link (s := v) 0 false
    have stamp := beginExchange_cycleClock (s := v) 0 false
    rw [if_pos (by rw [list]; exact Nat.zero_lt_succ _)] at cycle
    rw [exec_timer armed, if_pos due, timerExpiry_idle armed idle, begins, ← hv]
    obtain ⟨t, ht⟩ : ∃ t, t = beginExchange 0 false v := ⟨_, rfl⟩
    rw [← ht] at cycle stamp first ⊢
    obtain ⟨low, high⟩ := exmWord_cycleClock (s := t.settled)
    have clock : t.settled.cycleClock = s.clock + dt := stamp.trans cycleClock
    rw [clock] at low high
    refine ⟨t.settled, rfl, clock, ?_, low, high, ?_, fun he => ?_, fun k he => ?_⟩
    · rw [← link]
      exact cycle
    · show linkDriven t = true
      have running : t.level = .run := by
        rw [first]
        cases e <;> simp [withCycle, prepareEntry, level]
      unfold linkDriven
      rw [cycle, running]
      rfl
    · subst he
      rw [first]
      refine ⟨?_, gap⟩
      show pollGauge v.link.gauge.addr = _
      rw [gauge]
    · subst he
      have kept : (prepare k v).link = v.link := by simp
      rw [first]
      refine ⟨rfl, ?_⟩
      show pollStand ((prepare k v).link.stations.get k).addr ((prepare k v).gap.get k) = _
      rw [kept, stations]
      rfl
  · subst hd
    have loops : cycleOnExpiry (rearmed dt next s) =
        s.link.pollList.foldl loopbackExchange { u with cycleClock := s.clock + dt } := by
      unfold cycleOnExpiry
      rw [show (rearmed dt next s).level = .loopback from loop, hu]
      exact if_neg entries
    rw [exec_timer armed, if_pos due, timerExpiry_idle armed idle, loops]
    rfl
  · show execPollSent dt s = _
    unfold execPollSent
    simp only [open_tick dt held]
    exact if_pos sending
  · show execReplyStart dt s = _
    unfold execReplyStart
    simp only [windowAge_open (dt := dt) held window]
    exact if_pos inside
  · show execReplyStart dt s = _
    unfold execReplyStart
    simp only [windowAge_open (dt := dt) held window]
    exact if_neg (show ¬_ ≤ s.lineCopy.timeout from Nat.not_le.mpr past)

/-! ### The frames of replies (R144, R145, R150, R193) -/

section
variable {bs : List Byte} {addr spare : Nat}

theorem sealFrame_length : (sealFrame bs).length = bs.length + 2 := by
  unfold sealFrame
  rw [List.length_append]
  rfl

theorem sealFrame_take : (sealFrame bs).take bs.length = bs := List.take_left

theorem frameByte_sealed {i : Nat} (inside : i < bs.length) : frameByte (sealFrame bs) i = frameByte bs i := by
  unfold frameByte sealFrame
  rw [List.getD_append _ _ _ _ inside]

theorem frameWord_sealed {i : Nat} (inside : i + 1 < bs.length) : frameWord (sealFrame bs) i = frameWord bs i := by
  unfold frameWord
  rw [frameByte_sealed (by omega), frameByte_sealed inside]

/-- A sealed frame of the stated length has the CRC, and is checked by its address and kind. -/
theorem frameOk_sealed {len kind : Nat} (size : bs.length + 2 = len) (two : 2 ≤ bs.length) :
    frameOk addr len kind (sealFrame bs) = (frameByte bs 0 == addr && frameByte bs 1 == kind) := by
  unfold frameOk
  rw [sealFrame_length, size, frameByte_sealed (by omega), frameByte_sealed (by omega),
    show len - 2 = bs.length by omega, sealFrame_take]
  simp

theorem frameOk_length {len kind : Nat} (size : bs.length + 2 ≠ len) : frameOk addr len kind (sealFrame bs) = false := by
  unfold frameOk
  rw [sealFrame_length, beq_eq_false_iff_ne.mpr size]
  rfl

theorem frameOk_address {len kind : Nat} {fr : List Byte} (other : frameByte fr 0 ≠ addr) : frameOk addr len kind fr = false := by
  unfold frameOk
  rw [beq_eq_false_iff_ne.mpr other]
  simp

/-- A word sent least significant byte first is read as it was. -/
theorem wordBytes_read (w : Word) : (w.setWidth 8).toNat + 256 * ((w >>> 8).setWidth 8).toNat = w.toNat := by
  have bound := w.isLt
  simp only [BitVec.toNat_setWidth, BitVec.toNat_ushiftRight, Nat.shiftRight_eq_div_pow]
  omega

theorem wordField_read {n : Nat} (fits : n < 65536) :
    ((BitVec.ofNat 16 n).setWidth 8).toNat + 256 * ((BitVec.ofNat 16 n >>> 8).setWidth 8).toNat = n := by
  rw [wordBytes_read, BitVec.toNat_ofNat]
  exact Nat.mod_eq_of_lt fits

theorem longField_read {n : Nat} (fits : n < 4294967296) :
    ((BitVec.ofNat 32 n).setWidth 16).toNat + 65536 * ((BitVec.ofNat 32 n >>> 16).setWidth 16).toNat = n := by
  simp only [BitVec.toNat_setWidth, BitVec.toNat_ushiftRight, BitVec.toNat_ofNat, Nat.shiftRight_eq_div_pow]
  omega

/-- Bit `i` of a byte's value, where the number sent has `b` there. -/
theorem byteBit_read {n i : Nat} {b : Bool} (inside : i < 8) (sent : n / 2 ^ i % 2 = bit b) :
    (BitVec.ofNat 8 n).toNat.testBit i = b := by
  rw [BitVec.toNat_ofNat, Nat.testBit_mod_two_pow, Nat.testBit_eq_decide_div_mod_eq, sent]
  cases b <;> simp [bit, inside]

theorem bit_lt_two (b : Bool) : bit b < 2 := by
  cases b <;> decide

theorem frameFlags_read (flags : ReplyFlags) (spare : Nat) :
    frameFlags (BitVec.ofNat 8
      (bit flags.hydFault + 2 * bit flags.overtravel + 4 * bit flags.localMode + 8 * spare)).toNat = flags := by
  obtain ⟨a, b, c⟩ := flags
  have ha := bit_lt_two a
  have hb := bit_lt_two b
  have hc := bit_lt_two c
  exact congr (congrArg₂ ReplyFlags.mk (byteBit_read (by decide) (by dsimp only; omega))
    (byteBit_read (by decide) (by dsimp only; omega))) (byteBit_read (by decide) (by dsimp only; omega))

/-- The bytes of a stand reply before its CRC. -/
def standBody (addr spare p f v : Nat) (flags : ReplyFlags) : List Byte :=
  [BitVec.ofNat 8 addr, 3, BitVec.ofNat 8
    (bit flags.hydFault + 2 * bit flags.overtravel + 4 * bit flags.localMode + 8 * spare)]
      ++ longField p ++ wordField f ++ wordField v

/-- The bytes of a gauge reply before its CRC. -/
def gaugeBody (addr spare : Nat) (valid : Bool) (hx : Nat) : List Byte :=
  [BitVec.ofNat 8 addr, 4, BitVec.ofNat 8 (bit valid + 2 * spare)] ++ wordField hx

theorem judge_standBody {k p f v : Nat} {flags : ReplyFlags} (byte : addr < 256) (pFits : p < 4294967296) (fFits : f < 65536)
    (vFits : v < 65536) :
    judge (.stand k) addr (sealFrame (standBody addr spare p f v flags)) false = some (.stand p f v flags) := by
  obtain ⟨bs, hbs⟩ : ∃ bs, bs = standBody addr spare p f v flags := ⟨_, rfl⟩
  have size : bs.length = 11 := by rw [hbs]; rfl
  have address : frameByte bs 0 = addr := by
    rw [hbs]
    exact (BitVec.toNat_ofNat ..).trans (Nat.mod_eq_of_lt byte)
  have kind : frameByte bs 1 = 3 := by rw [hbs]; rfl
  have pLow : frameWord bs 3 = ((BitVec.ofNat 32 p).setWidth 16).toNat := by rw [hbs]; exact wordBytes_read _
  have pHigh : frameWord bs 5 = ((BitVec.ofNat 32 p >>> 16).setWidth 16).toNat := by rw [hbs]; exact wordBytes_read _
  have force : frameWord bs 7 = f := by rw [hbs]; exact wordField_read fFits
  have speed : frameWord bs 9 = v := by rw [hbs]; exact wordField_read vFits
  have bits : frameFlags (frameByte bs 2) = flags := by rw [hbs]; exact frameFlags_read flags spare
  unfold judge
  dsimp only
  rw [← hbs, frameOk_sealed (by omega) (by omega), address, kind, frameWord_sealed (by omega), frameWord_sealed (by omega),
    frameWord_sealed (by omega), frameWord_sealed (by omega), frameByte_sealed (by omega), pLow, pHigh, force, speed, bits,
    longField_read pFits]
  simp

theorem judge_gaugeBody {hx : Nat} {valid : Bool} (byte : addr < 256) (fits : hx < 65536) :
    judge .gauge addr (sealFrame (gaugeBody addr spare valid hx)) false = some (.gauge valid hx) := by
  obtain ⟨bs, hbs⟩ : ∃ bs, bs = gaugeBody addr spare valid hx := ⟨_, rfl⟩
  have size : bs.length = 5 := by rw [hbs]; rfl
  have address : frameByte bs 0 = addr := by
    rw [hbs]
    exact (BitVec.toNat_ofNat ..).trans (Nat.mod_eq_of_lt byte)
  have kind : frameByte bs 1 = 4 := by rw [hbs]; rfl
  have thickness : frameWord bs 3 = hx := by rw [hbs]; exact wordField_read fits
  have flag : (frameByte bs 2).testBit 0 = valid := by
    have := bit_lt_two valid
    rw [hbs]
    exact byteBit_read (by decide) (by omega)
  unfold judge
  dsimp only
  rw [← hbs, frameOk_sealed (by omega) (by omega), address, kind, frameWord_sealed (by omega), frameByte_sealed (by omega),
    thickness, flag]
  simp

theorem judge_stand_refused {k : Nat} {fr : List Byte} {still : Bool} (bad : frameOk addr 13 3 fr = false) :
    judge (.stand k) addr fr still = none := by
  unfold judge
  dsimp only
  rw [bad, Bool.and_false]
  rfl

theorem judge_gauge_refused {fr : List Byte} {still : Bool} (bad : frameOk addr 7 4 fr = false) :
    judge .gauge addr fr still = none := by
  unfold judge
  dsimp only
  rw [bad, Bool.and_false]
  rfl

theorem judge_late {e : PollEntry} {fr : List Byte} : judge e addr fr true = none := by
  cases e <;> rfl

end

/-- Settles O47, by the kind of the reply; a frame of another address fails at its first byte. -/
theorem replyFramesAreReadAsSent : Obligations.ReplyFramesAreReadAsSent := by
  intro addr other spare k r byte _ fits
  refine ⟨?_, ?_, ?_⟩
  · rintro p f v flags rfl
    obtain ⟨⟨pFits, fFits⟩, vFits⟩ : (p < 4294967296 ∧ f < 65536) ∧ v < 65536 := by simpa [Reply.ok] using fits
    refine ⟨judge_standBody byte pFits fFits vFits, judge_late, ?_⟩
    exact judge_gauge_refused (frameOk_length (show ¬13 = 7 by decide))
  · rintro valid hx rfl
    have fit : hx < 65536 := by simpa [Reply.ok] using fits
    refine ⟨judge_gaugeBody byte fit, judge_late, ?_⟩
    exact judge_stand_refused (frameOk_length (show ¬7 = 13 by decide))
  · intro differs e
    have first : frameByte (replyFrame addr spare r) 0 ≠ other := by
      have sent : frameByte (replyFrame addr spare r) 0 = addr := by
        cases r <;> exact (BitVec.toNat_ofNat ..).trans (Nat.mod_eq_of_lt byte)
      rw [sent]
      exact differs.symm
    cases e with
    | stand j => exact judge_stand_refused (frameOk_address first)
    | gauge => exact judge_gauge_refused (frameOk_address first)

end Sys2Proof.Machine

/-! Proofs for the moves in flight and the poll preparations (R81 to R86, R112 to R117). -/

namespace Sys2Proof.Machine

/-! ### The arithmetic of a preparation -/

theorem clampPos_eq (x : Int) : (clampPos x : Int) = max 0 (min 250000 x) := by
  unfold clampPos
  rw [clampInt_eq_max_min (by decide)]
  omega

theorem toward_eq (b t : Int) (step : Nat) : toward b t step = b + max (-(step : Int)) (min (step : Int) (t - b)) := by
  unfold toward
  split
  · omega
  · split <;> omega

theorem toward_self (b : Int) (step : Nat) : toward b b step = b := by
  unfold toward
  exact if_pos (by omega)

/-! ### The time test and the ends of a move -/

section
variable {s : State} {dt : Clock} {k q : Nat}

theorem retireLong_entered {r : Result} (entered : s.orders.inFlight.get k = some q) :
    retireLong k r s = { s with
      exm := writeResult s.exm q r, attention := s.attention ||| 1,
      orders := { s.orders with inFlight := s.orders.inFlight.set k none } } := by
  unfold retireLong
  rw [entered]
  rfl

/-- What a move's end leaves of `s`: its order retired, its entry gone, and the move state `m`. -/
def moveEnded (k q : Nat) (r : Result) (m : Move) (s : State) : State :=
  { s with
    exm := writeResult s.exm q r, attention := s.attention ||| 1,
    orders := { s.orders with inFlight := s.orders.inFlight.set k none },
    gap := s.gap.set k { s.gap.get k with move := m } }

theorem retireLong_withMove {r : Result} {m : Move} (entered : s.orders.inFlight.get k = some q) :
    (retireLong k r s).withMove k m = moveEnded k q r m s := by
  rw [retireLong_entered entered]
  rfl

theorem satSigned16_eq (x : Int) : satSigned16 x = BitVec.ofInt 16 (max (-32768) (min 32767 x)) :=
  congrArg _ (clampInt_eq_max_min (by decide))

theorem zChange_eq (z0 : Nat) :
    zChange s k z0 = BitVec.ofInt 16 (max (-32767) (min 32767 (((s.est.get k).z : Int) - z0))) :=
  congrArg _ (clampInt_eq_max_min (by decide))

theorem holdAtBase_eq : holdAtBase s k = if (s.thread k).state = .vacant then .hold (s.gap.get k).base else .none := by
  unfold holdAtBase State.vacant
  simp only [beq_iff_eq]

theorem timeoutTest_due (due : timeoutDue s k = true) : timeoutTest k s = endMove k .timeout true s := if_pos due

theorem timeoutTest_early (early : timeoutDue s k = false) : timeoutTest k s = s := if_neg (by rw [early]; nofun)

theorem timeoutDue_idle (move : (s.gap.get k).move = .none) : timeoutDue s k = false := by
  unfold timeoutDue
  rw [move]

theorem timeoutDue_hold {target : Int} (move : (s.gap.get k).move = .hold target) : timeoutDue s k = false := by
  unfold timeoutDue
  rw [move]

section
variable {target sb : Int} {tol run z0 : Nat} {st : Clock} {pending : Pending}

theorem timeoutDue_preset (move : (s.gap.get k).move = .preset target tol st run) :
    timeoutDue s k = decide (s.lineCopy.tMove ≤ (s.clock - st).toNat) := by
  unfold timeoutDue
  rw [move]

theorem timeoutDue_calClose (move : (s.gap.get k).move = .calClose st sb run z0) :
    timeoutDue s k = decide (s.lineCopy.tMove ≤ (s.clock - st).toNat) := by
  unfold timeoutDue
  rw [move]

theorem timeoutDue_calOpen (move : (s.gap.get k).move = .calOpen st sb pending z0) :
    timeoutDue s k = decide (s.lineCopy.tMove ≤ (s.clock - st).toNat) := by
  unfold timeoutDue
  rw [move]

/-- A time that has come in no `T_move`. -/
theorem not_due {s : State} (early : (s.clock - st).toNat < s.lineCopy.tMove) :
    decide (s.lineCopy.tMove ≤ (s.clock - st).toNat) = false :=
  decide_eq_false (Nat.not_le.mpr early)

/-! ### The commands of a move's end (R112, R115 to R117) -/

theorem deliversAt_of (polled : s.level = .run ∨ s.level = .loopback) (present : (s.link.stations.get k).state = .present) :
    s.deliversAt k = true := by
  unfold State.deliversAt State.polls
  rw [present]
  rcases polled with h | h <;> rw [h] <;> rfl

theorem polls_false (run : s.level ≠ .run) (loop : s.level ≠ .loopback) : s.polls = false := by
  unfold State.polls
  rw [beq_eq_false_iff_ne.mpr run, beq_eq_false_iff_ne.mpr loop]
  rfl

theorem deliversAt_false (none : s.level ≠ .run ∧ s.level ≠ .loopback ∨ (s.link.stations.get k).state ≠ .present) :
    s.deliversAt k = false := by
  unfold State.deliversAt
  rcases none with ⟨run, loop⟩ | silent
  · rw [polls_false run loop]
    rfl
  · rw [beq_eq_false_iff_ne.mpr silent, Bool.and_false]

theorem exec_presetComplete {g : Int} (delivered : s.deliversAt k = true) (completes : presetCompletes s k g = true) :
    exec (.presetComplete dt k g) s = .next (moveTest k 0 0 g (s.tick dt)).settled :=
  if_pos ⟨delivered, completes⟩

theorem exec_zeroFound {p f : Nat} (delivered : s.deliversAt k = true) (finds : findsZero s k f = true) :
    exec (.zeroFound dt k p f) s = .next (moveTest k p f 0 (s.tick dt)).settled :=
  if_pos ⟨delivered, finds⟩

theorem exec_calibrationRetire {g : Int} (delivered : s.deliversAt k = true) (opened : findsOpen s k g = true) :
    exec (.calibrationRetire dt k g) s = .next (moveTest k 0 0 g (s.tick dt)).settled :=
  if_pos ⟨delivered, opened⟩

theorem exec_moveTimeout (polled : s.level = .run ∨ s.level = .loopback) (due : timeoutDue (s.tick dt) k = true) :
    exec (.moveTimeout dt k) s = .next (endMove k .timeout true (s.tick dt)).settled := by
  have polls : s.polls = true := by
    unfold State.polls
    rcases polled with h | h <;> rw [h] <;> rfl
  rw [← timeoutTest_due due]
  exact if_pos polls

theorem moveTest_preset {g : Int} {p f : Nat} (move : (s.gap.get k).move = .preset target tol st run)
    (near : (g - target).natAbs ≤ tol) (third : 2 ≤ run) :
    moveTest k p f g s = (retireLong k { cls := .completed, value := satSigned16 g } s).withMove k
      (if (s.thread k).state = .vacant then .hold target else .none) := by
  unfold moveTest State.vacant
  simp only [move, if_pos near, if_pos (show 3 ≤ run + 1 by omega), beq_iff_eq]

theorem moveTest_calClose {g : Int} {p f : Nat} (move : (s.gap.get k).move = .calClose st sb run z0)
    (pressed : s.lineCopy.fCal ≤ f) (second : 1 ≤ run) :
    moveTest k p f g s = (recordZero k p s).withRef k
      { (recordZero k p s).gap.get k with base := 0, move := .calOpen st sb .completed z0 } := by
  unfold moveTest
  simp only [move, if_pos pressed, if_pos (show 2 ≤ run + 1 by omega)]

/-- The class with which a calibration retires at the end of its opening (R116). -/
def Pending.class : Pending → ResultClass
  | .aborted d => .aborted d
  | .completed => .completed
  | .none => .completed

theorem moveTest_calOpen {g : Int} {p f : Nat} (move : (s.gap.get k).move = .calOpen st sb pending z0)
    (opened : (s.lineCopy.sOpen : Int) - 200 ≤ g) :
    moveTest k p f g s = (retireLong k { cls := pending.class, value := zChange s k z0 } s).withMove k .none := by
  unfold moveTest
  simp only [move, if_pos opened]
  cases pending <;> rfl

theorem endMove_preset {d : AbortDetail} (move : (s.gap.get k).move = .preset target tol st run) :
    endMove k d true s = (retireLong k (presetAborted s k d) s).withMove k
      (if (s.thread k).state = .vacant then .hold (s.gap.get k).base else .none) := by
  rw [← holdAtBase_eq]
  unfold endMove
  simp only [move]
  rfl

theorem endMove_calClose {d : AbortDetail} (move : (s.gap.get k).move = .calClose st sb run z0) :
    endMove k d true s = (retireLong k { cls := .aborted d, value := zChange s k z0 } s).withMove k .none := by
  unfold endMove
  simp only [move]

theorem endMove_calOpen {d : AbortDetail} (move : (s.gap.get k).move = .calOpen st sb pending z0) :
    endMove k d true s = (retireLong k { cls := .aborted (pending.detail d), value := zChange s k z0 } s).withMove k .none := by
  unfold endMove
  simp only [move]

/-- The outcome of a command that ends the move of stand `k`, as the obligation writes it. -/
theorem moveEnds (form : memoryOk s) (entered : s.orders.inFlight.get k = some q) {c : ResultClass} {v value : Word}
    {cls detail : Nat} (class_ : c.code = cls) (det : c.detail = detail) (val : v = value) (m : Move) :
    ∃ x, Retired q cls detail value s { s with exm := x } ∧
      State.settled ((retireLong k { cls := c, value := v } (s.tick dt)).withMove k m) = State.settled { s with
        clock := s.clock + dt, exm := x, attention := s.attention ||| 1,
        orders := { s.orders with inFlight := s.orders.inFlight.set k none },
        gap := s.gap.set k { s.gap.get k with move := m } } := by
  subst class_ det val
  refine ⟨writeResult s.exm q { cls := c, value := v }, retired_of q { cls := c, value := v } s form, ?_⟩
  rw [retireLong_withMove (s := s.tick dt) entered]
  rfl

end
end

/-- Settles O55: each command's test holds, and the move test or the end of the move leaves what its case says. -/
theorem movesEndAsTheirRulesSay : Obligations.MovesEndAsTheirRulesSay := by
  refine ⟨fun dt k p f g s => ⟨fun silent i hi => ?_, fun run loop => ?_⟩, ?_⟩
  · have none := deliversAt_false silent
    have stops : ∀ b : Bool, ¬((s.tick dt).deliversAt k = true ∧ b = true) := fun b h => absurd h.1 (by
      rw [show (s.tick dt).deliversAt k = false from none]
      nofun)
    rcases List.mem_cons.mp hi with rfl | hi
    · exact if_neg (stops _)
    · rcases List.mem_cons.mp hi with rfl | hi
      · exact if_neg (stops _)
      · rw [List.mem_singleton.mp hi]
        exact if_neg (stops _)
  · exact if_neg (by
      rw [show (s.tick dt).polls = false from polls_false run loop]
      nofun)
  · intro dt k q s form inside entered polled ends change
    refine ⟨fun target tol st run g present move near third => ?_, fun st sb run z0 p f present move pressed second => ?_,
      fun st sb pending z0 g present move opened => ?_, fun target tol st run move due => ?_, fun st sb run z0 move due => ?_,
      fun st sb pending z0 move due => ?_⟩
    · have completes : presetCompletes s k g = true := by
        unfold presetCompletes
        rw [move]
        exact decide_eq_true ⟨near, by omega⟩
      refine ⟨_, exec_presetComplete (deliversAt_of polled present) completes, ?_⟩
      rw [moveTest_preset (s := s.tick dt) move near third]
      exact moveEnds (c := .completed) form entered rfl rfl (satSigned16_eq g) _
    · have finds : findsZero s k f = true := by
        unfold findsZero
        rw [move]
        exact decide_eq_true ⟨pressed, by omega⟩
      rw [exec_zeroFound (deliversAt_of polled present) finds, moveTest_calClose (s := s.tick dt) move pressed second]
      rfl
    · have found : findsOpen s k g = true := by
        unfold findsOpen
        rw [move]
        exact decide_eq_true opened
      refine ⟨_, exec_calibrationRetire (deliversAt_of polled present) found, ?_, ?_⟩
      · rintro rfl
        rw [moveTest_calOpen (s := s.tick dt) move opened]
        exact moveEnds (c := .completed) form entered rfl rfl (zChange_eq z0) _
      · rintro d rfl
        rw [moveTest_calOpen (s := s.tick dt) move opened]
        exact moveEnds (c := .aborted d) form entered rfl rfl (zChange_eq z0) _
    · refine ⟨_, exec_moveTimeout polled ((timeoutDue_preset (s := s.tick dt) move).trans (decide_eq_true due)), ?_⟩
      rw [endMove_preset (s := s.tick dt) move]
      exact moveEnds (c := .aborted .timeout) form entered rfl rfl (satSigned16_eq _) _
    · refine ⟨_, exec_moveTimeout polled ((timeoutDue_calClose (s := s.tick dt) move).trans (decide_eq_true due)), ?_⟩
      rw [endMove_calClose (s := s.tick dt) move]
      exact moveEnds (c := .aborted .timeout) form entered rfl rfl (zChange_eq z0) _
    · refine ⟨_, exec_moveTimeout polled ((timeoutDue_calOpen (s := s.tick dt) move).trans (decide_eq_true due)), ?_⟩
      rw [endMove_calOpen (s := s.tick dt) move]
      refine moveEnds (c := .aborted (pending.detail .timeout)) form entered rfl ?_ (zChange_eq z0) _
      cases pending <;> rfl

end Sys2Proof.Machine

/-! Proofs for the poll preparations (R81 to R86, R112, R113, R115 to R117). -/

namespace Sys2Proof.Machine

section
variable {s : State} {k : Nat} {base z : Int} {t : Bool}

/-! ### One preparation, case by case -/

/-- Stand `k`'s reference record after a poll that sends `base` as a position (R82, step 6). -/
theorem sendBase_sends (trip cal : Bool) :
    ∃ n : Nat, (n : Int) = max 0 (min 250000 (base + (s.est.get k).z)) ∧
      sendBase k base trip cal s = { s with gap := s.gap.set k { s.gap.get k with
        base := base, baseKnown := (s.gap.get k).baseKnown, pRef := n, tripFlag := trip, holdFlag := false, calFlag := cal, limit := false, rate := false,
        pClamp := decide (base + (s.est.get k).z < 0 ∨ 250000 < base + (s.est.get k).z) } } :=
  ⟨clampPos (base + (s.est.get k).z), clampPos_eq _, rfl⟩

theorem holdPosition_eq : (holdPosition s k : Int) =
    if (s.gap.get k).baseKnown then max 0 (min 250000 ((s.gap.get k).base + (s.est.get k).z)) else ((s.est.get k).p : Int) := by
  unfold holdPosition
  split
  · exact clampPos_eq _
  · rfl

theorem holdFrame_eq (trip : Bool) : holdFrame k trip s = { s with gap := s.gap.set k { s.gap.get k with
    base := (s.gap.get k).base, baseKnown := (s.gap.get k).baseKnown, pRef := holdPosition s k, tripFlag := trip,
    holdFlag := true, calFlag := false, limit := false, rate := false, pClamp := false } } := rfl

theorem prepare_gapOpen (opened : (s.trip.actions.get k).gapOpen = true) :
    prepare k s = (sendBase k s.lineCopy.sOpen true false s).withRef k
      { (sendBase k s.lineCopy.sOpen true false s).gap.get k with baseKnown := true } :=
  if_pos opened

theorem prepare_driveStop (closed : (s.trip.actions.get k).gapOpen = false) (stopped : (s.trip.actions.get k).driveStop = true) :
    prepare k s =
      if (s.gap.get k).baseKnown then sendBase k (s.gap.get k).base true false s else holdFrame k true s := by
  unfold prepare
  rw [closed, stopped]
  rfl

theorem prepare_free (free : s.trip.actions.get k = {}) : prepare k s = prepareMove k s := by
  unfold prepare
  rw [free]
  rfl

/-- Before its time limit a move is prepared by its state. -/
theorem prepareMove_early (early : timeoutDue s k = false) : prepareMove k s = prepareByMove k s := by
  unfold prepareMove
  rw [timeoutTest_early early, early, Bool.and_false]
  rfl

theorem prepareByMove_idle (move : (s.gap.get k).move = .none) :
    prepareByMove k s =
      if !(s.gap.get k).baseKnown || (s.slotAt k).isNone then holdFrame k false s else assemble k s := by
  unfold prepareByMove
  simp only [move]

theorem prepareByMove_hold {target : Int} (move : (s.gap.get k).move = .hold target) :
    prepareByMove k s = rampStep k target s := by
  unfold prepareByMove
  simp only [move]

section
variable {target sb : Int} {tol run z0 : Nat} {st : Clock} {pending : Pending}

theorem prepareByMove_preset (move : (s.gap.get k).move = .preset target tol st run) :
    prepareByMove k s = rampStep k target s := by
  unfold prepareByMove
  simp only [move]

theorem prepareByMove_calClose (move : (s.gap.get k).move = .calClose st sb run z0) :
    prepareByMove k s =
      if sb - ((s.gap.get k).base - s.lineCopy.rCal) ≤ s.lineCopy.cMax then
        sendBase k ((s.gap.get k).base - s.lineCopy.rCal) false true s
      else calOpenStep k (s.withMove k (.calOpen st sb (.aborted .equipment) z0)) := by
  unfold prepareByMove
  simp only [move]

theorem prepareByMove_calOpen (move : (s.gap.get k).move = .calOpen st sb pending z0) :
    prepareByMove k s = calOpenStep k s := by
  unfold prepareByMove
  simp only [move]

end

theorem assemble_eq (ordered : (s.sched k).sMin ≤ (s.sched k).sMax) {raw target sent : Int}
    (sum : raw = (s.sched k).sSch + (s.gap.get k).ff + (s.gap.get k).agc + (if k = s.n then (s.gap.get k).mon else 0)
      + (s.gap.get k).trim)
    (within : target = max (s.sched k).sMin (min (s.sched k).sMax raw))
    (step : sent = (s.gap.get k).base + max (-((s.sched k).r : Int)) (min ((s.sched k).r : Int) (target - (s.gap.get k).base))) :
    assemble k s = { s with gap := s.gap.set k { s.gap.get k with
      base := sent, baseKnown := (s.gap.get k).baseKnown, pRef := clampPos (sent + (s.est.get k).z),
      tripFlag := false, holdFlag := false, calFlag := false,
      limit := decide (target ≠ raw), rate := decide ((s.sched k).r < (target - (s.gap.get k).base).natAbs),
      pClamp := decide (sent + (s.est.get k).z < 0 ∨ 250000 < sent + (s.est.get k).z) } } := by
  have hraw : rawReference s k = raw := sum.symm
  have htarget : clampInt raw (s.sched k).sMin (s.sched k).sMax = target := (clampInt_eq_max_min ordered).trans within.symm
  have hsent : toward (s.gap.get k).base target (s.sched k).r = sent := (toward_eq ..).trans step.symm
  unfold assemble
  simp only [hraw, htarget, hsent]
  rfl

/-! ### A preparation at the time limit (R112, R117) -/

theorem prepareMove_due_calibrating (due : timeoutDue s k = true) (calibrating : (s.gap.get k).move.calibrating = true) :
    prepareMove k s = prepareByMove k (endMove k .timeout true s) := by
  have idle : (s.gap.get k).move.presetting = false := by
    revert calibrating
    cases (s.gap.get k).move <;> simp [Move.calibrating, Move.presetting]
  unfold prepareMove
  rw [timeoutTest_due due, idle]
  rfl

theorem prepareMove_due_preset (due : timeoutDue s k = true) (presetting : (s.gap.get k).move.presetting = true) :
    prepareMove k s = rampStep k ((endMove k .timeout true s).gap.get k).base (endMove k .timeout true s) := by
  unfold prepareMove
  rw [timeoutTest_due due, presetting, due]
  rfl

theorem rampStep_self : rampStep k (s.gap.get k).base s = sendBase k (s.gap.get k).base false false s := by
  unfold rampStep
  rw [toward_self]

end

/-- Settles O57, by the cases of R81 in order. -/
theorem referencesFollowTheFirstCase : Obligations.ReferencesFollowTheFirstCase := by
  intro k s r z hold inside hr hz hHold sends out
  subst hr hz
  have held : (holdPosition s k : Int) = hold := holdPosition_eq.trans hHold.symm
  refine ⟨fun opened => ?_, fun closed stopped => ⟨fun known => ?_, fun unknown => ?_⟩, fun free move =>
    ⟨fun none => ?_, fun known slot ordered raw target sent sum within step => ?_⟩, fun target tol st run free move early sent step => ?_⟩
  · obtain ⟨n, position, sent⟩ := sendBase_sends (s := s) (k := k) (base := s.lineCopy.sOpen) true false
    refine ⟨n, position, ?_⟩
    rw [prepare_gapOpen opened, sent]
    unfold State.withRef
    dsimp only
    rw [PerStand.get_set_same _ _ _ inside, PerStand.set_set]
  · obtain ⟨n, position, sent⟩ := sendBase_sends (s := s) (k := k) (base := (s.gap.get k).base) true false
    refine ⟨n, position, ?_⟩
    rw [prepare_driveStop closed stopped, if_pos known, sent, known]
  · refine ⟨holdPosition s k, held, ?_⟩
    rw [prepare_driveStop closed stopped, if_neg (by rw [unknown]; nofun), holdFrame_eq, unknown]
  · have waits : (!(s.gap.get k).baseKnown || (s.slotAt k).isNone) = true := by
      rcases none with h | h <;> rw [h]
      · rfl
      · exact Bool.or_true _
    refine ⟨holdPosition s k, held, ?_⟩
    rw [prepare_free free, prepareMove_early (timeoutDue_idle move), prepareByMove_idle move, if_pos waits, holdFrame_eq]
  · have goes : (!(s.gap.get k).baseKnown || (s.slotAt k).isNone) = false := by
      rw [known, Option.isNone_eq_false_iff.mpr slot]
      rfl
    refine ⟨clampPos (sent + (s.est.get k).z), clampPos_eq _, ?_⟩
    rw [prepare_free free, prepareMove_early (timeoutDue_idle move), prepareByMove_idle move,
      if_neg (by rw [goes]; nofun), assemble_eq ordered sum within step, known]
  · obtain ⟨n, position, sending⟩ := sendBase_sends (s := s) (k := k) (base := sent) false false
    refine ⟨n, position, ?_⟩
    rw [prepare_free free, prepareMove_early ((timeoutDue_preset move).trans (not_due early)), prepareByMove_preset move]
    unfold rampStep
    rw [toward_eq, ← step, sending]

/-- Settles O59, by the move state; at the time limit the move ends first, and the preparation is that of what it leaves. -/
theorem movePreparationsRampAndTimeOut : Obligations.MovePreparationsRampAndTimeOut := by
  intro k s r z opened inside hr hz free hOpened sends
  subst hr hz
  have opening : ∀ u : State, (u.gap.get k).base = (s.gap.get k).base → u.lineCopy = s.lineCopy →
      calOpenStep k u = sendBase k opened false true u := by
    intro u base copy
    unfold calOpenStep
    dsimp only
    rw [base, copy, ← hOpened]
  refine ⟨fun target move => ?_, fun st sb run z0 move early => ⟨fun short => ?_, fun long => ?_⟩,
    fun st sb pending z0 move early => ?_, fun st q detail value move late form entered aborted => ?_⟩
  · obtain ⟨n, position, sent⟩ := sendBase_sends (s := s) (k := k) (base := (s.gap.get k).base
      + max (-(s.lineCopy.rPreset : Int)) (min (s.lineCopy.rPreset : Int) (target - (s.gap.get k).base))) false false
    refine ⟨n, position, ?_⟩
    rw [prepare_free free, prepareMove_early (timeoutDue_hold move), prepareByMove_hold move]
    unfold rampStep
    rw [toward_eq, sent]
  · obtain ⟨n, position, sent⟩ := sendBase_sends (s := s) (k := k) (base := (s.gap.get k).base - s.lineCopy.rCal) false true
    refine ⟨n, position, ?_⟩
    rw [prepare_free free, prepareMove_early ((timeoutDue_calClose move).trans (not_due early)), prepareByMove_calClose move,
      if_pos short, sent]
  · have sameBase : ((s.withMove k (.calOpen st sb (.aborted .equipment) z0)).gap.get k).base = (s.gap.get k).base :=
      (congrArg Reference.base (PerStand.get_set_same s.gap k
        { s.gap.get k with move := .calOpen st sb (.aborted .equipment) z0 } inside) :)
    refine ⟨clampPos (opened + (s.est.get k).z), clampPos_eq _, ?_⟩
    rw [prepare_free free, prepareMove_early ((timeoutDue_calClose move).trans (not_due early)), prepareByMove_calClose move,
      if_neg (by omega),
      opening (s.withMove k (.calOpen st sb (.aborted .equipment) z0)) sameBase rfl]
    unfold sendBase State.withMove State.withRef
    dsimp only
    rw [PerStand.get_set_same _ _ _ inside, PerStand.set_set]
    rfl
  · obtain ⟨n, position, sent⟩ := sendBase_sends (s := s) (k := k) (base := opened) false true
    refine ⟨n, position, ?_⟩
    rw [prepare_free free, prepareMove_early ((timeoutDue_calOpen move).trans (not_due early)), prepareByMove_calOpen move,
      opening s rfl rfl, sent]
  · have due : timeoutDue s k = true := by
      rcases move with ⟨_, _, _, h⟩ | ⟨_, _, _, h⟩ | ⟨_, _, _, h⟩
      · exact (timeoutDue_preset h).trans (decide_eq_true late)
      · exact (timeoutDue_calClose h).trans (decide_eq_true late)
      · exact (timeoutDue_calOpen h).trans (decide_eq_true late)
    rw [show (3 : Nat) = AbortDetail.timeout.code from rfl, abortedAs_eq] at aborted
    obtain ⟨res, hres, pair⟩ := Option.map_eq_some_iff.mp aborted
    cases pair
    have retired := retired_of q res s form
    rw [endedResult_class hres] at retired
    obtain ⟨left, hleft⟩ : ∃ m : Move, m = (match (s.gap.get k).move with
      | .preset .. => holdAtBase s k
      | _ => .none) := ⟨_, rfl⟩
    have ended : endMove k .timeout true s = moveEnded k q res left s := by
      rw [endMove_stays, hres, hleft]
      exact retireLong_withMove entered
    refine ⟨moveEnded k q res left s, left, retired_exm retired rfl rfl, rfl, fun calibrating => ?_, fun other => ?_⟩
    · have gone : left = .none := by
        rw [hleft]
        revert calibrating
        cases (s.gap.get k).move <;> simp [Move.calibrating]
      have idle : ((moveEnded k q res left s).gap.get k).move = .none := by
        rw [← gone]
        exact congrArg Reference.move (PerStand.get_set_same _ _ _ inside)
      refine ⟨gone, ?_⟩
      rw [prepare_free free, prepareMove_due_calibrating due calibrating, ended, prepare_free (s := moveEnded k q res left s) free,
        prepareMove_early (timeoutDue_idle idle)]
    · have presetting : (s.gap.get k).move.presetting = true := by
        rcases move with ⟨_, _, _, h⟩ | ⟨_, _, _, h⟩ | ⟨_, _, _, h⟩ <;> rw [h] at other ⊢
        · rfl
        · exact absurd other nofun
        · exact absurd other nofun
      have stays : left = if (s.thread k).state = .vacant then .hold (s.gap.get k).base else .none := by
        rw [hleft, ← holdAtBase_eq]
        revert presetting
        cases (s.gap.get k).move <;> simp [Move.presetting]
      refine ⟨stays, clampPos ((s.gap.get k).base + (s.est.get k).z), clampPos_eq _, ?_⟩
      rw [prepare_free free, prepareMove_due_preset due presetting, ended, rampStep_self]
      unfold sendBase State.withRef moveEnded
      dsimp only
      rw [PerStand.get_set_same _ _ _ inside, PerStand.set_set]
      rfl

end Sys2Proof.Machine

/-! Proofs for the parts of a reply's threading work as commands: lock-on, and what every one of them asks for (R29, R36, R77). -/

namespace Sys2Proof.Machine

section
variable {s : State} {dt : Clock} {k f : Nat}

/-! ### When the commands of the threading work do it (R22, R43, R153) -/

theorem threadingActive_of (run : s.level = .run) (clear : s.trip.latch = false) (inside : 1 ≤ k) (upTo : k ≤ s.n)
    (present : (s.link.stations.get k).state = .present) : threadingActive s k = true :=
  (threadingActive_iff s k).mpr ⟨⟨run, clear⟩, ⟨inside, upTo⟩, present⟩

theorem threadingActive_absent (absent : (s.link.stations.get k).state ≠ .present) : threadingActive s k = false :=
  Bool.eq_false_iff.mpr fun active => absent ((threadingActive_iff s k).mp active).2.2

theorem exec_loadOn_absent (absent : (s.link.stations.get k).state ≠ .present) :
    exec (.loadOn dt k f) s = .next (s.tick dt).settled :=
  if_neg fun active => absurd active.1 (by
    rw [show threadingActive (s.tick dt) k = false from threadingActive_absent (s := s) absent]
    nofun)

theorem exec_loadOff_absent (absent : (s.link.stations.get k).state ≠ .present) :
    exec (.loadOff dt k f) s = .next (s.tick dt).settled :=
  if_neg fun active => absurd active.1 (by
    rw [show threadingActive (s.tick dt) k = false from threadingActive_absent (s := s) absent]
    nofun)

theorem exec_lockOn_absent (absent : (s.link.stations.get k).state ≠ .present) :
    exec (.lockOn dt k f) s = .next (s.tick dt).settled :=
  if_neg fun active => absurd active.1 (by
    rw [show threadingActive (s.tick dt) k = false from threadingActive_absent (s := s) absent]
    nofun)

theorem exec_loadOn (active : threadingActive s k = true) (due : loadOnDue (noticesAndRuns k f (s.tick dt)) k = true) :
    exec (.loadOn dt k f) s =
      .next (takeRaised (summaryAfter (s.tick dt) (threadingWork k f (s.tick dt)))).settled :=
  if_pos ⟨active, due⟩

theorem exec_loadOff (active : threadingActive s k = true) (due : loadOffDue (noticesAndRuns k f (s.tick dt)) k = true) :
    exec (.loadOff dt k f) s =
      .next (takeRaised (summaryAfter (s.tick dt) (threadingWork k f (s.tick dt)))).settled :=
  if_pos ⟨active, due⟩

theorem exec_lockOn (active : threadingActive s k = true) (due : lockOnDue (s.tick dt) k f = true) :
    exec (.lockOn dt k f) s =
      .next (takeRaised (summaryAfter (s.tick dt) (threadingWork k f (s.tick dt)))).settled :=
  if_pos ⟨active, due⟩

/-- Work that leaves the queues and the generator and raises nothing is not followed by a summary or a cause (R21, R25). -/
theorem takeRaised_summaryAfter {before after : State} (zones : after.tracker.zones = before.tracker.zones)
    (gen : after.tracker.gen = before.tracker.gen) (quiet : after.tracker.raised = []) :
    takeRaised (summaryAfter before after) = after := by
  rw [summaryAfter_same _ _ zones gen, takeRaised_none _ quiet]

/-! ### The steps of a reply's threading work (R29) -/

theorem confirmOrLock_loadOn (due : loadOnDue s k = true) : confirmOrLock k s = loadOnAt k (clearRuns k s) := if_pos due

theorem confirmOrLock_loadOff (off : loadOnDue s k = false) (due : loadOffDue s k = true) :
    confirmOrLock k s = loadOffAt k (clearRuns k s) := by
  unfold confirmOrLock
  rw [off, due]
  rfl

theorem confirmOrLock_lock (off : loadOnDue s k = false) (on : loadOffDue s k = false) :
    confirmOrLock k s = advanceLock k s := by
  unfold confirmOrLock
  rw [off, on]
  rfl

theorem loadOffDue_iff : loadOffDue s k = true ↔ (s.thread k).state.loaded = true ∧ s.lineCopy.nDb ≤ (s.thread k).offRun := by
  unfold loadOffDue State.loadedAt
  simp

theorem loadOnDue_loaded (loaded : (s.thread k).state.loaded = true) : loadOnDue s k = false := by
  rw [Bool.eq_false_iff, ne_eq, loadOnDue_iff, loaded]
  exact fun h => nomatch h.1

theorem loadOffDue_short (short : (s.thread k).offRun < s.lineCopy.nDb) : loadOffDue s k = false := by
  rw [Bool.eq_false_iff, ne_eq, loadOffDue_iff]
  exact fun h => absurd h.2 (Nat.not_le.mpr short)

theorem lockReached_iff : lockReached s k = true ↔
    ((s.thread k).state = .biting ∨ (s.thread k).state = .tailing ∧ (s.thread k).lockMade = false) ∧
      (s.sched k).nLock ≤ (s.thread k).lockCount + 1 := by
  unfold lockReached lockAdvances
  simp

theorem advanceLock_reached (reached : lockReached s k = true) :
    advanceLock k s = captureLock k (s.withThread k { s.thread k with
      lockCount := (s.thread k).lockCount + 1, lockMade := true,
      state := if (s.thread k).state = .biting then .rolling else (s.thread k).state }) :=
  if_pos reached

end

/-- Settles O54: the notices and runs leave a loaded stand whose off run is short, and the lock count reaches N_lock. -/
theorem lockOnCapturesTheThickness : Obligations.LockOnCapturesTheThickness := by
  refine ⟨fun dt k f s absent => exec_lockOn_absent absent, ?_⟩
  intro dt k f on off s run clear quiet present upTo8 one upTo state unlocked count hOn hOff short
  have inside : 1 ≤ k ∧ k ≤ 8 := ⟨one, upTo.trans upTo8⟩
  have notVacant : (s.thread k).state ≠ .vacant := by
    rcases state with h | h <;> rw [h] <;> nofun
  obtain ⟨T, hT⟩ : ∃ T : Threading, T = { s.thread k with
    onRun := on, offRun := off, releaseNotice := false, headNotice := none,
    state := if (s.thread k).releaseNotice = true ∧ ((s.thread k).state = .biting ∨ (s.thread k).state = .rolling)
      then .tailing else (s.thread k).state } := ⟨_, rfl⟩
  have noticed : noticesAndRuns k f (s.tick dt) = (s.tick dt).withThread k T := by
    rw [countRuns_after_notices (s.tick dt) k f inside _ (takeNotices_loaded (s.tick dt) k inside notVacant), hT, hOn, hOff]
    rfl
  obtain ⟨u, hu⟩ : ∃ u, u = (s.tick dt).withThread k T := ⟨_, rfl⟩
  have thread : u.thread k = T := by rw [hu]; exact withThread_thread _ _ _ inside
  have stateT : T.state = .biting ∨ T.state = .tailing := by
    rw [hT]
    dsimp only
    split
    · exact .inr rfl
    · exact state
  have loaded : (u.thread k).state.loaded = true := by
    rw [thread]
    rcases stateT with h | h <;> rw [h] <;> rfl
  have noOff : loadOffDue u k = false := loadOffDue_short (by
    rw [thread, hT, hu]
    exact short)
  have reached : lockReached u k = true := lockReached_iff.mpr (by
    rw [thread]
    refine ⟨stateT.imp_right fun h => ⟨h, ?_⟩, ?_⟩
    · rw [hT]
      exact unlocked
    · rw [hT, hu]
      exact count)
  have due : lockOnDue (s.tick dt) k f = true := by
    unfold lockOnDue
    rw [noticed, ← hu]
    dsimp only
    rw [loadOnDue_loaded loaded, noOff, reached]
    rfl
  have work : threadingWork k f (s.tick dt) = captureLock k (u.withThread k { T with
      lockCount := T.lockCount + 1, lockMade := true, state := if T.state = .biting then .rolling else T.state }) := by
    unfold threadingWork
    rw [noticed, ← hu, confirmOrLock_lock (loadOnDue_loaded loaded) noOff, advanceLock_reached reached, thread]
  have after : (if T.state = .biting then ThreadState.rolling else T.state) =
      if (s.thread k).state = .biting ∧ (s.thread k).releaseNotice = false then .rolling else .tailing := by
    rw [hT]
    rcases state with h | h <;> cases hr : (s.thread k).releaseNotice <;> simp [h]
  rw [exec_lockOn (threadingActive_of run clear one upTo present) due, work, takeRaised_summaryAfter, after, hT, hu]
  · unfold captureLock State.withThread State.withTracker State.withRef
    dsimp only
    rw [PerStand.set_set]
    rfl
  · rw [hu]
    rfl
  · rw [hu]
    rfl
  · rw [hu]
    exact quiet

end Sys2Proof.Machine

/-! Proofs for the segment generator's cuts (R9, R12, R14), and what the tracking summary and the causes raised make of a
piece of the Tracker's work (R21, R25). -/

namespace Sys2Proof.Machine

section
variable {s u before : State} {dt : Clock}

/-! ### The end of a piece of the Tracker's work (R21, R25) -/

theorem rewriteSummary_written (same : u.summary = s.summary) : SummaryWritten s (rewriteSummary u) := by
  unfold rewriteSummary
  exact ⟨_, rfl, by rw [same], rfl, rfl, rfl, rfl⟩

/-- The summary shows the queues, the empty-spell flag and the generator. -/
theorem SummaryWritten.of_same {t : State} (written : SummaryWritten s u) (summary : t.summary = u.summary)
    (zones : t.tracker.zones = u.tracker.zones) (spell : t.tracker.emptySpell = u.tracker.emptySpell)
    (gen : t.tracker.gen = u.tracker.gen) : SummaryWritten s t := by
  obtain ⟨m, shown, items⟩ := written
  refine ⟨m, summary.trans shown, ?_⟩
  unfold State.marksQueued at *
  rw [zones, spell, gen]
  exact items

theorem summaryAfter_zones (changed : u.tracker.zones ≠ before.tracker.zones) : summaryAfter before u = rewriteSummary u :=
  if_neg fun same => changed same.1

theorem summaryAfter_gen (changed : u.tracker.gen ≠ before.tracker.gen) : summaryAfter before u = rewriteSummary u :=
  if_neg fun same => changed same.2

/-- The summary's rewriting touches nothing but the summary. -/
theorem summaryAfter_eq : summaryAfter before u = { u with summary := (summaryAfter before u).summary } := by
  unfold summaryAfter
  split <;> rfl

theorem takeRaised_after (quiet : u.tracker.raised = []) :
    takeRaised (summaryAfter before u) = { u with summary := (summaryAfter before u).summary } := by
  rw [takeRaised_none _ (by rw [summaryAfter_eq]; exact quiet)]
  exact summaryAfter_eq

theorem takeRaised_nil (raised : s.tracker.raised = []) :
    takeRaised s = { s with tracker := { s.tracker with raised := [] } } := by
  unfold takeRaised
  rw [raised]
  rfl

theorem takeRaised_one {c : Cause} {k : Nat} (raised : s.tracker.raised = [(c, k)]) :
    takeRaised s = takeCause c k s.clock { s with tracker := { s.tracker with raised := [] } } := by
  unfold takeRaised
  rw [raised]
  rfl

/-! ### BODY_CUT (R9, R12, R14) -/

theorem exec_bodyCut_not {dL : Nat} (not : ¬((s.link.stations.get 1).state = .present ∧ s.tracker.gen.count - dL ≤ 0)) :
    exec (.bodyCut dt dL) s = .next (s.tick dt).settled :=
  if_neg fun work => not ⟨((deliversAt_iff (s.tick dt) 1).mp work.2.1).2, work.2.2.2⟩

theorem exec_bodyCut {dL : Nat} (run : s.level = .run) (clear : s.trip.latch = false)
    (present : (s.link.stations.get 1).state = .present) (running : s.tracker.gen.running = true)
    (passed : s.tracker.gen.count - dL ≤ 0) :
    exec (.bodyCut dt dL) s = .next (takeRaised (summaryAfter (s.tick dt) (countDown dL (s.tick dt)))).settled :=
  if_pos ⟨trackerActive_tick s dt run clear, (deliversAt_iff (s.tick dt) 1).mpr ⟨.inl run, present⟩, running, passed⟩

theorem countDown_running {dL n : Nat} {left : Int} {g : Generator} (gen : s.tracker.gen = g) (running : g.running = true)
    (hLeft : left = g.count - dL) (hn : n = (-left).toNat / g.base + 1) :
    countDown dL s = cutLoop n (withGen { running := true, base := g.base, count := left } s) := by
  subst gen hLeft hn
  unfold countDown
  simp only [running, if_true]

/-- As many whole segments as bring a count of 0 or below back above 0, and no more (R12). -/
theorem segments_restore {base n : Nat} {left : Int} (positive : 0 < base) (passed : left ≤ 0)
    (hn : n = (-left).toNat / base + 1) : 1 ≤ left + n * base ∧ left + n * base ≤ base := by
  obtain ⟨m, hm⟩ : ∃ m : Nat, m = (-left).toNat := ⟨_, rfl⟩
  rw [← hm] at hn
  have whole := Nat.div_add_mod m base
  have part := Nat.mod_lt m positive
  have total : n * base = base * (m / base) + base := by
    rw [hn, Nat.add_mul, Nat.mul_comm]
    omega
  have cast : (n : Int) * base = ((n * base : Nat) : Int) := by push_cast; rfl
  rw [cast]
  omega

end

/-- Settles O50: while the pool has room each segment ended gives its BODY; with the pool empty one record stands for all. -/
theorem bodyCutsFollowTheGenerator : Obligations.BodyCutsFollowTheGenerator := by
  refine ⟨fun dt dL s absent => exec_bodyCut_not fun h => absent h.1, ?_⟩
  intro dt dL n left s g run clear present quiet gen running base hLeft hn
  refine ⟨fun short => exec_bodyCut_not fun h => ?_, fun passed => ?_⟩
  · rw [gen] at h
    omega
  obtain ⟨low, high⟩ := segments_restore base passed hn
  have exec_eq : exec (.bodyCut dt dL) s =
      .next (takeRaised (summaryAfter (s.tick dt) (countDown dL (s.tick dt)))).settled :=
    exec_bodyCut run clear present (by rw [gen]; exact running) (by rw [gen]; omega)
  have counted := countDown_running (s := s.tick dt) (dL := dL) gen running hLeft hn
  obtain ⟨u, hu⟩ : ∃ u, u = withGen { running := true, base := g.base, count := left } (s.tick dt) := ⟨_, rfl⟩
  rw [← hu] at counted
  have newGen : ({ running := true, base := g.base, count := left + n * g.base } : Generator) =
      { g with count := left + n * g.base } := by rw [← running]
  refine ⟨low, high, fun cap room ahead => ?_, fun full => ?_⟩
  · have cuts := cutBodies_room g.base base cap n left u (by rw [hu]; rfl) passed hn (by rw [hu]; exact room) (by
      rw [hu]
      exact ahead.imp_left fun ⟨q, b, zone, hcap⟩ => ⟨q, b, zone, fun x _ => by rw [hcap]⟩)
    have cutZone : ((countDown dL (s.tick dt)).tracker.zones.get 1).length ≠ ((s.tick dt).tracker.zones.get 1).length := by
      rw [counted, cuts]
      show ((u.tracker.zones.set 1 _).get 1).length ≠ _
      rw [PerStand.get_set_same _ _ _ (by decide), hu]
      unfold cutsOf
      rw [List.length_append, List.length_map, List.length_range]
      show (s.zone 1).length + n ≠ (s.zone 1).length
      have some : 1 ≤ n := hn ▸ Nat.succ_pos _
      omega
    have summary : summaryAfter (s.tick dt) (countDown dL (s.tick dt)) = rewriteSummary (countDown dL (s.tick dt)) :=
      summaryAfter_zones fun same => cutZone (by rw [same])
    rw [summary, takeRaised_none _ (by rw [counted, cuts, hu]; exact quiet)] at exec_eq
    refine ⟨_, exec_eq, ?_, ?_⟩
    · exact (rewriteSummary_written (u := countDown dL (s.tick dt)) (by rw [counted, cuts, hu]; rfl)).of_same rfl rfl rfl rfl
    · rw [counted, cuts, newGen, hu]
      rfl
  · have cuts := cutBodies_empty g.base base n left u (by rw [hu]; rfl) passed hn (by rw [hu]; exact full)
    rw [newGen] at cuts
    obtain ⟨w, hw⟩ : ∃ w, w = (if s.tracker.emptySpell then s
      else note .poolEmpty 1 (s.clock + dt) (s.thread 1).coil 2 0 0 s) := ⟨_, rfl⟩
    have skip : withGen { g with count := left + n * g.base } (skipCut .body u) = { w with
        clock := s.clock + dt,
        tracker := { s.tracker with gen := { g with count := left + n * g.base }, emptySpell := true } } := by
      rw [hu, hw]
      unfold skipCut
      split
      · next spell =>
        rw [if_pos (show s.tracker.emptySpell = true from spell), ← show s.tracker.emptySpell = true from spell]
        rfl
      · next spell =>
        rw [if_neg (show ¬s.tracker.emptySpell = true from spell)]
        have onto := note_onto .poolEmpty 1 (s.clock + dt) (s.thread 1).coil 2 0 0 s
          (u.withTracker { u.tracker with emptySpell := true }) (by rw [hu]; rfl) (by rw [hu]; rfl)
        rw [hu] at onto
        refine (congrArg (withGen _) onto).trans ?_
        rw [note_onto .poolEmpty 1 (s.clock + dt) (s.thread 1).coil 2 0 0 s s rfl rfl]
        rfl
    have raised : (countDown dL (s.tick dt)).tracker.raised = [] := by
      rw [counted, cuts, skip]
      exact quiet
    rw [takeRaised_after raised, counted, cuts, skip] at exec_eq
    exact ⟨_, w, exec_eq, hw, rfl⟩

end Sys2Proof.Machine

/-! Proofs for the marks that leave at the gauge (R20, R64 to R69). -/

namespace Sys2Proof.Machine

section
variable {s r : State} {m : Mark} {k : Nat} {g : GaugeRecord} {gap : PerStand Reference}

/-! ### The pairing of a departing mark (R64 to R69) -/

/-- `s` with the gauge record, the references and the journal of a pairing under way; `r` holds its journal. -/
def pairing (s r : State) (gap : PerStand Reference) (g : GaugeRecord) : State :=
  { s with journal := r.journal, attention := r.attention, gap := gap, gauge := g }

theorem note_pairing (kd : RecordKind) (j : Nat) (tm : Clock) (c a b d : Word) :
    note kd j tm c a b d (pairing s r gap g) = pairing s (note kd j tm c a b d r) gap g :=
  note_onto kd j tm c a b d r (pairing s r gap g) rfl rfl

theorem note_journalOnly (only : r = pairing s r s.gap s.gauge) (kd : RecordKind) (j : Nat) (tm : Clock) (c a b d : Word) :
    note kd j tm c a b d r = pairing s (note kd j tm c a b d r) s.gap s.gauge := by
  conv_lhs => rw [only]
  exact note_pairing ..

theorem monUpdate_pairing (same : g.hx = s.gauge.hx) :
    monUpdate m (pairing s s s.gap g) = pairing s s (monUpdate m s).gap g := by
  unfold monUpdate
  simp only [show (pairing s s s.gap g).gauge.hx = s.gauge.hx from same]
  by_cases small :
      ((((s.scheduleOf m.tag).stands.get s.n).hTarget : Int) - s.gauge.hx).natAbs ≤ (s.scheduleOf m.tag).dbMon
  · rw [if_pos small]
    exact if_pos small
  · rw [if_neg small]
    exact if_neg small

theorem isOut_pairing (same : g.hx = s.gauge.hx) : isOut (pairing s r gap g) m = isOut s m := by
  unfold isOut
  rw [show (pairing s r gap g).gauge.hx = s.gauge.hx from same]
  rfl

theorem toleranceVerdict_pairing (same : g.hx = s.gauge.hx) (before : g.out = s.gauge.out) :
    toleranceVerdict m (pairing s r gap g) = pairing s
      (if isOut s m ≠ s.gauge.out then
        note (if isOut s m then .gaugeOut else .gaugeBack) s.n s.clock m.coil m.id (sat16 s.gauge.hx)
          (BitVec.ofNat 16 (gaugeTarget s m)) r
      else r) gap { g with out := isOut s m } := by
  unfold toleranceVerdict
  simp only [isOut_pairing (r := r) (gap := gap) (m := m) same, show (pairing s r gap g).gauge.out = s.gauge.out from before]
  by_cases changed : isOut s m = s.gauge.out
  · rw [if_pos changed, if_neg (not_not.mpr changed), changed, ← before]
  · rw [if_neg changed, if_pos changed]
    exact (note_pairing (s := s) (r := r) (gap := gap) (g := { g with out := isOut s m }) _ s.n s.clock m.coil m.id (sat16 g.hx)
      (BitVec.ofNat 16 (gaugeTarget s m))).trans (by rw [same])

theorem tallyUp_eq (n : Nat) (b : Bool) : tallyUp n b = min (n + if b then 1 else 0) 65535 := rfl

theorem tallyUp_not (n : Nat) (b : Bool) : tallyUp n (!b) = min (n + if b then 0 else 1) 65535 := by
  cases b <;> rfl

theorem tallyUp_and (n : Nat) (a b : Bool) : tallyUp n (a && b) = min (n + if a = true ∧ b = true then 1 else 0) 65535 := by
  cases a <;> cases b <;> rfl

/-- What the pairing of the mark `m` makes of the gauge record (R65, R67, R69). -/
def pairedRecord (s : State) (m : Mark) : GaugeRecord :=
  { s.gauge with
    out := if isPaired s then isOut s m else s.gauge.out
    paired := if m.kind = .tail then 0
      else tallyUp (if m.kind = .head then 0 else s.gauge.paired) (isPaired s)
    unpaired := if m.kind = .tail then 0
      else tallyUp (if m.kind = .head then 0 else s.gauge.unpaired) (!isPaired s)
    outCount := if m.kind = .tail then 0
      else tallyUp (if m.kind = .head then 0 else s.gauge.outCount) (isPaired s && isOut s m) }

/-- The state whose journal has the records of a mark's pairing but COIL_GAUGED (R67, R68). -/
def pairedRecords (s : State) (m : Mark) : State :=
  let r1 := if isPaired s = true ∧ isOut s m ≠ s.gauge.out then
      note (if isOut s m then .gaugeOut else .gaugeBack) s.n s.clock m.coil m.id (sat16 s.gauge.hx)
        (BitVec.ofNat 16 (gaugeTarget s m)) s
    else s
  if isPaired s = true ∧ s.lineCopy.options % 2 = 1 then
    note .markGauged s.n s.clock m.coil m.id (sat16 s.gauge.hx) (sat16 (m.thick.getD (s.n - 1) 0)) r1
  else r1

/-- COIL_GAUGED of a TAIL, with the counts of its coil (R69). -/
def coilRecord (s : State) (m : Mark) : State :=
  if m.kind = .tail then
    note .coilGauged s.n s.clock m.coil (sat16 (tallyUp s.gauge.paired (isPaired s)))
      (sat16 (tallyUp s.gauge.unpaired (!isPaired s))) (sat16 (tallyUp s.gauge.outCount (isPaired s && isOut s m)))
      (pairedRecords s m)
  else pairedRecords s m

theorem pairMark_eq :
    pairMark m s = pairing s (coilRecord s m)
      (if isPaired s = true ∧ m.kind ≠ .tail then monUpdate m s else s).gap (pairedRecord s m) := by
  obtain ⟨g1, hg1⟩ : ∃ g1, g1 = (if m.kind = .head then { s.gauge with paired := 0, unpaired := 0, outCount := 0 }
    else s.gauge) := ⟨_, rfl⟩
  obtain ⟨gap, hgap⟩ : ∃ gap, gap = (if isPaired s = true ∧ m.kind ≠ .tail then monUpdate m s else s).gap := ⟨_, rfl⟩
  have hx : g1.hx = s.gauge.hx := by rw [hg1]; split <;> rfl
  have out : g1.out = s.gauge.out := by rw [hg1]; split <;> rfl
  have restarted : (if m.kind = .head then { s with gauge := { s.gauge with paired := 0, unpaired := 0, outCount := 0 } }
      else s) = pairing s s s.gap g1 := by
    rw [hg1]
    split <;> rfl
  have corrected : (if isPaired s = true ∧ m.kind ≠ .tail then monUpdate m (pairing s s s.gap g1)
      else pairing s s s.gap g1) = pairing s s gap g1 := by
    rw [monUpdate_pairing hx, hgap]
    split <;> rfl
  obtain ⟨r1, hr1⟩ : ∃ r1, r1 = (if isPaired s = true ∧ isOut s m ≠ s.gauge.out then
      note (if isOut s m then .gaugeOut else .gaugeBack) s.n s.clock m.coil m.id (sat16 s.gauge.hx)
        (BitVec.ofNat 16 (gaugeTarget s m)) s
    else s) := ⟨_, rfl⟩
  obtain ⟨g2, hg2⟩ : ∃ g2, g2 = { g1 with out := if isPaired s then isOut s m else s.gauge.out } := ⟨_, rfl⟩
  have judged : (if isPaired s then toleranceVerdict m (pairing s s gap g1) else pairing s s gap g1) =
      pairing s r1 gap g2 := by
    rw [toleranceVerdict_pairing hx out, hg2, hr1]
    cases isPaired s
    · simp [← out]
    · simp
  have hx2 : g2.hx = s.gauge.hx := by rw [hg2]; exact hx
  have reported : (if isPaired s = true ∧ s.lineCopy.options % 2 = 1 then
        note .markGauged (pairing s r1 gap g2).n (pairing s r1 gap g2).clock m.coil m.id (sat16 (pairing s r1 gap g2).gauge.hx)
          (sat16 (m.thick.getD ((pairing s r1 gap g2).n - 1) 0)) (pairing s r1 gap g2)
      else pairing s r1 gap g2) = pairing s (pairedRecords s m) gap g2 := by
    unfold pairedRecords
    rw [← hr1, show (pairing s r1 gap g2).gauge.hx = s.gauge.hx from hx2, note_pairing]
    split <;> rfl
  obtain ⟨g3, hg3⟩ : ∃ g3, g3 = { g2 with
      paired := tallyUp g2.paired (isPaired s), unpaired := tallyUp g2.unpaired (!isPaired s),
      outCount := tallyUp g2.outCount (isPaired s && isOut s m) } := ⟨_, rfl⟩
  have counted : pairMark m s = if m.kind = .tail then
        clearTally (note .coilGauged s.n s.clock m.coil (sat16 g3.paired) (sat16 g3.unpaired) (sat16 g3.outCount)
          (pairing s (pairedRecords s m) gap g3))
      else pairing s (pairedRecords s m) gap g3 := by
    unfold pairMark
    dsimp only
    rw [restarted, corrected, judged, reported, hg3]
    rfl
  rw [counted, note_pairing]
  unfold coilRecord pairedRecord
  by_cases tail : m.kind = .tail
  · have whole : g1 = s.gauge := by rw [hg1, tail]; rfl
    simp only [if_pos tail]
    rw [← hgap, hg3, hg2, whole]
    rfl
  · simp only [if_neg tail]
    rw [← hgap, hg3, hg2, hg1]
    split <;> rfl


/-! ### Leaving the gauge zone (R20) -/

theorem slipAt_eq : slipAt s k = (s.slotAt k).elim 0 fun _ => (s.sched k).slip := by
  unfold slipAt
  cases s.slotAt k <;> rfl

/-- What a mark's departure leaves, but for a DRAINING slot that goes with it (R20, R64 to R69). -/
def departed (k : Nat) (m : Mark) (rest : List Mark) (s : State) : State :=
  { pairing s (coilRecord s m) (if isPaired s = true ∧ m.kind ≠ .tail then monUpdate m s else s).gap (pairedRecord s m) with
    tracker := { s.tracker with zones := s.tracker.zones.set k rest, emptySpell := false } }

theorem departMark_eq {rest : List Mark} : departMark k m rest s = markDeparted m.tag (departed k m rest s) := by
  unfold departMark departed
  rw [pairMark_eq]
  rfl

theorem markDeparted_frees {x : Slot} (tag : m.tag = some x) (draining : (s.store.slot x).state = .draining)
    (last : ¬tagsAMark s x) : markDeparted m.tag s =
      (note .slotFreed 0 s.clock (s.store.slot x).coil (BitVec.ofNat 16 x.code) 2 0 s).withSlot x {} := by
  have none : s.tagCount x = 0 := Nat.eq_zero_of_not_pos fun some => last ((tagCount_pos s x).mp some)
  unfold markDeparted
  rw [tag]
  exact if_pos ⟨draining, none⟩

theorem markDeparted_keeps_slots (not : ∀ x, m.tag = some x → (s.store.slot x).state = .draining → tagsAMark s x) :
    markDeparted m.tag s = s := by
  unfold markDeparted
  split
  · rfl
  · next x tag =>
    refine if_neg fun free => ?_
    have some := (tagCount_pos s x).mpr (not x tag free.1)
    omega

theorem arrive_departs {extra : Nat} {rest : List Mark} (last : s.n ≤ k) (zone : s.zone k = m :: rest) :
    arrive zoneFuel k extra s = (departMark k m rest s, true) := by
  unfold zoneFuel
  rw [arrive, zone]
  exact if_pos last

/-- The walk of a zone whose front mark leaves it goes on with the mark behind (R8). -/
theorem advanceWalk_leaves {fuel dL : Nat} {rest : List Mark} (zone : s.zone k = m :: rest) (reached : s.zoneLen k ≤ m.pos + dL)
    {u : State} (left : arrive zoneFuel k (m.pos + dL - s.zoneLen k) s = (u, true)) :
    advanceWalk (fuel + 1) k dL s = advanceWalk fuel k dL u := by
  rw [advanceWalk, zone]
  dsimp only
  rw [if_neg (Nat.not_lt.mpr reached), left]
  rfl

/-- The carry of zone `k` replaced (R7). -/
def withCarry (k c : Nat) (s : State) : State := { s with tracker := { s.tracker with carry := s.tracker.carry.set k c } }

/-- A zone's advance is the walk of its marks, with the new carry (R7, R8). -/
theorem advanceZone_walk {v dt q : Nat}
    (hq : q = v * (1000 + (s.slotAt k).elim 0 (fun _ => (s.sched k).slip)) * min dt 100000 + s.tracker.carry.get k) :
    advanceZone k v (some dt) s =
      (advanceWalk ((s.zone k).length + 1) k (q / 1000000) (withCarry k (q % 1000000) s), q / 1000000) := by
  rw [← slipAt_eq] at hq
  subst hq
  rfl

end

/-- Settles O49: the walk meets the departure, which the pairing's parts make up. -/
theorem departingMarksArePairedAndCounted : Obligations.DepartingMarksArePairedAndCounted := by
  refine ⟨?_, ?_⟩
  · intro k v dt q s m rest inside gauge zone hq reached
    rw [advanceZone_walk hq, zone]
    exact advanceWalk_leaves (s := withCarry k (q % 1000000) s) zone reached
      (arrive_departs (le_of_eq gauge.symm) zone)
  · intro k target p u o paired out tail m rest s t r1 r2 r3 inside gauge zone hPaired hTarget hOut hTail hr1 hr2 hp hu ho hr3 ht
    subst gauge
    have paired_eq : isPaired s = paired := by
      rw [hPaired]
      unfold isPaired sampleAge ageLimit
      simp only [Bool.decide_and, Bool.decide_eq_false, Bool.decide_eq_true, Bool.and_assoc]
    have target_eq : gaugeTarget s m = target := hTarget.symm
    have out_eq : isOut s m = out := by
      rw [hOut]
      unfold isOut
      rw [target_eq]
    have same : t = departed s.n m rest s := by
      have records : pairedRecords s m = r2 := by
        unfold pairedRecords
        rw [paired_eq, out_eq, target_eq, ← hr1]
        exact hr2.symm
      have coil : coilRecord s m = r3 := by
        unfold coilRecord
        by_cases ends : m.kind = .tail
        · have notHead : ¬m.kind = .head := by rw [ends]; nofun
          rw [hTail, decide_eq_true ends, if_pos rfl] at hr3
          rw [if_neg notHead] at hp hu ho
          rw [if_pos ends, records, paired_eq, out_eq, hr3, hp, hu, ho, tallyUp_eq, tallyUp_not, tallyUp_and]
        · rw [hTail, decide_eq_false ends] at hr3
          rw [if_neg ends, records, hr3]
          rfl
      have only : r3 = pairing s r3 s.gap s.gauge := by
        have first : r1 = pairing s r1 s.gap s.gauge := by
          rw [hr1]
          split
          · exact note_journalOnly rfl ..
          · rfl
        have second : r2 = pairing s r2 s.gap s.gauge := by
          rw [hr2]
          split
          · exact note_journalOnly first ..
          · exact first
        rw [hr3]
        split
        · exact note_journalOnly second ..
        · exact second
      have record : pairedRecord s m = { s.gauge with
          out := if paired then out else s.gauge.out, paired := if tail then 0 else p,
          unpaired := if tail then 0 else u, outCount := if tail then 0 else o } := by
        unfold pairedRecord
        rw [paired_eq, out_eq, tallyUp_eq, tallyUp_not, tallyUp_and, ← hp, ← hu, ← ho, hTail]
        simp only [decide_eq_true_eq]
      have updated : (if isPaired s = true ∧ m.kind ≠ .tail then monUpdate m s else s) =
          if paired = true ∧ tail = false then monUpdate m s else s := by
        rw [paired_eq, hTail]
        simp only [decide_eq_false_iff_not, ne_eq]
      rw [ht, only]
      unfold departed
      rw [coil, record, updated]
      rfl
    have clock : t.clock = s.clock := by rw [same]; rfl
    have store : t.store = s.store := by rw [same]; rfl
    rw [departMark_eq, ← same]
    refine ⟨fun x tag draining last => ?_, fun others => ?_⟩
    · rw [markDeparted_frees tag (by rw [store]; exact draining) fun ⟨j, hj, y, hy, carries⟩ => last j hj y hy carries, clock, store]
    · exact markDeparted_keeps_slots fun x tag draining => others x tag (by rw [← store]; exact draining)

end Sys2Proof.Machine

/-! Proofs for the bite at stand 1 (R11, R14, R27, R28, R30, R33). -/

namespace Sys2Proof.Machine

section
variable {s u : State} {dt : Clock} {f : Nat}

/-! ### The reply that confirms the bite (R27, R28) -/

/-- What a reply that confirms a load-on at stand `k` leaves before the bite, where the stand takes no notice: both runs 0. -/
def runsCleared (k : Nat) (s : State) : State := s.withThread k { s.thread k with onRun := 0, offRun := 0 }

theorem clearRuns_withThread {k : Nat} {t : Threading} (inside : 1 ≤ k ∧ k ≤ 8) :
    clearRuns k (s.withThread k t) = s.withThread k { t with onRun := 0, offRun := 0 } := by
  unfold clearRuns
  rw [withThread_thread _ _ _ inside, withThread_withThread]

/-- The journal and ATTENTION after a record are the same in two states that had the same before. -/
theorem note_same (kd : RecordKind) (k : Nat) (tm : Clock) (c a b d : Word) (journal : u.journal = s.journal)
    (attention : u.attention = s.attention) :
    (note kd k tm c a b d u).journal = (note kd k tm c a b d s).journal ∧
      (note kd k tm c a b d u).attention = (note kd k tm c a b d s).attention := by
  rw [note_onto kd k tm c a b d s u journal attention]
  exact ⟨rfl, rfl⟩

/-- The work of a reply that confirms a load-on at stand 1 with no notice pending is the bite, with both runs 0 (R28, R33). -/
theorem threadingWork_bite_one (state : (s.thread 1).state = .vacant ∨ (s.thread 1).state = .expecting)
    (noHead : (s.thread 1).headNotice = none) (noRelease : (s.thread 1).releaseNotice = false)
    (slot : (s.slotAt 1).isSome = true) (loaded : (s.sched 1).fOn ≤ f)
    (debounced : s.lineCopy.nDb ≤ min ((s.thread 1).onRun + 1) 4) :
    loadOnDue (noticesAndRuns 1 f s) 1 = true ∧ threadingWork 1 f s = bite1 (runsCleared 1 s) := by
  have inside : 1 ≤ 1 ∧ 1 ≤ 8 := by decide
  have noticed := countRuns_after_notices s 1 f inside _ (takeNotices_plain s 1 inside (state.symm.imp_right fun h => ⟨h, noHead⟩))
  have due : loadOnDue (noticesAndRuns 1 f s) 1 = true := by
    rw [noticed, loadOnDue_iff, withThread_thread _ _ _ inside]
    refine ⟨?_, ?_⟩
    · rcases state with h | h <;> exact (congrArg ThreadState.loaded h)
    · dsimp only
      rw [if_pos ⟨slot, loaded⟩]
      exact debounced
  refine ⟨due, ?_⟩
  unfold threadingWork
  rw [confirmOrLock_loadOn due, noticed, clearRuns_withThread inside, ← noHead, ← noRelease]
  rfl

/-! ### A HEAD that leaves at the gauge as it is cut (R11, R20) -/

/-- The marks of a head counted by its departure: one, paired or unpaired (R65, R69). -/
theorem pairedRecord_head {m : Mark} (head : m.kind = .head) :
    (pairedRecord s m).paired + (pairedRecord s m).unpaired = 1 := by
  unfold pairedRecord
  rw [head]
  cases isPaired s <;> rfl

theorem markDeparted_gauge {tag : Option Slot} : (markDeparted tag s).gauge = s.gauge := by simp

theorem markDeparted_est {tag : Option Slot} : (markDeparted tag s).est = s.est := by simp

/-! ### What the bite leaves -/

/-- A HEAD cut into a zone 1 of no length on a line of one stand leaves at the gauge at once (R11, R20). -/
theorem cutHead_departs {m : Mark} (room : s.hasRoom = true) (empty : s.zone 1 = []) (none : s.zoneLen 1 = 0) (one : s.n = 1)
    (cut : m = newMark s .head 0) : cutHead s = loadGenerator (departMark 1 m [] (cutMark .head 0 s)) := by
  have queue : (cutMark .head 0 s).zone 1 = [m] := by
    rw [cut]
    exact (PerStand.get_set_same s.tracker.zones 1 _ (by decide)).trans (by rw [show s.tracker.zones.get 1 = [] from empty]; rfl)
  unfold cutHead
  dsimp only
  rw [if_pos room, if_pos ⟨none, empty⟩, arrive_departs (s := cutMark .head 0 s) (le_of_eq one) queue]

theorem setHeadNotices_one {c : Word} (one : s.n = 1) : setHeadNotices c s = s := by
  unfold setHeadNotices
  rw [one]
  rfl

/-- The threading record of stand 1 as it bites: an announced coil stays, and a VACANT stand bites without one (R33). -/
theorem startBiting_one {coil : Word} {h0 : Nat} {free : Bool} (hfree : free = decide ((s.thread 1).state = .vacant))
    (hcoil : coil = if free then 0 else (s.thread 1).coil) (hh0 : h0 = if free then 0 else (s.thread 1).h0) :
    startBiting 1 (forgetAnnouncement s) = s.withThread 1 { s.thread 1 with
      state := .biting, coil := coil, h0 := h0, lockCount := 0, lockMade := false } := by
  have vacancy : s.vacant 1 = free := by
    rw [hfree]
    unfold State.vacant
    cases (s.thread 1).state <;> rfl
  unfold startBiting forgetAnnouncement
  rw [vacancy, hcoil, hh0]
  cases free
  · rfl
  · simp only [if_true]
    rw [withThread_thread _ _ _ (by decide), withThread_withThread]

/-- On a line of one stand the bite does nothing to the Tracker and the gauge record but by its cut (R33). -/
theorem bite1_single {cut : State} (hcut : cut = cutHead (startBiting 1 (forgetAnnouncement s))) (one : cut.n = 1) :
    (bite1 s).tracker = cut.tracker ∧ (bite1 s).gauge = cut.gauge ∧ ((bite1 s).est.get 1).mode = .held := by
  have noticed : (if s.hasRoom = true then setHeadNotices (cut.thread 1).coil cut else cut) = cut := by
    rw [setHeadNotices_one one]
    exact ite_self _
  obtain ⟨noted, hnoted⟩ : ∃ noted,
      noted = noteBite1 (s.vacant 1) (if s.hasRoom = true then s.tracker.nextId else 0) cut := ⟨_, rfl⟩
  have bitten : bite1 s = if s.vacant 1 then leaveVacant 1 (setMode 1 .held noted) else setMode 1 .held noted := by
    unfold bite1
    dsimp only
    rw [← hcut, noticed, ← hnoted]
  have mode : ((setMode 1 .held noted).est.get 1).mode = .held :=
    congrArg Estimate.mode (PerStand.get_set_same noted.est 1 { noted.est.get 1 with mode := .held } (by decide))
  rw [bitten]
  split
  · refine ⟨?_, ?_, ?_⟩
    · simp [hnoted]
    · simp [hnoted]
    · rw [show (leaveVacant 1 (setMode 1 .held noted)).est = (setMode 1 .held noted).est by simp]
      exact mode
  · refine ⟨?_, ?_, mode⟩
    · simp [hnoted]
    · simp [hnoted]

end

/-- Settles O51: with the runs cleared, `bite_one` gives all the bite does; a HEAD that leaves at once is paired there. -/
theorem loadOnBitesAtStandOne : Obligations.LoadOnBitesAtStandOne := by
  refine ⟨fun dt f s absent => exec_loadOn_absent absent, ?_⟩
  intro dt f h0 coil id h free room ends s m0 m1 m2 run present clear quiet one hfree hroom hends state noHead noRelease slot
    loaded debounced hcoil hh0 hh hid hm0 hm1 hm2 th gen
  have inside : 1 ≤ 1 ∧ 1 ≤ 8 := by decide
  obtain ⟨due, work⟩ := threadingWork_bite_one (s := s.tick dt) state noHead noRelease slot loaded debounced
  have exec_eq := exec_loadOn (threadingActive_of run clear (le_refl 1) one present) due
  obtain ⟨x, hx⟩ : ∃ x, x = runsCleared 1 (s.tick dt) := ⟨_, rfl⟩
  rw [work, ← hx] at exec_eq
  have thread1 : x.thread 1 = { s.thread 1 with onRun := 0, offRun := 0 } := by
    rw [hx]
    exact withThread_thread _ _ _ inside
  have threads : ∀ j, j ≠ 1 → x.thread j = s.thread j := fun j hj => by
    rw [hx]
    exact withThread_other _ _ _ _ hj
  refine ⟨fun stays => ?_, fun leaves single => ?_⟩
  · obtain ⟨x0, hx0⟩ : ∃ x0, x0 = (if room = true ∨ x.tracker.emptySpell = true then x
      else note .poolEmpty 1 x.clock coil 1 0 0 x) := ⟨_, rfl⟩
    obtain ⟨x1, hx1⟩ : ∃ x1, x1 = note .bite 1 x.clock coil h id (sat16 h0) x0 := ⟨_, rfl⟩
    obtain ⟨x2, hx2⟩ : ∃ x2, x2 = (if free then note .unannouncedBite 1 x.clock 0 h id 0 x1 else x1) := ⟨_, rfl⟩
    obtain ⟨P, g, bitten, own, others, moves⟩ := bite_one x coil h0 free room ends (by rw [thread1]; exact hfree)
      (by rw [hx]; exact hroom) (by rw [hx]; exact hends) (by rw [hx]; exact stays) (by rw [thread1]; exact hcoil)
      (by rw [thread1]; exact hh0) h id x0 x1 x2 (by rw [hx]; exact hh) (by rw [hx]; exact hid) hx0 hx1 hx2
    have clock : x.clock = s.clock + dt := by rw [hx]; rfl
    have same0 : x0.journal = m0.journal ∧ x0.attention = m0.attention := by
      rw [hx0, hm0, show x.tracker.emptySpell = s.tracker.emptySpell by rw [hx]; rfl, clock]
      split
      · rw [hx]
        exact ⟨rfl, rfl⟩
      · exact note_same _ _ _ _ _ _ _ (by rw [hx]; rfl) (by rw [hx]; rfl)
    have same1 : x1.journal = m1.journal ∧ x1.attention = m1.attention := by
      rw [hx1, hm1, clock]
      exact note_same _ _ _ _ _ _ _ same0.1 same0.2
    have same2 : x2.journal = m2.journal ∧ x2.attention = m2.attention := by
      rw [hx2, hm2, clock]
      split
      · exact note_same _ _ _ _ _ _ _ same1.1 same1.2
      · exact same1
    rw [same2.1, same2.2] at bitten
    obtain ⟨w, hw⟩ : ∃ w, w = bite1 x := ⟨_, rfl⟩
    rw [← hw] at exec_eq bitten
    obtain ⟨y, hy⟩ : ∃ y, y = summaryAfter (s.tick dt) w := ⟨_, rfl⟩
    rw [← hy] at exec_eq
    have afterSummary : y = { w with summary := y.summary } := hy ▸ summaryAfter_eq
    obtain ⟨v, hv⟩ : ∃ v, v = { y with tracker := { y.tracker with raised := s.tracker.raised } } := ⟨_, rfl⟩
    have raised : y.tracker.raised = if ends = true ∧ (s.thread 2).state.loaded = true then [(.coilOverlap, 2)] else [] := by
      rw [afterSummary, bitten, threads 2 (by decide), hx]
      exact (congrArg (· ++ _) quiet).trans (List.nil_append _)
    have caused : takeRaised y = if ends = true ∧ (s.thread 2).state.loaded = true then
        takeCause .coilOverlap 2 (s.clock + dt) v else v := by
      have yClock : y.clock = s.clock + dt := by rw [afterSummary, bitten, hx]; rfl
      split
      · next overlaps =>
        rw [if_pos overlaps] at raised
        rw [takeRaised_one raised, hv, quiet, yClock]
      · next apart =>
        rw [if_neg apart] at raised
        rw [takeRaised_nil raised, hv, quiet]
    have left : v = { s with
        clock := s.clock + dt, summary := y.summary, journal := m2.journal, attention := m2.attention,
        est := s.est.set 1 { s.est.get 1 with mode := .held }, gap := g,
        tracker := { s.tracker with
          gen := gen,
          emptySpell := s.tracker.emptySpell || !room, nextId := if room then s.tracker.nextId + 1 else s.tracker.nextId,
          lastPassed := if room then s.tracker.lastPassed.set 1 (some id) else s.tracker.lastPassed,
          zones := if room then s.tracker.zones.set 1 (s.zone 1 ++
              [{ id := id, coil := coil, tag := s.slotAt 1, kind := .head, pos := 0, thick := [(s.est.get 1).hEst],
                 hold := if ends then some 0 else none }])
            else s.tracker.zones,
          threading := P } } := by
      rw [hv, afterSummary, bitten, hx]
      rfl
    have ownThread : v.thread 1 = th := by
      rw [left]
      refine own.trans ?_
      rw [thread1]
    rw [caused] at exec_eq
    refine ⟨_, v, exec_eq, rfl, fun written => ?_, ?_, ownThread, fun j hj other => ?_, fun j hj => ?_⟩
    · have changed : y = rewriteSummary w := by
        rw [hy]
        rcases written with hroom | hrunning
        · refine summaryAfter_zones fun same => ?_
          have longer : ((w.tracker.zones.get 1).length) = ((s.zone 1).length) := congrArg (fun z => (z.get 1).length) same
          rw [bitten, hroom, hx] at longer
          have grown := congrArg List.length (PerStand.get_set_same s.tracker.zones 1 (s.zone 1 ++
            [{ id := id, coil := coil, tag := s.slotAt 1, kind := .head, pos := 0, thick := [(s.est.get 1).hEst],
               hold := if ends then some 0 else none }]) inside)
          rw [List.length_append, List.length_singleton] at grown
          exact absurd (grown.symm.trans longer) (Nat.succ_ne_self _)
        · refine summaryAfter_gen fun same => ?_
          have runs : w.tracker.gen.running = s.tracker.gen.running := congrArg Generator.running same
          rw [bitten, hrunning] at runs
          exact absurd runs nofun
      rw [hv, changed]
      exact (rewriteSummary_written (u := w) (by rw [bitten, hx]; rfl)).of_same rfl rfl rfl rfl
    · rw [left]
    · rw [left]
      refine (others j hj other).trans ?_
      rw [threads j other, hx]
      rfl
    · rw [left]
      refine (moves j hj).trans ?_
      rw [hx]
      rfl
  · rw [hends] at leaves
    obtain ⟨hr, short, empty⟩ := of_decide_eq_true leaves
    have emptied : s.zone 1 = [] := empty.resolve_right (by omega)
    have began : startBiting 1 (forgetAnnouncement x) = x.withThread 1 th := by
      rw [startBiting_one (s := x) (coil := coil) (h0 := h0) (free := free) (by rw [thread1]; exact hfree)
        (by rw [thread1]; exact hcoil) (by rw [thread1]; exact hh0), thread1]
    obtain ⟨a, ha⟩ : ∃ a, a = x.withThread 1 th := ⟨_, rfl⟩
    have roomA : a.hasRoom = true := by
      rw [ha, hx]
      refine decide_eq_true ?_
      have := of_decide_eq_true (hroom.symm.trans hr)
      unfold State.marksQueued at this
      show 0 < s.tracker.freeRecords
      unfold Tracker.freeRecords
      omega
    obtain ⟨m, hm⟩ : ∃ m, m = newMark a .head 0 := ⟨_, rfl⟩
    obtain ⟨d, hd⟩ : ∃ d, d = departMark 1 m [] (cutMark .head 0 a) := ⟨_, rfl⟩
    have cut : cutHead a = loadGenerator d := by
      rw [hd]
      exact cutHead_departs roomA (by rw [ha, hx]; exact emptied) (by rw [ha, hx]; exact short) (by rw [ha, hx]; exact single) hm
    have lineD : d.line = s.line := by
      rw [hd, ha, hx]
      simp [runsCleared]
    obtain ⟨tracker, gauge, mode⟩ := bite1_single (s := x) (cut := loadGenerator d) (by rw [began, ← ha, cut])
      (by show d.n = 1; unfold State.n State.lineCopy; rw [lineD]; exact single)
    have trackerD : d.tracker = (departed 1 m [] (cutMark .head 0 a)).tracker := by
      rw [hd, departMark_eq, markDeparted_tracker]
    have gaugeD : d.gauge = pairedRecord (cutMark .head 0 a) m := by
      rw [hd, departMark_eq, markDeparted_gauge]
      rfl
    rw [hr, if_pos rfl] at hid
    have copyD : d.lineCopy = s.lineCopy := by
      unfold State.lineCopy
      rw [lineD]
    have trackerEq : (bite1 x).tracker = { s.tracker with
        gen := gen, zones := (s.tracker.zones.set 1 (s.zone 1 ++ [m])).set 1 [], emptySpell := false,
        nextId := s.tracker.nextId + 1, lastPassed := s.tracker.lastPassed.set 1 (some id),
        threading := (s.tracker.threading.set 1 { s.thread 1 with onRun := 0, offRun := 0 }).set 1 th } := by
      have loaded : (loadGenerator d).tracker = { d.tracker with gen := gen } := by
        unfold loadGenerator
        rw [copyD]
        rfl
      rw [tracker, loaded, trackerD, hid, hm, ha, hx]
      rfl
    rw [takeRaised_after (by rw [trackerEq]; exact quiet)] at exec_eq
    refine ⟨_, exec_eq, ?_, ?_, ?_, ?_, ?_, ?_, mode⟩
    · exact (congrArg (fun t => t.zones.get 1) trackerEq).trans (PerStand.get_set_same _ _ _ inside)
    · exact congrArg Tracker.gen trackerEq
    · exact (congrArg (fun t => t.threading.get 1) trackerEq).trans (PerStand.get_set_same _ _ _ inside)
    · exact congrArg Tracker.nextId trackerEq
    · exact congrArg Tracker.lastPassed trackerEq
    · have counted := pairedRecord_head (s := cutMark .head 0 a) (m := m) (by rw [hm]; rfl)
      rw [← gaugeD] at counted
      show (bite1 x).gauge.paired + (bite1 x).gauge.unpaired = 1
      rw [gauge]
      exact counted

end Sys2Proof.Machine

/-! Proofs for the transport of the marks and the entry rule (R6 to R8, R15 to R17). -/

namespace Sys2Proof.Machine

section
variable {s : State} {m : Mark} {rest : List Mark} {k dL fuel extra : Nat}

/-! ### A queue moved by a strip length (R8) -/

/-- A front mark moved, and each mark behind it moved by the strip length and limited by the mark ahead. -/
theorem advanceQueue_get (front : Mark) {i : Nat} {a : Mark} (ha : (m :: rest)[i]? = some a) (same : front = { m with pos := front.pos }) :
    ∃ b, (front :: advanceBehind dL front.pos rest)[i]? = some b ∧ b = { a with pos := b.pos } ∧
      (i = 0 → b.pos = front.pos) ∧
      ∀ j c, j + 1 = i → (front :: advanceBehind dL front.pos rest)[j]? = some c → b.pos = min (a.pos + dL) c.pos := by
  cases i with
  | zero =>
    cases ha
    exact ⟨front, rfl, same, fun _ => rfl, fun j c h => absurd h (Nat.succ_ne_zero j)⟩
  | succ i =>
    obtain ⟨b, hb, fields, first, later⟩ := advanceBehind_get dL rest front.pos i a ha
    refine ⟨b, hb, fields, fun h => absurd h (Nat.succ_ne_zero i), fun j c hj hc => ?_⟩
    cases j with
    | zero =>
      cases hc
      exact first (by omega)
    | succ j => exact later j c (by omega) hc

/-! ### The walk of a zone (R8) -/

theorem advanceWalk_short (zone : s.zone k = m :: rest) (short : m.pos + dL < s.zoneLen k) :
    advanceWalk (fuel + 1) k dL s = s.withZone k ({ m with pos := m.pos + dL } :: advanceBehind dL (m.pos + dL) rest) := by
  rw [advanceWalk, zone]
  exact if_pos short

theorem advanceWalk_empty (zone : s.zone k = []) : advanceWalk fuel k dL s = s := by
  cases fuel with
  | zero => rfl
  | succ n => rw [advanceWalk, zone]

/-- The walk of a zone whose front mark is held limits the marks behind it (R8, R16). -/
theorem advanceWalk_holds (zone : s.zone k = m :: rest) (reached : s.zoneLen k ≤ m.pos + dL) {u : State} {held : Mark}
    (stays : arrive zoneFuel k (m.pos + dL - s.zoneLen k) s = (u, false)) (front : u.zone k = held :: rest) :
    advanceWalk (fuel + 1) k dL s = u.withZone k (held :: advanceBehind dL held.pos rest) := by
  rw [advanceWalk, zone]
  dsimp only
  rw [if_neg (Nat.not_lt.mpr reached), stays]
  dsimp only
  rw [front]
  rfl

theorem arrive_holds {fuel : Nat} (within : k < s.n) (zone : s.zone k = m :: rest) (stops : entryPasses s (k + 1) m.kind = false) :
    arrive (fuel + 1) k extra s = (holdMark k m rest extra s, false) := by
  rw [arrive, zone]
  dsimp only
  rw [if_neg (Nat.not_le.mpr within), if_neg (by rw [stops]; nofun)]

theorem arrive_passes {fuel : Nat} (within : k < s.n) (zone : s.zone k = m :: rest) (goes : entryPasses s (k + 1) m.kind = true) :
    arrive (fuel + 1) k extra s =
      if s.zoneLen (k + 1) = 0 ∧ s.zone (k + 1) = [] then ((arrive fuel (k + 1) 0 (passMark k m rest s)).1, true)
      else (arriveBehind (k + 1) (passMark k m rest s), true) := by
  rw [arrive, zone]
  dsimp only
  rw [if_neg (Nat.not_le.mpr within), if_pos goes]

/-! ### The entry rule (R15 to R17) -/

theorem entryPasses_iff {kind : MarkKind} : entryPasses s k kind = true ↔ kind = .body ∧ s.loadedAt k = true := by
  unfold entryPasses
  rw [Bool.and_eq_true, beq_iff_eq]

/-- A held mark, with everything its hold raises and journals (R16, R17). -/
theorem holdMark_eq {late overlaps missed : Bool} (hLate : late = tailIsLate s k m extra) (hOver : overlaps = headOverlaps s k m)
    (hMissed : missed = headIsLate s k m extra) :
    holdMark k m rest extra s =
      { (if late then note .tailLate (k + 1) s.clock m.coil m.id (sat16 (m.grownHold extra / 1000)) 0 s else s) with
        tracker := { s.tracker with
          zones := s.tracker.zones.set k
            ({ m with pos := s.zoneLen k, hold := some (m.grownHold extra), lateReported := m.lateReported || late } :: rest)
          raised := s.tracker.raised ++ (if overlaps then [(.coilOverlap, k + 1)] else []) ++
            (if missed then [(.missedBite, k + 1)] else []) } } := by
  obtain ⟨held, hHeld⟩ : ∃ held : State, held = { s with tracker := { s.tracker with
      zones := s.tracker.zones.set k
        ({ m with pos := s.zoneLen k, hold := some (m.grownHold extra), lateReported := m.lateReported || late } :: rest),
      raised := s.tracker.raised ++ (if overlaps then [(.coilOverlap, k + 1)] else []) ++
        (if missed then [(.missedBite, k + 1)] else []) } } := ⟨_, rfl⟩
  have work : holdMark k m rest extra s =
      if late then note .tailLate (k + 1) s.clock m.coil m.id (sat16 (m.grownHold extra / 1000)) 0 held else held := by
    unfold holdMark
    dsimp only
    rw [← hLate, ← hOver, ← hMissed, hHeld]
    cases overlaps <;> cases missed <;> simp [raiseCause, State.withTracker, State.withZone]
  rw [work]
  split
  · rw [note_onto _ _ _ _ _ _ _ s held (by rw [hHeld]) (by rw [hHeld]),
      note_onto .tailLate (k + 1) s.clock m.coil m.id _ _ s s rfl rfl, hHeld]
  · exact hHeld

/-- A BODY or a HEAD that passes stand k + 1, with the stand's FF (R15, R74). -/
theorem passMark_eq (notTail : m.kind ≠ .tail) :
    passMark k m rest s = { s with
      gap := (ffUpdate (k + 1) (m.passed (s.hEst (k + 1))) s).gap,
      tracker := { s.tracker with
        zones := (s.tracker.zones.set k rest).set (k + 1) (s.zone (k + 1) ++ [m.passed (s.hEst (k + 1))]),
        lastPassed := s.tracker.lastPassed.set (k + 1) (some m.id) } } :=
  if_neg notTail

theorem passed_lastThick {h : Nat} (inside : 1 ≤ k) (entries : m.thick.length = k) :
    (m.passed h).thick.getD (k + 1 - 2) 0 = m.thick.getLastD 0 := by
  unfold Mark.passed
  dsimp only
  rw [List.getD_append _ _ _ _ (by omega), List.getLastD_eq_getLast?, List.getLast?_eq_getElem?, List.getD_eq_getElem?_getD, entries]
  rfl

theorem growsLate_zero : growsLate s m 0 = false := by
  unfold growsLate Mark.grownHold
  exact decide_eq_false fun h => absurd h.1 (by omega)

/-- A mark held with no overrun: its excess stays, and it is late for nothing (R16, R18, R19). -/
theorem holdMark_zero :
    holdMark k m rest 0 s = { s with tracker := { s.tracker with
      zones := s.tracker.zones.set k ({ m with pos := s.zoneLen k, hold := some (min (m.hold.getD 0) 4294967295) } :: rest),
      raised := s.tracker.raised ++ (if headOverlaps s k m then [(.coilOverlap, k + 1)] else []) } } := by
  have calm : false = tailIsLate s k m 0 ∧ false = headIsLate s k m 0 := by
    unfold tailIsLate headIsLate
    rw [growsLate_zero]
    simp
  rw [holdMark_eq calm.1 rfl calm.2, Bool.or_false]
  simp [Mark.grownHold, holdMax]

theorem headOverlaps_body (body : m.kind = .body) : headOverlaps s k m = false := by
  unfold headOverlaps
  rw [body]
  rfl

/-- A BODY that has just entered zone `j` behind others is held where the zone has no length and the rule stops it (R15). -/
theorem arriveBehind_body {j : Nat} {q : List Mark} {x : Mark} (zone : s.zone j = q ++ [x]) (body : x.kind = .body)
    (free : x.hold = none) :
    arriveBehind j s = s.withZone j (q ++ [{ x with
      hold := if s.zoneLen j = 0 ∧ j < s.n ∧ s.loadedAt (j + 1) = false then some 0 else none }]) := by
  have passes : entryPasses s (j + 1) x.kind = s.loadedAt (j + 1) := by
    rw [body]
    rfl
  have same : s.withZone j (q ++ [x]) = s := by
    rw [← zone]
    unfold State.withZone State.withTracker State.zone
    rw [PerStand.set_get]
  rw [arriveBehind_snoc zone, headOverlaps_body body, passes]
  simp only [Bool.false_eq_true, if_false]
  by_cases stopped : s.zoneLen j = 0 ∧ j < s.n ∧ s.loadedAt (j + 1) = false
  · have waits : ¬(0 < s.zoneLen j ∨ s.n ≤ j ∨ s.loadedAt (j + 1) = true) := by
      obtain ⟨short, within, empty⟩ := stopped
      rw [empty]
      simp only [Bool.false_eq_true, or_false]
      omega
    rw [if_neg waits, if_pos stopped]
  · rw [if_neg stopped, if_pos, ← free]
    · exact same.symm
    · rcases Nat.eq_zero_or_pos (s.zoneLen j) with short | long
      · rcases Nat.lt_or_ge j s.n with within | last
        · exact .inr (.inr (Bool.eq_true_of_not_eq_false fun empty => stopped ⟨short, within, empty⟩))
        · exact .inr (.inl last)
      · exact .inl long

theorem holdMark_body (body : m.kind = .body) (position : m.pos = s.zoneLen k) (free : m.hold = none) :
    holdMark k m rest 0 s = s.withZone k ({ m with hold := some 0 } :: rest) := by
  rw [holdMark_zero, headOverlaps_body body, free, ← position]
  simp [State.withZone, State.withTracker]

end

/-- Settles O48: the front mark is short of the end, passes, or is held; the walk does the same to the marks behind. -/
theorem marksAreCarriedWithTheStrip : Obligations.MarksAreCarriedWithTheStrip := by
  intro k v s inside
  refine ⟨rfl, fun dt q dL carry hq hdL hcarry => ?_⟩
  obtain ⟨c, hc⟩ : ∃ c, c = withCarry k carry s := ⟨_, rfl⟩
  have walk : advanceZone k v (some dt) s = (advanceWalk ((s.zone k).length + 1) k dL c, dL) := by
    rw [advanceZone_walk hq, hc, ← hdL, ← hcarry]
  have zoneC : ∀ j, c.zone j = s.zone j := fun j => by rw [hc]; rfl
  rw [walk]
  refine ⟨rfl, ?_, fun m rest zone short => ?_, fun m rest u h d zone within reached body loaded entries entered hh hd hu => ?_,
    fun m rest excess grown zone within reached stops hExcess hGrown late overlaps missed w hLate hOver hMissed hw => ?_⟩
  · show (advanceWalk _ k dL c).tracker.carry.get k = carry
    rw [advanceWalk_carry, hc]
    exact PerStand.get_set_same _ _ _ inside
  · dsimp only
    rw [advanceWalk_short ((zoneC k).trans zone) (by rw [hc]; exact short)]
    refine ⟨_, by rw [hc]; rfl, ?_, fun i a ha => ?_⟩
    · rw [zone]
      exact congrArg (· + 1) (advanceBehind_length ..)
    · rw [zone] at ha
      obtain ⟨b, hb, fields, first, later⟩ := advanceQueue_get (dL := dL) { m with pos := m.pos + dL } ha rfl
      refine ⟨b, hb, fields, fun hi => ?_, later⟩
      subst hi
      cases ha
      exact first rfl
  · have inside1 : 1 ≤ k + 1 ∧ k + 1 ≤ 8 := by
      refine ⟨by omega, ?_⟩
      by_contra outside
      unfold State.loadedAt at loaded
      rw [thread_outside s (k + 1) (by omega)] at loaded
      exact absurd loaded nofun
    obtain ⟨x, hx⟩ : ∃ x, x = m.passed h := ⟨_, rfl⟩
    have bodyX : x.kind = .body := by rw [hx]; exact body
    obtain ⟨p, hp⟩ : ∃ p, p = passMark k m rest c := ⟨_, rfl⟩
    have passed := passMark_eq (s := c) (k := k) (m := m) (rest := rest) (by rw [body]; nofun)
    rw [← hp, show c.hEst (k + 1) = h by rw [hc]; exact hh.symm, ← hx, zoneC] at passed
    have queue : p.zone (k + 1) = s.zone (k + 1) ++ [x] := by
      rw [passed]
      exact PerStand.get_set_same _ _ _ inside1
    have lands : u = p.withZone (k + 1) (s.zone (k + 1) ++ [{ x with
        hold := if s.zoneLen (k + 1) = 0 ∧ k + 1 < s.n ∧ s.loadedAt (k + 2) = false then some 0 else none }]) := by
      rw [hu, hd, passed, hx, hc]
      unfold State.withZone State.withTracker ffUpdate
      rw [PerStand.set_set, passed_lastThick inside.1 entries]
      rfl
    have arrived : arrive zoneFuel k (m.pos + dL - c.zoneLen k) c = (u, true) := by
      have goes : entryPasses c (k + 1) m.kind = true := entryPasses_iff.mpr ⟨body, by rw [hc]; exact loaded⟩
      have lengthP : p.zoneLen (k + 1) = s.zoneLen (k + 1) := by rw [passed, hc]; rfl
      have nP : p.n = s.n := by rw [passed, hc]; rfl
      have loadedP : p.loadedAt (k + 2) = s.loadedAt (k + 2) := by rw [passed, hc]; rfl
      unfold zoneFuel
      rw [arrive_passes (by rw [hc]; exact within) ((zoneC k).trans zone) goes, zoneC, ← hp, lands,
        show c.zoneLen (k + 1) = s.zoneLen (k + 1) by rw [hc]; rfl]
      split
      · next nothing =>
        obtain ⟨short, empty⟩ := nothing
        obtain ⟨within2, free⟩ : k + 1 < s.n ∧ s.loadedAt (k + 2) = false := by
          rcases entered with h | h | h
          · exact absurd empty h
          · omega
          · exact h
        rw [empty] at queue
        have stops : entryPasses p (k + 1 + 1) x.kind = false := by
          rw [bodyX]
          exact loadedP.trans free
        rw [arrive_holds (by rw [nP]; exact within2) queue stops,
          holdMark_body bodyX (by rw [lengthP, short, hx]; rfl) (by rw [hx]; rfl), empty, if_pos ⟨short, within2, free⟩]
        rfl
      · rw [arriveBehind_body queue bodyX (by rw [hx]; rfl), lengthP, nP, loadedP]
    have goesOn : advanceWalk ((s.zone k).length + 1) k dL c = advanceWalk (rest.length + 1) k dL u := by
      rw [zone]
      exact advanceWalk_leaves ((zoneC k).trans zone) (by rw [hc]; exact reached) arrived
    refine ⟨fun last => ?_, goesOn⟩
    refine goesOn.trans (advanceWalk_empty ?_)
    rw [lands, passed, last]
    refine (PerStand.get_set_other _ _ _ _ (Nat.ne_of_lt (Nat.lt_succ_self k))).trans ?_
    refine (PerStand.get_set_other _ _ _ _ (Nat.ne_of_lt (Nat.lt_succ_self k))).trans ?_
    exact PerStand.get_set_same _ _ _ inside
  · obtain ⟨extra, hExtra⟩ : ∃ extra, extra = m.pos + dL - s.zoneLen k := ⟨_, rfl⟩
    have grown_eq : m.grownHold extra = grown := by
      rw [hGrown, hExcess, hExtra]
      rfl
    have grows : growsLate s m extra = decide (excess < grown ∧ s.lineCopy.wLate * 1000 < grown) := by
      unfold growsLate lateWindow
      rw [grown_eq, hExcess]
    have late_eq : late = tailIsLate c k m extra := by
      rw [hc]
      show late = (m.kind == .tail && s.loadedAt (k + 1) && growsLate s m extra && !m.lateReported)
      rw [grows, hLate, Bool.eq_iff_iff]
      simp only [decide_eq_true_eq, Bool.and_eq_true, beq_iff_eq, Bool.not_eq_true']
      tauto
    have over_eq : overlaps = headOverlaps c k m := by
      rw [hc]
      show overlaps = (m.kind == .head && s.loadedAt (k + 1) && m.hold.isNone)
      rw [hOver, Bool.eq_iff_iff]
      simp only [decide_eq_true_eq, Bool.and_eq_true, beq_iff_eq, Option.isNone_iff_eq_none]
      tauto
    have missed_eq : missed = headIsLate c k m extra := by
      rw [hc]
      show missed = (m.kind == .head && !s.loadedAt (k + 1) && growsLate s m extra && decide (m.hold.getD 0 ≤ lateWindow s))
      rw [grows, hMissed, Bool.eq_iff_iff]
      simp only [decide_eq_true_eq, Bool.and_eq_true, beq_iff_eq, Bool.not_eq_true', ← hExcess]
      unfold lateWindow
      constructor
      · exact fun ⟨head, empty, first, past⟩ => ⟨⟨⟨head, empty⟩, by omega, past⟩, first⟩
      · exact fun ⟨⟨⟨head, empty⟩, _, past⟩, first⟩ => ⟨head, empty, first, past⟩
    obtain ⟨b, hb⟩ : ∃ b, b = { m with pos := s.zoneLen k, hold := some grown, lateReported := m.lateReported || late } :=
      ⟨_, rfl⟩
    have held := holdMark_eq (rest := rest) late_eq over_eq missed_eq
    rw [grown_eq, show c.zoneLen k = s.zoneLen k by rw [hc]; rfl, ← hb] at held
    have same : holdMark k m rest extra c = { w with tracker := { s.tracker with
        carry := s.tracker.carry.set k carry, zones := s.tracker.zones.set k (b :: rest),
        raised := s.tracker.raised ++ (if overlaps then [(.coilOverlap, k + 1)] else []) ++
          (if missed then [(.missedBite, k + 1)] else []) } } := by
      rw [held, hw, hc]
      split
      · rw [note_onto .tailLate (k + 1) s.clock m.coil m.id (sat16 (grown / 1000)) 0 s s rfl rfl]
        rw [note_onto .tailLate (k + 1) (withCarry k carry s).clock m.coil m.id (sat16 (grown / 1000)) 0 s
          (withCarry k carry s) rfl rfl]
        rfl
      · rfl
    have stopsC : entryPasses c (k + 1) m.kind = false := by
      rw [Bool.eq_false_iff, ne_eq, entryPasses_iff, hc]
      exact stops
    refine ⟨b, advanceBehind dL b.pos rest, ?_, hb, advanceBehind_length .., fun i a ha => ?_⟩
    · dsimp only
      rw [zone, advanceWalk_holds (held := b) ((zoneC k).trans zone) (by rw [hc]; exact reached)
        (arrive_holds (fuel := 8) (by rw [hc]; exact within) ((zoneC k).trans zone) stopsC)
        (by
          rw [show c.zoneLen k = s.zoneLen k by rw [hc]; rfl, ← hExtra, same]
          exact PerStand.get_set_same _ _ _ inside),
        show c.zoneLen k = s.zoneLen k by rw [hc]; rfl, ← hExtra, same]
      unfold State.withZone State.withTracker
      dsimp only
      rw [PerStand.set_set]
    · obtain ⟨moved, hm, fields, first, later⟩ := advanceBehind_get dL rest b.pos i a ha
      exact ⟨moved, hm, fields, fun hi => by rw [first hi, hb], later⟩

end Sys2Proof.Machine

/-! Proofs for a load-on downstream (R18, R30, R34, R35, R74): how marks pass a stand one after another, and what stops at its
entry. -/

namespace Sys2Proof.Machine

section
variable {s : State} {m x y : Mark} {rest rem q : List Mark} {j k h fuel : Nat} {ends : Bool}

/-! ### Two queues replaced -/

theorem PerStand.set_comm {α : Type} [Inhabited α] (p : PerStand α) {a b : α} (apart : j ≠ k) (hj : 1 ≤ j ∧ j ≤ 8)
    (hk : 1 ≤ k ∧ k ≤ 8) : (p.set j a).set k b = (p.set k b).set j a := by
  refine PerStand.ext_get _ _ fun i _ => ?_
  rw [PerStand.get_set _ _ _ _ hk, PerStand.get_set _ _ _ _ hj, PerStand.get_set _ _ _ _ hj, PerStand.get_set _ _ _ _ hk]
  by_cases ik : i = k
  · rw [if_pos ik, if_neg (fun ij => apart (ij.symm.trans ik)), if_pos ik]
  · rw [if_neg ik, if_neg ik]

/-- The last two of four replacements are the ones that stand. -/
theorem PerStand.set_again {α : Type} [Inhabited α] (p : PerStand α) {a b a' b' : α} (apart : j ≠ k) (hj : 1 ≤ j ∧ j ≤ 8)
    (hk : 1 ≤ k ∧ k ≤ 8) : (((p.set j a).set k b).set j a').set k b' = (p.set j a').set k b' := by
  rw [PerStand.set_comm p apart hj hk, PerStand.set_set, PerStand.set_comm _ apart.symm hk hj, PerStand.set_set]

/-! ### A mark that enters a zone (R15, R16) -/

/-- A mark that has just passed into zone `k`: in a zone of no length it has arrived there, and is held where the entry rule
stops it; one that the rule lets pass waits behind other marks (R15, log 16). -/
theorem enterZone_eq (zone : s.zone k = q ++ [y]) (free : y.hold = none) (start : y.pos = 0)
    (hEnds : ends = decide (k < s.n ∧ s.zoneLen k = 0)) (somewhere : k < s.n ∨ q ≠ [] ∨ 0 < s.zoneLen k)
    (waits : ends = true → q = [] → entryPasses s (k + 1) y.kind = false) :
    (if s.zoneLen k = 0 ∧ q = [] then (arrive (fuel + 1) k 0 s).1 else arriveBehind k s) = { s with tracker := { s.tracker with
      zones := s.tracker.zones.set k
        (q ++ [{ y with hold := if ends = true ∧ entryPasses s (k + 1) y.kind = false then some 0 else none }]),
      raised := s.tracker.raised ++
        (if ends = true ∧ headOverlaps s k y = true then [(.coilOverlap, k + 1)] else []) } } := by
  have same : s.tracker.zones.set k (q ++ [y]) = s.tracker.zones := by
    rw [← zone]
    exact PerStand.set_get _ _
  have passing : entryPasses s (k + 1) y.kind = true → headOverlaps s k y = false := fun passes =>
    headOverlaps_body (entryPasses_iff.mp passes).1
  have kept : ({ y with hold := none } : Mark) = y := by rw [← free]
  rcases hb : ends with _ | _
  · have far : ¬(k < s.n ∧ s.zoneLen k = 0) := of_decide_eq_false (hEnds.symm.trans hb)
    have behind : ¬(s.zoneLen k = 0 ∧ q = []) := fun ⟨short, empty⟩ => by
      rcases somewhere with g | g | g
      · exact far ⟨g, short⟩
      · exact g empty
      · omega
    rw [if_neg behind, arriveBehind_snoc zone, if_pos (by omega)]
    simp only [Bool.false_eq_true, false_and, if_false, List.append_nil]
    rw [kept, same]
  · obtain ⟨within, short⟩ := of_decide_eq_true (hEnds.symm.trans hb)
    cases passes : entryPasses s (k + 1) y.kind with
    | true =>
      have behind : ¬(s.zoneLen k = 0 ∧ q = []) := fun g => absurd ((waits hb g.2).symm.trans passes) nofun
      rw [if_neg behind, arriveBehind_snoc zone, if_pos (.inr (.inr passes)), passing passes]
      simp only [Bool.true_eq_false, Bool.false_eq_true, and_false, if_false, List.append_nil]
      rw [kept, same]
    | false =>
      by_cases empty : q = []
      · rw [empty, List.nil_append] at zone
        rw [if_pos ⟨short, empty⟩, arrive_holds within zone passes, holdMark_zero, free, short, empty]
        simp [start]
      · have stops : ¬(0 < s.zoneLen k ∨ s.n ≤ k ∨ entryPasses s (k + 1) y.kind = true) := by
          rw [passes]
          simp only [Bool.false_eq_true, or_false]
          omega
        rw [if_neg (fun g => empty g.2), arriveBehind_snoc zone, if_neg stops]
        cases headOverlaps s k y <;> simp [raiseCause, State.withZone, State.withTracker]

/-! ### A mark that passes a stand (R15, R18, R19) -/

/-- Mark `x` as it stands in zone `k` once it has passed stand `k`, of estimate `h`. -/
def landed (k h : Nat) (ends : Bool) (s : State) (x : Mark) : Mark :=
  { x with
    thick := x.thick ++ [h], pos := 0,
    hold := if ends = true ∧ entryPasses s (k + 1) x.kind = false then some 0 else none }

/-- What the passage of `x` at stand `j + 1` leaves of `s`: its FF too, where `x` is a BODY or a HEAD. -/
def afterPass (j h : Nat) (ends : Bool) (x : Mark) (rem : List Mark) (s : State) : State :=
  { s with
    gap := if x.kind = .tail then s.gap else (ffUpdate (j + 1) (x.passed h) s).gap,
    tracker := { s.tracker with
      zones := (s.tracker.zones.set j rem).set (j + 1) (s.zone (j + 1) ++ [landed (j + 1) h ends s x]),
      lastPassed := s.tracker.lastPassed.set (j + 1) (some x.id),
      raised := s.tracker.raised ++
        (if ends = true ∧ x.kind = .head ∧ s.loadedAt (j + 2) = true then [(.coilOverlap, j + 2)] else []) } }

theorem passMark_any : passMark j x rem s = { s with
    gap := if x.kind = .tail then s.gap else (ffUpdate (j + 1) (x.passed (s.hEst (j + 1))) s).gap,
    tracker := { s.tracker with
      zones := (s.tracker.zones.set j rem).set (j + 1) (s.zone (j + 1) ++ [x.passed (s.hEst (j + 1))]),
      lastPassed := s.tracker.lastPassed.set (j + 1) (some x.id) } } := by
  by_cases tail : x.kind = .tail
  · rw [if_pos tail]
    exact if_pos tail
  · rw [if_neg tail]
    exact passMark_eq tail

theorem pass_eq (inside : j + 1 ≤ 8) (estimate : s.hEst (j + 1) = h)
    (hEnds : ends = decide (j + 1 < s.n ∧ s.zoneLen (j + 1) = 0))
    (somewhere : j + 1 < s.n ∨ s.zone (j + 1) ≠ [] ∨ 0 < s.zoneLen (j + 1))
    (waits : ends = true → s.zone (j + 1) = [] → entryPasses s (j + 2) x.kind = false) :
    (if s.zoneLen (j + 1) = 0 ∧ s.zone (j + 1) = [] then (arrive (fuel + 1) (j + 1) 0 (passMark j x rem s)).1
      else arriveBehind (j + 1) (passMark j x rem s)) = afterPass j h ends x rem s := by
  obtain ⟨p, hp⟩ : ∃ p, p = passMark j x rem s := ⟨_, rfl⟩
  have passed := passMark_any (s := s) (j := j) (x := x) (rem := rem)
  rw [← hp, estimate] at passed
  have queue : p.zone (j + 1) = s.zone (j + 1) ++ [x.passed h] := by
    rw [passed]
    exact PerStand.get_set_same _ _ _ ⟨by omega, inside⟩
  have nP : p.n = s.n := by rw [passed]; rfl
  have lengthP : p.zoneLen (j + 1) = s.zoneLen (j + 1) := by rw [passed]; rfl
  have loadedP : p.loadedAt (j + 2) = s.loadedAt (j + 2) := by rw [passed]; rfl
  have passesP : entryPasses p (j + 1 + 1) (x.passed h).kind = entryPasses s (j + 2) x.kind := by
    unfold entryPasses
    rw [show p.loadedAt (j + 1 + 1) = s.loadedAt (j + 2) from loadedP]
    rfl
  have overlapsP : headOverlaps p (j + 1) (x.passed h) = true ↔ x.kind = .head ∧ s.loadedAt (j + 2) = true := by
    unfold headOverlaps
    rw [show p.loadedAt (j + 1 + 1) = s.loadedAt (j + 2) from loadedP]
    simp [Mark.passed]
  have entered := enterZone_eq (fuel := fuel) queue rfl rfl (by rw [nP, lengthP]; exact hEnds)
    (by rw [nP, lengthP]; exact somewhere) (fun hb empty => passesP.trans (waits hb empty))
  rw [lengthP, passesP] at entered
  simp only [overlapsP] at entered
  rw [← hp, entered, passed]
  unfold afterPass landed
  dsimp only
  rw [PerStand.set_set]
  rfl

/-- The front mark of zone `j` passes stand `j + 1` at its bite or release (R18, R19). -/
theorem passFront_eq (zone : s.zone j = x :: rem) (inside : j + 1 ≤ 8) (estimate : s.hEst (j + 1) = h)
    (hEnds : ends = decide (j + 1 < s.n ∧ s.zoneLen (j + 1) = 0))
    (somewhere : j + 1 < s.n ∨ s.zone (j + 1) ≠ [] ∨ 0 < s.zoneLen (j + 1))
    (waits : ends = true → s.zone (j + 1) = [] → entryPasses s (j + 2) x.kind = false) :
    passFront j s = afterPass j h ends x rem s := by
  unfold passFront
  rw [zone]
  exact pass_eq (fuel := 8) inside estimate hEnds somewhere waits

/-! ### The marks at a stand's entry after a bite or a release (R18, R19) -/

theorem entryLoop_nil (zone : s.zone j = []) : entryLoop fuel j s = s := by
  cases fuel with
  | zero => rfl
  | succ n => rw [entryLoop, zone]

theorem entryLoop_short (zone : s.zone j = x :: rem) (short : x.pos ≠ s.zoneLen j) : entryLoop fuel j s = s := by
  cases fuel with
  | zero => rfl
  | succ n =>
    rw [entryLoop, zone]
    exact if_neg short

theorem entryLoop_passes (zone : s.zone j = x :: rem) (arrived : x.pos = s.zoneLen j) (within : j < s.n)
    (goes : entryPasses s (j + 1) x.kind = true) (inside : j + 1 ≤ 8) (estimate : s.hEst (j + 1) = h)
    (hEnds : ends = decide (j + 1 < s.n ∧ s.zoneLen (j + 1) = 0)) (behind : s.zone (j + 1) ≠ []) :
    entryLoop (fuel + 1) j s = entryLoop fuel j (afterPass j h ends x rem s) := by
  have step : arrive zoneFuel j 0 s = (afterPass j h ends x rem s, true) := by
    unfold zoneFuel
    rw [arrive_passes within zone goes, ← pass_eq (fuel := 7) inside estimate hEnds (.inr (.inl behind))
      (fun _ empty => absurd empty behind)]
    split <;> rfl
  rw [entryLoop, zone]
  dsimp only
  rw [if_pos arrived, step]
  rfl

/-- The queue of a stand's entry once its front mark, where it stands at the end, is held there with overrun 0 (R18, R19). -/
def stopped (len : Nat) (q : List Mark) : List Mark :=
  (q.take 1).map (fun x => if x.pos = len then { x with hold := some (min (x.hold.getD 0) 4294967295) } else x) ++ q.drop 1

/-- The front mark of a queue becomes held as a HEAD at the zone's end (R16). -/
def frontOverlaps (len : Nat) (q : List Mark) : Bool :=
  decide (∃ x ∈ q.take 1, x.pos = len ∧ x.kind = .head ∧ x.hold = none)

theorem entryLoop_stops (zone : s.zone j = q) (enough : q.length ≤ fuel) (within : j < s.n)
    (stops : ∀ x r, q = x :: r → x.pos = s.zoneLen j → entryPasses s (j + 1) x.kind = false) :
    entryLoop fuel j s = { s with tracker := { s.tracker with
      zones := s.tracker.zones.set j (stopped (s.zoneLen j) q),
      raised := s.tracker.raised ++
        (if frontOverlaps (s.zoneLen j) q = true ∧ s.loadedAt (j + 1) = true then [(.coilOverlap, j + 1)] else []) } } := by
  have same : s.tracker.zones.set j q = s.tracker.zones := by
    rw [← zone]
    exact PerStand.set_get _ _
  cases q with
  | nil =>
    rw [entryLoop_nil zone]
    simp [stopped, frontOverlaps, same]
  | cons x r =>
    by_cases arrived : x.pos = s.zoneLen j
    · obtain ⟨n, rfl⟩ : ∃ n, fuel = n + 1 := ⟨fuel - 1, by simp at enough; omega⟩
      have overlaps : headOverlaps s j x = true ↔ frontOverlaps (s.zoneLen j) (x :: r) = true ∧ s.loadedAt (j + 1) = true := by
        unfold headOverlaps frontOverlaps
        simp [arrived]
        tauto
      rw [entryLoop, zone]
      dsimp only
      rw [if_pos arrived, show arrive zoneFuel j 0 s = (holdMark j x r 0 s, false) from
        arrive_holds (fuel := 8) within zone (stops x r rfl arrived)]
      dsimp only
      rw [holdMark_zero]
      simp only [overlaps]
      simp [stopped, arrived]
    · rw [entryLoop_short zone arrived]
      simp [stopped, frontOverlaps, arrived, same]

/-! ### A HEAD with the BODYs piled behind it (R18) -/

/-- What the passages of a HEAD and BODYs, `ps`, the last of them `l`, leave of `s`, with `rem` still before the stand. -/
def afterPasses (j h : Nat) (ends : Bool) (ps : List Mark) (l : Mark) (rem : List Mark) (s : State) : State :=
  { s with
    gap := (ffUpdate (j + 1) (l.passed h) s).gap,
    tracker := { s.tracker with
      zones := (s.tracker.zones.set j rem).set (j + 1) (s.zone (j + 1) ++ ps.map (landed (j + 1) h ends s)),
      lastPassed := s.tracker.lastPassed.set (j + 1) (some l.id),
      raised := s.tracker.raised ++ (if ends = true ∧ s.loadedAt (j + 2) = true then [(.coilOverlap, j + 2)] else []) } }

theorem afterPass_head (head : m.kind = .head) : afterPass j h ends m rem s = afterPasses j h ends [m] m rem s := by
  unfold afterPass afterPasses
  rw [head]
  simp

theorem afterPasses_zone {ps : List Mark} {l : Mark} (inside : 1 ≤ j ∧ j + 1 ≤ 8) :
    (afterPasses j h ends ps l rem s).zone j = rem :=
  (PerStand.get_set_other _ _ _ _ (Nat.ne_of_lt (Nat.lt_succ_self j))).trans
    (PerStand.get_set_same _ _ _ ⟨inside.1, by omega⟩)

theorem afterPasses_next {ps : List Mark} {l : Mark} (inside : 1 ≤ j ∧ j + 1 ≤ 8) :
    (afterPasses j h ends ps l rem s).zone (j + 1) = s.zone (j + 1) ++ ps.map (landed (j + 1) h ends s) :=
  PerStand.get_set_same _ _ _ ⟨by omega, inside.2⟩

theorem afterPass_body {ps : List Mark} {l b : Mark} (inside : 1 ≤ j ∧ j + 1 ≤ 8) (body : b.kind = .body) :
    afterPass j h ends b rem (afterPasses j h ends ps l (b :: rem) s) = afterPasses j h ends (ps ++ [b]) b rem s := by
  obtain ⟨u, hu⟩ : ∃ u, u = afterPasses j h ends ps l (b :: rem) s := ⟨_, rfl⟩
  have next : u.zone (j + 1) = s.zone (j + 1) ++ ps.map (landed (j + 1) h ends s) := by
    rw [hu]
    exact afterPasses_next inside
  have gap : (ffUpdate (j + 1) (b.passed h) u).gap = (ffUpdate (j + 1) (b.passed h) s).gap := by
    have own : u.gap.get (j + 1) = { s.gap.get (j + 1) with ff := ((ffUpdate (j + 1) (l.passed h) s).gap.get (j + 1)).ff } := by
      rw [hu]
      refine (PerStand.get_set_same s.gap (j + 1) _ ⟨by omega, inside.2⟩).trans ?_
      rw [show (ffUpdate (j + 1) (l.passed h) s).gap.get (j + 1) = _ from
        PerStand.get_set_same s.gap (j + 1) _ ⟨by omega, inside.2⟩]
    unfold ffUpdate State.withRef
    dsimp only
    rw [own, hu]
    exact PerStand.set_set ..
  have lands : landed (j + 1) h ends u b = landed (j + 1) h ends s b := by rw [hu]; rfl
  have zones : (u.tracker.zones.set j rem).set (j + 1) (u.zone (j + 1) ++ [landed (j + 1) h ends u b]) =
      (s.tracker.zones.set j rem).set (j + 1) (s.zone (j + 1) ++ (ps ++ [b]).map (landed (j + 1) h ends s)) := by
    rw [next, lands, List.map_append, List.append_assoc, hu]
    exact PerStand.set_again _ (Nat.ne_of_lt (Nat.lt_succ_self j)) ⟨inside.1, by omega⟩ ⟨by omega, inside.2⟩
  have lastPassed : u.tracker.lastPassed.set (j + 1) (some b.id) = s.tracker.lastPassed.set (j + 1) (some b.id) := by
    rw [hu]
    exact PerStand.set_set ..
  rw [← hu]
  unfold afterPass
  rw [gap, zones, lastPassed, body, hu]
  simp [afterPasses]

/-- The BODYs piled at the end of zone `j` pass the loaded stand one after another (R18). -/
theorem entryLoop_bodies {rs : List Mark} (inside : 1 ≤ j ∧ j + 1 ≤ 8) (within : j < s.n) (loaded : s.loadedAt (j + 1) = true)
    (estimate : s.hEst (j + 1) = h) (hEnds : ends = decide (j + 1 < s.n ∧ s.zoneLen (j + 1) = 0)) :
    ∀ (bs ps : List Mark) (l : Mark) (fuel : Nat), (∀ b ∈ bs, b.kind = .body ∧ b.pos = s.zoneLen j) → ps ≠ [] →
      (bs ++ rs).length ≤ fuel →
      entryLoop fuel j (afterPasses j h ends ps l (bs ++ rs) s) =
        entryLoop (fuel - bs.length) j (afterPasses j h ends (ps ++ bs) (bs.getLastD l) rs s)
  | [], ps, l, fuel, _, _, _ => by rw [List.append_nil]; rfl
  | b :: bs, ps, l, fuel, bodies, nonempty, enough => by
    obtain ⟨body, arrived⟩ := bodies b List.mem_cons_self
    obtain ⟨n, rfl⟩ : ∃ n, fuel = n + 1 := ⟨fuel - 1, by simp at enough; omega⟩
    have front : (afterPasses j h ends ps l (b :: bs ++ rs) s).zone j = b :: (bs ++ rs) := afterPasses_zone inside
    have behind : (afterPasses j h ends ps l (b :: bs ++ rs) s).zone (j + 1) ≠ [] := by
      rw [afterPasses_next inside]
      simp [nonempty]
    have goes : entryPasses (afterPasses j h ends ps l (b :: bs ++ rs) s) (j + 1) b.kind = true :=
      entryPasses_iff.mpr ⟨body, loaded⟩
    rw [entryLoop_passes front arrived within goes inside.2 estimate hEnds behind]
    have passed := afterPass_body (s := s) (h := h) (ends := ends) (rem := bs ++ rs) (ps := ps) (l := l) inside body
    rw [show b :: bs ++ rs = b :: (bs ++ rs) from rfl, passed,
      entryLoop_bodies inside within loaded estimate hEnds bs (ps ++ [b]) b n
        (fun c hc => bodies c (List.mem_cons_of_mem _ hc)) (by simp) (by simp at enough ⊢; omega)]
    rw [List.append_assoc, List.length_cons, Nat.add_sub_add_right, List.getLastD_cons]
    rfl

theorem stopped_kinds {len : Nat} {kind : MarkKind} : holdsKind (stopped len q) kind = q.any (·.kind == kind) := by
  unfold holdsKind stopped
  cases q with
  | nil => rfl
  | cons x r =>
    by_cases arrived : x.pos = len <;> simp [arrived]

end

end Sys2Proof.Machine

/-! Proofs for a load-on downstream (R18, R30, R34, R35, R74): the bite, and the load that nothing explains. -/

namespace Sys2Proof.Machine

section
variable {s : State} {m : Mark} {bs rs : List Mark} {j k h f : Nat} {ends : Bool}

/-! ### The HEAD taken by the stand (R34) -/

theorem noteCorrected_frame : noteCorrected j m s =
    { s with journal := (noteCorrected j m s).journal, attention := (noteCorrected j m s).attention } := by
  unfold noteCorrected
  split
  · rfl
  · exact (note_onto _ _ _ _ _ _ _ s s rfl rfl).trans (by rw [note_onto _ _ _ _ _ _ _ s s rfl rfl])

/-- The threading record of a stand that takes a HEAD of the coil given (R34). -/
def bitten (coil : Word) (t : Threading) : Threading := { t with state := .biting, coil := coil, lockCount := 0, lockMade := false }

theorem startBiting_coil {n : State} (inside : 1 ≤ k ∧ k ≤ 8) {coil : Word} :
    (startBiting k n).withThread k { (startBiting k n).thread k with coil := coil } = n.withThread k (bitten coil (n.thread k)) := by
  unfold startBiting
  rw [withThread_thread _ _ _ inside, withThread_withThread]
  rfl

/-- What the bite of stand `j + 1` leaves: the HEAD and the BODYs piled behind it have passed, and what stands at the entry
then is held (R18, R34). -/
theorem biteHead_eq (inside : 1 ≤ j ∧ j + 1 ≤ 8) (within : j + 1 ≤ s.n) (zone : s.zone j = m :: (bs ++ rs)) (head : m.kind = .head)
    (bodies : ∀ b ∈ bs, b.kind = .body ∧ b.pos = s.zoneLen j) (stops : ∀ x r, rs = x :: r → x.pos = s.zoneLen j → x.kind ≠ .body)
    (somewhere : j + 1 < s.n ∨ s.zone (j + 1) ≠ [] ∨ 0 < s.zoneLen (j + 1)) (estimate : s.hEst (j + 1) = h)
    (hEnds : ends = decide (j + 1 < s.n ∧ s.zoneLen (j + 1) = 0)) {w : State}
    (hw : w = note .bite (j + 1) s.clock m.coil (sat16 h) m.id (sat16 (m.hold.getD 0 / 1000)) (noteCorrected j m s)) :
    biteHead (j + 1) m s = { s with
      journal := w.journal, attention := w.attention,
      est := s.est.set (j + 1) { s.est.get (j + 1) with mode := .held },
      gap := (ffUpdate (j + 1) ((bs.getLastD m).passed h) s).gap,
      tracker := { s.tracker with
        zones := (s.tracker.zones.set j (stopped (s.zoneLen j) rs)).set (j + 1)
          (s.zone (j + 1) ++ (m :: bs).map (landed (j + 1) h ends s)),
        lastPassed := s.tracker.lastPassed.set (j + 1) (some (bs.getLastD m).id),
        threading := s.tracker.threading.set (j + 1) { bitten m.coil (s.thread (j + 1)) with
          state := if rs.any (·.kind == .tail) then .tailing else .biting },
        raised := s.tracker.raised ++ (if ends = true ∧ s.loadedAt (j + 2) = true then [(.coilOverlap, j + 2)] else []) ++
          (if frontOverlaps (s.zoneLen j) rs = true then [(.coilOverlap, j + 1)] else []) } } := by
  have inside1 : 1 ≤ j + 1 ∧ j + 1 ≤ 8 := ⟨by omega, inside.2⟩
  obtain ⟨n, hn⟩ : ∃ n, n = noteCorrected j m s := ⟨_, rfl⟩
  have corrected : n = { s with journal := n.journal, attention := n.attention } := by
    rw [hn]
    exact noteCorrected_frame
  have nThread : n.thread (j + 1) = s.thread (j + 1) := by rw [corrected]; rfl
  obtain ⟨b, hb⟩ : ∃ b, b = n.withThread (j + 1) (bitten m.coil (s.thread (j + 1))) := ⟨_, rfl⟩
  have bThread : b.thread (j + 1) = bitten m.coil (s.thread (j + 1)) := by
    rw [hb]
    exact withThread_thread _ _ _ inside1
  have bZone : ∀ i, b.zone i = s.zone i := fun i => by rw [hb, corrected]; rfl
  have bLen : ∀ i, b.zoneLen i = s.zoneLen i := fun i => by rw [hb, corrected]; rfl
  have bN : b.n = s.n := by rw [hb, corrected]; rfl
  have bLoaded : b.loadedAt (j + 1) = true := by
    unfold State.loadedAt
    rw [bThread]
    rfl
  have bNext : b.loadedAt (j + 2) = s.loadedAt (j + 2) := by
    unfold State.loadedAt
    rw [hb, withThread_other _ _ _ _ (by omega), corrected]
    rfl
  have bEst : b.hEst (j + 1) = h := by
    rw [hb, corrected]
    exact estimate
  have bEnds : ends = decide (j + 1 < b.n ∧ b.zoneLen (j + 1) = 0) := by rw [bN, bLen]; exact hEnds
  have passed : passFront j b = afterPasses j h ends [m] m (bs ++ rs) b := by
    rw [passFront_eq ((bZone j).trans zone) inside.2 bEst bEnds (by rw [bN, bLen, bZone]; exact somewhere)
      (fun _ _ => by rw [head]; rfl), afterPass_head head]
  have lined : (afterPasses j h ends [m] m (bs ++ rs) b).zone j = bs ++ rs := afterPasses_zone inside
  obtain ⟨c, hc⟩ : ∃ c, c = afterPasses j h ends (m :: bs) (bs.getLastD m) rs b := ⟨_, rfl⟩
  have cZone : c.zone j = rs := by rw [hc]; exact afterPasses_zone inside
  have cLoaded : c.loadedAt (j + 1) = true := by rw [hc]; exact bLoaded
  have cLen : c.zoneLen j = s.zoneLen j := by rw [hc]; exact bLen j
  obtain ⟨d, hd⟩ : ∃ d, d = entryLoop (bs ++ rs).length j (afterPasses j h ends [m] m (bs ++ rs) b) := ⟨_, rfl⟩
  have looped : d = { c with tracker := { c.tracker with
      zones := c.tracker.zones.set j (stopped (s.zoneLen j) rs),
      raised := c.tracker.raised ++ (if frontOverlaps (s.zoneLen j) rs = true then [(.coilOverlap, j + 1)] else []) } } := by
    rw [hd, entryLoop_bodies inside (by rw [bN]; omega) bLoaded bEst bEnds bs [m] m _
      (fun x hx => by rw [bLen]; exact bodies x hx) (by simp) (le_refl _), List.singleton_append, ← hc,
      entryLoop_stops cZone (by simp) (by rw [hc]; exact (by rw [bN]; omega : j < b.n)) (fun x r hx arrived => ?_), cLen, cLoaded]
    · simp only [and_true]
    · rw [Bool.eq_false_iff, ne_eq, entryPasses_iff]
      exact fun goes => stops x r hx (by rw [← cLen]; exact arrived) goes.1
  have dClock : d.clock = s.clock := by rw [looped, hc, hb, corrected]; rfl
  have dEst : d.hEst (j + 1) = h := by
    rw [looped, hc]
    exact bEst
  have dThread : d.thread (j + 1) = bitten m.coil (s.thread (j + 1)) := by
    rw [looped, hc]
    exact bThread
  have tails : holdsKind (d.zone j) .tail = rs.any (·.kind == .tail) := by
    rw [looped, ← stopped_kinds]
    exact congrArg (holdsKind · MarkKind.tail) (PerStand.get_set_same _ _ _ ⟨inside.1, by omega⟩)
  obtain ⟨e, he⟩ : ∃ e, e = d.withThread (j + 1) { bitten m.coil (s.thread (j + 1)) with
      state := if rs.any (·.kind == .tail) then .tailing else .biting } := ⟨_, rfl⟩
  have tailing : (if holdsKind (d.zone j) .tail = true then d.withThread (j + 1) { d.thread (j + 1) with state := .tailing }
      else d) = e := by
    rw [tails, he, dThread]
    split
    · rfl
    · exact (withThread_self d (j + 1)).symm.trans (by rw [dThread]; rfl)
  have bite : biteHead (j + 1) m s = setMode (j + 1) .held
      (note .bite (j + 1) s.clock m.coil (sat16 h) m.id (sat16 (m.hold.getD 0 / 1000)) e) := by
    have eClock : e.clock = s.clock := by rw [he]; exact dClock
    have eEst : e.hEst (j + 1) = h := by rw [he]; exact dEst
    unfold biteHead
    dsimp only
    rw [Nat.add_sub_cancel, ← hn, startBiting_coil inside1, nThread, ← hb, passed, lined, ← hd, tailing, eClock, eEst]
  have eJournal : e.journal = n.journal := by rw [he, looped, hc, hb]; rfl
  have eAttention : e.attention = n.attention := by rw [he, looped, hc, hb]; rfl
  rw [← hn] at hw
  have landedSame : landed (j + 1) h ends b = landed (j + 1) h ends s := by
    funext x
    unfold landed entryPasses
    rw [show b.loadedAt (j + 1 + 1) = s.loadedAt (j + 1 + 1) from bNext]
  have bZones : b.tracker.zones = s.tracker.zones := by rw [hb, corrected]; rfl
  have apart : j ≠ j + 1 := Nat.ne_of_lt (Nat.lt_succ_self j)
  have zonesEq : c.tracker.zones.set j (stopped (s.zoneLen j) rs) = (s.tracker.zones.set j (stopped (s.zoneLen j) rs)).set
      (j + 1) (s.zone (j + 1) ++ (m :: bs).map (landed (j + 1) h ends s)) := by
    have cZones : c.tracker.zones =
        (b.tracker.zones.set j rs).set (j + 1) (b.zone (j + 1) ++ (m :: bs).map (landed (j + 1) h ends b)) := by rw [hc]; rfl
    rw [cZones, landedSame, bZone, bZones, PerStand.set_comm _ apart.symm inside1 ⟨inside.1, by omega⟩, PerStand.set_set]
  have raisedEq : c.tracker.raised = s.tracker.raised ++
      (if ends = true ∧ s.loadedAt (j + 2) = true then [(.coilOverlap, j + 2)] else []) := by
    rw [← bNext, hc, hb, corrected]
    rfl
  have bThreads : b.tracker.threading = s.tracker.threading.set (j + 1) (bitten m.coil (s.thread (j + 1))) := by
    rw [hb, corrected]
    rfl
  rw [zonesEq, raisedEq] at looped
  rw [bite, note_onto _ _ _ _ _ _ _ n e eJournal eAttention, ← hw, he, looped, hc]
  unfold setMode afterPasses State.withThread State.withTracker State.withEst
  dsimp only
  rw [bThreads, PerStand.set_set, hb, corrected]
  rfl

theorem frontWithin_none {kind : MarkKind} (far : ∀ m rest, s.zone j = m :: rest →
      m.kind ≠ kind ∨ m.hold = none ∧ s.lineCopy.wEarly * 1000 < s.zoneLen j - m.pos) : frontWithin s j kind = none := by
  unfold frontWithin
  split
  · rfl
  · next m rest zone =>
    refine if_neg fun near => ?_
    rcases far m rest zone with other | ⟨free, short⟩
    · exact other near.1
    · rcases near.2 with held | within
      · rw [free] at held
        exact absurd held nofun
      · unfold shortfall at within
        omega

theorem frontWithin_some {kind : MarkKind} {rest : List Mark} (zone : s.zone j = m :: rest) (same : m.kind = kind)
    (near : m.hold.isSome = true ∨ s.zoneLen j - m.pos ≤ s.lineCopy.wEarly * 1000) : frontWithin s j kind = some m := by
  unfold frontWithin
  rw [zone]
  exact if_pos ⟨same, near⟩

theorem vacant_iff : s.vacant k = true ↔ (s.thread k).state = .vacant := by
  unfold State.vacant
  exact beq_iff_eq

/-! ### The reply that confirms the load (R27, R28, R30) -/

/-- The head notice that a VACANT stand takes (R30). -/
def noticeTaken (t : Threading) : Option Word := if t.state = .vacant then t.headNotice else none

/-- The threading record of a stand that is not loaded, once its notices are taken and its runs 0 (R28, R30). -/
def noticed (t : Threading) : Threading :=
  { t with
    onRun := 0, offRun := 0, releaseNotice := false, headNotice := none,
    state := if (noticeTaken t).isSome then .expecting else t.state, coil := (noticeTaken t).getD t.coil }

/-- The references after stand `k` has taken its head notice: HOLD there ends (R113). -/
def noticedGap (k : Nat) (s : State) : PerStand Reference :=
  if (noticeTaken (s.thread k)).isSome then (endHold k s).gap else s.gap

theorem endHold_gap_congr {t : State} (gap : t.gap = s.gap) : (endHold k t).gap = (endHold k s).gap := by
  rw [endHold_eq, endHold_eq, gap]

theorem takeReleaseNotice_unloaded (state : (s.thread k).state = .vacant ∨ (s.thread k).state = .expecting) :
    takeReleaseNotice k s = s.withThread k { s.thread k with releaseNotice := false } := by
  unfold takeReleaseNotice
  dsimp only
  cases hr : (s.thread k).releaseNotice
  · rw [if_neg nofun, ← hr, withThread_self]
  · rw [if_pos rfl, if_neg (by rcases state with h | h <;> rw [h] <;> nofun)]

/-- The notices of a stand that is not loaded (R30). -/
theorem takeNotices_unloaded (inside : 1 ≤ k ∧ k ≤ 8) (notFirst : k ≠ 1)
    (state : (s.thread k).state = .vacant ∨ (s.thread k).state = .expecting) :
    takeNotices k s = { s.withThread k { noticed (s.thread k) with
      onRun := (s.thread k).onRun, offRun := (s.thread k).offRun } with gap := noticedGap k s } := by
  by_cases taken : (noticeTaken (s.thread k)).isSome
  · obtain ⟨c, hc⟩ := Option.isSome_iff_exists.mp taken
    have vacant : (s.thread k).state = .vacant := by
      by_contra other
      unfold noticeTaken at hc
      rw [if_neg other] at hc
      exact absurd hc nofun
    have head : (s.thread k).headNotice = some c := by
      unfold noticeTaken at hc
      rwa [if_pos vacant] at hc
    unfold takeNotices takeHeadNotice
    rw [takeReleaseNotice_unloaded state]
    dsimp only
    rw [withThread_thread _ _ _ inside]
    dsimp only
    rw [head]
    dsimp only
    rw [if_pos vacant, withThread_withThread]
    unfold leaveVacant
    dsimp only
    rw [if_neg notFirst]
    unfold noticedGap noticed
    rw [if_pos taken, hc, endHold_eq, endHold_eq]
    rfl
  · have untaken : noticeTaken (s.thread k) = none := Option.not_isSome_iff_eq_none.mp taken
    have plain : (s.thread k).state = .expecting ∨ (s.thread k).state = .vacant ∧ (s.thread k).headNotice = none := by
      refine state.symm.imp_right fun vacant => ⟨vacant, ?_⟩
      unfold noticeTaken at untaken
      rwa [if_pos vacant] at untaken
    rw [takeNotices_plain s k inside plain]
    unfold noticedGap noticed
    rw [if_neg taken, untaken]
    rfl

theorem updateRuns_clear (inside : 1 ≤ k ∧ k ≤ 8) :
    clearRuns k (updateRuns k f s) = s.withThread k { s.thread k with onRun := 0, offRun := 0 } :=
  clearRuns_withThread inside

/-- A stand that is not loaded and whose on run comes to N_db confirms the load with what its notices leave (R28, R30). -/
theorem confirmed_unloaded (inside : 1 ≤ k ∧ k ≤ 8) (notFirst : k ≠ 1)
    (state : (s.thread k).state = .vacant ∨ (s.thread k).state = .expecting) (slot : (s.slotAt k).isSome = true)
    (loaded : (s.sched k).fOn ≤ f) (debounced : s.lineCopy.nDb ≤ min ((s.thread k).onRun + 1) 4) :
    loadOnDue (noticesAndRuns k f s) k = true ∧
      threadingWork k f s = loadOnAt k { s.withThread k (noticed (s.thread k)) with gap := noticedGap k s } := by
  obtain ⟨x, hx⟩ : ∃ x, x = takeNotices k s := ⟨_, rfl⟩
  have taken := takeNotices_unloaded inside notFirst state
  rw [← hx] at taken
  have own : x.thread k = { noticed (s.thread k) with onRun := (s.thread k).onRun, offRun := (s.thread k).offRun } := by
    rw [taken]
    exact withThread_thread _ _ _ inside
  have due : loadOnDue (noticesAndRuns k f s) k = true := by
    unfold noticesAndRuns
    rw [← hx, loadOnDue_iff]
    unfold updateRuns
    rw [withThread_thread _ _ _ inside, own]
    dsimp only
    refine ⟨?_, ?_⟩
    · unfold noticed
      dsimp only
      split
      · rfl
      · rcases state with h | h <;> rw [h] <;> rfl
    · rw [if_pos (by rw [taken]; exact ⟨slot, loaded⟩), taken]
      exact debounced
  refine ⟨due, ?_⟩
  unfold threadingWork
  rw [confirmOrLock_loadOn due]
  unfold noticesAndRuns
  rw [← hx, updateRuns_clear inside, own, taken]
  unfold State.withThread State.withTracker
  dsimp only
  rw [PerStand.set_set]
  rfl

end

/-- Settles O52: the notices leave the stand EXPECTING or VACANT with both runs 0; then the HEAD is taken or the load trips. -/
theorem loadOnBitesOrTripsDownstream : Obligations.LoadOnBitesOrTripsDownstream := by
  refine ⟨fun dt k f s absent => exec_loadOn_absent absent, ?_⟩
  intro dt k f s u th notice run present clear quiet upTo8 two upTo slot loaded debounced hNotice hth hu
  have inside : 1 ≤ k ∧ k ≤ 8 := ⟨by omega, by omega⟩
  have notFirst : k ≠ 1 := by omega
  have unloaded : (s.thread k).state = .vacant ∨ (s.thread k).state = .expecting →
      exec (.loadOn dt k f) s = .next (takeRaised (summaryAfter (s.tick dt) (loadOnAt k u))).settled := by
    intro state
    obtain ⟨due, work⟩ := confirmed_unloaded (s := s.tick dt) inside notFirst state slot loaded debounced
    have same : ({ (s.tick dt).withThread k (noticed ((s.tick dt).thread k)) with gap := noticedGap k (s.tick dt) } : State) = u := by
      have gap : noticedGap k (s.tick dt) = s.gap.set k { s.gap.get k with
          move := if notice.isSome then (match (s.gap.get k).move with | .hold _ => .none | x => x) else (s.gap.get k).move } := by
        unfold noticedGap
        rw [show noticeTaken ((s.tick dt).thread k) = notice from hNotice.symm]
        split
        · rw [endHold_eq]
          rfl
        · exact (PerStand.set_get ..).symm
      have thread : noticed ((s.tick dt).thread k) = th := by
        rw [hth]
        unfold noticed
        rw [show noticeTaken ((s.tick dt).thread k) = notice from hNotice.symm]
        rfl
      rw [gap, thread, hu]
      rfl
    rw [exec_loadOn (threadingActive_of run clear inside.1 upTo present) due, work, same]
  have uThread : u.thread k = th := by
    rw [hu]
    exact PerStand.get_set_same _ _ _ inside
  have uClock : u.clock = s.clock + dt := by rw [hu]
  have stateTh : th.state = if notice.isSome then .expecting else (s.thread k).state := by rw [hth]
  have state : th.state = .expecting ∨ th.state = .vacant → (s.thread k).state = .vacant ∨ (s.thread k).state = .expecting := by
    intro either
    by_cases vacant : (s.thread k).state = .vacant
    · exact .inl vacant
    · rw [if_neg vacant] at hNotice
      rw [stateTh, hNotice] at either
      exact .inr (either.resolve_right vacant)
  refine ⟨fun m bs rs left h d overlaps ends expecting zone head entries near bodies stops somewhere hEnds hh hd hLeft hOver => ?_,
    fun trips => ?_⟩
  · obtain ⟨j, rfl⟩ : ∃ j, k = j + 1 := ⟨k - 1, by omega⟩
    rw [Nat.add_sub_cancel] at zone entries near bodies stops hd hLeft hOver
    have uLen : u.zoneLen j = s.zoneLen j := by rw [hu]; rfl
    have vacancy : u.vacant (j + 1) = false := by
      rw [Bool.eq_false_iff, ne_eq, vacant_iff, uThread, expecting]
      nofun
    have bite : loadOnAt (j + 1) u = biteHead (j + 1) m u := by
      unfold loadOnAt
      rw [if_neg notFirst, vacancy, Nat.add_sub_cancel, frontWithin_some (s := u) (j := j) (by rw [hu]; exact zone) head
        (by rw [hu]; exact near)]
      rfl
    obtain ⟨w, hw⟩ : ∃ w, w = note .bite (j + 1) u.clock m.coil (sat16 h) m.id (sat16 (m.hold.getD 0 / 1000))
        (noteCorrected j m u) := ⟨_, rfl⟩
    have eaten := biteHead_eq (s := u) (bs := bs) (rs := rs) (j := j) (h := h) (ends := ends) ⟨by omega, inside.2⟩
      (by rw [hu]; exact upTo) (by rw [hu]; exact zone) head (fun b hb => ⟨(bodies b hb).1, by rw [uLen]; exact (bodies b hb).2.1⟩)
      (fun x r hx arrived => stops x r hx (by rw [← uLen]; exact arrived))
      (by rw [hu]; exact somewhere.imp_right (Or.imp_right id)) (by rw [hu]; exact hh.symm) (by rw [hu]; exact hEnds) hw
    obtain ⟨b, hb⟩ : ∃ b, b = biteHead (j + 1) m u := ⟨_, rfl⟩
    rw [← hb, uLen, show frontOverlaps (s.zoneLen j) rs = overlaps from hOver.symm,
      show stopped (s.zoneLen j) rs = left from hLeft.symm] at eaten
    have exec_eq := unloaded (state (.inl expecting))
    rw [bite, ← hb] at exec_eq
    obtain ⟨y, hy⟩ : ∃ y, y = summaryAfter (s.tick dt) b := ⟨_, rfl⟩
    rw [← hy] at exec_eq
    have afterSummary : y = { b with summary := y.summary } := hy ▸ summaryAfter_eq
    obtain ⟨v, hv⟩ : ∃ v, v = { y with tracker := { y.tracker with raised := s.tracker.raised } } := ⟨_, rfl⟩
    have nextLoaded : u.loadedAt (j + 2) = (s.thread (j + 1 + 1)).state.loaded := by
      unfold State.loadedAt
      rw [hu]
      exact congrArg (fun t => ThreadState.loaded (Threading.state t)) (PerStand.get_set_other _ _ _ _ (by omega))
    have raised : y.tracker.raised =
        (if ends = true ∧ (s.thread (j + 1 + 1)).state.loaded = true then [(.coilOverlap, j + 1 + 1)] else []) ++
          (if overlaps = true then [(.coilOverlap, j + 1)] else []) := by
      have before : u.tracker.raised = [] := by rw [hu]; exact quiet
      rw [afterSummary, eaten, before, nextLoaded]
      rfl
    have caused : takeRaised y = if overlaps then takeCause .coilOverlap (j + 1) u.clock
          (if ends = true ∧ (s.thread (j + 1 + 1)).state.loaded = true then takeCause .coilOverlap (j + 1 + 1) u.clock v else v)
        else (if ends = true ∧ (s.thread (j + 1 + 1)).state.loaded = true then takeCause .coilOverlap (j + 1 + 1) u.clock v
          else v) := by
      have yClock : y.clock = u.clock := by rw [afterSummary, eaten]
      have cleared : y.withTracker { y.tracker with raised := [] } = v := by rw [hv, quiet]; rfl
      unfold takeRaised
      rw [raised, cleared, yClock, takeCauses_append, takeCauses_ite, takeCauses_ite]
    have bZones : b.tracker.zones = (u.tracker.zones.set j left).set (j + 1) (u.zone (j + 1)
        ++ (m :: bs).map (landed (j + 1) h ends u)) := by rw [eaten]
    have changed : y = rewriteSummary b := by
      rw [hy]
      refine summaryAfter_zones fun same => ?_
      have queue : b.tracker.zones.get j = left := by
        rw [bZones]
        exact (PerStand.get_set_other _ _ _ _ (Nat.ne_of_lt (Nat.lt_succ_self j))).trans
          (PerStand.get_set_same _ _ _ ⟨by omega, by omega⟩)
      have shorter : left = m :: (bs ++ rs) := by
        rw [← zone, ← queue, same]
        rfl
      have size : left.length = rs.length := by
        rw [hLeft, List.length_append, List.length_map, List.length_take, List.length_drop]
        omega
      have longer := congrArg List.length shorter
      rw [size, List.length_cons, List.length_append] at longer
      omega
    have lastEntries : (bs.getLastD m).thick.length = j := by
      rcases List.eq_nil_or_concat bs with rfl | ⟨front, x, rfl⟩
      · exact entries
      · rw [List.concat_eq_append, List.getLastD_concat]
        exact (bodies x (by simp)).2.2
    rw [caused] at exec_eq
    refine ⟨_, w, v, _, exec_eq, rfl, rfl, ?_, ?_, ?_⟩
    · rw [hv, changed]
      exact (rewriteSummary_written (u := b) (by rw [eaten, hu])).of_same rfl rfl rfl rfl
    · rw [hw]
      unfold noteCorrected shortfall
      rw [head, uLen]
      rfl
    · have noted : w = { u with journal := w.journal, attention := w.attention } := by
        obtain ⟨c, hc⟩ : ∃ c, c = noteCorrected j m u := ⟨_, rfl⟩
        have corrected : c = { u with journal := c.journal, attention := c.attention } := hc ▸ noteCorrected_frame
        rw [hw, ← hc]
        refine (note_onto _ _ _ _ _ _ _ c c rfl rfl).trans ?_
        rw [corrected]
      have lands : (m :: bs).map (landed (j + 1) h ends u) = (m :: bs).map fun x => { x with
          thick := x.thick ++ [h], pos := 0,
          hold := if ends = true ∧ (x.kind = .head ∨ (s.thread (j + 1 + 1)).state.loaded = false) then some 0 else none } := by
        refine List.map_congr_left fun x hx => ?_
        have stopsAt : entryPasses u (j + 1 + 1) x.kind = false ↔
            x.kind = .head ∨ (s.thread (j + 1 + 1)).state.loaded = false := by
          unfold entryPasses
          rw [show u.loadedAt (j + 1 + 1) = (s.thread (j + 1 + 1)).state.loaded from nextLoaded]
          rcases List.mem_cons.mp hx with rfl | later
          · rw [head]
            simp
          · rw [(bodies x later).1]
            simp
        unfold landed
        simp only [stopsAt]
      have fed : (ffUpdate (j + 1) ((bs.getLastD m).passed h) u).gap = u.gap.set (j + 1) { u.gap.get (j + 1) with
          ff := limit (round256 (d * (s.sched (j + 1)).kff)) (s.sched (j + 1)).ffLim } := by
        unfold ffUpdate State.withRef
        rw [passed_lastThick (by omega) lastEntries, hd, hu]
        rfl
      rw [hv, afterSummary, eaten, lands, fed, uThread, noted, hu]
      dsimp only
      rw [PerStand.set_set]
      rfl
  · have raised : loadOnAt k u = raiseCause .unexpectedLoad k u := by
      unfold loadOnAt
      rw [if_neg notFirst]
      rcases trips with ⟨expecting, far⟩ | vacant
      · have none := frontWithin_none (s := u) (j := k - 1) (kind := .head) (by rw [hu]; exact far)
        rw [none]
        exact ite_self _
      · exact if_pos (vacant_iff.mpr (by rw [uThread]; exact vacant))
    rw [unloaded (state (trips.imp_left And.left)), raised, summaryAfter_same _ _ (by rw [hu]; rfl) (by rw [hu]; rfl),
      takeRaised_raiseCause _ _ _ (by rw [hu]; exact quiet)]

end Sys2Proof.Machine

/-! Proofs for a load-off (R13, R19, R28, R30, R37 to R41). -/

namespace Sys2Proof.Machine

section
variable {s u : State} {dt : Clock} {m : Mark} {rest : List Mark} {j k h f : Nat} {ends : Bool} {c : Word}

/-! ### The reply that confirms the load-off (R28, R30) -/

/-- The threading record of a loaded stand once its notices are taken and its runs 0 (R28, R30). -/
def noticedLoaded (t : Threading) : Threading :=
  { t with
    onRun := 0, offRun := 0, releaseNotice := false, headNotice := none,
    state := if t.releaseNotice = true ∧ (t.state = .biting ∨ t.state = .rolling) then .tailing else t.state }

theorem noticedLoaded_loaded {t : Threading} (loaded : t.state.loaded = true) : (noticedLoaded t).state.loaded = true := by
  unfold noticedLoaded
  dsimp only
  split
  · rfl
  · exact loaded

theorem confirmed_loaded (inside : 1 ≤ k ∧ k ≤ 8) (loaded : (s.thread k).state.loaded = true) (slot : (s.slotAt k).isSome = true)
    (unloaded : f < (s.sched k).fOff) (debounced : s.lineCopy.nDb ≤ min ((s.thread k).offRun + 1) 4) :
    loadOffDue (noticesAndRuns k f s) k = true ∧
      threadingWork k f s = loadOffAt k (s.withThread k (noticedLoaded (s.thread k))) := by
  have notVacant : (s.thread k).state ≠ .vacant := by
    intro vacant
    rw [vacant] at loaded
    exact absurd loaded nofun
  have noted := countRuns_after_notices s k f inside _ (takeNotices_loaded s k inside notVacant)
  have state : ((noticesAndRuns k f s).thread k).state.loaded = true := by
    rw [noted, withThread_thread _ _ _ inside]
    exact noticedLoaded_loaded loaded
  have due : loadOffDue (noticesAndRuns k f s) k = true := by
    refine loadOffDue_iff.mpr ⟨state, ?_⟩
    rw [noted, withThread_thread _ _ _ inside]
    dsimp only
    rw [if_pos (show (s.slotAt k).isSome = true ∧ f < (s.sched k).fOff from ⟨slot, unloaded⟩)]
    exact debounced
  refine ⟨due, ?_⟩
  unfold threadingWork
  rw [confirmOrLock_loadOff (loadOnDue_loaded state) due, noted, clearRuns_withThread inside]
  rfl

/-! ### What the release work starts from (R37 to R39) -/

/-- The state in which the release work of stand `k` begins: the TAIL cut or passed, and the stand left. -/
structure BeforeRelease (s : State) (dt : Clock) (k : Nat) (id : Option Word) (zones : PerStand (List Mark)) (gen : Generator)
    (own : Threading) (v : State) : Prop where
  frame : v = { s with clock := s.clock + dt, journal := v.journal, attention := v.attention, tracker := v.tracker }
  zones : v.tracker.zones = zones
  raised : v.tracker.raised = []
  carry : v.tracker.carry = s.tracker.carry
  lastPassed : v.tracker.lastPassed = id.elim s.tracker.lastPassed fun i => s.tracker.lastPassed.set k (some i)
  gen : v.tracker.gen = gen
  own : v.thread k = own
  others : ∀ j, j ≠ k → v.thread j = s.thread j

theorem skipCut_frame {kind : MarkKind} : skipCut kind s = { s with
    journal := (skipCut kind s).journal, attention := (skipCut kind s).attention,
    tracker := { s.tracker with emptySpell := (skipCut kind s).tracker.emptySpell } } := by
  unfold skipCut
  split
  · rfl
  · rw [note_onto _ _ _ _ _ _ _ s (s.withTracker { s.tracker with emptySpell := true }) rfl rfl]
    rfl

/-- Stand 1 is left VACANT with its TAIL cut, where the pool has room, and the generator stopped (R13, R37). -/
theorem beforeRelease_one {th : Threading} {tail : Mark} (quiet : s.tracker.raised = [])
    (hu : u = { s with clock := s.clock + dt, tracker := { s.tracker with threading := s.tracker.threading.set 1 th } })
    (hTail : tail = newMark u .tail 0) :
    BeforeRelease s dt 1 (if s.marksQueued < 256 then some s.tracker.nextId else none)
      (if s.marksQueued < 256 then s.tracker.zones.set 1 (s.zone 1 ++ [tail]) else s.tracker.zones)
      { s.tracker.gen with running := false } { th with state := .vacant, coil := 0, h0 := 0 }
      (stateAfterRelease 1 (cutTail u)) := by
  have inside : 1 ≤ 1 ∧ 1 ≤ 8 := by decide
  have room : u.hasRoom = decide (s.marksQueued < 256) := by
    rw [hu]
    exact decide_eq_decide.mpr (show 0 < 256 - s.marksQueued ↔ s.marksQueued < 256 by omega)
  have left : ∀ x : State, stateAfterRelease 1 x = x.withThread 1 { x.thread 1 with state := .vacant, coil := 0, h0 := 0 } := by
    intro x
    unfold stateAfterRelease
    exact if_pos rfl
  have thread : u.thread 1 = th := by
    rw [hu]
    exact PerStand.get_set_same _ _ _ inside
  by_cases free : s.marksQueued < 256
  · have cut : cutTail u = stopGenerator (cutMark .tail 0 u) := by
      unfold cutTail
      rw [room, decide_eq_true free]
      rfl
    rw [left, cut, if_pos free, if_pos free]
    have own : ((stopGenerator (cutMark .tail 0 u)).thread 1) = th := thread
    refine ⟨?_, ?_, ?_, ?_, ?_, ?_, ?_, fun j hj => ?_⟩
    · rw [hu]
      rfl
    · rw [hTail, hu]
      rfl
    · rw [hu]
      exact quiet
    · rw [hu]
      rfl
    · rw [hu]
      rfl
    · rw [hu]
      rfl
    · rw [withThread_thread _ _ _ inside, own]
    · rw [withThread_other _ _ _ _ hj, hu]
      exact PerStand.get_set_other _ _ _ _ hj
  · obtain ⟨x, hx⟩ : ∃ x, x = skipCut .tail u := ⟨_, rfl⟩
    have skipped : x = { u with
        journal := x.journal, attention := x.attention,
        tracker := { u.tracker with emptySpell := x.tracker.emptySpell } } := hx ▸ skipCut_frame
    have cut : cutTail u = stopGenerator x := by
      unfold cutTail
      rw [room, decide_eq_false free, hx]
      rfl
    have own : (stopGenerator x).thread 1 = th := by
      rw [skipped]
      exact thread
    rw [left, cut, if_neg free, if_neg free]
    refine ⟨?_, ?_, ?_, ?_, ?_, ?_, ?_, fun j hj => ?_⟩
    · rw [skipped, hu]
      rfl
    · rw [skipped, hu]
      rfl
    · rw [skipped, hu]
      exact quiet
    · rw [skipped, hu]
      rfl
    · rw [skipped, hu]
      rfl
    · rw [skipped, hu]
      rfl
    · rw [withThread_thread _ _ _ inside, own]
    · rw [withThread_other _ _ _ _ hj, skipped, hu]
      exact PerStand.get_set_other _ _ _ _ hj

/-! ### The coil a stand is left for (R39) -/

theorem stand1Busy_iff : stand1Busy s = true ↔ (s.thread 1).state ∈ [ThreadState.expecting, .biting, .rolling] := by
  unfold stand1Busy
  simp [or_assoc]

/-- What a stand downstream of stand 1 is left as: EXPECTING the coil nearest upstream, or VACANT (R39). -/
def releasedAs (Z : Nat → List Mark) (j : Nat) (first : Threading) (after : ThreadState) (coil : Word) : Prop :=
  (∃ i q x r, 1 ≤ i ∧ i < j + 1 ∧ Z i = q ++ x :: r ∧ x.kind = .head ∧ (∀ y ∈ q, y.kind ≠ .head) ∧
      (∀ i', i < i' → i' < j + 1 → ∀ y ∈ Z i', y.kind ≠ .head) ∧ after = .expecting ∧ coil = x.coil) ∨
    (∀ i, 1 ≤ i → i < j + 1 → ∀ y ∈ Z i, y.kind ≠ .head) ∧
      (first.state ∈ [ThreadState.expecting, .biting, .rolling] ∧ after = .expecting ∧ coil = first.coil ∨
        first.state ∉ [ThreadState.expecting, .biting, .rolling] ∧ after = .vacant ∧ coil = 0)

theorem stateAfterRelease_eq {Z : Nat → List Mark} {after : ThreadState} {coil : Word} (inside : 1 ≤ j ∧ j + 1 ≤ 8)
    (same : ∀ i, 1 ≤ i → i < j + 1 → s.zone i = Z i) (left : releasedAs Z j (s.thread 1) after coil) :
    stateAfterRelease (j + 1) s = s.withThread (j + 1) { s.thread (j + 1) with state := after, coil := coil } := by
  have queues : (standsTo j).reverse.flatMap (fun i => s.zone i) = (standsTo j).reverse.flatMap Z := by
    refine List.flatMap_congr fun i hi => ?_
    have := (mem_standsTo j i).mp (List.mem_reverse.mp hi)
    exact same i (by omega) (by omega)
  have nearest : nearestHead s (j + 1) = (((standsTo j).reverse.flatMap Z).find? (fun m => m.kind == .head)).map Mark.coil := by
    unfold nearestHead
    rw [Nat.add_sub_cancel, queues]
  obtain ⟨found, notFound⟩ := nearest_head Z j (by omega)
  unfold stateAfterRelease
  dsimp only
  rw [if_neg (by omega), nearest]
  rcases left with ⟨i, q, x, r, one, below, zone, head, before, above, rfl, rfl⟩ | ⟨nowhere, first⟩
  · rw [found i q x r one (by omega) zone head before fun i' h1 h2 => above i' h1 (by omega)]
    rfl
  · rw [notFound fun i h1 h2 => nowhere i h1 (by omega)]
    rcases first with ⟨busy, rfl, rfl⟩ | ⟨idle, rfl, rfl⟩
    · exact if_pos (stand1Busy_iff.mpr busy)
    · exact if_neg fun busy => idle (stand1Busy_iff.mp busy)

theorem releasedAs_unloaded {Z : Nat → List Mark} {first : Threading} {after : ThreadState} {coil : Word}
    (left : releasedAs Z j first after coil) : after.loaded = false := by
  rcases left with ⟨_, _, _, _, _, _, _, _, _, _, rfl, _⟩ | ⟨_, ⟨_, rfl, _⟩ | ⟨_, rfl, _⟩⟩ <;> rfl

/-- Stand `j + 1` is left with its TAIL passed, and a mark behind it that stands at the entry held there (R19, R38, R39). -/
theorem beforeRelease_tail {th : Threading} {after : ThreadState} {coil : Word} (quiet : s.tracker.raised = [])
    (hu : u = { s with clock := s.clock + dt, tracker := { s.tracker with threading := s.tracker.threading.set (j + 1) th } })
    (inside : 1 ≤ j ∧ j + 1 ≤ 8) (upTo : j + 1 ≤ s.n) (zone : s.zone j = m :: rest) (tail : m.kind = .tail)
    (somewhere : j + 1 < s.n ∨ s.zone (j + 1) ≠ [] ∨ 0 < s.zoneLen (j + 1))
    (left : releasedAs (fun i => if i = j then rest else s.zone i) j (s.thread 1) after coil) {p : State}
    (hp : p = stateAfterRelease (j + 1) (passFront j (noteCorrected j m u))) :
    BeforeRelease s dt (j + 1) (some m.id)
      ((s.tracker.zones.set j (stopped (s.zoneLen j) rest)).set (j + 1) (s.zone (j + 1) ++ [{ m with
        thick := m.thick ++ [(s.est.get (j + 1)).hEst], pos := 0,
        hold := if j + 1 < s.n ∧ s.zoneLen (j + 1) = 0 then some 0 else none }]))
      s.tracker.gen { th with state := after, coil := coil } (entryLoop (p.zone j).length j p) := by
  have inside1 : 1 ≤ j + 1 ∧ j + 1 ≤ 8 := ⟨by omega, inside.2⟩
  have apart : j ≠ j + 1 := Nat.ne_of_lt (Nat.lt_succ_self j)
  obtain ⟨n, hn⟩ : ∃ n, n = noteCorrected j m u := ⟨_, rfl⟩
  have corrected : n = { u with journal := n.journal, attention := n.attention } := hn ▸ noteCorrected_frame
  obtain ⟨ends, hEnds⟩ : ∃ ends, ends = decide (j + 1 < s.n ∧ s.zoneLen (j + 1) = 0) := ⟨_, rfl⟩
  obtain ⟨b, hb⟩ : ∃ b, b = passFront j n := ⟨_, rfl⟩
  have passed : b = { n with tracker := { n.tracker with
      zones := (s.tracker.zones.set j rest).set (j + 1) (s.zone (j + 1) ++ [{ m with
        thick := m.thick ++ [(s.est.get (j + 1)).hEst], pos := 0,
        hold := if j + 1 < s.n ∧ s.zoneLen (j + 1) = 0 then some 0 else none }]),
      lastPassed := s.tracker.lastPassed.set (j + 1) (some m.id) } } := by
    rw [hb, passFront_eq (s := n) (h := (s.est.get (j + 1)).hEst) (ends := ends) (by rw [corrected, hu]; exact zone) inside.2
      (by rw [corrected, hu]; rfl) (by rw [corrected, hu]; exact hEnds) (by rw [corrected, hu]; exact somewhere)
      (fun _ _ => by rw [tail]; rfl)]
    have lands : landed (j + 1) (s.est.get (j + 1)).hEst ends n m = { m with
        thick := m.thick ++ [(s.est.get (j + 1)).hEst], pos := 0,
        hold := if j + 1 < s.n ∧ s.zoneLen (j + 1) = 0 then some 0 else none } := by
      have stops : entryPasses n (j + 1 + 1) m.kind = false := by rw [tail]; rfl
      unfold landed
      rw [stops, hEnds]
      simp only [decide_eq_true_eq, and_true]
    unfold afterPass
    rw [lands, tail, corrected, hu]
    simp only [reduceCtorEq, false_and, and_false, if_false, if_true, List.append_nil]
    rfl
  have bThread : ∀ i, b.thread i = u.thread i := fun i => by rw [passed, corrected]; rfl
  have uOwn : u.thread (j + 1) = th := by
    rw [hu]
    exact PerStand.get_set_same _ _ _ inside1
  have uOthers : ∀ i, i ≠ j + 1 → u.thread i = s.thread i := fun i hi => by
    rw [hu]
    exact PerStand.get_set_other _ _ _ _ hi
  have queues : ∀ i, 1 ≤ i → i < j + 1 → b.zone i = if i = j then rest else s.zone i := fun i one below => by
    rw [passed]
    refine (PerStand.get_set_other _ _ _ _ (by omega)).trans ?_
    exact PerStand.get_set _ _ _ _ ⟨inside.1, by omega⟩
  have leftBehind := stateAfterRelease_eq (s := b) inside queues
    (by rw [bThread, uOthers 1 (by omega)]; exact left)
  rw [bThread, uOwn] at leftBehind
  rw [← hn, ← hb, leftBehind] at hp
  have pZone : p.zone j = rest := by
    rw [hp]
    exact (queues j inside.1 (by omega)).trans (if_pos rfl)
  have pOwn : p.thread (j + 1) = { th with state := after, coil := coil } := by
    rw [hp]
    exact withThread_thread _ _ _ inside1
  have pEmpty : p.loadedAt (j + 1) = false := by
    unfold State.loadedAt
    rw [pOwn]
    exact releasedAs_unloaded left
  have pLen : p.zoneLen j = s.zoneLen j := by rw [hp, passed, corrected, hu]; rfl
  have looped := entryLoop_stops (s := p) (fuel := (p.zone j).length) pZone (by rw [pZone])
    (by rw [hp, passed, corrected, hu]; exact upTo) (fun x r _ _ => by
      rw [Bool.eq_false_iff, ne_eq, entryPasses_iff, pEmpty]
      exact fun goes => nomatch goes.2)
  rw [pLen, pEmpty] at looped
  simp only [Bool.false_eq_true, and_false, if_false, List.append_nil] at looped
  have zones : p.tracker.zones.set j (stopped (s.zoneLen j) rest) = (s.tracker.zones.set j (stopped (s.zoneLen j) rest)).set
      (j + 1) (s.zone (j + 1) ++ [{ m with
        thick := m.thick ++ [(s.est.get (j + 1)).hEst], pos := 0,
        hold := if j + 1 < s.n ∧ s.zoneLen (j + 1) = 0 then some 0 else none }]) := by
    rw [show p.tracker.zones = b.tracker.zones by rw [hp]; rfl, show b.tracker.zones = _ from congrArg (fun x => x.tracker.zones) passed]
    dsimp only
    rw [PerStand.set_comm _ apart.symm inside1 ⟨inside.1, by omega⟩, PerStand.set_set]
  rw [looped, zones]
  refine ⟨?_, rfl, ?_, ?_, ?_, ?_, pOwn, fun i hi => ?_⟩
  · rw [hp, passed, corrected, hu]
    rfl
  · rw [hp, passed, corrected, hu]
    exact quiet
  · rw [hp, passed, corrected, hu]
    rfl
  · rw [hp, passed]
    rfl
  · rw [hp, passed, corrected, hu]
    rfl
  · show p.thread i = _
    rw [hp, withThread_other _ _ _ _ hi, bThread, uOthers i hi]

end

/-- Settles O53: the release work is the same at every stand, from what the TAIL's cut or passage leaves. -/
theorem loadOffReleasesOrTrips : Obligations.LoadOffReleasesOrTrips := by
  refine ⟨fun dt k f s absent => exec_loadOff_absent absent, ?_⟩
  intro dt k f s u th tail run clear present quiet upTo8 one upTo slot low debounced hTail hth hu
  have inside : 1 ≤ k ∧ k ≤ 8 := ⟨one, by omega⟩
  have uThread : u.thread k = th := by
    rw [hu]
    exact PerStand.get_set_same _ _ _ inside
  have uClock : u.clock = s.clock + dt := by rw [hu]
  have worked : (s.thread k).state.loaded = true →
      exec (.loadOff dt k f) s = .next (takeRaised (summaryAfter (s.tick dt) (loadOffAt k u))).settled := by
    intro loaded
    obtain ⟨due, work⟩ := confirmed_loaded (s := s.tick dt) inside loaded slot low debounced
    have same : (s.tick dt).withThread k (noticedLoaded ((s.tick dt).thread k)) = u := by
      rw [hu, hth]
      rfl
    rw [exec_loadOff (threadingActive_of run clear one upTo present) due, work, same]
  have loadedOf : th.state.loaded = true → (s.thread k).state.loaded = true := by
    intro loaded
    rw [hth] at loaded
    dsimp only at loaded
    split at loaded
    · next noticed =>
      rcases noticed.2 with h | h <;> rw [h] <;> rfl
    · exact loaded
  refine ⟨fun zones after coil id rest cases_ => ?_, fun two trips => ?_⟩
  · obtain ⟨v, tid, before, loaded, work, passed⟩ : ∃ v tid,
        BeforeRelease s dt k tid zones (if k = 1 then { s.tracker.gen with running := false } else s.tracker.gen)
          { th with state := after, coil := coil, h0 := if k = 1 then 0 else th.h0 } v ∧
        (s.thread k).state.loaded = true ∧ loadOffAt k u = releaseWork k (s.thread k).coil id v ∧
        tid.elim s.tracker.lastPassed (fun i => s.tracker.lastPassed.set k (some i)) =
          if k = 1 ∧ 256 ≤ s.marksQueued then s.tracker.lastPassed else s.tracker.lastPassed.set k (some id) := by
      rcases cases_ with ⟨rfl, loaded, rfl, rfl, rfl, rfl⟩ | ⟨two, tailing, somewhere, ⟨m, zone, kind, rfl, near, rfl⟩, left⟩
      · have coilU : (u.thread 1).coil = (s.thread 1).coil := by rw [uThread, hth]
        have cut : tail = newMark u .tail 0 := by
          unfold newMark
          rw [hTail, coilU, hu]
          rfl
        have room : u.hasRoom = decide (s.marksQueued < 256) := by
          rw [hu]
          exact decide_eq_decide.mpr (show 0 < 256 - s.marksQueued ↔ s.marksQueued < 256 by omega)
        refine ⟨_, _, beforeRelease_one quiet hu cut, loaded, ?_, ?_⟩
        · have released : loadOffAt 1 u = release1 u := by
            unfold loadOffAt
            exact if_pos rfl
          rw [released]
          unfold release1
          rw [coilU, room, show u.tracker.nextId = s.tracker.nextId by rw [hu]]
          simp only [decide_eq_true_eq]
        · by_cases free : s.marksQueued < 256
          · rw [if_pos free, if_pos free, if_neg (fun full => by omega)]
            rfl
          · rw [if_neg free, if_pos ⟨rfl, by omega⟩]
            rfl
      · obtain ⟨j, rfl⟩ : ∃ j, k = j + 1 := ⟨k - 1, by omega⟩
        simp only [Nat.add_sub_cancel] at zone near left ⊢
        have loadedTh : th.state.loaded = true := by rw [tailing]; rfl
        obtain ⟨p, hp⟩ : ∃ p, p = stateAfterRelease (j + 1) (passFront j (noteCorrected j m u)) := ⟨_, rfl⟩
        have before := beforeRelease_tail (after := after) (coil := coil) quiet hu ⟨by omega, inside.2⟩ upTo zone kind somewhere
          left hp
        refine ⟨entryLoop (p.zone j).length j p, some m.id, ?_, loadedOf loadedTh, ?_, (if_neg (fun first => by omega)).symm⟩
        · rw [if_neg (show ¬j + 1 = 1 by omega), if_neg (show ¬j + 1 = 1 by omega)]
          exact before
        · have coilU : (u.thread (j + 1)).coil = (s.thread (j + 1)).coil := by rw [uThread, hth]
          unfold loadOffAt
          rw [if_neg (show ¬j + 1 = 1 by omega), if_neg (by rw [uThread, tailing]; nofun), Nat.add_sub_cancel,
            frontWithin_some (s := u) (j := j) (by rw [hu]; exact zone) kind (by rw [hu]; exact near)]
          dsimp only
          unfold releaseTail
          rw [coilU, Nat.add_sub_cancel, ← hp]
    obtain ⟨w, hw, frame, ⟨x, recorded⟩, tracker, own, others, est, ff, agc, hLock, base, gaps, slots⟩ :=
      release_next k (s.thread k).coil id v inside (by rw [before.frame]; exact upTo8)
    have estV : v.est = s.est := by rw [before.frame]
    have gapV : v.gap = s.gap := by rw [before.frame]
    have storeV : v.store = s.store := by rw [before.frame]
    have slotV : ∀ i, v.slotAt i = s.slotAt i := fun i => by unfold State.slotAt; rw [storeV]
    have nV : v.n = s.n := by rw [before.frame]; rfl
    have clockV : v.clock = s.clock + dt := by rw [before.frame]
    have exec_eq := worked loaded
    rw [work, hw, takeRaised_after (by rw [tracker]; exact before.raised)] at exec_eq
    rw [clockV, estV, before.own] at recorded
    rw [before.own] at own
    refine ⟨_, exec_eq, ?_, ⟨x, recorded⟩, ?_, ?_, ?_, ?_, fun first => ?_, fun other => ?_, own, fun i hi away => ?_, ?_, ff, agc,
      hLock, ?_, fun i hi away => ?_, fun i hi => ?_⟩
    · rw [frame, before.frame]
      rfl
    · exact (congrArg Tracker.zones tracker).trans before.zones
    · exact (congrArg Tracker.raised tracker).trans before.raised
    · exact (congrArg Tracker.carry tracker).trans before.carry
    · exact (congrArg Tracker.lastPassed tracker).trans (before.lastPassed.trans passed)
    · exact (congrArg Tracker.gen tracker).trans (before.gen.trans (if_pos first))
    · exact (congrArg Tracker.gen tracker).trans (before.gen.trans (if_neg other))
    · exact (others i hi away).trans (by rw [before.others i away, nV])
    · rw [estV] at est
      exact est
    · rw [gapV] at base
      exact base
    · rw [gapV] at gaps
      exact gaps i hi away
    · have slot_ := slots i hi
      rw [storeV, slotV, slotV, slotV] at slot_
      exact slot_
  · have state : th.state.loaded = true := by
      rcases trips with ⟨h, _⟩ | h | h <;> rw [h] <;> rfl
    have raised : loadOffAt k u = raiseCause .loadLoss k u := by
      unfold loadOffAt
      rw [if_neg (by omega), uThread]
      rcases trips with ⟨_, far⟩ | h | h
      · have away := frontWithin_none (s := u) (j := k - 1) (kind := .tail) (by rw [hu]; exact far)
        rw [away]
        exact ite_self _
      · exact if_pos (by rw [h]; nofun)
      · exact if_pos (by rw [h]; nofun)
    rw [worked (loadedOf state), raised, summaryAfter_same _ _ (by rw [hu]; rfl) (by rw [hu]; rfl),
      takeRaised_raiseCause _ _ _ (by rw [hu]; exact quiet)]

end Sys2Proof.Machine

/-! Proofs for the blocks' work on a delivered stand reply (R12, R21, R22, R75, R80, R124, R153): what each piece of the work does
to the trip record, the Tracker, the base and the AGC term, and what the whole of it leaves, in any order the manual allows. -/

namespace Sys2Proof.Machine

/-! ### The generator's countdown (R12) -/

section
variable {s : State} {k : Nat}

theorem passMark_gen {m : Mark} {q : List Mark} : (passMark k m q s).tracker.gen = s.tracker.gen := by
  unfold passMark
  split <;> rfl

theorem holdMark_gen {m : Mark} {q : List Mark} {extra : Nat} : (holdMark k m q extra s).tracker.gen = s.tracker.gen := by
  unfold holdMark
  dsimp only
  (repeat' split) <;> simp

theorem departMark_gen {m : Mark} {q : List Mark} : (departMark k m q s).tracker.gen = s.tracker.gen := by
  simp [departMark]

theorem arriveBehind_gen : (arriveBehind k s).tracker.gen = s.tracker.gen := by
  rcases arriveBehind_cases k s with same | ⟨q, x, -, held | overlaps⟩
  · rw [same]
  · rw [held]
    rfl
  · rw [overlaps]
    rfl

/-- A mark that arrives leaves the generator, through however many zones it goes. -/
theorem arrive_gen : ∀ (fuel k extra : Nat) (s : State), (arrive fuel k extra s).1.tracker.gen = s.tracker.gen := by
  intro fuel
  induction fuel with
  | zero => exact fun _ _ _ => rfl
  | succ fuel ih =>
    intro k extra s
    unfold arrive
    split
    · rfl
    · split
      · exact departMark_gen
      · split
        · dsimp only
          split
          · rw [ih, passMark_gen]
          · rw [arriveBehind_gen, passMark_gen]
        · exact holdMark_gen

theorem skipCut_gen {kind : MarkKind} : (skipCut kind s).tracker.gen = s.tracker.gen := by
  unfold skipCut
  split
  · rfl
  · rw [note_tracker]
    rfl

theorem cutBody_gen {extra : Nat} : (cutBody extra s).tracker.gen = s.tracker.gen := by
  unfold cutBody
  split
  · split
    · rfl
    · split
      · rw [arrive_gen]
        rfl
      · rfl
  · exact skipCut_gen

/-- The cuts load the generator once for each segment ended, whatever room the pool has (R12, R14). -/
theorem cutLoop_gen {base : Nat} (positive : 0 < base) : ∀ (n : Nat) (left : Int) {s : State}, left ≤ 0 →
    n = (-left).toNat / base + 1 → s.tracker.gen.base = base → s.tracker.gen.count = left →
    (cutLoop n s).tracker.gen = { s.tracker.gen with count := left + (n : Nat) * base } := by
  intro n
  induction n with
  | zero => exact fun _ _ _ hn => absurd hn.symm (Nat.succ_ne_zero _)
  | succ n ih =>
    intro left s passed hn hbase count
    obtain ⟨u, hu⟩ : ∃ u, u = withGen { (cutBody (-left).toNat s).tracker.gen with count := base + left } (cutBody (-left).toNat s) :=
      ⟨_, rfl⟩
    have gen : u.tracker.gen = { s.tracker.gen with count := base + left } := by
      rw [hu, ← cutBody_gen (extra := (-left).toNat) (s := s)]
      rfl
    have loop : cutLoop (n + 1) s = cutLoop n u := by
      rw [hu, ← hbase, ← count]
      exact if_pos (by rw [count]; exact passed)
    rw [loop]
    by_cases more : (base : Int) + left ≤ 0
    · have fewer : n = (-((base : Int) + left)).toNat / base + 1 := by
        have step : (-left).toNat = (-((base : Int) + left)).toNat + base := by omega
        rw [step, Nat.add_div_right _ positive] at hn
        omega
      rw [ih _ more fewer (by rw [gen]; exact hbase) (by rw [gen]), gen]
      refine congrArg (fun c => { s.tracker.gen with count := c }) ?_
      push_cast
      ring
    · have last : n = 0 := by
        have small : (-left).toNat < base := by omega
        rw [Nat.div_eq_of_lt small] at hn
        omega
      subst last
      show u.tracker.gen = _
      rw [gen]
      refine congrArg (fun c => { s.tracker.gen with count := c }) ?_
      push_cast
      ring

/-- The countdown by its three cases: a stopped generator, a segment that goes on, and segments that end (R12). -/
theorem countDown_cases (dL : Nat) (g : Generator) (left : Int) (gen : s.tracker.gen = g) (positive : 0 < g.base)
    (hLeft : left = g.count - dL) :
    (g.running = false → countDown dL s = s) ∧
    (g.running = true →
      (0 < left → countDown dL s = { s with tracker := { s.tracker with gen := { g with count := left } } }) ∧
      (left ≤ 0 → (countDown dL s).tracker.gen = { g with count := left + ((-left).toNat / g.base + 1 : Nat) * g.base })) := by
  subst gen
  refine ⟨fun stopped => if_neg (by rw [stopped]; nofun), fun running => ?_⟩
  have started : withGen { running := true, base := s.tracker.gen.base, count := left } s =
      withGen { s.tracker.gen with count := left } s := by
    rw [← running]
  rw [countDown_running rfl running hLeft rfl, started]
  refine ⟨fun ahead => ?_, fun passed => ?_⟩
  · exact if_neg (Int.not_le.mpr ahead)
  · exact cutLoop_gen (s := withGen { s.tracker.gen with count := left } s) positive _ left passed rfl rfl rfl

end

/-! ### What the work does to the trip record (R124, R130, R131) -/

section
variable {c c' : Cause} {j j' : Nat} {time : Clock} {s u : State}

/-- With the latch set a cause taken keeps every entry of the list, and a set overflow. -/
theorem recordCause_grows (set : s.trip.latch = true) :
    (s.trip.overflow = true → (recordCause c k time s).trip.overflow = true) ∧
    ∀ x ∈ s.trip.causes, x ∈ (recordCause c k time s).trip.causes := by
  rw [recordCause_trip, if_neg (by rw [set]; nofun)]
  split
  · exact ⟨id, fun _ => id⟩
  · split
    · exact ⟨id, fun _ listed => List.mem_append_left _ listed⟩
    · exact ⟨fun _ => rfl, fun _ => id⟩

theorem CauseTaken.of_trip (taken : CauseTaken c j s) (same : u.trip = s.trip) : CauseTaken c j u := by
  unfold CauseTaken
  rw [same]
  exact taken

theorem CauseTaken.takeCause (taken : CauseTaken c j s) : CauseTaken c j (takeCause c' j' time s) := by
  obtain ⟨set, listed⟩ := taken
  obtain ⟨latch, causes, overflow⟩ := takeCause_trip c' j' time s
  obtain ⟨full, kept⟩ := recordCause_grows (c := c') (k := j') (time := time) set
  unfold CauseTaken
  rw [causes, overflow]
  exact ⟨latch, listed.imp full fun ⟨x, mem, is⟩ => ⟨x, kept x mem, is⟩⟩

theorem causeTaken_takeCause : CauseTaken c j (takeCause c j time s) := by
  obtain ⟨latch, causes, overflow⟩ := takeCause_trip c j time s
  unfold CauseTaken
  rw [causes, overflow]
  exact ⟨latch, recordCause_has c j time s⟩

theorem CauseTaken.takeCauses {cs : List (Cause × Nat)} (taken : CauseTaken c j s) : CauseTaken c j (takeCauses cs time s) := by
  unfold Machine.takeCauses
  induction cs generalizing s with
  | nil => exact taken
  | cons x xs ih => exact ih taken.takeCause

theorem causeTaken_of_mem {cs : List (Cause × Nat)} (mem : (c, j) ∈ cs) : CauseTaken c j (takeCauses cs time s) := by
  obtain ⟨before, after, rfl⟩ := List.append_of_mem mem
  rw [takeCauses_append]
  exact CauseTaken.takeCauses (cs := after) causeTaken_takeCause

theorem takeCauses_latch {cs : List (Cause × Nat)} : (takeCauses cs time s).trip.latch = (s.trip.latch || !cs.isEmpty) := by
  cases cs with
  | nil => exact (Bool.or_false _).symm
  | cons x xs =>
    rw [List.isEmpty_cons, Bool.not_false, Bool.or_true]
    exact (CauseTaken.takeCauses (cs := xs) (causeTaken_takeCause (c := x.1) (j := x.2) (s := s))).1

theorem takeCauses_only {cs : List (Cause × Nat)} {k : Nat} : MoveOnly (s.gap.get k) ((takeCauses cs time s).gap.get k) := by
  unfold takeCauses
  induction cs generalizing s with
  | nil => exact .refl _
  | cons x xs ih => exact (takeCause_only x.1 x.2 k time s).trans ih

theorem takeRaised_tracker : (takeRaised s).tracker = { s.tracker with raised := [] } := by
  simp [takeRaised]

theorem takeRaised_only {k : Nat} : MoveOnly (s.gap.get k) ((takeRaised s).gap.get k) := takeCauses_only (s := s.withTracker _)

/-- The Tracker's work leaves the trip record: its causes are raised, and taken by another piece of the work. -/
theorem trip_track (trip : TripUnit) : TrackKeeps (fun u => u.trip = trip) where
  thread _ _ _ h := h
  gen _ _ h := h
  carry _ _ h := h
  raise _ _ _ h := h
  note _ _ _ _ _ _ _ _ h := by simpa using h
  skip _ _ h := by simpa using h
  cut _ _ _ h := h
  depart _ _ _ _ _ h := by simpa using h
  pass _ _ _ _ _ _ h := by simpa using h
  hold _ _ _ _ _ _ h := by simpa using h
  behind t k h := by
    rcases arriveBehind_cases k t with same | ⟨q, x, -, held | overlaps⟩
    · rw [same]; exact h
    · rw [held]; exact h
    · rw [overlaps]; exact h
  move _ _ _ _ _ _ _ _ h := h
  mode _ _ _ h := h
  table _ _ h := by simpa using h
  terms _ _ h := h
  lock _ _ h := h
  leave _ _ h := by simpa using h
  switch _ _ h := by simpa using h
  summary _ h := h

end

end Sys2Proof.Machine

namespace Sys2Proof.Machine

/-! ### What the work does to the base while no move is in flight (R80) -/

/-- Two reference records have the same base, as well known, and no move where the first has none. -/
def AtRest (r r' : Reference) : Prop := r'.base = r.base ∧ r'.baseKnown = r.baseKnown ∧ (r.move = .none → r'.move = .none)

theorem AtRest.refl (r : Reference) : AtRest r r := ⟨rfl, rfl, id⟩

theorem AtRest.trans {a b c : Reference} (h : AtRest a b) (g : AtRest b c) : AtRest a c :=
  ⟨g.1.trans h.1, g.2.1.trans h.2.1, fun none => g.2.2 (h.2.2 none)⟩

/-- From `s` to `t` the base and the rest of stand `k` stand. -/
def Resting (k : Nat) (s t : State) : Prop := AtRest (s.gap.get k) (t.gap.get k)

namespace Resting
variable {s t u : State} {j k : Nat}

theorem refl : Resting k s s := AtRest.refl _

theorem trans (h : Resting k s t) (g : Resting k t u) : Resting k s u := AtRest.trans h g

theorem keep (h : Resting k s t) (gap : u.gap = t.gap) : Resting k s u := by
  unfold Resting
  rw [gap]
  exact h

theorem ite {c : Prop} [Decidable c] {a b : State} (h : Resting k s a) (g : Resting k s b) : Resting k s (if c then a else b) := by
  split
  · exact h
  · exact g

theorem foldl {α : Type} {f : State → α → State} (hf : ∀ t a, Resting k s t → Resting k s (f t a)) (l : List α) :
    ∀ t, Resting k s t → Resting k s (l.foldl f t) := by
  induction l with
  | nil => exact fun _ h => h
  | cons a l ih => exact fun t h => ih _ (hf t a h)

theorem withRef {r : Reference} (h : Resting k s t) (rest : AtRest (t.gap.get j) r) : Resting k s (t.withRef j r) := by
  refine h.trans ?_
  show AtRest (t.gap.get k) ((t.gap.set j r).get k)
  by_cases inside : 1 ≤ j ∧ j ≤ 8
  · rw [PerStand.get_set _ _ _ _ inside]
    split
    · subst_vars
      exact rest
    · exact .refl _
  · rw [PerStand.set_outside _ _ _ inside]
    exact .refl _

theorem ended (h : Resting k s t) : Resting k s (t.withMove j .none) := h.withRef ⟨rfl, rfl, fun _ => rfl⟩

theorem endHold (h : Resting k s t) : Resting k s (endHold j t) := by
  unfold Machine.endHold
  split
  · exact h.ended
  · exact h

theorem endMove {d : AbortDetail} {stays : Bool} (h : Resting k s t) : Resting k s (endMove j d stays t) := by
  cases move : (t.gap.get j).move with
  | none =>
    rw [endMove_none _ _ _ _ move]
    exact h
  | preset target tol start run =>
    unfold Machine.endMove
    rw [move]
    exact (h.keep (retireLong_gap ..)).withRef ⟨rfl, rfl, fun none => by rw [retireLong_gap, move] at none; cases none⟩
  | hold target =>
    unfold Machine.endMove
    rw [move]
    exact h.ite h.ended
  | calClose start sb run z0 =>
    unfold Machine.endMove
    rw [move]
    exact (h.keep (retireLong_gap ..)).ended
  | calOpen start sb pending z0 =>
    unfold Machine.endMove
    rw [move]
    exact (h.keep (retireLong_gap ..)).ended

theorem leaveVacant (h : Resting k s t) : Resting k s (leaveVacant j t) := by
  have held : Resting k s (Machine.endHold j t) := h.endHold
  refine ite (held.trans ?_) held
  show AtRest _ (((Machine.endHold j t).gap.map fun r => { r with move := r.move.abandonClose .equipment }).get k)
  by_cases inside : 1 ≤ k ∧ k ≤ 8
  · rw [PerStand.get_map _ _ _ inside]
    exact ⟨rfl, rfl, fun none => by rw [none]; rfl⟩
  · rw [PerStand.get_outside _ _ inside, PerStand.get_outside _ _ inside]
    exact .refl _

theorem switchStand {x : Slot} {c : SwitchCause} {free : FreeCause} {time : Clock} (h : Resting k s t) :
    Resting k s (switchStand j x c free time t) := by
  have inForce : Resting k s { t with store := { t.store with inForce := t.store.inForce.set j (some x) } } := h.keep rfl
  have limited : Resting k s (switchTerms j { t with store := { t.store with inForce := t.store.inForce.set j (some x) } }) :=
    inForce.withRef ⟨rfl, rfl, id⟩
  refine (limited.endHold (j := j)).keep ?_
  unfold Machine.switchStand
  dsimp only
  split <;> simp

theorem releaseSwitch (h : Resting k s t) : Resting k s (releaseSwitch j t) := by
  unfold Machine.releaseSwitch
  split
  · exact h
  · exact h.switchStand.ite h

theorem pairMark {m : Mark} (h : Resting k s t) : Resting k s (pairMark m t) := by
  unfold Machine.pairMark
  extract_lets paired tally s1 s2 s3 s4 g s5 s6
  have h1 : Resting k s s1 := ite (h.keep rfl) h
  have h2 : Resting k s s2 := ite (ite h1 (h1.withRef ⟨rfl, rfl, id⟩)) h1
  have h3 : Resting k s s3 := ite (h2.keep (by simp)) h2
  have h4 : Resting k s s4 := ite (h3.keep (by simp)) h3
  have h5 : Resting k s s5 := h4.keep rfl
  have h6 : Resting k s s6 := h5.keep (by simp [s6])
  exact ite (h6.keep rfl) h5

theorem passMark {m : Mark} {q : List Mark} (h : Resting k s t) : Resting k s (passMark j m q t) :=
  ite (h.keep rfl) (withRef (h.keep rfl) ⟨rfl, rfl, id⟩)

/-- The Tracker's work ends HOLDs and turns calibrations, and moves the terms alone. -/
theorem track (k : Nat) (s : State) : TrackKeeps (Resting k s) where
  thread _ _ _ h := h.keep rfl
  gen _ _ h := h.keep rfl
  carry _ _ h := h.keep rfl
  raise _ _ _ h := h.keep rfl
  note _ _ _ _ _ _ _ _ h := h.keep (by simp)
  skip _ _ h := h.keep (by simp)
  cut _ _ _ h := h.keep rfl
  depart _ _ m _ _ h := (h.pairMark (m := m)).keep (by simp [departMark])
  pass _ _ _ _ _ _ h := h.passMark
  hold _ _ _ _ _ _ h := h.keep (by simp)
  behind t k h := by
    rcases arriveBehind_cases k t with same | ⟨q, x, -, held | overlaps⟩
    · rw [same]
      exact h
    · rw [held]
      exact h.keep rfl
    · rw [overlaps]
      exact h.keep rfl
  move _ _ _ _ _ _ _ _ h := h.keep rfl
  mode _ _ _ h := h.keep rfl
  table _ _ h := h.keep (by simp)
  terms _ _ h := h.withRef ⟨rfl, rfl, id⟩
  lock _ _ h := h.withRef ⟨rfl, rfl, id⟩
  leave _ _ h := h.leaveVacant
  switch _ _ h := h.releaseSwitch
  summary _ h := h.keep rfl

theorem takeCause {c : Cause} {time : Clock} (h : Resting k s t) : Resting k s (takeCause c j time t) := by
  have recorded : Resting k s (recordCause c j time t) := h.keep (by simp)
  unfold Machine.takeCause
  dsimp only
  refine keep (t := match applyingEntry t c with
    | some e => applyEntry e (standSet e.cascade j t.n) (recordCause c j time t)
    | none => recordCause c j time t) ?_ (rewriteTripArea_gap ..)
  split
  · exact foldl (fun _ _ h => h.endMove) _ _ (recorded.keep rfl)
  · exact recorded

theorem takeCauses {cs : List (Cause × Nat)} {time : Clock} (h : Resting k s t) : Resting k s (takeCauses cs time t) :=
  foldl (fun _ _ h => h.takeCause) _ _ h

end Resting

section
variable {k p f : Nat} {localMode lock : Bool} {s u : State}

/-! ### The Gap Unit's work (R75, R76, R80) -/

/-- Two states give an AGC update of stand `k` the same schedule, estimate and terms. -/
structure SameAgc (k : Nat) (s u : State) : Prop where
  store : u.store = s.store
  hEst : u.hEst k = s.hEst k
  agc : (u.gap.get k).agc = (s.gap.get k).agc
  hLock : (u.gap.get k).hLock = (s.gap.get k).hLock

theorem SameAgc.sched (same : SameAgc k s u) : u.sched k = s.sched k := by
  unfold State.sched State.slotAt State.scheduleOf
  rw [same.store]

theorem agcUpdate_agc (inside : 1 ≤ k ∧ k ≤ 8) : ((agcUpdate k s).gap.get k).agc =
    if (agcError s k).natAbs ≤ (s.sched k).db then (s.gap.get k).agc
    else limit ((s.gap.get k).agc + round256 (agcError s k * (s.sched k).kg)) (s.sched k).agcLim := by
  unfold agcUpdate
  dsimp only
  split
  · rfl
  · rw [withRef_gap, PerStand.get_set_same _ _ _ inside]

theorem SameAgc.updated (same : SameAgc k s u) (inside : 1 ≤ k ∧ k ≤ 8) :
    ((agcUpdate k u).gap.get k).agc = ((agcUpdate k s).gap.get k).agc := by
  rw [agcUpdate_agc inside, agcUpdate_agc inside]
  unfold agcError
  rw [same.sched, same.hEst, same.hLock, same.agc]

theorem SameAgc.of_moveOnly (store : u.store = s.store) (est : u.est = s.est) (only : MoveOnly (s.gap.get k) (u.gap.get k)) :
    SameAgc k s u := by
  obtain ⟨m, only⟩ := only
  refine ⟨store, ?_, ?_, ?_⟩
  · unfold State.hEst
    rw [est]
  · rw [only]
  · rw [only]

theorem SameAgc.trans {t : State} (h : SameAgc k s t) (g : SameAgc k t u) : SameAgc k s u :=
  ⟨g.store.trans h.store, g.hEst.trans h.hEst, g.agc.trans h.agc, g.hLock.trans h.hLock⟩

theorem firstBase_sameAgc (inside : 1 ≤ k ∧ k ≤ 8) : SameAgc k s (firstBase k s) := by
  refine ⟨by simp, by simp [State.hEst], ?_, ?_⟩ <;> unfold firstBase <;> dsimp only <;> split
  · rfl
  · rw [withRef_gap, PerStand.get_set_same _ _ _ inside]
  · rfl
  · rw [withRef_gap, PerStand.get_set_same _ _ _ inside]

theorem moveTest_agc (inside : 1 ≤ k ∧ k ≤ 8) {g : Int} : ((moveTest k p f g s).gap.get k).agc = (s.gap.get k).agc := by
  have written (t : State) (r : Reference) : (t.withRef k r).gap.get k = r := PerStand.get_set_same _ _ _ inside
  have moved (t : State) (m : Move) : (t.withMove k m).gap.get k = { t.gap.get k with move := m } := written t _
  cases move : (s.gap.get k).move with
  | none =>
    unfold moveTest
    rw [move]
  | hold target =>
    unfold moveTest
    rw [move]
  | preset target tol start run =>
    unfold moveTest
    rw [move]
    dsimp only
    generalize (if (g - target).natAbs ≤ tol then run + 1 else 0) = run'
    split
    · rw [moved, retireLong_gap]
    · rw [moved]
  | calClose start sb run z0 =>
    unfold moveTest
    rw [move]
    dsimp only
    generalize (if s.lineCopy.fCal ≤ f then run + 1 else 0) = run'
    split
    · rw [written]
      rfl
    · rw [moved]
  | calOpen start sb pending z0 =>
    unfold moveTest
    rw [move]
    dsimp only
    split
    · rw [moved, retireLong_gap]
    · rfl

/-- The AGC term after the Gap Unit's work: updated where R75 asks for it, on the terms as they stood (R75, R76). -/
theorem gapReply_agc (inside : 1 ≤ k ∧ k ≤ 8) : ((gapReply k p f localMode lock s).gap.get k).agc =
    if agcDue s k lock then ((agcUpdate k s).gap.get k).agc else (s.gap.get k).agc := by
  unfold gapReply
  extract_lets s1 s2 s3
  have first : SameAgc k s s1 := firstBase_sameAgc inside
  have same : SameAgc k s s2 := by
    unfold s2
    split
    · exact first.trans (.of_moveOnly (by simp) (by simp) (endMove_only _ _ _ _ _))
    · exact first
  have due : agcDue s2 k lock = agcDue s k lock := by
    have trip : s2.trip = s.trip := by
      unfold s2 s1
      split <;> simp
    have thread : s2.thread k = s.thread k := by
      unfold s2 s1 State.thread
      split <;> simp
    unfold agcDue
    rw [trip, thread, same.sched]
  rw [moveTest_agc inside]
  unfold s3
  rw [due]
  split
  · exact same.updated inside
  · exact same.agc

/-- With no move in flight the Gap Unit's work leaves none, and sets the base where it is not known (R80). -/
theorem gapReply_resting (inside : 1 ≤ k ∧ k ≤ 8) (quiet : (s.gap.get k).move = .none) :
    ((gapReply k p f localMode lock s).gap.get k).move = .none ∧
    ((gapReply k p f localMode lock s).gap.get k).baseKnown = true ∧
    ((gapReply k p f localMode lock s).gap.get k).base =
      if (s.gap.get k).baseKnown then (s.gap.get k).base else (s.est.get k).gapAct := by
  have set : ((firstBase k s).gap.get k).move = .none ∧ ((firstBase k s).gap.get k).baseKnown = true ∧
      ((firstBase k s).gap.get k).base = if (s.gap.get k).baseKnown then (s.gap.get k).base else (s.est.get k).gapAct := by
    unfold firstBase
    dsimp only
    split
    case isTrue known => exact ⟨quiet, known, rfl⟩
    case isFalse =>
      rw [withRef_gap, PerStand.get_set_same _ _ _ inside]
      exact ⟨quiet, rfl, rfl⟩
  have updated (t : State) : ((agcUpdate k t).gap.get k).move = (t.gap.get k).move ∧
      ((agcUpdate k t).gap.get k).baseKnown = (t.gap.get k).baseKnown ∧ ((agcUpdate k t).gap.get k).base = (t.gap.get k).base := by
    unfold agcUpdate
    dsimp only
    split
    · exact ⟨rfl, rfl, rfl⟩
    · rw [withRef_gap, PerStand.get_set_same _ _ _ inside]
      exact ⟨rfl, rfl, rfl⟩
  unfold gapReply
  dsimp only
  rw [endMove_none _ _ _ _ set.1, ite_self]
  have kept : ∀ t : State, (t.gap.get k).move = .none → moveTest k p f (t.est.get k).gapAct t = t := fun t none => by
    unfold moveTest
    rw [none]
  split
  · obtain ⟨move, known, base⟩ := updated (firstBase k s)
    rw [kept _ (move.trans set.1), move, known, base]
    exact set
  · rw [kept _ set.1]
    exact set

/-! ### The next exchange (R81, R147 to R149) -/

variable {now : Clock}

theorem prepare_agc (j : Nat) : ((prepare j s).gap.get k).agc = (s.gap.get k).agc := by
  by_cases own : k = j
  · subst own
    exact (prepare_terms k s).2.1
  · rw [prepare_baseKnown j k s own]

theorem beginExchange_agc {i : Nat} {late : Bool} : ((beginExchange i late s).gap.get k).agc = (s.gap.get k).agc := by
  unfold beginExchange
  split
  · rfl
  case h_2 e _ =>
    cases e with
    | stand j => exact prepare_agc j
    | gauge => rfl

theorem nextExchangeAt_agc : ((nextExchangeAt now s).gap.get k).agc = (s.gap.get k).agc := by
  show ((nextExchange (s.atTime now)).gap.get k).agc = _
  unfold nextExchange
  split
  · rfl
  · split
    · exact beginExchange_agc
    · split
      · exact beginExchange_agc
      · rfl

theorem beginExchange_other {i : Nat} {late : Bool} (other : s.link.pollList[i]? ≠ some (.stand k)) :
    (beginExchange i late s).gap.get k = s.gap.get k := by
  unfold beginExchange
  split
  · rfl
  case h_2 e entry =>
    cases e with
    | stand j => exact prepare_baseKnown j k s fun own => other (by rw [own]; exact entry)
    | gauge => rfl

/-- Where the next exchange is another station's, or none follows, it leaves the references of the stand just polled. -/
theorem nextExchangeAt_other {c : Cycle} (cycle : s.link.cycle = some c) (distinct : s.link.pollList.Nodup)
    (entry : s.link.pollList[c.index]? = some (.stand k))
    (next : c.index + 1 < s.link.pollList.length ∨ s.link.expiryWaiting = false) :
    (nextExchangeAt now s).gap.get k = s.gap.get k := by
  show (nextExchange (s.atTime now)).gap.get k = _
  unfold nextExchange
  rw [show (s.atTime now).link = s.link from rfl, cycle]
  dsimp only
  split
  case isTrue more =>
    refine beginExchange_other (s := s.atTime now) fun again => ?_
    obtain ⟨_, first⟩ := List.getElem?_eq_some_iff.mp entry
    obtain ⟨_, second⟩ := List.getElem?_eq_some_iff.mp (show s.link.pollList[c.index + 1]? = _ from again)
    have := (List.Nodup.getElem_inj_iff distinct).mp (first.trans second.symm)
    omega
  case isFalse last =>
    rw [if_neg (by rw [next.resolve_left last]; nofun)]
    rfl

end

end Sys2Proof.Machine

namespace Sys2Proof.Machine

/-! ### The whole work on a reply, in any order (R75, R90, R124, R148, R153) -/

/-- The pieces of the work on a delivered stand reply, one after the other in the order of `plan`. -/
def allWork (k p f v : Nat) (flags : ReplyFlags) (lock : Bool) (elapsed : Option Nat) (now : Clock) (plan : List Work)
    (s : State) : State :=
  plan.foldl (fun s w => doWork k p f v flags lock elapsed now w s) s

section
variable {k p f v : Nat} {flags : ReplyFlags} {lock : Bool} {elapsed : Option Nat} {now : Clock} {plan : List Work} {s u : State}

theorem allWork_append {a b : List Work} : allWork k p f v flags lock elapsed now (a ++ b) s =
    allWork k p f v flags lock elapsed now b (allWork k p f v flags lock elapsed now a s) := List.foldl_append

theorem allWork_cons {w : Work} {b : List Work} : allWork k p f v flags lock elapsed now (w :: b) s =
    allWork k p f v flags lock elapsed now b (doWork k p f v flags lock elapsed now w s) := rfl

/-- What every piece of the plan keeps, the whole work keeps. -/
theorem allWork_keeps {P : State → Prop}
    (piece : ∀ w ∈ plan, ∀ u, P u → P (doWork k p f v flags lock elapsed now w u)) (start : P s) :
    P (allWork k p f v flags lock elapsed now plan s) := by
  induction plan generalizing s with
  | nil => exact start
  | cons w ws ih => exact ih (fun x mem => piece x (List.mem_cons_of_mem _ mem)) (piece w List.mem_cons_self s start)

/-- What one piece brings about and all the others keep, the whole work brings about. -/
theorem allWork_brings {P : State → Prop} {w : Work} (mem : w ∈ plan)
    (keeps : ∀ x ∈ plan, ∀ u, P u → P (doWork k p f v flags lock elapsed now x u))
    {Q : State → Prop} (holds : ∀ x ∈ plan, ∀ u, Q u → Q (doWork k p f v flags lock elapsed now x u))
    (brings : ∀ u, Q u → P (doWork k p f v flags lock elapsed now w u)) (start : Q s) :
    P (allWork k p f v flags lock elapsed now plan s) := by
  obtain ⟨a, b, rfl⟩ := List.append_of_mem mem
  rw [allWork_append, allWork_cons]
  exact allWork_keeps (fun x inside => keeps x (by simp [inside])) (brings _ (allWork_keeps (fun x inside => holds x (by simp [inside])) start))

/-! ### The causes of the reply check (R124) -/

theorem CauseTaken.doWork {c : Cause} {j : Nat} {w : Work} (taken : CauseTaken c j u) :
    CauseTaken c j (doWork k p f v flags lock elapsed now w u) := by
  cases w with
  | tracker => exact taken.of_trip ((trip_track u.trip).trackerWork rfl)
  | gap => exact taken.of_trip (by simp [Machine.doWork])
  | causes => exact CauseTaken.takeCauses (s := u.withTracker { u.tracker with raised := [] }) taken
  | check => exact CauseTaken.takeCauses taken
  | nextPoll => exact taken.of_trip (by simp [Machine.doWork])

theorem doWork_line {w : Work} : (doWork k p f v flags lock elapsed now w s).line = s.line := by
  by_cases next : w = .nextPoll
  · rw [next]
    simp [doWork]
  · exact ((Beside.refl s).doWork next).line

/-- The reply check's causes are taken, wherever in the work it comes. -/
theorem allWork_causes {c : Cause} {j : Nat} (mem : Work.check ∈ plan)
    (raised : ∀ u : State, u.line = s.line → (c, j) ∈ replyCauses u k p f flags) :
    CauseTaken c j (allWork k p f v flags lock elapsed now plan s) :=
  allWork_brings mem (fun _ _ _ taken => taken.doWork) (Q := fun u => u.line = s.line)
    (fun _ _ _ line => doWork_line.trans line) (fun u line => causeTaken_of_mem (raised u line)) rfl

/-! ### The work under the latch (R22, R75) -/

/-- With the latch set and no cause raised, a piece of the work leaves the Tracker, AGC and the latch. -/
theorem doWork_latched (inside : 1 ≤ k ∧ k ≤ 8) {w : Work} (latched : s.trip.latch = true) (quiet : s.tracker.raised = []) :
    (doWork k p f v flags lock elapsed now w s).trip.latch = true ∧
    (doWork k p f v flags lock elapsed now w s).tracker = s.tracker ∧
    ((doWork k p f v flags lock elapsed now w s).gap.get k).agc = (s.gap.get k).agc := by
  cases w with
  | tracker =>
    have frozen : doWork k p f v flags lock elapsed now .tracker s = s := by
      refine if_neg fun active => ?_
      unfold trackerActive at active
      rw [latched] at active
      simp at active
    rw [frozen]
    exact ⟨latched, rfl, rfl⟩
  | gap =>
    refine ⟨by simpa [doWork] using latched, by simp [doWork], (gapReply_agc inside).trans (if_neg ?_)⟩
    unfold agcDue
    rw [latched]
    nofun
  | causes =>
    show (takeRaised s).trip.latch = true ∧ (takeRaised s).tracker = _ ∧ ((takeRaised s).gap.get k).agc = _
    rw [takeRaised_none _ quiet]
    exact ⟨latched, rfl, rfl⟩
  | check =>
    obtain ⟨m, only⟩ := takeCauses_only (s := s) (cs := replyCauses s k p f flags) (time := s.clock) (k := k)
    refine ⟨?_, ?_, ?_⟩
    · show (takeCauses _ _ s).trip.latch = true
      rw [takeCauses_latch, latched]
      rfl
    · simp [doWork]
    · show ((takeCauses _ _ s).gap.get k).agc = _
      rw [only]
  | nextPoll => exact ⟨by simpa [doWork] using latched, by simp [doWork], nextExchangeAt_agc⟩

theorem allWork_latched (inside : 1 ≤ k ∧ k ≤ 8) (latched : s.trip.latch = true) (quiet : s.tracker.raised = []) :
    (allWork k p f v flags lock elapsed now plan s).tracker = s.tracker ∧
    ((allWork k p f v flags lock elapsed now plan s).gap.get k).agc = (s.gap.get k).agc := by
  have walk := allWork_keeps (plan := plan) (s := s) (k := k) (p := p) (f := f) (v := v) (flags := flags) (lock := lock)
    (elapsed := elapsed) (now := now)
    (P := fun u => u.trip.latch = true ∧ u.tracker = s.tracker ∧ (u.gap.get k).agc = (s.gap.get k).agc)
    (fun w _ u ⟨latch, tracker, agc⟩ => by
      obtain ⟨latch', tracker', agc'⟩ := doWork_latched (p := p) (f := f) (v := v) (flags := flags) (lock := lock)
        (elapsed := elapsed) (now := now) (w := w) inside latch (by rw [tracker]; exact quiet)
      exact ⟨latch', tracker'.trans tracker, agc'.trans agc⟩) ⟨latched, rfl, rfl⟩
  exact walk.2

/-! ### The base (R80) -/

/-- A reference record `r'` whose base is that of `r` where `r` knows it, and otherwise unknown or `gap`; no move is in flight. -/
structure BaseFrom (r : Reference) (gap : Int) (r' : Reference) : Prop where
  move : r'.move = .none
  base : r'.baseKnown = true → r'.base = if r.baseKnown then r.base else gap
  known : r.baseKnown = true → r'.baseKnown = true

theorem BaseFrom.rest {r a b : Reference} {gap : Int} (h : BaseFrom r gap a) (rest : AtRest a b) : BaseFrom r gap b := by
  obtain ⟨base, known, quiet⟩ := rest
  exact ⟨quiet h.move, fun is => base.trans (h.base (known ▸ is)), fun is => known.trans (h.known is)⟩

variable {r : Reference} {gap : Int}

/-- A piece of the work but the next exchange keeps the base where it comes from, and known where it is known; the Gap Unit's
makes it known. -/
theorem doWork_base (inside : 1 ≤ k ∧ k ≤ 8) {w : Work} (other : w ≠ .nextPoll) (from_ : BaseFrom r gap (s.gap.get k))
    (act : (s.est.get k).gapAct = gap) :
    BaseFrom r gap ((doWork k p f v flags lock elapsed now w s).gap.get k) ∧
    (w = .gap ∨ (s.gap.get k).baseKnown = true → ((doWork k p f v flags lock elapsed now w s).gap.get k).baseKnown = true) ∧
    ((doWork k p f v flags lock elapsed now w s).est.get k).gapAct = gap := by
  have figures := ((Beside.refl s).doWork (k := k) (p := p) (f := f) (v := v) (fl := flags) (lb := lock) (dt := elapsed)
    (now := now) other).figs k
  have kept : ((doWork k p f v flags lock elapsed now w s).est.get k).gapAct = gap :=
    (congrArg (fun x => x.2.2.1) figures).trans act
  have resting (rest : Resting k s (doWork k p f v flags lock elapsed now w s)) (notGap : w ≠ .gap) :
      BaseFrom r gap ((doWork k p f v flags lock elapsed now w s).gap.get k) ∧
      (w = .gap ∨ (s.gap.get k).baseKnown = true →
        ((doWork k p f v flags lock elapsed now w s).gap.get k).baseKnown = true) ∧
      ((doWork k p f v flags lock elapsed now w s).est.get k).gapAct = gap :=
    ⟨from_.rest rest, fun known => rest.2.1.trans (known.resolve_left notGap), kept⟩
  cases w with
  | tracker => exact resting ((Resting.track k s).trackerWork .refl) nofun
  | gap =>
    obtain ⟨move, known, base⟩ := gapReply_resting (p := p) (f := f) (localMode := flags.localMode) (lock := lock) inside from_.move
    refine ⟨⟨move, fun _ => base.trans ?_, fun _ => known⟩, fun _ => known, kept⟩
    split
    case isTrue was => exact from_.base was
    case isFalse unknown =>
      rw [if_neg fun was => unknown (from_.known was)]
      exact act
  | causes => exact resting (Resting.takeCauses (.keep .refl rfl)) nofun
  | check => exact resting (Resting.takeCauses .refl) nofun
  | nextPoll => exact absurd rfl other

/-- The pieces of the work but the next exchange, one after the other. -/
theorem allWork_base_within (inside : 1 ≤ k ∧ k ≤ 8) : ∀ {plan : List Work} {s : State}, Work.nextPoll ∉ plan →
    BaseFrom r gap (s.gap.get k) → (s.est.get k).gapAct = gap →
    BaseFrom r gap ((allWork k p f v flags lock elapsed now plan s).gap.get k) ∧
    (Work.gap ∈ plan ∨ (s.gap.get k).baseKnown = true →
      ((allWork k p f v flags lock elapsed now plan s).gap.get k).baseKnown = true) ∧
    ((allWork k p f v flags lock elapsed now plan s).est.get k).gapAct = gap := by
  intro plan
  induction plan with
  | nil => exact fun _ from_ act => ⟨from_, fun known => known.resolve_left List.not_mem_nil, act⟩
  | cons w ws ih =>
    intro s other from_ act
    obtain ⟨first, ready, kept⟩ := doWork_base (p := p) (f := f) (v := v) (flags := flags) (lock := lock) (elapsed := elapsed)
      (now := now) (w := w) inside (fun is => other (is ▸ List.mem_cons_self)) from_ act
    obtain ⟨whole, known, est⟩ := ih (fun mem => other (List.mem_cons_of_mem _ mem)) first kept
    refine ⟨whole, fun either => known ?_, est⟩
    rcases either with mem | was
    · exact (List.mem_cons.mp mem).symm.imp id fun own => ready (.inl own.symm)
    · exact .inr (ready (.inr was))

/-- The whole work makes the base known, where the exchange that follows is another station's (R80). -/
theorem allWork_base (inside : 1 ≤ k ∧ k ≤ 8) (allowed : planOk plan = true) {c : Cycle} (cycle : s.link.cycle = some c)
    (distinct : s.link.pollList.Nodup) (entry : s.link.pollList[c.index]? = some (.stand k))
    (next : c.index + 1 < s.link.pollList.length ∨ s.link.expiryWaiting = false) (quiet : (s.gap.get k).move = .none) :
    ((allWork k p f v flags lock elapsed now plan s).gap.get k).baseKnown = true ∧
    ((allWork k p f v flags lock elapsed now plan s).gap.get k).base =
      if (s.gap.get k).baseKnown then (s.gap.get k).base else (s.est.get k).gapAct := by
  obtain ⟨a, b, rfl, before, after⟩ := plan_split plan allowed
  have gapIn : Work.gap ∈ a ++ .nextPoll :: b := (Laws.WellFormedLaw.planOk_spec allowed).1.mem_iff.mpr (by simp)
  rw [allWork_append, allWork_cons]
  have beside := works_beside k p f v flags lock elapsed now a before s
  obtain ⟨first, known, kept⟩ := allWork_base_within (p := p) (f := f) (v := v) (flags := flags) (lock := lock)
    (elapsed := elapsed) (now := now) (r := s.gap.get k) (gap := (s.est.get k).gapAct) inside before
    ⟨quiet, fun is => (if_pos is).symm, id⟩ rfl
  obtain ⟨u, hu⟩ : ∃ u, u = allWork k p f v flags lock elapsed now a s := ⟨_, rfl⟩
  have link : u.link = s.link := by rw [hu]; exact beside.link
  rw [← hu] at first known kept ⊢
  have other : (doWork k p f v flags lock elapsed now .nextPoll u).gap.get k = u.gap.get k :=
    nextExchangeAt_other (by rw [link]; exact cycle) (by rw [link]; exact distinct) (by rw [link]; exact entry)
      (by rw [link]; exact next)
  have est : (doWork k p f v flags lock elapsed now .nextPoll u).est = u.est := by simp [doWork]
  obtain ⟨whole, ready, -⟩ := allWork_base_within (p := p) (f := f) (v := v) (flags := flags) (lock := lock)
    (elapsed := elapsed) (now := now) (s := doWork k p f v flags lock elapsed now .nextPoll u) inside after
    (by rw [other]; exact first) (by rw [est]; exact kept)
  have known' := ready (by
    rcases List.mem_append.mp gapIn with early | late
    · exact .inr (by rw [other]; exact known (.inl early))
    · exact .inl ((List.mem_cons.mp late).resolve_left nofun))
  exact ⟨known', whole.base known'⟩

/-! ### The Tracker and AGC where the Tracker's work comes first (R21, R42, R75) -/

/-- The pieces that are neither the Tracker's work nor the Gap Unit's leave AGC, and the Tracker but for the causes raised. -/
theorem doWork_beyond {w : Work} (notTracker : w ≠ .tracker) (notGap : w ≠ .gap) :
    ((doWork k p f v flags lock elapsed now w s).gap.get k).agc = (s.gap.get k).agc ∧
    { (doWork k p f v flags lock elapsed now w s).tracker with raised := [] } = { s.tracker with raised := [] } ∧
    (w = .causes ∨ s.tracker.raised = [] → (doWork k p f v flags lock elapsed now w s).tracker.raised = []) := by
  cases w with
  | tracker => exact absurd rfl notTracker
  | gap => exact absurd rfl notGap
  | causes =>
    obtain ⟨m, only⟩ := takeRaised_only (s := s) (k := k)
    show ((takeRaised s).gap.get k).agc = _ ∧ { (takeRaised s).tracker with raised := [] } = _ ∧
      (_ → (takeRaised s).tracker.raised = [])
    rw [takeRaised_tracker, only]
    exact ⟨rfl, rfl, fun _ => rfl⟩
  | check =>
    obtain ⟨m, only⟩ := takeCauses_only (s := s) (cs := replyCauses s k p f flags) (time := s.clock) (k := k)
    have tracker : (doWork k p f v flags lock elapsed now .check s).tracker = s.tracker := by simp [doWork]
    refine ⟨?_, by rw [tracker], fun either => by rw [tracker]; exact either.resolve_left nofun⟩
    show ((takeCauses _ _ s).gap.get k).agc = _
    rw [only]
  | nextPoll =>
    have tracker : (doWork k p f v flags lock elapsed now .nextPoll s).tracker = s.tracker := by simp [doWork]
    exact ⟨nextExchangeAt_agc, by rw [tracker], fun either => by rw [tracker]; exact either.resolve_left nofun⟩

/-- The rest of the work, with neither the Tracker's nor the Gap Unit's. -/
theorem allWork_beyond : ∀ {plan : List Work} {s : State}, Work.tracker ∉ plan → Work.gap ∉ plan →
    ((allWork k p f v flags lock elapsed now plan s).gap.get k).agc = (s.gap.get k).agc ∧
    { (allWork k p f v flags lock elapsed now plan s).tracker with raised := [] } = { s.tracker with raised := [] } ∧
    (Work.causes ∈ plan ∨ s.tracker.raised = [] → (allWork k p f v flags lock elapsed now plan s).tracker.raised = []) := by
  intro plan
  induction plan with
  | nil => exact fun _ _ => ⟨rfl, rfl, fun either => either.resolve_left List.not_mem_nil⟩
  | cons w ws ih =>
    intro s noTracker noGap
    obtain ⟨agc, tracker, raised⟩ := doWork_beyond (k := k) (p := p) (f := f) (v := v) (flags := flags) (lock := lock)
      (elapsed := elapsed) (now := now) (s := s) (w := w) (fun is => noTracker (is ▸ List.mem_cons_self))
      (fun is => noGap (is ▸ List.mem_cons_self))
    obtain ⟨agc', tracker', raised'⟩ := ih (s := doWork k p f v flags lock elapsed now w s)
      (fun mem => noTracker (List.mem_cons_of_mem _ mem)) (fun mem => noGap (List.mem_cons_of_mem _ mem))
    refine ⟨agc'.trans agc, tracker'.trans tracker, fun either => raised' ?_⟩
    rcases either with mem | clear
    · exact (List.mem_cons.mp mem).symm.imp id fun own => raised (.inl own.symm)
    · exact .inr (raised (.inr clear))

end

end Sys2Proof.Machine

namespace Sys2Proof.Machine

/-! ### A stand reply delivered at RUN (R151 to R154) -/

/-- The state in which a stand's reply is delivered: its contents recorded, and the station PRESENT (R151, R152). -/
def heard (k : Nat) (r : Reply) (s : State) : State :=
  if (s.station (.stand k)).state = .present then answeredAt (.stand k) r s
  else becomePresent (.stand k) (answeredAt (.stand k) r s)

/-- The station's record once its reply is delivered (R151, R154). -/
def deliveredAs (k v : Nat) (s : State) : Station :=
  { (s.link.stations.get k).delivered s.clock with vDelivered := min v 30000 }

/-- A stand reply's delivery, from the state in which the reply has been heard: the estimate, the work, the image (R153). -/
theorem deliverStand_eq {k p f v : Nat} {flags : ReplyFlags} {plan : List Work} {late : Bool} {now : Clock} {s : State} :
    deliverStand k p f v flags plan late now s = writeImage k late
      (allWork k p f (min v 30000) flags (s.thread k).lockMade ((s.link.stations.get k).elapsed s.clock) now plan
        (estimateReply k p f (s.withStation (.stand k) (deliveredAs k v s)))) := rfl

theorem Station.elapsed_eq {st : Station} {now : Clock} :
    st.elapsed now = st.prevTime.map fun t => if st.saturated then 100000 else (now - t).toNat := by
  unfold Station.elapsed
  cases st.prevTime <;> rfl

section
variable {k p f v : Nat} {flags : ReplyFlags} {plan : List Work} {late : Bool} {now dt began ended : Clock} {r : Reply}
  {s u : State} {c : Cycle} {fr : List Byte} {age idle : Nat}

/-- Hearing a reply changes the link's records of the station, readiness, and what a record that falls due changes. -/
theorem heard_keeps : (heard k r s).clock = s.clock ∧ (heard k r s).line = s.line ∧ (heard k r s).level = s.level ∧
    (heard k r s).tracker = s.tracker ∧ (heard k r s).est = s.est ∧ (heard k r s).gap = s.gap ∧
    (heard k r s).trip.latch = s.trip.latch := by
  have latch {e : PollEntry} {t : State} : (becomePresent e t).trip.latch = t.trip.latch := by
    unfold becomePresent becomeReady
    cases e <;> dsimp only <;> (repeat' split) <;> simp
  unfold heard
  split
  · exact ⟨rfl, rfl, rfl, rfl, rfl, rfl, rfl⟩
  · refine ⟨?_, ?_, ?_, ?_, ?_, ?_, latch⟩ <;> simp [answeredAt]

theorem heard_present (present : (s.station (.stand k)).state = .present) :
    heard k (.stand p f v flags) s = answeredAt (.stand k) (.stand p f v flags) s := if_pos present

theorem heard_cycle : SameCycle s (heard k r s) := by
  unfold heard
  split
  · exact SameCycle.withStation _ _
  · obtain ⟨x, hx⟩ : ∃ x, x = answeredAt (.stand k) r s := ⟨_, rfl⟩
    rw [← hx]
    have own : SameCycle s x := hx ▸ SameCycle.withStation _ _
    refine own.trans ((SameCycle.withStation (.stand k) { x.station (.stand k) with state := .present }).trans
      (SameCycle.of (becomePresent_link (s := x) _) ?_ ?_)) <;> simp

theorem validReply_delivers (enough : (s.station (.stand k)).state ≠ .silent ∨
      s.lineCopy.rejoinCount ≤ min ((s.station (.stand k)).goodRun + 1) 7) :
    validReply (.stand k) (.stand p f v flags) plan late now s =
      deliverStand k p f v flags plan late now (heard k (.stand p f v flags) s) := by
  have present : stateAnswered s.lineCopy.rejoinCount
      ((s.station (.stand k)).answered.withReply (.stand p f v flags)) = .present := by
    have state : ((s.station (.stand k)).answered.withReply (.stand p f v flags)).state = (s.station (.stand k)).state := rfl
    unfold stateAnswered
    rw [state]
    cases was : (s.station (.stand k)).state with
    | unknown => rfl
    | present => rfl
    | silent => exact if_pos (enough.resolve_left fun other => other was)
  unfold validReply
  exact if_pos present

/-- REPLY_RECEIVED with a reply that is delivered, the line idle in time (R148, R150). -/
theorem exec_replyReceived (held : ExchangeOpen s c (.stand k)) (phase : c.phase = .receiving began)
    (allowed : planOk plan = true) (hage : age = (s.clock + dt - began).toNat)
    (ends : idle = 2 ∧ 2 ≤ age ∧ age ≤ 18 ∨ idle < 2 ∧ 16 ≤ age ∧ age ≤ 16 + idle)
    (hended : ended = s.clock + dt - BitVec.ofNat 32 idle)
    (judged : judge (.stand k) (s.station (.stand k)).addr fr false = some (.stand p f v flags))
    (enough : (s.station (.stand k)).state ≠ .silent ∨
      s.lineCopy.rejoinCount ≤ min ((s.station (.stand k)).goodRun + 1) 7) :
    exec (.replyReceived dt fr (.idle idle) plan) s = .next ((deliverStand k p f v flags plan c.late (s.clock + dt)
      (heard k (.stand p f v flags) (s.atTime ended))).atTime (s.clock + dt)).settled := by
  have due : exchangeEnds age (.idle idle) = true :=
    (exchangeEnds_iff (show (FrameEnd.idle idle).ok = true from decide_eq_true (by omega))).mpr (by simp only [FrameEnd.idle.injEq]; omega)
  have inTime : tooLong age (.idle idle) = false := by
    rw [tooLong_eq]
    refine decide_eq_false fun late => ?_
    have short : 16 < age - idle := late.resolve_left nofun
    omega
  have ended_eq : frameTime (s.tick dt).clock (.idle idle) = ended := hended.symm
  show execReplyReceived dt fr (.idle idle) plan s = _
  unfold execReplyReceived
  simp only [receivingAge_open (dt := dt) held phase]
  rw [← hage, if_pos due, inTime, ended_eq,
    frameEnded_reply (b := (s.tick dt).atTime ended) allowed (show judge (.stand k) ((s.tick dt).atTime ended |>.station (.stand k)).addr fr false = _ from judged),
    validReply_delivers (s := (s.tick dt).atTime ended) enough]
  rfl

/-! ### The Tracker's work as R21 has it -/

theorem trackerWork_eq {dL : Option Nat} {a : State × Nat} {bites : Bool} (run : s.level = .run) (clear : s.trip.latch = false)
    (ha : a = advanceZone k v dL s) (hbites : bites = confirmsBite1 f a.1) :
    trackerWork k f v dL s =
      summaryAfter s (threadingWork k f (if k = 1 ∧ bites = false then countDown a.2 a.1 else a.1)) := by
  have active : trackerActive s = true := trackerActive_tick s 0 run clear
  have generator : (if k = 1 then generatorWork f a.2 a.1 else a.1) =
      if k = 1 ∧ bites = false then countDown a.2 a.1 else a.1 := by
    unfold generatorWork
    rw [← hbites]
    by_cases first : k = 1 <;> cases bites <;> simp [first]
  unfold trackerWork
  rw [if_pos active]
  dsimp only
  rw [← ha, generator]

theorem takeRaised_latch : (takeRaised s).trip.latch = (s.trip.latch || !s.tracker.raised.isEmpty) :=
  takeCauses_latch (s := s.withTracker { s.tracker with raised := [] })

/-- The first pieces of a work that begins with the Tracker's: its work, and it may be the taking of its causes, with the
summary rewritten between the two. -/
structure FirstDone (k : Nat) (first : List Work) (x w y : State) : Prop where
  same : SameAgc k w y
  agc : (y.gap.get k).agc = (x.gap.get k).agc
  store : y.store = x.store
  latch : y.trip.latch = w.trip.latch
  tracker : { y.tracker with raised := [] } = { x.tracker with raised := [] }
  taken : first ≠ [.tracker] → y.tracker.raised = []

theorem firstDone {first : List Work} {lock : Bool} {elapsed : Option Nat} {x w y : State} (firsts : first ∈ [[.tracker], [.tracker, .causes]])
    (tracked : trackerWork k f v elapsed s = summaryAfter s x) (hw : w = if first = [.tracker] then x else takeRaised x)
    (hy : y = allWork k p f v flags lock elapsed now first s) : FirstDone k first x w y := by
  have summary : summaryAfter s x = { x with summary := (summaryAfter s x).summary } := summaryAfter_eq
  obtain ⟨z, hz⟩ : ∃ z, z = summaryAfter s x := ⟨_, rfl⟩
  rw [← hz] at summary tracked
  clear hz
  rcases List.mem_cons.mp firsts with alone | both
  · subst alone
    rw [if_pos rfl] at hw
    have done : y = z := hy.trans tracked
    rw [done, summary, hw]
    exact ⟨⟨rfl, rfl, rfl, rfl⟩, rfl, rfl, rfl, rfl, fun other => absurd rfl other⟩
  · obtain rfl := List.mem_singleton.mp both
    rw [if_neg (by decide)] at hw
    have done : y = takeRaised z := by
      rw [hy, ← tracked]
      rfl
    have own : SameAgc k z (takeRaised z) := .of_moveOnly (by simp) (by simp) takeRaised_only
    have without : SameAgc k x (takeRaised x) := .of_moveOnly (by simp) (by simp) takeRaised_only
    have summed : SameAgc k x z := by
      rw [summary]
      exact ⟨rfl, rfl, rfl, rfl⟩
    have whole := summed.trans own
    have tracker : z.tracker = x.tracker := by rw [summary]
    have trip : z.trip = x.trip := by rw [summary]
    rw [done, hw]
    refine ⟨⟨whole.store.trans without.store.symm, whole.hEst.trans without.hEst.symm, whole.agc.trans without.agc.symm,
      whole.hLock.trans without.hLock.symm⟩, whole.agc, whole.store, ?_, ?_, fun _ => ?_⟩
    · rw [takeRaised_latch, takeRaised_latch, tracker, trip]
    · rw [takeRaised_tracker, tracker]
    · rw [takeRaised_tracker]

/-- After the Tracker's work and the Gap Unit's, in this order, the Tracker stands as its work left it, its causes taken, and AGC
is updated on the terms of that moment where R75 asks for it. -/
theorem allWork_tracked {first rest : List Work} {lock : Bool} {elapsed : Option Nat} {x w : State} (inside : 1 ≤ k ∧ k ≤ 8)
    (allowed : planOk plan = true) (firsts : first ∈ [[.tracker], [.tracker, .causes]]) (order : plan = first ++ .gap :: rest)
    (tracked : trackerWork k f v elapsed s = summaryAfter s x) (hw : w = if first = [.tracker] then x else takeRaised x) :
    (allWork k p f v flags lock elapsed now plan s).tracker = { x.tracker with raised := [] } ∧
    ((allWork k p f v flags lock elapsed now plan s).gap.get k).agc =
      if w.trip.latch = false ∧ lock = true ∧ ((x.thread k).state = .rolling ∨ (x.thread k).state = .tailing) ∧ 0 < (x.sched k).kg
      then ((agcUpdate k w).gap.get k).agc else (x.gap.get k).agc := by
  obtain ⟨y, hy⟩ : ∃ y, y = allWork k p f v flags lock elapsed now first s := ⟨_, rfl⟩
  obtain ⟨same, agcY, store, latch, trackerY, taken⟩ := firstDone firsts tracked hw hy
  have once := (Laws.WellFormedLaw.planOk_spec allowed).1
  have distinct : (first ++ .gap :: rest).Nodup := order ▸ once.nodup_iff.mpr (by decide)
  have causesIn : Work.causes ∈ first ++ .gap :: rest := order ▸ once.mem_iff.mpr (by simp)
  have trackerFirst : Work.tracker ∈ first := by
    rcases List.mem_cons.mp firsts with alone | both
    · rw [alone]
      simp
    · rw [List.mem_singleton.mp both]
      simp
  obtain ⟨-, distinctLast, apart⟩ := List.nodup_append.mp distinct
  have noTracker : Work.tracker ∉ rest := fun mem => apart _ trackerFirst _ (List.mem_cons_of_mem _ mem) rfl
  have noGap : Work.gap ∉ rest := (List.nodup_cons.mp distinctLast).1
  obtain ⟨g, hg⟩ : ∃ g, g = gapReply k p f flags.localMode lock y := ⟨_, rfl⟩
  have whole : allWork k p f v flags lock elapsed now plan s = allWork k p f v flags lock elapsed now rest g := by
    rw [order, allWork_append, allWork_cons, ← hy, hg]
    rfl
  obtain ⟨agc, tracker, raised⟩ := allWork_beyond (k := k) (p := p) (f := f) (v := v) (flags := flags) (lock := lock)
    (elapsed := elapsed) (now := now) (s := g) noTracker noGap
  have trackerG : g.tracker = y.tracker := by
    rw [hg]
    simp
  rw [whole]
  constructor
  · have clear : (allWork k p f v flags lock elapsed now rest g).tracker.raised = [] := raised (by
      by_cases alone : first = [.tracker]
      · subst alone
        exact .inl (by simpa using causesIn)
      · rw [trackerG]
        exact .inr (taken alone))
    rw [trackerG] at tracker
    rw [← trackerY, ← tracker, ← clear]
  · have thread : y.thread k = x.thread k := congrArg (fun t => t.threading.get k) trackerY
    have sched : y.sched k = x.sched k := by
      unfold State.sched State.slotAt State.scheduleOf
      rw [store]
    have due : agcDue y k lock = true ↔ w.trip.latch = false ∧ lock = true ∧
        ((x.thread k).state = .rolling ∨ (x.thread k).state = .tailing) ∧ 0 < (x.sched k).kg := by
      unfold agcDue
      rw [latch, thread, sched]
      simp only [Bool.and_eq_true, Bool.not_eq_true', Bool.or_eq_true, beq_iff_eq, decide_eq_true_iff, and_assoc]
    rw [agc, hg, gapReply_agc inside, same.updated inside, agcY]
    by_cases is : agcDue y k lock = true
    · rw [if_pos is, if_pos (due.mp is)]
    · rw [if_neg is, if_neg (mt due.mpr is)]

end

/-- Settles O58: the work's pieces one by one, in any order, and the generator's countdown by its three cases. -/
theorem deliveredRepliesDoTheBlocksWork : Obligations.DeliveredRepliesDoTheBlocksWork := by
  refine ⟨?_, fun dL s g left gen positive hLeft => countDown_cases dL g left gen positive hLeft⟩
  intro dt began ended age idle fr plan s c k p f v flags held inside phase allowed hage ends hended quiet judged enough
  obtain ⟨clock, line, level, tracker, est, gap, latch⟩ := heard_keeps (k := k) (r := .stand p f v flags) (s := s.atTime ended)
  have cycle : SameCycle (s.atTime ended) (heard k (.stand p f v flags) (s.atTime ended)) := heard_cycle
  have known := heard_present (k := k) (p := p) (f := f) (v := v) (flags := flags) (s := s.atTime ended)
  have run := exec_replyReceived (fr := fr) held phase allowed hage ends hended judged enough
  obtain ⟨-, -, stations⟩ := deliverStand_spec k p f v flags plan c.late (s.clock + dt)
    (heard k (.stand p f v flags) (s.atTime ended)) inside c fun _ =>
      ⟨cycle.2.1.trans held.2.1, by rw [cycle.1]; exact poll_ne held.2.2⟩
  obtain ⟨-, -, -, stations, -⟩ := stations (.inl (plan_split plan allowed))
  obtain ⟨u, hu⟩ : ∃ u, u = heard k (.stand p f v flags) (s.atTime ended) := ⟨_, rfl⟩
  rw [← hu] at clock line level tracker est gap latch cycle known run stations
  rw [deliverStand_eq] at run stations
  obtain ⟨s0, hs0⟩ : ∃ s0, s0 = estimateReply k p f (u.withStation (.stand k) (deliveredAs k v u)) := ⟨_, rfl⟩
  rw [← hs0] at run stations
  obtain ⟨lock, hlock⟩ : ∃ lock, lock = (u.thread k).lockMade := ⟨_, rfl⟩
  obtain ⟨span, hspan⟩ : ∃ span, span = (u.link.stations.get k).elapsed u.clock := ⟨_, rfl⟩
  rw [← hlock, ← hspan] at run stations
  have cycle0 : s0.link.cycle = some c ∧ s0.link.pollList = s.link.pollList ∧ s0.link.expiryWaiting = s.link.expiryWaiting := by
    rw [hs0]
    exact ⟨cycle.2.1.trans held.2.1, cycle.1, cycle.2.2.1⟩
  have gap0 : s0.gap = s.gap := by rw [hs0]; exact gap
  have tracker0 : s0.tracker = s.tracker := by rw [hs0]; exact tracker
  have latch0 : s0.trip.latch = s.trip.latch := by rw [hs0]; exact latch
  have line0 : s0.line = s.line := by rw [hs0]; exact line
  have level0 : s0.level = .run := by rw [hs0]; exact level.trans held.1
  have act0 : (s0.est.get k).gapAct = (p : Int) - (s.est.get k).z := by
    have own : s0.est.get k = (u.est.get k).atReply p f := by rw [hs0]; exact PerStand.get_set_same _ _ _ inside
    rw [own, est]
    rfl
  have checked : Work.check ∈ plan := (Laws.WellFormedLaw.planOk_spec allowed).1.mem_iff.mpr (by simp)
  have sameCopy {x : State} (same : x.line = s0.line) : x.lineCopy = s.lineCopy := by
    unfold State.lineCopy
    rw [same, line0]
  obtain ⟨t, ht⟩ : ∃ t, t = allWork k p f (min v 30000) flags lock span (s.clock + dt) plan s0 := ⟨_, rfl⟩
  rw [← ht] at run stations
  refine ⟨_, run, fun still distinct next => ?_, fun latched => ?_, fun outside => ?_, fun overload => ?_, fun fault => ?_, ?_⟩
  · have base := allWork_base (p := p) (f := f) (v := min v 30000) (flags := flags) (lock := lock) (elapsed := span)
      (now := s.clock + dt) inside allowed cycle0.1 (by rw [cycle0.2.1]; exact distinct) (by rw [cycle0.2.1]; exact held.2.2)
      (by rw [cycle0.2.1, cycle0.2.2]; exact next) (by rw [gap0]; exact still)
    rw [← ht, gap0, act0] at base
    exact base
  · have frozen := allWork_latched (p := p) (f := f) (v := min v 30000) (flags := flags) (lock := lock) (elapsed := span)
      (now := s.clock + dt) (plan := plan) inside (latch0.trans latched) (by rw [tracker0]; exact quiet)
    rw [← ht, tracker0, gap0] at frozen
    exact frozen
  · refine CauseTaken.of_trip (ht ▸ allWork_causes checked fun x same => ?_) rfl
    unfold replyCauses
    rw [sameCopy same, if_pos outside]
    simp
  · refine CauseTaken.of_trip (ht ▸ allWork_causes checked fun x same => ?_) rfl
    unfold replyCauses
    rw [sameCopy same, if_pos overload]
    simp
  · refine CauseTaken.of_trip (ht ▸ allWork_causes checked fun x same => ?_) rfl
    refine List.mem_append_right _ ?_
    rw [if_pos (.inl fault)]
    exact List.mem_singleton_self _
  · intro first rest s1 x w a elapsed bites clear present firsts order hElapsed hs1 ha hBites hx hw
    have record : u = answeredAt (.stand k) (.stand p f v flags) (s.atTime ended) := known present
    have own : u.link.stations.get k = (s.station (.stand k)).answered.withReply (.stand p f v flags) := by
      rw [record]
      exact PerStand.get_set_same _ _ _ inside
    have same : s1 = s0 := by
      have final : (t.station (.stand k)) = deliveredAs k v u := (stations (.stand k)).trans (if_pos rfl)
      rw [hs1, hs0, show ((writeImage k c.late t).atTime (s.clock + dt)).settled.station (.stand k) = deliveredAs k v u from final]
      refine congrArg (estimateReply k p f) ?_
      generalize deliveredAs k v u = station
      rw [record]
      unfold answeredAt State.withStation
      dsimp only
      rw [PerStand.set_set]
    have spanned : elapsed = span := by
      rw [hElapsed, hspan, own, clock, Station.elapsed_eq]
      rfl
    have copy : a.1.lineCopy = s.lineCopy := by
      refine sameCopy ?_
      rw [ha, same]
      exact ((Beside.track s0).advanceZone (Beside.refl s0)).line
    have locked : lock = (s.thread k).lockMade := by
      rw [hlock]
      unfold State.thread
      rw [tracker]
      rfl
    have tracked := trackerWork_eq (k := k) (f := f) level0 (latch0.trans clear)
      (show a = advanceZone k (min v 30000) span s0 by rw [ha, same, spanned])
      (hBites.trans (by rw [confirmsBite1_eq, copy]))
    rw [← hx] at tracked
    have ends := allWork_tracked (p := p) (flags := flags) (now := s.clock + dt) (lock := lock) inside allowed firsts order tracked hw
    rw [← ht, locked] at ends
    exact ends

end Sys2Proof.Machine
